-- ==== Sys2Proof/Word.lean ====
section
/-! DEFINITION. The word types of the model: bytes and 32-, 48-, 64- and 128-bit words. -/

namespace Sys2Proof

/-- One byte (R9: every multi-byte value is a little-endian list of these). -/
abbrev Byte := BitVec 8
/-- One set-up register (R64: every register is 32 bits wide). -/
abbrev Word32 := BitVec 32
/-- One 64-bit value: Station Time, digests, serial numbers. -/
abbrev Word64 := BitVec 64
/-- One 128-bit Squall output (R301). -/
abbrev Word128 := BitVec 128

/-- An error of one datapath value of a matrix cell (R228 to R237), which a MATMUL or LOADW carries from outside: the
amount `amount` × 2^`shift` by which the value is off. -/
structure DatapathError where
  /-- The tile of the work that meets it: K-tile and N-tile; 0 and 0 for work aimed at a cell. -/
  kt : Nat
  nt : Nat
  /-- The streamed row of a MATMUL, or the output channel of the tile of a LOADW. -/
  row : Nat
  /-- The attempt that meets it: 0 the first, later ones in the order in which the row is streamed or loaded again. -/
  attempt : Nat
  /-- It stands in the digits of an element at element entry. -/
  entry : Bool
  /-- Reduction index of the element where `entry`; else the column whose lane product, side product or sum is off. -/
  index : Nat
  amount : Int
  shift : Int
  /-- It stands in the side entry of a weight, and not in its digits (R237). -/
  side : Bool
deriving DecidableEq, Repr

/-- The operands of MATMUL and LOADW: the slot that holds the descriptor, and the errors that its work meets (log 10). -/
structure ArrayWork where
  slot : Nat
  errors : List DatapathError
deriving DecidableEq, Repr

/-- How the reads of host memory that a command stands for have ended (R547; log 10). -/
structure HostEnd where
  /-- 0: with data; 1: one with Unsupported Request or Completer Abort; 2: one with a completion timeout. -/
  kind : Nat
  /-- Reads that ended otherwise than with good data. -/
  failed : Nat
  /-- Poison by byte of the data; false past its end. -/
  poison : List Bool
deriving DecidableEq, Repr

/-- Reads that all ended with good data. -/
def HostEnd.good : HostEnd := ⟨0, 0, []⟩

/-- Reads that count as ended under R547: at least one where the end, or the poison of the data, shows it. -/
def HostEnd.errors (e : HostEnd) : Nat := if e.kind = 0 && !e.poison.any id then e.failed else max 1 e.failed

/-- The data of a write of the host, which may come as a Poisoned TLP (Table 15.1; log 10). -/
structure HostData where
  bytes : List Byte
  poisoned : Bool
deriving DecidableEq, Repr

/-- The operands of TRAINING_STEP_DONE: the port; what the partner showed of its capabilities, where step 2 is done; and the lane-0
delays measured, out and in, in 2^−8 ns, where step 4 is (Table 13.5; log 10). -/
structure TrainStep where
  port : Nat
  capabilities : List Byte
  delayOut : Nat
  delayIn : Nat
deriving DecidableEq, Repr

/-- The operands of UPDATE and NEARVEC: the slot that holds the descriptor, and how many of its rows, or of the elements of an
element-wise NEARVEC, the engines deal with (log 3). -/
structure EngineWork where
  slot : Nat
  amount : Nat
deriving DecidableEq, Repr

/-- The operands of STACK_REFRESH: the stack, and how many of its commands since the last refresh were retried for a parity
error (Table 11.1; log 10). -/
structure RefreshWork where
  stack : Nat
  retries : Nat
deriving DecidableEq, Repr

end Sys2Proof
end

