-- ==== Sys2Proof/Syntax.lean ====
section
/-! DEFINITION. The commands the block takes: one constructor for each row of the command table. An operand is
what the command carries from outside (an address, a value, a reading); a descriptor command carries the number of
the holding slot its descriptor stands in. -/

namespace Sys2Proof

/-- One command. -/
inductive Instr where
  /-- R783: VAUX rises above its fail threshold and resets the Isankoan blocks and everything else. -/
  | vauxPowerOn (testMode : Bool) (flash : Nat) (selfTestFail : List Nat) (training : List (Option Nat))
  /-- R787: SYS_PWROK rises while VAUX is up, and the device runs the power-on sequence up to READY. -/
  | mainPowerOn (flash : Nat) (selfTestFail : List Nat) (training : List (Option Nat))
  /-- R791: PERST#, Hot Reset, Link Disable or firmware activation starts a warm reset that discards buffered stores and re-enumerates. -/
  | warmReset (trigger : Nat) (squallFail : List Nat)
  /-- R791: A Function Level Reset runs the reset sequence while the link stays up. -/
  | functionLevelReset (squallFail : List Nat)
  /-- R791: A write of RST_CTL.WARM with the correct KEY starts a warm reset. -/
  | rstCtlWarm (value : Nat) (squallFail : List Nat)
  /-- R797: A write of RST_CTL.POWERDOWN with the correct KEY starts an orderly power-down. -/
  | rstCtlPowerdown (value : Nat)
  /-- R797: DOWN_LIMIT expires during an orderly power-down and running descriptors are stopped and complete ABORTED. -/
  | powerdownLimitExpiry
  /-- R799: A rail below its fail threshold for 5 us, a fall of SYS_PWROK or a fall of VAUX stops every node without draining. -/
  | suddenPowerLoss (cause : Nat)
  /-- R731: A junction sensor reads 110 C or above, THERMTRIP# is asserted and every node stops. -/
  | thermtrip (die : Nat) (sensor : Nat) (temp : Nat)
  /-- R745: A rail falls below its hold threshold and no new access starts in the domain it serves. -/
  | supplyHoldStart (rail : Nat) (mv : Nat)
  /-- R746: The rail rises above its release level, the hold ends and SUPPLY_HOLD is posted. -/
  | supplyHoldEnd (rail : Nat) (mv : Nat)
  /-- R733: Assertion of PWR_ALERT# forces throttle of at least level 8 on both dies. -/
  | pwrAlert
  /-- R733: The 100 us after the release of PWR_ALERT# expire and the level-8 throttle floor ends. -/
  | pwrAlertReleaseTimer
  /-- R738: Every 1 us the power estimate is updated and the fast safety loop adjusts T_fast against the current limits. -/
  | fastSafetyTick (watts : Nat)
  /-- R738: Every 100 us the junction loop adjusts U_safe and T_slow of a die. -/
  | slowSafetyJunctionTick (die : Nat)
  /-- R738: Every 1 ms the coolant loop compares P_1ms with P_cool and adjusts U_safe and T_slow on both dies. -/
  | coolantLoopTick
  /-- R738: Every 1 ms the policy-cap loop adjusts U_cap and T_cap. -/
  | policyCapTick
  /-- R722: Every 10 us V_op of a die moves one 5 mV step toward its target. -/
  | vopStep (die : Nat)
  /-- R730: Every 10 us the junction sensors are read and the WARN and LIMIT thresholds are judged. -/
  | junctionSensorRead (temps0 : List Nat) (temps1 : List Nat)
  /-- R726: Every 10 ms the lid reports inlet temperature, outlet temperature and flow. -/
  | coolantReport (inlet : Nat) (outlet : Nat) (flow : Nat)
  /-- R727: A coolant condition has held for 100 ms, or 1 s for a return, and the coolant state changes. -/
  | coolantStateChange
  /-- R720: Every 1 ms the device reads the voltage, current and status of every regulator and calibrates its power estimates. -/
  | pmbusRead (rails : List (Nat × Nat × Nat))
  /-- R555: A write of the SQ_TAIL doorbell records a new tail for a submission ring. -/
  | sqTail (ring : Nat) (value : Nat)
  /-- R570: A write of the CQ_HEAD doorbell consumes completion records. -/
  | cqHead (ring : Nat) (value : Nat)
  /-- R574: A write of 1 to CQ_ARM arms the completion ring's interrupt. -/
  | cqArm (ring : Nat) (value : Nat)
  /-- R557: A read of submission entries from host memory completes and the copies are held, or the read failed. -/
  | submissionReadComplete (ring : Nat) (index : Nat) (data : List Byte) (error : Nat)
  /-- R558: Every 4 096 beats, covered entries whose copy is not current are read again. -/
  | sqRefetchTimer (ring : Nat)
  /-- R555: The head entry is current, covered and a holding slot is free, so the device accepts it and takes a slot. -/
  | descriptorAccept
  /-- R565: A descriptor whose wait mask is satisfied is dispatched to its target node, or completes ABORTED for an invalid opcode or target. -/
  | descriptorDispatch (slot : Nat)
  /-- R570: A record waiting in its slot is written to its completion ring when the ring has room. -/
  | completionRecordWrite (ring : Nat)
  /-- R574: A record has waited TIME x 1 024 beats on an armed ring and the vector is signalled. -/
  | msixTimer (ring : Nat)
  /-- R573: An event record waiting in the event buffer is written to completion ring 0 when it has room. -/
  | eventRecordWrite
  /-- R549: A host read through BAR4 returns tier-memory bytes, with poisoned granules completed as Poisoned. -/
  | bar4Read (addr : Nat) (len : Nat)
  /-- R549: A host write through BAR4 stores bytes into tier memory, with partial granules as read-modify-writes. -/
  | bar4Write (addr : Nat) (data : HostData)
  /-- R100: A cell streams rows through its lanes and writes or adds the exact sums to accumulator words. -/
  | matmul (work : ArrayWork)
  /-- R116: A weight tile is converted to digits and loaded into a bank or quarter with its side entries. -/
  | loadw (work : ArrayWork)
  /-- R168: The drain stage reads accumulator rows, applies scales and bias and converts them to the storage format. -/
  | drain (slot : Nat)
  /-- R51: A frozen cell or engine receives the handshake it waited on and resumes. -/
  | freezeResume (node : Nat)
  /-- R193: A vector engine scans or combines a source and writes one statistics record per row. -/
  | stats (slot : Nat)
  /-- R208: A vector engine quantises a tensor with row scales, escapes, overflow widening and optional rotation. -/
  | quant (slot : Nat)
  /-- R297: A vector engine applies a rotation form to each 128-element group. -/
  | rotate (slot : Nat)
  /-- R283: A vector engine applies one element-wise operation to every element of a result. -/
  | vec (slot : Nat)
  /-- R288: A vector engine reduces along rows or across inputs, including the normalisations and the exact add. -/
  | reduce (slot : Nat)
  /-- R239: A vector engine recomputes sampled output tiles in FP32 and updates the layer entry's score. -/
  | check (slot : Nat)
  /-- R623: A vector engine computes the 64-bit polynomial digest of raw bytes. -/
  | digest (slot : Nat)
  /-- R609: A mover copies rows between tier memory, stack memory, other chips and the host. -/
  | move (slot : Nat) (host : List Byte) (ends : HostEnd)
  /-- R611: A STREAM SEND sends bytes on a send context as STREAM_DATA messages under credit. -/
  | streamSend (slot : Nat) (host : List Byte) (ends : HostEnd)
  /-- R611: A STREAM WAIT completes when the receive context's HEAD reaches UNTIL. -/
  | streamWait (slot : Nat)
  /-- R611: A STREAM RELEASE raises the receive context's LIMIT and may send STREAM_CREDIT. -/
  | streamRelease (slot : Nat)
  /-- R484: A STREAM waits TIMEOUT units without progress and completes with TIMEOUT. -/
  | streamTimeout (slot : Nat)
  /-- R484: A WRITE_ACK or READ_DATA has not arrived within STALL_LIMIT and the request completes with TIMEOUT. -/
  | responseTimeout (tag : Nat)
  /-- R513: A collective instance starts, sends its own contributions and runs the reduce and gather phases. -/
  | coll (slot : Nat)
  /-- R515: A segment whose inputs are present and whose credit is held is sent to a neighbour. -/
  | collSegmentSend (slot : Nat)
  /-- R532: An active instance receives nothing for TIMEOUT units and completes with TIMEOUT, sending ABORTs. -/
  | collTimeout (slot : Nat)
  /-- R527: An ALLGATHER of one 64-bit value per member writes all values in rank order. -/
  | counts (slot : Nat)
  /-- R538: A barrier runs its rounds of BARRIER messages and computes the release time. -/
  | barrier (slot : Nat)
  /-- R539: Station Time reaches the release time and the member releases and writes its completion. -/
  | barrierRelease (slot : Nat)
  /-- R405: Update engines apply the optimizer rule to a parameter tensor in its stack and emit copies and statistics. -/
  | update (work : EngineWork)
  /-- R420: Update engines run an element-wise or row-wise operation on data in one stack. -/
  | nearvec (work : EngineWork)
  /-- R425: A FENCE completes when engine writes of the named stacks are readable through the pins. -/
  | fence (slot : Nat)
  /-- R340: A pass over a stated range checks, corrects or poisons units and writes a summary. -/
  | scrub (slot : Nat)
  /-- R677: The ranges of a range list are copied in list order to a destination with their poison. -/
  | snapshot (slot : Nat)
  /-- R615: A NOP completes OK when it is dispatched. -/
  | nop (slot : Nat)
  /-- R629: The package root runs the step-boundary sequence and writes the STEP completion. -/
  | step (slot : Nat)
  /-- R659: A 64 KiB block copied from a twin completes, or all sources fail and the package enters HOLD. -/
  | blockCopyComplete
  /-- R657: A copy waits 65 536 beats for a source's seal to name the step, and fails at TWIN_WAIT. -/
  | copySealWait
  /-- R655: An image pass finishes copying every imaged range and IMAGE_STEP is written. -/
  | imagePassComplete
  /-- R637: In Timetable mode, a held descriptor is released at its planned start. -/
  | heldRelease (slot : Nat)
  /-- R638: In Timetable mode, a grid descriptor reports completion at the next grid line. -/
  | gridCompletion (slot : Nat)
  /-- R52: A leaf completes no handshake for STALL_LIMIT and its STALL bit is set with one event. -/
  | stallLimitExpiry (node : Nat)
  /-- R58: Every 65 536 beats the cadence monitor's count is converted and reported in CADENCE. -/
  | cadenceWindow (counts : List (Nat × Nat))
  /-- R346: Each slice and cell checks one line or word of the background walk in its period. -/
  | tierWalkTick (die : Nat)
  /-- R387: Each pseudo-channel checks one 1 KiB row of the background walk in its period. -/
  | stackWalkTick (stack : Nat)
  /-- R366: Refresh is issued at the interval for the stack's reported temperature. -/
  | stackRefresh (work : RefreshWork)
  /-- R376: Every 2^20 beats the stack temperature is read and its throttle level set. -/
  | stackTempRead (stack : Nat) (temp : Nat)
  /-- R373: The base die finishes converting a changed unit to its new kind. -/
  | regionConversionDone (stack : Nat)
  /-- R383: Accepted accesses complete and the stack enters TEST state, retraining at the new BIN. -/
  | testEntry (stack : Nat) (lanes : Option Nat)
  /-- R385: A write of 1 to MARGIN_CTL.START starts one margin test. -/
  | marginStart (stack : Nat)
  /-- R385: A margin test ends, restores the trained setting and writes MARGIN_RESULT. -/
  | marginTestDone (stack : Nat) (errors : Nat)
  /-- R459: A data flit arrives and is accepted in SEQ order, or discarded and a NAK sent on CRC failure. -/
  | dataFlit (port : Nat) (bytes : List Byte)
  /-- R457: A control flit arrives carrying acknowledgements, credits, time and root advertisements. -/
  | controlFlit (port : Nat) (bytes : List Byte)
  /-- R455: An idle flit arrives and carries nothing. -/
  | idleFlit (port : Nat) (bytes : List Byte)
  /-- R457: 2^CTRL_LOG2 flits have passed and a port sends a control flit. -/
  | controlFlitTimer (port : Nat)
  /-- R460: A data flit stays unacknowledged for 1 024 flit periods and the transmitter resends. -/
  | replayTimeout (port : Nat)
  /-- R445: A port in SEEK detects its partner's pattern on all lanes and enters TRAIN. -/
  | partnerDetected (port : Nat) (chip : Nat) (partnerPort : Nat) (serial : Nat)
  /-- R445: A training step completes and the port moves to the next step. -/
  | trainingStepDone (step : TrainStep)
  /-- R447: A training step exceeds its limit and the port returns to SEEK or enters FAILED. -/
  | trainingStepTimeout (port : Nat)
  /-- R452: Four good flits after lane alignment bring the port to UP. -/
  | lockAchieved (port : Nat)
  /-- R452: No aligning reseed flit arrives within 3 x 4 096 flits and the search restarts. -/
  | lockSearchTimeout (port : Nat)
  /-- R453: 8 header mismatches within 64 blocks return a port in UP to ALIGN. -/
  | headerMismatch (port : Nat)
  /-- R447: A RETRAIN does not reach UP within 10 ms and counts as a training failure. -/
  | retrainTimeout (port : Nat)
  /-- R448: 10 us after ENABLE goes to 0, the port enters OFF and discards unacknowledged flits. -/
  | portDisableTimeout (port : Nat)
  /-- R472: A message for another chip is looked up in the routing bank of its epoch and forwarded or found unreachable. -/
  | messageForward (port : Nat) (header : List Byte) (payload : List Byte) (poison : List Bool)
  /-- R468: A WRITE message writes its payload at TARGET and sends WRITE_ACK. -/
  | write (header : List Byte) (payload : List Byte) (poison : List Bool)
  /-- R468: A READ message reads LEN bytes at TARGET and sends READ_DATA. -/
  | read (header : List Byte)
  /-- R468: A READ_DATA message is delivered to its requester by TAG. -/
  | readData (header : List Byte) (payload : List Byte) (poison : List Bool)
  /-- R468: A WRITE_ACK message is delivered to its writer by TAG. -/
  | writeAck (header : List Byte)
  /-- R482: A STREAM_DATA message is written into the receive context's ring or breaks the context. -/
  | streamData (header : List Byte) (payload : List Byte) (poison : List Bool)
  /-- R481: A STREAM_CREDIT message raises the send context's LIMIT. -/
  | streamCredit (header : List Byte)
  /-- R513: A REDUCE segment of a collective lands, is combined and sent on or reduced by the owner. -/
  | collReduce (header : List Byte) (payload : List Byte) (poison : List Bool)
  /-- R514: A GATHER segment lands, is written to OUT and forwarded unchanged. -/
  | collGather (header : List Byte) (payload : List Byte) (poison : List Bool)
  /-- R533: An ABORT message ends an active instance with TIMEOUT and is passed on, or is kept for a later start. -/
  | collAbort (header : List Byte) (payload : List Byte)
  /-- R538: A BARRIER message of one round is merged into the member's latest stamp, or kept until the instance starts. -/
  | collBarrier (header : List Byte) (payload : List Byte)
  /-- R525: A COLL_CREDIT message grants segments of landing space to the sender. -/
  | collCredit (header : List Byte) (payload : List Byte)
  /-- R571: An EVENT message posts its record to completion ring 0. -/
  | event (header : List Byte) (payload : List Byte)
  /-- R473: An UNREACHABLE message ends the source descriptor with TIMEOUT. -/
  | unreachable (header : List Byte)
  /-- R555: A DOORBELL message acts as a write of SQ_TAIL on a ring with REMOTE set. -/
  | doorbell (header : List Byte)
  /-- R476: Station Time reaches the armed switch time and the inactive routing bank becomes active. -/
  | routeSwitch
  /-- R491: An UNSET package whose own offer has been best for 100 ms starts counting as a FABRIC root. -/
  | unsetRootTimer
  /-- R495: A pulse on TIME_REF validates the reference, applies TIME_SET or disciplines the time. -/
  | timeRefPulse (interval : Nat)
  /-- R495: 2 s pass without a reference pulse and the reference becomes invalid. -/
  | timeRefLost
  /-- R668: The RECOVER command brings the live state to a target step and syncs NO_IMAGE ranges. -/
  | recover
  /-- R669: The REBUILD command copies the whole step state from a twin source. -/
  | rebuild
  /-- R671: The ADOPT command declares that the live state holds a given step. -/
  | adopt
  /-- R672: The RESUME command leaves HOLD and releases dispatch, optionally flushing. -/
  | resume
  /-- R664: The HOLD command stops dispatch and enters HOLD with cause SOFTWARE. -/
  | hold
  /-- R693: A hart enters debug mode and dispatch to its scope stops and drains. -/
  | debugHalt (hart : Nat) (pc : Nat) (cause : Nat)
  /-- R693: A write of DBG_CTL.HALT begins a host halt of HALT_NODE's subtree. -/
  | dbgCtlHalt
  /-- R693: Dispatched pieces of held nodes complete, the nodes become Halted and BREAK is posted. -/
  | haltDrainComplete
  /-- R694: DRAIN_LIMIT expires and the halt is reported with DRAIN_INCOMPLETE. -/
  | drainLimitExpiry
  /-- R698: A halted hart resumes and its halt ends. -/
  | hartResume (hart : Nat)
  /-- R698: A write of DBG_CTL.RESUME ends the host halt. -/
  | dbgCtlResume
  /-- R709: A write of DBG_CTL.FORCE_FATAL enters FATAL with cause FORCED. -/
  | dbgCtlForceFatal
  /-- R709: A control core takes an unhandled M-mode trap and the package enters FATAL. -/
  | coreTrap (hart : Nat)
  /-- R709: A core with a non-idle role goes 100 ms without refreshing its watchdog and the package enters FATAL. -/
  | watchdog (hart : Nat)
  /-- R709: An uncorrectable error in queue memory sends the package to FATAL. -/
  | queueUe
  /-- R709: The die-to-die coupling stops passing handshakes and the package enters FATAL. -/
  | coupling
  /-- R710: The state dump finishes in the stack region and DUMP_DONE is posted. -/
  | dumpDone
  /-- R710: The copy of the dump to the host finishes and HOST_DUMP_DONE is posted. -/
  | hostDumpDone
  /-- R766: A debugger's signed token unlocks the Debug Module, or counts a failure. -/
  | debugAuth (token : List Byte)
  /-- R706: A write of CTR_CMD.LATCH latches every counter as at a boundary. -/
  | ctrCmdLatch
  /-- R774: A write of CENSUS_CTL.NOW runs a census when no STEP is running. -/
  | censusNow
  /-- R775: A write of CENSUS_CTL.UNFENCE queues an unfence request for the next census. -/
  | censusUnfence (node : Nat)
  /-- R260: Writing 1 to AEC_STATUS.STORM_HALT clears it and resumes dispatch. -/
  | stormHaltClear
  /-- R351: Writing LOG_CLEAR.UE frees every entry of the uncorrectable-error log. -/
  | logClearUe (block : Nat)
  /-- R351: Writing LOG_CLEAR.CE frees every entry of the correctable-error log. -/
  | logClearCe (block : Nat)
  /-- R437: Writing RANGE_CLEAR.ALL frees the poisoned-range list and clears RANGE_LOST. -/
  | rangeClear (stack : Nat)
  /-- R498: CTX_CMD.WRITE stores CTX_DATA into the selected context entry between messages. -/
  | ctxCmdWrite
  /-- R498: CTX_CMD.READ latches the selected context entry into CTX_DATA. -/
  | ctxCmdRead
  /-- R35: A write to ENUM_SEL latches the selected node's enumeration record. -/
  | enumSel (value : Nat)
  /-- R356: A write to LOG_SEL latches the selected error-log entry. -/
  | logSel (block : Nat) (value : Nat)
  /-- R702: A write to SIG_SEL latches a signal-log entry and the entry count. -/
  | sigSel (value : Nat)
  /-- R705: A write to CTR_SEL latches the live and latched values and flags of a counter. -/
  | ctrSel (value : Nat)
  /-- R437: A write to RANGE_SEL latches a poisoned-range list entry. -/
  | rangeSel (stack : Nat) (value : Nat)
  /-- R750: A write to RAIL_SEL latches the selected rail's status. -/
  | railSel (value : Nat)
  /-- R717: A write to CORE_SEL latches the selected hart's status. -/
  | coreSel (value : Nat)
  /-- R779: A write to MNODE_SEL latches the selected domain's two views. -/
  | mnodeSel (value : Nat)
  /-- R779: A write to BB_SEL latches the selected black-box record. -/
  | bbSel (value : Nat)
  /-- R498: A read of TIME_NOW_LO returns low Station Time and latches the high bits. -/
  | timeNowLoRead
  /-- R15: A read of FREEZE_COUNT returns the count and clears it. -/
  | freezeCountRead
  /-- R575: A read of CLAMP_COUNT returns the clamps since the last read and clears it. -/
  | clampCountRead
  /-- R65: COMMIT of the unit-tree block applies slack requests and the stall limit. -/
  | unitTreeCommit
  /-- R247: AEC_COMMIT captures the arithmetic-check fields for the next boundary. -/
  | aecCommit
  /-- R647: TF_COMMIT captures PLAN and QUANTUM for the next boundary. -/
  | tfCommit
  /-- R673: RS_COMMIT applies resilience settings, lists and seal address, recomputing SHAPE. -/
  | rsCommit
  /-- R717: OBS_COMMIT applies observation, signal-mask and dump settings. -/
  | obsCommit
  /-- R750: PWR_COMMIT applies the power cap, reliability floor and performance request. -/
  | pwrCommit
  /-- R804: RST_COMMIT applies DOWN_LIMIT. -/
  | rstCommit
  /-- R561: HOST_COMMIT applies every ring's shadowed fields, enabling or disabling rings. -/
  | hostCommit
  /-- R498: FAB_COMMIT applies fabric, port, time and routing-switch settings. -/
  | fabCommit
  /-- R356: TM_COMMIT applies the walk settings and arms the flip mask. -/
  | tmCommit (die : Nat)
  /-- R373: STK_COMMIT applies stack state, bin, regions, margining and injection settings. -/
  | stkCommit (stack : Nat)
  /-- R819: A pending COMMIT reaches its commit point and its captured fields take effect together. -/
  | commitPoint (block : Nat)
  /-- R13: A BAR0 write to a register without a row of its own stores or ignores the value by its access type. -/
  | registerWrite (offset : Nat) (value : Nat) (enables : Nat)
  /-- R754: The bus owner assigns the MCTP endpoint ID. -/
  | setEndpointId (eid : Nat)
  /-- R755: MCTP control command returning the endpoint ID. -/
  | getEndpointId
  /-- R755: MCTP control command returning the endpoint UUID. -/
  | getEndpointUuid
  /-- R755: MCTP control command returning the supported versions. -/
  | getMctpVersionSupport (msgType : Nat)
  /-- R755: MCTP control command returning the supported message types. -/
  | getMessageTypeSupport
  /-- R755: MCTP control command returning vendor-defined message support. -/
  | getVendorDefinedMsgSupport (selector : Nat)
  /-- R758: PLDM command returning a numeric sensor reading. -/
  | getSensorReading (sensor : Nat)
  /-- R758: PLDM command returning state sensor readings. -/
  | getStateSensorReadings (sensor : Nat)
  /-- R759: PLDM command setting MGMT_CAP, clamped to 600 to 2 400 W, with a black-box record. -/
  | setNumericEffecterValue (effecter : Nat) (value : Nat)
  /-- R758: PLDM command returning MGMT_CAP. -/
  | getNumericEffecterValue (effecter : Nat)
  /-- R758: PLDM command returning records of the PDR repository. -/
  | getPdr (handle : Nat)
  /-- R758: PLDM command registering the event receiver. -/
  | setEventReceiver (eid : Nat) (enable : Nat)
  /-- R765: PLDM firmware update commands write a component to the slot that did not boot. -/
  | pldmFirmwareUpdate (component : Nat) (version : Nat) (svn : Nat) (image : List Byte) (good : Bool)
  /-- R765: ActivateFirmware marks the written slot as first choice. -/
  | activateFirmware (warm : Bool)
  /-- R755: SPDM command returning supported versions. -/
  | getVersion
  /-- R755: SPDM command returning capabilities. -/
  | getCapabilities
  /-- R756: SPDM command settling on ECDSA P-384 and SHA-384. -/
  | negotiateAlgorithms (asym : Nat) (hash : Nat)
  /-- R756: SPDM command returning certificate chain digests. -/
  | getDigests
  /-- R756: SPDM command returning the identity or alias certificate chain. -/
  | getCertificate (slot : Nat) (offset : Nat) (len : Nat)
  /-- R756: SPDM command answered with a signed challenge response. -/
  | challenge (slot : Nat) (nonce : List Byte)
  /-- R757: SPDM command returning measurement blocks signed with the alias key. -/
  | getMeasurements (operation : Nat) (sign : Bool) (nonce : List Byte)
  /-- R760: Vendor command returning black-box records from a starting SEQ. -/
  | readBlackbox (start : Nat) (count : Nat)
  /-- R760: Vendor command returning the last-gasp OTP field. -/
  | readLastgasp
  /-- R760: Vendor command returning a domain's two views and fence origin. -/
  | getDomain (node : Nat)
  /-- R760: Vendor command setting a domain's management state for the next census. -/
  | setDomain (node : Nat) (mv : Nat) (unfence : Bool)
  /-- R760: Vendor command sending the package to FATAL with cause MANAGEMENT. -/
  | requestFatal (word : Nat)
  /-- R760: Vendor command returning boot slots, versions and failure cause. -/
  | getBoot
  /-- R770: A queued black-box record is programmed and verified, or its partition is marked failed. -/
  | blackboxRecordWrite (good : Bool)
  /-- R637: In Timetable mode, Station Time reaches the planned completion of a held descriptor that finished early, and its successors are released. -/
  | plannedCompletion (slot : Nat)
  /-- R710: DRAIN_LIMIT x 1 024 beats after entry to FATAL expire and the device stops logs and counters, posts FATAL and starts the dump. -/
  | fatalDrainLimitExpiry
  /-- R797: 1 ms after POWERDOWN_READY is posted without being written to ring 0, PKG_RUN goes low and STATE reads DOWN_READY. -/
  | powerdownReadyTimeout
  /-- R687: An access to the Debug Module through DMI runs an abstract register command, program-buffer execution or system bus access. -/
  | dmiAccess (op : Nat) (address : Nat) (data : Nat)
  /-- R844: An instruction loaded into the TAP's instruction register selects its data register, and in TEST_MODE the boundary-scan instructions drive or sample the signal balls. -/
  | tapInstruction (ir : Nat) (drive : Nat)
  /-- R789: A PCI Express configuration request arrives and is answered with Request Retry Status before BAR0 is readable, and served otherwise. -/
  | configurationRequest (write : Bool) (register : Nat) (value : Nat)
  /-- R754: The I3C controller assigns the device its dynamic address on the I3C bus. -/
  | dynamicAddressAssignment (address : Nat)
  /-- R755: An MCTP request of an unsupported type or an unlisted command is answered with the unsupported-command completion code and counted in MCTP_ERRORS. -/
  | unsupportedCommand (msgType : Nat) (command : Nat)
deriving DecidableEq, Repr

end Sys2Proof
end

