-- ==== Sys2Proof/Decode.lean ====
section
/-! DEFINITION. The command that a word spells. The command table gives no row any bits, so that no word spells a command:
commands reach the block as its registers, buses and pins carry them, not as encoded words. -/

namespace Sys2Proof

/-- The command that a word of `nbits` bits spells by the bits of the command table: none, since no row has bits. -/
def decodeTableWord (_nbits _w : Nat) : Option Instr := none

end Sys2Proof
end

