-- ==== Sys2Proof/Machine/Types.lean ====
section
/-! DEFINITION. The closed sets of names the spec uses: number formats, rounding modes, completion
statuses, node kinds and states, port states, and the exact values that codes stand for. -/

namespace Sys2Proof.Machine

/-- The eleven number formats of Table 3.1 (R66), in code order. -/
inductive Fmt where
  | b1 | t2 | i3 | i4 | f4 | f6 | f8m | f8x | i8 | bf16 | fp32
deriving DecidableEq, Repr

/-- Rounding of a conversion (Table 3.10, R88). -/
inductive Rnd where
  | nearest | stochastic | towardZero
deriving DecidableEq, Repr

/-- An exact value or special value (R69, R81): a rational with the sign of a zero kept beside it. -/
inductive Value where
  /-- Any NaN: payloads are not carried (R79). -/
  | nan
  /-- An infinity; `neg` is its sign. -/
  | inf (neg : Bool)
  /-- A finite value `r`; `nz` says that a zero is −0 and means nothing for any other value. -/
  | fin (r : Rat) (nz : Bool)
deriving DecidableEq, Repr

/-- What one stored code stands for before side list, zero point and scale (R69, R73, R74, R75). -/
inductive CodeVal where
  /-- The escape pattern of T2, I3, I4, I8, F4 and F6. -/
  | escape
  /-- A value of the format. -/
  | val (v : Value)
deriving DecidableEq, Repr

/-- Completion status codes (R618), in code order. -/
inductive Status where
  | ok | inexact | poison | sealed | timeout | fenced | aborted | widened
deriving DecidableEq, Repr

/-- Node kinds of Table 2.1 (R29). -/
inductive NodeKind where
  | group | cell | vectorEngine | mover | updateEngine
deriving DecidableEq, Repr

/-- Node states of Table 2.6, in code order. -/
inductive NodeState where
  | idle | busy | frozen | halted | fenced | retired | failed | spare
deriving DecidableEq, Repr

end Sys2Proof.Machine
end

