-- ==== Sys2Proof/Machine/Bits.lean ====
section
/-! DEFINITION. Bit fields, byte order, sign extension and saturation: the helpers every other file of
the machine cuts fields with. Bit 0 is the least significant bit (R8) and every multi-byte value is
little-endian (R9). -/

namespace Sys2Proof.Machine

/-- Bits [hi:lo] of a number (R8). -/
def bits (x hi lo : Nat) : Nat := (x / 2 ^ lo) % 2 ^ (hi + 1 - lo)

/-- Bit n of a number as a truth value. -/
def bit (x n : Nat) : Bool := x.testBit n

/-- A truth value as a bit. -/
def b2n (b : Bool) : Nat := if b then 1 else 0

/-- The n-bit two's complement reading of a number (R10). -/
def sext (n x : Nat) : Int :=
  let y := x % 2 ^ n
  if 2 * y < 2 ^ n then (y : Int) else (y : Int) - 2 ^ n

/-- The n-bit two's complement pattern of an integer (R10). -/
def wrap (n : Nat) (x : Int) : Nat := (x % (2 ^ n : Int)).toNat

/-- A counter of n bits that saturates at its largest value. -/
def sat (n x : Nat) : Nat := min x (2 ^ n - 1)

/-- The number that a little-endian list of bytes spells (R9). -/
def leNat : List Byte → Nat
  | [] => 0
  | b :: bs => b.toNat + 256 * leNat bs

/-- The low n bytes of a number, little-endian (R9). -/
def natLe : Nat → Nat → List Byte
  | 0, _ => []
  | n + 1, x => BitVec.ofNat 8 x :: natLe n (x / 256)

/-- n bytes of a list from byte offset `off`, zero where the list is shorter. -/
def slice (bs : List Byte) (off n : Nat) : List Byte :=
  let xs := (bs.drop off).take n
  xs ++ List.replicate (n - xs.length) 0

/-- The n-byte little-endian field at byte offset `off`. -/
def field (bs : List Byte) (off n : Nat) : Nat := leNat (slice bs off n)

/-- A list with the bytes at `off` replaced. -/
def patch (bs : List Byte) (off : Nat) (new : List Byte) : List Byte :=
  bs.take off ++ new ++ bs.drop (off + new.length)

/-- The list of the first n numbers of a range that starts at `a`. -/
def rangeFrom (a n : Nat) : List Nat := (List.range n).map (a + ·)

/-- Bits set in a number of at most `n` bits. -/
def popcount (n x : Nat) : Nat := ((List.range n).filter (fun i => x.testBit i)).length

/-- The parity of the low n bits. -/
def parity (n x : Nat) : Bool := popcount n x % 2 == 1

/-- Element i of width w in a packed row, whose bytes are `row` (R70). -/
def unpackAt (row : List Byte) (w i : Nat) : Nat :=
  let bit0 := i * w
  bits (field row (bit0 / 8) ((w + 7) / 8 + 1)) (bit0 % 8 + w - 1) (bit0 % 8)

/-- A row of codes of width w packed into whole bytes, unused high bits zero (R70, R71). -/
def packRow (w : Nat) (codes : List Nat) : List Byte :=
  natLe ((codes.length * w + 7) / 8) (codes.foldr (fun c acc => c % 2 ^ w + 2 ^ w * acc) 0)

/-- Replace element k of a list, which stays as it is where k lies beyond its end. -/
def setAt {α : Type} (xs : List α) (k : Nat) (x : α) : List α := xs.set k x

/-- Change element k of a list. -/
def modAt {α : Type} (xs : List α) (k : Nat) (f : α → α) : List α := xs.modify k f

/-! ### Cyclic redundancy checks -/

/-- One bit of a reflected CRC: bit 0 of each byte first (R456, R768). -/
def crcBit (poly r : Nat) : Nat := if r % 2 = 1 then (r / 2) ^^^ poly else r / 2

/-- A reflected CRC over bytes, from all ones, inverted at the end. -/
def crcOf (n poly : Nat) (bs : List Byte) : Nat :=
  (bs.foldl (fun r b => (List.range 8).foldl (fun r _ => crcBit poly r) (r ^^^ b.toNat)) (2 ^ n - 1)) ^^^ (2 ^ n - 1)

/-- The flit CRC: polynomial 0x42F0_E1EB_A9EA_3693, bit-reversed (R456). DEDUCED (log 46). -/
def flitCrc (bs : List Byte) : Nat := crcOf 64 0xC96C5795D7870F42 bs
/-- CRC-32 of IEEE 802.3 (R768). DEDUCED (log 46). -/
def crc32 (bs : List Byte) : Nat := crcOf 32 0xEDB88320 bs

end Sys2Proof.Machine
end

