-- ==== Sys2Proof/Machine/Squall.lean ====
section
/-! DEFINITION. Squall, the counter-based random function (chapter 09): R301 to R310. -/

namespace Sys2Proof.Machine

/-- The round constants of Table 9.1 (R302). -/
def squallConst : List Word64 :=
  [0x243F6A8885A308D3, 0x13198A2E03707344, 0xA4093822299F31D0, 0x082EFA98EC4E6C89,
   0x452821E638D01377, 0xBE5466CF34E90C6C, 0xC0AC29B7C97C50DD, 0x3F84D5B5B5470917]

/-- The multiplier M of R301. -/
def squallM : Word64 := 0x0000010000010001

/-- One round of R301 on the pair (a, b), under round number r and its constant. -/
def squallRound (k : Word64) (ab : Word64 × Word64) (rc : Nat × Word64) : Word64 × Word64 :=
  let kr := k.rotateLeft (8 * rc.1) ^^^ rc.2
  let t := (ab.1 ^^^ kr) * squallM
  (ab.2 ^^^ t.rotateLeft 28, t)

/-- The Squall function of a 64-bit key and a 128-bit counter (R301). -/
def squall (k : Word64) (c : Word128) : Word128 :=
  let ab := ((List.range 8).zip squallConst).foldl (squallRound k)
    (c.setWidth 64, (c >>> 64).setWidth 64)
  ab.2 ++ (ab.1 ^^^ k)

/-- The counter of stream s at position p (R307, R310). -/
def squallCounter (stream p : Nat) : Word128 :=
  BitVec.ofNat 128 ((stream % 2 ^ 32) * 2 ^ 96 + p % 2 ^ 64)

/-- The word output at logical index n (R308). -/
def squallWord (key stream n : Nat) : Nat :=
  (squall (BitVec.ofNat 64 key) (squallCounter stream n)).toNat

/-- The element draw of logical index n (R309, R310). -/
def squallDraw (key stream n : Nat) : Nat :=
  let n := n % 2 ^ 64
  let j := n % 4
  bits (squallWord key stream (n / 4)) (32 * j + 23) (32 * j)

end Sys2Proof.Machine
end

