-- ==== Sys2Proof/Machine/Formats.lean ====
section
/-! DEFINITION. The number formats bit by bit and the one conversion procedure (chapter 03): R66 to R98. -/

namespace Sys2Proof.Machine

/-- Format code to format (Table 3.1); `none` for 0xB to 0xF. -/
def Fmt.ofCode : Nat → Option Fmt
  | 0 => some .b1 | 1 => some .t2 | 2 => some .i3 | 3 => some .i4 | 4 => some .f4 | 5 => some .f6
  | 6 => some .f8m | 7 => some .f8x | 8 => some .i8 | 9 => some .bf16 | 10 => some .fp32
  | _ => none

/-- The format code of a format (Table 3.1). -/
def Fmt.code : Fmt → Nat
  | .b1 => 0 | .t2 => 1 | .i3 => 2 | .i4 => 3 | .f4 => 4 | .f6 => 5 | .f8m => 6 | .f8x => 7
  | .i8 => 8 | .bf16 => 9 | .fp32 => 10

/-- Width of a code in bits (Table 3.1). -/
def Fmt.width : Fmt → Nat
  | .b1 => 1 | .t2 => 2 | .i3 => 3 | .i4 => 4 | .f4 => 4 | .f6 => 6 | .f8m => 8 | .f8x => 8
  | .i8 => 8 | .bf16 => 16 | .fp32 => 32

/-- The integer formats, which alone carry a zero point (R83). -/
def Fmt.isInt : Fmt → Bool
  | .t2 | .i3 | .i4 | .i8 => true
  | .b1 | .f4 | .f6 | .f8m | .f8x | .bf16 | .fp32 => false

/-- Formats with infinities (Table 3.1). -/
def Fmt.hasInf : Fmt → Bool
  | .f8x | .bf16 | .fp32 => true
  | .b1 | .t2 | .i3 | .i4 | .f4 | .f6 | .f8m | .i8 => false

/-- Formats with an escape code (Table 3.1). -/
def Fmt.hasEscape : Fmt → Bool
  | .t2 | .i3 | .i4 | .f4 | .f6 | .i8 => true
  | .b1 | .f8m | .f8x | .bf16 | .fp32 => false

/-- The array formats, codes 0x0 to 0x8 (R66). -/
def Fmt.isArray : Fmt → Bool
  | .bf16 | .fp32 => false
  | .b1 | .t2 | .i3 | .i4 | .f4 | .f6 | .f8m | .f8x | .i8 => true

/-- Mantissa field width of a float format; 0 for the others (Table 3.2). -/
def Fmt.mant : Fmt → Nat
  | .f4 => 1 | .f6 => 2 | .f8m => 3 | .f8x => 2 | .bf16 => 7 | .fp32 => 23
  | .b1 | .t2 | .i3 | .i4 | .i8 => 0

/-- Exponent E of the smallest binade of a float format (Table 3.2, row e = 0). -/
def Fmt.emin : Fmt → Int
  | .f4 => -1 | .f6 => -4 | .f8m => -9 | .f8x => -16 | .bf16 => -133 | .fp32 => -149
  | .b1 | .t2 | .i3 | .i4 | .i8 => 0

/-- The magnitude pattern (all bits but the sign) of the largest finite value of a float format. -/
def Fmt.topMag : Fmt → Nat
  | .f4 => 0x7 | .f6 => 0x1F | .f8m => 0x7E | .f8x => 0x7B | .bf16 => 0x7F7F | .fp32 => 0x7F7FFFFF
  | .b1 | .t2 | .i3 | .i4 | .i8 => 0

/-- Rung of the persistent widening ladder (Table 7.7). -/
def Fmt.rung : Fmt → Nat
  | .b1 | .t2 | .i3 => 0
  | .i4 | .f4 => 1
  | .f6 => 2
  | .f8m | .f8x => 3
  | .i8 | .bf16 | .fp32 => 4

/-- Digits of an element (Table 4.3). -/
def Fmt.digits : Fmt → Nat
  | .f8m => 2
  | .i8 => 3
  | .b1 | .t2 | .i3 | .i4 | .f4 | .f6 | .f8x | .bf16 | .fp32 => 1

/-- Two to an integer power, exactly. -/
def pow2 (e : Int) : Rat := if 0 ≤ e then ((2 ^ e.toNat : Nat) : Rat) else 1 / ((2 ^ (-e).toNat : Nat) : Rat)

/-- The value of a magnitude pattern of a float format (Table 3.2). -/
def Fmt.magValue (f : Fmt) (m : Nat) : Rat :=
  let p := f.mant
  if m < 2 ^ p then (m : Rat) * pow2 f.emin
  else ((2 ^ p + m % 2 ^ p : Nat) : Rat) * pow2 (f.emin + ((m / 2 ^ p : Nat) : Int) - 1)

/-- Qmax of Table 3.1. -/
def Fmt.qmax : Fmt → Rat
  | .b1 => 1 | .t2 => 1 | .i3 => 3 | .i4 => 7 | .i8 => 127
  | .f4 => Fmt.magValue .f4 0x7 | .f6 => Fmt.magValue .f6 0x1F | .f8m => Fmt.magValue .f8m 0x7E
  | .f8x => Fmt.magValue .f8x 0x7B | .bf16 => Fmt.magValue .bf16 0x7F7F
  | .fp32 => Fmt.magValue .fp32 0x7F7FFFFF

/-- Qmax of an integer format as an integer. -/
def Fmt.qmaxInt (f : Fmt) : Int := 2 ^ (f.width - 1) - 1

/-- The escape code (Table 3.1), the pattern with only the top bit set. -/
def Fmt.escapeCode (f : Fmt) : Nat := 2 ^ (f.width - 1)

/-- The canonical NaN of Table 3.7 (R79); 0 for a format that has none. -/
def Fmt.nanCode : Fmt → Nat
  | .f8m => 0x7F | .f8x => 0x7E | .bf16 => 0x7FC0 | .fp32 => 0x7FC00000
  | .b1 | .t2 | .i3 | .i4 | .f4 | .f6 | .i8 => 0

/-- Positive zero. -/
def Value.zero : Value := .fin 0 false

/-- The sign of a value as the sign bit shows it; a NaN counts as positive. -/
def Value.neg : Value → Bool
  | .nan => false
  | .inf n => n
  | .fin r nz => r < 0 || (r == 0 && nz)

/-- Whether a value is finite. -/
def Value.isFin : Value → Bool
  | .fin _ _ => true
  | .nan | .inf _ => false

/-- Whether a value is NaN. -/
def Value.isNan : Value → Bool
  | .nan => true
  | .inf _ | .fin _ _ => false

/-- A finite value from a rational, with +0 for zero. -/
def Value.ofRat (r : Rat) : Value := .fin r false

/-- The rational of a finite value; 0 for the others. -/
def Value.rat : Value → Rat
  | .fin r _ => r
  | .nan | .inf _ => 0

/-- Sign flipped. -/
def Value.negate : Value → Value
  | .nan => .nan
  | .inf n => .inf (!n)
  | .fin r nz => .fin (-r) (!nz)

/-- Absolute value. -/
def Value.abs : Value → Value
  | .nan => .nan
  | .inf _ => .inf false
  | .fin r _ => .fin (if r < 0 then -r else r) false

/-- A value made of a sign and a magnitude. -/
def Value.signed (neg : Bool) (mag : Rat) : Value := .fin (if neg then -mag else mag) neg

/-- What a code of a format stands for (R69, R72 to R79). -/
def Fmt.decode (f : Fmt) (c : Nat) : CodeVal :=
  match f with
  | .b1 => .val (.ofRat (if c % 2 == 0 then 1 else -1))
  | .t2 | .i3 | .i4 | .i8 =>
    if c % 2 ^ f.width == f.escapeCode then .escape
    else .val (.ofRat ((sext f.width c : Int) : Rat))
  | .f4 | .f6 =>
    let sgn := bit c (f.width - 1)
    let m := c % 2 ^ (f.width - 1)
    if sgn && m == 0 then .escape else .val (.signed sgn (f.magValue m))
  | .f8m | .f8x | .bf16 | .fp32 =>
    let sgn := bit c (f.width - 1)
    let m := c % 2 ^ (f.width - 1)
    if m ≤ f.topMag then .val (.signed sgn (f.magValue m))
    else if f.hasInf && m == f.topMag + 1 then .val (.inf sgn)
    else .val .nan

/-- The value of a BF16 pattern. -/
def bf16Value (c : Nat) : Value :=
  match Fmt.decode .bf16 c with | .val v => v | .escape => .nan

/-- The value of an FP32 pattern. -/
def fp32Value (c : Nat) : Value :=
  match Fmt.decode .fp32 c with | .val v => v | .escape => .nan

/-- Whether a magnitude that lies the fraction d of the way from lo to the next representable one
rounds up (R90); u is the element's draw and `odd` says that lo is odd (R91). -/
def roundsUp (rnd : Rnd) (u : Nat) (odd : Bool) (d : Rat) : Bool :=
  match rnd with
  | .nearest => d > 1 / 2 || (d == 1 / 2 && odd)
  | .towardZero => false
  | .stochastic => (u : Int) < (min d 1 * 16777216).floor

/-- The largest integer e with 2^e at most a, for a positive rational. -/
def floorLog2 (a : Rat) : Int :=
  let e : Int := (a.num.toNat.log2 : Int) - (a.den.log2 : Int)
  if pow2 e ≤ a then e else e - 1

/-- round_mag of R90 for a float format: the magnitude pattern a rounds to. One above the largest
finite pattern is the pattern of ∞ where the format has it. -/
def roundMagFloat (f : Fmt) (rnd : Rnd) (u : Nat) (a : Rat) : Nat :=
  if a ≤ 0 then 0
  else
    let q := max (floorLog2 a - (f.mant : Int)) f.emin
    let m0 := (a / pow2 q).floor.toNat
    let lo0 := (q - f.emin).toNat * 2 ^ f.mant + m0
    let lo := min lo0 f.topMag
    let loV := f.magValue lo
    if a == loV then lo
    else
      let gap := if lo == f.topMag then f.magValue lo - f.magValue (lo - 1)
                 else f.magValue (lo + 1) - loV
      if roundsUp rnd u (lo % 2 == 1) ((a - loV) / gap) then lo + 1 else lo

/-- round_mag of R90 for the integer formats: over all integers. -/
def roundMagInt (rnd : Rnd) (u : Nat) (a : Rat) : Int :=
  let lo := a.floor
  if a == (lo : Rat) then lo
  else if roundsUp rnd u (lo % 2 == 1) (a - (lo : Rat)) then lo + 1 else lo

/-- The outcome of encoding one element. -/
structure Encoded where
  /-- The stored pattern; the escape code where the element escapes (R86). -/
  code : Nat
  /-- The side value of an element that escapes because it is not finite (Table 3.9). -/
  side : Option Value
  /-- The element lost range (CONV_RANGE, Table 3.12). -/
  range : Bool
  /-- The element was NaN or an infinity on entry (CONV_NONFINITE, Table 3.12). -/
  nonfinite : Bool
deriving DecidableEq, Repr

/-- encode of R90 for a finite quotient t and a format other than B1 (R90 to R92). -/
def encodeFinite (f : Fmt) (rnd : Rnd) (clip : Bool) (z : Int) (u : Nat) (t : Value) : Encoded :=
  let a := t.abs.rat
  if f.isInt then
    let k := roundMagInt rnd u a
    let n := (if t.neg then -k else k) + z
    let n' := max (-f.qmaxInt) (min f.qmaxInt n)
    ⟨wrap f.width n', none, n != n', false⟩
  else
    let sgn (m : Nat) : Nat :=
      if t.neg && !(m == 0 && f.hasEscape) then m + 2 ^ (f.width - 1) else m
    if a > f.magValue f.topMag && (clip || !f.hasInf) then ⟨sgn f.topMag, none, true, false⟩
    else
      let m := roundMagFloat f rnd u a
      ⟨sgn m, none, m > f.topMag, false⟩

/-- The B1 code of a finite t (R93). Under stochastic rounding a −0 draws as R93 says, where Table 3.9 alone would give code 1.
DESIGN CHOICE (log 57). -/
def encodeB1 (rnd : Rnd) (u : Nat) (t : Value) : Encoded :=
  let r := t.rat
  let code :=
    match rnd with
    | .stochastic =>
      let c := max (-1) (min 1 r)
      if (u : Int) < ((c + 1) / 2 * 16777216).floor then 0 else 1
    | .nearest | .towardZero => if t.neg then 1 else 0
  ⟨code, none, r > 1 || r < -1, false⟩

/-- The code of a value that is not finite (R85, R86, Table 3.9). -/
def encodeSpecial (f : Fmt) (v : Value) : Encoded :=
  let code :=
    match f, v with
    | .b1, .inf true => 1
    | .b1, _ => 0
    | .f8m, _ => 0x7F
    | .f8x, .inf n => if n then 0xFC else 0x7C
    | .bf16, .inf n => if n then 0xFF80 else 0x7F80
    | .fp32, .inf n => if n then 0xFF800000 else 0x7F800000
    | .f8x, _ => 0x7E
    | .bf16, _ => 0x7FC0
    | .fp32, _ => 0x7FC00000
    | .t2, _ | .i3, _ | .i4, _ | .i8, _ | .f4, _ | .f6, _ => f.escapeCode
  ⟨code, if f.hasEscape then some v else none, false, true⟩

/-- The conversion of one quotient t (R86, R90, R93). DEDUCED (log 42). -/
def encode (f : Fmt) (rnd : Rnd) (clip : Bool) (z : Int) (u : Nat) (t : Value) : Encoded :=
  match t with
  | .fin _ _ =>
    match f with
    | .b1 => encodeB1 rnd u t
    | .t2 | .i3 | .i4 | .i8 | .f4 | .f6 | .f8m | .f8x | .bf16 | .fp32 =>
      encodeFinite f rnd clip z u t
  | .nan | .inf _ => encodeSpecial f t

/-- The quotient t = x / s of R89, for a positive scale s. -/
def Value.divScale (v : Value) (s : Rat) : Value :=
  match v with
  | .fin r nz => .fin (r / s) nz
  | .nan => .nan
  | .inf n => .inf n

/-- The product of a value and a positive scale (R81). -/
def Value.mulScale (v : Value) (s : Rat) : Value :=
  match v with
  | .fin r nz => .fin (r * s) nz
  | .nan => .nan
  | .inf n => .inf n

/-- The FP32 pattern nearest to a value, without clipping (R90). -/
def toFp32 (v : Value) : Nat := (encode .fp32 .nearest false 0 0 v).code

/-- A value rounded to FP32, nearest-even (R90). -/
def roundFp32 (v : Value) : Value := fp32Value (toFp32 v)

/-- How a unit that applies a row scale reads SCALE (R82): the scale, or `none` for a NaN row, and
whether a replacement was made (one clamp). -/
def readScale (pattern : Nat) : Option Rat × Bool :=
  let p := pattern % 2 ^ 32
  let sgn := bit p 31
  let m := p % 2 ^ 31
  if m > 0x7F800000 then (none, false)
  else if m == 0x7F800000 then (some (Fmt.magValue .fp32 0x7F7FFFFF), true)
  else if m < 0x00800000 then (some (pow2 (-126)), true)
  else (some (Fmt.magValue .fp32 m), sgn)

/-- How a unit reads ZP for a format (R83): the zero point, and whether it was clamped. -/
def readZp (f : Fmt) (zpByte : Nat) : Int × Bool :=
  if f.isInt then
    let z := sext 8 zpByte
    let z' := max (-f.qmaxInt) (min f.qmaxInt z)
    (z', z != z')
  else (0, false)

/-- The value of a finite, non-escape code in a row (R81). -/
def rowValue (z : Int) (s : Rat) (v : Value) : Value :=
  match v with
  | .fin r nz => if z == 0 then .fin (r * s) nz else .ofRat ((r - (z : Rat)) * s)
  | .nan => .nan
  | .inf n => .inf n

/-- The minimum of two values (R87). -/
def Value.min2 (a b : Value) : Value :=
  match a, b with
  | .nan, x => x
  | x, .nan => x
  | .inf true, _ => a
  | .inf false, x => x
  | _, .inf true => b
  | x, .inf false => x
  | .fin r _, .fin q nq => if q < r then b else if r == 0 && q == 0 && nq then b else a

/-- The maximum of two values (R87). -/
def Value.max2 (a b : Value) : Value :=
  match a, b with
  | .nan, x => x
  | x, .nan => x
  | .inf false, _ => a
  | .inf true, x => x
  | _, .inf false => b
  | x, .inf true => x
  | .fin r nr, .fin q nq => if r < q then b else if r == 0 && q == 0 && nr && !nq then b else a

/-- The format a field names (R67): codes 0xB to 0xF read as 0xA with one clamp. DEDUCED (log 42). -/
def readFmt (code : Nat) : Fmt × Nat :=
  match Fmt.ofCode (code % 16) with
  | some f => (f, 0)
  | none => (.fp32, 1)

/-- The format an array-only field names (R67, R68). DEDUCED (log 42). -/
def readArrayFmt (code : Nat) : Fmt × Nat :=
  let (f, n) := readFmt code
  if f.isArray then (f, n) else (.i8, n + 1)

/-- The rounding a field names (Table 3.10): 0b11 reads as nearest-even with one clamp. -/
def readRnd (code : Nat) : Rnd × Nat :=
  match code % 4 with
  | 0 => (.nearest, 0)
  | 1 => (.stochastic, 0)
  | 2 => (.towardZero, 0)
  | _ => (.nearest, 1)

end Sys2Proof.Machine
end

