-- ==== Sys2Proof/Machine/Map.lean ====
section
/-! DEFINITION. Sparse data by key: a list of pairs in ascending key order that lists no default value, so
that equal contents are equal lists. Memory, registers, counters, slots and contexts are all held so. -/

namespace Sys2Proof.Machine

/-- What a sparse map holds at key k; `d` is what an unlisted key reads as. -/
def mget {α : Type} (d : α) : List (Nat × α) → Nat → α
  | [], _ => d
  | (k', v) :: t, k => if k' = k then v else mget d t k

/-- Put v at key k, keeping ascending key order. -/
def mins {α : Type} (k : Nat) (v : α) : List (Nat × α) → List (Nat × α)
  | [] => [(k, v)]
  | (k', v') :: t =>
    if k < k' then (k, v) :: (k', v') :: t
    else if k = k' then (k, v) :: t
    else (k', v') :: mins k v t

/-- Take key k out. -/
def mdel {α : Type} (k : Nat) : List (Nat × α) → List (Nat × α)
  | [] => []
  | (k', v') :: t => if k' = k then mdel k t else (k', v') :: mdel k t

/-- Set key k to v; setting the default value removes the entry. -/
def mput {α : Type} [DecidableEq α] (d : α) (m : List (Nat × α)) (k : Nat) (v : α) : List (Nat × α) :=
  if v = d then mdel k m else mins k v m

/-- Change the value at key k. -/
def mmod {α : Type} [DecidableEq α] (d : α) (m : List (Nat × α)) (k : Nat) (f : α → α) : List (Nat × α) :=
  mput d m k (f (mget d m k))

/-- Take every key of [a, a + n) out. -/
def mclear {α : Type} (a n : Nat) (m : List (Nat × α)) : List (Nat × α) :=
  m.filter (fun kv => !(a ≤ kv.1 && kv.1 < a + n))

/-- The canonical form: keys strictly rising and no default value listed. -/
def mwf {α : Type} [DecidableEq α] (d : α) : List (Nat × α) → Bool
  | [] => true
  | [(_, v)] => v ≠ d
  | (k, v) :: (k', v') :: t => decide (v ≠ d) && decide (k < k') && mwf d ((k', v') :: t)

end Sys2Proof.Machine
end

