-- ==== Sys2Proof/Machine/State.lean ====
section
/-! DEFINITION. The state of the package: every register, memory, queue, counter and mode the spec names,
held as plain data in groups, one group per chapter, and the queue of commands that wait. Sparse arrays are
`List (Nat × α)` in the canonical form of Machine/Map.lean; the key and the unlisted value stand in each
docstring. -/

namespace Sys2Proof.Machine

/-! ### Memory: tier memory and stack memory (chapters 10 and 11) -/

/-- Special tag of an accumulator word (Table 5.1). -/
inductive Tag where
  | finite | nan | posInf | negInf
deriving DecidableEq, Repr

/-- One entry of a correctable- or uncorrectable-error log (Table 10.7). -/
structure LogEntry where
  /-- Local address of the granule, sector or accumulator record, 48 bits. -/
  addr : Nat
  /-- S at the first finding, 8 bits (9 for an Open sector, of which the entry shows the low 8). -/
  syndrome : Nat
  /-- The entry names accumulator memory. -/
  acc : Bool
  /-- Uncorrectable log: the poison has been cleared by a whole write (R348). -/
  cleared : Bool
  /-- FINDER, 3 bits. -/
  finder : Nat
  /-- COUNT, 16 bits, saturating. -/
  count : Nat
  /-- Station Time of the first finding, bits [47:0]. -/
  time : Nat
deriving DecidableEq, Repr

/-- The two error logs of a die or of a stack (R350, R389): entries in the order they were taken, which is
ascending entry number because entries are only ever freed all at once (R351). -/
structure ErrLogs where
  /-- Correctable log, at most 32 entries. -/
  ce : List LogEntry
  /-- Uncorrectable log, at most 64 entries. -/
  ue : List LogEntry
deriving DecidableEq, Repr

/-- Empty logs (R352, R358). -/
def ErrLogs.empty : ErrLogs := ⟨[], []⟩

/-- What a sector held before a descriptor of the update engines wrote it: its address, the 32 bytes and the check-bit difference, and
the descriptor's place in acceptance order (R426). -/
structure OldSector where
  addr : Nat
  bytes : List Byte
  mark : Nat
  owner : Nat
deriving DecidableEq, Repr

/-- Tier and stack memory. DESIGN CHOICE (log 6). -/
structure MemState where
  /-- Bytes by local address; an unlisted address reads 0 (R358, R379 step 4). -/
  cells : List Host.Cell
  /-- For each granule or sector, by its base address, the exclusive-or of its stored check bits with a fresh
  code of its stored data (R326, R368); unlisted: 0, a fresh code. A Sealed sector holds the low half's nine
  bits in [8:0] and the high half's in [17:9]. -/
  marks : List (Nat × Nat)
  /-- Error logs of die d at key d and of stack s at key 2 + s; unlisted: empty. -/
  logs : List (Nat × ErrLogs)
  /-- Background-walk pointers of tier memory: next line within a slice (R346), by slice number of the
  package (die × 256 + tier × 64 + slice); unlisted: 0. -/
  sliceRow : List (Nat × Nat)
  /-- Background-walk pointer of a cell: next accumulator word, by unit; unlisted: 0. -/
  cellWord : List (Nat × Nat)
  /-- Walk passes completed by a slice, by slice number; unlisted: 0. BG_PASSES is their least per die. -/
  slicePass : List (Nat × Nat)
  /-- Background-walk pointer of a stack: next 1 KiB row of a pseudo-channel (R387), by
  stack × 64 + pseudo-channel; unlisted: 0. -/
  stackRow : List (Nat × Nat)
  /-- UE_LIVE of TM_STATUS of die d at key d, of STK_STATUS of stack s at key 2 + s (R349, R391); unlisted: 0. -/
  ueLive : List (Nat × Nat)
  /-- Base-die write buffers (R398, R424, Table 22.7): the writes of update engines that may not have reached their stack
  yet, oldest first, at most 8 192 of each stack. `cells` and `marks` hold what the engines read, with every write done. -/
  buffered : List OldSector
deriving DecidableEq, Repr

/-- Memory as power-on leaves it (R358, R379). DESIGN CHOICE (log 5). -/
def MemState.reset : MemState := ⟨[], [], [], [], [], [], [], [], []⟩

/-! ### Memory stacks (chapter 11) -/

/-- State of a stack (Table 11.8), in code order. -/
inductive StackMode where
  | run | test | training | failed
deriving DecidableEq, Repr

/-- What one memory stack holds beside its bytes and its registers. -/
structure StackState where
  /-- STK_STATUS.STATE. -/
  mode : StackMode
  /-- TRAINED. -/
  trained : Bool
  /-- TEMP, degrees Celsius, 8 bits. -/
  temp : Nat
  /-- THROTTLE, level 0 to 3 (Table 11.4). -/
  throttle : Nat
  /-- LANES_REPAIRED, 8 bits. -/
  lanesRepaired : Nat
  /-- Units that a COMMIT changed and whose conversion has not completed, ascending (R373). -/
  converting : List Nat
  /-- Accesses wait: the stack has been commanded to TEST and completes accepted accesses first (R383). -/
  enteringTest : Bool
  /-- A margin test is running (R385): its kind, offset, scope and duration in units of 2^16 beats. -/
  margin : Option (Nat × Int × Option Nat × Nat)
  /-- MARGIN_RESULT. -/
  marginResult : Nat
  /-- Data rate bin in force. -/
  bin : Nat
  /-- Refreshes issued (R366), and whether the last was at the doubled rate. -/
  refreshes : Nat
  refreshDouble : Bool
deriving DecidableEq, Repr

/-- A stack before its training (Table 11.8, column Reset). -/
def StackState.reset : StackState :=
  ⟨.training, false, 0, 0, 0, [], false, none, 0, 0, 0, false⟩

/-! ### Matrix cells (chapters 04 and 05) -/

/-- A digit (R102, Table 4.2): finite with the value (−1)^SIGN × MAG × 2^SHIFT, or special. -/
structure Digit where
  /-- SPECIAL. -/
  special : Tag
  /-- SIGN. -/
  neg : Bool
  /-- MAG, 0 to 7. -/
  mag : Nat
  /-- SHIFT, −16 to 13. -/
  shift : Int
deriving DecidableEq, Repr

/-- A weight as a lane, its side entry and the bank's residue store hold it (R102, R115, R116, Table 7.2). -/
structure Weight where
  /-- The digits of the code (R103, R104). -/
  digits : List Digit
  /-- The code is an escape. -/
  esc : Bool
  /-- Side value of an escape, NaN where it has no entry; +0 for every other weight. -/
  side : Value
  /-- The residue modulo 31 stored beside it, 5 bits: of the code value, or of the side value of an escape (R228). -/
  res : Nat
deriving DecidableEq, Repr

/-- What a lane holds that nothing has loaded: zero digits, no entry (R116, R139). -/
def Weight.zero : Weight := ⟨[], false, .fin 0 false, 0⟩

/-- One weight bank of a cell (R99, R117, R119, R120). -/
structure Bank where
  /-- Weight format of the bank. -/
  fmt : Fmt
  /-- The last LOADW packed four B1 weights a lane (R109). -/
  packed : Bool
  /-- Weights by k × 32 + j, k up to 127 on a packed bank; unlisted: zero. -/
  w : List (Nat × Weight)
  /-- Load record of quarter q: the 64-byte LOADW that last filled it (R119); unlisted: none, []. -/
  load : List (Nat × List Byte)
  /-- Quarters marked poisoned (R120), ascending. -/
  poisoned : List Nat
  /-- First columns, above 0, of the further pieces that a group's controller cut a tile into at width blocks, with their formats
  (R190), ascending. -/
  cuts : List (Nat × Fmt)
deriving DecidableEq, Repr

/-- A bank after reset (R139). -/
def Bank.reset : Bank := ⟨.i4, false, [], [], [], []⟩

/-- One accumulator word (R140) with the difference of its stored check bits from a fresh code (R327). -/
structure AccWord where
  /-- The 96-bit two's complement integer X. -/
  x : Int
  tag : Tag
  mark : Nat
  /-- By how much, modulo 31, the residue of X as it was written is above that of X as it is stored: 0 but for an error of the stored
  word (R330, R237). -/
  off : Nat
deriving DecidableEq, Repr

/-- An accumulator word after reset (R139). -/
def AccWord.reset : AccWord := ⟨0, .finite, 0, 0⟩

/-- One half-row slot (R141) with the difference of its stored check bits from a fresh code. -/
structure HalfSlot where
  /-- Window code WIN, −8 to +28. -/
  win : Int
  inexact : Bool
  mark : Nat
deriving DecidableEq, Repr

/-- A half-row slot after reset (R182). -/
def HalfSlot.reset : HalfSlot := ⟨-2, false, 0⟩

/-- One physical cell. -/
structure CellState where
  bank0 : Bank
  bank1 : Bank
  /-- Accumulator words by row × 32 + column; unlisted: +0, finite. -/
  acc : List (Nat × AccWord)
  /-- Half-row slots by row × 2 + half; unlisted: WIN −2, exact. -/
  slots : List (Nat × HalfSlot)
deriving DecidableEq, Repr

/-- A cell after reset (R139, R182). -/
def CellState.reset : CellState := ⟨Bank.reset, Bank.reset, [], []⟩

/-! ### The unit tree (chapter 02) and the cell history (chapter 07) -/

/-- What the tree keeps for one unit. -/
structure UnitState where
  /-- Structural and dispatch state (Table 2.6). -/
  state : NodeState
  /-- LAST_STATUS, 8 bits. -/
  lastStatus : Nat
  /-- STALL, W1C. -/
  stall : Bool
  /-- FREEZE_COUNT since the last read, 32 bits, saturating. -/
  freezes : Nat
  /-- Calibration floor, 6 bits; 8 until loaded (R56, Table 2.13). -/
  calFloor : Nat
  /-- Margining floor, 6 bits. -/
  marginFloor : Nat
  /-- Slack required by Timetable mode, 6 bits. -/
  ttSlack : Nat
  /-- Software request, 6 bits. -/
  request : Nat
  /-- CADENCE, M handshakes per second, 16 bits. -/
  cadence : Nat
  /-- No further pieces go to the cell until the next boundary (R234). -/
  suspended : Bool
deriving DecidableEq, Repr

/-- A unit before enumeration. DESIGN CHOICE (log 5). -/
def UnitState.reset : UnitState := ⟨.idle, 0, false, 0, 8, 0, 0, 0, 0, false⟩

/-- Cell history record (Table 7.9) as the device holds it for one physical cell. -/
structure History where
  /-- Margining level 0 to 2 (R262). -/
  level : Nat
  retired : Bool
  voltHeld : Bool
  selftestFail : Bool
  cal : Nat
  /-- SUBST: the slot that stands for this cell, 0x1F for none. -/
  subst : Nat
  /-- EVENTS, 16 bits, saturating. -/
  events : Nat
  last0 : Nat
  last1 : Nat
  last2 : Nat
  /-- SEQ, 16 bits, wrapping. -/
  seq : Nat
  /-- Boundaries of the latest three counted events that count toward permanence, newest first (R265). -/
  perm : List Nat
deriving DecidableEq, Repr

/-- The history of a cell that has none. DESIGN CHOICE (log 5). -/
def History.reset : History := ⟨0, false, false, false, 8, 0x1F, 0, 0, 0, 0, 0, []⟩

/-- The unit tree. -/
structure TreeState where
  /-- ENUM_STATUS.READY. -/
  ready : Bool
  /-- ENUM_STATUS.GEN, 8 bits. -/
  gen : Nat
  /-- Units by identifier with no substitution; unlisted: `UnitState.reset`. -/
  units : List (Nat × UnitState)
  /-- Which unit an identifier reaches where a substitution has exchanged it (R33, R46); unlisted: itself. -/
  names : List (Nat × Nat)
  /-- ENUM_DATA0 to ENUM_DATA7, as last latched. -/
  enumData : List Byte
  /-- Cell history by unit as firmware holds it; unlisted: `History.reset`. -/
  history : List (Nat × History)
  /-- K-slices that a group's accumulators hold of its present sums (R595), by group node × 2^15 + accumulator row
  × 64 + column tile; unlisted: 1. -/
  kSlices : List (Nat × Nat)
  /-- The history partition of NOR flash: 32-byte records (R268, Table 7.9), by unit × 2 + copy. -/
  flash : List (Nat × List Byte)
  /-- Slots whose work waits on handshakes, with the leaves that wait (R50, R51, Table 2.6). -/
  frozen : List (Nat × List Nat)
deriving DecidableEq, Repr

/-- The tree before enumeration (Table 2.9). -/
def TreeState.reset : TreeState := ⟨false, 0, [], [], List.replicate 32 0, [], [], [], []⟩

/-! ### Station Time (chapter 13) -/

/-- Quality of Station Time (Table 13.14), in code order. -/
inductive Quality where
  | referenced | fabric | holdover | unset
deriving DecidableEq, Repr

/-- The package's clock. -/
structure TimeState where
  /-- Local beats since power-on (R494). -/
  beats : Nat
  /-- Station Time, 64 bits; 0 while UNSET. -/
  now : Nat
  quality : Quality
  /-- Offset being slewed away (R490), in 2^−8 ns: positive when the package is ahead. -/
  slew : Int
  /-- Beats since the slew last changed the count by one beat (±100 ppm: one beat in 10 000). -/
  slewPhase : Nat
  /-- Beats that count against the timeouts of this package: all but those of a pause (R697). -/
  timer : Nat
  /-- Quality to take once the offset being slewed away is within 2 ns (Table 13.14). -/
  aim : Quality
deriving DecidableEq, Repr

/-- The clock at power-on: UNSET, Station Time 0 (Table 13.14). -/
def TimeState.reset : TimeState := ⟨0, 0, .unset, 0, 0, 0, .unset⟩

/-! ### Set-up registers (chapters 13, 15, 23) -/

/-- One set-up register: the shadow that a read returns and a write changes, and the value the device acts
on (R812). An unshadowed register keeps the two equal. -/
structure RegCell where
  shadow : Word32
  eff : Word32
deriving DecidableEq, Repr

/-- A captured COMMIT that has not reached its commit point (R813, R819): the block's bit of CMT_PENDING, and
the captured shadows by register key. -/
structure Capture where
  block : Nat
  vals : List (Nat × Word32)
deriving DecidableEq, Repr

/-- The set-up registers of BAR0 that hold a written value. -/
structure RegFile where
  /-- By BAR0 offset × 2^16 + instance (ring, port or 0); unlisted: the reset value of the block map. -/
  vals : List (Nat × RegCell)
  /-- Pending COMMITs, in write order (R819). -/
  captures : List Capture
deriving DecidableEq, Repr

/-- Every register at its reset value. -/
def RegFile.reset : RegFile := ⟨[], []⟩

/-! ### Host rings (chapter 15) -/

/-- A submission ring's own state (Table 15.8). -/
structure SqRing where
  /-- Index of the next entry to accept, 16 bits. -/
  head : Nat
  /-- Last SQ_TAIL, 16 bits. -/
  tail : Nat
  /-- Laps since the ring was enabled (R551). -/
  lap : Nat
  /-- The ring is in ERROR (R562). -/
  error : Bool
  /-- Position of the next entry to accept. Each enable leaves a gap of sixteen positions, so that a wait mask that reaches back past the
  first entry since the enable names none (R565). -/
  accepted : Nat
  /-- Fetched copies held, by entry index, at most 16 (R557). -/
  copies : List (Nat × List Byte)
  /-- Descriptors accepted right behind a held MATMUL with DRAIN_CHAIN (R125), by position. -/
  behind : List (Nat × List Byte)
  /-- Entries under a read that was issued while SQ_TAIL covered them (R547). -/
  reading : List Nat
  /-- Covered entries whose copy has been found not current, which are read again until one is (R558). -/
  stale : List Nat
deriving DecidableEq, Repr

/-- A submission ring that is OFF. -/
def SqRing.reset : SqRing := ⟨0, 0, 0, false, 0, [], [], [], []⟩

/-- A completion ring's own state (Table 15.8). -/
structure CqRing where
  /-- Next entry the device writes, 16 bits. -/
  tail : Nat
  /-- Last CQ_HEAD, 16 bits. -/
  head : Nat
  lap : Nat
  armed : Bool
  /-- Local beats when the oldest record since the last signal or arm was written; none: no such record. -/
  since : Option Nat
  /-- An URGENT record has been written since the last signal, and not all records are consumed (R574). -/
  urgent : Bool
deriving DecidableEq, Repr

/-- A completion ring that is OFF. -/
def CqRing.reset : CqRing := ⟨0, 0, 0, false, none, false⟩

/-- A request that a mover is to issue: the mover, the child of the target that answers for it, the chip it goes to, and the length. Of
a READ `src` is the address read and `dst` the local address that the data go to; of a WRITE `dst` is the address written, and `data`
holds the bytes with their poison. -/
structure ReadAhead where
  mover : Nat
  node : Nat
  chip : Nat
  src : Nat
  dst : Nat
  len : Nat
  /-- None: a READ. -/
  data : Option (List Byte × List Bool)
deriving DecidableEq, Repr

/-- Where a descriptor stands in its holding slot (R563). -/
inductive SlotPhase where
  /-- Accepted, and its wait mask or a hold keeps it. -/
  | waiting
  /-- Dispatched and running. -/
  | running
  /-- Completed; the record waits for room in its ring. -/
  | done
deriving DecidableEq, Repr

/-- An UPDATE or NEARVEC that the update engines have begun. -/
structure UeProgress where
  /-- The update record and the program block as read, and whether either read poisoned (R429). -/
  record : List Byte
  program : List Byte
  bad : Bool
  /-- Formats of the narrow copy's blocks by row block, each with whether its map entry was poisoned (R416). -/
  fmts : List (Nat × List (Fmt × Bool))
  /-- Rows or elements that are divided over the engines (R401), and how many of them have been dealt with, in ascending order. -/
  total : Nat
  done : Nat
  /-- Engines whose pieces have stopped (R423, R432). -/
  stopped : List Nat
  /-- Elements whose outputs were written poisoned, and elements skipped (Table 12.10). -/
  poisoned : Nat
  skipped : Nat
deriving DecidableEq, Repr

/-- One occupied holding slot: descriptor, wait state and record. -/
structure Slot where
  phase : SlotPhase
  desc : List Byte
  /-- Submission ring and entry index. -/
  ring : Nat
  index : Nat
  /-- Position in the ring since it was enabled, from 0 (R565). -/
  seq : Nat
  /-- The 16-byte record without PHASE; [] until the descriptor completes. -/
  record : List Byte
  /-- Place in completion order, package-wide (R570). -/
  order : Nat
  /-- Completed with status OK and QUIET set: no record is written (R584). -/
  quiet : Bool
  /-- Local beats at dispatch, from which TIMEOUT counts. -/
  since : Nat
  /-- Extension block read at dispatch (R588), 64 bytes; [] when none was read. -/
  ext : List Byte
  /-- The 64 bytes of the chained MATMUL whose rows this DRAIN drains (R125, R172); [] for none. -/
  chain : List Byte
  /-- Held under a Timetable plan: planned start and planned completion in Station Time (R635 to R639). -/
  plan : Option (Nat × Nat)
  /-- Place in acceptance order, package-wide (R612, R628). -/
  born : Nat
  /-- Bytes a MOVE, STREAM or SNAPSHOT has dealt with, and granules it found poisoned. -/
  prog : Nat
  poisoned : Nat
  /-- Its node has begun it: it waits for messages, credit or time. -/
  begun : Bool
  /-- Place in dispatch order, package-wide (R127, R130, R177, R275, R398). -/
  dispatched : Nat
  /-- Highest-ranked status among its pieces that have ended otherwise than OK, the lowest child that reported it, and that
  child's VALUE (R40); none: no piece has. -/
  report : Option (Status × Nat × Nat)
  /-- Requests of a MOVE that its movers have not issued yet (R560, R577, R610). -/
  unread : List ReadAhead
  /-- Units that could take no piece when it was dispatched, when the division of its work is settled (R43, R44, R48, R234). -/
  barred : List Nat
  /-- Leaves that its pieces were dealt to at its dispatch. -/
  leaves : List Nat
  /-- Leaves whose pieces have ended otherwise than OK, with their statuses. -/
  fails : List (Nat × Status)
  /-- What the update engines have done of an UPDATE or NEARVEC that they have begun. -/
  engines : Option UeProgress
deriving DecidableEq, Repr

/-- One MSI-X table entry (R806): address, data and vector control. -/
structure MsixEntry where
  addr : Nat
  data : Nat
  masked : Bool
  pending : Bool
deriving DecidableEq, Repr

/-- An MSI-X entry after reset: the standard masks every vector. DESIGN CHOICE (log 5). -/
def MsixEntry.reset : MsixEntry := ⟨0, 0, true, false⟩

/-- The host interface. -/
structure HostState where
  /-- Submission rings; unlisted: OFF. -/
  sq : List (Nat × SqRing)
  /-- Completion rings; unlisted: OFF. -/
  cq : List (Nat × CqRing)
  /-- Occupied holding slots by slot number 0 to 4 095; an unlisted slot is free. -/
  slots : List (Nat × Option Slot)
  /-- Completions so far, which gives each record its place in completion order. -/
  completions : Nat
  /-- Descriptors accepted so far, which gives each its place in acceptance order (R612, R628). -/
  accepted : Nat
  /-- Descriptors dispatched so far, which gives each its place in dispatch order. -/
  dispatches : Nat
  /-- Event buffer, oldest first, at most 512 records of 16 bytes (R573). -/
  events : List (List Byte)
  /-- EVT_STATUS.LOST, W1C. -/
  evtLost : Bool
  /-- The next event record written has LOST set (R573). -/
  lostNext : Bool
  /-- Ring served last, by PRIO, for the round robin of R564; unlisted: 255. -/
  lastServed : List (Nat × Nat)
  /-- CLAMP_COUNT, RC, 32 bits saturating. -/
  clampCount : Nat
  /-- CLAMP_LAST_LO and CLAMP_LAST_HI. -/
  clampLastLo : Nat
  clampLastHi : Nat
  /-- MSI-X table by vector. -/
  msix : List (Nat × MsixEntry)
deriving DecidableEq, Repr

/-- The host interface after reset (R580, Tables 15.8 and 15.9). DESIGN CHOICE (log 5). -/
def HostState.reset : HostState := ⟨[], [], [], 0, 0, 0, [], false, false, [], 0, 0, 0, []⟩

/-! ### Observation (chapter 19) -/

/-- A node's signal log (R699). -/
structure SigLog where
  /-- Entries ever written, 32 bits, wrapping. -/
  count : Nat
  /-- Stamp and word of the 64 most recent entries, newest first. -/
  entries : List (Nat × Nat)
deriving DecidableEq, Repr

/-- An empty log. -/
def SigLog.reset : SigLog := ⟨0, []⟩

/-- Counters and signal logs. -/
structure ObsState where
  /-- Live counters by unit × 2^16 + identifier (R703); unlisted: 0. -/
  live : List (Nat × Nat)
  /-- Latched counters, keyed alike (R704). -/
  latched : List (Nat × Nat)
  /-- Signal logs by unit; unlisted: empty. -/
  logs : List (Nat × SigLog)
  /-- CTR_FLAGS, CTR_LIVE, CTR_LATCHED as last latched (R705). -/
  ctrFlags : Nat
  ctrLive : Nat
  ctrLatched : Nat
  /-- SIG_INFO and SIG_DATA0 to SIG_DATA3 as last latched (R702). -/
  sigInfo : Nat
  sigData : List Byte
  /-- LOG_DATA of the tier block of die d at key d, of stack s at key 2 + s; unlisted: 16 zero bytes. -/
  logData : List (Nat × List Byte)
deriving DecidableEq, Repr

/-- Observation after power-on (R718). DESIGN CHOICE (log 5). -/
def ObsState.reset : ObsState := ⟨[], [], [], 0, 0, 0, 0, List.replicate 16 0, []⟩

/-! ### What the block sends out -/

/-- One thing the package puts on one of its interfaces. DESIGN CHOICE (log 51). -/
inductive Output where
  /-- A memory write to the host, in issue order; `poisoned` is the TLP's poison mark (R337). -/
  | hostWrite (addr : Nat) (data : List Byte) (poisoned : Bool)
  /-- An MSI-X message (R574). -/
  | msix (vector : Nat)
  /-- The completion of a host read, with its poison mark (R337, R549, R15). -/
  | readData (data : List Byte) (poisoned : Bool)
  /-- A completion with Unsupported Request (R792, R809). -/
  | unsupported
  /-- A flit put on a port: its 156 bytes (Table 13.6), and the 80 PAM4 levels that each of the 8 lanes sends for it (R441, R449). -/
  | flit (port : Nat) (bytes : List Byte) (lanes : List (List Int))
  /-- A port begins to send the training pattern x^31 + x^28 + 1 on every lane, framed every 4 096 symbols by a marker with this
  identity: chip number, port, package serial (R445). -/
  | trainingPattern (port chip serial : Nat)
  /-- An answer to an MCTP requester: completion code and payload. -/
  | mctp (code : Nat) (data : List Byte)
  /-- A PLDM PlatformEventMessage: sensor and state. -/
  | platformEvent (sensor value : Nat)
  /-- A PCI Express configuration completion: `true` for Request Retry Status (R789). -/
  | config (retry : Bool) (data : Nat)
  /-- A pin of the package driven to a level (PKG_RUN, THERMTRIP#). -/
  | pin (name : String) (level : Bool)
  /-- A regulator set point over AVSBus or PMBus, in 5 mV steps: of rails 0 and 1 as a code of R722; of VDDQ of a die as
  rail 16 + die, an offset from its trained setting (R385). -/
  | setpoint (rail code : Nat)
  /-- A read of submission entries from host memory (R557). -/
  | hostRead (addr len : Nat)
  /-- What boundary scan puts on the signal balls: TAP instruction and pattern; 0x04 leaves them at high impedance. -/
  | balls (ir pattern : Nat)
  /-- TDO data of the TAP or a DMI response. -/
  | debug (data : Nat)
deriving DecidableEq, Repr
/-! ### Fabric (chapter 13) -/

/-- State of a port (Table 13.4), in code order. -/
inductive PortMode where
  | off | seek | train | align | up | retrain | failed
deriving DecidableEq, Repr

/-- One fabric message: header of 16 bytes, payload, poison of each 16-byte granule of the payload. -/
structure Msg where
  header : List Byte
  payload : List Byte
  poison : List Bool
deriving DecidableEq, Repr

/-- A message that a port has received whole and that still lies in its receive buffer (R462): 2 × class + VL of its flits, how many
they are, and whether its header's granule is poisoned. -/
structure Held where
  lane : Nat
  flits : Nat
  headerPoisoned : Bool
  msg : Msg
deriving DecidableEq, Repr

/-- A message queued for a port: the VL it leaves on, its flits sent so far, and the receive buffer that it still lies in, if it is
being passed on: port, link of that port, 2 × class + VL (R463). -/
structure Outgoing where
  vl : Nat
  sent : Nat
  origin : Option (Nat × Nat × Nat)
  msg : Msg
deriving DecidableEq, Repr

/-- One port. -/
structure PortState where
  mode : PortMode
  /-- Training step in progress, 2 to 5 (Table 13.5). -/
  step : Nat
  /-- Training failures in a row without reaching UP (R447). -/
  fails : Nat
  /-- ENABLE went to 0 in UP and the replay buffer is being acknowledged (R448). -/
  closing : Bool
  /-- Whether a partner has been recorded, and which (R477). -/
  known : Bool
  chip : Nat
  port : Nat
  serial : Nat
  /-- Identity the partner shows in the training in progress. -/
  newChip : Nat
  newPort : Nat
  newSerial : Nat
  duplicate : Bool
  /-- PORT_STATUS.CHANGED, W1C. -/
  changed : Bool
  /-- PORT_DELAY, 24 bits. -/
  delay : Nat
  /-- SEQ of the next data flit sent, and data flits sent but not acknowledged, oldest first (R458). -/
  txSeq : Nat
  /-- Each with the EPOCH of its message. -/
  replay : List (Nat × List Byte)
  /-- Resends in a row without an acknowledgement of the oldest (R461). -/
  resends : Nat
  /-- SEQ of the next data flit expected, and a NAK stands (R459). -/
  rxSeq : Nat
  nak : Bool
  /-- Credit limits, flits sent, flits accepted, and flits passed on or consumed, by 2 × class + VL, modulo 2^16 (R463). -/
  limits : List Nat
  sent : List Nat
  got : List Nat
  returned : List Nat
  /-- Links that the port has had: a link ends when what it carried is discarded (R477). -/
  link : Nat
  /-- Granules of the message being received, by 2 × class + VL (R464). -/
  partial' : List (Nat × List (List Byte × Bool))
  /-- Messages received whole that lie in the receive buffer, oldest first (R462). -/
  inbox : List Held
  /-- Messages queued for the port and not sent to their end, oldest first. -/
  queue : List Outgoing
  /-- Advertisement of the partner: class 0 REFERENCED, 1 FABRIC, 3 none; hops, root, upstream chip. -/
  rootClass : Nat
  hops : Nat
  root : Nat
  upChip : Nat
  /-- TX_TIME of the partner's last control flit and own time of its arrival (Table 13.8). -/
  echoTx : List Byte
  echoRx : List Byte
  /-- Flits sent since the port last began to send them (R451), and the 39-bit scrambler state of each lane (R450). -/
  flitsSent : Nat
  scramblers : List Nat
  /-- The VL that each class serves first at its next data flit (R465). -/
  turns : List Nat
  /-- Flits sent since the last control flit (R457). -/
  sinceControl : Nat
  /-- Capabilities that the partner showed in step 2 of the training, and the lane-0 delay of each direction measured in step 4
  (Table 13.5). -/
  capabilities : List Byte
  laneDelay : Nat × Nat
  /-- Symbol position at which the lanes' search for lock starts, counted from the first one tried, and good flits checked since the
  lanes were aligned (R452). -/
  lockFrom : Nat
  lockGood : Nat
deriving DecidableEq, Repr

/-- A port at power-on (R500): enabled, in SEEK. -/
def PortState.reset : PortState :=
  ⟨.seek, 0, 0, false, false, 0, 0, 0, 0, 0, 0, false, false, 0, 0, [], 0, 0, false,
    List.replicate 8 0, List.replicate 8 0, List.replicate 8 0, List.replicate 8 0, 0, [], [], [], 3, 0, 0, 0x8000,
    List.replicate 8 0, List.replicate 8 0, 0, List.replicate 8 0, List.replicate 4 0, 0, [], (0, 0), 0, 0⟩

/-- Who waits for the response to a READ or WRITE. -/
inductive Asker where
  /-- The descriptor in a holding slot. -/
  | slot (k : Nat)
  /-- The copy of R657: 0 first seal read, 1 data, 2 last seal read. -/
  | copy (phase : Nat)
deriving DecidableEq, Repr

/-- One outstanding READ or WRITE (R484). -/
structure Request where
  asker : Asker
  /-- READ: the data go to this local address. -/
  read : Bool
  chip : Nat
  addr : Nat
  len : Nat
  /-- Local beats when it was sent, from which the response wait counts (R53, R484). -/
  since : Nat
  /-- The child of the target that sent it (R40). -/
  node : Nat
  /-- The mover whose READ it is (R560). -/
  mover : Nat
deriving DecidableEq, Repr

/-- The fabric. -/
structure FabState where
  /-- Ports 0 to 11; unlisted: `PortState.reset`. -/
  ports : List (Nat × PortState)
  /-- Routing banks by bank × 32 768 + destination; unlisted: 0, invalid (R471). -/
  routes : List (Nat × Nat)
  /-- Active bank (R476). -/
  epoch : Nat
  /-- FAB_STATUS.ISLAND (R479). -/
  island : Bool
  /-- Context entries (Table 13.13); unlisted: 64 zero bytes, OFF. -/
  ctxs : List (Nat × List Byte)
  /-- LIMIT + ring size last reported by a receive context's STREAM_CREDIT (R481); unlisted: none sent. -/
  credited : List (Nat × Nat)
  /-- Outstanding requests by TAG. -/
  reqs : List (Nat × Option Request)
  nextTag : Nat
  /-- The time reference (R495): valid, pulses seen in a row. -/
  trefValid : Bool
  trefPulses : Nat
  /-- The root followed (R488): upstream port (15 none), hops (0xFF none), root chip. -/
  upPort : Nat
  hops : Nat
  root : Nat
  /-- TIME_OFFSET, in units of 2^−8 ns. -/
  offset : Int
  /-- TIME_NOW_HI as latched. -/
  nowHi : Nat
  /-- Messages for this package that it has taken in but not acted on: those it sent to its own number, and those that came as a
  whole and wait on a memory. -/
  arrived : List Msg
deriving DecidableEq, Repr

/-- The fabric at power-on (R500). -/
def FabState.reset : FabState := ⟨[], [], 0, true, [], [], [], 0, false, 0, 15, 0xFF, 0, 0, 0, []⟩

/-! ### Collectives (chapter 14) -/

/-- Data of one segment on its way: bytes, poison of each message granule, latest stamp and its rank. -/
structure SegData where
  bytes : List Byte
  poison : List Bool
  latest : Nat
  rank : Nat
deriving DecidableEq, Repr

/-- A segment ready to be sent (R515). -/
structure Ready where
  order : Nat
  /-- 0 to the successor, 1 to the predecessor. -/
  dir : Nat
  gather : Bool
  seg : Nat
  data : SegData
  /-- Landing area whose place it gives back when it goes, by order × 2 + dir of arrival. -/
  back : Option Nat
deriving DecidableEq, Repr

/-- Kinds of instance. -/
inductive CollKind where
  | coll | counts | barrier
deriving DecidableEq, Repr

/-- One active instance of COLL, COUNTS or BARRIER (R526). -/
structure CollInst where
  kind : CollKind
  /-- Holding slot, or 4 096 for an exchange of the step boundary. -/
  slot : Nat
  id : Nat
  /-- Members in each order used, and own rank. -/
  orders : List (List Nat)
  rank : Nat
  op : Nat
  red : Nat
  xport : Nat
  inFmt : Fmt
  /-- `none`: RAW records. -/
  outFmt : Option Fmt
  rnd : Rnd
  /-- Transport rounding: 1 nearest-even. -/
  wrnd : Nat
  key : Nat
  stream : Nat
  /-- Segments: order, first element, elements, owner's position. -/
  segs : List (Nat × Nat × Nat × Nat)
  /-- Own input bytes and the poison of each group of 128 elements. -/
  input : List Byte
  inPoison : List Bool
  /-- Where results go: a local address, or the instance's own buffer for the step boundary. -/
  out : Option Nat
  result : List Byte
  arr : Option Nat
  /-- Entry stamp; latest stamp known, and its rank. -/
  entry : Nat
  latest : Nat
  slowest : Nat
  /-- Partial received from the predecessor's or successor's side, by segment × 2 + (1 for the successor). -/
  got : List (Nat × Option SegData)
  /-- Side whose partial arrived first, by segment: 1 the left side (from c − 1), 2 the right. -/
  first : List (Nat × Nat)
  /-- Segments whose result has been written to OUT, ascending. -/
  done : List Nat
  ready : List Ready
  /-- Credit: segments granted by and sent to a neighbour, by order × 2 + dir. -/
  granted : List (Nat × Nat)
  sent : List (Nat × Nat)
  /-- Landed segments consumed, and the grant last reported, by order × 2 + dir of arrival. -/
  consumed : List (Nat × Nat)
  reported : List (Nat × Nat)
  /-- Beat of the last collective message or credit (R532), and of the last from each neighbour, by order × 2 + (0
  successor, 1 predecessor). -/
  since : Nat
  heardAt : List (Nat × Nat)
  timeout : Nat
  nondet : Nat
  inexact : Nat
  poisoned : Nat
  /-- Barrier: lead in beats, next round, rounds received and their stamps, release time once known. -/
  lead : Nat
  round : Nat
  heard : List (Nat × Option (Nat × Nat))
  release : Option Nat
  late : Bool
  /-- Status and detail once the instance has ended. -/
  ended : Option (Status × Nat)
  /-- Its place among the active instances, which its messages carry in TAG. -/
  place : Nat
  /-- A neighbour that was found unreachable (R532). -/
  lost : Option Nat
  /-- Segments whose partial this member has combined and passed on towards the owner (R513, R532). -/
  passed : List Nat
  /-- An input element was read poisoned, or a poisoned partial has come (R536). -/
  sawPoison : Bool
deriving DecidableEq, Repr

/-- Collectives. -/
structure CollState where
  /-- Active instances, oldest first, at most 16. -/
  active : List CollInst
  /-- Slots of COLL, COUNTS and BARRIER descriptors that wait for a place, in dispatch order. -/
  waiting : List Nat
  /-- ABORTs kept for instances not yet started: COLL_ID and chip, oldest first, at most 32 (R534). -/
  aborts : List (Nat × Nat)
  /-- BARRIER messages kept: COLL_ID, round, stamp, rank, at most 1 024 (R542). -/
  early : List (Nat × Nat × Nat × Nat)
  /-- COLL_IDs completed here since the last step boundary and not started again (R533). -/
  finished : List Nat
  /-- First grants that came before their instance started here (R525): COLL_ID, and order × 2 + dir. -/
  credits : List (Nat × Nat)
  /-- COLL_IDs of the instances that a reset discarded, whose late messages are dropped as stale (R545), until the next step boundary
  or an instance that starts with the COLL_ID. -/
  stale : List Nat
deriving DecidableEq, Repr

/-- No collective. -/
def CollState.reset : CollState := ⟨[], [], [], [], [], [], []⟩

/-! ### Update engines (chapter 12) -/

/-- One entry of a poisoned-range list (Table 12.9). -/
structure RangeEntry where
  addr : Nat
  copied : Bool
  nearvec : Bool
  sectors : Nat
  time : Nat
deriving DecidableEq, Repr

/-- The update engines of one stack. -/
structure UeState where
  /-- Sixteen entries; `none` is free. -/
  ranges : List (Option RangeEntry)
  lost : Bool
  /-- A copy of every Open unit of the stack has been requested (R431). -/
  whole : Bool
  /-- 64 KiB blocks restored since the last boundary requested copies (R431). -/
  restored : List Nat
  /-- ENGINES_OK, set at READY. -/
  enginesOk : Nat
  /-- RANGE_DATA0 to RANGE_DATA3. -/
  data : List Byte
deriving DecidableEq, Repr

/-- The engines at power-on. -/
def UeState.reset : UeState := ⟨List.replicate 16 none, false, false, [], 0, List.replicate 16 0⟩

/-! ### Arithmetic checks and the step (chapters 07 and 17) -/

/-- Arithmetic-check state beside the registers (Table 7.11). -/
structure AecState where
  storm : Bool
  stormHalt : Bool
  rollbackPending : Bool
  stormRun : Nat
  sinceRollback : Nat
  waiting : Nat
  widened : Nat
  /-- The boundary count of R266, and the value of it that the history partition holds. -/
  boundaries : Nat
  stored : Nat
  /-- Residue events of a cell since the last step boundary, by unit (R264); unlisted: 0. -/
  events : List (Nat × Nat)
  /-- THRESH of a layer entry as the last step boundary read it (R248), by entry: its FP32 bits plus one; unlisted: not
  read yet. -/
  thresh : List (Nat × Nat)
  /-- Layer entries whose score a CHECK has raised since the last step boundary (R242). -/
  sampled : List Nat
deriving DecidableEq, Repr

/-- After reset. -/
def AecState.reset : AecState := ⟨false, false, false, 0, 0xFF, 0, 0, 0, 0, [], [], []⟩

/-- What a running STEP has reached: the part of Table 17.2 that it waits in, and what its exchanges gave. -/
structure StepRun where
  slot : Nat
  part : Nat
  /-- Orders of TWINS and order 0 of ALL, as read at part 1. -/
  twins : List (List Nat)
  all : List Nat
  coll : Nat
  stepNo : Nat
  /-- Mode asked for: Timetable. -/
  timetable : Bool
  /-- Time without a message after which an exchange ends, in beats. -/
  timeout : Nat
  digests : List Nat
  /-- Elements of the vote, and their results. -/
  votes : Nat
  voted : List Byte
  /-- Lowest disagreeing digest, majority value, COUNTS values in order of position (R631). -/
  dstar : Option Nat
  majority : Option Nat
  values : List Nat
  /-- This member asks for a rollback. -/
  wants : Bool
  /-- Storm flag of this boundary. -/
  storm : Bool
  /-- Decisions of part 7: rollback, new mode, forced to free-running. -/
  rollback : Bool
  newMode : Bool
  forced : Bool
deriving DecidableEq, Repr

/-- The step block and Timetable mode. -/
structure TfState where
  /-- Timetable mode is in force. -/
  timetable : Bool
  mismatch : Bool
  diverged : Bool
  rollback : Bool
  first : Nat
  stepNo : Nat
  run : Option StepRun
  /-- DIVERGED, and no majority, at the last boundary (R663). -/
  wasDiverged : Bool
  wasSplit : Bool
  /-- Start of the step in Station Time, and planned completion of each node's last work (R637). -/
  stepStart : Nat
  nodePlan : List (Nat × Nat)
  /-- A TT_OVERRUN event has been posted in this step (R639). -/
  overrun : Bool
  /-- Timetable mode: completions not yet reported to their successors (R637, R638): slot, ring, position, when
  they are due, and whether the descriptor is a held one. -/
  unreported : List (Nat × Nat × Nat × Nat × Bool)
  /-- Timetable mode: when each descriptor completed in this step, by ring and position, is planned to report: what its successors
  are planned from (R637 to R639). -/
  planned : List (Nat × Nat × Nat)
deriving DecidableEq, Repr

/-- Free-running, no step run. -/
def TfState.reset : TfState := ⟨false, false, false, false, 0, 0, none, false, false, 0, [], false, [], []⟩

/-! ### Resilience (chapter 18) -/

/-- What a copy of R657 is for. -/
inductive CopyFor where
  | block (addr : Nat) | sync | rebuild | diverged
deriving DecidableEq, Repr

/-- A running copy. -/
structure Copy where
  what : CopyFor
  step : Nat
  /-- Sources in order; the head is in use. -/
  sources : List Nat
  /-- Index of the source in use. -/
  index : Nat
  /-- 0 first seal read, 1 data, 2 last seal read, 3 waiting for the seal, 4 ended. -/
  phase : Nat
  waited : Nat
  /-- The source's images serve, not its live ranges. -/
  image : Bool
  /-- Reads still to issue: source address, own address, length. -/
  todo : List (Nat × Nat × Nat)
  /-- Local ranges that this copy writes. -/
  ranges : List (Nat × Nat)
  /-- Rebuild: lists have been read. -/
  lists : Bool
  /-- Reason of the last failure; `none` where the copy succeeded. -/
  failed : Option Nat
  /-- Ranges that data of the source in use has been written into, fully or in part (R658, R670). -/
  wrote : List (Nat × Nat)
deriving DecidableEq, Repr

/-- Resilience. -/
structure ResState where
  hold : Bool
  rebuilding : Bool
  decided : Nat
  liveValid : Bool
  pending : Bool
  imageValid : Bool
  imaging : Bool
  cmdErr : Nat
  cause : Nat
  waited : Nat
  /-- CUT and IMG. -/
  cut : Nat
  img : Nat
  rebState : Nat
  rebSource : Nat
  rebBytes : Nat
  shape : Nat
  stragLag : Nat
  stragSlowest : Nat
  /-- Boundaries in a row at which the same rank was slowest with the lag of R674. -/
  stragRun : Nat
  /-- Block copies waiting: block address and step, in order of request (R659). -/
  blocks : List (Nat × Nat)
  copy : Option Copy
  /-- TWINS order 0 of the last STEP, own position left out by the copy. -/
  twins : List Nat
  /-- A descriptor since the last boundary completed with TIMEOUT, FENCED or ABORTED, or a residue event marked
  the step (R665). -/
  spoiled : Bool
  /-- An image pass is due and waits for a SNAPSHOT that reads an image (R678). -/
  due : Bool
  /-- A restore from the images for a step, which waits on its stacks (R661, R668), and whether part 8 of a boundary runs it. -/
  restoring : Option (Nat × Bool)
deriving DecidableEq, Repr

/-- Power-on: STATE RUN, nothing valid (R684). -/
def ResState.reset : ResState :=
  ⟨false, false, 0, false, false, false, false, 0, 0, 0, 0, 0, 0, 0, 0, 0, 0, 0, 0, [], none, [], false, false, none⟩

/-! ### Control cores (chapter 19) -/

/-- One halt (R691): by a hart 0 to 63, or 64 for the host. -/
structure Halt where
  source : Nat
  node : Nat
  reported : Bool
  /-- Descriptors dispatched before it began: pieces of later ones are not dispatched to held nodes (R693). -/
  since : Nat
deriving DecidableEq, Repr

/-- Control cores, halts, FATAL and the dump. -/
structure CoreState where
  halts : List Halt
  /-- DRAIN_INCOMPLETE of the latest halt. -/
  incomplete : Bool
  /-- Cores that have trapped. -/
  trapped : List Nat
  /-- Harts that caused a FATAL, which cannot write the dump (R712). -/
  dead : List Nat
  /-- dpc by hart. -/
  dpc : List (Nat × Nat)
  /-- CORE_STATUS as latched. -/
  status : Nat
  fatal : Bool
  seen : Bool
  multiple : Bool
  cause : Nat
  /-- R710 step 2 has been reached. -/
  stopped : Bool
  dumpState : Nat
  truncated : Bool
  hostDone : Bool
  dumpMib : Nat
  /-- Entry stamp of FATAL (Table 19.7). -/
  fatalStamp : Nat
  /-- Debug Module: registers by DMI address, and TAP instruction. -/
  dmi : List (Nat × Nat)
  tapIr : Nat
  /-- Words of the debug challenge that authdata has returned. -/
  authPos : Nat
  /-- Core registers as the Debug Module has read or written them, by hart × 2^32 + register number: of dcsr its stored
  bits, of every other register its value plus one; unlisted: not read yet, an open value. -/
  hartRegs : List (Nat × Nat)
deriving DecidableEq, Repr

/-- Cores after power-on. DESIGN CHOICE (log 5). -/
def CoreState.reset : CoreState :=
  ⟨[], false, [], [], [], 0xFFFF, false, false, false, 0, false, 0, false, false, 0, 0, [], 0x01, 0, []⟩

/-! ### Power (chapter 20) -/

/-- The loops and readings of chapter 20. Voltages are codes of R722; pairs are die 0, die 1. -/
structure PwrState where
  tFast : Nat
  /-- The junction loops' and the coolant loop's share of T_slow. -/
  tSlow : Nat × Nat
  tCool : Nat
  tCap : Nat
  /-- U_safe as the junction loops, the coolant loop and the fast loop hold it. -/
  uJunction : Nat × Nat
  uCool : Nat
  uFast : Nat
  uCap : Nat
  vop : Nat × Nat
  /-- PWR_ALERT# is asserted, or was released less than 100 µs ago. -/
  alert : Bool
  /-- Periods of the fast loop so far, and those of the last 100 000 in which P_1µs was above 2 400 W, newest first. -/
  ticks : Nat
  above : List Nat
  /-- Limit 2 of R733 is engaged. -/
  limit2 : Bool
  /-- Periods since T_fast last fell. -/
  fastDown : Nat
  /-- Periods in a row with T_fast at 12 or above, and with T_fast or T_slow of a die so. -/
  highFast : Nat
  high : Nat × Nat
  /-- Periods of a junction loop since its last move upward, by die. -/
  slowTicks : Nat × Nat
  p1us : Nat
  p1ms : Nat
  /-- Sum and count of P_1µs in the present 1 ms. -/
  acc : Nat × Nat
  /-- Junction sensors of each die, °C; [] before the first reading. -/
  temps0 : List Nat
  temps1 : List Nat
  /-- The junction loop acts, by die (Table 20.5, LIMIT). -/
  hot : Bool × Bool
  inlet : Nat
  outlet : Nat
  /-- Flow in 0.001 L/min. -/
  flow : Nat
  coolant : Nat
  pCool : Nat
  /-- Rails by index: millivolts, 0.1 A, status word; unlisted: zeros. -/
  rails : List (Nat × (Nat × Nat × Nat))
  /-- Rails that hold, and the beat at which each hold began. -/
  holds : List (Nat × Nat)
  /-- RAIL_STATUS as latched. -/
  railStatus : Nat
  /-- Margining steps withheld, by die. -/
  withheld : Bool × Bool
  /-- LIMITER set last reported, and the beat of the last PWR_LIMITED event. -/
  lastSet : Nat
  lastEvent : Option Nat
deriving DecidableEq, Repr

/-- The loops before any measurement: V_op at the reset request, no throttle (Tables 20.9 and 20.10).
DESIGN CHOICE (log 5). -/
def PwrState.reset : PwrState :=
  ⟨0, (0, 0), 0, 0, (36, 36), 36, 36, 36, (20, 20), false, 0, [], false, 0, 0, (0, 0), (0, 0), 0, 0, (0, 0), [], [],
    (false, false), 0, 0, 0, 0, 2400, [], [], 0, (false, false), 0, none⟩

/-! ### Management (chapter 21) -/

/-- Management of one domain (R773). -/
structure Domain where
  /-- MV: 0 ON, 1 FENCE_REQ, 2 OFF, 3 FAULT. -/
  mv : Nat
  /-- Fence origin: 0 none, 1 CENSUS, 2 TEST. -/
  origin : Nat
  unfence : Bool
  /-- Its failure has been recorded by a census (Table 21.12). -/
  recorded : Bool
deriving DecidableEq, Repr

/-- A domain at power-on. -/
def Domain.reset : Domain := ⟨0, 0, false, false⟩

/-- Management, security and the black box. -/
structure MgmtState where
  eid : Nat
  eidSet : Bool
  i3cAddr : Nat
  outstanding : Nat
  mgmtCap : Nat
  receiver : Option Nat
  domains : List (Nat × Domain)
  /-- CENSUS_STATUS.MISMATCHES. -/
  mismatches : Nat
  mnode : Nat
  /-- Slots that the four components booted from; 2: the defaults of step 3 of Table 21.6. -/
  booted : List Nat
  /-- Boot: failure cause (0 none), unlocked scope, token failures, first-choice slot, activation at the next warm
  reset. -/
  bootFail : Nat
  unlocked : Nat
  authFails : Nat
  firstSlot : Nat
  activate : Bool
  /-- OTP: security version, revoked keys, last-gasp field. -/
  svn : Nat
  revoked : Nat
  lastGasp : List Byte
  /-- Flash images by slot × 4 + component (0 BOOT, 1 FW, 2 CONFIG, 3 CAL): version, security version, signed by a
  provisioned key (of CONFIG and CAL: its CRC-32 holds), content; unlisted: `firstImage`. -/
  images : List (Nat × (Nat × Nat × Bool × List Byte))
  /-- Debug challenge in force, 32 bytes; [] where none has been issued. -/
  challenge : List Byte
  /-- BAR4 is present: the CONFIG partition in force enables it. -/
  bar4 : Bool
  /-- Black box: records written, oldest first, with the partition of each; queue; next SEQ; failed partitions. -/
  records : List (Nat × List Byte)
  queue : List (List Byte)
  nextSeq : Nat
  /-- BB_STATUS.FAILED, and the partitions that the writer no longer tries: bit p for partition p. -/
  bbFailed : Nat
  bbAvoid : Nat
  /-- Record slots used so far in each partition. -/
  bbUsed : Nat × Nat
  lostNext : Bool
  bbData : List Byte
  /-- Components written by a firmware update and not activated yet: component and slot. -/
  written : List (Nat × Nat)
deriving DecidableEq, Repr

/-- The image a slot leaves manufacture with: version 0, good. DESIGN CHOICE (log 5). -/
def firstImage : Nat × Nat × Bool × List Byte := (0, 0, true, [])

/-- Management as a package leaves manufacture: two good image sets, version 0, empty black box. -/
def MgmtState.reset : MgmtState :=
  ⟨0, false, 0x2C, 0, 2400, none, [], 0, 0, [0, 0, 0, 0], 0, 0, 0, 0, false, 0, 0, List.replicate 32 0, [], [],
    false, [], [], 0, 0, 0, (0, 0), false, List.replicate 64 0, []⟩

/-! ### Reset and start-up (chapter 22) -/

/-- The reset block and power sequencing. -/
structure RstState where
  /-- STATE: 0 RUN, 1 RESETTING, 2 POWERING_DOWN, 3 DOWN_READY, 4 POWER_LOST. -/
  state : Nat
  kind : Nat
  trigger : Nat
  count : Nat
  /-- DISC_TIER, ACC, STACK, REMOTE, HOST, SLOTS, PIECES. -/
  disc : List Nat
  /-- Power is applied and BAR0 is readable. -/
  bar0 : Bool
  vaux : Bool
  /-- Every node is stopped by a thermal trip or a power loss. -/
  stoppedAll : Bool
  thermtrip : Bool
  pkgRun : Bool
  /-- An orderly power-down still waits for dispatched descriptors (Table 22.9, step 2). -/
  draining : Bool
  /-- POWERDOWN_READY has been posted and not yet written. -/
  readyPosted : Bool
  /-- TEST_MODE as sampled at the last VAUX power-on (R846), and what boundary scan holds for the balls. -/
  testMode : Bool
  boundary : Nat
  /-- PCI Express configuration registers, by register number. -/
  config : List (Nat × Nat)
deriving DecidableEq, Repr

/-- The reset block before power. -/
def RstState.reset : RstState :=
  ⟨0, 0, 0, 0, List.replicate 7 0, false, false, false, false, false, false, false, false, 0, []⟩

/-! ### The whole package -/

/-- The package: one field per group, and the commands that wait, first in, first out. -/
structure State where
  /-- Commands waiting, oldest first. -/
  pending : List Instr
  /-- What the package has sent out, oldest first. -/
  out : List Output
  /-- The model's own field, no part of the package: how many values the spec leaves open have been taken
  from Config so far. Every such value is Config's opaque function of this count. -/
  taken : Nat
  time : TimeState
  regs : RegFile
  tree : TreeState
  mem : MemState
  /-- Stacks 0 to 7; unlisted: `StackState.reset`. -/
  stk : List (Nat × StackState)
  /-- Physical cells by unit; unlisted: `CellState.reset`. -/
  cells : List (Nat × CellState)
  host : HostState
  obs : ObsState
  fab : FabState
  coll : CollState
  /-- Update engines of stacks 0 to 7; unlisted: `UeState.reset`. -/
  ue : List (Nat × UeState)
  aec : AecState
  tf : TfState
  res : ResState
  cores : CoreState
  pwr : PwrState
  mgmt : MgmtState
  rst : RstState
deriving DecidableEq, Repr

/-- The package right after reset. -/
def State.reset : State :=
  { pending := [], out := [], taken := 0, time := TimeState.reset, regs := RegFile.reset, tree := TreeState.reset,
    mem := MemState.reset, stk := [], cells := [], host := HostState.reset, obs := ObsState.reset,
    fab := FabState.reset, coll := CollState.reset, ue := [], aec := AecState.reset, tf := TfState.reset,
    res := ResState.reset, cores := CoreState.reset, pwr := PwrState.reset, mgmt := MgmtState.reset,
    rst := RstState.reset }

/-- Why a step can stop with a fault. No command of this model raises one: every behaviour the spec gives an
effect has it. -/
inductive Fault where
  /-- Raised by no command; safe. It stands for a device behaviour that the spec would forbid. -/
  | impossible
deriving DecidableEq, Repr

/-- Why a step can refuse a command. -/
inductive Refusal where
  /-- Raised by Machine/Dispatch.lean for a command that has no meaning yet; safe. -/
  | notModelled (mnemonic : String)
deriving DecidableEq, Repr

end Sys2Proof.Machine
end

