-- ==== Sys2Proof/Machine/Digits.lean ====
section
/-! DEFINITION. Digits, lane products and residues modulo 31 (R102 to R105, R227, R228). -/

namespace Sys2Proof.Machine

/-! ### Digits -/

/-- A finite digit of sign `neg`. -/
def Digit.fin (neg : Bool) (mag : Nat) (shift : Int) : Digit := ⟨.finite, neg, mag, shift⟩

/-- A special digit: SIGN, MAG and SHIFT are zero (R104). -/
def Digit.special' (t : Tag) : Digit := ⟨t, false, 0, 0⟩

/-- The value of a finite digit: (−1)^SIGN × MAG × 2^SHIFT (R102). -/
def Digit.rat (d : Digit) : Rat := (if d.neg then -(d.mag : Rat) else (d.mag : Rat)) * pow2 d.shift

/-- A sum of digits. -/
def digitSum (ds : List Digit) : Rat := ds.foldl (fun r d => r + d.rat) 0

/-- Significand M and exponent E of a finite, non-escape code (Table 3.2). -/
def Fmt.signif (f : Fmt) (c : Nat) : Nat × Int :=
  match f with
  | .b1 => (1, 0)
  | .t2 | .i3 | .i4 | .i8 => ((sext f.width c).natAbs, 0)
  | .f4 | .f6 | .f8m | .f8x | .bf16 | .fp32 =>
    let m := c % 2 ^ (f.width - 1)
    let p := f.mant
    if m < 2 ^ p then (m, f.emin) else (2 ^ p + m % 2 ^ p, f.emin + ((m / 2 ^ p : Nat) : Int) - 1)

/-- The digits of a finite, non-escape element of sign `neg`, significand M and exponent E (Table 4.3). -/
def Fmt.split (f : Fmt) (neg : Bool) (m : Nat) (e : Int) : List Digit :=
  match f with
  | .f8m => [.fin neg (m % 8) e, .fin neg (m / 8) (e + 3)]
  | .i8 => [.fin neg (m % 8) 0, .fin neg (m / 8 % 8) 3, .fin neg (m / 64) 6]
  | .b1 | .t2 | .i3 | .i4 => [.fin neg m 0]
  | .f4 | .f6 | .f8x | .bf16 | .fp32 => [.fin neg m e]

/-- The tag that names a special value (R104). -/
def Value.tag : Value → Tag
  | .nan => .nan
  | .inf n => if n then .negInf else .posInf
  | .fin _ _ => .finite

/-- The digits with which a code enters a cell (R103, R104): an escape as zero digits, a special code and every
element of a NaN row as digits that name it. -/
def Fmt.digitsOf (f : Fmt) (nanRow : Bool) (c : Nat) : List Digit :=
  if nanRow then List.replicate f.digits (.special' .nan)
  else
    match f.decode c with
    | .escape => List.replicate f.digits (.fin false 0 0)
    | .val (.fin r nz) => let (m, e) := f.signif c; f.split (Value.neg (.fin r nz)) m e
    | .val v => List.replicate f.digits (.special' v.tag)

/-- The tag of an element's digits: finite where no digit is special. -/
def digitsTag (ds : List Digit) : Tag :=
  match ds.find? (fun d => d.special ≠ .finite) with
  | some d => d.special
  | none => .finite

/-- What the digits of an element stand for: the sum of finite ones (R103), or the special value they name. -/
def digitsValue (ds : List Digit) : Value :=
  match digitsTag ds with
  | .finite => .fin (digitSum ds) false
  | .nan => .nan
  | .posInf => .inf false
  | .negInf => .inf true

/-- One element as a unit reads it: value before scale, whether it was an escape, and the digits with which it enters a
cell (R103, R104). -/
structure Elem where
  v : Value
  esc : Bool
  digits : List Digit
deriving DecidableEq, Repr

/-! ### Lane products (R105) -/

/-- The product of two finite digits. -/
structure LaneProduct where
  /-- SIGN: the exclusive-or of the two. -/
  neg : Bool
  /-- MAG, 0 to 49. -/
  mag : Nat
  /-- SHIFT, −32 to 26. -/
  shift : Int
deriving DecidableEq, Repr

/-- A lane multiplies two finite digits exactly (R105). -/
def Digit.mul (a w : Digit) : LaneProduct := ⟨a.neg != w.neg, a.mag * w.mag, a.shift + w.shift⟩

/-- The value of a lane product. -/
def LaneProduct.rat (p : LaneProduct) : Rat := (if p.neg then -(p.mag : Rat) else (p.mag : Rat)) * pow2 p.shift

/-- The sum of the lane products of two elements over all passes (R106). -/
def laneSum (as ws : List Digit) : Rat :=
  as.foldl (fun r a => ws.foldl (fun r w => r + (a.mul w).rat) r) 0

/-! ### Residues modulo 31 (R227) -/

/-- The residue of an integer. -/
def residueInt (n : Int) : Nat := (n % 31).toNat

/-- The residue of n × 2^k: r(n) × 2^(k mod 5) mod 31. -/
def residueScaled (n k : Int) : Nat := residueInt n * 2 ^ (k % 5).toNat % 31

/-- The residue of a value that is an integer times a power of two. -/
def residue (r : Rat) : Nat := residueScaled r.num (-(r.den.log2 : Int))

/-- The residue of a finite value; 0 for a special one, which takes no part (R229). -/
def Value.residue (v : Value) : Nat := Sys2Proof.Machine.residue v.rat

/-- The weight that the load port stores for an element (R116, R228). -/
def Weight.ofCode (digits : List Digit) (esc : Bool) (v : Value) : Weight :=
  ⟨digits, esc, if esc then v else .zero, v.residue⟩

/-- The value a weight stands for: the side value of an escape, else what its digits say. -/
def Weight.v (w : Weight) : Value := if w.esc then w.side else digitsValue w.digits

end Sys2Proof.Machine
end

