-- ==== Sys2Proof/Config.lean ====
section
/-! DEFINITION. What an implementation fixes and the spec leaves open: constants with no body, so that a claim
holds whatever they are. Each is applied to a count of values taken so far, which State holds. -/

namespace Sys2Proof

/-- A value the spec leaves open, of at most 64 bits, by the count of values taken before it. -/
opaque Config.freeWord : Nat → BitVec 64

/-- A byte the spec leaves open (a hash, signature or random byte whose algorithm it does not give), by the
count of values taken before it and the byte's place. -/
opaque Config.freeByte : Nat → Nat → Byte

/-- Beats by which a stamp taken at a Station Time may lag the event it marks (R61), by that time. -/
opaque Config.stampLag : Nat → BitVec 2

/-- The package serial number, fused at manufacture (Table 23.2). -/
opaque Config.serial : BitVec 64

/-- Output current, in 0.1 A, at which the regulator of a rail warns (R720, Table 21.4), which the spec does not give. -/
opaque Config.railWarn : Nat → BitVec 16

/-- The PCI Express Vendor ID, which the spec does not give. -/
opaque Config.vendorId : BitVec 16

/-- Bytes of the MCTP endpoint's UUID. -/
opaque Config.uuid : Nat → Byte

/-- SHA-384 (R753), by the bytes hashed and the place in the digest. -/
opaque Config.sha384 : List Byte → Nat → Byte

/-- The boot ROM's content. -/
opaque Config.bootRom : List Byte

/-- What an image's header names: its OTP key slot, whether it asks the security version to advance, and the key slots
it revokes (R762, R764). -/
opaque Config.imageKey : List Byte → Nat
opaque Config.imageRaises : List Byte → Bool
opaque Config.imageRevokes : List Byte → Nat

/-- BAR4 enable and CHIP_ID default of a CONFIG partition (Table 21.7). -/
opaque Config.bar4Enable : List Byte → Bool
opaque Config.chipDefault : List Byte → Nat

/-- Calibration floor of a cell in a CAL partition (R56), by unit. -/
opaque Config.calFloor : List Byte → Nat → Nat

/-- Whether a signature over a message verifies under the debug key of OTP (R766). -/
opaque Config.debugVerify : List Byte → List Byte → Bool

end Sys2Proof
end

