-- ==== Sys2Proof/Machine/Endpoint.lean ====
section
/-! DEFINITION. The PCI Express function's configuration space (R546, R548, Tables 15.1 and 15.2): what each register holds,
and what its fields do. -/

namespace Sys2Proof.Machine

/-- A configuration register: its value at reset, the bits that a write stores, and the bits that a write of 1 clears. -/
structure ConfigRow where
  reset : Nat
  rw : Nat
  w1c : Nat
deriving DecidableEq, Repr

/-- The registers, by number: the header, then the power-management, PCI Express and MSI-X capabilities, then AER and Device 3. Their
fields say what Table 15.1 says of the function; the places, and the fields that it does not name, are the standard's. PRESUMED
(log 39). -/
def configRow (bar4 : Bool) : Nat → ConfigRow
  | 0 => ⟨0x2400 * 65536 + Config.vendorId.toNat, 0, 0⟩
  | 1 => ⟨0x00100000, 0x00000546, 0xF9000000⟩
  | 2 => ⟨0x120000 * 256 + 0x10, 0, 0⟩
  | 3 => ⟨0, 0xFF, 0⟩
  | 4 => ⟨4, 0xFC000000, 0⟩
  | 5 => ⟨0, 0xFFFFFFFF, 0⟩
  | 6 => ⟨4, 0xFFF00000, 0⟩
  | 7 => ⟨0, 0xFFFFFFFF, 0⟩
  | 8 => ⟨if bar4 then 12 else 0, 0, 0⟩
  | 9 => ⟨0, if bar4 then 0xFFFFFFFC else 0, 0⟩
  | 13 => ⟨0x40, 0, 0⟩
  | 15 => ⟨0, 0xFF, 0⟩
  | 16 => ⟨0x00035001, 0, 0⟩
  | 17 => ⟨0x8, 0x3, 0⟩
  | 20 => ⟨0x0002B010, 0, 0⟩
  | 21 => ⟨0x10008022, 0, 0⟩
  | 22 => ⟨0x2910, 0x79FF, 0x000F0000⟩
  | 23 => ⟨0x906, 0, 0⟩
  | 24 => ⟨0x01060000, 0xCA, 0⟩
  | 29 => ⟨0x3001E, 0, 0⟩
  | 30 => ⟨0, 0x101F, 0⟩
  | 31 => ⟨0x7E, 0, 0⟩
  | 44 => ⟨0x07FF0011, 0xC0000000, 0⟩
  | 45 => ⟨0x01000000, 0, 0⟩
  | 46 => ⟨0x01008000, 0, 0⟩
  | 64 => ⟨0x15020001, 0, 0⟩
  | 65 => ⟨0, 0, 0x007FF030⟩
  | 66 => ⟨0, 0x007FF030, 0⟩
  | 67 => ⟨0x00462030, 0x007FF030, 0⟩
  | 68 => ⟨0, 0, 0xF1C1⟩
  | 69 => ⟨0x2000, 0xF1C1, 0⟩
  | 70 => ⟨0xA0, 0x140, 0⟩
  | 84 => ⟨0x0001002F, 0, 0⟩
  | 85 => ⟨0x10, 0, 0⟩
  | 86 => ⟨0, 0x78, 0⟩
  | _ => ⟨0, 0, 0⟩

/-- The value of a configuration register. -/
def State.configAt (s : State) (n : Nat) : Nat := mget (configRow s.mgmt.bar4 n).reset s.rst.config n

/-- Give a configuration register a value. -/
def State.setConfig (s : State) (n v : Nat) : State :=
  { s with rst := { s.rst with config := mput (configRow s.mgmt.bar4 n).reset s.rst.config n v } }

/-- What a register holds after a write: the stored bits of the value, the rest as it was, less the bits that it clears. -/
def ConfigRow.write (r : ConfigRow) (old v : Nat) : Nat :=
  old - (old &&& (r.rw ||| (v &&& r.w1c))) + (v &&& r.rw)

/-- A write of a configuration register. A power state that Table 15.1 does not name, D1 or D2, is not entered. PRESUMED (log 39). -/
def State.configWrite (s : State) (n v : Nat) : State :=
  if n = 17 && (v % 4 = 1 || v % 4 = 2) then s else s.setConfig n ((configRow s.mgmt.bar4 n).write (s.configAt n) (v % 2 ^ 32))

/-- The function is in D3hot: it answers configuration requests alone, and sends no request and no message. PRESUMED (log 39). -/
def State.d3hot (s : State) : Bool := s.configAt 17 % 4 == 3

/-- MSI-X messages may go out: MSI-X Enable is 1 and Function Mask 0, in D0. PRESUMED (log 39). -/
def State.msixOpen (s : State) : Bool := bit (s.configAt 44) 31 && !bit (s.configAt 44) 30 && !s.d3hot

/-- An MSI-X vector is masked, by its own bit or with the whole function. -/
def State.vectorMasked (s : State) (v : Nat) : Bool := (mget MsixEntry.reset s.host.msix v).masked || !s.msixOpen

/-- AER: an uncorrectable error is logged in its status bit, 12 for a Poisoned TLP received, 14 for a completion timeout, and in the
device status. PRESUMED (log 39). -/
def State.aer (s : State) (b : Nat) : State :=
  (s.setConfig 65 (s.configAt 65 ||| 2 ^ b)).setConfig 22 (s.configAt 22 ||| 0x20000)

end Sys2Proof.Machine
end

