-- ==== Sys2Proof/Machine/Regs.lean ====
section
/-! DEFINITION. The set-up registers of BAR0 (chapter 23 and the block map of each chapter): their
addresses, the bits that store, the bits that are shadowed, and their reset values; reading and writing one
(R13, R812) and capturing a COMMIT (R813). What a commit point does to each block stands in
Machine/Commits.lean, and what a host read returns in Machine/RegView.lean. -/

namespace Sys2Proof.Machine

/-- One register of a block map: BAR0 offset (of instance 0 where the block has several), the bits that
store a value (RW, and WO bits that are shadowed), those of them that are shadowed, the W1C bits kept in the
register itself, and the reset value. -/
structure RegRow where
  off : Nat
  rw : Nat
  sh : Nat
  w1c : Nat
  reset : Nat
deriving DecidableEq, Repr

/-- A fully shadowed RW register. -/
def RegRow.shadowed (off rw reset : Nat) : RegRow := ⟨off, rw, rw, 0, reset⟩
/-- An unshadowed RW register. -/
def RegRow.plain (off rw : Nat) : RegRow := ⟨off, rw, 0, 0, 0⟩

/-- SCRATCH (Table 23.2). -/
def regScratch : Nat := 0x14
/-- Unit-tree block (Table 2.8). -/
def regEnumSel : Nat := 0x1004
def regNodeSel : Nat := 0x1040
def regSlackCtl : Nat := 0x1044
def regStallLimit : Nat := 0x1054
/-- Arithmetic-check block (Table 7.10). -/
def regAecCtl : Nat := 0x2000
def regLayerLo : Nat := 0x2004
def regLayerHi : Nat := 0x2008
/-- Step block (Table 17.7). -/
def regTfCtl : Nat := 0x3000
/-- Resilience block (Table 18.8). -/
def regRsCtl : Nat := 0x4000
def regListLo : Nat := 0x4004
def regListHi : Nat := 0x4008
def regImageLo : Nat := 0x400C
def regImageHi : Nat := 0x4010
def regSealLo : Nat := 0x4014
def regSealHi : Nat := 0x4018
def regRsArg (n : Nat) : Nat := 0x4030 + 4 * n
def regStragCtl : Nat := 0x4050
/-- Observation block (Table 19.10). -/
def regHaltNode : Nat := 0x5004
def regObsCfg : Nat := 0x5008
def regCoreSel : Nat := 0x5010
def regSigSel : Nat := 0x5018
def regSigMask : Nat := 0x501C
def regCtrSel : Nat := 0x5034
def regCtrDumpLo : Nat := 0x5050
def regCtrDumpHi : Nat := 0x5054
def regCtrDumpLen : Nat := 0x5058
def regDumpBaseLo : Nat := 0x505C
def regDumpBaseHi : Nat := 0x5060
def regDumpLen : Nat := 0x5064
def regDumpHostLo : Nat := 0x5068
def regDumpHostHi : Nat := 0x506C
def regDumpCtl : Nat := 0x5070
/-- Power block (Table 20.8). -/
def regPwrCtl : Nat := 0x6000
def regPerfCtl : Nat := 0x6004
def regRailSel : Nat := 0x601C
/-- Management block (Table 21.14). -/
def regMnodeSel : Nat := 0x700C
def regBbSel : Nat := 0x7018
/-- Reset block (Table 22.11). -/
def regPdCfg : Nat := 0x8008
/-- Host block (Table 15.7): instance = ring. -/
def regRingSel : Nat := 0x10000
def regSqBaseLo : Nat := 0x10004
def regSqBaseHi : Nat := 0x10008
def regSqCfg : Nat := 0x1000C
def regCqBaseLo : Nat := 0x10018
def regCqBaseHi : Nat := 0x1001C
def regCqCfg : Nat := 0x10020
def regCqMod : Nat := 0x10024
/-- Fabric block (Table 13.15): PORT_CTL has instance = port. -/
def regFabCtl : Nat := 0x20000
def regPortSel : Nat := 0x20008
def regPortCtl : Nat := 0x2000C
def regRouteSel : Nat := 0x20020
def regRouteSwitchLo : Nat := 0x20028
def regRouteSwitchHi : Nat := 0x2002C
def regCtxSel : Nat := 0x20030
def regCtxData (n : Nat) : Nat := 0x20040 + 4 * n
def regTimeCtl : Nat := 0x20080
def regTimeSetLo : Nat := 0x20090
def regTimeSetHi : Nat := 0x20094
/-- Tier-memory block of die d (Table 10.8). -/
def tierBlock (d : Nat) : Nat := 0x30000 + 0x1000 * d
def regTmCtl (d : Nat) : Nat := tierBlock d
def regTmLogSel (d : Nat) : Nat := tierBlock d + 0x008
def regFlipAddrLo (d : Nat) : Nat := tierBlock d + 0x020
def regFlipAddrHi (d : Nat) : Nat := tierBlock d + 0x024
def regFlipData (d n : Nat) : Nat := tierBlock d + 0x028 + 4 * n
def regFlipCtl (d : Nat) : Nat := tierBlock d + 0x038
/-- Stack block of stack s (Table 11.6). -/
def stackBlock (s : Nat) : Nat := 0x40000 + 0x1000 * s
def regStkCtl (s : Nat) : Nat := stackBlock s
def regRegionLo (s : Nat) : Nat := stackBlock s + 0x004
def regRegionHi (s : Nat) : Nat := stackBlock s + 0x008
def regMarginCtl (s : Nat) : Nat := stackBlock s + 0x010
def regInjAddrLo (s : Nat) : Nat := stackBlock s + 0x018
def regInjAddrHi (s : Nat) : Nat := stackBlock s + 0x01C
def regInjCtl (s : Nat) : Nat := stackBlock s + 0x020
def regStkLogSel (s : Nat) : Nat := stackBlock s + 0x028
/-- Update-engine block of stack s (Table 12.12). -/
def ueBlock (s : Nat) : Nat := 0x50000 + 0x1000 * s
def regRangeSel (s : Nat) : Nat := ueBlock s + 0x004

/-- Registers of the single-instance blocks below 0x1_0000. -/
def regRowsLow : List RegRow :=
  [.plain regScratch 0xFFFFFFFF, .plain regEnumSel 0xFFFF, .plain regNodeSel 0xFFFF,
   .shadowed regSlackCtl 0x13F 0, .shadowed regStallLimit 0xFFFFFF 0x20000,
   .shadowed regAecCtl 0x00FFFFFD 0x001A100C, .shadowed regLayerLo 0xFFFFFFE0 0,
   .shadowed regLayerHi 0x0FFFFFFF 0, .shadowed regTfCtl 0xFFFF0FFF 0x06000040,
   .shadowed regRsCtl 0xFFFF0001 0x80000000, .shadowed regListLo 0xFFFFFFF0 0,
   .shadowed regListHi 0x0FFFFFFF 0, .shadowed regImageLo 0xFFFFFFF8 0, .shadowed regImageHi 0xFFFF 0,
   .shadowed regSealLo 0xFFFFFFE0 0, .shadowed regSealHi 0xFFFF 0,
   .plain (regRsArg 0) 0xFFFFFFFF, .plain (regRsArg 1) 0xFFFFFFFF, .plain (regRsArg 2) 0xFFFFFFFF,
   .plain (regRsArg 3) 0xFFFFFFFF, .shadowed regStragCtl 0xFFFF00FF 0x04000000]

/-- Registers of the observation, power, management and reset blocks. -/
def regRowsMid : List RegRow :=
  [.plain regHaltNode 0xFFFF, .shadowed regObsCfg 0xFFFF0007 0x04000000, .plain regCoreSel 0x3F,
   .plain regSigSel 0xFFFF003F, .shadowed regSigMask 0xFFFF 0x8900, .plain regCtrSel 0xFFFFFFFF,
   .shadowed regCtrDumpLo 0xFFFFFFF0 0, .shadowed regCtrDumpHi 0x8000FFFF 0,
   .shadowed regCtrDumpLen 0xFFFFFFFF 0x00010000, .shadowed regDumpBaseLo 0xFFFFF000 0,
   .shadowed regDumpBaseHi 0xFFFF 0, .shadowed regDumpLen 0xFFFFFFFF 0,
   .shadowed regDumpHostLo 0xFFFFF000 0, .shadowed regDumpHostHi 0xFFFFFFFF 0,
   .shadowed regDumpCtl 0x7 0, .shadowed regPwrCtl 0x0FFF3F01 0x09601400,
   .shadowed regPerfCtl 0x3F3F 0x1414, .plain regRailSel 0xF, .plain regMnodeSel 0xFFFF,
   .plain regBbSel 0xFFFF, .shadowed regPdCfg 0xFFFF0000 0x40000000]

/-- Registers of the host and fabric blocks. -/
def regRowsHigh : List RegRow :=
  [.plain regRingSel 0xFF, .shadowed regSqBaseLo 0xFFFFFFC0 0, .shadowed regSqBaseHi 0xFFFFFFFF 0,
   .shadowed regSqCfg 0xFFFF9FFF 0x04000000, .shadowed regCqBaseLo 0xFFFFFFF0 0,
   .shadowed regCqBaseHi 0xFFFFFFFF 0, .shadowed regCqCfg 0x9F0007FF 0x04000000,
   .shadowed regCqMod 0xFF00FFFF 0x01000000, .shadowed regFabCtl 0x0F007FFF 0x05000000,
   .plain regPortSel 0xF, .shadowed regPortCtl 0x3 0x1, .plain regRouteSel 0x80007FFF,
   .shadowed regRouteSwitchLo 0xFFFFFFFF 0, .shadowed regRouteSwitchHi 0xBFFFFFFF 0,
   .plain regCtxSel 0x3FFFF, .shadowed regTimeCtl 0x7 0x1, .shadowed regTimeSetLo 0xFFFFFFFF 0,
   .shadowed regTimeSetHi 0xFFFFFFFF 0]
  ++ (List.range 16).map (fun n => .plain (regCtxData n) 0xFFFFFFFF)

/-- Registers of the blocks that have several instances, at instance 0. -/
def regRowsMulti : List RegRow :=
  [.shadowed (regTmCtl 0) 0x1FFFF 0x10400, .plain (regTmLogSel 0) 0xBF,
   .shadowed (regFlipAddrLo 0) 0xFFFFFFF0 0, .shadowed (regFlipAddrHi 0) 0xFFFF 0,
   .shadowed (regFlipData 0 0) 0xFFFFFFFF 0, .shadowed (regFlipData 0 1) 0xFFFFFFFF 0,
   .shadowed (regFlipData 0 2) 0xFFFFFFFF 0, .shadowed (regFlipData 0 3) 0xFFFFFFFF 0,
   ⟨regFlipCtl 0, 0x101FF, 0x101FF, 0x80000000, 0⟩,
   .shadowed (regStkCtl 0) 0x0DF8FFFF 0x00280100, .shadowed (regRegionLo 0) 0xFFFFFFFF 0,
   .shadowed (regRegionHi 0) 0xFFFF 0, .shadowed (regMarginCtl 0) 0x30FF7FFF 0x10,
   .shadowed (regInjAddrLo 0) 0xFFFFFFE0 0, .shadowed (regInjAddrHi 0) 0xFFFF 0,
   ⟨regInjCtl 0, 0x3FFFF, 0x20000, 0x80000000, 0⟩, .plain (regStkLogSel 0) 0xBF,
   .plain (regRangeSel 0) 0xF]

/-- Every register that stores a written value. -/
def regRows : List RegRow := regRowsLow ++ regRowsMid ++ regRowsHigh ++ regRowsMulti

/-- The offset of the same register in instance 0 of its block (Table 23.1). -/
def regNormal (off : Nat) : Nat :=
  if 0x30000 ≤ off && off < 0x32000 then 0x30000 + off % 0x1000
  else if 0x40000 ≤ off && off < 0x48000 then 0x40000 + off % 0x1000
  else if 0x50000 ≤ off && off < 0x58000 then 0x50000 + off % 0x1000
  else off

/-- The row of a register; `none` for an offset whose register stores nothing. -/
def regRow (off : Nat) : Option RegRow := regRows.find? (fun r => r.off == regNormal off)

/-- Reset value of a register (the Reset columns). -/
def regResetValue (off : Nat) : Word32 :=
  match regRow off with
  | some r => BitVec.ofNat 32 r.reset
  | none => 0

/-- Key of a register: BAR0 offset and instance. -/
def regKey (off inst : Nat) : Nat := off * 65536 + inst

/-- Shadow and effective value of a register. -/
def RegFile.get (rf : RegFile) (off inst : Nat) : RegCell :=
  mget ⟨regResetValue off, regResetValue off⟩ rf.vals (regKey off inst)

/-- Set a register's shadow and effective value. -/
def RegFile.put (rf : RegFile) (off inst : Nat) (c : RegCell) : RegFile :=
  { rf with vals := mput ⟨regResetValue off, regResetValue off⟩ rf.vals (regKey off inst) c }

/-- The effective value of a register, on which the device acts (R812). -/
def RegFile.eff (rf : RegFile) (off inst : Nat) : Nat := (rf.get off inst).eff.toNat

/-- The shadow of a register, which a read returns (R812). -/
def RegFile.shadow (rf : RegFile) (off inst : Nat) : Nat := (rf.get off inst).shadow.toNat

/-- The device itself changes a register: shadow and effective value together (R818). -/
def RegFile.device (rf : RegFile) (off inst : Nat) (f : Nat → Nat) : RegFile :=
  let c := rf.get off inst
  rf.put off inst ⟨BitVec.ofNat 32 (f c.shadow.toNat), BitVec.ofNat 32 (f c.eff.toNat)⟩

/-- A 32-bit word with the bits of `mask` taken from `new`. -/
def mergeBits (old new mask : Word32) : Word32 := (old &&& ~~~mask) ||| (new &&& mask)

/-- A host write of a register that stores a value (R13): RW bits take the value, shadowed ones in the
shadow only, W1C bits clear where the value has 1. -/
def RegFile.write (rf : RegFile) (off inst : Nat) (v : Word32) : RegFile :=
  match regRow off with
  | none => rf
  | some r =>
    let c := rf.get off inst
    let w1 : Word32 := ~~~(v &&& BitVec.ofNat 32 r.w1c)
    let sh := mergeBits c.shadow v (BitVec.ofNat 32 r.rw) &&& w1
    let ef := mergeBits c.eff v (BitVec.ofNat 32 (r.rw - r.sh)) &&& w1
    rf.put off inst ⟨sh, ef⟩

/-- The block of CMT_PENDING (Table 23.3) that an offset belongs to: its bit, or `none` where the block has
no COMMIT. -/
def blockOf (off : Nat) : Option Nat :=
  if off < 0x1000 then none
  else if off < 0x2000 then some 0
  else if off < 0x3000 then some 1
  else if off < 0x4000 then some 2
  else if off < 0x5000 then some 3
  else if off < 0x6000 then some 4
  else if off < 0x7000 then some 5
  else if off < 0x8000 then none
  else if off < 0x9000 then some 6
  else if off < 0x20000 then some 7
  else if off < 0x30000 then some 8
  else if off < 0x32000 then some (9 + (off - 0x30000) / 0x1000)
  else if 0x40000 ≤ off && off < 0x48000 then some (16 + (off - 0x40000) / 0x1000)
  else none

/-- Capture every shadow of a block (R813). A register that nothing has written has equal shadow and
effective value and needs no capture. -/
def RegFile.capture (rf : RegFile) (block : Nat) : List (Nat × Word32) :=
  (rf.vals.filter (fun kv => blockOf (kv.1 / 65536) == some block)).map
    (fun kv => (kv.1, (rf.get (kv.1 / 65536) (kv.1 % 65536)).shadow))

/-- Move captured shadows into the effective values: all at once (R813). -/
def RegFile.apply (rf : RegFile) (vals : List (Nat × Word32)) : RegFile :=
  vals.foldl (fun rf kv =>
    let off := kv.1 / 65536
    match regRow off with
    | none => rf
    | some r =>
      let c := rf.get off (kv.1 % 65536)
      rf.put off (kv.1 % 65536) ⟨c.shadow, mergeBits c.eff kv.2 (BitVec.ofNat 32 r.sh)⟩) rf

/-- A clamp at a commit point alters only the effective value (R816). -/
def RegFile.setEff (rf : RegFile) (off inst : Nat) (v : Nat) : RegFile :=
  rf.put off inst ⟨(rf.get off inst).shadow, BitVec.ofNat 32 v⟩

/-- A field of an effective value replaced. -/
def RegFile.setEffField (rf : RegFile) (off inst hi lo v : Nat) : RegFile :=
  let e := rf.eff off inst
  rf.setEff off inst (e - bits e hi lo * 2 ^ lo + v * 2 ^ lo)

/-- Drop the values of the registers that `keep` does not name (R820): each takes its reset value, and a
kept register's shadow returns to its effective value unless `keepShadow` names it. -/
def RegFile.resetAll (rf : RegFile) (keep keepShadow : Nat → Bool) : RegFile :=
  { vals := (rf.vals.filter (fun kv => keep (kv.1 / 65536))).map
      (fun kv => if keepShadow (kv.1 / 65536) then kv else (kv.1, ⟨kv.2.eff, kv.2.eff⟩)),
    captures := [] }

end Sys2Proof.Machine
end

