-- ==== Sys2Proof/Machine/Tree.lean ====
section
/-! DEFINITION. The unit tree of the B0 stepping (chapter 02, Tables 2.1 to 2.4): identifiers, spans, kinds,
classes. A *unit* is a piece of hardware, named here by the identifier it has with no substitution (R31);
which identifier reaches which unit is state (R33, R46). -/

namespace Sys2Proof.Machine

/-- Spans of Table 2.3 as R32 counts them: cell group, cluster, quadrant, stack node, die, package. -/
def spanGroup : Nat := 17
/-- Span of a cluster. -/
def spanCluster : Nat := 38
/-- Span of a quadrant. -/
def spanQuadrant : Nat := 609
/-- Span of a stack node. -/
def spanStack : Nat := 65
/-- Span of a die. -/
def spanDie : Nat := 2697
/-- Span of the package root: the number of identifiers from 0 in use. -/
def spanRoot : Nat := 5395

/-- Identifier of die d. -/
def dieNode (d : Nat) : Nat := 1 + d * spanDie
/-- Identifier of quadrant q of die d. -/
def quadrantNode (d q : Nat) : Nat := dieNode d + 1 + q * spanQuadrant
/-- Identifier of cluster c of a quadrant. -/
def clusterNode (d q c : Nat) : Nat := quadrantNode d q + 1 + c * spanCluster
/-- Identifier of cell group g of the package, in ascending order (R31). -/
def groupNode (g : Nat) : Nat :=
  clusterNode (g / 128) (g / 32 % 4) (g / 2 % 16) + 4 + (g % 2) * spanGroup
/-- Identifier of the stack node of stack s, 0 to 7. -/
def stackNode (s : Nat) : Nat := dieNode (s / 4) + 1 + 4 * spanQuadrant + (s % 4) * spanStack
/-- Identifier that enumeration gives the spare of cell group g (R31). -/
def spareId (g : Nat) : Nat := 0xF000 + g
/-- Number of cell groups on B0. -/
def numGroups : Nat := 256

/-- Where a unit stands in the tree. -/
inductive Place where
  | root
  | die (d : Nat)
  | quadrant (d q : Nat)
  | cluster (d q c : Nat)
  | vectorEngine (d q c : Nat)
  | mover (d q c m : Nat)
  | cellGroup (g : Nat)
  | cell (g slot : Nat)
  | stack (s : Nat)
  | updateEngine (s e : Nat)
deriving DecidableEq, Repr

/-- The place of the unit that an identifier names when nothing is substituted; `none` where it names no
node (R31, R32). Slot 16 of a cell group is its spare. -/
def placeOf (id : Nat) : Option Place :=
  if id = 0 then some .root
  else if 0xF000 ≤ id && id < 0xF000 + numGroups then some (.cell (id - 0xF000) 16)
  else if spanRoot ≤ id then none
  else
    let d := (id - 1) / spanDie
    let o := (id - 1) % spanDie
    if o = 0 then some (.die d)
    else if o ≤ 4 * spanQuadrant then
      let q := (o - 1) / spanQuadrant
      let r := (o - 1) % spanQuadrant
      if r = 0 then some (.quadrant d q)
      else
        let c := (r - 1) / spanCluster
        let t := (r - 1) % spanCluster
        let g := d * 128 + q * 32 + c * 2
        if t = 0 then some (.cluster d q c)
        else if t = 1 then some (.vectorEngine d q c)
        else if t ≤ 3 then some (.mover d q c (t - 2))
        else if t = 4 then some (.cellGroup g)
        else if t < 4 + spanGroup then some (.cell g (t - 5))
        else if t = 4 + spanGroup then some (.cellGroup (g + 1))
        else some (.cell (g + 1) (t - 22))
    else
      let u := o - 1 - 4 * spanQuadrant
      let s := d * 4 + u / spanStack
      if u % spanStack = 0 then some (.stack s) else some (.updateEngine s (u % spanStack - 1))

/-- The unit of a cell group's slot: cells 0 to 15, and 16 for the spare. -/
def cellUnit (g slot : Nat) : Nat := if slot = 16 then spareId g else groupNode g + 1 + slot

/-- Kind of a place (Table 2.1). -/
def Place.kind : Place → NodeKind
  | .cell _ _ => .cell
  | .vectorEngine _ _ _ => .vectorEngine
  | .mover _ _ _ _ => .mover
  | .updateEngine _ _ => .updateEngine
  | .root | .die _ | .quadrant _ _ | .cluster _ _ _ | .cellGroup _ | .stack _ => .group

/-- Kind code (Table 2.1). -/
def NodeKind.code : NodeKind → Nat
  | .group => 0 | .cell => 1 | .vectorEngine => 2 | .mover => 3 | .updateEngine => 4

/-- Parent identifier (Table 2.4). -/
def Place.parent : Place → Nat
  | .root => 0xFFFF
  | .die _ => 0
  | .quadrant d _ => dieNode d
  | .cluster d q _ => quadrantNode d q
  | .vectorEngine d q c | .mover d q c _ => clusterNode d q c
  | .cellGroup g => clusterNode (g / 128) (g / 32 % 4) (g / 2 % 16)
  | .cell g _ => groupNode g
  | .stack s => dieNode (s / 4)
  | .updateEngine s _ => stackNode s

/-- Span (R32, Table 2.4). -/
def Place.span : Place → Nat
  | .root => spanRoot
  | .die _ => spanDie
  | .quadrant _ _ => spanQuadrant
  | .cluster _ _ _ => spanCluster
  | .cellGroup _ => spanGroup
  | .stack _ => spanStack
  | .cell _ _ | .vectorEngine _ _ _ | .mover _ _ _ _ | .updateEngine _ _ => 1

/-- Number of child nodes (Table 2.3). -/
def Place.children : Place → Nat
  | .root => 2
  | .die _ => 8
  | .quadrant _ _ => 16
  | .cluster _ _ _ => 5
  | .cellGroup _ => 16
  | .stack _ => 64
  | .cell _ _ | .vectorEngine _ _ _ | .mover _ _ _ _ | .updateEngine _ _ => 0

/-- Index among the siblings (Table 2.4). -/
def Place.position : Place → Nat
  | .root => 0
  | .die d => d
  | .quadrant _ q => q
  | .cluster _ _ c => c
  | .vectorEngine _ _ _ => 0
  | .mover _ _ _ m => 1 + m
  | .cellGroup g => 3 + g % 2
  | .cell _ slot => slot
  | .stack s => 4 + s % 4
  | .updateEngine _ e => e

/-- Largest MATMUL array in lanes, rows and columns (Table 2.3 and the text below it). -/
def Place.array : Place → Nat × Nat
  | .root => (2048, 2048)
  | .die _ => (1024, 2048)
  | .quadrant _ _ => (512, 1024)
  | .cluster _ _ _ => (128, 256)
  | .cellGroup _ => (128, 128)
  | .cell _ _ => (32, 32)
  | .vectorEngine _ _ _ | .mover _ _ _ _ | .stack _ | .updateEngine _ _ => (0, 0)

/-- Accepted-class bitmap (R30, Table 2.2). -/
def Place.classes : Place → Nat
  | .root => 0xFFF
  | .die _ => 0xB7F
  | .quadrant _ _ | .cluster _ _ _ => 0x94F
  | .vectorEngine _ _ _ => 0x946
  | .mover _ _ _ _ => 0x848
  | .cellGroup _ | .cell _ _ => 0x841
  | .stack _ => 0xA60
  | .updateEngine _ _ => 0x860

/-- Die of a place; 0xFF for the root (Table 2.4). -/
def Place.dieIx : Place → Nat
  | .root => 0xFF
  | .die d | .quadrant d _ | .cluster d _ _ | .vectorEngine d _ _ | .mover d _ _ _ => d
  | .cellGroup g | .cell g _ => g / 128
  | .stack s | .updateEngine s _ => s / 4

/-- Die of a unit, 0 where it has none. -/
def unitDie (u : Nat) : Nat :=
  match placeOf u with
  | some p => if p.dieIx < 2 then p.dieIx else 0
  | none => 0

/-- Stack of a place; 0xFF where it has none (Table 2.4). -/
def Place.stackIx : Place → Nat
  | .stack s | .updateEngine s _ => s
  | .root | .die _ | .quadrant _ _ | .cluster _ _ _ | .vectorEngine _ _ _ | .mover _ _ _ _
  | .cellGroup _ | .cell _ _ => 0xFF

/-- Identifiers of the subtree of a node that has one, spares excluded (R32). -/
def subtree (id : Nat) : List Nat :=
  match placeOf id with
  | some p => rangeFrom id p.span
  | none => []

/-- Whether identifier `id` lies in the subtree of `top` (R32). -/
def inSubtree (top id : Nat) : Bool :=
  match placeOf top with
  | some p => top ≤ id && id < top + p.span
  | none => false

/-- Every physical cell, spares last: the units that hold cell state. -/
def allCells : List Nat :=
  (List.range numGroups).flatMap (fun g => (List.range 17).map (cellUnit g))

end Sys2Proof.Machine
end

