-- ==== Sys2Proof/Machine/Ops.lean ====
section
/-! DEFINITION. The shared operations: open values, stamps, clamps, counters, events, signal logs, node states. -/

namespace Sys2Proof.Machine

/-- CHIP_ID. -/
def State.chipId (s : State) : Nat := s.regs.eff regFabCtl 0 % 32768

/-! ### Values the spec leaves open -/

/-- Take the next open value. DESIGN CHOICE (log 7). -/
def State.free (s : State) : Nat × State :=
  ((Config.freeWord s.taken).toNat, { s with taken := s.taken + 1 })

/-- Take n open bytes. DESIGN CHOICE (log 7). -/
def State.freeBytes (s : State) (n : Nat) : List Byte × State :=
  ((List.range n).map (Config.freeByte s.taken), { s with taken := s.taken + 1 })

/-! ### Access to BAR0 -/

/-- BAR0 answers: it is readable, and the package neither resets nor is without power (R789, R792, R800), nor in D3hot (Table 15.1). -/
def State.bar0Open (s : State) : Bool := s.rst.bar0 && s.rst.state != 1 && s.rst.state != 4 && !s.d3hot

/-- Writes to BAR0 act: READY is set and BAR0 answers; until then they are ignored (R811). -/
def State.takesWrites (s : State) : Bool := s.tree.ready && s.bar0Open

/-- What a BAR0 write does. DEDUCED (log 41). -/
def State.onWrite (s : State) (f : State → State) : State := if s.takesWrites then f s else s

/-- The package has power, and no thermal trip or power loss has stopped it (R799, R801). DEDUCED (log 38, 43). -/
def State.powered (s : State) : Bool := s.rst.vaux && s.rst.state != 4 && !s.rst.stoppedAll

/-! ### Time -/

/-- Quality code (Table 13.14). -/
def Quality.code : Quality → Nat
  | .referenced => 0 | .fabric => 1 | .holdover => 2 | .unset => 3

/-- The Station Time that a stamp of this moment shows: 0 to 3 beats before it, and never less than a stamp of an earlier
moment shows (R61). How far it lags is left open. DEDUCED (log 45). -/
def stampTime (now : Nat) : Nat :=
  ((List.range 4).map (fun d => now - d - (Config.stampLag (now - d)).toNat)).foldl max 0

/-- The 64-bit stamp of this moment (R486): quality in [63:62], Station Time bits [61:0]. While the package
is UNSET stamps are zero (R708). DEDUCED (log 45). -/
def State.stamp (s : State) : Nat :=
  match s.time.quality with
  | .unset => 0
  | .referenced | .fabric | .holdover => s.time.quality.code * 2 ^ 62 + stampTime s.time.now % 2 ^ 62

/-! ### Sending out -/

/-- Put one thing on an interface. -/
def State.emit (s : State) (o : Output) : State := { s with out := s.out ++ [o] }

/-- A host read of a BAR0 register that has a side effect `f` and reads v: not supported while the package resets or is
without power (R792, R800), zero and without the effect in BOOT_FAIL (R763). DEDUCED (log 41). -/
def State.onRead (s : State) (v : Nat) (f : State → State) : State :=
  if !s.bar0Open then s.emit .unsupported
  else if s.mgmt.bootFail ≠ 0 then s.emit (.readData (natLe 4 0) false)
  else (f s).emit (.readData (natLe 4 v) false)

/-- Send a PLDM PlatformEventMessage to the registered receiver, if there is one (R758). PRESUMED (log 30). -/
def State.platform (s : State) (sensor value : Nat) : State :=
  if s.mgmt.receiver.isSome then s.emit (.platformEvent sensor value) else s

/-- Package state as sensor 47 reports it, in the order of Table 21.4: RUN, HOLD, REBUILD, FATAL, BOOT_FAIL. -/
def State.packageState (s : State) : Nat :=
  if s.mgmt.bootFail ≠ 0 then 4 else if s.cores.fatal then 3 else if s.res.rebuilding then 2 else if s.res.hold then 1 else 0

/-- Report a change of the package state since `old` over MCTP (R758). -/
def State.tellState (s : State) (old : State) : State :=
  if s.packageState = old.packageState then s else s.platform 47 s.packageState

/-- Report a change of the quality of Station Time since `old` over MCTP (R758). -/
def State.tellQuality (s : State) (old : State) : State :=
  if s.time.quality = old.time.quality then s else s.platform 45 (match s.time.quality with
    | .referenced => 0 | .fabric => 1 | .holdover => 2 | .unset => 3)

/-- A trained stack trains again at another data rate, in TEST state (R384). -/
def StackState.retraining (x : StackState) : Bool := x.mode == .training && x.trained

/-- A stack is in TEST state, whether or not it trains again there (R383, R384). -/
def StackState.inTest (x : StackState) : Bool := x.mode == .test || x.retraining

/-- A rail holds (R745). -/
def State.railHolds (s : State) (rail : Nat) : Bool := s.pwr.holds.any (fun h => h.1 == rail)

/-- Tier, accumulator and queue memory of a die hold: VSRAM is below its hold threshold (R745). -/
def State.sramHeld (s : State) (d : Nat) : Bool := s.railHolds (2 + d)

/-- Queue memory, or memory of either die, holds: a descriptor's accesses wait (R745). DEDUCED (log 44). -/
def State.memHeld (s : State) : Bool := s.sramHeld 0 || s.sramHeld 1

/-- A stack's accesses hold: VDDC, VDDQ or VPP of its die; one in TEST state ignores its VDDQ (R745). -/
def State.stackHeld (s : State) (k : Nat) : Bool :=
  let d := k / 4
  s.railHolds (6 + d) || (s.railHolds (8 + d) && !(mget StackState.reset s.stk k).inTest) || s.railHolds (10 + d)

/-! ### Throttle (R728, R733, R738) -/

/-- The component of a pair for a die. -/
def ofDie {α : Type} (p : α × α) (d : Nat) : α := if d = 0 then p.1 else p.2

/-- T_slow of a die. -/
def PwrState.slow (p : PwrState) (d : Nat) : Nat := max (ofDie p.tSlow d) p.tCool

/-- The throttle level of a die (R728, R733, R738). -/
def State.throttleOf (s : State) (d : Nat) : Nat :=
  if s.pwr.coolant = 2 then 15
  else min 15 (max (max s.pwr.tFast (s.pwr.slow d)) (max s.pwr.tCap (if s.pwr.alert then 8 else 0)))

/-! ### Units and identifiers -/

/-- The unit an identifier reaches (R33, R46). -/
def State.unitOf (s : State) (id : Nat) : Nat := mget id s.tree.names id

/-- What the tree keeps for a unit. -/
def State.unit (s : State) (u : Nat) : UnitState := mget UnitState.reset s.tree.units u

/-- Change what the tree keeps for a unit. -/
def State.modUnit (s : State) (u : Nat) (f : UnitState → UnitState) : State :=
  { s with tree := { s.tree with units := mmod UnitState.reset s.tree.units u f } }

/-- A physical cell. -/
def State.cell (s : State) (u : Nat) : CellState := mget CellState.reset s.cells u

/-- Change a physical cell. -/
def State.modCell (s : State) (u : Nat) (f : CellState → CellState) : State :=
  { s with cells := mmod CellState.reset s.cells u f }

/-- A memory stack. -/
def State.stack (s : State) (k : Nat) : StackState := mget StackState.reset s.stk k

/-- Change a memory stack. -/
def State.modStack (s : State) (k : Nat) (f : StackState → StackState) : State :=
  { s with stk := mmod StackState.reset s.stk k f }

/-- A holding slot. -/
def State.slot (s : State) (k : Nat) : Option Slot := mget none s.host.slots k

/-- Set a holding slot; `none` frees it. -/
def State.putSlot (s : State) (k : Nat) (v : Option Slot) : State :=
  { s with host := { s.host with slots := mput none s.host.slots k v } }

/-! ### Counters -/

/-- The identifier of a counter that a chapter's table defines (R703). -/
def ctrId (chapter table pos : Nat) : Nat := chapter * 1024 + table * 32 + pos

/-- Positions of the 48-bit counters of each counter table; every other counter has 32 bits. -/
def wideCounters : List Nat :=
  [0x2400] ++ [ctrId 4 8 0, ctrId 4 8 1, ctrId 4 8 3, ctrId 5 8 4, ctrId 6 12 0, ctrId 6 12 3, ctrId 6 12 9,
    ctrId 10 12 5, ctrId 11 10 5, ctrId 11 10 10, ctrId 13 19 0, ctrId 13 19 1, ctrId 13 19 9,
    ctrId 14 9 0, ctrId 14 9 1, ctrId 14 9 2, ctrId 8 8 0, ctrId 8 8 1, ctrId 8 8 5, ctrId 12 11 0, ctrId 12 11 1, ctrId 12 11 2, ctrId 17 9 0, ctrId 17 9 3,
    ctrId 18 11 2, ctrId 18 11 7, ctrId 20 11 0, ctrId 20 11 1, ctrId 20 11 2, ctrId 20 11 3, ctrId 20 11 4,
    ctrId 20 11 8, ctrId 20 11 10, ctrId 15 10 0, ctrId 15 10 1, ctrId 15 10 3, ctrId 15 10 4, ctrId 15 10 6]

/-- Width of a counter in bits. -/
def ctrWidth (id : Nat) : Nat := if wideCounters.contains id then 48 else 32

/-- Key of a unit's counter. -/
def ctrKey (u id : Nat) : Nat := u * 65536 + id

/-- The live value of a unit's counter. -/
def State.ctr (s : State) (u id : Nat) : Nat := mget 0 s.obs.live (ctrKey u id)

/-- Add to a live counter of a unit, saturating at its width (R704); in FATAL the counters are stopped (R710). -/
def State.count (s : State) (u id n : Nat) : State :=
  if n = 0 || s.cores.stopped then s
  else { s with obs := { s.obs with
    live := mmod 0 s.obs.live (ctrKey u id) (fun v => sat (ctrWidth id) (v + n)) } }

/-- CLAMPS, kept by the package root (R575, Table 19.5). -/
def ctrClamps : Nat := 0x3C00
/-- SQ_EVALS (R320). -/
def ctrSqEvals : Nat := 0x2400
/-- FREEZE_COUNT (R51). -/
def ctrFreeze : Nat := 0x0A00

/-! ### Clamps -/

/-- Where a clamp arises (Table 15.9). -/
inductive ClampSource where
  | descriptor (ring index opcode : Nat)
  | register (off : Nat)
  | doorbell (off value ring : Nat)
  | message (chip : Nat)
  | doorbellMessage (chip value ring : Nat)
  | table
deriving DecidableEq, Repr

/-- CLAMP_LAST_LO of a clamp (Table 15.9). -/
def ClampSource.lo : ClampSource → Nat
  | .descriptor ring index opcode => (index % 65536) * 65536 + (ring % 256) * 256 + opcode % 256
  | .doorbell _ value ring | .doorbellMessage _ value ring => (value % 65536) * 65536 + (ring % 256) * 256
  | .register _ | .message _ | .table => 0xFF00

/-- CLAMP_LAST_HI of a clamp (Table 15.9). -/
def ClampSource.hi : ClampSource → Nat
  | .descriptor _ _ _ => 0
  | .register off => 2 ^ 30 + bits off 25 2
  | .doorbell off _ _ => 2 ^ 30 + 2 ^ 24 + bits off 19 2
  | .message chip => 2 * 2 ^ 30 + chip % 32768
  | .doorbellMessage chip _ _ => 2 * 2 ^ 30 + 2 ^ 24 + chip % 32768
  | .table => 3 * 2 ^ 30

/-- Count n clamps of one source (R575). -/
def State.clamp (s : State) (src : ClampSource) (n : Nat) : State :=
  if n = 0 then s
  else
    let s := s.count 0 ctrClamps n
    { s with host := { s.host with
        clampCount := sat 32 (s.host.clampCount + n), clampLastLo := src.lo, clampLastHi := src.hi } }

/-- The clamp source of a descriptor in a slot. -/
def Slot.source (sl : Slot) : ClampSource := .descriptor sl.ring sl.index (field sl.desc 0 1)

/-! ### Signal logs -/

/-- Kinds recorded whatever SIG_MASK holds (Table 19.4). -/
def sigAlways : List Nat := [0x01, 0x02, 0x03, 0x04, 0x05, 0x06, 0x07, 0x09, 0x0A, 0x0E]

/-- Whether a unit's counters and logs are stopped: in FATAL, after step 2 of R710. -/
def State.logsStopped (s : State) : Bool := s.cores.stopped

/-- Write an entry of a kind in a unit's signal log (R699, R700, R701). -/
def State.sig (s : State) (u kind arg : Nat) : State :=
  if s.logsStopped then s
  else if sigAlways.contains kind || bit (s.regs.eff regSigMask 0) kind then
    { s with obs := { s.obs with logs := mmod SigLog.reset s.obs.logs u (fun l =>
        ⟨(l.count + 1) % 2 ^ 32, ((s.stamp, (arg % 2 ^ 57) * 128 + kind % 64) :: l.entries).take 64⟩) } }
  else s

/-! ### Events -/

/-- An event record without PHASE (R568, R571): code, 40-bit argument, URGENT, LOST. -/
def eventRecord (code arg : Nat) (urgent lost : Bool) (stamp : Nat) : List Byte :=
  natLe 2 code ++ natLe 1 (bits arg 39 32) ++ natLe 1 (2 + 4 * b2n urgent + 8 * b2n lost)
    ++ natLe 4 (bits arg 31 0) ++ natLe 8 stamp

/-- CQ_CFG of a ring, as committed. -/
def State.cqCfg (s : State) (r : Nat) : Nat := s.regs.eff regCqCfg r
/-- Entries of a ring, from its CFG (R550). -/
def ringSize (cfg : Nat) : Nat := 2 ^ bits cfg 28 24
/-- A completion ring's state. -/
def State.cqRing (s : State) (r : Nat) : CqRing := mget CqRing.reset s.host.cq r

/-- Unconsumed records of a completion ring (R570). -/
def State.unconsumed (s : State) (r : Nat) : Nat :=
  let q := s.cqRing r
  (q.tail + ringSize (s.cqCfg r) - q.head) % ringSize (s.cqCfg r)

/-- Records that a completion ring can take before it is full (R570): none while it is disabled, or in D3hot, where the device sends no
write. -/
def State.cqRoom (s : State) (r : Nat) : Nat :=
  if bit (s.cqCfg r) 31 && !s.d3hot then ringSize (s.cqCfg r) - 1 - s.unconsumed r else 0

/-- Put an event record behind the others that go to completion ring 0. What finds the ring full waits in a buffer of 512 and is dropped
where that is full (R573): the ring takes the first of them as its room allows. -/
def State.bufferEvent (s : State) (rec : List Byte) : State :=
  if s.host.events.length < 512 + s.cqRoom 0 then
    { s with host := { s.host with events := s.host.events ++ [rec] } }
  else
    let s := s.count 0 (ctrId 15 10 5) 1
    { s with host := { s.host with evtLost := true, lostNext := true } }

/-- Post an event to completion ring 0 (R571). -/
def State.event (s : State) (code arg : Nat) (urgent : Bool) : State :=
  s.bufferEvent (eventRecord code arg urgent false s.stamp)

/-! ### Node states -/

/-- State code (Table 2.6). -/
def NodeState.code : NodeState → Nat
  | .idle => 0 | .busy => 1 | .frozen => 2 | .halted => 3 | .fenced => 4 | .retired => 5 | .failed => 6
  | .spare => 7

/-- The states whose entry or leaving is a structural change (R36). -/
def NodeState.structural : NodeState → Bool
  | .fenced | .retired | .failed | .spare => true
  | .idle | .busy | .frozen | .halted => false

/-- GEN increments and one TREE_CHANGED event is posted (R36). -/
def State.treeChanged (s : State) : State :=
  let s := { s with tree := { s.tree with gen := (s.tree.gen + 1) % 256 } }
  s.event 0x0101 s.tree.gen false

/-- Set a unit's state, with its STATE entry in the signal log, and GEN and TREE_CHANGED where the change is
structural and enumeration is complete (R36, Table 19.4). -/
def State.setState (s : State) (u : Nat) (st : NodeState) : State :=
  let old := (s.unit u).state
  if old = st then s
  else
    let s := (s.modUnit u (fun x => { x with state := st })).sig u 0x01 (old.code + 16 * st.code)
    if s.tree.ready && (old.structural || st.structural) then s.treeChanged else s

/-- The place of the node an identifier names, through any substitution; `none` where it names no node. -/
def State.placeOf (s : State) (id : Nat) : Option Place := Sys2Proof.Machine.placeOf (s.unitOf id)

end Sys2Proof.Machine
end

