-- ==== Sys2Proof/Machine/Memory.lean ====
section
/-! DEFINITION. Tier memory and stack memory: the address map, check codes, correction, poison, the error
logs, the flip mask and error injection (chapters 10 and 11). Every read and write of a byte of memory goes
through `memRead` and `memWrite`. -/

namespace Sys2Proof.Machine

/-! ### The address map -/

/-- First address past tier memory (R322, R324). -/
def tierEnd : Nat := 0x3C0000000
/-- First address of die 1's tier memory (R322). -/
def tierDie1 : Nat := 0x1E0000000
/-- The accumulator window (R162). -/
def accBase : Nat := 0x400000000
/-- First address past the accumulator window. -/
def accEnd : Nat := 0x800000000
/-- Stack memory (R360). -/
def stackBase : Nat := 0x100000000000
/-- Bytes of one stack (R360). -/
def stackSize : Nat := 0xC00000000
/-- First address past stack memory. -/
def stackEnd : Nat := stackBase + 8 * stackSize

/-- A range that lies wholly in tier memory. -/
def inTier (a n : Nat) : Bool := a + n ≤ tierEnd
/-- A range that lies wholly in the accumulator window. -/
def inAcc (a n : Nat) : Bool := accBase ≤ a && a + n ≤ accEnd
/-- A range that lies wholly in stack memory. -/
def inStack (a n : Nat) : Bool := stackBase ≤ a && a + n ≤ stackEnd
/-- Stack of a stack address (R360, R361). -/
def stackOf (a : Nat) : Nat := (a - stackBase) / stackSize
/-- Offset of a stack address in its stack (R361). -/
def stackOffset (a : Nat) : Nat := (a - stackBase) % stackSize
/-- Region unit of a stack address (R361). -/
def regionUnit (a : Nat) : Nat := stackOffset a / 2 ^ 30

/-- The place of a byte of stack memory (R361). -/
structure StackPlace where
  stack : Nat
  /-- Byte of a 256-byte line. -/
  byte : Nat
  /-- Pseudo-channel. -/
  pc : Nat
  /-- Line of the 1 KiB row. -/
  col : Nat
  /-- Bank group. -/
  bg : Nat
  bank : Nat
  /-- Stack ID. -/
  sid : Nat
  row : Nat
  /-- Region unit. -/
  unit : Nat
deriving DecidableEq, Repr

/-- The place that a stack address maps to (R361). -/
def stackPlace (a : Nat) : StackPlace :=
  let o := stackOffset a
  let q := o / 2 ^ 20
  ⟨stackOf a, o % 256, bits o 13 8, bits o 15 14, bits o 17 16, bits o 19 18, q % 3, q / 3, regionUnit a⟩

/-- The address of a place (R361). -/
def StackPlace.addr (p : StackPlace) : Nat :=
  stackBase + p.stack * stackSize + (((((3 * p.row + p.sid) * 4 + p.bank) * 4 + p.bg) * 4 + p.col) * 64 + p.pc) * 256 + p.byte

/-- The place of byte b of the n-th row of a pseudo-channel in ascending address order (R361, R387): bank groups run fastest, then
banks, stack IDs and rows. -/
def rowPlace (k pc n b : Nat) : StackPlace :=
  ⟨k, b % 256, pc, b / 256, n % 4, n / 4 % 4, n / 16 % 3, n / 48, n / 2 ^ 14⟩
/-- Die whose memory holds an address (R162, R322, R360); a spare that replaces a cell lies on the same die (R46). -/
def dieOfAddr (a : Nat) : Nat :=
  if a < tierEnd then (if a < tierDie1 then 0 else 1)
  else if accBase ≤ a && a < accEnd then unitDie ((a - accBase) / 0x40000)
  else stackOf a / 4

/-- A region unit of a stack is Open (R367). -/
def State.unitOpen (s : State) (k g : Nat) : Bool :=
  if g < 32 then bit (s.regs.eff (regRegionLo k) 0) g else bit (s.regs.eff (regRegionHi k) 0) (g - 32)

/-- The stack address lies in an Open unit. -/
def State.isOpen (s : State) (a : Nat) : Bool := s.unitOpen (stackOf a) (regionUnit a)

/-- Size of the unit of check and poison at an address: granule or sector (R321, R363). -/
def unitSize (a : Nat) : Nat := if a < tierEnd then 16 else 32

/-- Base of the unit that holds an address. -/
def unitBase (a : Nat) : Nat := a - a % unitSize a

/-- Cut a range at unit boundaries: base of the unit, offset in it, length. `fuel` bounds the pieces. -/
def cutUnits : Nat → Nat → Nat → List (Nat × Nat × Nat)
  | 0, _, _ => []
  | fuel + 1, a, n =>
    if n = 0 then []
    else
      let b := unitBase a
      let len := min n (b + unitSize a - a)
      (b, a - b, len) :: cutUnits fuel (a + len) (n - len)

/-- The units a range touches. -/
def unitsOf (a n : Nat) : List (Nat × Nat × Nat) := cutUnits (n / 16 + 2) a n

/-! ### Check codes (R326 to R330) -/

/-- The data bit that stands at a position that is no power of two (R326). -/
def posData (p : Nat) : Nat := p - p.log2 - 2

/-- The code of k data bits with r Hamming bits; bit r is the overall bit (R326). -/
def hamming (k r data : Nat) : Nat :=
  let ps := (List.range (k + r + 1)).filter (fun p => p ≠ 0 && p ≠ 2 ^ p.log2)
  let c := (ps.zip (List.range k)).foldl (fun acc pj => if data.testBit pj.2 then acc ^^^ pj.1 else acc) 0
  c + 2 ^ r * b2n (parity k data != parity r c)

/-- The pattern that the poison mark inverts (R329): every Hamming bit, and the overall bit when r is odd. -/
def poisonMask (r : Nat) : Nat := 2 ^ r - 1 + (if r % 2 = 1 then 2 ^ r else 0)

/-- Class of a read (Table 10.3). -/
inductive ReadClass where
  | clean
  /-- The overall bit is wrong, or the bit at a position. -/
  | correctable (pos : Nat)
  | poisoned
  | uncorrectable
deriving DecidableEq, Repr

/-- Class a read by the difference of its stored check bits from a fresh code (R328): S is its low r bits
and P its parity, because a fresh code has S and P zero. -/
def classify (k r mark : Nat) : ReadClass :=
  let syn := mark % 2 ^ r
  let par := parity (r + 1) mark
  if syn = 0 then (if par then .correctable 0 else .clean)
  else if par then (if syn ≤ k + r then .correctable syn else .uncorrectable)
  else if syn = 2 ^ r - 1 then .poisoned
  else .uncorrectable

/-- One protected part of a unit: byte offset, data bits, Hamming bits, and its difference. -/
structure CheckPart where
  off : Nat
  k : Nat
  r : Nat
  mark : Nat
  shift : Nat
deriving DecidableEq, Repr

/-- The protected parts of the unit at a base address, where a sector is of an Open unit or not: one tier granule, one Open
sector, or the two halves of a Sealed sector (Tables 10.2 and 11.2). -/
def State.partsAs (s : State) (opened : Bool) (base : Nat) : List CheckPart :=
  let m := mget 0 s.mem.marks base
  if base < tierEnd then [⟨0, 128, 8, m, 0⟩]
  else if opened then [⟨0, 256, 9, m, 0⟩]
  else [⟨0, 128, 8, m % 512, 0⟩, ⟨16, 128, 8, m / 512, 9⟩]

/-- The protected parts of the unit at a base address. -/
def State.parts (s : State) (base : Nat) : List CheckPart := s.partsAs (s.isOpen base) base

/-- The Sealed key of a sector (R369): the xor of the eight bytes of its index, which counts from the start of its stack as S does in
R361. DEDUCED (log 6). -/
def sealedKey (a : Nat) : Nat :=
  let i := bits (stackOffset a / 32) 40 0
  let k := (natLe 8 i).foldl (fun acc b => acc ^^^ b.toNat) 0
  if k = 0xFF then 0xFE else k

/-- What a key changes of a half's check bits: the Hamming bits by the key, the overall bit by its parity (R369). -/
def keyMask (key : Nat) : Nat := key % 256 + 256 * b2n (parity 8 key)

/-- What the key of its sector changes of a unit's check bits: nothing in tier memory and in an Open unit (R369). -/
def State.keyOf (s : State) (base : Nat) : Nat :=
  if base < tierEnd || s.isOpen base then 0 else keyMask (sealedKey base)

/-- The mark of a unit written with poison (R329, R370). -/
def State.poisonMark (s : State) (base : Nat) : Nat :=
  (s.parts base).foldl (fun acc p => acc + poisonMask p.r * 2 ^ p.shift) 0

/-- The whole mark of a unit whose data bits were changed by `flip` after its code was formed (R353, R393). -/
def State.flipMark (s : State) (base flip : Nat) : Nat :=
  (s.parts base).foldl (fun acc p =>
    acc + hamming p.k p.r (flip / 2 ^ (8 * p.off) % 2 ^ p.k) * 2 ^ p.shift) 0

/-- Set the mark of a unit. -/
def State.setMark (s : State) (base m : Nat) : State :=
  { s with mem := { s.mem with marks := mput 0 s.mem.marks base m } }

/-- A stored byte. DESIGN CHOICE (log 6). -/
def State.byte (s : State) (a : Nat) : Byte := mget 0 s.mem.cells a

/-- Stored bytes, unchecked. -/
def State.rawBytes (s : State) (a n : Nat) : List Byte := (rangeFrom a n).map s.byte

/-- The check bits of a unit as its memory stores them (R326, R368, R369): of each part the code of its data, changed by the part's
difference and by the key. The reader takes the key away again before it classes what it read, so `classify` sees the
difference alone. -/
def State.storedCheck (s : State) (base : Nat) : Nat :=
  let d := leNat (s.rawBytes base (unitSize base))
  (s.parts base).foldl (fun acc p =>
    acc + (hamming p.k p.r (d / 2 ^ (8 * p.off) % 2 ^ p.k) ^^^ p.mark ^^^ s.keyOf base) * 2 ^ p.shift) 0

/-- Store bytes, unchecked: the one place where memory contents change. -/
def State.rawStore (s : State) (a : Nat) (bs : List Byte) : State :=
  { s with mem := { s.mem with
      cells := (bs.zip (List.range bs.length)).foldl (fun m bi => mput 0 m (a + bi.2) bi.1) s.mem.cells } }

/-! ### Logs (R350, R351, R389) -/

/-- Keeper of an address's counters and logs: node, log key, and whether it is a stack. -/
def keeper (base : Nat) : Nat × Nat × Bool :=
  if base < tierEnd then (dieNode (dieOfAddr base), dieOfAddr base, false)
  else (stackNode (stackOf base), 2 + stackOf base, true)

/-- Counter of the memory protection table of an address: position n of Table 10.12 or Table 11.10, whose
first eight rows agree. -/
def memCtr (base n : Nat) : Nat := if base < tierEnd then ctrId 10 12 n else ctrId 11 10 n

/-- The logs with a key. -/
def State.errLogs (s : State) (key : Nat) : ErrLogs := mget ErrLogs.empty s.mem.logs key

/-- Change the logs with a key. -/
def State.modLogs (s : State) (key : Nat) (f : ErrLogs → ErrLogs) : State :=
  { s with mem := { s.mem with logs := mmod ErrLogs.empty s.mem.logs key f } }

/-- Log a correctable error (R351): the same address counts up, a new one takes the lowest free entry. The
second component says that no entry was free. -/
def ErrLogs.addCe (l : ErrLogs) (addr syn finder time : Nat) (acc : Bool) : ErrLogs × Bool :=
  if l.ce.any (fun e => e.addr == addr) then
    ({ l with ce := l.ce.map (fun e => if e.addr == addr then { e with count := sat 16 (e.count + 1) } else e) },
      false)
  else if l.ce.length < 32 then
    ({ l with ce := l.ce ++ [⟨addr, syn % 256, acc, false, finder, 1, time % 2 ^ 48⟩] }, false)
  else (l, true)

/-- Log a newly poisoned unit (R351). -/
def ErrLogs.addUe (l : ErrLogs) (addr syn finder time : Nat) (acc : Bool) : ErrLogs × Bool :=
  if l.ue.length < 64 then
    ({ l with ue := l.ue ++ [⟨addr, syn % 256, acc, false, finder, 0, time % 2 ^ 48⟩] }, false)
  else (l, true)

/-- A read of a poisoned unit counts in its live entry (Table 10.7). -/
def ErrLogs.readPoison (l : ErrLogs) (addr : Nat) : ErrLogs :=
  { l with ue := l.ue.map (fun e =>
      if e.addr == addr && !e.cleared then { e with count := sat 16 (e.count + 1) } else e) }

/-- A whole write cleared a unit's poison (R348). -/
def ErrLogs.clearPoison (l : ErrLogs) (addr : Nat) : ErrLogs :=
  { l with ue := l.ue.map (fun e => if e.addr == addr then { e with cleared := true } else e) }

/-- Log, count and report a correctable error at a unit (R331). -/
def State.reportCe (s : State) (base syn finder : Nat) : State :=
  let (node, key, _) := keeper base
  let s := s.count node (memCtr base 0) 1
  let (l, lost) := (s.errLogs key).addCe base syn finder s.time.now false
  (s.modLogs key (fun _ => l)).count node (memCtr base 6) (b2n lost)

/-- Argument of POISON_FOUND for an address (Table 15.5). -/
def poisonFoundArg (addr : Nat) : Nat :=
  if addr < stackBase then bits addr 38 4 else 2 ^ 39 + bits (addr - stackBase) 38 4

/-- Log, count and report a newly poisoned unit (R332, R348): log entry, counter, signal log, event. -/
def State.reportUe (s : State) (base syn finder : Nat) : State :=
  let (node, key, _) := keeper base
  let (l, lost) := (s.errLogs key).addUe base syn finder s.time.now false
  let s := (s.modLogs key (fun _ => l)).count node (memCtr base 7) (b2n lost)
  let s := s.count node (memCtr base 1) 1
  let s := s.sig node 0x05 (bits base 47 4)
  s.event 0x0301 (poisonFoundArg base) false

/-- Correct one part of a unit in place (R331). -/
def State.correctPart (s : State) (base : Nat) (p : CheckPart) (pos finder : Nat) : State :=
  let s :=
    if pos = 0 || pos = 2 ^ pos.log2 then s
    else
      let j := posData pos
      let a := base + p.off + j / 8
      s.rawStore a [s.byte a ^^^ BitVec.ofNat 8 (2 ^ (j % 8))]
  let m := mget 0 s.mem.marks base
  (s.setMark base (m - p.mark * 2 ^ p.shift)).reportCe base (p.mark % 2 ^ p.r) finder

/-- What a check of a unit found. -/
inductive Found where
  | clean | corrected | newPoison | oldPoison
deriving DecidableEq, Repr

/-- Check one unit: correct it, or poison it and report it (R331, R332). With `fix` false a correctable unit
is reported and left in place (Table 10.5, CORRECT). -/
def State.checkUnit (s : State) (base finder : Nat) (fix : Bool) : Found × State :=
  let ps := s.parts base
  let cs := ps.map (fun p => (p, classify p.k p.r p.mark))
  if mget 0 s.mem.marks base = 0 then (.clean, s)
  else
    match cs.find? (fun pc => pc.2 == .uncorrectable) with
    | some pc =>
      let s := s.setMark base (s.poisonMark base)
      (.newPoison, s.reportUe base (pc.1.mark % 2 ^ pc.1.r) finder)
    | none =>
      if cs.any (fun pc => pc.2 == .poisoned) then (.oldPoison, s)
      else
        (.corrected, cs.foldl (fun s pc =>
          match pc.2 with
          | .correctable pos =>
            if fix then s.correctPart base pc.1 pos finder
            else s.reportCe base (pc.1.mark % 2 ^ pc.1.r) finder
          | .clean | .poisoned | .uncorrectable => s) s)

/-- Read one unit for a descriptor, a message or the host: whether it is poisoned, and the state after any
correction (R331, R332, R335). -/
def State.readUnit (s : State) (base finder : Nat) : Bool × State :=
  match s.checkUnit base finder true with
  | (.clean, s) | (.corrected, s) => (false, s)
  | (.newPoison, s) | (.oldPoison, s) =>
    let (node, key, _) := keeper base
    (true, (s.modLogs key (fun l => l.readPoison base)).count node (memCtr base 2) 1)

/-- Read n bytes of tier or stack memory: the bytes, whether each touched unit was poisoned (by unit), and
the state after corrections. -/
def State.memRead (s : State) (a n : Nat) : List Byte × List Bool × State :=
  let (ps, s) := (unitsOf a n).foldl (fun (acc : List Bool × State) u =>
    let (p, s) := acc.2.readUnit u.1 0
    (acc.1 ++ [p], s)) ([], s)
  (s.rawBytes a n, ps, s)

/-- Whether any of a read's units was poisoned. -/
def anyP (ps : List Bool) : Bool := ps.any id

/-- The armed flip mask of a die block for the unit at a base address, if any: data mask and check mask. -/
def State.flipFor (s : State) (d base : Nat) : Option (Nat × Nat) :=
  let ctl := s.regs.eff (regFlipCtl d) 0
  let addr := s.regs.eff (regFlipAddrHi d) 0 % 65536 * 2 ^ 32 + s.regs.eff (regFlipAddrLo d) 0
  if bit ctl 16 && addr == base then
    some (s.regs.eff (regFlipData d 0) 0 + s.regs.eff (regFlipData d 1) 0 * 2 ^ 32
      + s.regs.eff (regFlipData d 2) 0 * 2 ^ 64 + s.regs.eff (regFlipData d 3) 0 * 2 ^ 96, ctl % 512)
  else none

/-- A mask fires: ARM clears and FIRED sets (R353, R818). DESIGN CHOICE (log 49). -/
def State.fire (s : State) (reg arm : Nat) : State :=
  { s with regs := s.regs.device reg 0 (fun v =>
      (if bit v arm then v - 2 ^ arm else v) - bits v 31 31 * 2 ^ 31 + 2 ^ 31) }

/-- Exclusive-or a unit's stored data with a mask of its bits. -/
def State.xorData (s : State) (base n mask : Nat) : State :=
  if mask = 0 then s
  else s.rawStore base (natLe n (leNat (s.rawBytes base n) ^^^ mask))

/-- Apply the flip masks and the injection that wait for a write to this unit (R353, R393). The unit has just
been stored with mark m. -/
def State.applyFlips (s : State) (base : Nat) : State :=
  if base < tierEnd then
    [0, 1].foldl (fun s d =>
      match s.flipFor d base with
      | some (data, chk) =>
        let s := (s.fire (regFlipCtl d) 16).xorData base 16 data
        s.setMark base (mget 0 s.mem.marks base ^^^ s.flipMark base data ^^^ chk)
      | none => s) s
  else
    (List.range 8).foldl (fun s k =>
      let ctl := s.regs.eff (regInjCtl k) 0
      let addr := s.regs.eff (regInjAddrHi k) 0 % 65536 * 2 ^ 32 + s.regs.eff (regInjAddrLo k) 0
      if bit ctl 17 && addr == base then
        let flip := 2 ^ (ctl % 256) ^^^ (if bit ctl 16 then 2 ^ (ctl / 256 % 256) else 0)
        let s := (s.fire (regInjCtl k) 17).xorData base 32 flip
        s.setMark base (mget 0 s.mem.marks base ^^^ s.flipMark base flip)
      else s) s

/-! ### The live state and its seal (R650, R653, R654) -/

/-- Address of the state list, its entries, the image list and the seal, as committed (Table 18.9). -/
def State.listBase (s : State) : Nat :=
  bits (s.regs.eff regListLo 0) 31 4 * 16 + bits (s.regs.eff regListHi 0) 15 0 * 2 ^ 32
/-- Entries of the state list. -/
def State.listCount (s : State) : Nat := bits (s.regs.eff regListHi 0) 27 16 + 1
/-- Address of the image list. -/
def State.imageBase (s : State) : Nat :=
  bits (s.regs.eff regImageLo 0) 31 3 * 8 + bits (s.regs.eff regImageHi 0) 15 0 * 2 ^ 32
/-- Address of the seal. -/
def State.sealBase (s : State) : Nat :=
  bits (s.regs.eff regSealLo 0) 31 5 * 32 + bits (s.regs.eff regSealHi 0) 15 0 * 2 ^ 32

/-- The state ranges: base, length, and the image of each that has one (R650, Table 18.1). -/
def State.stateRanges (s : State) : List (Nat × Nat × Option Nat) :=
  (List.range s.listCount).map (fun i =>
    let e := s.rawBytes (s.listBase + 16 * i) 16
    let g := s.rawBytes (s.imageBase + 8 * i) 8
    (field e 0 6, field e 8 8, if bit (field g 6 1) 0 then none else some (field g 0 6)))

/-- Two ranges overlap. -/
def overlap (a n b m : Nat) : Bool := a < b + m && b < a + n

/-- A range touches a state range. -/
def State.touchesState (s : State) (a n : Nat) : Bool :=
  s.stateRanges.any (fun r => overlap a n r.1 r.2.1)

/-- The seal record as the resilience state stands (Table 18.2). -/
def State.sealBytes (s : State) : List Byte :=
  natLe 8 (if s.res.liveValid then s.res.cut else 2 ^ 64 - 1)
    ++ natLe 8 (if s.res.imageValid then s.res.img else 2 ^ 64 - 1) ++ natLe 8 s.res.shape ++ natLe 8 0

/-- Whether the unit at a base address is poisoned, where a sector is of an Open unit or not. -/
def State.poisonedAs (s : State) (opened : Bool) (base : Nat) : Bool :=
  (s.partsAs opened base).any (fun p => classify p.k p.r p.mark == .poisoned)

/-- A whole write has cleared a unit's poison (R338, R348): its log entry shows it, and it is counted. -/
def State.poisonCleared (s : State) (base : Nat) : State :=
  let (node, key, _) := keeper base
  (s.modLogs key (fun l => l.clearPoison base)).count node (memCtr base 4) 1

/-- Store one whole unit with a fresh code, poisoned or not (R333, R336, R338): poison that it clears is logged and counted, and a
flip that waits for the unit fires (R353, R393). -/
def State.putUnit (s : State) (base : Nat) (bs : List Byte) (poison : Bool) : State :=
  let was := s.poisonedAs (s.isOpen base) base
  let s := s.rawStore base bs
  let s := s.setMark base (if poison then s.poisonMark base else 0)
  let s :=
    if poison then s.count (keeper base).1 (memCtr base 3) 1
    else if was then s.poisonCleared base
    else s
  s.applyFlips base

/-- Write the seal: two whole granules (R653). Nothing is written while no address is set. -/
def State.writeSeal (s : State) : State :=
  if s.sealBase = 0 || !inTier s.sealBase 32 then s
  else (s.putUnit s.sealBase (slice s.sealBytes 0 16) false).putUnit (s.sealBase + 16) (slice s.sealBytes 16 16) false

/-- What a read leaves, whoever takes its bytes. -/
def State.afterRead (s : State) (a n : Nat) : State := (s.memRead a n).2.2

/-- The device reads the state list and the image list with their codes checked (R331, R332), before it goes by them. -/
def State.readLists (s : State) : State :=
  let s := s.afterRead s.listBase (16 * s.listCount)
  s.afterRead s.imageBase (8 * s.listCount)

/-- The seal where a write has touched a state range of a valid live state. -/
def State.unseal (s : State) (a n : Nat) : State :=
  if s.touchesState a n then ({ s with res := { s.res with liveValid := false } } : State).writeSeal else s

/-- The first write to a state range after a step's end state was established makes LIVE_STEP invalid before it
proceeds (R654). -/
def State.touch (s : State) (a n : Nat) : State := if s.res.liveValid then s.readLists.unseal a n else s

/-! ### The write buffers of the base dies (R398, R424 to R426, R794, R795) -/

/-- Forget what may still wait in a write buffer where a test of the sector says so: those writes have reached the stack. -/
def State.drained (s : State) (f : Nat → Bool) : State :=
  { s with mem := { s.mem with buffered := s.mem.buffered.filter (fun e => !f e.addr) } }

/-- Nothing waits in a write buffer. -/
def State.allDrained (s : State) : State := { s with mem := { s.mem with buffered := [] } }

/-- A write through the pins reaches a sector after every buffered write to it (R375). DEDUCED (log 56). -/
def State.drainSector (s : State) (base : Nat) : State :=
  if inStack base 32 then s.drained (· == base) else s

/-- Put back what a sector held. -/
def State.putSector (s : State) (e : OldSector) : State := (s.rawStore e.addr e.bytes).setMark e.addr e.mark

/-- What the sectors of a range hold before a descriptor writes them. -/
def State.sectorsOf (s : State) (owner a n : Nat) : List OldSector :=
  (unitsOf a n).map (fun u => ⟨u.1, s.rawBytes u.1 32, mget 0 s.mem.marks u.1, owner⟩)

/-- Sectors that one base die's write buffer holds (Table 22.7). -/
def bufferRoom : Nat := 8192

/-- The write buffers after an engine has written sectors that held `olds`, when they held `kept` before: of one descriptor a sector
has one version, as it was before the descriptor wrote it (R426), and the oldest writes of the stack have left a buffer that is full.
DEDUCED (log 56). -/
def State.buffer (s : State) (k : Nat) (kept olds : List OldSector) : State :=
  let new := olds.filter (fun o => !kept.any (fun e => e.addr == o.addr && e.owner == o.owner))
  let mine := kept.filter (fun e => stackOf e.addr == k) ++ new
  { s with mem := { s.mem with
      buffered := kept.filter (fun e => stackOf e.addr != k) ++ mine.drop (mine.length - bufferRoom) } }

/-- What the pins may find in the sectors of a range (R426): of each sector whose engine writes may still be buffered,
which of its versions is an open value. DEDUCED (log 56). The state shows the pins' view, and the list says what to put back. -/
def State.pinView (s : State) (a n : Nat) : List OldSector × State :=
  (unitsOf a n).foldl (fun (acc : List OldSector × State) u =>
    let olds := acc.2.mem.buffered.filter (fun e => e.addr == u.1)
    if !inStack u.1 32 || olds.isEmpty then acc
    else
      let (v, s) := acc.2.free
      match olds[v % (olds.length + 1)]? with
      | none => (acc.1, s)
      | some e => (acc.1 ++ [⟨u.1, s.rawBytes u.1 32, mget 0 s.mem.marks u.1, 0⟩], s.putSector e)) ([], s)

/-- A reset discards what the write buffers hold: how many of a stack's last writes had not reached it is an open value
(R795). The count of sectors discarded. DEDUCED (log 56). -/
def State.discardBuffers (s : State) : Nat × State :=
  let (n, s) := (List.range 8).foldl (fun (acc : Nat × State) k =>
    let mine := acc.2.mem.buffered.filter (fun e => stackOf e.addr == k)
    if mine.isEmpty then acc
    else
      let (v, s) := acc.2.free
      let n := v % (mine.length + 1)
      (acc.1 + n, (mine.drop (mine.length - n)).reverse.foldl State.putSector s)) (0, s)
  (n, s.allDrained)

/-- Every buffered store reaches its stack, but those of a FAILED stack, which are discarded and counted (R794, R797). -/
def State.flushBuffers (s : State) : State :=
  let n := (s.mem.buffered.filter (fun e => (s.stack (stackOf e.addr)).mode == .failed)).length
  let s := s.allDrained
  if n = 0 then s
  else { s with rst := { s.rst with disc := s.rst.disc.set 2 ((s.rst.disc[2]?).getD 0 + n) } }

/-! ### Writing -/

/-- Write part or all of one unit (R333, R336). A whole write stores a fresh code and clears poison; a partial
one merges, and keeps poison. The Boolean says that a partial write met a poisoned unit. DESIGN CHOICE (log 49). -/
def State.writeUnit (s : State) (base off : Nat) (bs : List Byte) (poison : Bool) : Bool × State :=
  let s := (s.touch (base + off) bs.length).drainSector base
  if off = 0 && bs.length = unitSize base then (false, s.putUnit base bs poison)
  else
    let (f, s) := s.checkUnit base 1 true
    let bad := f = .newPoison || f = .oldPoison
    let s := s.rawStore (base + off) bs
    let s :=
      if bad || poison then (s.setMark base (s.poisonMark base)).count (keeper base).1 (memCtr base 3) 1
      else s.setMark base 0
    (bad, s.applyFlips base)

/-- Write bytes of tier or stack memory, poisoned or not. The Boolean says that a partial write met a poisoned
unit, so that the writer completes with POISON (R333). -/
def State.memWrite (s : State) (a : Nat) (bs : List Byte) (poison : Bool) : Bool × State :=
  (unitsOf a bs.length).foldl (fun (acc : Bool × State) u =>
    let (bad, s) := acc.2.writeUnit u.1 u.2.1 (slice bs (u.1 + u.2.1 - a) u.2.2) poison
    (acc.1 || bad, s)) (false, s)

/-- Addresses of the units for whose next write a flip mask or an injection is armed. -/
def State.armedUnits (s : State) : List Nat :=
  ((List.range 2).map (fun d => s.regs.eff (regFlipAddrHi d) 0 % 65536 * 2 ^ 32 + s.regs.eff (regFlipAddrLo d) 0)
    ++ (List.range 8).map (fun k => s.regs.eff (regInjAddrHi k) 0 % 65536 * 2 ^ 32 + s.regs.eff (regInjAddrLo k) 0)).eraseDups

/-- Write every unit of a range as zero with a fresh code, as a base die does when it converts or clears memory (R358, R373, R386):
whole writes, which clear poison (R338, R348) and fire what waits for them (R353, R393). `opened` tells whether a poisoned
sector was written in an Open unit. -/
def State.zeroAs (s : State) (opened : Nat → Bool) (a n : Nat) : State :=
  let s := (s.touch a n).drained (fun e => overlap a n e 32)
  let bad := (s.mem.marks.map (·.1)).filter (fun b => a ≤ b && b < a + n && s.poisonedAs (opened b) b)
  let s : State := { s with mem := { s.mem with cells := mclear a n s.mem.cells, marks := mclear a n s.mem.marks } }
  let s := bad.foldl State.poisonCleared s
  (s.armedUnits.filter (fun b => a ≤ b && b < a + n)).foldl State.applyFlips s

/-- Write every unit of a range as zero, its kind being what it was. -/
def State.zeroRange (s : State) (a n : Nat) : State := s.zeroAs s.isOpen a n

end Sys2Proof.Machine
end

