-- ==== Sys2Proof/Machine/Slots.lean ====
section
/-! DEFINITION. Descriptors in their holding slots: header and field reading, completion, status ranks, the
children of a group (chapters 02, 15 and 16). -/

namespace Sys2Proof.Machine

/-! ### Statuses -/

/-- Status code (Table 16.25). -/
def Status.code : Status → Nat
  | .ok => 0 | .inexact => 1 | .poison => 2 | .sealed => 3 | .timeout => 4 | .fenced => 5 | .aborted => 6
  | .widened => 7

/-- Rank of a status, higher outranks lower (R40). -/
def Status.rank : Status → Nat
  | .ok => 0 | .inexact => 1 | .widened => 2 | .sealed => 3 | .poison => 4 | .timeout => 5 | .fenced => 6
  | .aborted => 7

/-- The higher-ranked of two statuses (R40). -/
def Status.join (a b : Status) : Status := if a.rank < b.rank then b else a

/-! ### Header fields (Tables 16.1 and 16.2) -/

/-- OPCODE of a descriptor. -/
def opcodeOf (d : List Byte) : Nat := field d 0 1
/-- FLAGS of a descriptor. -/
def flagsOf (d : List Byte) : Nat := field d 1 1
/-- TAG of a descriptor. -/
def tagOf (d : List Byte) : Nat := field d 2 2
/-- TARGET of a descriptor. -/
def targetOf (d : List Byte) : Nat := field d 4 2
/-- WAIT of a descriptor. -/
def waitOf (d : List Byte) : Nat := field d 6 2
/-- A 48-bit address field. -/
def addr48 (d : List Byte) (off : Nat) : Nat := field d off 6

/-! ### Work at nodes -/

/-- Whether a node can take work now: not Fenced, Failed, Retired or Spare (R43, R44). -/
def UnitState.usable (u : UnitState) : Bool :=
  match u.state with
  | .fenced | .failed | .retired | .spare => false
  | .idle | .busy | .frozen | .halted => true

/-- Units that a controller deals no piece to now: Fenced, Failed and Retired ones (R43, R44, R48), and a cell that lost a residue
replay, until the next step boundary (R234). -/
def State.barredNow (s : State) : List Nat :=
  (s.tree.units.filter (fun kv => kv.2.state != .spare && (!kv.2.usable || kv.2.suspended))).map (·.1)

/-- Whether a child can be sent work, given the units that are barred. -/
def State.sendable (s : State) (barred : List Nat) (id : Nat) : Bool := !barred.contains (s.unitOf id)

/-- Depth bound of the tree: package, die, quadrant, cluster, cell group, cell. -/
def treeFuel : Nat := 7

/-- Every node from a leaf up to, but not counting, a node above it can be sent work (R43, R44, R234). `fuel` bounds the depth of
the tree. -/
def State.reaches (s : State) (barred : List Nat) (id : Nat) : Nat → Nat → Bool
  | 0, _ => false
  | fuel + 1, leaf =>
    leaf = id || (s.sendable barred leaf && (match Sys2Proof.Machine.placeOf leaf with
      | some p => s.reaches barred id fuel p.parent
      | none => false))

/-- Leaves of a kind that may run pieces of work aimed at a node, in ascending order; a leaf runs its own work (R43, R44), and a
node below which none is left keeps the work itself. -/
def State.workers (s : State) (barred : List Nat) (kind : NodeKind) (id : Nat) : List Nat :=
  match s.placeOf id with
  | none => [id]
  | some p =>
    if p.kind == kind then [id]
    else
      match (rangeFrom id p.span).filter (fun i => match s.placeOf i with
          | some q => q.kind == kind && s.reaches barred id treeFuel i
          | none => false) with
      | [] => [id]
      | leaves => leaves

/-- Kind of leaf that an opcode's work runs on; `group` where a controller does it (Table 2.2). -/
def workKind : Nat → NodeKind
  | 0x01 | 0x02 | 0x03 => .cell
  | 0x04 | 0x05 | 0x06 | 0x10 | 0x11 | 0x60 | 0x61 => .vectorEngine
  | 0x20 | 0x21 => .mover
  | 0x40 | 0x41 => .updateEngine
  | _ => .group

/-- The address whose stack is that of an UPDATE or NEARVEC (R399). -/
def ueAddr (d : List Byte) : Nat := if opcodeOf d = 0x41 && field d 26 1 % 16 = 3 then field d 20 6 else field d 8 6

/-- The node whose engines run an UPDATE or NEARVEC: the target, or the node of its stack that a root or die passes it to (R399, R400). -/
def ueNode (d : List Byte) : Nat :=
  match placeOf (targetOf d) with
  | some (.stack _) | some (.updateEngine _ _) => targetOf d
  | _ =>
    stackNode ((ueAddr d - stackBase) / stackSize)

/-- A running descriptor has work at a node: the node is its target or a group above it, or lies on the way to a leaf that runs
pieces of it. -/
def Slot.worksAt (sl : Slot) (id : Nat) : Bool :=
  inSubtree id (targetOf sl.desc) || (inSubtree (targetOf sl.desc) id && sl.leaves.any (inSubtree id))

/-- Running descriptors that have work at a node, with their slots. -/
def State.workAt (s : State) (id : Nat) : List (Nat × Slot) :=
  s.host.slots.filterMap (fun kv => match kv.2 with
    | some sl => if sl.phase == .running && sl.worksAt id then some (kv.1, sl) else none
    | none => none)

/-- Leaves of the work in a slot that wait on a handshake (R50, R51). -/
def State.frozenLeaves (s : State) (k : Nat) : List Nat := mget [] s.tree.frozen k

/-- Everything that the work in a slot has at or below a node waits on handshakes. -/
def State.isFrozen (s : State) (id k : Nat) (sl : Slot) : Bool :=
  let f := s.frozenLeaves k
  f != [] && sl.leaves.all (fun l => !inSubtree id l || f.contains l)

/-- STATE of a node as software reads it (Table 2.6): one that is idle, busy, frozen or halted shows the work that it or its children
have (R694), Frozen where all of it waits on handshakes. DEDUCED (log 52). -/
def State.shownState (s : State) (id : Nat) : NodeState :=
  let st := (s.unit (s.unitOf id)).state
  match st with
  | .fenced | .retired | .failed | .spare => st
  | .idle | .busy | .frozen | .halted =>
    match s.workAt id with
    | [] => if st == .halted then .halted else .idle
    | ws => if ws.all (fun w => s.isFrozen id w.1 w.2) then .frozen else .busy

/-- Identifiers from a node up to the root. `fuel` bounds the depth of the tree. -/
def upFrom : Nat → Nat → List Nat
  | 0, _ => []
  | fuel + 1, id =>
    match placeOf id with
    | none => []
    | some p => id :: upFrom fuel p.parent

/-- The STATE entries after a change of the work aimed at a node: one for each node above and below it whose state has changed
(Table 19.4). -/
def State.tellStates (was s : State) (id : Nat) : State :=
  (upFrom 7 id ++ (subtree id).tail).foldl (fun s i =>
    let old := was.shownState i
    let new := s.shownState i
    if old == new then s else s.sig (s.unitOf i) 0x01 (old.code + 16 * new.code)) s

/-! ### Completion -/

/-- The completion record of a descriptor, without PHASE (R568, R619). -/
def completionRecord (d : List Byte) (st : Status) (node value stamp : Nat) : List Byte :=
  natLe 2 (tagOf d) ++ natLe 1 st.code ++ natLe 1 (4 * b2n (bit (flagsOf d) 0))
    ++ natLe 4 (node % 65536 * 65536 + sat 16 value) ++ natLe 8 stamp

/-- Whether any other slot still runs a descriptor for an identifier. -/
def State.runsElsewhere (s : State) (id k : Nat) : Bool :=
  s.host.slots.any (fun kv => kv.1 != k && (match kv.2 with
    | some sl => sl.phase == .running && targetOf sl.desc == id
    | none => false))

/-- A node is held while a halt's scope holds it (R692). -/
def State.heldNode (s : State) (id : Nat) : Bool := s.cores.halts.any (fun h => inSubtree h.node id)

/-- A fence of the census, on a domain that holds a node, stands (R773). -/
def State.censusHolds (s : State) (id : Nat) : Bool := s.mgmt.domains.any (fun kv => kv.2.origin == 1 && inSubtree kv.1 id)

/-- A node is held by a halt that has been reported: it reads Halted where it has nothing to run (R693, R694). -/
def State.haltedNode (s : State) (id : Nat) : Bool := s.cores.halts.any (fun h => h.reported && inSubtree h.node id)

/-- Timeouts of this package do not advance while TIMER_PAUSE is 1 and a node is held (R697). -/
def State.timersPaused (s : State) : Bool :=
  bit (s.regs.eff regObsCfg 0) 0 && s.cores.halts.any (fun h => (Sys2Proof.Machine.placeOf h.node).isSome)

/-- Every node has been stopped: FATAL past its drain, a thermal trip or a power loss (R710, R799, R801). -/
def State.nodesStopped (s : State) : Bool := s.cores.stopped || s.rst.stoppedAll || s.rst.state == 4

/-- A node whose last work ended returns to Idle, or to Halted where a halt holds it, unless it is halted, fenced, retired, failed or spare;
`State.tellStates` writes the entry of it. -/
def State.settle (s : State) (id k : Nat) : State :=
  let u := s.unitOf id
  match (s.unit u).state with
  | .busy | .frozen =>
    if s.runsElsewhere id k then s else s.modUnit u (fun x => { x with state := if s.haltedNode id then .halted else .idle })
  | .idle | .halted | .fenced | .retired | .failed | .spare => s

/-- VALUE is 0 for FENCED and ABORTED (R619). -/
def detailValue (st : Status) (value : Nat) : Nat :=
  match st with
  | .fenced | .aborted => 0
  | .ok | .inexact | .poison | .sealed | .timeout | .widened => value

/-- Held descriptors of Timetable mode (R636): by opcode; a MOVE or SNAPSHOT where every byte of its endpoints is LOCAL in tier memory or
the accumulator window, a SNAPSHOT's ranges among them. DEDUCED (log 47). -/
def State.heldClass (s : State) (d : List Byte) : Bool :=
  let localAddr (a kind len : Nat) : Bool :=
    (kind % 4 = 0 || (kind % 4 = 1 && bits a 62 48 = s.chipId)) && decide (a % 2 ^ 48 + max 1 len ≤ accEnd)
  let list := addr48 d 17 / 16 * 16
  let span (stride : Nat) : Nat := field d 32 4 % 2 ^ 20 * stride + field d 28 4
  let ranges := (List.range (field d 24 4 % 65536 + 1)).map (fun i =>
    let e := s.rawBytes (list + 16 * i) 16
    (field e 0 6, field e 8 8))
  match opcodeOf d with
  | 0x01 | 0x02 | 0x03 | 0x04 | 0x05 | 0x06 | 0x10 | 0x11 | 0x60 | 0x61 | 0x7F => true
  | 0x50 => field d 8 1 % 4 = 0
  | 0x20 => localAddr (field d 8 8) (field d 24 1) (span (field d 36 4)) &&
      localAddr (field d 16 8) (field d 24 1 / 4) (span (field d 40 4))
  | 0x71 => localAddr (field d 8 8) (field d 16 1) ((ranges.map (·.2)).foldl (· + ·) 0) &&
      ranges.all (fun r => decide (r.1 + max 1 r.2 ≤ accEnd))
  | _ => false

/-- What the successors of a descriptor are planned from (R637, R639). -/
def State.notePlanned (s : State) (sl : Slot) (due : Nat) : State :=
  { s with tf := { s.tf with planned := s.tf.planned ++ [(sl.ring, sl.seq, due)] } }

/-- In Timetable mode a completion waits to be reported to its successors: a held one until its planned
completion, a grid one until the next grid line (R637, R638). A held one that is late counts an overrun (R639). -/
def State.plan (s : State) (k : Nat) (sl : Slot) : State :=
  if !s.tf.timetable then s
  else
    match sl.plan with
    | some (_, due) =>
      if s.time.now ≤ due then
        let s := (s.notePlanned sl due).count 0 (ctrId 17 9 3) (due - s.time.now)
        { s with tf := { s.tf with unreported := s.tf.unreported ++ [(k, sl.ring, sl.seq, due, true)] } }
      else
        let s := (s.notePlanned sl s.time.now).count 0 (ctrId 17 9 1) 1
        let node := targetOf sl.desc
        let s := s.sig (s.unitOf node) 0x07 (tagOf sl.desc + sat 32 (s.time.now - due) * 65536)
        let s := if s.tf.overrun then s else s.event 0x0804 node false
        { s with tf := { s.tf with overrun := true, nodePlan := mput 0 s.tf.nodePlan node s.time.now } }
    | none =>
      if s.heldClass sl.desc then s
      else
        let q := 16 * max 1 (s.regs.eff regTfCtl 0 % 4096)
        let s := s.count 0 (ctrId 17 9 2) (b2n (q - s.time.now % q ≤ 8 && s.time.now % q ≠ 0))
        let due := (s.time.now + q - 1) / q * q
        let s := s.notePlanned sl due
        { s with tf := { s.tf with unreported := s.tf.unreported ++ [(k, sl.ring, sl.seq, due, false)] } }

/-- A status that spoils the step for R665. -/
def Status.spoils : Status → Bool
  | .timeout | .fenced | .aborted => true
  | .ok | .inexact | .poison | .sealed | .widened => false

/-- A descriptor completes: its record enters its slot at once (R567), the node's LAST_STATUS and signal log
take it, and the node settles. The entries of one node stand in the order of their kinds (R701). -/
def State.complete (s : State) (k : Nat) (st : Status) (node value : Nat) : State :=
  match s.slot k with
  | none => s
  | some sl =>
    let was := s
    let value := detailValue st value
    let sl' := { sl with
      phase := .done, record := completionRecord sl.desc st node value s.stamp,
      order := s.host.completions, quiet := st == .ok && bit (flagsOf sl.desc) 1 }
    let s := s.putSlot k (some sl')
    let s := { s with tree := { s.tree with frozen := mput [] s.tree.frozen k [] } }
    let s := { s with host := { s.host with completions := s.host.completions + 1 },
                      res := { s.res with spoiled := s.res.spoiled || st.spoils } }
    let id := targetOf sl.desc
    let ends := if (s.placeOf id).isSome then was.tellStates (s.settle id k) id else s
    let s := if node = 0xFFFF && st == .aborted then ends else ends.plan k sl
    match s.placeOf id with
    | none => s
    | some _ =>
      let u := s.unitOf id
      let s := s.modUnit u (fun x => { x with lastStatus := st.code })
      let s := if st == .ok then s
               else s.sig u 0x08 (tagOf sl.desc + st.code * 65536 + sat 16 value * 2 ^ 24)
      s.sig u 0x0D (tagOf sl.desc + st.code * 65536)

/-- A descriptor that never reached a node completes with NODE 0xFFFF (R619). -/
def State.reject (s : State) (k : Nat) (st : Status) : State := s.complete k st 0xFFFF 0

/-- The slot of the descriptor with a position in a ring, if it is held. -/
def State.findSeq (s : State) (ring seq : Nat) : Option (Nat × Slot) :=
  s.host.slots.findSome? (fun kv => match kv.2 with
    | some sl => if sl.ring == ring && sl.seq == seq then some (kv.1, sl) else none
    | none => none)

/-! ### Groups -/

/-- Identifiers of the child nodes of a place, in physical order (Table 2.3). -/
def childIds (id : Nat) (p : Place) : List Nat :=
  match p with
  | .root => [dieNode 0, dieNode 1]
  | .die d => (List.range 4).map (quadrantNode d) ++ (List.range 4).map (fun t => stackNode (4 * d + t))
  | .quadrant d q => (List.range 16).map (clusterNode d q)
  | .cluster _ _ _ => [id + 1, id + 2, id + 3, id + 4, id + 4 + spanGroup]
  | .cellGroup _ => rangeFrom (id + 1) 16
  | .stack _ => rangeFrom (id + 1) 64
  | .vectorEngine _ _ _ | .mover _ _ _ _ | .cell _ _ | .updateEngine _ _ => []

/-- Whether an identifier's subtree has a leaf of a class that can take a piece (R43, R44): every node on the way must be able to,
given the units that are barred. `fuel` bounds the depth of the tree. -/
def State.canTake (s : State) (barred : List Nat) : Nat → Nat → Nat → Bool
  | 0, _, _ => false
  | fuel + 1, cls, id =>
    match s.placeOf id with
    | none => false
    | some p =>
      bit p.classes cls && s.sendable barred id &&
        (match p with
         | .vectorEngine _ _ _ | .mover _ _ _ _ | .cell _ _ | .updateEngine _ _ => true
         | .root | .die _ | .quadrant _ _ | .cluster _ _ _ | .cellGroup _ | .stack _ =>
           cls == 6 || cls == 11 || cls == 7 || cls == 9 || cls == 10 || cls == 4
             || (childIds id p).any (fun c => s.canTake barred fuel cls c))

/-- Children of a group that can take work of a class. -/
def State.takers (s : State) (barred : List Nat) (cls id : Nat) : List Nat :=
  match s.placeOf id with
  | none => []
  | some p => (childIds id p).filter (fun c => s.canTake barred treeFuel cls c)

/-- The child of a group whose subtree holds a node; the node itself where it stands below no child. -/
def State.childOf (s : State) (id leaf : Nat) : Nat :=
  match s.placeOf id with
  | none => leaf
  | some p => ((childIds id p).find? (fun c => inSubtree c leaf)).getD leaf

/-- NODE of a completion all of whose pieces report one status (R40, R619): the leaf itself; for a group, the lowest child
that takes a piece, and the group itself where no child does and its own controller does the work. DEDUCED (log 13). -/
def State.reporter (s : State) (barred : List Nat) (cls id : Nat) : Nat :=
  match s.placeOf id with
  | none => 0xFFFF
  | some p =>
    match p with
    | .vectorEngine _ _ _ | .mover _ _ _ _ | .cell _ _ | .updateEngine _ _ => id
    | .root | .die _ | .quadrant _ _ | .cluster _ _ _ | .cellGroup _ | .stack _ => (s.takers barred cls id).headD id

/-- NODE of a descriptor that ends FENCED before it starts: the leaf itself; for a group, its lowest child of the class, which would
report FENCED (R40, R44, R619). DEDUCED (log 13). -/
def State.firstChild (s : State) (cls id : Nat) : Nat :=
  match s.placeOf id with
  | none => id
  | some p => ((childIds id p).find? (fun c => match s.placeOf c with
      | some q => bit q.classes cls
      | none => false)).getD id

/-- Leaves that have run pieces of a descriptor, with the highest-ranked status of each (R40). -/
abbrev Report := List (Nat × Status)

/-- Add a piece to a report: its status and the leaf that ran it. -/
def Report.add (r : Report) (st : Status) (leaf : Nat) : Report :=
  match r.find? (fun p => p.1 == leaf) with
  | none => (leaf, st) :: r
  | some p => if p.2.rank < st.rank then (leaf, st) :: r.filter (fun p => p.1 != leaf) else r

/-- The highest-ranked status among the pieces at or below a node (R40). -/
def Report.under (r : Report) (id : Nat) : Status :=
  (r.filter (fun p => p.1 = id || inSubtree id p.1)).foldl (fun st p => st.join p.2) .ok

/-- Nodes from a leaf up to, but not counting, a node above it. `fuel` bounds the depth of the tree. -/
def pathBelow (top : Nat) : Nat → Nat → List Nat
  | 0, _ => []
  | fuel + 1, id =>
    if id = top then []
    else
      match placeOf id with
      | some p => id :: pathBelow top fuel p.parent
      | none => []

/-- The children of a group, down to the leaves, complete their pieces: each takes the status of its own as LAST_STATUS (R38, R40, Table
2.15). -/
def State.childrenEnd (s : State) (top : Nat) (r : Report) : State :=
  ((r.flatMap (fun p => pathBelow top treeFuel p.1)).eraseDups).foldl (fun s i =>
    s.modUnit (s.unitOf i) (fun x => { x with lastStatus := (r.under i).code })) s

/-- The lowest child of a group that reported the highest-ranked status, or the leaf itself (R40). -/
def State.reporting (s : State) (id : Nat) (r : Report) (st : Status) : Nat :=
  ((r.filter (fun p => p.2 == st)).map (fun p => s.childOf id p.1)).foldl min 0xFFFF

/-- A descriptor completes at its node with one status of all its pieces (R38, R40). -/
def State.finish (s : State) (k cls : Nat) (st : Status) (value : Nat) : State :=
  match s.slot k with
  | none => s
  | some sl => s.complete k st (s.reporter sl.barred cls (targetOf sl.desc)) value

/-- A piece has ended at a leaf with a status: a slot keeps it, the highest-ranked one, the lowest child of the target that reported
that, and that child's VALUE (R40). -/
def Slot.note (sl : Slot) (st : Status) (leaf node value : Nat) : Slot :=
  let sl := { sl with fails := Report.add sl.fails st leaf }
  match sl.report with
  | none => { sl with report := some (st, node, value) }
  | some (old, n, _) =>
    if old.rank < st.rank || (old = st && node < n) then { sl with report := some (st, node, value) } else sl

/-- The statuses of a slot's pieces by leaf: OK at each that has had no other (R40). -/
def Slot.pieces (sl : Slot) : Report := sl.leaves.foldl (fun r l => Report.add r .ok l) sl.fails

/-- A descriptor completes with the report of its pieces. -/
def State.finishReport (s : State) (k cls : Nat) (r : Report) (value : Status → Nat) : State :=
  match s.slot k with
  | none => s
  | some sl =>
    let id := targetOf sl.desc
    let st := r.foldl (fun st p => st.join p.2) .ok
    if r.isEmpty then s.finish k cls .ok (value .ok)
    else (s.childrenEnd id r).complete k st (s.reporting id r st) (value st)

/-! ### Dividing work over leaves -/

/-- The pieces that n equal parts of some work are cut into: the leaf that takes each, its first part and its number of parts. They
are contiguous runs of as near equal length as possible, in ascending order, the longer runs first. R401 fixes this for the update
engines; for the vector engines and movers the division is the model's. DESIGN CHOICE (log 13). -/
def piecesOf (leaves : List Nat) (n : Nat) : List (Nat × Nat × Nat) :=
  let m := max 1 leaves.length
  ((leaves.zip (List.range leaves.length)).map (fun l =>
    (l.1, l.2 * (n / m) + min l.2 (n % m), n / m + b2n (decide (l.2 < n % m))))).filter (fun p => p.2.2 ≠ 0)

/-- The leaf that takes part i of some pieces. -/
def leafAt (pieces : List (Nat × Nat × Nat)) (i : Nat) : Nat :=
  match pieces.find? (fun p => p.2.1 ≤ i && i < p.2.1 + p.2.2) with
  | some p => p.1
  | none => 0

/-! ### Dispatch order within a leaf -/

/-- Two nodes share a leaf. -/
def nodesMeet (a b : Nat) : Bool := inSubtree a b || inSubtree b a

/-- QMODE and QUARTER of a MATMUL, LOADW or DRAIN aimed at a cell (R594, Tables 16.7 to 16.9). -/
def descQuarter (d : List Byte) : Option Nat :=
  let leaf := match placeOf (targetOf d) with
    | some (.cell _ _) => true
    | _ => false
  if !leaf then none
  else if opcodeOf d = 0x03 then (if bit (field d 37 1) 7 then some (field d 38 1 % 4) else none)
  else if bit (field d 44 1) 4 then some (bits (field d 44 1) 6 5) else none

/-- Quarters of a cell that a mode uses. -/
def modeQuarters (q : Option Nat) : List Nat :=
  match q with
  | none => [0, 1, 2, 3]
  | some q => [q]

/-- Whether accumulator row r of a cell is one that a MATMUL, or an unchained DRAIN, uses (R122, R172, Table 4.6). -/
def usesRow (d : List Byte) (r : Nat) : Bool :=
  let q := descQuarter d
  let l := if q.isSome then 256 else 512
  let off := match q with | some q => 256 * (q / 2) | none => 0
  let base := field d (if opcodeOf d = 0x03 then 40 else 50) 2 % l
  let rows := field d (if opcodeOf d = 0x03 then 44 else 52) 4 % 2 ^ 20 + 1
  off ≤ r && r < off + l && (r - off + l - base) % l < rows

/-- Two pieces of work of a cell use a common accumulator word: a row and a half of the columns. -/
def wordsMeet (a b : List Byte) : Bool :=
  (modeQuarters (descQuarter a)).any (fun x => (modeQuarters (descQuarter b)).any (fun y => x % 2 == y % 2)) &&
    (List.range 512).any (fun r => usesRow a r && usesRow b r)

/-- A quarter LOADW that changes its bank's format or packing fills the other quarters too (R117). -/
def State.fillsAll (s : State) (d : List Byte) : Bool :=
  let c := s.cell (s.unitOf (targetOf d))
  let b := if bit (field d 44 1) 7 then c.bank1 else c.bank0
  (descQuarter d).isSome && !(b.fmt.code == field d 44 1 % 16 && b.packed == bit (field d 45 1) 0 && !bit (field d 32 1) 7)

/-- Whether a MATMUL reads a quarter of a bank that a LOADW fills (R130). -/
def State.loadMeets (s : State) (mat load : List Byte) : Bool :=
  field mat 46 2 ≠ 0 && bit (field mat 44 1) 7 == bit (field load 44 1) 7 &&
    (s.fillsAll load || (modeQuarters (descQuarter mat)).any (fun x => (modeQuarters (descQuarter load)).contains x))

/-- The descriptor whose fields name the accumulator rows that work in a slot uses: a chained DRAIN takes those of its MATMUL (R172). -/
def Slot.words (sl : Slot) : List Byte := if sl.chain = [] then sl.desc else sl.chain

/-- Whether an earlier-dispatched descriptor must have run before a later one on the leaves that they share: of a cell by the
rules of R127, R130 and R177, of a vector engine and an update engine always (R275, R398). A MATMUL does not stand before a chained
DRAIN, which drains the rows that its own MATMUL has written before they are written again (R125). -/
def State.ordered (s : State) (lsl esl : Slot) : Bool :=
  let later := lsl.desc
  let earlier := esl.desc
  let l := opcodeOf later
  let e := opcodeOf earlier
  match workKind l, workKind e with
  | .cell, .cell =>
    nodesMeet (targetOf later) (targetOf earlier) &&
      (match l, e with
       | 0x01, 0x01 => (modeQuarters (descQuarter later)).any (fun x => (modeQuarters (descQuarter earlier)).contains x)
       | 0x02, 0x02 | 0x03, 0x03 => true
       | 0x01, 0x02 => s.loadMeets later earlier
       | 0x02, 0x01 => s.loadMeets earlier later
       | 0x01, 0x03 => wordsMeet later esl.words || bit (field later 45 1) 1
       | 0x03, 0x01 => lsl.chain = [] && wordsMeet later earlier
       | _, _ => false)
  | .vectorEngine, .vectorEngine => nodesMeet (targetOf later) (targetOf earlier)
  | .updateEngine, .updateEngine => nodesMeet (ueNode later) (ueNode earlier)
  | _, _ => false

/-- The DRAIN of slot `o` stands right behind the MATMUL of `m` in its ring. -/
def Slot.isBehind (o m : Slot) : Bool := o.ring == m.ring && o.seq == m.seq + 1

/-- A MATMUL with DRAIN_CHAIN at 1. -/
def chainsOn (d : List Byte) : Bool := opcodeOf d = 0x01 && bit (field d 45 1) 1

/-- The descriptor in slot o was dispatched earlier than that in another and must run first. -/
def State.runsFirst (s : State) (o sl : Slot) : Bool :=
  o.phase == .running && o.dispatched < sl.dispatched && !(chainsOn sl.desc && o.isBehind sl) && s.ordered sl o

/-- A MATMUL would write rows that a chained DRAIN has still to read (R125, R130). -/
def drainKeeps (o sl : Slot) : Bool :=
  o.phase != .done && opcodeOf sl.desc = 0x01 && o.chain != [] && !(chainsOn sl.desc && o.isBehind sl) &&
    nodesMeet (targetOf sl.desc) (targetOf o.desc) && wordsMeet sl.desc o.chain

/-- A chained DRAIN does not wait for an earlier DRAIN that waits itself for a MATMUL that the chained one keeps waiting, since the chained
one drains each row as soon as it is written (R125). DESIGN CHOICE (log 17). -/
def State.heldBehind (s : State) (o sl : Slot) : Bool :=
  sl.chain != [] && s.host.slots.any (fun kv => match kv.2 with
    | some m => s.runsFirst m o && drainKeeps sl m
    | none => false)

/-- Whether the descriptor in slot o keeps that in another waiting (R125, R127, R130, R172, R177, R275, R398): it was
dispatched earlier and must run first, or it is the MATMUL that a chained DRAIN drains, or the chained DRAIN of rows that a MATMUL would
write. -/
def State.waitsOn (s : State) (sl o : Slot) : Bool :=
  (s.runsFirst o sl && !s.heldBehind o sl) ||
  (o.phase != .done && opcodeOf sl.desc = 0x03 && chainsOn o.desc && sl.isBehind o && targetOf o.desc = targetOf sl.desc) ||
  drainKeeps o sl

/-- Another descriptor keeps that in slot k waiting at its leaves. -/
def State.waitsTurn (s : State) (k : Nat) (sl : Slot) : Bool :=
  s.host.slots.any (fun kv => kv.1 != k && (match kv.2 with
    | some o => s.waitsOn sl o
    | none => false))

/-! ### Waiting on memory (R50, R51, R176, R745) -/

/-- The work in a slot waits on a handshake at some leaves, where it has pieces: they are Frozen, and the freeze is counted at each
that no other work has frozen. DEDUCED (log 12). -/
def State.freeze (s : State) (k : Nat) (leaves : List Nat) : State :=
  match s.slot k with
  | none => s
  | some sl =>
    let was := s.tree.frozen.flatMap (·.2)
    let t := (leaves.filter (fun l => !was.contains l)).foldl (fun s i =>
      let u := s.unitOf i
      (s.modUnit u (fun x => { x with freezes := sat 32 (x.freezes + 1) })).count u ctrFreeze 1)
      { s with tree := { s.tree with frozen := mput [] s.tree.frozen k leaves } }
    s.tellStates t (targetOf sl.desc)

/-- The work in a slot goes on. -/
def State.thaw (s : State) (k : Nat) : State :=
  match s.slot k with
  | none => s
  | some sl =>
    if s.frozenLeaves k = [] then s
    else s.tellStates { s with tree := { s.tree with frozen := mput [] s.tree.frozen k [] } } (targetOf sl.desc)

/-- Work of a unit whose die is throttled: the handshakes that stay idle are freezes of it, which FREEZE_COUNT counts (R51, R735). How
many gaps they make the spec does not say: an open value. DESIGN CHOICE (log 12). -/
def State.idleGaps (s : State) (u : Nat) : State :=
  if s.throttleOf (unitDie u) = 0 then s
  else
    let (v, s) := s.free
    (s.modUnit u (fun x => { x with freezes := sat 32 (x.freezes + v) })).count u ctrFreeze v

/-- Pieces of a group's work would go to a node that a halt, begun before the descriptor was dispatched, holds: they are not
dispatched, and the group does not move them to siblings (R693, R696). DEDUCED (log 36). -/
def State.piecesHeld (s : State) (sl : Slot) : Bool :=
  let d := sl.desc
  workKind (opcodeOf d) != .group && s.cores.halts.any (fun h => decide (h.since ≤ sl.dispatched) &&
    !inSubtree h.node (targetOf d) && inSubtree (targetOf d) h.node && sl.worksAt h.node)

/-- Run the meaning of a descriptor command on the slot that holds it: nothing happens where the slot holds no
running descriptor with one of the opcodes, or one that waits for another (`State.waitsTurn`) or whose pieces are held, and the
command may be given again.
While memory holds, its node freezes (R176, R745). DESIGN CHOICE (log 3). -/
def State.withDesc (s : State) (k : Nat) (opcodes : List Nat) (f : Slot → State → State) : State :=
  match s.slot k with
  | some sl =>
    if sl.phase == .running && opcodes.contains (opcodeOf sl.desc) && !s.nodesStopped && !s.waitsTurn k sl && !s.piecesHeld sl then
      if s.memHeld then
        (if workKind (opcodeOf sl.desc) == .group then s else s.freeze k sl.leaves)
      else f sl s
    else s
  | none => s

end Sys2Proof.Machine
end

