-- ==== Sys2Proof/Machine/Accum.lean ====
section
/-! DEFINITION. Accumulator memory: words, windows, the row add with its overflow retry, and the accumulator
window (chapter 05, R140 to R166, R848; chapter 10 for its check codes). -/

namespace Sys2Proof.Machine

/-! ### Words and windows -/

/-- Tag code (Table 5.1). -/
def Tag.code : Tag → Nat
  | .finite => 0 | .nan => 1 | .posInf => 2 | .negInf => 3

/-- Tag of a code (Table 5.1). -/
def Tag.ofCode (n : Nat) : Tag :=
  match n % 4 with
  | 0 => .finite | 1 => .nan | 2 => .posInf | _ => .negInf

/-- Round a rational to the nearest integer, ties to even. -/
def roundNe (x : Rat) : Int :=
  let f := x.floor
  let d := x - (f : Rat)
  if d > 1 / 2 || (d == 1 / 2 && f % 2 == 1) then f + 1 else f

/-- Whether an integer fits the 96-bit word (R147). -/
def fits96 (x : Int) : Bool := -(2 ^ 95) ≤ x && x ≤ 2 ^ 95 - 1

/-- The value X × 2^w at window code WIN (R140). -/
def winValue (x win : Int) : Rat := (x : Rat) * pow2 (8 * win)

/-- Identifier that reaches a unit: the inverse of `State.unitOf` (R46). -/
def State.identOf (s : State) (u : Nat) : Nat :=
  match s.tree.names.find? (fun kv => kv.2 == u) with
  | some kv => kv.1
  | none => u

/-- Address of the record of word (r, c) of the cell with an identifier (R162). -/
def accAddr (id r c : Nat) : Nat := accBase + id * 0x40000 + r * 0x200 + c * 0x10

/-- A half-row slot of a cell. -/
def CellState.slot (c : CellState) (r h : Nat) : HalfSlot := mget HalfSlot.reset c.slots (r * 2 + h)

/-- A word of a cell. -/
def CellState.word (c : CellState) (r j : Nat) : AccWord := mget AccWord.reset c.acc (r * 32 + j)

/-- Set a half-row slot. -/
def State.putHalf (s : State) (u r h : Nat) (v : HalfSlot) : State :=
  s.modCell u (fun c => { c with slots := mput HalfSlot.reset c.slots (r * 2 + h) v })

/-- Set a word. -/
def State.putWord (s : State) (u r j : Nat) (v : AccWord) : State :=
  s.modCell u (fun c => { c with acc := mput AccWord.reset c.acc (r * 32 + j) v })

/-- Data bits of a word as its code covers them (Table 10.2): X in [95:0], tag in [97:96]. -/
def AccWord.data (w : AccWord) : Nat := wrap 96 w.x + w.tag.code * 2 ^ 96

/-- A word whose stored data bits have become others: the residue of what was written stays (R330). -/
def AccWord.stored (w : AccWord) (d mark : Nat) : AccWord :=
  let x := sext 96 d
  ⟨x, Tag.ofCode (d / 2 ^ 96), mark, (w.off + residueInt w.x + 31 - residueInt x) % 31⟩

/-- Data bits of a slot (Table 10.2): WIN in [5:0], INEXACT in [6]. -/
def HalfSlot.data (h : HalfSlot) : Nat := wrap 6 h.win + 64 * b2n h.inexact

/-- A slot from its data bits. -/
def HalfSlot.ofData (d mark : Nat) : HalfSlot := ⟨sext 6 d, bit d 6, mark⟩

/-- Log, count and report a correctable error in accumulator memory (R331). -/
def State.reportAccCe (s : State) (u addr syn finder : Nat) : State :=
  let die := unitDie u
  let s := s.count u (ctrId 10 12 8) 1
  let (l, lost) := (s.errLogs die).addCe addr syn finder s.time.now true
  (s.modLogs die (fun _ => l)).count (dieNode die) (ctrId 10 12 6) (b2n lost)

/-- Log, count and report a newly poisoned accumulator word or slot (R332, R348). -/
def State.reportAccUe (s : State) (u addr syn finder : Nat) : State :=
  let die := unitDie u
  let (l, lost) := (s.errLogs die).addUe addr syn finder s.time.now true
  let s := (s.modLogs die (fun _ => l)).count (dieNode die) (ctrId 10 12 7) (b2n lost)
  let s := s.count u (ctrId 10 12 9) 1
  let s := s.sig u 0x05 (bits addr 47 4)
  s.event 0x0301 (poisonFoundArg addr) false

/-- Check one word (R325, R331, R332). -/
def State.checkWord (s : State) (u r j finder : Nat) (fix : Bool) : Found × State :=
  let w := (s.cell u).word r j
  let addr := accAddr (s.identOf u) r j
  match classify 98 7 w.mark with
  | .clean => (.clean, s)
  | .poisoned => (.oldPoison, s)
  | .uncorrectable =>
    (.newPoison, (s.putWord u r j { w with mark := poisonMask 7 }).reportAccUe u addr (w.mark % 128) finder)
  | .correctable pos =>
    let s :=
      if fix then
        s.putWord u r j (if pos = 0 || pos = 2 ^ pos.log2 then { w with mark := 0 }
          else w.stored (w.data ^^^ 2 ^ posData pos) 0)
      else s
    (.corrected, s.reportAccCe u addr (w.mark % 128) finder)

/-- Check one half-row slot (R325, R342): its address is that of the record at column 0 or 16. -/
def State.checkHalf (s : State) (u r h finder : Nat) (fix : Bool) : Found × State :=
  let w := (s.cell u).slot r h
  let addr := accAddr (s.identOf u) r (16 * h)
  match classify 7 4 w.mark with
  | .clean => (.clean, s)
  | .poisoned => (.oldPoison, s)
  | .uncorrectable =>
    (.newPoison, (s.putHalf u r h { w with mark := poisonMask 4 }).reportAccUe u addr (w.mark % 16) finder)
  | .correctable pos =>
    let s :=
      if fix then
        s.putHalf u r h (if pos = 0 || pos = 2 ^ pos.log2 then { w with mark := 0 }
          else HalfSlot.ofData (w.data ^^^ 2 ^ posData pos) 0)
      else s
    (.corrected, s.reportAccCe u addr (w.mark % 16) finder)

/-- A finding that a reader takes as poison (R332, R335). -/
def Found.isPoison : Found → Bool
  | .newPoison | .oldPoison => true
  | .clean | .corrected => false

/-- Read a word together with its slot (R164): whether either is poisoned. -/
def State.readWord (s : State) (u r j : Nat) : AccWord × HalfSlot × Bool × State :=
  let (f, s) := s.checkHalf u r (j / 16) 0 true
  let (g, s) := s.checkWord u r j 0 true
  let c := s.cell u
  let p := f.isPoison || g.isPoison
  let die := unitDie u
  let s := if p then s.modLogs die (fun l => l.readPoison (accAddr (s.identOf u) r j)) else s
  (c.word r j, c.slot r (j / 16), p, s)

/-- The flip mask that waits for a write of a word fires, once (R353, R354). -/
def State.fireAcc (s : State) (u r j : Nat) : State :=
  let addr := accAddr (s.identOf u) r j
  [0, 1].foldl (fun s d =>
    match s.flipFor d addr with
    | some (data, chk) =>
      let s := s.fire (regFlipCtl d) 16
      let data := data % 2 ^ 98
      let w := (s.cell u).word r j
      s.putWord u r j (w.stored (w.data ^^^ data) (w.mark ^^^ hamming 98 7 data ^^^ chk % 256))
    | none => s) s

/-- Rewrite a masked word at another window, `shift` powers of two lower: its tag and its poison state stay (R848). -/
def State.rewriteWord (s : State) (u r j : Nat) (x shift : Int) : State :=
  let w := (s.cell u).word r j
  (s.putWord u r j { w with
    x := x, mark := if classify 98 7 w.mark == .poisoned then w.mark else 0, off := residueScaled w.off shift }).fireAcc u r j

/-- Write a whole word: a fresh code, or the poison mark (R333, R336), then the flip mask if one waits (R353). Unit `w` counts a tag that
is set (R151). -/
def State.writeWord (s : State) (u w r j : Nat) (x : Int) (tag : Tag) (poison : Bool) : State :=
  let old := (s.cell u).word r j
  let was := classify 98 7 old.mark == .poisoned
  let addr := accAddr (s.identOf u) r j
  let die := unitDie u
  let x := if tag = .finite then x else 0
  let s := if tag ≠ .finite && old.tag = .finite then s.count w (ctrId 5 8 3) 1 else s
  let s := s.putWord u r j ⟨x, tag, if poison then poisonMask 7 else 0, 0⟩
  let s :=
    if poison then s.count u (ctrId 10 12 10) 1
    else if was then (s.modLogs die (fun l => l.clearPoison addr)).count u (ctrId 10 12 11) 1
    else s
  s.fireAcc u r j

/-! ### Special products and tags (R150) -/

/-- What one column of a row brings in: the exact finite sum, its residue as the residue path forms it (R228, R229), and
the special products. -/
structure ColumnIn where
  sum : Rat
  res : Nat
  nan : Bool
  pinf : Bool
  ninf : Bool
deriving DecidableEq, Repr

/-- Nothing. -/
def ColumnIn.zero : ColumnIn := ⟨0, 0, false, false, false⟩

/-- The product of two elements, with zero elements and infinities as R150 says. -/
def Value.mul (a b : Value) : Value :=
  match a, b with
  | .nan, _ | _, .nan => .nan
  | .fin x nx, .fin y ny => .fin (x * y) (Value.neg (.fin x nx) != Value.neg (.fin y ny))
  | .inf n, .fin y ny => if y = 0 then .nan else .inf (n != Value.neg (.fin y ny))
  | .fin x nx, .inf m => if x = 0 then .nan else .inf (Value.neg (.fin x nx) != m)
  | .inf n, .inf m => .inf (n != m)

/-- Add a special product to a column. -/
def ColumnIn.special (c : ColumnIn) (v : Value) : ColumnIn :=
  match v with
  | .nan => { c with nan := true }
  | .inf false => { c with pinf := true }
  | .inf true => { c with ninf := true }
  | .fin _ _ => c

/-- Add the product of a streamed element and a weight to a column (R100, R105, R112, R114): a special product where either is
special, else the sum of the lane products of their digits over every pass, with the side product where either is an escape. The digits
of an escape are zero (R104) but for an error in them. The residue path multiplies the two residues (Table 7.2). -/
def ColumnIn.add (c : ColumnIn) (a : Elem) (w : Weight) : ColumnIn :=
  let p := a.v.mul w.v
  match p with
  | .fin r _ =>
    let r := (if a.esc || w.esc then r else 0) + laneSum a.digits w.digits
    { c with sum := c.sum + r, res := (c.res + a.v.residue * w.res) % 31 }
  | .nan | .inf _ => c.special p

/-- Table 5.4: the tag after an add, from the present tag and the special products. -/
def Tag.after (t : Tag) (c : ColumnIn) : Tag :=
  if t = .nan || c.nan then .nan
  else
    let p := c.pinf || t = .posInf
    let n := c.ninf || t = .negInf
    if p && n then .nan else if p then .posInf else if n then .negInf else .finite

/-! ### The row add -/

/-- The lowest window code from `lo` up to `hi` at which every one of some words, held at window `at0`, fits
exactly (R145, R848). -/
def lowestFit (words : List AccWord) (at0 lo hi : Int) : Int :=
  ((List.range (hi - lo).toNat).map (fun n => lo + (n : Int))).find?
    (fun w => words.all (fun x => x.tag ≠ .finite || fits96 (x.x * 2 ^ (8 * (at0 - w)).toNat)))
    |>.getD hi

/-- What one column of a row is to become: its exact value, or a tag that is not finite. -/
structure ColumnOut where
  col : Nat
  tag : Tag
  v : Rat
  /-- The residue that the residue path predicts for the value (R229). -/
  pred : Nat
  poison : Bool
deriving DecidableEq, Repr

/-- Whether a column overflows at a window (R147, R151). -/
def ColumnOut.overflows (c : ColumnOut) (win : Int) : Bool :=
  c.tag = .finite && !fits96 (roundNe (c.v / pow2 (8 * win)))

/-- Whether a column's value with an error of some amount fails the comparison of R229: a column whose tag is not finite
and a poisoned word are not compared (R339). -/
def ColumnOut.fails (c : ColumnOut) (error : Rat) : Bool :=
  c.tag = .finite && !c.poison && residue (c.v + error) != c.pred

/-- What the attempts at one row came to (R152, R231 to R234). -/
structure Attempts where
  /-- The columns as the last attempt leaves them. -/
  outs : List ColumnOut
  /-- Final windows of the two halves. -/
  wins : Int × Int
  /-- Retry rounds taken. -/
  rounds : Nat
  /-- Failed columns of each residue event. -/
  events : List (List Nat)
  /-- Replays that passed, and replays that failed too. -/
  passed : Nat
  lost : Nat
deriving DecidableEq, Repr

/-- Attempt n at a row, and those that follow it: a mismatch replays the row once at the same windows (R231), a column that
fails again becomes NaN (R234), an overflow raises the windows of the slots that overflow and streams the row again (R152), up to
WIN 28 (R154). `error` gives the amount by which a column is off in an attempt, `entry` says that an element of the row fails
its digit check in it (R236). -/
def addAttempts (error : Nat → Nat → Rat) (entry : Nat → Bool) : Nat → Nat → List ColumnOut → Int × Int → Attempts
  | 0, _, outs, w => ⟨outs, w, 0, [], 0, 0⟩
  | fuel + 1, n, outs, w =>
    let failed (n : Nat) : List Nat :=
      if entry n then outs.map (·.col) else (outs.filter (fun c => c.fails (error n c.col))).map (·.col)
    let f0 := failed n
    let m := if f0.isEmpty then n else n + 1
    let f1 := if f0.isEmpty then [] else failed m
    let outs := outs.map (fun c => if f1.contains c.col then { c with tag := .nan, v := 0 } else c)
    let now := outs.map (fun c => if f1.contains c.col then c else { c with v := c.v + error m c.col })
    let o0 := now.any (fun c => c.col < 16 && c.overflows w.1) && w.1 < 28
    let o1 := now.any (fun c => 16 ≤ c.col && c.overflows w.2) && w.2 < 28
    let rest :=
      if o0 || o1 then
        let x := addAttempts error entry fuel (m + 1) outs (if o0 then w.1 + 1 else w.1, if o1 then w.2 + 1 else w.2)
        { x with rounds := x.rounds + 1 }
      else ⟨now, w, 0, [], 0, 0⟩
    if f0.isEmpty then rest
    else { rest with
      events := f0 :: rest.events
      passed := rest.passed + b2n f1.isEmpty
      lost := rest.lost + b2n (!f1.isEmpty) }

/-- The columns of a half-row that a row add does not address (R134, R848). -/
def maskedOf (h : Nat) (cols : List Nat) : List Nat :=
  ((List.range 16).map (16 * h + ·)).filter (fun j => !cols.contains j)

/-- Read the masked words of a half-row, as a change of their slot's window does (R331, R332, R848): whether any is poisoned. -/
def State.readMasked (s : State) (u r : Nat) (masked : List Nat) : Bool × State :=
  masked.foldl (fun (acc : Bool × State) j =>
    let (_, _, p, s) := acc.2.readWord u r j
    (acc.1 || p, s)) (false, s)

/-- Rewrite each masked word of a half-row from window `old` at window `fin` (R848): whether bits were lost. -/
def State.rewriteMasked (s : State) (u r : Nat) (masked : List Nat) (old fin : Int) : Bool × State :=
  masked.foldl (fun (acc : Bool × State) j =>
    let x := (acc.2.cell u).word r j
    let v := winValue x.x old / pow2 (8 * fin)
    let q := roundNe v
    (acc.1 || (x.tag = .finite && ((q : Int) : Rat) != v), acc.2.rewriteWord u r j q (8 * (old - fin))))
    (false, s)

/-- Write one half-row of a row add at its final window (R146, R149, R154, R155, R848), as unit `who` counts it. `start` is the window
before any retry, `keepMark` says that the mark is kept when a fresh sum is written beside masked words. -/
def State.writeHalf (s : State) (u who r h : Nat) (cs : List ColumnOut) (old : HalfSlot) (start fin : Int)
    (keepMark : Bool) : Bool × State :=
  let masked := maskedOf h (cs.map (·.col))
  let w := pow2 (8 * fin)
  let lossA := cs.any (fun c => ((roundNe (c.v / w) : Int) : Rat) != c.v / w)
  let satN := (cs.filter (fun c => c.overflows fin)).length
  let s := cs.foldl (fun s c =>
    if c.tag ≠ .finite then s.writeWord u who r c.col 0 c.tag c.poison
    else
      let x := roundNe (c.v / w)
      if fits96 x then s.writeWord u who r c.col x .finite c.poison
      else s.writeWord u who r c.col 0 (if c.v < 0 then .negInf else .posInf) c.poison) s
  let (lossM, s) := if old.win = fin then (false, s) else s.rewriteMasked u r masked old.win fin
  let loss := lossA || lossM
  let s := (s.count who (ctrId 5 8 1) (b2n loss)).count who (ctrId 7 14 3) (b2n loss)
  let s := s.count who (ctrId 5 8 2) satN
  let set := loss || satN ≠ 0 || start < fin
  let keep := classify 7 4 old.mark == .poisoned && !masked.isEmpty
  (set, s.putHalf u r h ⟨fin, (keepMark && old.inexact) || set, if keep then old.mark else 0⟩)

/-- What a row add did. -/
structure RowResult where
  /-- Some INEXACT mark was set (R149, R154, R155). -/
  marked : Bool
  /-- Retry rounds taken (R152). -/
  rounds : Nat
  /-- Some word was written poisoned. -/
  poisoned : Bool
  /-- A masked word that was read was poisoned. -/
  masked : Bool
  /-- Residue events, replays that passed and that failed (R231 to R234). -/
  events : List (List Nat)
  passed : Nat
  lost : Nat
deriving DecidableEq, Repr

/-- The window that a slot of accumulator row r starts a row add at (R144, R145, R848), for the active columns `cols`. With more rows
than the region holds a row is met again within one MATMUL, and its window is chosen anew at each row add. DESIGN CHOICE (log 57). -/
def State.startWindow (s : State) (u r h : Nat) (cols : List Nat) (base : Int) (add : Bool) : Int :=
  let c := s.cell u
  let old := c.slot r h
  let masked := maskedOf h cols
  if add then lowestFit (((List.range 16).map (16 * h + ·)).map (c.word r)) old.win (min old.win base) old.win
  else if masked.isEmpty then base
  else lowestFit (masked.map (c.word r)) old.win (min old.win base) old.win

/-- Read what a row add needs of a half-row before it starts (R145, R848): the slot, and the masked words where its window may move
down. -/
def State.readSlot (s : State) (u r h : Nat) (cols : List Nat) (base : Int) (add : Bool) : Bool × State :=
  let masked := maskedOf h cols
  if masked.length = 16 || (masked.isEmpty && !add) then (false, s)
  else
    let (_, s) := s.checkHalf u r h 0 true
    if base < ((s.cell u).slot r h).win then s.readMasked u r masked else (false, s)

/-- Add or write one row of a MATMUL in accumulator row r of a cell (R123, R143 to R156, R229 to R237, R848), which unit `who` streams
and counts: `ins` gives each active column and what comes in, with whether its input was poisoned; `base` is the base window code.
`error` and `entry` are those of `addAttempts`. The residue of a present word is that of the word as it was written, so that an error of
the stored word that its check code lets pass shows in the add (R237, R330). DEDUCED (log 17). -/
def State.addRow (s : State) (u who r : Nat) (ins : List (Nat × ColumnIn × Bool)) (base : Int) (add : Bool)
    (error : Nat → Nat → Rat) (entry : Nat → Bool) : RowResult × State :=
  let cols := ins.map (·.1)
  let (present, s) := if !add then ([], s) else ins.foldl (fun (acc : List (Nat × AccWord × Bool) × State) i =>
    let (w, _, p, s) := acc.2.readWord u r i.1
    (acc.1 ++ [(i.1, w, p)], s)) ([], s)
  let (m0, s) := s.readSlot u r 0 cols base add
  let (m1, s) := s.readSlot u r 1 cols base add
  let c := s.cell u
  let outs := ins.map (fun i =>
    let win := (c.slot r (i.1 / 16)).win
    match present.find? (fun p => p.1 == i.1) with
    | some p =>
      let fin : Bool := p.2.1.tag = .finite
      (⟨i.1, p.2.1.tag.after i.2.1, i.2.1.sum + (if fin then winValue p.2.1.x win else 0),
        (i.2.1.res + (if fin then residueScaled (p.2.1.x + p.2.1.off) (8 * win) else 0)) % 31, i.2.2 || p.2.2⟩ : ColumnOut)
    | none => ⟨i.1, Tag.finite.after i.2.1, i.2.1.sum, i.2.1.res % 31, i.2.2⟩)
  let s0 := s.startWindow u r 0 cols base add
  let s1 := s.startWindow u r 1 cols base add
  let x := addAttempts error entry 80 0 outs (s0, s1)
  let half (h : Nat) (st fin : Int) (acc : Bool × Bool × State) : Bool × Bool × State :=
    let masked := maskedOf h cols
    if masked.length = 16 then acc
    else
      let old := c.slot r h
      let (p, s) := if fin ≠ old.win && old.win ≤ base then acc.2.2.readMasked u r masked else (false, acc.2.2)
      let (m, s) := s.writeHalf u who r h (x.outs.filter (fun o => o.col / 16 == h)) old st fin (add || !masked.isEmpty)
      (acc.1 || m, acc.2.1 || p, s)
  let (m, p, s) := half 1 s1 x.wins.2 (half 0 s0 x.wins.1 (false, m0 || m1, s))
  (⟨m, x.rounds, x.outs.any (fun o => o.poison), p, x.events, x.passed, x.lost⟩, s.count who (ctrId 5 8 0) x.rounds)

/-! ### The accumulator window -/

/-- A full-width partial record (Table 5.5). -/
def partialRecord (x : Int) (win : Int) (tag : Tag) (inexact : Bool) : List Byte :=
  natLe 12 (wrap 96 x) ++ natLe 1 (wrap 8 win) ++ natLe 1 (tag.code + 4 * b2n inexact) ++ [0, 0]

/-- A full-width partial as read: value, window code, tag, INEXACT (R157, R158), and whether WIN was clamped. -/
structure Partial where
  x : Int
  win : Int
  tag : Tag
  inexact : Bool
deriving DecidableEq, Repr

/-- Read a record, clamping its WIN (R158). -/
def readPartial (bs : List Byte) : Partial × Bool :=
  let w := sext 8 (field bs 12 1)
  let w' := max (-8) (min 28 w)
  let fl := field bs 13 1
  (⟨sext 96 (field bs 0 12), w', Tag.ofCode fl, bit fl 2⟩, w != w')

/-- The cell, row and column that a record address names: the cell's unit where the identifier names a cell. -/
def State.accPlace (s : State) (addr : Nat) : Option (Nat × Nat × Nat) :=
  let o := addr - accBase
  let id := o / 0x40000
  match s.placeOf id with
  | some (.cell _ _) => some (s.unitOf id, o % 0x40000 / 0x200, o % 0x200 / 0x10)
  | _ => none

/-- Read one record through the window (R163, R164): an identifier that names no cell reads zeros. -/
def State.accReadRecord (s : State) (addr : Nat) : List Byte × Bool × State :=
  match s.accPlace addr with
  | none => (List.replicate 16 0, false, s)
  | some (u, r, j) =>
    let (w, h, p, s) := s.readWord u r j
    (partialRecord w.x h.win w.tag h.inexact, p, s)

/-- Read n bytes of the window: bytes, poison by record, state. -/
def State.accRead (s : State) (a n : Nat) : List Byte × List Bool × State :=
  let first := a - a % 16
  let cnt := (a % 16 + n + 15) / 16
  let (bs, ps, s) := (List.range cnt).foldl (fun (acc : List Byte × List Bool × State) i =>
    let (b, p, s) := acc.2.2.accReadRecord (first + 16 * i)
    (acc.1 ++ b, acc.2.1 ++ [p], s)) ([], [], s)
  (slice bs (a % 16) n, ps, s)

/-- Write some records of one half-row (R165): a whole half-row sets the window to the largest WIN among them. -/
def State.accWriteHalf (s : State) (u r h : Nat) (recs : List (Nat × Partial × Bool)) : State :=
  let old := (s.cell u).slot r h
  let whole := recs.length = 16
  let win := if whole then (recs.map (fun x => x.2.1.win)).foldl max (-8) else old.win
  let w := pow2 (8 * win)
  let (lost, s) := recs.foldl (fun (acc : Bool × State) x =>
    let p := x.2.1
    if p.tag ≠ .finite then (acc.1, acc.2.writeWord u u r x.1 0 p.tag x.2.2)
    else
      let v := winValue p.x p.win / w
      let q := roundNe v
      if fits96 q then (acc.1 || ((q : Int) : Rat) != v, acc.2.writeWord u u r x.1 q .finite x.2.2)
      else (true, (acc.2.writeWord u u r x.1 0 (if v < 0 then .negInf else .posInf) x.2.2).count u (ctrId 5 8 2) 1))
    (false, s)
  let inx := recs.any (fun x => x.2.1.inexact) || lost
  s.putHalf u r h ⟨win, inx || (!whole && old.inexact), if whole then 0 else old.mark⟩

/-- Write bytes through the window (R163, R165): parts of records are ignored with a clamp each, records of an
identifier that names no cell are ignored with a clamp each; `poison` marks each record's source. Returns the
clamps to count. -/
def State.accWrite (s : State) (a : Nat) (bs : List Byte) (poison : Nat → Bool) : Nat × State :=
  let last := a + bs.length
  let first := (a + 15) / 16 * 16
  let cnt := (last - first) / 16
  let parts := b2n (first ≠ a && bs.length ≠ 0) + b2n (first ≤ last && last % 16 ≠ 0)
  let recs := (List.range cnt).map (fun i =>
    (first + 16 * i, readPartial (slice bs (first + 16 * i - a) 16), poison (first + 16 * i)))
  let named := recs.filterMap (fun x => (s.accPlace x.1).map (fun p => (p, x.2)))
  let winClamps := (named.filter (fun x => x.2.1.2)).length
  let halves := (named.map (fun x => (x.1.1, x.1.2.1, x.1.2.2 / 16))).eraseDups
  let s := halves.foldl (fun s k =>
    s.accWriteHalf k.1 k.2.1 k.2.2 ((named.filter (fun x => (x.1.1, x.1.2.1, x.1.2.2 / 16) == k)).map
      (fun x => (x.1.2.2, x.2.1.1, x.2.2)))) s
  (parts + winClamps + (cnt - named.length), s)

end Sys2Proof.Machine
end

