-- ==== Sys2Proof/Machine/Floats.lean ====
section
/-! DEFINITION. FP32 arithmetic on values: single operations rounded once (R179, R278), sums in tree order (R289),
derived row scales (R197, R198) and the block rotation (R210 to R213). -/

namespace Sys2Proof.Machine

/-! ### Exact operations with the special values of IEEE 754 -/

/-- The exact sum; a zero sum is −0 only where both are −0. -/
def Value.add (a b : Value) : Value :=
  match a, b with
  | .nan, _ | _, .nan => .nan
  | .inf n, .inf m => if n = m then .inf n else .nan
  | .inf n, .fin _ _ => .inf n
  | .fin _ _, .inf m => .inf m
  | .fin x _, .fin y _ => .fin (x + y) (a.neg && b.neg)

/-- The exact difference. -/
def Value.sub (a b : Value) : Value := a.add b.negate

/-- The exact product: 0 × ∞ is NaN. -/
def Value.times (a b : Value) : Value :=
  match a, b with
  | .nan, _ | _, .nan => .nan
  | .fin x _, .fin y _ => .fin (x * y) (a.neg != b.neg)
  | .inf n, .fin y _ => if y = 0 then .nan else .inf (n != b.neg)
  | .fin x _, .inf m => if x = 0 then .nan else .inf (a.neg != m)
  | .inf n, .inf m => .inf (n != m)

/-- The exact quotient: 0/0 and ∞/∞ are NaN, a finite non-zero number over zero is an infinity. -/
def Value.quot (a b : Value) : Value :=
  match a, b with
  | .nan, _ | _, .nan => .nan
  | .inf _, .inf _ => .nan
  | .inf n, .fin _ _ => .inf (n != b.neg)
  | .fin _ _, .inf m => .fin 0 (a.neg != m)
  | .fin x _, .fin y _ =>
    if y = 0 then (if x = 0 then .nan else .inf (a.neg != b.neg)) else .fin (x / y) (a.neg != b.neg)

/-! ### FP32 operations -/

/-- One FP32 addition (R179). -/
def fadd (a b : Value) : Value := roundFp32 (a.add b)
/-- One FP32 subtraction. -/
def fsub (a b : Value) : Value := roundFp32 (a.sub b)
/-- One FP32 multiplication. -/
def fmul (a b : Value) : Value := roundFp32 (a.times b)
/-- One FP32 division. -/
def fdiv (a b : Value) : Value := roundFp32 (a.quot b)

/-- tree_sum of R289. `fuel` bounds the depth: half the list goes to each side. -/
def treeSumAt : Nat → List Value → Value
  | 0, _ => .zero
  | fuel + 1, xs =>
    match xs with
    | [] => .zero
    | [x] => x
    | _ :: _ :: _ =>
      let h := 2 ^ (xs.length - 1).log2
      fadd (treeSumAt fuel (xs.take h)) (treeSumAt fuel (xs.drop h))

/-- The infinity among some values, if any; NaN where they hold a NaN or both infinities (R291). -/
def specialSum (xs : List Value) : Option Value :=
  if xs.any (·.isNan) || (xs.contains (.inf false) && xs.contains (.inf true)) then some .nan
  else xs.find? (fun x => !x.isFin)

/-- tree_sum (R289), with the special values of R291. -/
def treeSum (xs : List Value) : Value := (specialSum xs).getD (treeSumAt (xs.length + 1) xs)

/-! ### Derived scales -/

/-- The smallest finite FP32 number at or above a positive rational. A quotient above the largest finite number takes
that number, because a derived scale is always finite (the text under R82). -/
def roundUpFp32 (r : Rat) : Rat :=
  let m := roundMagFloat .fp32 .towardZero 0 r
  if Fmt.magValue .fp32 m < r && m < Fmt.topMag .fp32 then Fmt.magValue .fp32 (m + 1) else Fmt.magValue .fp32 m

/-- The format a row's scale is derived from, where its blocks differ (R849): smallest Qmax, then lower rung, then lower
code. -/
def scaleFmt (fs : List Fmt) : Fmt :=
  match fs with
  | [] => .i8
  | f :: rest => rest.foldl (fun a b =>
      if b.qmax < a.qmax || (b.qmax = a.qmax && (b.rung < a.rung || (b.rung = a.rung && b.code < a.code)))
      then b else a) f

/-- row_scale of R197: `f` is FINMAX and `ratio` is RATIO. An infinite FINMAX, which only a record that software wrote can hold, gives
scale 1.0. DESIGN CHOICE (log 57). -/
def rowScale (f : Value) (fmt : Fmt) (ratio : Nat) : Rat :=
  match f with
  | .fin r _ =>
    if r = 0 then 1
    else
      let rho := if fmt.hasEscape then ratio else 0
      max (roundUpFp32 (r / (((2 ^ rho : Nat) : Rat) * fmt.qmax))) (pow2 (-126))
  | .nan | .inf _ => 1

/-- row_scale_zp of R198. -/
def rowScaleZp (lo hi : Value) (fmt : Fmt) : Rat × Int :=
  match lo, hi with
  | .fin m _, .fin mx _ =>
    let m := min m 0
    let mx := max mx 0
    if mx - m = 0 then (1, 0)
    else
      let s := max (roundUpFp32 ((mx - m) / (2 * fmt.qmax - 1))) (pow2 (-126))
      let t := -(mx + m) / (2 * s)
      let k := roundMagInt .nearest 0 (if t < 0 then -t else t)
      (s, if t < 0 then -k else k)
  | _, _ => (1, 0)

/-! ### Rotation (R210 to R213) -/

/-- One stage of the transform (R212 step 3). -/
def rotStage (xs : List Value) (s : Nat) : List Value :=
  (List.range xs.length).map (fun i =>
    let x := xs.getD i .zero
    if bit i s then fsub (xs.getD (i - 2 ^ s) .zero) x else fadd x (xs.getD (i + 2 ^ s) .zero))

/-- Multiply by the sign vector whose bit i says −1 (R211). -/
def applySigns (signs : Nat) (xs : List Value) : List Value :=
  (xs.zip (List.range xs.length)).map (fun xi => if bit signs xi.2 then xi.1.negate else xi.1)

/-- The rotation of one block of 128 FP32 values in a form of Table 6.8, and whether R213 set it to NaN. -/
def rotateBlock (form signs : Nat) (xs : List Value) : List Value × Bool :=
  if xs.any (fun x => !x.isFin) then (List.replicate xs.length .nan, true)
  else
    let xs := if form % 4 < 2 then applySigns signs xs else xs
    let ys := (List.range 7).foldl rotStage xs
    let ys := if form % 4 < 2 then ys else applySigns signs ys
    let e : Int := if form % 4 = 0 || form % 4 = 3 then -4 else -3
    (ys.map (fun y => roundFp32 (y.times (.ofRat (pow2 e)))), false)

/-- Squall evaluations that n element draws from logical index a take: the distinct positions (R309). DEDUCED (log 18). -/
def squallEvals (a n : Nat) : Nat := if n = 0 then 0 else (a + n - 1) / 4 - a / 4 + 1

end Sys2Proof.Machine
end

