-- ==== Sys2Proof/Machine/Operands.lean ====
section
/-! DEFINITION. Operand forms: tensor references, rows of a quantised tensor with side lists and width maps,
raw elements, conversion bytes, endpoints and range checks (chapters 06 and 16, R590 to R594, R608). -/

namespace Sys2Proof.Machine

/-! ### Ranges (R587) -/

/-- Whether n rows of `len` bytes, `stride` apart from `a`, lie wholly in a region given by a test. -/
def rowsIn (inR : Nat → Nat → Bool) (a len stride n : Nat) : Bool :=
  (List.range n).all (fun i => inR (a + i * stride) len)

/-- A range in tier memory or in stack memory. -/
def inMem (a n : Nat) : Bool := inTier a n || inStack a n

/-- A range in any region a mover or SNAPSHOT may name. -/
def inAny (a n : Nat) : Bool := inMem a n || inAcc a n

/-! ### Poison by byte -/

/-- Write bytes of which some carry poison: a unit is written poisoned when any of its bytes does (R336).
DEDUCED (log 53). -/
def State.memWriteP (s : State) (a : Nat) (bs : List Byte) (ps : List Bool) : Bool × State :=
  (unitsOf a bs.length).foldl (fun (acc : Bool × State) u =>
    let off := u.1 + u.2.1 - a
    let p := ((ps.drop off).take u.2.2).any id
    let (bad, s) := acc.2.writeUnit u.1 u.2.1 (slice bs off u.2.2) p
    (acc.1 || bad, s)) (false, s)

/-- Whether a row written so has a poisoned unit. -/
def anyPoison (ps : List Bool) : Bool := ps.any id

/-- Repeat each element's flag for each of its b bytes. -/
def flagsPer (b : Nat) (ps : List Bool) : List Bool := ps.flatMap (List.replicate b)

/-! ### Wide elements -/

/-- Bytes of a BF16 or FP32 element. -/
def wideBytes (f : Fmt) : Nat := (f.width + 7) / 8

/-- The value of a wide or 8-bit float pattern. -/
def Fmt.value (f : Fmt) (c : Nat) : Value :=
  match f.decode c with | .val v => v | .escape => .nan

/-- Read one element of a wide format: its value, whether it was poisoned, the state. -/
def State.readElem (s : State) (f : Fmt) (a : Nat) : Value × Bool × State :=
  let (bs, ps, s) := s.memRead a (wideBytes f)
  (f.value (leNat bs), anyP ps, s)

/-- Read n elements of a wide format that stand one after another. -/
def State.readElems (s : State) (f : Fmt) (a n : Nat) : List (Value × Bool) × State :=
  (List.range n).foldl (fun (acc : List (Value × Bool) × State) i =>
    let (v, p, s) := acc.2.readElem f (a + i * wideBytes f)
    (acc.1 ++ [(v, p)], s)) ([], s)

/-- The source format of STATS, QUANT, ROTATE and CHECK (Table 6.5): an array format is read as BF16. -/
def readSrcFmt (code : Nat) : Fmt × Nat :=
  let (f, n) := readFmt code
  if f.isArray then (.bf16, n + 1) else (f, n)

/-! ### Tensor references (R590, Table 16.4) -/

/-- A tensor reference. -/
structure Tref where
  codeBase : Nat
  rrecBase : Nat
  sideBase : Nat
  map : Nat
  /-- Bytes from one width block to the next. -/
  pitch : Nat
  mapEn : Bool
  /-- NC: column blocks. -/
  nc : Nat
  row0 : Nat
  col0 : Nat
deriving DecidableEq, Repr

/-- PITCH in bytes (Table 6.7): 0 and 65 to 127 are read as 64 units with a clamp. -/
def readPitch (p : Nat) : Nat × Nat :=
  let p := p % 128
  if p = 0 || 64 < p then (64 * 256, 1) else (p * 256, 0)

/-- Read a TREF at an offset of a descriptor, its columns aligned to `align` (R591): the reference and clamps. -/
def readTref (d : List Byte) (off align : Nat) : Tref × Nat :=
  let pb := field d (off + 24) 1
  let (pitch, c1) := readPitch pb
  let col := field d (off + 32) 4 % 2 ^ 20
  (⟨addr48 d off, addr48 d (off + 6), addr48 d (off + 12), addr48 d (off + 18), pitch, bit pb 7,
    field d (off + 26) 2 % 8192 + 1, field d (off + 28) 4 % 2 ^ 20, col - col % align⟩,
   c1 + b2n (col % align ≠ 0))

/-- Write ROW0 and COL0 of a TREF back into a descriptor, for a piece. -/
def patchTref (d : List Byte) (off row col : Nat) : List Byte :=
  patch (patch d (off + 28) (natLe 4 row)) (off + 32) (natLe 4 col)

/-- Address of a width-map entry (Table 6.1). -/
def Tref.mapAddr (t : Tref) (row col : Nat) : Nat := t.map + row / 128 * t.nc + col / 128

/-- Format of the block that holds an element: the fixed one, or its map entry's (R190), read under R67 and
R68; whether the entry was poisoned. `State.blockFmts` reads the map entries of a whole piece of work, each once. -/
def State.blockFmt (s : State) (t : Tref) (fixed : Fmt) (row col : Nat) : Fmt × Bool × State :=
  if t.mapEn then
    let (bs, ps, s) := s.memRead (t.mapAddr row col) 1
    let (f, n) := readArrayFmt (leNat bs % 16)
    (f, anyP ps, s.clamp .table n)
  else (fixed, false, s)

/-- The width blocks that rows × cols elements of the work lie in, in row-major order (Table 6.1). -/
def Tref.blocks (t : Tref) (rows cols : Nat) : List (Nat × Nat) :=
  if rows = 0 || cols = 0 then []
  else
    let r0 := t.row0 / 128
    let c0 := t.col0 / 128
    (rangeFrom r0 ((t.row0 + rows - 1) / 128 + 1 - r0)).flatMap (fun r =>
      (rangeFrom c0 ((t.col0 + cols - 1) / 128 + 1 - c0)).map (fun c => (r, c)))

/-- Formats of blocks as a descriptor reads them, with whether a block's entry was poisoned. -/
abbrev BlockFmts := List ((Nat × Nat) × Fmt × Bool)

/-- Read the map entries of some blocks, each once: an illegal code counts one clamp for the entry (R67, R68, R190). -/
def State.blockFmts (s : State) (t : Tref) (fixed : Fmt) (blocks : List (Nat × Nat)) : BlockFmts × State :=
  if !t.mapEn then ([], s)
  else blocks.foldl (fun (acc : BlockFmts × State) b =>
    let (f, p, s) := acc.2.blockFmt t fixed (b.1 * 128) (b.2 * 128)
    (acc.1 ++ [(b, f, p)], s)) ([], s)

/-- Format of the block of an element among those read, and whether its entry was poisoned; the fixed format where no map is named. -/
def BlockFmts.at (m : BlockFmts) (fixed : Fmt) (row col : Nat) : Fmt × Bool :=
  match m.find? (fun x => x.1 == (row / 128, col / 128)) with
  | some x => x.2
  | none => (fixed, false)

/-- Address and length of the codes of n elements from (row, col), within one group (Table 6.1). -/
def Tref.codeRange (t : Tref) (f : Fmt) (row col n : Nat) : Nat × Nat :=
  (t.codeBase + (row / 128 * t.nc + col / 128) * t.pitch + row % 128 * 16 * f.width + col % 128 * f.width / 8,
   (n * f.width + 7) / 8)

/-- Address of a row record (Table 6.1). -/
def Tref.rrec (t : Tref) (row : Nat) : Nat := t.rrecBase + row * 8

/-- Address of a side slot (Table 6.1). -/
def Tref.side (t : Tref) (row col : Nat) : Nat := t.sideBase + (row * t.nc + col / 128) * 24

/-- The entry of a side slot that an escape at a position takes (R188): the lowest-numbered VALID one. -/
def sideEntry (slot : List Byte) (pos : Nat) : Option Nat :=
  (List.range 8).find? (fun e => bit (field slot (16 + e) 1) 7 && field slot (16 + e) 1 % 128 == pos)

/-- The elements of a slice of one group, from position p of the group, with the counters of R84 and R188:
elements, unmatched escapes, stray entries. `limit` entries at most serve the slice's escapes, in order
(R115). The third count is the escapes beyond the limit. An escape code of a NaN row enters as a NaN and not as an
escape (R104), so that it counts in no Ea, Ew, SIDE_PRODUCTS or ESC_OVER; one without an entry counts as unmatched as in
any row (R84). A VALID entry at the position of an escape beyond the limit is a stray one. DESIGN CHOICE (log 57). -/
def sliceElems (f : Fmt) (codes : List Nat) (slot : List Byte) (p limit : Nat) (nanRow : Bool) :
    List Elem × Nat × Nat × Nat :=
  let n := codes.length
  let escs := (List.range n).filter (fun i => f.decode (codes[i]?.getD 0) == .escape)
  let elems := (List.range n).map (fun i =>
    let c := codes[i]?.getD 0
    let ds := f.digitsOf nanRow c
    match f.decode c with
    | .val v => (⟨if nanRow then .nan else v, false, ds⟩ : Elem)
    | .escape =>
      if nanRow then ⟨.nan, false, ds⟩
      else if (escs.filter (· < i)).length < limit then
        match sideEntry slot (p + i) with
        | some e => ⟨bf16Value (field slot (2 * e) 2), true, ds⟩
        | none => ⟨.nan, true, ds⟩
      else ⟨.nan, true, ds⟩)
  let ovr := escs.length - min escs.length limit
  let unmatched := ((escs.take limit).filter (fun i => (sideEntry slot (p + i)).isNone)).length + ovr
  let used := (escs.take limit).filterMap (fun i => sideEntry slot (p + i))
  let stray := ((List.range 8).filter (fun e =>
    let b := field slot (16 + e) 1
    bit b 7 && p ≤ b % 128 && b % 128 < p + n && !used.contains e)).length
  (elems, unmatched, stray, if nanRow then 0 else ovr)

/-- Codes of width w in packed bytes. -/
def unpackRow (f : Fmt) (bs : List Byte) (n : Nat) : List Nat := (List.range n).map (unpackAt bs f.width)

/-- Read a row record to find only whether its row is a NaN row (R101): whether it is, whether the record was poisoned.
ROW_NAN counts at unit u. -/
def State.nanRow (s : State) (t : Tref) (row u : Nat) : Bool × Bool × State :=
  let (rec, ps, s) := s.memRead (t.rrec row) 8
  let nan := (readScale (field rec 0 4)).1.isNone
  (nan, anyP ps, s.count u (ctrId 3 12 2) (b2n nan))

/-- Read n elements of tensor row `row` from column `col`, in one group, as a feeder or load port does: the
elements, whether anything read was poisoned, and the escapes beyond `limit`. `nan` says that the row is a NaN row. The
counters are those of unit u. -/
def State.fetchSlice (s : State) (t : Tref) (f : Fmt) (row col n limit u : Nat) (nan : Bool) :
    List Elem × Bool × Nat × State :=
  let (a, len) := t.codeRange f row col n
  let (bs, ps2, s) := s.memRead a len
  let (slot, ps3, s) :=
    if f.hasEscape then s.memRead (t.side row col) 24 else (List.replicate 24 0, [], s)
  let (es, un, stray, ovr) := sliceElems f (unpackRow f bs n) slot (col % 128) limit nan
  let s := (s.count u (ctrId 3 12 3) un).count u (ctrId 6 12 8) stray
  (es, anyP ps2 || anyP ps3, ovr, s)

/-- Whether everything a slice reads lies in tier memory. -/
def Tref.sliceIn (t : Tref) (f : Fmt) (row col n : Nat) : Bool :=
  let (a, len) := t.codeRange f row col n
  inTier a len && inTier (t.rrec row) 8 && (!f.hasEscape || inTier (t.side row col) 24)
    && (!t.mapEn || inTier (t.mapAddr row col) 1)

/-! ### Conversion bytes and random specifications (R592, R593) -/

/-- A random specification. -/
structure Rspec where
  key : Nat
  stream : Nat
  origin : Nat
deriving DecidableEq, Repr

/-- Read an RSPEC. -/
def readRspec (d : List Byte) (off : Nat) : Rspec := ⟨field d off 8, field d (off + 8) 4, field d (off + 12) 8⟩

/-- The draw of a logical index under a specification (R309). -/
def Rspec.draw (r : Rspec) (n : Nat) : Nat := squallDraw r.key r.stream (r.origin + n)

/-! ### Endpoints (R608) -/

/-- Where a mover reads or writes. -/
inductive Endpoint where
  | local (addr : Nat)
  | remote (chip addr : Nat)
  | host (addr : Nat)
deriving DecidableEq, Repr

/-- Read an endpoint; kind 3 is reserved. -/
def State.endpoint (s : State) (addr kind : Nat) : Option Endpoint :=
  match kind % 4 with
  | 0 => some (.local (addr % 2 ^ 48))
  | 1 =>
    let chip := bits addr 62 48
    if chip = s.chipId then some (.local (addr % 2 ^ 48)) else some (.remote chip (addr % 2 ^ 48))
  | 2 => some (.host addr)
  | _ => none

/-! ### Reading and writing any local region -/

/-- Read n bytes of tier memory, stack memory or the accumulator window: bytes, poison by byte, state. Stack memory is
read through the pins (R426). -/
def State.readLocal (s : State) (a n : Nat) : List Byte × List Bool × State :=
  if inAcc a n then
    let (bs, ps, s) := s.accRead a n
    (bs, (List.range n).map (fun i => (ps[(a % 16 + i) / 16]?).getD false), s)
  else
    let (now, s) := s.pinView a n
    let (bs, ps, s) := s.memRead a n
    let us := unitsOf a n
    (bs, (us.zip ps).flatMap (fun up => List.replicate up.1.2.2 up.2), now.foldl State.putSector s)

/-- Write bytes to a local region with poison by byte: whether a partial write met poison, clamps, state. -/
def State.writeLocal (s : State) (a : Nat) (bs : List Byte) (ps : List Bool) : Bool × Nat × State :=
  if inAcc a bs.length then
    let (n, s) := s.accWrite a bs (fun r => ((ps.drop (r - a)).take 16).any id)
    (false, n, s)
  else
    let (bad, s) := s.memWriteP a bs ps
    (bad, 0, s)

/-! ### Stacks that cannot serve (R44, R377, R381, R383) -/

/-- The stacks that a range of stack memory touches. -/
def stacksOf (a n : Nat) : List Nat :=
  if inStack a (max n 1) then rangeFrom (stackOf a) (stackOf (a + n - 1) + 1 - stackOf a) else []

/-- Whether an address range touches a stack that is FAILED or in TEST state: its accesses end FENCED. DEDUCED (log 11). -/
def State.stackFenced (s : State) (a n : Nat) : Bool :=
  (stacksOf a n).any (fun k => (s.stack k).mode == .failed || (s.stack k).inTest)

/-- Whether an access of work that has begun waits on its handshake: a stack it touches is at throttle level 3 or still training, or one
of its units is being converted (R373, R377). DEDUCED (log 11). -/
def State.stackStalls (s : State) (a n : Nat) : Bool :=
  (stacksOf a n).any (fun k =>
    let x := s.stack k
    (x.mode == .training && !x.retraining) || s.stackHeld k || x.throttle == 3 ||
      x.converting.any (fun g => overlap a n (stackBase + k * stackSize + g * 2 ^ 30) (2 ^ 30)))

/-- Whether an access waits: it stalls, or a stack it touches is about to enter TEST state and takes no new work (R383). DEDUCED (log 11). -/
def State.stackWaits (s : State) (a n : Nat) : Bool :=
  s.stackStalls a n || (stacksOf a n).any (fun k => (s.stack k).enteringTest)

/-! ### Exact adds of full-width partials (R160) -/

/-- The exact add of partials. -/
def exactAdd (ps : List Partial) : Partial :=
  let cin := ps.foldl (fun (c : ColumnIn) p =>
    match p.tag with
    | .finite => { c with sum := c.sum + winValue p.x p.win }
    | .nan => { c with nan := true }
    | .posInf => { c with pinf := true }
    | .negInf => { c with ninf := true }) ColumnIn.zero
  let tag := Tag.finite.after cin
  let wm := ps.foldl (fun m p => min m p.win) 28
  let inx := ps.any (·.inexact)
  if tag ≠ .finite then ⟨0, wm, tag, inx⟩
  else
    match ((List.range (28 - wm + 1).toNat).map (fun n => wm + (n : Int))).find?
        (fun w => fits96 (roundNe (cin.sum / pow2 (8 * w)))) with
    | some w => ⟨roundNe (cin.sum / pow2 (8 * w)), w, .finite, inx || wm < w⟩
    | none => ⟨0, 28, if cin.sum < 0 then .negInf else .posInf, true⟩

/-- The bytes of a partial (Table 5.5). -/
def Partial.bytes (p : Partial) : List Byte := partialRecord p.x p.win p.tag p.inexact

/-- The value of a partial before scales. -/
def Partial.value (p : Partial) : Value :=
  match p.tag with
  | .finite => .ofRat (winValue p.x p.win)
  | .nan => .nan
  | .posInf => .inf false
  | .negInf => .inf true

end Sys2Proof.Machine
end

