-- ==== Sys2Proof/Machine/Flags.lean ====
section
/-! DEFINITION. The flags that work leaves behind: the findings of a conversion and the FLAGS byte of a row record
(R80, R97, R98), and the statuses they lead to. -/

namespace Sys2Proof.Machine

/-- What converting some elements found (Table 3.12): elements that lost range, and elements that were not
finite on entry. -/
structure Findings where
  range : Nat
  nonfinite : Nat
deriving DecidableEq, Repr

/-- No finding. -/
def Findings.none : Findings := ⟨0, 0⟩

/-- The findings of two lots of elements together. -/
def Findings.join (a b : Findings) : Findings := ⟨a.range + b.range, a.nonfinite + b.nonfinite⟩

/-- The finding of one encoded element (R98: at most one of the two). -/
def Findings.of (e : Encoded) : Findings := ⟨b2n e.range, b2n e.nonfinite⟩

/-- The findings of several encoded elements. -/
def Findings.ofAll (es : List Encoded) : Findings := es.foldl (fun f e => f.join (Findings.of e)) Findings.none

/-- FLAGS of a row record (Table 3.8): NONFINITE in bit 0, RANGE in bit 1. -/
def Findings.flags (f : Findings) : Nat := b2n (f.nonfinite ≠ 0) + 2 * b2n (f.range ≠ 0)

/-- Count findings at a unit (Table 3.12). -/
def State.countFindings (s : State) (u : Nat) (f : Findings) : State :=
  (s.count u (ctrId 3 12 0) f.range).count u (ctrId 3 12 1) f.nonfinite

/-- Or findings into the FLAGS of the row record at an address, never clearing a bit (R168). -/
def State.orRowFlags (s : State) (a : Nat) (f : Findings) : State :=
  if f.flags = 0 then s
  else (s.memWrite (a + 5) [s.byte (a + 5) ||| BitVec.ofNat 8 f.flags] false).2

/-- The status that a set of findings about a run earns, under the rank order of R40. -/
def statusOf (inexact widened sealed poison : Bool) : Status :=
  let st := if inexact then Status.inexact else .ok
  let st := if widened then st.join .widened else st
  let st := if sealed then st.join .sealed else st
  if poison then st.join .poison else st

/-- VALUE of a status, where each kind of finding has a count of its own (Table 16.26). -/
def valueOf (st : Status) (inexact widened poison : Nat) : Nat :=
  match st with
  | .inexact => inexact
  | .widened => widened
  | .poison => poison
  | .ok | .sealed | .timeout | .fenced | .aborted => 0

/-! ### Work cut into pieces (R38 to R41) -/

/-- What a piece of some work did: results inexact, blocks widened, outputs written poisoned, and whether a write met poison that it
had to keep. -/
structure PieceDone where
  inexact : Nat
  widened : Nat
  poisoned : Nat
  kept : Bool
deriving DecidableEq, Repr

/-- A piece that found nothing. -/
def PieceDone.none : PieceDone := ⟨0, 0, 0, false⟩

/-- What two pieces did together. -/
def PieceDone.join (a b : PieceDone) : PieceDone :=
  ⟨a.inexact + b.inexact, a.widened + b.widened, a.poisoned + b.poisoned, a.kept || b.kept⟩

/-- The status of a piece. -/
def PieceDone.status (d : PieceDone) : Status := statusOf (d.inexact ≠ 0) (d.widened ≠ 0) false (d.poisoned ≠ 0 || d.kept)

/-- Add what one more part of a piece did. -/
def PieceDone.add (acc : PieceDone × State) (f : State → PieceDone × State) : PieceDone × State :=
  let (d, s) := f acc.2
  (acc.1.join d, s)

/-- Run n equal parts of the work in slot k, which holds `sl`, on the leaves of a kind below its target, piece by piece, and complete it with the report
of its pieces (R38 to R41). A piece is given the unit that runs it, its first part and its number of parts. -/
def State.runPieces (s : State) (k cls : Nat) (kind : NodeKind) (sl : Slot) (n : Nat) (f : Nat → Nat → Nat → State → PieceDone × State) :
    State :=
  let (r, done, s) := (piecesOf (s.workers sl.barred kind (targetOf sl.desc)) n).foldl (fun (acc : Report × PieceDone × State) p =>
    let (d, s) := f (acc.2.2.unitOf p.1) p.2.1 p.2.2 acc.2.2
    (Report.add acc.1 d.status p.1, acc.2.1.join d, s)) ([], PieceDone.none, s)
  s.finishReport k cls r (fun st => valueOf st done.inexact done.widened done.poisoned)

end Sys2Proof.Machine
end

