-- ==== Sys2Proof/Machine/Cells.lean ====
section
/-! DEFINITION. The matrix cells: MATMUL, LOADW, DRAIN and the end of a freeze (chapters 04 and 05, and the group
rules R594 and R595). Work aimed at a group is cut into 32 × 32 tiles; tile (kt, nt) of a group runs on one cell of it,
or on a sibling where that cell can take no piece (DESIGN CHOICE, log 13: the spec leaves the division open, R39). -/

namespace Sys2Proof.Machine

/-! ### Tiles of a group -/

/-- Identifier of the cell that tile (kt, nt) of a node runs on. `fuel` bounds the depth of the tree. DEDUCED (log 13). -/
def tileIdAt : Nat → Place → Nat → Nat → Nat → Nat
  | 0, _, id, _, _ => id
  | fuel + 1, p, id, kt, nt =>
    match p with
    | .cellGroup g => groupNode g + 1 + (kt % 4 * 4 + nt % 4)
    | .cluster d q c =>
      let g := d * 128 + q * 32 + c * 2 + nt / 4 % 2
      tileIdAt fuel (.cellGroup g) id (kt % 4) (nt % 4)
    | .quadrant d q => tileIdAt fuel (.cluster d q (kt / 4 % 4 * 4 + nt / 8 % 4)) id (kt % 4) (nt % 8)
    | .die d => tileIdAt fuel (.quadrant d (kt / 16 % 2 * 2 + nt / 32 % 2)) id (kt % 16) (nt % 32)
    | .root => tileIdAt fuel (.die (kt / 32 % 2)) id (kt % 32) (nt % 64)
    | .cell _ _ | .vectorEngine _ _ _ | .mover _ _ _ _ | .stack _ | .updateEngine _ _ => id

/-- Identifier of the cell of tile (kt, nt) of a node. -/
def tileId (p : Place) (id kt nt : Nat) : Nat := tileIdAt treeFuel p id kt nt

/-- The first cell below a node, or below the nodes above it up to `id`, that work aimed at `id` can reach. -/
def State.sibling (s : State) (barred : List Nat) (id : Nat) : Nat → Nat → Option Nat
  | 0, _ => none
  | fuel + 1, node =>
    match Sys2Proof.Machine.placeOf node with
    | none => none
    | some p =>
      match (rangeFrom node p.span).find? (fun i =>
          (match s.placeOf i with
            | some q => q.kind == .cell
            | none => false) && s.reaches barred id treeFuel i) with
      | some i => some i
      | none => if node = id then none else s.sibling barred id fuel p.parent

/-- The cell that runs the piece whose own cell is `home`, of work aimed at node `id`: that cell where it can be sent a piece, else
a sibling, as the controller moves it (R44, R48, R234). The division is that of the descriptor's dispatch, when some units were `barred`:
what it has dispatched runs where it went, whatever has become of a cell since (R43). DESIGN CHOICE (log 13). -/
def State.pieceCell (s : State) (barred : List Nat) (id home : Nat) : Option Nat :=
  if id = home || s.reaches barred id treeFuel home then some home
  else
    match Sys2Proof.Machine.placeOf home with
    | some p => s.sibling barred id treeFuel p.parent
    | none => none

/-- Run one piece of work aimed at `id`: its meaning is given the unit under whose place the piece's bank and accumulator words
stand, which is its own cell's, and the unit that runs and counts it. Whether it ran, and the cell that reports it. -/
def State.onTile {α : Type} (s : State) (barred : List Nat) (id home : Nat) (dflt : α) (f : Nat → Nat → State → α × State) :
    Bool × Nat × α × State :=
  match s.pieceCell barred id home with
  | some c =>
    let (x, s') := f (s.unitOf home) (s.unitOf c) s
    (true, c, x, s')
  | none => (false, home, dflt, s)

/-- Whether a place is one matrix cell. -/
def Place.isCell : Place → Bool
  | .cell _ _ => true
  | .root | .die _ | .quadrant _ _ | .cluster _ _ _ | .vectorEngine _ _ _ | .mover _ _ _ _ | .cellGroup _
  | .stack _ | .updateEngine _ _ => false

/-- A weight bank of a cell. -/
def CellState.bank (c : CellState) (b : Nat) : Bank := if b % 2 = 0 then c.bank0 else c.bank1

/-- Change a weight bank. -/
def CellState.modBank (c : CellState) (b : Nat) (f : Bank → Bank) : CellState :=
  if b % 2 = 0 then { c with bank0 := f c.bank0 } else { c with bank1 := f c.bank1 }

/-- Lanes a tile covers in its mode: 32, or 16 in quarter mode (Tables 4.5 and 4.6). -/
def modeWidth (q : Option Nat) : Nat := if q.isSome then 16 else 32

/-- Largest legal value of K or K_LOAD for a target (Table 4.5, R594). -/
def kLimit (p : Place) (q : Option Nat) (packed : Bool) : Nat :=
  let m := if packed then 4 else 1
  (if p.isCell then modeWidth q else p.array.1) * m

/-- Largest legal value of N for a target (Table 4.5, R594). -/
def nLimit (p : Place) (q : Option Nat) : Nat := if p.isCell then modeWidth q else p.array.2

/-- Reduction elements of one tile. -/
def tileK (q : Option Nat) (packed : Bool) : Nat := modeWidth q * (if packed then 4 else 1)

/-- Tiles that n items need, at least one. -/
def tilesOf (n w : Nat) : Nat := max 1 ((n + w - 1) / w)

/-! ### LOADW (R115 to R120, R597) -/

/-- A LOADW as its cells read it. -/
structure LoadArgs where
  w : Tref
  /-- W_FMT, the reference format where a map is named (R257). -/
  ref : Fmt
  q : Option Nat
  bank : Nat
  packed : Bool
  k : Nat
  n : Nat
deriving DecidableEq, Repr

/-- The alignment of COL0 (R591). -/
def colAlign (q : Option Nat) (packed : Bool) : Nat := if packed then 128 else if q.isSome then 16 else 32

/-- QMODE and QUARTER of a MODE byte, which only a cell reads (R594). -/
def readQuarter (p : Place) (mode : Nat) : Option Nat := if p.isCell && bit mode 4 then some (bits mode 6 5) else none

/-- Read a LOADW for a target: fields and clamps (Table 4.5). PACKED stands only where every width block of the work is B1; with one that
is not it is read as 0 for all of it. DESIGN CHOICE (log 57). -/
def State.readLoadw (s : State) (p : Place) (d : List Byte) : LoadArgs × Nat :=
  let mode := field d 44 1
  let q := readQuarter p mode
  let (ref, c0) := readArrayFmt (mode % 16)
  let (w0, _) := readTref d 8 1
  let n0 := field d 48 2 % 4096 + 1
  let n := min n0 (nLimit p q)
  let k0 := field d 46 2
  let (wp, _) := readTref d 8 128
  let b1 := if w0.mapEn
    then (wp.blocks n (min k0 (kLimit p q true))).all (fun b => (s.blockFmt wp ref (b.1 * 128) (b.2 * 128)).1 == .b1)
    else ref == .b1
  let pk := bit (field d 45 1) 0
  let packed := pk && b1
  let (w, c1) := readTref d 8 (colAlign q packed)
  let k := min k0 (kLimit p q packed)
  (⟨w, ref, q, bits mode 7 7, packed, k, n⟩,
   (if w0.mapEn then 0 else c0) + c1 + b2n (pk && !b1) + b2n (k0 ≠ k) + b2n (n0 ≠ n))

/-- The slices in which one column of a tile is read: first reduction index within the tile, length, and first lane
row of a bank, in elements (R115). A LOADW with K_LOAD 0 reads nothing. DESIGN CHOICE (log 57). -/
def loadSegments (a : LoadArgs) (k : Nat) : List (Nat × Nat) :=
  if k = 0 then []
  else if a.packed || a.q.isSome then [(0, k)]
  else [(0, min k 16)] ++ (if 16 < k then [(16, k - 16)] else [])

/-- First key of a bank's lane rows for a quarter: lane row 16, or element 64 on a packed bank (Table 4.6). -/
def laneOrigin (q : Option Nat) (packed : Bool) : Nat :=
  match q with
  | none => 0
  | some q => if q / 2 = 0 then 0 else if packed then 64 else 16

/-- First lane column for a quarter (Table 4.6). -/
def columnOrigin (q : Option Nat) : Nat :=
  match q with
  | none => 0
  | some q => if q % 2 = 0 then 0 else 16

/-- Quarters that a LOADW in a mode fills. -/
def quartersOf (q : Option Nat) : List Nat :=
  match q with
  | none => [0, 1, 2, 3]
  | some q => [q]

/-- Quarter of a bank's element k and column j. -/
def quarterAt (packed : Bool) (k j : Nat) : Nat := 2 * (if (if packed then 64 else 16) ≤ k then 1 else 0) + j / 16

/-- What loading one tile did. -/
structure LoadResult where
  poisoned : Bool
  widened : Bool
deriving DecidableEq, Repr

/-- Keep the weights of a bank that lie outside some quarters. -/
def Bank.without (b : Bank) (packed : Bool) (qs : List Nat) : Bank :=
  { b with
    w := b.w.filter (fun kv => !qs.contains (quarterAt packed (kv.1 / 32) (kv.1 % 32)))
    load := b.load.filter (fun kv => !qs.contains kv.1)
    poisoned := b.poisoned.filter (fun q => !qs.contains q) }

/-! ### Residue events (R232 to R236) -/

/-- Mask of some columns. -/
def columnMask (cols : List Nat) : Nat := cols.foldl (fun m j => m ||| 2 ^ j) 0

/-- One residue event of a cell (R232): it is counted, logged with the tag, the accumulator row and the columns, and posted. -/
def State.residueEvent (s : State) (u tag row : Nat) (cols : List Nat) : State :=
  let s := (s.count u (ctrId 7 14 0) 1).sig u 0x03 (tag + row % 512 * 65536 + columnMask cols * 2 ^ 25)
  let s := s.event 0x0201 (s.identOf u) false
  { s with aec := { s.aec with events := mmod 0 s.aec.events u (· + 1) } }

/-- Replays that passed, and replays that failed too: the cell is sent no further piece until the next boundary, and the step is
marked for rollback (R233, R234). -/
def State.replayed (s : State) (u passed lost : Nat) : State :=
  let s := (s.count u (ctrId 7 14 1) passed).count u (ctrId 7 14 2) lost
  if lost = 0 then s
  else
    let s := s.modUnit u (fun x => { x with suspended := true })
    { s with aec := { s.aec with rollbackPending := true }, res := { s.res with spoiled := true } }

/-- The amount of an error. -/
def errorAmount (e : DatapathError) : Rat := (e.amount : Rat) * pow2 e.shift

/-- An element's digits fail their check at an attempt: the errors that stand in them have a sum that a residue sees (Table 7.2,
R237). -/
def digitsFail (es : List DatapathError) (attempt row index : Nat) : Bool :=
  residue ((es.filter (fun e => e.entry && e.attempt == attempt && e.row == row && e.index == index)).foldl
    (fun r e => r + errorAmount e) 0) != 0

/-- The errors of one tile. -/
def tileErrors (es : List DatapathError) (kt nt : Nat) : List DatapathError := es.filter (fun e => e.kt == kt && e.nt == nt)

/-- A finite value that is off by some amount. -/
def Value.off (v : Value) (r : Rat) : Value :=
  match v with
  | .fin x z => .fin (x + r) z
  | .nan | .inf _ => v

/-- A weight as the load port leaves it, from the errors that its element meets (R228, R236): errors that its digit check does not
see, and errors of the bank entry, stand in its digits or in its side entry. An element whose second load fails too becomes a NaN, so
that every word it feeds does. DEDUCED (log 57). -/
def Weight.load (w : Weight) (again failed : Bool) (es : List DatapathError) : Weight :=
  if failed then ⟨[.special' .nan], false, .zero, 0⟩
  else
    (es.filter (fun e => !e.entry || e.attempt == b2n again)).foldl (fun w e =>
      if e.side && !e.entry then { w with side := if w.esc then w.side.off (errorAmount e) else w.side }
      else { w with digits := w.digits ++ [Digit.fin (e.amount < 0) e.amount.natAbs e.shift] }) w

/-- Load one tile into a bank of the cell at place u, filling the quarters `qs` of it (R116 to R120), as unit `w` counts it. `rec` is
the load record, `m` the formats of the tile's blocks, `es` the errors that its load meets; `cut` says that the tile is cut into pieces
at width blocks (R190). DEDUCED (log 17). -/
def State.loadTile (s : State) (u w : Nat) (a : LoadArgs) (m : BlockFmts) (es : List DatapathError) (tag : Nat)
    (rec : List Byte) (qs : List Nat) (cut : Bool) : LoadResult × State :=
  let segs := loadSegments a a.k
  let k0 := laneOrigin a.q a.packed
  let j0 := columnOrigin a.q
  let cols := List.range a.n
  let fmtOf (j : Nat) : Fmt := (m.at a.ref (a.w.row0 + j) a.w.col0).1
  let fmts := cols.map fmtOf
  let fmt := fmts.headD a.ref
  let cuts := if cut then
      (cols.filter (fun j => j ≠ 0 && (a.w.row0 + j) % 128 = 0)).map (fun j => (j, fmtOf j)) else []
  let failing (t : Nat) : List (Nat × Nat) :=
    ((es.filter (fun e => e.index < a.k && e.row < a.n && digitsFail es t e.row e.index)).map (fun e => (e.index, e.row))).eraseDups
  let again := ((failing 0).map (·.1)).eraseDups
  let fails := (failing 1).filter (fun f => again.contains f.1)
  let (ws, poison, ovr, s) := cols.foldl
    (fun (acc : List (Nat × Weight) × Bool × Nat × State) j =>
      let row := a.w.row0 + j
      let (f, pm) := m.at a.ref row a.w.col0
      let (nan, pr, s) := if segs.isEmpty then (false, false, acc.2.2.2) else acc.2.2.2.nanRow a.w row w
      segs.foldl (fun (acc : List (Nat × Weight) × Bool × Nat × State) sg =>
        let (xs, p, o, s) := acc.2.2.2.fetchSlice a.w f row (a.w.col0 + sg.1) sg.2 (if a.packed then 128 else 8) w nan
        let new := (xs.zip (List.range xs.length)).map (fun ei =>
          let k := sg.1 + ei.2
          ((k0 + k) * 32 + j0 + j, (Weight.ofCode ei.1.digits ei.1.esc ei.1.v).load (again.contains k)
            (fails.contains (k, j)) (es.filter (fun e => e.index == k && e.row == j))))
        (acc.1 ++ new, acc.2.1 || p, acc.2.2.1 + o, s)) (acc.1, acc.2.1 || pm || pr, acc.2.2.1, s))
    ([], false, 0, s)
  let s := s.count w (ctrId 4 8 6) ovr
  let s := again.foldl (fun s k => s.residueEvent w tag 0
    (((failing 0).filter (fun f => f.1 == k)).map (fun f => j0 + f.2))) s
  let lost := ((fails.map (·.1)).eraseDups).length
  let s := s.replayed w (again.length - lost) lost
  let s := s.modCell u (fun c => c.modBank a.bank (fun b =>
    let same := b.fmt == fmt && b.packed == a.packed
    let b := if a.q.isSome && !same then { b with w := [], load := [], poisoned := [] } else b
    let b := b.without a.packed qs
    let ws := ws.filter (fun kv => qs.contains (quarterAt a.packed (kv.1 / 32) (kv.1 % 32)))
    { fmt := fmt, packed := a.packed
      w := ws.foldl (fun m kv => mput Weight.zero m kv.1 kv.2) b.w
      load := qs.foldl (fun m q => mput [] m q rec) b.load
      poisoned := if poison then (List.range 4).filter (fun q => b.poisoned.contains q || qs.contains q)
                  else b.poisoned
      cuts := cuts }))
  (⟨poison, a.w.mapEn && fmts.any (fun f => a.ref.rung < f.rung)⟩, s)

/-- Whether everything a LOADW reads lies in tier memory (R587). -/
def State.loadRangesOk (s : State) (a : LoadArgs) : Bool :=
  a.k = 0 || (List.range a.n).all (fun j =>
    inTier (a.w.rrec (a.w.row0 + j)) 8 &&
    (List.range (tilesOf a.k 16)).all (fun t =>
      let f := (s.blockFmt a.w a.ref (a.w.row0 + j) (a.w.col0 + 16 * t)).1
      16 * t ≥ a.k || a.w.sliceIn f (a.w.row0 + j) (a.w.col0 + 16 * t) (min 16 (a.k - 16 * t))))

/-- The tile (kt, nt) of a LOADW aimed at a group, and the record of it. -/
def LoadArgs.tile (a : LoadArgs) (d : List Byte) (kt nt : Nat) : LoadArgs × List Byte :=
  let w := tileK a.q a.packed
  let k := min w (a.k - w * kt)
  let n := min (modeWidth a.q) (a.n - modeWidth a.q * nt)
  let row := a.w.row0 + modeWidth a.q * nt
  let col := a.w.col0 + w * kt
  let mode := field d 44 1
  ({ a with w := { a.w with row0 := row, col0 := col }, k := k, n := n },
   patch (patch (patch (patchTref d 8 row col) 44 [BitVec.ofNat 8 (if a.q.isSome then mode else mode - bits mode 4 4 * 16)])
     46 (natLe 2 k)) 48 (natLe 2 (n - 1)))

/-- The tiles that k reduction elements and n columns are cut into, 32 × 32 or a quarter's 16 × 16, four times as many elements of a
packed bank. A tile never crosses a width block along the reduction, whose start R591 aligns; across the output channels its columns are
cut again at width blocks (R190), and the pieces run at the one cell of the tile. DESIGN CHOICE (log 13). -/
def workTiles (q : Option Nat) (packed : Bool) (k n : Nat) : List (Nat × Nat) :=
  (List.range (tilesOf k (tileK q packed))).flatMap (fun kt =>
    (List.range (tilesOf n (modeWidth q))).map (fun nt => (kt, nt)))

/-- LOADW (R116 to R120, R137, R190, R257, R594) with the errors that its element entries meet (R236). -/
def runLoadw (es : List DatapathError) (k : Nat) (sl : Slot) (s : State) : State :=
  let id := targetOf sl.desc
  match s.placeOf id with
  | none => s
  | some p =>
    let (a, clamps) := s.readLoadw p sl.desc
    let s := s.clamp sl.source clamps
    let mixed := p.isCell && a.w.mapEn &&
      (((a.w.blocks a.n a.k).map (fun b => (s.blockFmt a.w a.ref (b.1 * 128) (b.2 * 128)).1)).eraseDups.length > 1)
    if !s.loadRangesOk a || mixed then (s.clamp sl.source 1).finish k 0 .aborted 0
    else
      let (m, s) := s.blockFmts a.w a.ref (a.w.blocks a.n a.k)
      let (r, poison, s) := (workTiles a.q a.packed a.k a.n).foldl
        (fun (acc : Report × Nat × State) t =>
          let (ta, rec) := a.tile sl.desc t.1 t.2
          let (ran, cell, r, s) := acc.2.2.onTile sl.barred id (tileId p id t.1 t.2) ⟨false, false⟩ (fun u w s =>
            let (r, s) := s.loadTile u w ta m (tileErrors es t.1 t.2) (tagOf sl.desc) rec (quartersOf a.q) (!p.isCell && a.w.mapEn)
            (r, s.count w (ctrId 4 8 4) (1 + ((s.cell u).bank a.bank).cuts.length)))
          let st := if ran then statusOf false r.widened false r.poisoned else .fenced
          (Report.add acc.1 st cell, acc.2.1 + (if r.poisoned then (quartersOf a.q).length else 0), s))
        ([], 0, s)
      s.finishReport k 0 r (fun st => valueOf st 0 0 poison)

/-- LOADW. -/
def execLoadw (work : ArrayWork) (s : State) : Host.Outcome State Fault Refusal :=
  .next (s.withDesc work.slot [0x02] (runLoadw work.errors work.slot))

/-- Load a bank again from its records, quarter by quarter, as a spare does that takes over (R46, R119). Quarters with one record are
filled by one load of it, which counts at the spare as a LOADW does. DESIGN CHOICE (log 57). -/
def State.reloadBank (s : State) (u bank : Nat) (from_ : Bank) : State :=
  ((from_.load.map (·.2)).eraseDups).foldl (fun s d =>
    let (a, _) := s.readLoadw (.cell 0 0) d
    if s.loadRangesOk a then
      let (m, s) := s.blockFmts a.w a.ref (a.w.blocks a.n a.k)
      (s.loadTile u u { a with bank := bank } m [] (tagOf d) d
        ((from_.load.filter (fun kv => kv.2 == d)).map (·.1)) (!from_.cuts.isEmpty)).2
    else s) s

/-! ### MATMUL (R100 to R156) -/

/-- A MATMUL as its cells read it. -/
structure MatArgs where
  a : Tref
  /-- A_FMT, the reference format where a map is named (R257). -/
  ref : Fmt
  q : Option Nat
  bank : Nat
  packed : Bool
  add : Bool
  k : Nat
  n : Nat
  accBase : Nat
  rows : Nat
  /-- TAG, which RETRY entries of the signal log carry. -/
  tag : Nat
  /-- Units that could take no piece at the dispatch. -/
  barred : List Nat
deriving DecidableEq, Repr

/-- Rows of the accumulator region (R122). -/
def accRows (q : Option Nat) : Nat := if q.isSome then 256 else 512

/-- Read a MATMUL for a target: fields and clamps (Table 4.5, R111, R594). Where the banks of a group's cells differ in packing, that of
the cell of tile (0, 0) decides for all pieces. DESIGN CHOICE (log 57). -/
def State.readMatmul (s : State) (p : Place) (id : Nat) (d : List Byte) (barred : List Nat) : MatArgs × Nat :=
  let mode := field d 44 1
  let q := readQuarter p mode
  let bank := bits mode 7 7
  let packed := ((s.cell (s.unitOf (tileId p id 0 0))).bank bank).packed
  let (ref, c0) := readArrayFmt (mode % 16)
  let (a, c1) := readTref d 8 (colAlign q packed)
  let k0 := field d 46 2
  let k := min k0 (kLimit p q packed)
  let n0 := field d 48 2 % 4096 + 1
  let n := min n0 (nLimit p q)
  let ab := field d 50 2 % 512
  let rows := field d 52 4 % 2 ^ 20 + 1
  let other := packed && (if a.mapEn
    then (a.blocks rows k).any (fun b => (s.blockFmt a ref (b.1 * 128) (b.2 * 128)).1 != .b1) else ref ≠ .b1)
  (⟨a, if packed then .b1 else ref, q, bank, packed, bit (field d 45 1) 0, k, n, ab % accRows q,
     rows, tagOf d, barred⟩,
   (if a.mapEn then 0 else c0) + c1 + b2n other + b2n (k0 ≠ k) + b2n (n0 ≠ n) + b2n (accRows q ≤ ab))

/-- Format in which a tile of the streamed row i is read, from the blocks' formats (R190), and whether its map entry was poisoned; a
packed bank reads A as B1 (R111). DEDUCED (log 17). -/
def MatArgs.fmtAt (a : MatArgs) (m : BlockFmts) (kt i : Nat) : Fmt × Bool :=
  let (f, p) := m.at a.ref (a.a.row0 + i) (a.a.col0 + tileK a.q a.packed * kt)
  (if a.packed then .b1 else f, p)

/-- Base window code of a row (R143). -/
def baseWin (fa fw : Fmt) : Int := (fa.emin + fw.emin - 16) / 8

/-- What one streamed row did in one tile. -/
structure RowDone where
  /-- Accumulator row. -/
  row : Nat
  marked : Bool
  rounds : Nat
  /-- Some word was written poisoned. -/
  wrote : Bool
  /-- Something poisoned was read. -/
  read : Bool
  widened : Bool
deriving DecidableEq, Repr

/-- Whether a tile of k reduction elements and n columns reads quarter x of its bank (R120). -/
def readsQuarter (a : MatArgs) (k n x : Nat) : Bool :=
  match a.q with
  | some q => x == q && k ≠ 0
  | none => (if x / 2 = 0 then k ≠ 0 else (if a.packed then 64 else 16) < k) && (x % 2 = 0 || 16 < n)

/-- The pieces that n columns of a bank are cut into: first column, number of columns, and weight format (R190). -/
def Bank.pieces (b : Bank) (n : Nat) : List (Nat × Nat × Fmt) :=
  let cs := (0, b.fmt) :: b.cuts.filter (fun c => c.1 < n)
  (cs.zip ((cs.tail.map (·.1)) ++ [n])).map (fun c => (c.1.1, c.2 - c.1.1, c.1.2))

/-- Side products of a streamed row, its elements with their reduction indices, in each of n columns (R113). -/
def sideProducts (eks : List (Elem × Nat)) (wt : Nat → Nat → Weight) (n : Nat) : List Nat :=
  (List.range n).map (fun j => (eks.filter (fun ek => ek.1.esc || (wt ek.2 j).esc)).length)

/-- The side-path handshakes S of a row (R113). -/
def sideShakes (side : List Nat) : Nat := (side.foldl max 0 + 3) / 4

/-- The digit passes of a row (R107). -/
def passes (packed : Bool) (f fw : Fmt) : Nat := if packed then 1 else f.digits * fw.digits

/-- Stream row i of a MATMUL through one piece of tile (kt, nt), n columns from c0 with weights of format fw, whose words stand at cell u
and which unit w runs (R100 to R124, R134 to R136, R143 to R156, R228 to R237). `m` holds the formats of A's blocks, `es` the errors that
the tile meets; `add` says that the row's words hold a present sum to add to. -/
def State.matPiece (s : State) (u w : Nat) (a : MatArgs) (m : BlockFmts) (es : List DatapathError) (add : Bool)
    (kt i c0 n : Nat) (fw : Fmt) : RowDone × State :=
  let tw := tileK a.q a.packed
  let k := min tw (a.k - tw * kt)
  let r := (a.accBase + i) % accRows a.q + (match a.q with | some q => 256 * (q / 2) | none => 0)
  let j0 := columnOrigin a.q + c0
  let b := (s.cell u).bank a.bank
  if a.k = 0 then
    if a.add then (⟨r, false, 0, false, false, false⟩, s)
    else
      let (x, s) := s.addRow u w r ((List.range n).map (fun j => (j0 + j, ColumnIn.zero, false))) (baseWin a.ref fw) false
        (fun _ _ => 0) (fun _ => false)
      (⟨r, x.marked, x.rounds, x.poisoned, x.masked, false⟩, s)
  else
    let (f, pm) := a.fmtAt m kt i
    let (nan, pn, s) := s.nanRow a.a (a.a.row0 + i) w
    let (xs, px, _, s) := s.fetchSlice a.a f (a.a.row0 + i) (a.a.col0 + tw * kt) k k w nan
    let pa := px || pn
    let k0 := laneOrigin a.q a.packed
    let wt (kk j : Nat) : Weight := mget Weight.zero b.w ((k0 + kk) * 32 + j0 + j)
    let eks := xs.zip (List.range xs.length)
    let ins := (List.range n).map (fun j =>
      let cin := eks.foldl (fun (c : ColumnIn) ek => c.add ek.1 (wt ek.2 j)) ColumnIn.zero
      let pq := b.poisoned.any (fun x => readsQuarter a k (c0 + n) x && x % 2 == (j0 + j) / 16)
      (j0 + j, cin, pa || pq))
    let side := sideProducts eks wt n
    let sCount := sideShakes side
    let p := passes a.packed f fw
    let es := es.filter (fun e => e.row == i)
    let error (t col : Nat) : Rat := es.foldl (fun x e =>
      if e.attempt != t then x
      else if e.entry then (if e.index < k then x + errorAmount e * (wt e.index (col - j0)).v.rat else x)
      else if e.index == col then x + errorAmount e else x) 0
    let entry (t : Nat) : Bool := es.any (fun e => e.index < k && digitsFail es t i e.index)
    let (x, s) := s.addRow u w r ins (baseWin f fw) add error entry
    let s := x.events.foldl (fun s cols => s.residueEvent w a.tag r cols) s
    let s := s.replayed w x.passed x.lost
    let s := (List.range x.rounds).foldl (fun s _ => s.sig w 0x0B (a.tag + r * 65536)) s
    let s := (s.count w (ctrId 4 8 0) 1).count w (ctrId 4 8 1) (max p sCount)
    let s := (s.count w (ctrId 4 8 2) (sCount - p)).count w (ctrId 4 8 3) (side.foldl (· + ·) 0)
    let qp := b.poisoned.any (fun x => readsQuarter a k (c0 + n) x)
    (⟨r, x.marked, x.rounds, x.poisoned, pa || pm || qp || x.poisoned || x.masked, a.a.mapEn && a.ref.rung < f.rung⟩, s)

/-- What two pieces of one row did. -/
def RowDone.join (x y : RowDone) : RowDone :=
  ⟨x.row, x.marked || y.marked, x.rounds + y.rounds, x.wrote || y.wrote, x.read || y.read, x.widened || y.widened⟩

/-- Stream row i of a MATMUL through the pieces of tile (kt, nt). -/
def State.matRow (s : State) (u w : Nat) (a : MatArgs) (m : BlockFmts) (es : List DatapathError) (add : Bool)
    (kt nt i : Nat) : RowDone × State :=
  let n := min (modeWidth a.q) (a.n - modeWidth a.q * nt)
  match ((s.cell u).bank a.bank).pieces n with
  | [] => (⟨0, false, 0, false, false, false⟩, s)
  | p :: ps =>
    ps.foldl (fun (acc : RowDone × State) p =>
      let (r, s) := acc.2.matPiece u w a m es add kt i p.1 p.2.1 p.2.2
      (acc.1.join r, s)) (s.matPiece u w a m es add kt i p.1 p.2.1 p.2.2)

/-- Whether everything a MATMUL reads lies in tier memory (R587). -/
def State.matRangesOk (s : State) (a : MatArgs) : Bool :=
  a.k = 0 || (List.range a.rows).all (fun i =>
    (List.range (tilesOf a.k 16)).all (fun t =>
      let f := if a.packed then .b1 else (s.blockFmt a.a a.ref (a.a.row0 + i) (a.a.col0 + 16 * t)).1
      16 * t ≥ a.k || a.a.sliceIn f (a.a.row0 + i) (a.a.col0 + 16 * t) (min 16 (a.k - 16 * t))))

/-- What a MATMUL did in all. -/
structure MatDone where
  report : Report
  /-- Cell and accumulator row of each row marked. -/
  marked : List (Nat × Nat)
  /-- Cell and accumulator row of each row written poisoned. -/
  poisoned : List (Nat × Nat)
deriving DecidableEq, Repr

/-- Nothing done. -/
def MatDone.none : MatDone := ⟨[], [], []⟩

/-- The tiles of a MATMUL. -/
def MatArgs.tiles (a : MatArgs) : List (Nat × Nat) := workTiles a.q a.packed a.k a.n

/-- Key of the number of K-slices a group's accumulators hold for a row and a column tile. -/
def sliceKey (id row nt : Nat) : Nat := id * 2 ^ 15 + row * 64 + nt

/-- Stream row i through every tile of a MATMUL aimed at a node. A K-slice that the present sum of a group does not have yet starts
it afresh, whatever its words held (R39, R595). -/
def State.matRowAll (s : State) (p : Place) (id : Nat) (a : MatArgs) (bf : BlockFmts) (es : List DatapathError) (i : Nat)
    (m : MatDone) : MatDone × State :=
  let kts := tilesOf a.k (tileK a.q a.packed)
  let row := (a.accBase + i) % accRows a.q
  let had (nt : Nat) : Nat := mget 1 s.tree.kSlices (sliceKey id row nt)
  let (m, s) := a.tiles.foldl (fun (acc : MatDone × State) t =>
    let home := tileId p id t.1 t.2
    let (ran, cell, r, s) := acc.2.onTile a.barred id home ⟨0, false, 0, false, false, false⟩
      (fun u w s => s.matRow u w a bf (tileErrors es t.1 t.2) (a.add && (p.isCell || t.1 < had t.2)) t.1 t.2 i)
    let u := s.unitOf home
    let m := acc.1
    let st := if ran then statusOf (r.marked || r.rounds ≠ 0) r.widened false (r.read || r.wrote) else .fenced
    (⟨Report.add m.report st cell,
      if r.marked && !m.marked.contains (u, r.row) then (u, r.row) :: m.marked else m.marked,
      if r.wrote && !m.poisoned.contains (u, r.row) then (u, r.row) :: m.poisoned else m.poisoned⟩, s)) (m, s)
  (m, if p.isCell || (a.k = 0 && a.add) then s else
    { s with tree := { s.tree with kSlices := (List.range (tilesOf a.n 32)).foldl (fun ks nt =>
        mmod 1 ks (sliceKey id row nt) (fun v => if a.add then max v kts else kts)) s.tree.kSlices } })

/-- Complete a MATMUL (Table 4.7, R156, R619): at each cell that ran a piece of it K_ZERO counts where K is 0 (Table 4.8), and else the
gaps of a throttled row feeder (R735). -/
def State.finishMatmul (s : State) (k : Nat) (p : Place) (id : Nat) (a : MatArgs) (m : MatDone) : State :=
  let s := a.tiles.foldl (fun s t =>
    match s.pieceCell a.barred id (tileId p id t.1 t.2) with
    | some c => if a.k = 0 then s.count (s.unitOf c) (ctrId 4 8 5) 1 else s.idleGaps (s.unitOf c)
    | none => s) s
  s.finishReport k 0 m.report (fun st => valueOf st m.marked.length 0 m.poisoned.length)

/-- The formats of A's blocks, each map entry read once (R67, R68, R190); with K = 0 nothing is read (R136). -/
def State.matFmts (s : State) (a : MatArgs) : BlockFmts × State := s.blockFmts a.a a.ref (a.a.blocks a.rows a.k)

/-- Run every row of a MATMUL. -/
def State.matAll (s : State) (p : Place) (id : Nat) (a : MatArgs) (es : List DatapathError) : MatDone × State :=
  let (bf, s) := s.matFmts a
  (List.range a.rows).foldl (fun (acc : MatDone × State) i => acc.2.matRowAll p id a bf es i acc.1) (MatDone.none, s)

/-! ### DRAIN (R167 to R178, R595, R598) -/

/-- A DRAIN as the drain stage reads it. -/
structure DrainArgs where
  out : Nat
  stride : Nat
  sa : Option Nat
  sw : Option Nat
  bias : Option (Fmt × Nat)
  fmt : Fmt
  rnd : Rnd
  clip : Bool
  raw : Bool
  clear : Bool
  maxw : Option Nat
  orrec : Nat
  q : Option Nat
  accBase : Nat
  n : Nat
  rows : Nat
  idxRow : Nat
  rspec : Rspec
  /-- Units that could take no piece at the dispatch. -/
  barred : List Nat
deriving DecidableEq, Repr

/-- FMT of a DRAIN (Table 5.6): FP32, BF16, F8M or F8X; any other code is read as BF16. -/
def readOutFmt (code : Nat) : Fmt × Nat :=
  let (f, n) := readFmt code
  match f with
  | .fp32 | .bf16 | .f8m | .f8x => (f, n)
  | .b1 | .t2 | .i3 | .i4 | .f4 | .f6 | .i8 => (.bf16, n + 1)

/-- BIAS_FMT (Table 5.6). -/
def readBiasFmt (code : Nat) : Option Fmt × Nat :=
  match code % 4 with
  | 0 => (none, 0)
  | 1 => (some .bf16, 0)
  | 2 => (some .fp32, 0)
  | _ => (none, 1)

/-- Whether a DRAIN of these bytes needs its extension block (R598). -/
def drainNeedsExt (d : List Byte) : Bool :=
  let conv := field d 36 1
  let opts := field d 37 1
  let f := (readOutFmt (conv % 16)).1
  !bit opts 0 && (f == .f8m || f == .f8x || bits conv 5 4 == 1 || bit opts 6)

/-- Read a DRAIN for a target, with the chained MATMUL's mode, ACC_BASE and ROWS where there is one (R172). -/
def readDrain (p : Place) (d ext : List Byte) (chain : Option MatArgs) (barred : List Nat) : DrainArgs × Nat :=
  let conv := field d 36 1
  let opts := field d 37 1
  let raw := bit opts 0
  let (fmt, c0) := readOutFmt (conv % 16)
  let (rnd, c1) := readRnd (bits conv 5 4)
  let (bf, c2) := readBiasFmt (bits opts 4 3)
  let q0 := if p.isCell && bit opts 7 then some (field d 38 1 % 4) else none
  let q := match chain with | some m => m.q | none => q0
  let ab0 := field d 40 2 % 512
  let n0 := field d 42 2 % 4096 + 1
  let n := min n0 (nLimit p q)
  let ab := match chain with | some m => m.accBase | none => ab0 % accRows q
  let rows := match chain with | some m => m.rows | none => field d 44 4 % 2 ^ 20 + 1
  let idx0 := field ext 12 4
  let reads := drainNeedsExt d
  let idx := if idx0 = 0 then n else idx0
  (⟨addr48 d 8, field d 14 4, if bit opts 1 && !raw then some (addr48 d 18) else none,
    if bit opts 2 && !raw then some (addr48 d 24) else none,
    if raw then none else bf.map (fun f => (f, addr48 d 30)),
    fmt, rnd, bit conv 6, raw, bit opts 5, if bit opts 6 && !raw then some (addr48 ext 6) else none,
    addr48 ext 0, q, ab, n, rows, idx, readRspec ext 16, barred⟩,
   (if raw then 0 else c0 + c1 + c2) + b2n (n0 ≠ n) + b2n (reads && idx0 = 0)
     + b2n (chain.isNone && accRows q ≤ ab0))

/-- Bytes of one output element (R598). -/
def DrainArgs.elemBytes (a : DrainArgs) : Nat := if a.raw then 16 else (a.fmt.width + 7) / 8

/-- Whether a DRAIN converts under a target row scale (R168). -/
def DrainArgs.scaled (a : DrainArgs) : Bool := !a.raw && (a.fmt == .f8m || a.fmt == .f8x)

/-- Max-abs words of a row (R598). -/
def DrainArgs.words (a : DrainArgs) (p : Place) : Nat := if p.isCell then 1 else (a.n + 31) / 32

/-- Whether everything a DRAIN touches lies in tier memory (R587). -/
def DrainArgs.rangesOk (a : DrainArgs) (p : Place) : Bool :=
  rowsIn inTier a.out (a.n * a.elemBytes) a.stride a.rows &&
  (match a.sa with | some x => inTier x (8 * a.rows) | none => true) &&
  (match a.sw with | some x => inTier x (8 * a.n) | none => true) &&
  (match a.bias with | some x => inTier x.2 (a.n * wideBytes x.1) | none => true) &&
  (!a.scaled || inTier a.orrec (8 * a.rows)) &&
  (match a.maxw with | some x => inTier x (4 * a.words p * a.rows) | none => true)

/-- The exact value of R168 and its special cases (Table 5.7). -/
def drainValue (v : Value) (sa sw : Option Rat) (bias : Value) : Value :=
  match v, sa, sw, bias with
  | .nan, _, _, _ => .nan
  | _, none, _, _ => .nan
  | _, _, none, _ => .nan
  | _, _, _, .nan => .nan
  | .inf n, _, _, .inf m => if n = m then .inf n else .nan
  | .inf n, _, _, .fin _ _ => .inf n
  | .fin _ _, _, _, .inf m => .inf m
  | .fin r _, some a, some b, .fin x _ => .ofRat (r * a * b + x)

/-- One column's scale, bias and poison, read once per DRAIN at its cell. -/
structure ColumnRead where
  sw : Option Rat
  bias : Value
  poison : Bool
deriving DecidableEq, Repr

/-- Read a row record as a unit that applies its scale (R82): the scale, whether it was poisoned. ROW_NAN and clamps
count. -/
def State.readRowScale (s : State) (a u : Nat) (src : ClampSource) : Option Rat × Bool × State :=
  let (bs, ps, s) := s.memRead a 8
  let (sc, c) := readScale (field bs 0 4)
  (sc, anyP ps, (s.count u (ctrId 3 12 2) (b2n sc.isNone)).clamp src (b2n c))

/-- Read one column's sW record and bias. -/
def State.drainColumn (s : State) (u : Nat) (a : DrainArgs) (src : ClampSource) (c : Nat) : ColumnRead × State :=
  let (sw, p1, s) := match a.sw with
    | some x => s.readRowScale (x + 8 * c) u src
    | none => (some 1, false, s)
  let (b, p2, s) := match a.bias with
    | some x => s.readElem x.1 (x.2 + c * wideBytes x.1)
    | none => (.zero, false, s)
  (⟨sw, b, p1 || p2⟩, s)

/-- The words of one output, one for each K-slice, as partials, with poison. -/
def State.drainWord (s : State) (us : List Nat) (r j : Nat) : List Partial × Bool × State :=
  us.foldl (fun (acc : List Partial × Bool × State) u =>
    let (w, h, p, s) := acc.2.2.readWord u r j
    (acc.1 ++ [⟨w.x, h.win, w.tag, h.inexact⟩], acc.2.1 || p, s)) ([], false, s)

/-- Clear the active words of a row and its slots after a DRAIN with CLEAR at 1 (R173, R848): whether a masked word that the
change of a window read was poisoned. -/
def State.clearRow (s : State) (u r j0 n : Nat) : Bool × State :=
  let cols := (List.range n).map (j0 + ·)
  let s := cols.foldl (fun s j => s.writeWord u u r j 0 .finite false) s
  [0, 1].foldl (fun (acc : Bool × State) h =>
    let masked := maskedOf h cols
    if masked.length = 16 then acc
    else if masked.isEmpty then (acc.1, acc.2.putHalf u r h HalfSlot.reset)
    else
      let (p, s) := acc.2.readSlot u r h cols (-2) false
      let old := (s.cell u).slot r h
      let win := s.startWindow u r h cols (-2) false
      let (_, s) := if old.win = win then (false, s) else s.rewriteMasked u r masked old.win win
      (acc.1 || p, s.putHalf u r h ⟨win, old.inexact, if classify 7 4 old.mark == .poisoned then old.mark else 0⟩))
    (false, s)

/-- What draining one row did. -/
structure DrainRow where
  /-- Cells whose row carried a mark. -/
  marks : Nat
  /-- An exact add of K-slices set INEXACT (R160, R595). -/
  added : Bool
  poisoned : Bool
  read : Bool
deriving DecidableEq, Repr

/-- The vector engine of the cluster that holds a cell. -/
def clusterEngine (u : Nat) : Nat :=
  match placeOf u with
  | some (.cell g _) => clusterNode (g / 128) (g / 32 % 4) (g / 2 % 16) + 1
  | _ => u

/-- Drain row i of one column tile, whose K-slices stand at the cells `us` and are drained by the unit `u` (R168 to R175, R595). An
exact add of several slices that sets INEXACT counts at the vector engine of the cluster (R181, DESIGN CHOICE, log 13). The elements of
a row whose scale reads NaN count CONV_NONFINITE beside ROW_NAN (Table 3.12; DESIGN CHOICE, log 57). DEDUCED (log 13). -/
def State.drainTileRow (s : State) (us : List Nat) (u : Nat) (a : DrainArgs) (src : ClampSource) (words nt i : Nat)
    (cols : List ColumnRead) : DrainRow × State :=
  let w := modeWidth a.q
  let n := min w (a.n - w * nt)
  let j0 := columnOrigin a.q
  let r := (a.accBase + i) % accRows a.q + (match a.q with | some q => 256 * (q / 2) | none => 0)
  let halves := [0, 1].filter (fun h => (List.range n).any (fun j => (j0 + j) / 16 == h))
  let (ws, s) := (List.range n).foldl (fun (acc : List (Partial × Bool) × State) j =>
    let (ps, p, s) := acc.2.drainWord us r (j0 + j)
    (acc.1 ++ [(match ps with | [x] => x | xs => exactAdd xs, p)], s)) ([], s)
  let marks := (us.filter (fun u => halves.any (fun h => ((s.cell u).slot r h).inexact))).length
  let s := us.foldl (fun s u =>
    (s.count u (ctrId 5 8 4) 1).count u (ctrId 5 8 5) (b2n (halves.any (fun h => ((s.cell u).slot r h).inexact)))) s
  let sums := if us.length < 2 then 0 else (ws.filter (fun x => x.1.inexact)).length
  let s := s.count (clusterEngine u) (ctrId 5 8 6) sums
  let (pc, s) := if a.clear then us.foldl (fun (acc : Bool × State) u =>
      let (p, s) := acc.2.clearRow u r j0 n
      (acc.1 || p, s)) (false, s) else (false, s)
  let b := a.elemBytes
  let addr := a.out + i * a.stride + w * nt * b
  if a.raw then
    let ps := ws.map (·.2)
    let (bad, s) := s.memWriteP addr (ws.flatMap (fun x => x.1.bytes)) (flagsPer 16 ps)
    (⟨marks, sums ≠ 0, ps.any id, ps.any id || bad || pc⟩, s)
  else
    let (sa, pa, s) := match a.sa with
      | some x => s.readRowScale (x + 8 * i) u src
      | none => (some 1, false, s)
    let (so, po, s) := if a.scaled then s.readRowScale (a.orrec + 8 * i) u src else (some 1, false, s)
    let cs := ws.zip (cols.zip (List.range n))
    let es := cs.map (fun x =>
      let v := drainValue x.1.1.value sa x.2.1.sw x.2.1.bias
      let t := match so with | some t => v.divScale t | none => .nan
      let c := w * nt + x.2.2
      let draw := if a.rnd == .stochastic then a.rspec.draw (i * a.idxRow + c) else 0
      encode a.fmt a.rnd a.clip 0 draw t)
    let ps := cs.map (fun x => x.1.2 || pa || po || x.2.1.poison)
    let f := Findings.ofAll es
    let s := s.countFindings u f
    let s := if a.rnd == .stochastic then s.count u ctrSqEvals (squallEvals (a.rspec.origin + i * a.idxRow + w * nt) n) else s
    let (bad, s) := s.memWriteP addr (es.flatMap (fun e => natLe b e.code)) (flagsPer b ps)
    let s := if a.scaled then s.orRowFlags (a.orrec + 8 * i) f else s
    let (mbad, s) := match a.maxw with
      | none => (false, s)
      | some x =>
        let stored := es.map (fun e => match so with
          | some t => ((a.fmt.value e.code).mulScale t).abs
          | none => .nan)
        let m := stored.foldl Value.max2 .nan
        s.memWriteP (x + (i * words + nt) * 4) (natLe 4 (toFp32 m)) (List.replicate 4 (ps.any id))
    (⟨marks, sums ≠ 0, ps.any id, ps.any id || bad || mbad || pc⟩, s)

/-- What a DRAIN did in all. -/
structure DrainDone where
  report : Report
  marks : Nat
  rows : Nat
deriving DecidableEq, Repr

/-- Nothing drained. -/
def DrainDone.none : DrainDone := ⟨[], 0, 0⟩

/-- Where the K-slices of a column tile of a row stand, the unit that drains them, and the cell that reports it: `none` where no cell
can take the piece. -/
def State.sliceCells (s : State) (barred : List Nat) (p : Place) (id row nt : Nat) : List Nat × Option Nat × Nat :=
  let n := if p.isCell then 1 else mget 1 s.tree.kSlices (sliceKey id row nt)
  let home := tileId p id 0 nt
  let c := s.pieceCell barred id home
  ((List.range n).map (fun kt => s.unitOf (tileId p id kt nt)), c.map s.unitOf, c.getD home)

/-- Columns of a DRAIN as its cells read them once (R168): by column tile. -/
def State.drainColumns (s : State) (p : Place) (id : Nat) (a : DrainArgs) (src : ClampSource) :
    List (List ColumnRead) × State :=
  let w := modeWidth a.q
  (List.range (tilesOf a.n w)).foldl (fun (acc : List (List ColumnRead) × State) nt =>
    let u := acc.2.unitOf (tileId p id 0 nt)
    let (cs, s) := (List.range (min w (a.n - w * nt))).foldl (fun (acc : List ColumnRead × State) c =>
      let (x, s) := if a.raw then (⟨some 1, .zero, false⟩, acc.2) else acc.2.drainColumn u a src (w * nt + c)
      (acc.1 ++ [x], s)) ([], acc.2)
    (acc.1 ++ [cs], s)) ([], s)

/-- Drain row i of every column tile. -/
def State.drainRowAll (s : State) (p : Place) (id : Nat) (a : DrainArgs) (src : ClampSource)
    (cols : List (List ColumnRead)) (i : Nat) (m : DrainDone) : DrainDone × State :=
  let (rp, mks, po, s) := (cols.zip (List.range cols.length)).foldl
    (fun (acc : Report × Nat × Bool × State) c =>
      let s := acc.2.2.2
      let (us, w, cell) := s.sliceCells a.barred p id ((a.accBase + i) % accRows a.q) c.2
      match w with
      | some w =>
        let (r, s) := s.drainTileRow us w a src (a.words p) c.2 i c.1
        (Report.add acc.1 (statusOf (r.marks ≠ 0 || r.added) false false (r.read || r.poisoned)) cell, acc.2.1 + r.marks,
          acc.2.2.1 || r.poisoned, s)
      | none => (Report.add acc.1 .fenced cell, acc.2.1, acc.2.2.1, s))
    (m.report, m.marks, false, s)
  (⟨rp, mks, m.rows + b2n po⟩, s)

/-- Complete a DRAIN (R178, R619). -/
def State.finishDrain (s : State) (k : Nat) (m : DrainDone) : State :=
  s.finishReport k 0 m.report (fun st => valueOf st m.marks 0 m.rows)

/-- DRAIN: unchained, or over the rows that the chained MATMUL has written (R125, R172). Where the MATMUL has more
rows than the accumulator region, it runs with the MATMUL, row by row. -/
def runDrain (k : Nat) (sl : Slot) (s : State) : State :=
  let id := targetOf sl.desc
  match s.placeOf id with
  | none => s
  | some p =>
    let chain := if sl.chain = [] then none else some (s.readMatmul p id sl.chain sl.barred).1
    let (a, clamps) := readDrain p sl.desc sl.ext chain sl.barred
    let s := s.clamp sl.source clamps
    if !a.rangesOk p then (s.clamp sl.source 1).finish k 0 .aborted 0
    else
      let (cols, s) := s.drainColumns p id a sl.source
      let (m, s) := (List.range a.rows).foldl (fun (acc : DrainDone × State) i =>
        acc.2.drainRowAll p id a sl.source cols i acc.1) (DrainDone.none, s)
      s.finishDrain k m

/-- What stands behind a MATMUL with DRAIN_CHAIN at 1 in its ring (R125). -/
inductive ChainNext where
  /-- The next descriptor has not been accepted. -/
  | notYet
  /-- It is not a DRAIN that names the same target. -/
  | other
  /-- It is such a DRAIN, in a slot. -/
  | drain (slot : Nat) (sl : Slot)
  /-- It is such a DRAIN and has already completed without running (R34, R42, R43, R587). -/
  | gone
deriving DecidableEq, Repr

/-- Find the descriptor behind a MATMUL in its ring. DEDUCED (log 17). -/
def State.chainNext (s : State) (sl : Slot) : ChainNext :=
  match (mget SqRing.reset s.host.sq sl.ring).behind.find? (fun b => b.1 == sl.seq + 1) with
  | none => .notYet
  | some (_, next) =>
    if opcodeOf next = 0x03 && targetOf next = targetOf sl.desc then
      match s.findSeq sl.ring (sl.seq + 1) with
      | none => .gone
      | some (j, d) =>
        match d.phase with
        | .done => .gone
        | .waiting | .running => .drain j d
    else .other

/-- Run a MATMUL whose rows are drained as it goes, with the DRAIN behind it (R125). -/
def State.matDrain (s : State) (k j : Nat) (d : Slot) (p : Place) (id : Nat) (a : MatArgs) (es : List DatapathError) :
    State :=
  let (da, clamps) := readDrain p d.desc d.ext (some a) d.barred
  let s := s.clamp d.source clamps
  if !da.rangesOk p then
    let (m, s) := s.matAll p id a es
    (((s.finishMatmul k p id a m).clamp d.source 1)).finish j 0 .aborted 0
  else
    let (cols, s) := s.drainColumns p id da d.source
    let (bf, s) := s.matFmts a
    let (m, dm, s) := (List.range a.rows).foldl (fun (acc : MatDone × DrainDone × State) i =>
      let (m, s) := acc.2.2.matRowAll p id a bf es i acc.1
      let (dm, s) := s.drainRowAll p id da d.source cols i acc.2.1
      (m, dm, s)) (MatDone.none, DrainDone.none, s)
    (s.finishMatmul k p id a m).finishDrain j dm

/-- A DRAIN dispatched before the chained one, which the drain stage of a cell runs first (R177), unless it waits itself for the rows of
the MATMUL. DESIGN CHOICE (log 17). -/
def State.drainBefore (s : State) (j : Nat) (d mat : Slot) : Bool :=
  s.host.slots.any (fun kv => kv.1 != j && (match kv.2 with
    | some o => o.phase == .running && opcodeOf o.desc == 0x03 && decide (o.dispatched < d.dispatched) &&
        nodesMeet (targetOf o.desc) (targetOf d.desc) && !s.waitsOn o mat
    | none => false))

/-- MATMUL (R100 to R156, R594 to R596) with the errors that its datapath meets (R228 to R237). A DRAIN behind one with DRAIN_CHAIN at 1
that ends ABORTED or never runs is an unchained one, with its own fields. DEDUCED (log 17). -/
def runMatmul (es : List DatapathError) (k : Nat) (sl : Slot) (s : State) : State :=
  let id := targetOf sl.desc
  match s.placeOf id with
  | none => s
  | some p =>
    let chained := bit (field sl.desc 45 1) 1
    let next := if chained then s.chainNext sl else .gone
    let (a, clamps) := s.readMatmul p id sl.desc sl.barred
    let run (s : State) : State :=
      let s := s.clamp sl.source clamps
      if !s.matRangesOk a then (s.clamp sl.source 1).finish k 0 .aborted 0
      else
        let (m, s) := s.matAll p id a es
        s.finishMatmul k p id a m
    match next with
    | .notYet => s
    | .gone => run s
    | .other => run (s.clamp sl.source 1)
    | .drain j d =>
      if !s.matRangesOk a then run s
      else if a.rows ≤ accRows a.q then run (s.putSlot j (some { d with chain := sl.desc }))
      else
        match d.phase with
        | .running =>
          if s.drainBefore j d sl then s.freeze k sl.leaves else (s.clamp sl.source clamps).matDrain k j d p id a es
        | .waiting | .done => s

/-- MATMUL. -/
def execMatmul (work : ArrayWork) (s : State) : Host.Outcome State Fault Refusal :=
  .next (s.withDesc work.slot [0x01] (runMatmul work.errors work.slot))

/-- DRAIN. -/
def execDrain (slot : Nat) (s : State) : Host.Outcome State Fault Refusal :=
  .next (s.withDesc slot [0x03] (runDrain slot))

/-- The handshake that a frozen cell, engine or controller waits on resumes: every leaf at or below the node goes on from the state the
freeze found (R50, R51). DEDUCED (log 12). -/
def execFreezeResume (node : Nat) (s : State) : Host.Outcome State Fault Refusal :=
  .next (s.tellStates { s with tree := { s.tree with
    frozen := (s.tree.frozen.map (·.1)).foldl (fun m k =>
      mput [] m k ((s.frozenLeaves k).filter (fun l => !(l = node || inSubtree node l)))) [] } } node)

end Sys2Proof.Machine
end

