-- ==== Sys2Proof/Machine/Quant.lean ====
section
/-! DEFINITION. The vector engines' reach, and the statistics and quantisation passes: STATS, QUANT and the wire
block (chapter 06; R275 to R277). -/

namespace Sys2Proof.Machine

/-! ### What a vector engine reaches (R276) -/

/-- A range that a vector engine can read or write: tier memory or the accumulator window. -/
def inVe (a n : Nat) : Bool := inTier a n || inAcc a n

/-- Cut a list into k pieces of n items. -/
def splitEvery {α : Type} (n : Nat) : Nat → List α → List (List α)
  | 0, _ => []
  | k + 1, xs => xs.take n :: splitEvery n k (xs.drop n)

/-- Read n wide elements that stand one after another: each value, and whether any of its bytes was poisoned. -/
def State.readVals (s : State) (f : Fmt) (a n : Nat) : List (Value × Bool) × State :=
  let b := wideBytes f
  let (bs, ps, s) := s.readLocal a (n * b)
  (((splitEvery b n bs).zip (splitEvery b n ps)).map (fun x => (f.value (leNat x.1), x.2.any id)), s)

/-- Read n wide elements that stand `stride` apart. -/
def State.readColumn (s : State) (f : Fmt) (a stride n : Nat) : List (Value × Bool) × State :=
  (List.range n).foldl (fun (acc : List (Value × Bool) × State) i =>
    let (x, s) := acc.2.readVals f (a + i * stride) 1
    (acc.1 ++ x, s)) ([], s)

/-- Write n codes of b bytes each, some poisoned: whether a partial write met poison, clamps, state. -/
def State.writeCodes (s : State) (a b : Nat) (cs : List Nat) (ps : List Bool) : Bool × Nat × State :=
  s.writeLocal a (cs.flatMap (natLe b)) (flagsPer b ps)

/-- Write some bytes, wholly poisoned or not: whether they stand poisoned afterwards. -/
def State.writeRec (s : State) (a : Nat) (bs : List Byte) (p : Bool) (src : ClampSource) : Bool × State :=
  let (bad, n, s) := s.writeLocal a bs (List.replicate bs.length p)
  (bad || p, s.clamp src n)

/-! ### Rotated rows -/

/-- The sign vector of column block C (R211), and the Squall evaluation it takes. -/
def rotSigns (key stream base c : Nat) : Nat := squallWord key stream (base + c)

/-- Rotate a row of FP32 values group by group (R210): every position of each group, padding included. Counters of the
engine u. -/
def State.rotateRow (s : State) (u form key stream base : Nat) (xs : List Value) : List Value × State :=
  let nc := (xs.length + 127) / 128
  let xs := xs ++ List.replicate (nc * 128 - xs.length) Value.zero
  ((splitEvery 128 nc xs).zip (List.range nc)).foldl (fun (acc : List Value × State) g =>
    let (ys, bad) := rotateBlock form (rotSigns key stream base g.2) g.1
    (acc.1 ++ ys, ((acc.2.count u (ctrId 6 12 9) 1).count u (ctrId 6 12 10) (b2n bad)).count u ctrSqEvals 1)) ([], s)

/-! ### Statistics (R191 to R195) -/

/-- A statistics record. -/
structure StatRec where
  maxabs : Value
  finmax : Value
  finmin : Value
  finmaxv : Value
deriving DecidableEq, Repr

/-- The record of a set of values (Table 6.4). -/
def statOf (xs : List Value) : StatRec :=
  xs.foldl (fun r x =>
    if x.isFin then ⟨r.maxabs.max2 x.abs, r.finmax.max2 x.abs, r.finmin.min2 x, r.finmaxv.max2 x⟩
    else { r with maxabs := r.maxabs.max2 x.abs }) ⟨.nan, .nan, .nan, .nan⟩

/-- The record of some partial max-abs words (R194). -/
def statCombine (xs : List Value) : StatRec :=
  let m := xs.foldl (fun m x => m.max2 x.abs) .nan
  ⟨m, if m.isFin then m else .nan, .nan, .nan⟩

/-- The 16 bytes of a record. -/
def StatRec.bytes (r : StatRec) : List Byte :=
  natLe 4 (toFp32 r.maxabs) ++ natLe 4 (toFp32 r.finmax) ++ natLe 4 (toFp32 r.finmin) ++ natLe 4 (toFp32 r.finmaxv)

/-- A record from its bytes. -/
def StatRec.ofBytes (bs : List Byte) : StatRec :=
  ⟨fp32Value (field bs 0 4), fp32Value (field bs 4 4), fp32Value (field bs 8 4), fp32Value (field bs 12 4)⟩

/-- ROT_FORM of STATS and QUANT: 2 and 3 are read as 0 (Tables 6.5 and 6.7). DEDUCED (log 18). -/
def readRotForm (code : Nat) : Nat × Nat := if code % 4 < 2 then (code % 4, 0) else (0, 1)

/-- STATS as the engine reads it. -/
structure StatsArgs where
  src : Nat
  stride : Nat
  stat : Nat
  fmt : Fmt
  combine : Bool
  axis : Bool
  rot : Bool
  form : Nat
  parts : Nat
  rows : Nat
  cols : Nat
  key : Nat
  stream : Nat
  base : Nat
deriving DecidableEq, Repr

/-- Read a STATS (Tables 6.5 and 16.10). -/
def readStats (d : List Byte) : StatsArgs × Nat :=
  let ctl := field d 24 1
  let (f, c0) := readSrcFmt (ctl % 16)
  let (form, c1) := readRotForm (field d 25 1)
  let combine := bit ctl 4
  let rot := bit ctl 6
  (⟨addr48 d 8, field d 14 4, addr48 d 18, f, combine, bit ctl 5, rot && !combine, form, field d 26 1 % 64 + 1,
    field d 28 4 % 2 ^ 20 + 1, field d 32 4 % 2 ^ 20 + 1, field d 36 8, field d 44 4, field d 48 8⟩,
   c0 + c1 + b2n (combine && rot))

/-- Records a STATS writes. -/
def StatsArgs.records (a : StatsArgs) : Nat := if a.axis && !a.combine then a.cols else a.rows

/-- Whether a STATS lies within the engine's reach (R276). -/
def StatsArgs.rangesOk (a : StatsArgs) : Bool :=
  rowsIn inVe a.src (if a.combine then 4 * a.parts else a.cols * wideBytes a.fmt) a.stride a.rows
    && inVe a.stat (16 * a.records)

/-- Handshakes of one record of a STATS (Table 8.6). -/
def StatsArgs.work (a : StatsArgs) : Nat :=
  let n := if a.axis && !a.combine then a.rows else a.cols
  if a.combine then (a.parts + 63) / 64 else if a.rot then 16 * ((n + 127) / 128) else (n + 63) / 64

/-- One record of a STATS: whether it stands poisoned. -/
def State.statsOne (s : State) (a : StatsArgs) (u : Nat) (src : ClampSource) (r : Nat) : Bool × State :=
  let (xs, s) :=
    if a.combine then s.readVals .fp32 (a.src + r * a.stride) a.parts
    else if a.axis then s.readColumn a.fmt (a.src + r * wideBytes a.fmt) a.stride a.rows
    else s.readVals a.fmt (a.src + r * a.stride) a.cols
  let vs := xs.map (·.1)
  let (vs, s) := if a.rot then s.rotateRow u a.form a.key a.stream a.base vs else (vs, s)
  let sr := if a.combine then statCombine vs else statOf vs
  let s := s.count u (ctrId 6 12 0) 1
  s.writeRec (a.stat + 16 * r) sr.bytes (xs.any (·.2)) src

/-- VE_HANDSHAKES of Table 8.8. DEDUCED (log 19). -/
def ctrVeHandshakes : Nat := ctrId 8 8 1

/-- Work of n handshakes at the lanes of a vector engine, with the gaps of a throttled die (R735). -/
def State.veWork (s : State) (u n : Nat) : State := (s.count u ctrVeHandshakes n).idleGaps u

/-- STATS (R191 to R195). -/
def runStats (k : Nat) (sl : Slot) (s : State) : State :=
  let (a, clamps) := readStats sl.desc
  let s := s.clamp sl.source clamps
  if !a.rangesOk then (s.clamp sl.source 1).finish k 1 .aborted 0
  else
    s.runPieces k 1 .vectorEngine sl a.records (fun u r0 n s =>
      (rangeFrom r0 n).foldl (fun acc r => PieceDone.add acc (fun s =>
        let (p, s) := s.statsOne a u sl.source r
        (⟨0, 0, b2n p, false⟩, s))) (PieceDone.none, s.veWork u (n * a.work)))

/-- STATS. -/
def execStats (slot : Nat) (s : State) : Host.Outcome State Fault Refusal :=
  .next (s.withDesc slot [0x04] (runStats slot))

/-! ### QUANT (R196 to R214, R221, R849) -/

/-- A value is less than another; NaN is neither less nor greater. -/
def Value.below (a b : Value) : Bool :=
  match a, b with
  | .nan, _ | _, .nan => false
  | .fin x _, .fin y _ => x < y
  | .fin _ _, .inf n => !n
  | .inf n, .fin _ _ => n
  | .inf n, .inf m => n && !m

/-- QUANT as the engine reads it. -/
structure QuantArgs where
  src : Nat
  stride : Nat
  stat : Nat
  code : Nat
  rrec : Nat
  side : Nat
  fmt : Fmt
  transpose : Bool
  rot : Bool
  form : Nat
  csum : Option Nat
  zp : Bool
  base : Fmt
  mapIn : Option Nat
  cap : Nat
  ratio : Nat
  /-- RATIO holds 7 and ROT 0: a clamp where a row takes its scale by RATIO (R207, R214). -/
  ratio7 : Bool
  rnd : Rnd
  pitch : Nat
  rows : Nat
  cols : Nat
  mapOut : Nat
  rspec : Rspec
  rotStream : Nat
  rotBase : Nat
deriving DecidableEq, Repr

/-- Read a QUANT (Tables 6.7 and 16.11, R214). With BASE_MAP at 1 BASE_FMT is not read, and an illegal code in it counts no clamp. DESIGN
CHOICE (log 57). -/
def readQuant (d ext : List Byte) : QuantArgs × Nat :=
  let ctl := field d 42 1
  let bs := field d 43 1
  let rd := field d 44 1
  let (f, c0) := readSrcFmt (ctl % 16)
  let (form, c1) := readRotForm (bits rd 6 5)
  let (rnd, c2) := readRnd (bits rd 4 3)
  let ratio := min 6 (rd % 8)
  let cap := min 4 (bits bs 7 5)
  let (pitch, c3) := readPitch (field d 45 1)
  let map := bit bs 4
  let (base, c4) := if map then (Fmt.i8, 0) else readArrayFmt (bs % 16)
  let rot := bit ctl 5
  let zp := bit ctl 7
  (⟨addr48 d 8, field d 14 4, addr48 d 18, addr48 d 24, addr48 d 30, addr48 d 36, f, bit ctl 4, rot, form,
    if bit ctl 6 then some (addr48 ext 12) else none, zp && !rot, base,
    if map then some (addr48 ext 6) else none, cap, if rot then 0 else ratio, rd % 8 = 7 && !rot, rnd, pitch,
    field d 48 4 % 2 ^ 20 + 1, field d 52 4 % 2 ^ 20 + 1, addr48 ext 0, readRspec ext 20, field ext 40 4, field ext 44 8⟩,
   c0 + c1 + c2 + c3 + c4 + b2n (4 < bits bs 7 5) + b2n (rot && zp))

/-- Column blocks of a QUANT. -/
def QuantArgs.nc (a : QuantArgs) : Nat := (a.cols + 127) / 128
/-- Row blocks of a QUANT. -/
def QuantArgs.nr (a : QuantArgs) : Nat := (a.rows + 127) / 128

/-- Bytes of a width block in a format. -/
def blockNeed (f : Fmt) : Nat := 2048 * f.width

/-- The next format of the overflow ladder (Table 6.6). -/
def Fmt.overflowTo : Fmt → Option Fmt
  | .t2 | .i3 => some .i4
  | .i4 | .f4 => some .f6
  | .f6 => some .f8m
  | .b1 | .f8m | .f8x | .i8 | .bf16 | .fp32 => none

/-- The widest format that overflow may reach from a base under a cap, and one that must also fit a pitch. -/
def overflowLimit : Nat → Fmt → Nat → Option Nat → Fmt
  | 0, f, _, _ => f
  | fuel + 1, f, cap, pitch =>
    match f.overflowTo with
    | some g =>
      if g.rung ≤ cap && (match pitch with | some p => blockNeed g ≤ p | none => true)
      then overflowLimit fuel g cap pitch else f
    | none => f

/-- One width block as QUANT takes it: base format, bytes between blocks, widest format, whether its map entry was
poisoned, and the clamps it judges: cap, pitch, cap lowered, ZP_MODE (R207). -/
structure QuantBlock where
  base : Fmt
  pitch : Nat
  limit : Fmt
  poison : Bool
  clamps : List Bool
deriving DecidableEq, Repr

/-- Plan a block (Table 6.7). -/
def QuantArgs.block (a : QuantArgs) (base : Fmt) (poison : Bool) : QuantBlock :=
  let cap := max a.cap base.rung
  let pitch := max a.pitch (blockNeed base)
  let lim := overflowLimit 4 base cap (some pitch)
  ⟨base, pitch, lim, poison,
   [a.cap < base.rung, a.pitch < blockNeed base, lim ≠ overflowLimit 4 base cap none, a.zp && !base.isInt]⟩

/-- The format from which the rows of a row block derive their scale (R849). -/
def QuantArgs.rowFmt (a : QuantArgs) (blocks : List QuantBlock) (r : Nat) : Fmt :=
  scaleFmt ((blocks.drop (r * a.nc)).take a.nc |>.map (·.base))

/-- RATIO 7 counts a clamp where some row derives its scale by RATIO: one with a zero point uses ρ = 1 whatever RATIO holds (R207,
R214). -/
def QuantArgs.ratioClamp (a : QuantArgs) (blocks : List QuantBlock) : Bool :=
  a.ratio7 && (List.range a.nr).any (fun r => !(a.zp && (a.rowFmt blocks r).isInt))

/-- Read the input width map (R207: each entry read under R67 or R68 counts once). -/
def State.quantBlocks (s : State) (a : QuantArgs) : List QuantBlock × Nat × State :=
  let n := a.nr * a.nc
  match a.mapIn with
  | none => (List.replicate n (a.block a.base false), 0, s)
  | some m =>
    let (bs, ps, s) := s.readLocal m n
    let fs := bs.map (fun b => readArrayFmt (b.toNat % 16))
    ((fs.zip ps).map (fun x => a.block x.1.1 x.2), fs.foldl (fun c x => c + x.2) 0, s)

/-- Whether a QUANT lies within the engine's reach (R276). -/
def QuantArgs.rangesOk (a : QuantArgs) (blocks : List QuantBlock) : Bool :=
  let sr := if a.transpose then a.cols else a.rows
  let sc := if a.transpose then a.rows else a.cols
  rowsIn inVe a.src (sc * wideBytes a.fmt) a.stride sr && inVe a.stat (16 * a.rows) &&
  (blocks.zip (List.range blocks.length)).all (fun b => inVe (a.code + b.2 * b.1.pitch) (blockNeed b.1.limit)) &&
  inVe a.rrec (8 * a.rows) && inVe a.side (24 * a.rows * a.nc) && inVe a.mapOut (a.nr * a.nc) &&
  (match a.csum with | some c => inVe c (4 * a.rows * a.nc) | none => true)

/-- One output row before its codes are formed. -/
structure QuantRow where
  /-- Quotients by the scale, all positions; `none` for padding. -/
  ts : List (Option Value)
  scale : Rat
  z : Int
  poison : Bool
  /-- First logical index of the row's draws. -/
  origin : Nat
  /-- Set where a group found more than eight escapes that its row cannot keep (R203, R204, R85). -/
  rowNan : Bool
  findings : Findings
  wrote : Bool
deriving DecidableEq, Repr

/-- Whether an element of a block escapes (R200); with a zero point only one that is not finite does (R214). -/
def escapes (f : Fmt) (zp : Bool) (t : Option Value) : Bool :=
  f.hasEscape && (match t with
    | none => false
    | some v => match v with
      | .fin r _ => !zp && (f.qmax < r || r < -f.qmax)
      | .nan | .inf _ => true)

/-- Prepare an output row: read source and statistics, rescan where needed, derive scale and zero point (R196 to R198,
R212, R849). DEDUCED (log 18). -/
def State.quantRow (s : State) (a : QuantArgs) (u : Nat) (blocks : List QuantBlock) (i : Nat) : QuantRow × State :=
  let b := wideBytes a.fmt
  let (xs, s) :=
    if a.transpose then s.readColumn a.fmt (a.src + i * b) a.stride a.cols
    else s.readVals a.fmt (a.src + i * a.stride) a.cols
  let vs := xs.map (·.1)
  let (real, s) := if a.rot then s.rotateRow u a.form a.rspec.key a.rotStream a.rotBase vs else (vs, s)
  let (sb, sp, s) := s.readLocal (a.stat + 16 * i) 16
  let rec0 := StatRec.ofBytes sb
  let f0 := a.rowFmt blocks (i / 128)
  let zp := a.zp && f0.isInt
  let missing := if zp then rec0.finmin.isNan || rec0.finmaxv.isNan else rec0.finmax.isNan
  let again := missing && !rec0.maxabs.isNan
  let sr := if again then statOf real else rec0
  let s := s.count u (ctrId 6 12 1) (b2n again)
  let (sc, z) := if zp then rowScaleZp sr.finmin sr.finmaxv f0 else (rowScale sr.finmax f0 a.ratio, 0)
  let stale := (real.filter (fun v => v.isFin &&
    (if zp then v.below sr.finmin || sr.finmaxv.below v else sr.finmax.below v.abs))).length
  let s := s.count u (ctrId 6 12 2) stale
  let o := a.rspec.origin + i * 128 * a.nc
  let s := if a.rnd == .stochastic then s.count u ctrSqEvals (squallEvals o real.length) else s
  let ts := real.map (fun v => some (v.divScale sc)) ++ List.replicate (128 * a.nc - real.length) none
  (⟨ts, sc, z, xs.any (·.2) || anyPoison sp, o, false, Findings.none, false⟩, s)

/-- One group's codes: codes, side entries (position and BF16 pattern), findings, escapes beyond the eighth, whether its
row becomes a NaN row, and elements written as an escape code. -/
structure GroupOut where
  codes : List Nat
  entries : List (Nat × Nat)
  findings : Findings
  excess : Nat
  rowNan : Bool
  escaped : Nat
deriving DecidableEq, Repr

/-- The draw of a position. -/
def QuantArgs.draw (a : QuantArgs) (n : Nat) : Nat :=
  if a.rnd == .stochastic then squallDraw a.rspec.key a.rspec.stream n else 0

/-- Encode one group of a row in a format (R185, R200 to R204, R208). -/
def QuantArgs.group (a : QuantArgs) (f : Fmt) (zp : Bool) (z : Int) (o : Nat) (ts : List (Option Value)) : GroupOut :=
  (ts.zip (List.range ts.length)).foldl (fun (g : GroupOut) ti =>
    match ti.1 with
    | none => { g with codes := g.codes ++ [if f.isInt then wrap f.width z else 0] }
    | some t =>
      let e := encode f a.rnd true z (a.draw (o + ti.2)) t
      if escapes f zp ti.1 then
        let fin := t.isFin
        if g.entries.length < 8 then
          let side := encode .bf16 a.rnd false 0 (a.draw (o + ti.2)) t
          { g with codes := g.codes ++ [f.escapeCode], entries := g.entries ++ [(ti.2, side.code)]
                   escaped := g.escaped + 1
                   findings := g.findings.join ⟨0, b2n !fin⟩ }
        else
          { g with codes := g.codes ++ [e.code], findings := g.findings.join ⟨b2n fin, b2n !fin⟩
                   escaped := g.escaped + b2n !fin
                   excess := g.excess + 1, rowNan := g.rowNan || !fin || zp }
      else
        { g with codes := g.codes ++ [e.code], findings := g.findings.join (Findings.of e)
                 rowNan := g.rowNan || (f == .b1 && e.nonfinite) }) ⟨[], [], Findings.none, 0, false, 0⟩

/-- A side slot from its entries (R186, R187). -/
def sideSlot (es : List (Nat × Nat)) : List Byte :=
  let vals := es.map (·.2) ++ List.replicate (8 - es.length) 0
  let poss := es.map (fun e => 128 + e.1) ++ List.replicate (8 - es.length) 0
  vals.flatMap (natLe 2) ++ poss.flatMap (natLe 1)

/-- The code sum of a group (R221): 0 for a block in F4, F6, F8M or F8X. -/
def codeSum (f : Fmt) (codes : List Nat) : Int :=
  if f.isInt || f == .b1 then
    codes.foldl (fun (acc : Int) c => match f.decode c with
      | .val (.fin r _) => acc + r.floor
      | .val _ | .escape => acc) 0
  else 0

/-- The format a block is written in, and the rungs it was widened (R202, R204). -/
def widenBlock : Nat → Fmt → Fmt → Bool → List (List (Option Value)) → Fmt × Nat
  | 0, f, _, _, _ => (f, 0)
  | fuel + 1, f, lim, zp, gs =>
    if zp || f == lim || gs.all (fun ts => (ts.filter (escapes f zp)).length ≤ 8) then (f, 0)
    else
      match f.overflowTo with
      | some g =>
        let (h, n) := widenBlock fuel g lim zp gs
        (h, n + 1)
      | none => (f, 0)

/-- Write one group of one row (R184, R187, R208, R221). -/
def State.quantGroup (s : State) (a : QuantArgs) (u kb c : Nat) (blk : QuantBlock) (f : Fmt) (zp : Bool)
    (src : ClampSource) (i : Nat) (row : QuantRow) : QuantRow × State :=
  let z := if zp then row.z else 0
  let g := a.group f zp z (row.origin + 128 * c) ((row.ts.drop (128 * c)).take 128)
  let p := row.poison || blk.poison
  let s := (s.count u (ctrId 6 12 3) 128).count u (ctrId 6 12 4) g.escaped
  let s := (s.count u (ctrId 6 12 7) g.excess).countFindings u g.findings
  let (b1, s) := s.writeRec (a.code + kb * blk.pitch + i % 128 * 16 * f.width) (packRow f.width g.codes) p src
  let (b2, s) := s.writeRec (a.side + (i * a.nc + c) * 24) (sideSlot g.entries) p src
  let (b3, s) := match a.csum with
    | some cs => s.writeRec (cs + (i * a.nc + c) * 4) (natLe 4 (wrap 32 (codeSum f g.codes))) p src
    | none => (false, s)
  ({ row with rowNan := row.rowNan || g.rowNan, findings := row.findings.join g.findings
              wrote := row.wrote || b1 || b2 || b3 }, s)

/-- Write one row block of a QUANT (R202 to R208). -/
def State.quantRowBlock (s : State) (a : QuantArgs) (u : Nat) (src : ClampSource) (blocks : List QuantBlock) (r : Nat) :
    PieceDone × State :=
  let is := rangeFrom (128 * r) (min 128 (a.rows - 128 * r))
  let (rows, s) := is.foldl (fun (acc : List QuantRow × State) i =>
    let (q, s) := acc.2.quantRow a u blocks i
    (acc.1 ++ [q], s)) ([], s)
  let f0 := a.rowFmt blocks r
  let (rows, wid, kept, s) := (List.range a.nc).foldl
    (fun (acc : List QuantRow × Nat × Bool × State) c =>
      let kb := r * a.nc + c
      let blk := blocks.getD kb (a.block a.base false)
      let zp := a.zp && f0.isInt && blk.base.isInt
      let (f, steps) := widenBlock 4 blk.base blk.limit zp (acc.1.map (fun q => (q.ts.drop (128 * c)).take 128))
      let s := (acc.2.2.2.count u (ctrId 6 12 5) (b2n (steps ≠ 0))).count u (ctrId 6 12 6) steps
      let (rows, s) := (acc.1.zip is).foldl (fun (x : List QuantRow × State) qi =>
        let (q, s) := x.2.quantGroup a u kb c blk f zp src qi.2 qi.1
        (x.1 ++ [q], s)) ([], s)
      let (bad, s) := s.writeRec (a.mapOut + kb) [BitVec.ofNat 8 (steps * 16 + f.code)] blk.poison src
      (rows, acc.2.1 + b2n (steps ≠ 0), acc.2.2.1 || bad, s)) (rows, 0, false, s)
  let (bad, s) := (rows.zip is).foldl (fun (acc : Nat × State) qi =>
    let q := qi.1
    let s := acc.2.count u (ctrId 3 12 2) (b2n q.rowNan)
    let flags := q.findings.flags ||| b2n q.rowNan
    let sc := if q.rowNan then Fmt.nanCode .fp32 else toFp32 (.ofRat q.scale)
    let (b, s) := s.writeRec (a.rrec + 8 * qi.2) (natLe 4 sc ++ natLe 1 (wrap 8 q.z) ++ natLe 1 flags ++ [0, 0])
      q.poison src
    (acc.1 + b2n (b || q.wrote), s)) (0, s)
  (⟨0, wid, bad, kept⟩, s)

/-- Handshakes of n rows of a QUANT (Table 8.6). -/
def QuantArgs.work (a : QuantArgs) (n : Nat) : Nat := if a.rot then 16 * n * a.nc else (n * a.cols + 63) / 64

/-- QUANT (R196 to R209). Its ranges are judged before anything is read (R276). -/
def runQuant (k : Nat) (sl : Slot) (s : State) : State :=
  let (a, clamps) := readQuant sl.desc sl.ext
  let s := s.clamp sl.source clamps
  let mapOk := match a.mapIn with | some m => inVe m (a.nr * a.nc) | none => true
  if !(mapOk && a.rangesOk (s.quantBlocks a).1) then (s.clamp sl.source 1).finish k 1 .aborted 0
  else
    let (blocks, entryClamps, s) := s.quantBlocks a
    let once := (List.range 4).filter (fun n => blocks.any (fun b => b.clamps.getD n false))
    let s := s.clamp sl.source (entryClamps + once.length + b2n (a.ratioClamp blocks))
    s.runPieces k 1 .vectorEngine sl a.nr (fun u r0 n s =>
      (rangeFrom r0 n).foldl (fun acc r => PieceDone.add acc (fun s => s.quantRowBlock a u sl.source blocks r))
        (PieceDone.none, s.veWork u (a.work (min (128 * n) (a.rows - 128 * r0)))))

/-- QUANT. -/
def execQuant (slot : Nat) (s : State) : Host.Outcome State Fault Refusal :=
  .next (s.withDesc slot [0x05] (runQuant slot))

/-! ### Wire blocks (R218, R219) -/

/-- Form a wire block from 128 FP32 values that are already rotated: bytes, and whether ROW_NAN counts. `draw` gives each
position's draw. The elements of a NaN block, which are written as code 0, count no CONV_NONFINITE beside ROW_NAN. DESIGN CHOICE (log
57). DESIGN CHOICE (log 57). -/
def wireEncode (rnd : Rnd) (draw : Nat → Nat) (ys : List Value) : List Byte × Bool :=
  if ys.any (fun y => !y.isFin) then (List.replicate 64 0 ++ natLe 4 (Fmt.nanCode .fp32), true)
  else
    let s := rowScale (statOf ys).finmax .i4 0
    let codes := (ys.zip (List.range 128)).map (fun y => (encode .i4 rnd true 0 (draw y.2) (y.1.divScale s)).code)
    (packRow 4 codes ++ natLe 4 (toFp32 (.ofRat s)), false)

/-- What decoding a wire block finds: values, a NaN row, a clamp, unmatched escapes. -/
structure WireIn where
  vals : List Value
  rowNan : Bool
  clamp : Bool
  unmatched : Nat
deriving DecidableEq, Repr

/-- Decode a wire block: code × SCALE, one rounding each (R219, R296). A code 0b1000 counts as unmatched in a NaN block too (R84). The
rounding to FP32 counts no CONV_RANGE and no CONV_NONFINITE. DESIGN CHOICE (log 57). -/
def wireDecode (bs : List Byte) : WireIn :=
  let (sc, c) := readScale (field bs 64 4)
  let codes := (List.range 128).map (unpackAt bs 4)
  let un := (codes.filter (fun x => Fmt.decode .i4 x == .escape)).length
  match sc with
  | none => ⟨List.replicate 128 .nan, true, false, un⟩
  | some s =>
    ⟨codes.map (fun x => match Fmt.decode .i4 x with
        | .val v => roundFp32 (v.times (.ofRat s))
        | .escape => .nan), false, c, un⟩

end Sys2Proof.Machine
end

