-- ==== Sys2Proof/Machine/MemCmds.lean ====
section
/-! DEFINITION. Scrubbing, the background walks, the error logs as registers show them, and the memory stacks' own
events and commit points (chapters 10 and 11). -/

namespace Sys2Proof.Machine

/-! ### SCRUB (R340 to R345, R388) -/

/-- What a SCRUB has found (Table 10.6). -/
structure ScrubCount where
  checked : Nat
  corrected : Nat
  newPoison : Nat
  oldPoison : Nat
  firstUe : Option Nat
deriving DecidableEq, Repr

/-- Nothing found. -/
def ScrubCount.none : ScrubCount := ⟨0, 0, 0, 0, Option.none⟩

/-- Take one unit's finding into the counts. -/
def ScrubCount.add (c : ScrubCount) (addr : Nat) (f : Found) : ScrubCount :=
  let c := { c with checked := c.checked + 1 }
  match f with
  | .clean => c
  | .corrected => { c with corrected := c.corrected + 1 }
  | .oldPoison => { c with oldPoison := c.oldPoison + 1 }
  | .newPoison => { c with newPoison := c.newPoison + 1, firstUe := some (c.firstUe.getD addr) }

/-- TM_SCRUBBED of a die. -/
def ctrScrubbed : Nat := ctrId 10 12 5

/-- Check the record at an accumulator-window address: its word, and its half-row's slot at column 0 or 16 (R342). An
identifier that names no cell has nothing to check. -/
def State.scrubAcc (s : State) (addr finder : Nat) (fix : Bool) (c : ScrubCount) : ScrubCount × State :=
  match s.accPlace addr with
  | none => (c, s)
  | some (u, r, j) =>
    let die := dieNode (unitDie u)
    let (c, s) :=
      if j % 16 = 0 then
        let (f, s) := s.checkHalf u r (j / 16) finder fix
        (c.add addr f, s.count die ctrScrubbed 1)
      else (c, s)
    let (f, s) := s.checkWord u r j finder fix
    (c.add addr f, s.count die ctrScrubbed 1)

/-- Check one granule or sector. -/
def State.scrubUnit (s : State) (base finder : Nat) (fix : Bool) (c : ScrubCount) : ScrubCount × State :=
  let (f, s) := s.checkUnit base finder fix
  (c.add base f, s.count (keeper base).1 (memCtr base 5) 1)

/-- Whether an address lies on the part of the package a SCRUB is aimed at: everything for the root, one die, or one
stack (R341). -/
def State.scrubHere (s : State) (p : Place) (a : Nat) : Bool :=
  match p with
  | .die d => dieOfAddr a == d
  | .stack k => inStack a 1 && stackOf a == k
  | .root | .quadrant _ _ | .cluster _ _ _ | .vectorEngine _ _ _ | .mover _ _ _ _ | .cellGroup _ | .cell _ _
  | .updateEngine _ _ => true

/-- The 32 bytes of a summary record (Table 10.6). -/
def ScrubCount.bytes (c : ScrubCount) (time : Nat) : List Byte :=
  natLe 4 (sat 32 c.checked) ++ natLe 4 (sat 32 c.corrected) ++ natLe 4 (sat 32 c.newPoison)
    ++ natLe 4 (sat 32 c.oldPoison) ++ natLe 6 (c.firstUe.getD (2 ^ 48 - 1)) ++ [0, 0] ++ natLe 8 time

/-- The controller that checks a unit of a SCRUB (R341, R388): the base die's for an Open unit of a stack, else the die's. DEDUCED
(log 48). -/
def State.scrubber (s : State) (a : Nat) : Nat :=
  if inStack a 1 && s.isOpen a then stackNode (stackOf a) else dieNode (dieOfAddr a)

/-- A SCRUB aimed at `id` cannot check a unit (R43, R44, R381, R383): its stack serves nothing, or no piece can be sent to its
controller. -/
def State.scrubFenced (s : State) (barred : List Nat) (id a : Nat) : Bool :=
  s.stackFenced a 32 || !s.reaches barred id treeFuel (s.scrubber a)

/-- SCRUB (R340 to R345, R388), divided by die and by stack: a part that lies in a FAILED or TEST stack ends FENCED (R381, R383) and the
others run (R41); one whose stack is at throttle level 3 or converts a unit of it waits (R373, R377). The summary record is written where
any part ran. DEDUCED (log 48). -/
def runScrub (k : Nat) (sl : Slot) (was : State) : State :=
  let s := was
  let id := targetOf sl.desc
  let d := sl.desc
  let b0 := addr48 d 8
  let base := b0 - b0 % 16
  let m0 := addr48 d 14
  let sumAt := m0 - m0 % 32
  let n := field d 20 4
  let fix := bit (field d 24 1) 0
  let sum := bit (field d 24 1) 1
  let len := 16 * n
  let s := s.clamp sl.source (b2n (b0 ≠ base) + b2n (sum && m0 ≠ sumAt) + b2n (n = 0))
  match s.placeOf (targetOf d) with
  | none => s
  | some p =>
    if sum && !inTier sumAt 32 then (s.clamp sl.source 1).finish k 9 .aborted 0
    else if n ≠ 0 && !inAny base 16 then (s.clamp sl.source 1).finish k 9 .aborted 0
    else if n ≠ 0 && !inAny base len then
      (s.clamp sl.source (b2n (overlap base len tierEnd (accBase - tierEnd) || overlap base len stackEnd (0xF00000000000 - stackEnd)))).finish
        k 9 .aborted 0
    else
      let addrs := (List.range n).map (fun i => base + 16 * i)
      let units := if inStack base 16 then (addrs.map (fun a => a - a % 32)).eraseDups else addrs
      let here := units.filter (s.scrubHere p)
      let mixed := inStack base 16 && units.any (fun a => s.isOpen a != s.isOpen base)
      let runs := here.filter (fun a => !s.scrubFenced sl.barred id a)
      if mixed then s.finish k 9 .aborted 0
      else if runs.any (fun a => s.stackWaits a 32) then was.freeze k [id]
      else
        let s := s.clamp sl.source (b2n (here.length ≠ units.length))
        let r : Report := here.foldl (fun r a =>
          Report.add r (if s.scrubFenced sl.barred id a then .fenced else .ok) (s.scrubber a)) []
        let (c, s) := runs.foldl (fun (acc : ScrubCount × State) a =>
          if inAcc a 16 then acc.2.scrubAcc a 2 fix acc.1 else acc.2.scrubUnit a 2 fix acc.1) (ScrubCount.none, s)
        let s := if sum && (here = [] || runs ≠ []) then (s.memWrite sumAt (c.bytes s.time.now) false).2 else s
        s.finishReport k 9 r (fun _ => c.newPoison)

/-- SCRUB. -/
def execScrub (slot : Nat) (s : State) : Host.Outcome State Fault Refusal :=
  .next (s.withDesc slot [0x70] (runScrub slot))

/-! ### The background walks (R346, R387) -/

/-- Rows of a tier slice: lines of 256 bytes, one in 256 of a die's (R322). -/
def sliceRows : Nat := 122880

/-- Check the line of slice `n` of die `d` that its walk has reached, and step the walk. -/
def State.walkSlice (s : State) (d n : Nat) : State :=
  let key := d * 256 + n
  let row := mget 0 s.mem.sliceRow key
  let line := row * 256 + n % 64 * 4 + n / 64
  let (_, s) := (List.range 16).foldl (fun (acc : ScrubCount × State) g =>
    acc.2.scrubUnit (d * tierDie1 + line * 256 + 16 * g) 3 true acc.1) (ScrubCount.none, s)
  let next := (row + 1) % sliceRows
  { s with mem := { s.mem with
      sliceRow := mput 0 s.mem.sliceRow key next
      slicePass := if next = 0 then mmod 0 s.mem.slicePass key (· + 1) else s.mem.slicePass } }

/-- Check the word of a cell that its walk has reached, with its slot at column 0 or 16, and step the walk. -/
def State.walkCell (s : State) (u : Nat) : State :=
  let w := mget 0 s.mem.cellWord u
  let (r, j) := (w / 32, w % 32)
  let die := dieNode (unitDie u)
  let s := if j % 16 = 0 then ((s.checkHalf u r (j / 16) 3 true).2).count die ctrScrubbed 1 else s
  let s := ((s.checkWord u r j 3 true).2).count die ctrScrubbed 1
  { s with mem := { s.mem with cellWord := mput 0 s.mem.cellWord u ((w + 1) % 16384) } }

/-- The walk's period of a die ends: each slice checks one line and each cell one word (R346). DEDUCED (log 48). -/
def State.tierWalk (s : State) (d : Nat) : State :=
  if d < 2 && s.powered && bit (s.regs.eff (regTmCtl d) 0) 16 then
    let s := (List.range 256).foldl (fun s n => s.walkSlice d n) s
    (allCells.filter (fun u => unitDie u == d)).foldl (fun s u => s.walkCell u) s
  else s

/-- TIER_WALK_TICK. -/
def execTierWalkTick (die : Nat) (s : State) : Host.Outcome State Fault Refusal :=
  .next (if s.sramHeld die then s else s.tierWalk die)

/-- BG_PASSES of a die (R346): passes that every slice has completed, wrapping. -/
def State.bgPasses (s : State) (d : Nat) : Nat :=
  ((List.range 256).map (fun n => mget 0 s.mem.slicePass (d * 256 + n))).foldl min
    (mget 0 s.mem.slicePass (d * 256)) % 65536

/-- Rows of a pseudo-channel (R361, R387). -/
def channelRows : Nat := 786432

/-- The period of a stack's walk ends: each pseudo-channel checks one row of 32 sectors (R387). A stack in TEST or at
throttle level 3, or one that is not up, checks nothing, and a row that waits for a conversion is checked in a later period.
DEDUCED (log 48). -/
def State.stackWalk (s : State) (k : Nat) : State :=
  let st := s.stack k
  if k < 8 && s.powered && bit (s.regs.eff (regStkCtl k) 0) 19 && st.mode == .run && st.throttle ≠ 3 then
    (List.range 64).foldl (fun s pc =>
      let key := k * 64 + pc
      let row := mget 0 s.mem.stackRow key
      if s.stackWaits (rowPlace k pc row 0).addr 32 then s
      else
        let (_, s) := (List.range 32).foldl (fun (acc : ScrubCount × State) i =>
          let a := (rowPlace k pc row (32 * i)).addr
          acc.2.scrubUnit a (if acc.2.isOpen a then 4 else 3) true acc.1) (ScrubCount.none, s)
        { s with mem := { s.mem with stackRow := mput 0 s.mem.stackRow key ((row + 1) % channelRows) } }) s
  else s

/-- STACK_WALK_TICK. -/
def execStackWalkTick (stack : Nat) (s : State) : Host.Outcome State Fault Refusal :=
  .next (if s.stackHeld stack then s else s.stackWalk stack)

/-! ### Logs (R350 to R352, R389) -/

/-- The 16 bytes of a log entry (Table 10.7). -/
def LogEntry.bytes (e : LogEntry) : List Byte :=
  natLe 6 e.addr ++ natLe 1 e.syndrome ++ natLe 1 (1 + 2 * b2n e.acc + 4 * b2n e.cleared + 8 * (e.finder % 8))
    ++ natLe 2 e.count ++ natLe 6 e.time

/-- The entry that a LOG_SEL value selects in the logs of a block: zeros where there is none. -/
def State.logEntry (s : State) (block v : Nat) : List Byte :=
  let l := s.errLogs block
  match (if bit v 7 then l.ue else l.ce)[v % 64]? with
  | some e => e.bytes
  | none => List.replicate 16 0

/-- Offset of LOG_SEL of a block: die 0 or 1, or stack 0 to 7 from 2. -/
def logSelOf (block : Nat) : Nat := if block < 2 then regTmLogSel block else regStkLogSel (block - 2)

/-- A write to LOG_SEL latches the selected entry (R356). -/
def State.logSel (s : State) (block v : Nat) : State :=
  if block < 10 then
    { s with regs := s.regs.write (logSelOf block) 0 (BitVec.ofNat 32 v)
             obs := { s.obs with logData := mput (List.replicate 16 0) s.obs.logData block (s.logEntry block v) } }
  else s

/-- LOG_SEL. -/
def execLogSel (block value : Nat) (s : State) : Host.Outcome State Fault Refusal := .next (s.onWrite (fun s => s.logSel block value))

/-- LOG_CLEAR.UE frees every entry of the uncorrectable log (R351). -/
def execLogClearUe (block : Nat) (s : State) : Host.Outcome State Fault Refusal :=
  .next (s.onWrite (fun s => s.modLogs block (fun l => { l with ue := [] })))

/-- LOG_CLEAR.CE frees every entry of the correctable log (R351). -/
def execLogClearCe (block : Nat) (s : State) : Host.Outcome State Fault Refusal :=
  .next (s.onWrite (fun s => s.modLogs block (fun l => { l with ce := [] })))

/-- Live entries of an uncorrectable log (R349): VALID and not CLEARED. -/
def ErrLogs.live (l : ErrLogs) : Nat := (l.ue.filter (fun e => !e.cleared)).length

/-- Firmware's count of live poison at a step boundary (R349, R391): UE_LIVE of every die and stack, and one POISON_LIVE
event for each that is not zero. -/
def State.countLive (s : State) : State :=
  (List.range 10).foldl (fun s b =>
    let n := (s.errLogs b).live
    let s := { s with mem := { s.mem with ueLive := mput 0 s.mem.ueLive b n } }
    if n = 0 then s
    else s.event 0x0302 ((if b < 2 then b else b - 2 + 16) + n * 65536) false) s

/-! ### Stacks: refresh, temperature, throttling (R366, R376 to R378) -/

/-- A stack is in self-refresh (Table 11.1): in TEST state while no pattern runs, at throttle level 3 (R377), and after an orderly
power-down. -/
def State.selfRefresh (s : State) (k : Nat) : Bool :=
  let x := s.stack k
  (x.mode == .test && x.margin.isNone) || x.throttle == 3 || s.rst.state == 3

/-- Refresh is issued (R366): twice as often at throttle level 1 and above. A stack in self-refresh refreshes itself. `retries` is
the number of the stack's commands since the last refresh that were retried for a parity error (Table 11.1). DESIGN CHOICE (log 48). -/
def State.refresh (s : State) (k retries : Nat) : State :=
  if k < 8 && s.powered then
    let s := s.count (stackNode k) (ctrId 11 10 9) retries
    if s.selfRefresh k then s
    else s.modStack k (fun t => { t with refreshes := t.refreshes + 1, refreshDouble := 1 ≤ t.throttle })
  else s

/-- STACK_REFRESH. -/
def execStackRefresh (work : RefreshWork) (s : State) : Host.Outcome State Fault Refusal :=
  .next (s.refresh work.stack work.retries)

/-- First temperature of a throttle level (Table 11.4). -/
def throttleAt (l : Nat) : Nat :=
  match l with
  | 0 => 0 | 1 => 85 | 2 => 95 | _ => 105

/-- The level that a temperature alone calls for. -/
def throttleOf (t : Nat) : Nat := if 105 ≤ t then 3 else if 95 ≤ t then 2 else if 85 ≤ t then 1 else 0

/-- The level after a report (R376): up at once, down only below the threshold by 3 °C. -/
def throttleNext (old t : Nat) : Nat :=
  let up := throttleOf t
  if old ≤ up then up
  else ((List.range 4).filter (fun l => up ≤ l && l ≤ old && (l = up || throttleAt l ≤ t + 3))).foldl max up

/-- The stack's temperature is read (R376, R378). -/
def State.stackTemp (s : State) (k t : Nat) : State :=
  if k < 8 && s.powered then
    let old := (s.stack k).throttle
    let l := throttleNext old t
    let s := s.modStack k (fun x => { x with temp := t % 256, throttle := l })
    if l = old then s
    else (s.event 0x0303 (k + 256 * l) false).sig (stackNode k) 0x06 l
  else s

/-! ### Failure, TEST state, conversion and margining (R373, R381 to R386) -/

/-- HOLD is entered for a cause of Table 18.4, with the chip waited on where a TIMEOUT is the cause (R664): one event, and
dispatch stops. A package already in HOLD stays as it is. DEDUCED (log 27). -/
def State.enterHold (s : State) (cause : Nat) (waited : Option Nat) : State :=
  if s.res.hold then s
  else
    let s := { s with res := { s.res with hold := true, cause := cause, waited := waited.getD s.res.waited } }
    ((s.count 0 (ctrId 18 11 8) 1).event 0x0901 (cause + waited.getD 0x7FFF * 65536) true).platform 47 s.packageState

/-- A state range lies in a stack, on a package that has a cut or takes images (Table 18.4, STACK_LOST). -/
def State.holdsState (s : State) (k : Nat) : Bool :=
  (s.res.liveValid || s.res.pending || s.res.imageValid || bit (s.regs.eff regRsCtl 0) 0)
    && s.touchesState (stackBase + k * stackSize) stackSize

/-- A stack fails (R381): its node and its update engines take state Failed, STACK_FAILED is posted once, and a package
whose state it held enters HOLD. -/
def State.failStack (s : State) (k : Nat) : State :=
  if (s.stack k).mode = .failed then s
  else
    let s := s.modStack k (fun x => { x with mode := .failed, trained := false, enteringTest := false })
    let s := (rangeFrom (stackNode k) spanStack).foldl (fun s u => s.setState u .failed) s
    let s := s.event 0x0304 k true
    let s := s.readLists
    if s.holdsState k then s.enterHold 6 none else s

/-- The base die finishes converting the lowest changed unit: zeros with fresh codes of the new kind (R373).
DEDUCED (log 48). -/
def State.convertOne (s : State) (k : Nat) : State :=
  match (s.stack k).converting with
  | [] => s
  | g :: rest =>
    (s.zeroAs (fun b => !s.isOpen b) (stackBase + k * stackSize + g * 2 ^ 30) (2 ^ 30)).modStack k (fun x =>
      { x with converting := rest })

/-- REGION_CONVERSION_DONE. -/
def execRegionConversionDone (stack : Nat) (s : State) : Host.Outcome State Fault Refusal :=
  .next (if s.powered then s.convertOne stack else s)

/-- Bounds of MARGIN_CTL.OFFSET for a kind (R385). -/
def marginBound (kind : Nat) (o : Int) : Int :=
  match kind with
  | 0 | 1 => max (-32) (min 31 o)
  | 2 => max (-20) (min 20 o)
  | _ => max (-10) (min 10 o)

/-- MARGIN_CTL.START (R385): acts in TEST state only; a VDDQ test needs all four stacks of the die in TEST. -/
def State.marginStart (s : State) (k : Nat) : State :=
  if k < 8 && (s.stack k).mode == .test && (s.stack k).margin.isNone then
    let c := s.regs.eff (regMarginCtl k) 0
    let kind := bits c 29 28
    let all := (List.range 4).all (fun t => (s.stack (k / 4 * 4 + t)).mode == .test)
    if kind = 3 && !all then s.modStack k (fun x => { x with marginResult := 2 ^ 31 + 0xFFFFFF })
    else
      let off := marginBound kind (sext 8 (bits c 23 16))
      let pc := if bit c 14 then none else some (bits c 13 8)
      let s := s.modStack k (fun x => { x with marginResult := 0, margin := some (kind, off, pc, max 1 (c % 256)) })
      if kind = 3 then s.emit (.setpoint (16 + k / 4) (wrap 8 off)) else s
  else s

/-- MARGIN_START. -/
def execMarginStart (stack : Nat) (s : State) : Host.Outcome State Fault Refusal := .next (s.onWrite (fun s => s.marginStart stack))

/-- A margin test ends (R385): the trained setting returns and MARGIN_RESULT is written. -/
def State.marginDone (s : State) (k errors : Nat) : State :=
  match (s.stack k).margin with
  | none => s
  | some (kind, _, _, _) =>
    let e := sat 24 errors
    let s := s.modStack k (fun x => { x with margin := none, marginResult := 2 ^ 31 + b2n (e = 0) * 2 ^ 30 + e })
    if kind = 3 then s.emit (.setpoint (16 + k / 4) 0) else s

/-- MARGIN_TEST_DONE. -/
def execMarginTestDone (stack errors : Nat) (s : State) : Host.Outcome State Fault Refusal :=
  .next (if s.powered then s.marginDone stack errors else s)

/-! ### Commit points of the tier-memory and stack blocks (R355, R373, R383 to R386, R393, R813 to R816) -/

/-- Clamp a field of an effective value at a commit point (R816). -/
def State.commitClamp (s : State) (bad : Bool) (off inst hi lo v : Nat) : State :=
  if bad then ({ s with regs := s.regs.setEffField off inst hi lo v }).clamp (.register off) 1 else s

/-- What a COMMIT of the tier-memory block of die d judges, once its fields are effective (R355). -/
def State.legalTm (s : State) (d : Nat) : State :=
  let s := s.commitClamp (s.regs.eff (regTmCtl d) 0 % 65536 = 0) (regTmCtl d) 0 15 0 1
  let a := s.regs.eff (regFlipAddrHi d) 0 % 65536 * 2 ^ 32 + s.regs.eff (regFlipAddrLo d) 0
  s.commitClamp (bit (s.regs.eff (regFlipCtl d) 0) 16 && !(inTier a 16 || inAcc a 16)) (regFlipCtl d) 0 16 16 0

/-- Region units of stack k whose kind two register files disagree on, ascending. -/
def changedUnits (old new : RegFile) (k : Nat) : List Nat :=
  (List.range 48).filter (fun g =>
    if g < 32 then bit (old.eff (regRegionLo k) 0) g != bit (new.eff (regRegionLo k) 0) g
    else bit (old.eff (regRegionHi k) 0) (g - 32) != bit (new.eff (regRegionHi k) 0) (g - 32))

/-- BIN at a commit point (Table 11.7, R383, R816): 0b11 reads as 0, and a change in RUN is refused. -/
def State.legalBin (s : State) (k : Nat) (old : RegFile) : State :=
  let off := regStkCtl k
  let s := s.commitClamp (bits (s.regs.eff off 0) 27 26 = 3) off 0 27 26 0
  let was := bits (old.eff off 0) 27 26
  s.commitClamp (!bit (s.regs.eff off 0) 24 && bits (s.regs.eff off 0) 27 26 ≠ was) off 0 27 26 was

/-- Whether an injection address is refused (R393): outside stack memory, or in a stack in TEST state. -/
def State.injRefused (s : State) (a : Nat) : Bool :=
  !inStack a 32 || (s.stack (stackOf a)).inTest

/-- A stack leaves TEST state (R386): every sector is written as zero, and the data rate is that of operation (Table 11.1). `was`
tells which sectors were of Open units until now. -/
def State.leaveTest (s : State) (k : Nat) (was : Nat → Bool) : State :=
  (s.zeroAs was (stackBase + k * stackSize) stackSize).modStack k (fun x => { x with mode := .run, margin := none, bin := 0 })

/-- What a COMMIT of stack block k judges and starts, once its fields are effective; `old` holds the values before it. -/
def State.legalStk (s : State) (k : Nat) (old : RegFile) : State :=
  let off := regStkCtl k
  let s := s.legalBin k old
  let s := s.commitClamp (8 < bits (s.regs.eff off 0) 23 20) off 0 23 20 8
  let s := s.commitClamp (s.regs.eff off 0 % 65536 = 0) off 0 15 0 1
  let mo := regMarginCtl k
  let s := s.commitClamp (s.regs.eff mo 0 % 256 = 0) mo 0 7 0 1
  let o := sext 8 (bits (s.regs.eff mo 0) 23 16)
  let o' := marginBound (bits (s.regs.eff mo 0) 29 28) o
  let s := s.commitClamp (o ≠ o') mo 0 23 16 (wrap 8 o')
  let test := bit (s.regs.eff off 0) 24
  let s :=
    match (s.stack k).mode, test with
    | .test, false => (s.leaveTest k ({ s with regs := old } : State).isOpen).setState (stackNode k)
        (if s.censusHolds (stackNode k) then .fenced else if s.haltedNode (stackNode k) then .halted else .idle)
    | .test, true => s.modStack k (fun x => { x with bin := bits (s.regs.eff off 0) 27 26 })
    | .run, true =>
      ((s.drained (fun a => stackOf a == k)).modStack k (fun x => { x with mode := .test, enteringTest := false, bin := bits (s.regs.eff off 0) 27 26 })).setState
        (stackNode k) .fenced
    | .run, false | .training, _ | .failed, _ => s
  let ch := changedUnits old s.regs k
  let s := if ch = [] then s else s.modStack k (fun x => { x with converting := ch })
  let a := s.regs.eff (regInjAddrHi k) 0 % 65536 * 2 ^ 32 + s.regs.eff (regInjAddrLo k) 0
  s.commitClamp (bit (s.regs.eff (regInjCtl k) 0) 17 && s.injRefused a) (regInjCtl k) 0 17 17 0

/-- Make captured fields of a block effective together (R813). -/
def State.applyVals (s : State) (vals : List (Nat × Word32)) : State := { s with regs := s.regs.apply vals }

/-- Whether a capture of stack block k asks for TEST state (R383). -/
def wantsTest (k : Nat) (vals : List (Nat × Word32)) : Bool :=
  vals.any (fun kv => kv.1 == regKey (regStkCtl k) 0 && bit kv.2.toNat 24)

/-- BIN that a capture of stack block k asks for (Table 11.7). -/
def wantsBin (k : Nat) (vals : List (Nat × Word32)) : Nat :=
  match vals.find? (fun kv => kv.1 == regKey (regStkCtl k) 0) with
  | some kv => if bits kv.2.toNat 27 26 = 3 then 0 else bits kv.2.toNat 27 26
  | none => 0

/-- A capture of stack block k takes effect with TEST_ENTRY: it enters TEST state, or changes the data rate there (R383, R384).
DEDUCED (log 16). -/
def State.retrains (s : State) (k : Nat) (vals : List (Nat × Word32)) : Bool :=
  let st := s.stack k
  wantsTest k vals && (st.mode == .run || (st.mode == .test && wantsBin k vals != st.bin))

/-- Whether a capture of stack block k has to wait (R373, R383, R384, R385, R819): for a conversion, for TEST_ENTRY, or, where it ends
TEST state or changes the data rate, for the margin test that runs. DEDUCED (log 16). -/
def State.stkWaits (s : State) (k : Nat) (vals : List (Nat × Word32)) : Bool :=
  let st := s.stack k
  st.converting ≠ [] || st.retraining || s.retrains k vals || (st.mode == .test && st.margin.isSome && !wantsTest k vals)

/-- Take the oldest pending capture of a block out. -/
def State.takeCapture (s : State) (b : Nat) : Option (List (Nat × Word32) × State) :=
  match s.regs.captures.find? (fun c => c.block == b) with
  | none => none
  | some c =>
    some (c.vals, { s with regs := { s.regs with captures := s.regs.captures.erase c } })

/-- Keep a capture until its commit point (R813, R819). -/
def State.keepCapture (s : State) (b : Nat) (vals : List (Nat × Word32)) : State :=
  { s with regs := { s.regs with captures := s.regs.captures ++ [⟨b, vals⟩] } }

/-- Retraining in TEST state has ended: `lanes` is the number of lanes that it repaired, none where it failed twice (R381, R384). -/
def State.retrained (s : State) (k : Nat) (lanes : Option Nat) : State :=
  match lanes with
  | some n => s.modStack k (fun x => { x with mode := .test, lanesRepaired := sat 8 n })
  | none => s.failStack k

/-- An update engine of a stack has begun a descriptor's piece there and not ended it: its accepted accesses are not complete (R383,
R432). -/
def State.engineWork (s : State) (k : Nat) : Bool :=
  s.host.slots.any (fun kv => match kv.2 with
    | some sl => sl.phase == .running && sl.engines.isSome && (ueAddr sl.desc - stackBase) / stackSize = k
    | none => false)

/-- Accepted accesses have completed and the stack enters TEST state, or is in TEST state already. Where its data rate changes it trains
again: STATE reads TRAINING and the COMMIT stays pending, until the next TEST_ENTRY ends that (R383, R384, R821). -/
def State.testEntry (s : State) (k : Nat) (lanes : Option Nat) : State :=
  match s.takeCapture (16 + k) with
  | none => s
  | some (vals, s') =>
    if !(k < 8 && s.powered) || s.engineWork k then s
    else if (s.stack k).retraining then s'.retrained k lanes
    else if s.retrains k vals && (s.stack k).converting = [] && (s.stack k).margin.isNone then
      let t := (s'.applyVals vals).legalStk k s'.regs
      if (t.stack k).bin = (s.stack k).bin then t
      else ({ t with regs := { t.regs with captures := s.regs.captures } } : State).modStack k (fun x => { x with mode := .training })
    else s

/-- TEST_ENTRY. -/
def execTestEntry (stack : Nat) (lanes : Option Nat) (s : State) : Host.Outcome State Fault Refusal :=
  .next (s.testEntry stack lanes)

end Sys2Proof.Machine
end

