-- ==== Sys2Proof/Machine/Units.lean ====
section
/-! DEFINITION. The unit tree as software sees it: enumeration records, slack, cadence, stalls, freeze counts, the
retirement of a cell, and the commit of the unit-tree block (chapter 02: R32 to R58, R64, R65, R847). -/

namespace Sys2Proof.Machine

/-! ### Cells below a node -/

/-- Identifiers of the leaves of a kind at or below a node; a spare is its own leaf. -/
def State.leavesOf (s : State) (kind : NodeKind) (id : Nat) : List Nat :=
  match s.placeOf id with
  | none => []
  | some p =>
    if p.kind == kind then [id]
    else (rangeFrom id p.span).filter (fun i => match s.placeOf i with
      | some q => q.kind == kind
      | none => false)

/-- Effective slack of a cell (R56). -/
def UnitState.effective (u : UnitState) : Nat := max (max u.calFloor u.marginFloor) (max u.ttSlack u.request)

/-- The largest of some numbers; 0 for none. -/
def maxOf (xs : List Nat) : Nat := xs.foldl max 0

/-- SLACK_STATUS of a node (Table 2.13, R847): the fields of a cell, and for a group the largest of each among its cells. Table 2.13
says so of EFFECTIVE only; that TIMETABLE, MARGIN_FLOOR and CAL_FLOOR of a group are read alike is the model's. DESIGN CHOICE (log 57). -/
def State.slackStatus (s : State) (id : Nat) : Nat :=
  let us := (s.leavesOf .cell id).map (fun i => s.unit (s.unitOf i))
  maxOf (us.map (·.ttSlack)) * 2 ^ 24 + maxOf (us.map (·.effective)) * 2 ^ 16 + maxOf (us.map (·.marginFloor)) * 256
    + maxOf (us.map (·.calFloor))

/-- CADENCE of a node (R58, R847): a cell's most recent count, whatever its state, and for a group the lowest of its active cells.
The active cells are those not Fenced, Failed, Retired or Spare. DESIGN CHOICE (log 57). -/
def State.cadenceOf (s : State) (id : Nat) : Nat :=
  match s.placeOf id with
  | some (.cell _ _) => (s.unit (s.unitOf id)).cadence
  | _ =>
    match ((s.leavesOf .cell id).map (fun i => s.unit (s.unitOf i))).filter (·.usable) with
    | [] => 0
    | u :: rest => rest.foldl (fun m x => min m x.cadence) u.cadence

/-- Descriptors and pieces waiting at a node (Table 2.15): those aimed at it that are held before dispatch, and those with work at it
that wait behind other work (R127, R130, R275, R398). DEDUCED (log 52). -/
def State.queuedAt (s : State) (id : Nat) : Nat :=
  (s.host.slots.filter (fun kv => match kv.2 with
    | some sl => sl.phase == .waiting && targetOf sl.desc == id
    | none => false)).length + ((s.workAt id).filter (fun w => s.waitsTurn w.1 w.2)).length

/-- NODE_STATUS of a node (Table 2.15, R847). -/
def State.nodeStatus (s : State) (id : Nat) : Nat :=
  match s.placeOf id with
  | none => 0x0F000000
  | some p =>
    let last := (s.unit (s.unitOf id)).lastStatus
    let stall := (rangeFrom id p.span).any (fun i => (s.unit (s.unitOf i)).stall)
    (s.shownState id).code * 2 ^ 28 + p.kind.code * 2 ^ 24 + sat 8 (s.queuedAt id) * 2 ^ 16 + last * 256 + b2n stall

/-- Writing 1 to STALL of a node clears it and that of every descendant (Table 2.15). -/
def State.clearStall (s : State) (id : Nat) : State :=
  match s.placeOf id with
  | none => s
  | some p => (rangeFrom id p.span).foldl (fun s i => s.modUnit (s.unitOf i) (fun u => { u with stall := false })) s

/-- FREEZE_COUNT of a node (Table 2.16, R847). -/
def State.freezeCount (s : State) (id : Nat) : Nat :=
  sat 32 (((s.leavesOf .cell id ++ s.leavesOf .vectorEngine id).map
    (fun i => (s.unit (s.unitOf i)).freezes)).foldl (· + ·) 0)

/-- A read of FREEZE_COUNT clears what it returned. DEDUCED (log 12). -/
def State.freezeRead (s : State) (id : Nat) : State :=
  (s.leavesOf .cell id ++ s.leavesOf .vectorEngine id).foldl
    (fun s i => s.modUnit (s.unitOf i) (fun u => { u with freezes := 0 })) s

/-- FREEZE_COUNT_READ at the node that NODE_SEL names. -/
def execFreezeCountRead (s : State) : Host.Outcome State Fault Refusal :=
  let id := s.regs.shadow regNodeSel 0 % 65536
  .next (s.onRead (s.freezeCount id) (fun s => s.freezeRead id))

/-! ### Enumeration records (R35, Table 2.4) -/

/-- SUBSTITUTE of an identifier (Table 2.4): where the exchange of a substitution reaches, the identifier in the tree, to
which the spare answers and by which it is known. DEDUCED (log 14). A spare that served and has itself been retired still gives the
identifier that it answers to: DESIGN CHOICE (log 57). -/
def State.substitute (s : State) (id : Nat) : Nat :=
  let u := s.unitOf id
  if u = id then 0xFFFF else if 0xF000 ≤ id then u else id

/-- Retired cells of a cell group, substituted or not. -/
def State.retiredIn (s : State) (g : Nat) : Nat :=
  ((List.range 17).filter (fun i => (s.unit (cellUnit g i)).state == .retired)).length

/-- The 32 bytes of a record (R37). POSITION and PARENT of a substituted cell, and of the spare that serves for it, are those of the
identifier's place, not of the physical cell: DESIGN CHOICE (log 57). The rest of the record is DEDUCED (log 52). -/
def State.enumRecord (s : State) (id : Nat) : List Byte :=
  let blank := List.replicate 6 (0 : Byte) ++ [0xFF] ++ List.replicate 25 0
  if !s.tree.ready then List.replicate 32 0
  else
    match Sys2Proof.Machine.placeOf id, s.placeOf id with
    | some at', some p =>
      let (ar, ac) := p.array
      let spare (g : Nat) : Nat := b2n ((s.unit (spareId g)).state == .spare)
      let (left, ret) := match p with
        | .cellGroup g => (spare g, s.retiredIn g)
        | .root | .die _ | .quadrant _ _ | .cluster _ _ _ | .vectorEngine _ _ _ | .mover _ _ _ _ | .cell _ _
        | .stack _ | .updateEngine _ _ => (0, 0)
      natLe 2 id ++ natLe 2 at'.parent ++ natLe 2 p.span ++ natLe 1 p.kind.code
        ++ natLe 1 (s.shownState id).code ++ natLe 2 p.children ++ natLe 2 at'.position ++ natLe 2 ar
        ++ natLe 2 ac ++ natLe 2 p.classes ++ natLe 1 p.dieIx ++ natLe 1 p.stackIx ++ natLe 2 (s.substitute id)
        ++ natLe 1 left ++ natLe 1 ret ++ List.replicate 8 0
    | _, _ => blank

/-- ENUM_SEL latches a record (R35). -/
def State.enumSel (s : State) (value : Nat) : State :=
  let s := { s with regs := s.regs.write regEnumSel 0 (BitVec.ofNat 32 value) }
  { s with tree := { s.tree with enumData := s.enumRecord (value % 65536) } }

/-- ENUM_SEL. -/
def execEnumSel (value : Nat) (s : State) : Host.Outcome State Fault Refusal :=
  .next (s.onWrite (fun s => s.enumSel value))

/-! ### Stalls and cadence (R52, R58) -/

/-- A leaf has work dispatched to it: its own, or a piece of a group's. -/
def State.hasWork (s : State) (id : Nat) : Bool := !(s.workAt id).isEmpty

/-- TAG of the descriptor that a node has worked on longest. -/
def State.oldestTag (s : State) (id : Nat) : Nat :=
  match s.workAt id with
  | [] => 0
  | w :: ws => tagOf (ws.foldl (fun (m x : Nat × Slot) => if x.2.dispatched < m.2.dispatched then x else m) w).2.desc

/-- STALL_LIMIT_EXPIRY of a leaf: STALL, one event, and a signal-log entry; the leaf goes on waiting (R52).
DESIGN CHOICE (log 8). -/
def execStallLimitExpiry (node : Nat) (s : State) : Host.Outcome State Fault Refusal :=
  .next (match s.placeOf node with
    | none => s
    | some p =>
      if p.kind == .group || bits (s.regs.eff regStallLimit 0) 23 0 = 0 || !s.hasWork node || s.timersPaused then s
      else
        let u := s.unitOf node
        ((s.modUnit u (fun x => { x with stall := true })).sig u 0x02 (s.oldestTag node)).event 0x0102 node false)

/-- CADENCE_WINDOW: every cell's monitor closes its window of 65 536 beats with a count (R58). DESIGN CHOICE (log 50). -/
def execCadenceWindow (counts : List (Nat × Nat)) (s : State) : Host.Outcome State Fault Refusal :=
  .next (counts.foldl (fun s c =>
    match s.placeOf c.1 with
    | some (.cell _ _) => s.modUnit (s.unitOf c.1) (fun u => { u with cadence := sat 16 (c.2 * 1000 / 65536) })
    | _ => s) s)

/-! ### COMMIT of the unit-tree block (R65) -/

/-- Set the software request of some identifiers' cells. -/
def State.setRequests (s : State) (ids : List Nat) (r : Nat) : State :=
  ids.foldl (fun s i => s.modUnit (s.unitOf i) (fun u => { u with request := r })) s

/-- SLACK_CTL acts at every COMMIT on the node that NODE_SEL names (R65). Where NODE_SEL names no node and SUBTREE is 0 the COMMIT counts
the clamp too, as for a node that is not a cell: DESIGN CHOICE (log 57). -/
def State.applySlack (s : State) : State :=
  let ctl := s.regs.eff regSlackCtl 0
  let id := s.regs.shadow regNodeSel 0 % 65536
  if bit ctl 8 then s.setRequests (s.leavesOf .cell id) (ctl % 64)
  else
    match s.placeOf id with
    | some (.cell _ _) => s.setRequests [id] (ctl % 64)
    | _ => s.clamp (.register regSlackCtl) 1

/-- UNIT_TREE_COMMIT. -/
def State.unitTreeCommit (s : State) : State :=
  (s.applyVals (s.regs.capture 0)).applySlack

/-- UNIT_TREE_COMMIT. -/
def execUnitTreeCommit (s : State) : Host.Outcome State Fault Refusal :=
  .next (s.onWrite (fun s => s.unitTreeCommit))

/-! ### Retirement (R46 to R48) -/

/-- Cell group of a cell's unit. -/
def groupOfUnit (u : Nat) : Option Nat :=
  match placeOf u with
  | some (.cell g _) => some g
  | _ => none

/-- PHYS of a cell (Table 7.9): die, quadrant, cluster and cell group are the bits of the group's number, the slot the five below. -/
def physOf (u : Nat) : Nat :=
  match placeOf u with
  | some (.cell g slot) => g * 32 + slot
  | _ => 0

/-- The 28 bytes of a history record that its CRC covers (Table 7.9). -/
def History.body (h : History) (u : Nat) : List Byte :=
  natLe 2 (physOf u) ++ natLe 1 (h.level % 4 + 4 * b2n h.retired + 8 * b2n h.voltHeld + 16 * b2n h.selftestFail)
    ++ natLe 1 (h.cal % 64) ++ natLe 2 (h.subst % 32) ++ natLe 2 h.events ++ natLe 6 h.last0 ++ natLe 6 h.last1
    ++ natLe 6 h.last2 ++ natLe 2 h.seq

/-- The 32-byte history record of a cell (R268, Table 7.9). -/
def History.record (h : History) (u : Nat) : List Byte := h.body u ++ natLe 4 (crc32 (h.body u))

/-- A record whose CRC is good. -/
def historyGood (r : List Byte) : Bool := r.length == 32 && field r 28 4 == crc32 (r.take 28)

/-- Read a history record. Of the events that it names, the latest does not count toward permanence while VOLT_HELD is 1 (R265).
DEDUCED (log 28). -/
def History.ofRecord (r : List Byte) : History :=
  let st := field r 2 1
  let lasts := [field r 8 6, field r 14 6, field r 20 6]
  ⟨st % 4, bit st 2, bit st 3, bit st 4, field r 3 1 % 64, field r 4 2 % 32, field r 6 2, field r 8 6, field r 14 6, field r 20 6,
    field r 26 2, (if bit st 3 then lasts.tail else lasts).filter (· ≠ 0)⟩

/-- Write a cell's history record: the two copies in flash are written alternately (R268). -/
def State.writeHistory (s : State) (u : Nat) (h : History) : State :=
  { s with tree := { s.tree with
      history := mput History.reset s.tree.history u h
      flash := mput [] s.tree.flash (2 * u + h.seq % 2) (h.record u) } }

/-- Change a cell's history record, its SEQ counting the write (R268). -/
def State.modHistory (s : State) (u : Nat) (f : History → History) : State :=
  let old := mget History.reset s.tree.history u
  s.writeHistory u { f old with seq := (old.seq + 1) % 65536, cal := (s.unit u).calFloor % 64 }

/-- What a step boundary changed in the history goes to flash once for each record, with one step of its SEQ (R269 part 8). `was` is the
state before the boundary's changes. -/
def State.historyOnce (s was : State) : State :=
  (s.tree.history.filter (fun kv => mget History.reset was.tree.history kv.1 ≠ kv.2)).foldl
    (fun s kv => s.writeHistory kv.1 { mget History.reset s.tree.history kv.1 with
      seq := ((mget History.reset was.tree.history kv.1).seq + 1) % 65536 })
    { s with tree := { s.tree with flash := was.tree.flash } }

/-- The history of a cell as start-up finds it: the copy whose CRC is good and whose SEQ is later in serial-number order (R268). -/
def State.flashHistory (s : State) (u : Nat) : History :=
  let copies := ([0, 1].map (fun c => mget [] s.tree.flash (2 * u + c))).filter historyGood
  match copies.map History.ofRecord with
  | [] => History.reset
  | h :: rest => rest.foldl (fun a b => if 0 < (b.seq + 65536 - a.seq) % 65536 && (b.seq + 65536 - a.seq) % 65536 < 32768 then b else a) h

/-- Set a unit's state with its STATE entry and no structural event of its own. -/
def State.quietState (s : State) (u : Nat) (st : NodeState) : State :=
  let old := (s.unit u).state
  if old = st then s
  else (s.modUnit u (fun x => { x with state := st })).sig u 0x01 (old.code + 16 * st.code)

/-- Exchange the identifiers of a retired cell and the spare that serves for it (R33, R46). DEDUCED (log 14). -/
def State.exchange (s : State) (u sp : Nat) : State :=
  let id := s.identOf u
  let sid := s.identOf sp
  let put (m : List (Nat × Nat)) (i v : Nat) : List (Nat × Nat) := if i = v then mdel i m else mins i v m
  { s with tree := { s.tree with names := put (put s.tree.names id sp) sid u } }

/-- Retire the cell of a unit (R46, R48): the group's spare, where it is unused, starts from the state of R139 and takes the cell's
slack, its weights and its identifier. One structural change is counted for the whole. DEDUCED (log 14). -/
def State.retireUnit (s : State) (u : Nat) : State :=
  match groupOfUnit u with
  | none => s
  | some g =>
    if (s.unit u).state == .retired then s
    else
      let s := s.count 0 (ctrId 7 14 15) 1
      let sp := spareId g
      let old := s.unit u
      if (s.unit sp).state == .spare && u ≠ sp then
        let s := s.modUnit sp (fun x => { x with request := max old.effective x.calFloor })
        let s := s.modCell sp (fun _ => CellState.reset)
        let s := (s.reloadBank sp 0 (s.cell u).bank0).reloadBank sp 1 (s.cell u).bank1
        let s := ((s.exchange u sp).quietState u .retired).quietState sp .idle
        let s := s.modHistory u (fun h => { h with retired := true, subst := 16 })
        if s.tree.ready then s.treeChanged else s
      else
        (s.setState u .retired).modHistory u (fun h => { h with retired := true })

end Sys2Proof.Machine
end

