-- ==== Sys2Proof/Machine/MathFn.lean ====
section
/-! DEFINITION. The functions of Table 8.3 that are no rational operation, correctly rounded (R278, R279). Each is
enclosed in a rational interval that is narrowed until both ends convert to one code; its value is then the code
of the exact mathematical function. -/

namespace Sys2Proof.Machine

/-- Round down to p fractional bits. -/
def rdn (p : Nat) (x : Rat) : Rat := ((x * pow2 p).floor : Rat) / pow2 p

/-- Round up to p fractional bits. -/
def rup (p : Nat) (x : Rat) : Rat := -(rdn p (-x))

/-- An interval, lower end first. -/
abbrev Ival := Rat × Rat

/-- Interval sum. -/
def iadd (a b : Ival) : Ival := (a.1 + b.1, a.2 + b.2)
/-- Interval times a rational of either sign. -/
def iscale (c : Rat) (a : Ival) : Ival := if c < 0 then (c * a.2, c * a.1) else (c * a.1, c * a.2)
/-- One over a positive interval, rounded outward. -/
def iinv (p : Nat) (a : Ival) : Ival := (rdn p (1 / a.2), rup p (1 / a.1))
/-- Product of two intervals of non-negative numbers, rounded outward. -/
def imul (p : Nat) (a b : Ival) : Ival := (rdn p (a.1 * b.1), rup p (a.2 * b.2))

/-- A series of positive terms: `next n t` gives term n + 1 from term n; the sum of the first n terms and the last of
them. -/
def series (next : Nat → Ival → Ival) : Nat → Ival × Ival → Ival × Ival
  | 0, acc => acc
  | n + 1, acc =>
    let (sum, t) := series next n acc
    let t' := next n t
    (iadd sum t', t')

/-- e^x for x at least 0: the exponential series on x / 2^k, which is at most 1/4, then k squarings. What the series
leaves out is below its last term. -/
def expPos (p : Nat) (x : Rat) : Ival :=
  if x ≤ 0 then (1, 1)
  else
    let k := (floorLog2 x + 3).toNat
    let y := x / pow2 k
    let (s, t) := series (fun (n : Nat) t => (rdn p (t.1 * y / ((n : Rat) + 1)), rup p (t.2 * y / ((n : Rat) + 1)))) (p / 2 + 8)
      ((1, 1), (1, 1))
    (List.range k).foldl (fun a _ => imul p a a) (s.1, s.2 + t.2)

/-- e^x. -/
def expIval (p : Nat) (x : Rat) : Ival := if x < 0 then iinv p (expPos p (-x)) else expPos p x

/-- The inverse hyperbolic tangent of z, from 0 to 1/3: z + z³/3 + z⁵/5 + …. What the series leaves out is below the
last power. -/
def atanhIval (p : Nat) (z : Rat) : Ival :=
  let (s, t) := (List.range (p / 3 + 4)).foldl (fun (acc : Ival × Ival) (n : Nat) =>
    let t := acc.2
    ((acc.1.1 + rdn p (t.1 / (2 * (n : Rat) + 1)), acc.1.2 + rup p (t.2 / (2 * (n : Rat) + 1))),
     (rdn p (t.1 * z * z), rup p (t.2 * z * z)))) ((0, 0), (z, z))
  (s.1, s.2 + t.2)

/-- ln x for a positive x. -/
def logIval (p : Nat) (x : Rat) : Ival :=
  let e := floorLog2 x
  let m := x / pow2 e
  iadd (iscale (2 * (e : Rat)) (atanhIval p (1 / 3))) (iscale 2 (atanhIval p ((m - 1) / (m + 1))))

/-- √x for a non-negative x. -/
def sqrtIval (p : Nat) (x : Rat) : Ival :=
  let n := Nat.sqrt (x * pow2 (2 * p)).floor.toNat
  ((n : Rat) / pow2 p, ((n : Rat) + 1) / pow2 p)

/-- √x where it is rational. -/
def sqrtExact (x : Rat) : Option Rat :=
  let a := Nat.sqrt x.num.toNat
  let b := Nat.sqrt x.den
  if a * a = x.num.toNat && b * b = x.den then some ((a : Rat) / (b : Rat)) else none

/-- arctan(1/n), by its alternating series. -/
def atanInv (p n : Nat) : Ival :=
  let (s, t) := (List.range (p / 4 + 4)).foldl (fun (acc : Ival × Rat) (i : Nat) =>
    let t := acc.2 / (2 * (i : Rat) + 1)
    let t := if i % 2 = 0 then t else -t
    ((acc.1.1 + rdn p t, acc.1.2 + rup p t), acc.2 / ((n : Rat) * (n : Rat)))) ((0, 0), 1 / (n : Rat))
  (s.1 - t, s.2 + t)

/-- π, by Machin's formula. -/
def piIval (p : Nat) : Ival := iadd (iscale 16 (atanInv p 5)) (iscale (-4) (atanInv p 239))

/-- The upper half of Φ(a) for a from 0 to 17: 1/2 + φ(a) × (a + a³/3 + a⁵/15 + …). What the series leaves out is below
its last term. -/
def phiPos (p : Nat) (a : Rat) : Ival :=
  let n := p + 300
  let (s, t) := series (fun (n : Nat) t =>
    (rdn p (t.1 * a * a / (2 * (n : Rat) + 3)), rup p (t.2 * a * a / (2 * (n : Rat) + 3)))) n ((a, a), (a, a))
  let sum : Ival := (s.1, s.2 + t.2)
  let e := expIval (p + 300) (-(a * a) / 2)
  let twoPi := iscale 2 (piIval p)
  let r : Ival := iinv p ((sqrtIval p twoPi.1).1, (sqrtIval p twoPi.2).2)
  iadd (1 / 2, 1 / 2) (imul p (imul (p + 300) e sum) r)

/-- Narrow an interval until both ends convert to one code. -/
def narrow (enc : Value → Encoded) (b : Nat → Ival) : Nat → Nat → Encoded
  | 0, p => enc (.ofRat (b p).1)
  | fuel + 1, p =>
    let i := b p
    let lo := enc (.ofRat i.1)
    if lo = enc (.ofRat i.2) then lo else narrow enc b fuel (2 * p)

/-- Correct rounding of a function enclosed by b, under a conversion. DEDUCED (log 19). -/
def correctly (enc : Value → Encoded) (b : Nat → Ival) : Encoded := narrow enc b 8 96

/-- A number below every boundary of a conversion and above zero: what a tiny positive result converts as. -/
def tinyRat : Rat := pow2 (-300)

/-- e^a. -/
def fnExp (enc : Value → Encoded) (a : Value) : Encoded :=
  match a with
  | .nan => enc .nan
  | .inf n => enc (if n then .zero else .inf false)
  | .fin r _ =>
    if r = 0 then enc (.ofRat 1)
    else if 200 ≤ r then enc (.ofRat (pow2 280))
    else if r ≤ -200 then enc (.ofRat tinyRat)
    else correctly enc (fun p => expIval p r)

/-- ln a. -/
def fnLog (enc : Value → Encoded) (a : Value) : Encoded :=
  match a with
  | .nan => enc .nan
  | .inf n => enc (if n then .nan else .inf false)
  | .fin r _ =>
    if r = 0 then enc (.inf true)
    else if r < 0 then enc .nan
    else if r = 1 then enc .zero
    else correctly enc (fun p => logIval p r)

/-- tanh a. -/
def fnTanh (enc : Value → Encoded) (a : Value) : Encoded :=
  match a with
  | .nan => enc .nan
  | .inf n => enc (.ofRat (if n then -1 else 1))
  | .fin r nz =>
    let m := if r < 0 then -r else r
    let sg (i : Ival) : Ival := if r < 0 then (-i.2, -i.1) else i
    if r = 0 then enc (.fin 0 nz)
    else if 100 ≤ m then enc (.ofRat (if r < 0 then tinyRat - 1 else 1 - tinyRat))
    else if m < pow2 (-40) then
      correctly enc (fun _ => sg (m - m ^ 3 / 3, m - m ^ 3 / 3 + 2 * m ^ 5 / 15))
    else
      correctly enc (fun p =>
        let e := expPos p (2 * m)
        sg (rdn p ((e.1 - 1) / (e.1 + 1)), rup p ((e.2 - 1) / (e.2 + 1))))

/-- 1/(1 + e^−a). -/
def fnSigmoid (enc : Value → Encoded) (a : Value) : Encoded :=
  match a with
  | .nan => enc .nan
  | .inf n => enc (if n then .zero else .ofRat 1)
  | .fin r _ =>
    if r = 0 then enc (.ofRat (1 / 2))
    else if 200 ≤ r then enc (.ofRat (1 - tinyRat))
    else if r ≤ -200 then enc (.ofRat tinyRat)
    else correctly enc (fun p => iinv p (iadd (1, 1) (expIval p (-r))))

/-- a × Φ(a) (R279). -/
def fnGelu (enc : Value → Encoded) (a : Value) : Encoded :=
  match a with
  | .nan => enc .nan
  | .inf n => enc (if n then .fin 0 true else .inf false)
  | .fin r nz =>
    if r = 0 then enc (.fin 0 nz)
    else if 17 ≤ r then enc (.ofRat (r * (1 - pow2 (-200))))
    else if r ≤ -17 then enc (.ofRat (-tinyRat))
    else correctly enc (fun p =>
      if r < 0 then
        let i := phiPos (p + 400) (-r)
        iscale r (1 - i.2, 1 - i.1)
      else iscale r (phiPos p r))

/-- √a. -/
def fnSqrt (enc : Value → Encoded) (a : Value) : Encoded :=
  match a with
  | .nan => enc .nan
  | .inf n => enc (if n then .nan else .inf false)
  | .fin r nz =>
    if r = 0 then enc (.fin 0 nz)
    else if r < 0 then enc .nan
    else
      match sqrtExact r with
      | some q => enc (.ofRat q)
      | none => correctly enc (fun p => sqrtIval (p + 100) r)

/-- 1/√a. -/
def fnRsqrt (enc : Value → Encoded) (a : Value) : Encoded :=
  match a with
  | .nan => enc .nan
  | .inf n => enc (if n then .nan else .zero)
  | .fin r nz =>
    if r = 0 then enc (.inf nz)
    else if r < 0 then enc .nan
    else
      match sqrtExact r with
      | some q => enc (.ofRat (1 / q))
      | none => correctly enc (fun p => iinv (p + 200) (sqrtIval (p + 200) r))

/-- A conversion to FP32, nearest-even. -/
def encFp32 (v : Value) : Encoded := encode .fp32 .nearest false 0 0 v

/-- The FP32 value of an encoded FP32 element. -/
def Encoded.fp32 (e : Encoded) : Value := fp32Value e.code

/-- a × s with s the sigmoid of a rounded to FP32 (Table 8.3). -/
def fnSilu (enc : Value → Encoded) (a : Value) : Encoded := enc (a.times (fnSigmoid encFp32 a).fp32)

end Sys2Proof.Machine
end

