-- ==== Sys2Proof/Machine/Vector.lean ====
section
/-! DEFINITION. The vector engines: VEC, REDUCE, ROTATE, DIGEST (chapter 08 and R623 to R626) and CHECK (R238 to
R243). -/

namespace Sys2Proof.Machine

/-! ### Outputs -/

/-- Counters of Table 8.8 by position. -/
def ctrVe (n : Nat) : Nat := ctrId 8 8 n

/-- An output format of a vector engine: FP32 or BF16, any other code read as BF16 (Tables 8.2 and 8.4). Codes 0xB to 0xF fall under
R67, which reads them as FP32, before those tables' "any other code" is asked, in ROTATE's CONV (Table 16.12) as well. DESIGN CHOICE
(log 57). -/
def readWideOut (code : Nat) : Fmt × Nat :=
  let (f, n) := readFmt code
  match f with
  | .fp32 | .bf16 => (f, n)
  | .b1 | .t2 | .i3 | .i4 | .f4 | .f6 | .f8m | .f8x | .i8 => (.bf16, n + 1)

/-- Whether a result is NaN made from inputs that held none, and whether it is an infinity made from finite inputs
(Table 8.8). -/
def madeFlags (ins : List Value) (y : Value) : Nat × Nat :=
  (b2n (y.isNan && ins.all (fun v => !v.isNan)),
   b2n (!y.isNan && !y.isFin && ins.all (fun v => v.isFin)))

/-- One result element: its code, whether it is poisoned, NaN made, infinity made, and what its conversion found. -/
structure OutElem where
  code : Nat
  poison : Bool
  nanMade : Nat
  ovf : Nat
  found : Findings
deriving DecidableEq, Repr

/-- A result element from its inputs. -/
def OutElem.of (f : Fmt) (ins : List Value) (poison : Bool) (e : Encoded) : OutElem :=
  let m := madeFlags ins (f.value e.code)
  ⟨e.code, poison, m.1, m.2, Findings.of e⟩

/-- Write a row of results (R90, R97, R300): whether any stands poisoned, state. -/
def State.writeOut (s : State) (u a b : Nat) (es : List OutElem) (src : ClampSource) : Bool × State :=
  let (bad, n, s) := s.writeCodes a b (es.map (·.code)) (es.map (·.poison))
  let s := (s.clamp src n).count u (ctrVe 0) es.length
  let s := s.countFindings u (es.foldl (fun f e => f.join e.found) Findings.none)
  let s := s.count u (ctrVe 2) (es.foldl (fun n e => n + e.nanMade) 0)
  (bad || es.any (·.poison), s.count u (ctrVe 3) (es.foldl (fun n e => n + e.ovf) 0))

/-- Run the rows of a descriptor on the vector engines, each of which spends `work` handshakes on its n rows. -/
def State.runRows (s : State) (k cls : Nat) (sl : Slot) (rows : Nat) (work : Nat → Nat)
    (f : Nat → Nat → State → PieceDone × State) : State :=
  s.runPieces k cls .vectorEngine sl rows (fun u i0 n s =>
    (rangeFrom i0 n).foldl (fun acc i => PieceDone.add acc (f u i)) (PieceDone.none, s.veWork u (work n)))

/-- A row that holds a poisoned result, or not. -/
def PieceDone.row (r : Bool × State) : PieceDone × State := (⟨0, 0, b2n r.1, false⟩, r.2)

/-- A row that holds a poisoned result, or not, and that met poison which no result takes (R335), or not. -/
def PieceDone.rowRead (r : Bool × Bool × State) : PieceDone × State := (⟨0, 0, b2n r.1, r.2.1⟩, r.2.2)

/-! ### VEC (R282 to R287, R603, R604) -/

/-- One operand of a VEC. -/
inductive VecOperand where
  | element (base stride : Nat) (f : Fmt)
  | row (base : Nat) (f : Fmt)
  | scalar (v : Value)
deriving DecidableEq, Repr

/-- Read one operand's mode, format, base, stride and scalar: `none` mode reads as scalar +0 with a clamp. -/
def readOperand (mode fmtCode base stride sc : Nat) : VecOperand × Nat :=
  match mode % 4 with
  | 0 => let (f, n) := readSrcFmt fmtCode; (.element base stride f, n)
  | 1 => let (f, n) := readSrcFmt fmtCode; (.row base f, n)
  | 2 => (.scalar (fp32Value sc), 0)
  | _ => (.scalar .zero, 1)

/-- Whether an operand lies within the engine's reach. -/
def VecOperand.ok (o : VecOperand) (rows cols : Nat) : Bool :=
  match o with
  | .element b st f => rowsIn inVe b (cols * wideBytes f) st rows
  | .row b f => inVe b (rows * wideBytes f)
  | .scalar _ => true

/-- Read row i of an operand. -/
def State.readOperandRow (s : State) (o : VecOperand) (i cols : Nat) : List (Value × Bool) × State :=
  match o with
  | .element b st f => s.readVals f (b + i * st) cols
  | .row b f =>
    let (xs, s) := s.readVals f (b + i * wideBytes f) 1
    (List.replicate cols (xs.headD (.zero, false)), s)
  | .scalar v => (List.replicate cols (v, false), s)

/-- Operands an operation needs, and handshakes per 64 elements (Table 8.3). -/
def vecNeeds (op : Nat) : Nat × Nat :=
  match op with
  | 0x01 | 0x02 | 0x03 | 0x06 | 0x07 | 0x14 => (2, 1)
  | 0x04 | 0x13 => (3, 1)
  | 0x05 => (2, 4)
  | 0x0A | 0x0B | 0x0C => (1, 4)
  | 0x0D | 0x0E | 0x0F | 0x10 | 0x12 => (1, 8)
  | 0x11 => (1, 9)
  | _ => (1, 1)

/-- Handshakes of n rows of a VEC (Tables 8.3 and 8.6). -/
def vecWork (op cols n : Nat) : Nat := n * ((cols + 63) / 64) * (vecNeeds op).2

/-- The draw threshold of DROPOUT (R284): ⌊p × 2^24⌋ with p clipped to 0 to 1 under R87. -/
def dropThreshold (p : Value) : Nat :=
  match (p.max2 .zero).min2 (.ofRat 1) with
  | .fin r _ => (r * 16777216).floor.toNat
  | .nan | .inf _ => 0

/-- The result of an element-wise operation, under a conversion `enc`; `u` is the element's draw (R281, R283 to R285).
DROPOUT rounds under `enc2`, whose draw comes from the next stream. DEDUCED (log 19). -/
def vecOp (op : Nat) (enc enc2 : Value → Encoded) (u : Nat) (a b c : Value) : Encoded :=
  match op with
  | 0x01 => enc (a.add b)
  | 0x02 => enc (a.sub b)
  | 0x03 => enc (a.times b)
  | 0x04 => enc ((a.times b).add c)
  | 0x05 => enc (a.quot b)
  | 0x06 => enc (a.min2 b)
  | 0x07 => enc (a.max2 b)
  | 0x08 => enc a.abs
  | 0x09 => enc a.negate
  | 0x0A => fnSqrt enc a
  | 0x0B => fnRsqrt enc a
  | 0x0C => enc ((Value.ofRat 1).quot a)
  | 0x0D => fnExp enc a
  | 0x0E => fnLog enc a
  | 0x0F => fnTanh enc a
  | 0x10 => fnSigmoid enc a
  | 0x11 => fnSilu enc a
  | 0x12 => fnGelu enc a
  | 0x13 => if u < dropThreshold c then enc .zero else enc2 (a.times b)
  | 0x14 => enc ((b.times (.ofRat (((2 * u + 1 : Nat) : Rat) / 33554432))).add a)
  | _ => enc a

/-- VEC as the engine reads it. -/
structure VecArgs where
  op : Nat
  a : VecOperand
  b : VecOperand
  c : VecOperand
  dst : Nat
  dstStride : Nat
  out : Fmt
  rnd : Rnd
  clip : Bool
  rows : Nat
  cols : Nat
  rspec : Rspec
deriving DecidableEq, Repr

/-- OP of a VEC: a reserved code runs as COPY (Table 8.3). -/
def readVecOp (code : Nat) : Nat × Nat := if code ≤ 0x16 then (code, 0) else (0, 1)

/-- Read an element-wise VEC (Tables 8.2 and 16.13). An operand the operation does not need is not read. -/
def readVec (d ext : List Byte) : VecArgs × Nat :=
  let (op, c0) := readVecOp (field d 32 1)
  let modes := field d 33 1
  let need := (vecNeeds op).1
  let ab := field d 34 1
  let opnd (n mode fmt : Nat) : VecOperand × Nat :=
    if n < need then readOperand mode fmt (addr48 d (8 + 6 * n)) (field ext (4 * n) 4) (field ext (16 + 4 * n) 4)
    else (.scalar .zero, 0)
  let (a, c1) := opnd 0 (bits modes 1 0) (ab % 16)
  let (b, c2) := opnd 1 (bits modes 3 2) (ab / 16)
  let (c, c3) := opnd 2 (bits modes 5 4) (field d 35 1 % 16)
  let conv := field d 36 1
  let (out, c4) := readWideOut (conv % 16)
  let (rnd, c5) := readRnd (bits conv 5 4)
  (⟨op, a, b, c, addr48 d 26, field ext 12 4, out, rnd, bit conv 6, field d 40 4 % 2 ^ 20 + 1,
    field d 44 4 % 2 ^ 20 + 1, readRspec ext 28⟩, c0 + c1 + c2 + c3 + c4 + c5)

/-- The inputs that an operation takes, of three. -/
def vecInputs (op : Nat) (a b c : Value) : List Value := [a, b, c].take (vecNeeds op).1

/-- One row of an element-wise VEC: whether it holds a poisoned result. -/
def State.vecRow (s : State) (v : VecArgs) (u : Nat) (src : ClampSource) (i : Nat) : Bool × State :=
  let (as, s) := s.readOperandRow v.a i v.cols
  let (bs, s) := s.readOperandRow v.b i v.cols
  let (cs, s) := s.readOperandRow v.c i v.cols
  let sto := v.rnd == .stochastic
  let draws := sto || v.op == 0x13 || v.op == 0x14
  let o := i * v.cols
  let n := squallEvals (v.rspec.origin + o) v.cols
  let s := s.count u ctrSqEvals ((if draws then n else 0) + (if sto && v.op == 0x13 then n else 0))
  let next : Rspec := { v.rspec with stream := (v.rspec.stream + 1) % 2 ^ 32 }
  let es := ((as.zip bs).zip (cs.zip (List.range v.cols))).map (fun x =>
    let (a, b, c) := (x.1.1, x.1.2, x.2.1)
    let dr := if draws then v.rspec.draw (o + x.2.2) else 0
    let dr2 := if sto && v.op == 0x13 then next.draw (o + x.2.2) else 0
    OutElem.of v.out (vecInputs v.op a.1 b.1 c.1) (a.2 || b.2 || c.2)
      (vecOp v.op (encode v.out v.rnd v.clip 0 dr) (encode v.out v.rnd v.clip 0 dr2) dr a.1 b.1 c.1))
  s.writeOut u (v.dst + i * v.dstStride) (wideBytes v.out) es src

/-- Element-wise VEC. -/
def State.vecElem (s : State) (k : Nat) (sl : Slot) : State :=
  let (v, clamps) := readVec sl.desc sl.ext
  let s := s.clamp sl.source clamps
  if !(v.a.ok v.rows v.cols && v.b.ok v.rows v.cols && v.c.ok v.rows v.cols
      && rowsIn inVe v.dst (v.cols * wideBytes v.out) v.dstStride v.rows) then
    (s.clamp sl.source 1).finish k 2 .aborted 0
  else
    s.runRows k 2 sl v.rows (vecWork v.op v.cols)
      (fun u i s => PieceDone.row (s.vecRow v u sl.source i))

/-- DEQUANT as the engine reads it (R286). -/
structure DequantArgs where
  code : Nat
  rrec : Nat
  side : Nat
  fmt : Fmt
  map : Option Nat
  pitch : Nat
  dst : Nat
  dstStride : Nat
  out : Fmt
  rnd : Rnd
  clip : Bool
  rows : Nat
  cols : Nat
  rspec : Rspec
deriving DecidableEq, Repr

/-- Read a DEQUANT. With MAP_IN at 1 A_FMT is not read, and an illegal code in it counts no clamp. DESIGN CHOICE (log 57). -/
def readDequant (d ext : List Byte) : DequantArgs × Nat :=
  let map := bit (field d 37 1) 0
  let (f, c0) := if map then (Fmt.i8, 0) else readArrayFmt (field d 34 1 % 16)
  let conv := field d 36 1
  let (out, c1) := readWideOut (conv % 16)
  let (rnd, c2) := readRnd (bits conv 5 4)
  let (pitch, c3) := readPitch (field ext 54 1)
  (⟨addr48 d 8, addr48 d 14, addr48 d 20, f, if map then some (addr48 ext 48) else none, pitch, addr48 d 26,
    field ext 12 4, out, rnd, bit conv 6, field d 40 4 % 2 ^ 20 + 1, field d 44 4 % 2 ^ 20 + 1, readRspec ext 28⟩,
   c0 + c1 + c2 + c3)

/-- The formats of a DEQUANT's blocks, each with whether its map entry was poisoned, and the clamps of entries (R67, R68). -/
def State.dequantFmts (s : State) (a : DequantArgs) : List (Fmt × Bool) × Nat × State :=
  let n := (a.rows + 127) / 128 * ((a.cols + 127) / 128)
  match a.map with
  | none => (List.replicate n (a.fmt, false), 0, s)
  | some m =>
    let (bs, ps, s) := s.readLocal m n
    let fs := bs.map (fun b => readArrayFmt (b.toNat % 16))
    ((fs.zip ps).map (fun x => (x.1.1, x.2)), fs.foldl (fun c x => c + x.2) 0, s)

/-- Whether a DEQUANT lies within the engine's reach (R276); a block in B1, F8M or F8X reads no side slot (R286). -/
def DequantArgs.rangesOk (a : DequantArgs) (fmts : List (Fmt × Bool)) : Bool :=
  let nc := (a.cols + 127) / 128
  inVe a.rrec (8 * a.rows) && rowsIn inVe a.dst (a.cols * wideBytes a.out) a.dstStride a.rows
    && (fmts.zip (List.range fmts.length)).all (fun x =>
      inVe (a.code + x.2 * max a.pitch (blockNeed x.1.1)) (blockNeed x.1.1)
        && (!x.1.1.hasEscape || rowsIn inVe (a.side + (x.2 / nc * 128 * nc + x.2 % nc) * 24) 24 (24 * nc)
          (min 128 (a.rows - 128 * (x.2 / nc)))))

/-- The bytes of a packed row that hold element i of width w carry poison (R298). -/
def codePoison (w : Nat) (ps : List Bool) (i : Nat) : Bool :=
  ((ps.drop (i * w / 8)).take ((i * w + w - 1) / 8 + 1 - i * w / 8)).any id

/-- One group of a row of DEQUANT: its result elements, the side slots with a valid entry, and whether its side slot was poisoned. An
element is poisoned by the bytes of its code, its row record and its block's map entry, and an escape by its side slot too (R298). The
elements of a NaN row count CONV_NONFINITE, as every conversion of a NaN does (Table 3.12), beside the ROW_NAN of the row. DESIGN CHOICE
(log 57). -/
def State.dequantGroup (s : State) (a : DequantArgs) (u : Nat) (fmts : List (Fmt × Bool)) (i c : Nat)
    (sc : Option Rat) (zpByte : Nat) (rp : Bool) : List OutElem × Nat × Bool × State :=
  let nc := (a.cols + 127) / 128
  let kb := i / 128 * nc + c
  let (f, mp) := fmts.getD kb (a.fmt, false)
  let pitch := max a.pitch (blockNeed f)
  let n := min 128 (a.cols - 128 * c)
  let (bs, p1, s) := s.readLocal (a.code + kb * pitch + i % 128 * 16 * f.width) ((n * f.width + 7) / 8)
  let (slot, p2, s) :=
    if f.hasEscape then s.readLocal (a.side + (i * nc + c) * 24) 24 else (List.replicate 24 0, [], s)
  let s := s.count u (ctrVe 6) (b2n f.hasEscape)
  let valid := f.hasEscape && (List.range 8).any (fun e => bit (field slot (16 + e) 1) 7)
  let (es, un, stray, _) := sliceElems f (unpackRow f bs n) slot 0 n sc.isNone
  let s := (s.count u (ctrId 3 12 3) un).count u (ctrId 6 12 8) stray
  let z := (readZp f zpByte).1
  (((es.zip (List.range n)).map (fun x =>
    let dr := if a.rnd == .stochastic then a.rspec.draw (i * a.cols + 128 * c + x.2) else 0
    let v := match sc with
      | none => .nan
      | some t => if x.1.esc then x.1.v.mulScale t else rowValue z t x.1.v
    let ins := if sc.isNone then [Value.nan] else [x.1.v]
    let p := rp || mp || codePoison f.width p1 x.2 || (x.1.esc && anyPoison p2)
    OutElem.of a.out ins p (encode a.out a.rnd a.clip 0 dr v))), b2n valid, anyPoison p2, s)

/-- One row of a DEQUANT: whether it holds a poisoned result, and whether a side slot was poisoned. A ZP out of the bounds of several of the row's blocks counts one clamp,
since it is one field of one record. DESIGN CHOICE (log 57). -/
def State.dequantRow (s : State) (a : DequantArgs) (u : Nat) (src : ClampSource) (fmts : List (Fmt × Bool)) (i : Nat) :
    Bool × Bool × State :=
  let nc := (a.cols + 127) / 128
  let (rec, rp, s) := s.readLocal (a.rrec + 8 * i) 8
  let (sc, c) := readScale (field rec 0 4)
  let zc := (List.range nc).any (fun c => (readZp (fmts.getD (i / 128 * nc + c) (a.fmt, false)).1 (field rec 4 1)).2)
  let s := (s.count u (ctrId 3 12 2) (b2n sc.isNone)).clamp src (b2n c + b2n zc)
  let s := if a.rnd == .stochastic then s.count u ctrSqEvals (squallEvals (a.rspec.origin + i * a.cols) a.cols) else s
  let (es, x, sp, s) := (List.range nc).foldl (fun (g : List OutElem × Nat × Bool × State) c =>
    let (e, x, sp, s) := g.2.2.2.dequantGroup a u fmts i c sc (field rec 4 1) (anyPoison rp)
    (g.1 ++ e, g.2.1 + x, g.2.2.1 || sp, s)) ([], 0, false, s)
  let (p, s) := (s.veWork u x).writeOut u (a.dst + i * a.dstStride) (wideBytes a.out) es src
  (p, sp, s)

/-- DEQUANT (R286). Its ranges are judged before anything is read (R276). -/
def State.dequant (s : State) (k : Nat) (sl : Slot) : State :=
  let (a, clamps) := readDequant sl.desc sl.ext
  let s := s.clamp sl.source clamps
  let nc := (a.cols + 127) / 128
  let mapOk := match a.map with | some m => inVe m ((a.rows + 127) / 128 * nc) | none => true
  if !(mapOk && a.rangesOk (s.dequantFmts a).1) then (s.clamp sl.source 1).finish k 2 .aborted 0
  else
    let (fmts, n, s) := s.dequantFmts a
    let s := s.clamp sl.source (n + b2n (fmts.any (fun f => a.pitch < blockNeed f.1)))
    s.runRows k 2 sl a.rows (vecWork 0x15 a.cols)
      (fun u i s => PieceDone.rowRead (s.dequantRow a u sl.source fmts i))

/-- One side of ZPCORR: zero points and sums of code sums by row, with poison (R287). -/
def State.zpSide (s : State) (rrec csum nc n : Nat) : List (Int × Int × Bool) × State :=
  (List.range n).foldl (fun (acc : List (Int × Int × Bool) × State) r =>
    let (rb, p1, s) := acc.2.readLocal (rrec + 8 * r) 8
    let (cb, p2, s) := s.readLocal (csum + 4 * r * nc) (4 * nc)
    let sum := (List.range nc).foldl (fun (t : Int) g => t + sext 32 (field cb (4 * g) 4)) 0
    (acc.1 ++ [(sext 8 (field rb 4 1), sum, anyPoison p1 || anyPoison p2)], s)) ([], s)

/-- ZPCORR (R222, R287, R604). -/
def State.zpcorr (s : State) (k : Nat) (sl : Slot) : State :=
  let d := sl.desc
  let ext := sl.ext
  let kp0 := field ext 16 4
  let kp := min kp0 (2 ^ 20)
  let nc := (kp + 127) / 128
  let rows := field d 40 4 % 2 ^ 20 + 1
  let cols := field d 44 4 % 2 ^ 20 + 1
  let c5 := (readRnd (bits (field d 36 1) 5 4)).2
  let s := s.clamp sl.source (b2n (kp ≠ kp0) + c5)
  let (a, b, c, x, dst, st) := (addr48 d 8, addr48 d 14, addr48 d 20, addr48 ext 48, addr48 d 26, field ext 12 4)
  if !(inVe a (8 * rows) && inVe b (8 * cols) && inVe c (4 * rows * nc) && inVe x (4 * cols * nc)
      && rowsIn inVe dst (16 * cols) st rows) then
    (s.clamp sl.source 1).finish k 2 .aborted 0
  else
    let (as, s) := s.zpSide a c nc rows
    let (ws, s) := s.zpSide b x nc cols
    s.runRows k 2 sl rows (vecWork 0x16 cols) (fun u i s =>
      let (za, ra, pa) := as.getD i (0, 0, false)
      let recs := ws.map (fun w => partialRecord ((kp : Int) * za * w.1 - w.1 * ra - za * w.2.1) 0 .finite false)
      let ps := ws.map (fun w => pa || w.2.2)
      let (m, n, s) := s.writeLocal (dst + i * st) recs.flatten (flagsPer 16 ps)
      PieceDone.row (m || ps.any id, (s.clamp sl.source n).count u (ctrVe 0) cols))

/-- VEC (R282 to R287). -/
def runVec (k : Nat) (sl : Slot) (s : State) : State :=
  match (readVecOp (field sl.desc 32 1)).1 with
  | 0x15 => s.dequant k sl
  | 0x16 => s.zpcorr k sl
  | _ => s.vecElem k sl

/-- VEC. -/
def execVec (slot : Nat) (s : State) : Host.Outcome State Fault Refusal :=
  .next (s.withDesc slot [0x10] (runVec slot))

/-! ### REDUCE (R288 to R296, R605) -/

/-- How REDUCE reads an input (Table 8.4). -/
inductive RedIn where
  | wide (f : Fmt)
  | wire
  | records
deriving DecidableEq, Repr

/-- REDUCE as the engine reads it. -/
structure RedArgs where
  op : Nat
  across : Bool
  input : RedIn
  out : Fmt
  raw : Bool
  rnd : Rnd
  clip : Bool
  src : Nat
  g : Nat
  beta : Nat
  dst : Nat
  nIn : Nat
  rows : Nat
  cols : Nat
  eps : Nat
  srcStride : Nat
  dstStride : Nat
  pitch : Nat
  rspec : Rspec
deriving DecidableEq, Repr

/-- OP and AXIS of a REDUCE after the corrections of Tables 8.4 and 8.5, and their clamps. -/
def readRedOp (ctl : Nat) : Nat × Bool × Nat :=
  let op0 := ctl % 16
  let op := if op0 ≤ 9 then op0 else 0
  let ax := bit ctl 4
  let want := if op = 9 then true else if op = 0 || op = 2 || op = 3 then ax else false
  (op, want, b2n (op ≠ op0) + b2n (want ≠ ax))

/-- Whether a REDUCE of these bytes reads its extension block (R605). -/
def reduceNeedsExt (d : List Byte) : Bool :=
  (readRedOp (field d 32 1)).2.1 || bits (field d 33 1) 5 4 == 1

/-- Read a REDUCE (Tables 8.4 and 16.14). -/
def readReduce (d ext : List Byte) : RedArgs × Nat :=
  let ctl := field d 32 1
  let (op, across, c0) := readRedOp ctl
  let inf := bits ctl 6 5
  let (input, c1) : RedIn × Nat :=
    if op = 9 then (.records, b2n (inf ≠ 3))
    else match inf with
      | 0 => (.wide .bf16, 0)
      | 1 => (.wide .fp32, 0)
      | 2 => (.wire, 0)
      | _ => (.wide .fp32, 1)
  let conv := field d 33 1
  let raw := op = 9 && conv % 16 = 15
  let (out, c2) := if raw || op = 5 then (Fmt.fp32, 0) else readWideOut (conv % 16)
  let (rnd, c3) := readRnd (bits conv 5 4)
  let n := field d 40 4 % 2 ^ 20
  (⟨op, across, input, out, raw, rnd, bit conv 6, addr48 d 8, addr48 d 14, addr48 d 20, addr48 d 26,
    field d 34 2 + 1, field d 36 4 % 2 ^ 20 + 1, if across then n + 1 else n, field d 44 4, field d 48 4, field d 52 4,
    field ext 0 8, readRspec ext 8⟩, c0 + c1 + c2 + c3)

/-- Bytes that n elements of an input take. -/
def RedIn.extent (i : RedIn) (n : Nat) : Nat :=
  match i with
  | .wide f => n * wideBytes f
  | .wire => (n + 127) / 128 * 68
  | .records => 16 * n

/-- Whether an operation is one of the normalisations, with one result per element. -/
def RedArgs.norm (a : RedArgs) : Bool := a.op == 6 || a.op == 7 || a.op == 8

/-- Bytes of one result. -/
def RedArgs.outBytes (a : RedArgs) : Nat := if a.raw then 16 else if a.op = 5 then 4 else wideBytes a.out

/-- Results per row. -/
def RedArgs.outCols (a : RedArgs) : Nat := if a.across || a.norm then a.cols else 1

/-- Whether a REDUCE lies within the engine's reach. -/
def RedArgs.rangesOk (a : RedArgs) : Bool :=
  (if a.across then (List.range a.nIn).all (fun n =>
      rowsIn inVe (a.src + n * a.pitch) (a.input.extent a.cols) a.srcStride a.rows)
    else rowsIn inVe a.src (a.input.extent a.cols) a.srcStride a.rows) &&
  rowsIn inVe a.dst (a.outCols * a.outBytes) a.dstStride a.rows &&
  (!(a.op == 6 || a.op == 7) || inVe a.g (4 * a.cols)) && (!(a.op == 7) || inVe a.beta (4 * a.cols))

/-- Read n elements of an input that is no record: values with poison, and whether a code of a wire block beyond them was poisoned. -/
def State.readRed (s : State) (i : RedIn) (a n u : Nat) (src : ClampSource) : List (Value × Bool) × Bool × State :=
  match i with
  | .wide f =>
    let (xs, s) := s.readVals f a n
    (xs, false, s)
  | .records =>
    let (xs, s) := s.readVals .fp32 a n
    (xs, false, s)
  | .wire =>
    let (xs, s) := (List.range ((n + 127) / 128)).foldl (fun (acc : List (Value × Bool) × State) b =>
      let (bs, ps, s) := acc.2.readLocal (a + 68 * b) 68
      let w := wireDecode bs
      let s := ((s.clamp src (b2n w.clamp)).count u (ctrId 3 12 2) (b2n w.rowNan)).count u (ctrId 3 12 3) w.unmatched
      (acc.1 ++ (w.vals.zip (List.range 128)).map (fun v => (v.1, codePoison 4 ps v.2 || anyPoison (ps.drop 64))), s)) ([], s)
    (xs.take n, (xs.drop n).any (·.2), s)

/-- SUM, SUMSQ, MAX, MIN and MAXABS of some values (Table 8.5, R291): the value before the final rounding. -/
def redValue (op : Nat) (xs : List Value) : Value :=
  match op with
  | 1 => treeSum (xs.map (fun x => fmul x x))
  | 2 => if xs.isEmpty then .inf true else xs.foldl Value.max2 .nan
  | 3 => if xs.isEmpty then .inf false else xs.foldl Value.min2 .nan
  | 4 => if xs.isEmpty then .zero else xs.foldl (fun m x => m.max2 x.abs) .nan
  | _ => treeSum xs

/-- ARGMAX (R292). -/
def argmax (xs : List Value) : Nat :=
  let m := xs.foldl Value.max2 .nan
  if m.isNan then 0xFFFFFFFF else
    let same (a b : Value) : Bool := match a, b with
      | .fin x _, .fin y _ => x == y && a.neg == b.neg
      | .inf n, .inf k => n == k
      | _, _ => false
    (xs.findIdx? (fun x => same x m)).getD 0xFFFFFFFF

/-- Reciprocal square root in FP32. -/
def frsqrt (v : Value) : Value := (fnRsqrt encFp32 v).fp32

/-- The normalisations of R293: each element's conversion under `enc`, whose argument is the column. `eps` is EPS as R82
reads it. The Boolean says that the row is fully masked. -/
def normRow (op : Nat) (enc : Nat → Value → Encoded) (xs gs bs : List Value) (eps : Value) : List Encoded × Bool :=
  let n : Value := .ofRat (xs.length : Rat)
  let ix := List.range xs.length
  match op with
  | 6 =>
    let q := treeSum (xs.map (fun x => fmul x x))
    let r := frsqrt (fadd (fdiv q n) eps)
    (((xs.zip gs).zip ix).map (fun x => enc x.2 ((fmul x.1.1 r).times x.1.2)), false)
  | 7 =>
    let m := fdiv (treeSum xs) n
    let ds := xs.map (fun x => fsub x m)
    let v := fdiv (treeSum (ds.map (fun d => fmul d d))) n
    let r := frsqrt (fadd v eps)
    (((ds.zip (gs.zip bs)).zip ix).map (fun x => enc x.2 (((fmul x.1.1 r).times x.1.2.1).add x.1.2.2)), false)
  | _ =>
    let m := xs.foldl Value.max2 .nan
    if m = .inf true then (ix.map (fun c => enc c .zero), true)
    else
      let es := xs.map (fun x => (fnExp encFp32 (fsub x m)).fp32)
      let sum := treeSum es
      ((es.zip ix).map (fun x => enc x.2 (x.1.quot sum)), false)

/-- The conversion of output (i, c), with the draw of R281. -/
def RedArgs.enc (a : RedArgs) (i c : Nat) (v : Value) : Encoded :=
  encode a.out a.rnd a.clip 0 (if a.rnd == .stochastic then a.rspec.draw (i * a.cols + c) else 0) v

/-- One row of a REDUCE along rows: whether it holds a poisoned result, and whether other poison was read. DEDUCED (log 19). -/
def State.redRow (s : State) (a : RedArgs) (u : Nat) (src : ClampSource) (gs bs : List (Value × Bool)) (eps : Value)
    (i : Nat) : Bool × Bool × State :=
  let (xs, more, s) := s.readRed a.input (a.src + i * a.srcStride) a.cols u src
  let vs := xs.map (·.1)
  let p := xs.any (·.2) || gs.any (·.2) || bs.any (·.2)
  let dst := a.dst + i * a.dstStride
  let s := if a.rnd == .stochastic && a.op ≠ 5 then
      s.count u ctrSqEvals (squallEvals (a.rspec.origin + i * a.cols) a.outCols) else s
  let (out, s) :=
    if a.op = 5 then s.writeOut u dst 4 [⟨argmax vs, p, 0, 0, Findings.none⟩] src
    else if a.norm then
      let (es, masked) := normRow a.op (a.enc i) vs (gs.map (·.1)) (bs.map (·.1)) eps
      let s := s.count u (ctrVe 4) (b2n (masked && a.cols ≠ 0))
      s.writeOut u dst (wideBytes a.out) ((es.zip (gs.zip bs)).map (fun e =>
        OutElem.of a.out (vs ++ [e.2.1.1, e.2.2.1]) p e.1)) src
    else s.writeOut u dst (wideBytes a.out) [OutElem.of a.out vs p (a.enc i 0 (redValue a.op vs))] src
  (out, more, s)

/-- One row of a REDUCE across inputs other than XADD: the positions written poisoned, and whether other poison was read. -/
def State.redAcross (s : State) (a : RedArgs) (u : Nat) (src : ClampSource) (i : Nat) : Nat × Bool × State :=
  let (ins, more, s) := (List.range a.nIn).foldl (fun (acc : List (List (Value × Bool)) × Bool × State) n =>
    let (xs, m, s) := acc.2.2.readRed a.input (a.src + n * a.pitch + i * a.srcStride) a.cols u src
    (acc.1 ++ [xs], acc.2.1 || m, s)) ([], false, s)
  let s := if a.rnd == .stochastic then s.count u ctrSqEvals (squallEvals (a.rspec.origin + i * a.cols) a.cols) else s
  let es := (List.range a.cols).map (fun c =>
    let xs := ins.map (fun r => r.getD c (.zero, false))
    OutElem.of a.out (xs.map (·.1)) (xs.any (·.2)) (a.enc i c (redValue a.op (xs.map (·.1)))))
  let (kept, s) := s.writeOut u (a.dst + i * a.dstStride) (wideBytes a.out) es src
  let n := (es.filter (·.poison)).length
  (if n = 0 then b2n kept else n, more, s)

/-- One row of an XADD (R294): results with INEXACT set, positions written poisoned. -/
def State.xaddRow (s : State) (a : RedArgs) (u : Nat) (src : ClampSource) (i : Nat) : Nat × Nat × State :=
  let (ins, s) := (List.range a.nIn).foldl (fun (acc : List (List (Partial × Bool)) × State) n =>
    let (bs, ps, s) := acc.2.readLocal (a.src + n * a.pitch + i * a.srcStride) (16 * a.cols)
    let rs := ((splitEvery 16 a.cols bs).zip (splitEvery 16 a.cols ps)).map (fun x => (readPartial x.1, x.2.any id))
    let s := s.clamp src ((rs.filter (fun r => r.1.2)).length)
    (acc.1 ++ [rs.map (fun r => (r.1.1, r.2))], s)) ([], s)
  let s := s.count u (ctrVe 5) (a.nIn * a.cols)
  let recs := (List.range a.cols).map (fun c => ins.map (fun r => r.getD c (⟨0, -8, .finite, false⟩, false)))
  let sums := recs.map (fun xs => (exactAdd (xs.map (·.1)), xs.any (·.2)))
  let vals := recs.map (fun xs => xs.map (fun x => x.1.value))
  let inx := (sums.filter (fun x => x.1.inexact)).length
  let s := s.count u (ctrId 5 8 6) inx
  let n := (sums.filter (·.2)).length
  let dst := a.dst + i * a.dstStride
  if a.raw then
    let (bad, cl, s) := s.writeLocal dst (sums.flatMap (fun x => x.1.bytes)) (flagsPer 16 (sums.map (·.2)))
    let made := (sums.zip vals).map (fun x => madeFlags x.2 x.1.1.value)
    let s := ((s.clamp src cl).count u (ctrVe 0) a.cols).count u (ctrVe 2) (made.foldl (fun n m => n + m.1) 0)
    (inx, if n = 0 then b2n bad else n, s.count u (ctrVe 3) (made.foldl (fun n m => n + m.2) 0))
  else
    let es := (sums.zip (List.range a.cols)).map (fun x =>
      (a.enc i x.2 (drainValue x.1.1.value (some 1) (some 1) .zero), x.1))
    let s := if a.rnd == .stochastic then s.count u ctrSqEvals (squallEvals (a.rspec.origin + i * a.cols) a.cols) else s
    let (bad, s) := s.writeOut u dst (wideBytes a.out)
      ((es.zip vals).map (fun e => OutElem.of a.out e.2 e.1.2.2 e.1.1)) src
    (inx, if n = 0 then b2n bad else n, s)

/-- Handshakes of n rows of a REDUCE (Table 8.6). -/
def RedArgs.work (a : RedArgs) (n : Nat) : Nat :=
  let q := (a.cols + 63) / 64
  if a.op = 9 then (n * a.cols * a.nIn + 7) / 8 + (if a.raw then 0 else (n * a.cols + 63) / 64)
  else if a.across then n * q * a.nIn
  else if a.op = 8 then n * (11 * q + 24)
  else if a.op = 6 || a.op = 7 then n * (3 * q + 24)
  else n * (q + 8)

/-- EPS as R82 reads it, and its clamp. -/
def readEps (pattern : Nat) : Value × Nat :=
  match readScale pattern with
  | (some r, c) => (.ofRat r, b2n c)
  | (none, _) => (.nan, 0)

/-- REDUCE (R288 to R296). -/
def runReduce (k : Nat) (sl : Slot) (s : State) : State :=
  let (a, clamps) := readReduce sl.desc sl.ext
  let (eps, c) := readEps a.eps
  let s := s.clamp sl.source (clamps + (if a.op = 6 || a.op = 7 then c else 0))
  if !a.rangesOk then (s.clamp sl.source 1).finish k 2 .aborted 0
  else
    let ones := List.replicate a.cols (Value.zero, false)
    let (gs, s) := if a.op = 6 || a.op = 7 then s.readVals .fp32 a.g a.cols else (ones, s)
    let (bs, s) := if a.op = 7 then s.readVals .fp32 a.beta a.cols else (ones, s)
    s.runRows k 2 sl a.rows a.work (fun u i s =>
      if a.op = 9 then
        let (x, b, s) := s.xaddRow a u sl.source i
        (⟨x, 0, b, false⟩, s)
      else if a.across then
        let (b, more, s) := s.redAcross a u sl.source i
        (⟨0, 0, b, more⟩, s)
      else PieceDone.rowRead (s.redRow a u sl.source gs bs eps i))

/-- REDUCE. -/
def execReduce (slot : Nat) (s : State) : Host.Outcome State Fault Refusal :=
  .next (s.withDesc slot [0x11] (runReduce slot))

/-! ### ROTATE (R297, R602) -/

/-- Handshakes of n rows of a ROTATE (Table 8.6). -/
def rotateWork (cols n : Nat) : Nat := 16 * n * ((cols + 127) / 128)

/-- ROTATE. -/
def runRotate (k : Nat) (sl : Slot) (s : State) : State :=
  let d := sl.desc
  let ctl := field d 28 1
  let conv := field d 29 1
  let (f, c0) := readSrcFmt (ctl % 16)
  let (out, c1) := readWideOut (conv % 16)
  let (rnd0, c2) := readRnd (bits conv 5 4)
  let (rnd, c3) : Rnd × Nat := match rnd0 with
    | .stochastic => (.nearest, 1)
    | .nearest | .towardZero => (rnd0, 0)
  let rows := field d 32 4 % 2 ^ 20 + 1
  let cols := field d 36 4 % 2 ^ 20 + 1
  let (src, st, dst, dt) := (addr48 d 8, field d 14 4, addr48 d 18, field d 24 4)
  let s := s.clamp sl.source (c0 + c1 + c2 + c3)
  if !(rowsIn inVe src (cols * wideBytes f) st rows && rowsIn inVe dst (cols * wideBytes out) dt rows) then
    (s.clamp sl.source 1).finish k 1 .aborted 0
  else
    s.runRows k 1 sl rows (rotateWork cols) (fun u i s =>
      let (xs, s) := s.readVals f (src + i * st) cols
      let vs := xs.map (·.1)
      let (ys, s) := s.rotateRow u (bits ctl 5 4) (field d 40 8) (field d 48 4) (field d 56 8) vs
      let es := ((ys.take cols).zip (List.range cols)).map (fun y =>
        let g := (xs.drop (y.2 / 128 * 128)).take 128
        OutElem.of out (g.map (·.1)) (g.any (·.2)) (encode out rnd (bit conv 6) 0 0 y.1))
      PieceDone.row (s.writeOut u (dst + i * dt) (wideBytes out) es sl.source))

/-- ROTATE. -/
def execRotate (slot : Nat) (s : State) : Host.Outcome State Fault Refusal :=
  .next (s.withDesc slot [0x06] (runRotate slot))

/-! ### DIGEST (R607, R623 to R626) -/

/-- The modulus p = 2^64 − 59 of R623. -/
def digestP : Nat := 2 ^ 64 - 59
/-- The base B = 2^32 + 59 of R623. -/
def digestB : Nat := 2 ^ 32 + 59

/-- Take one word into a digest. -/
def digestWord (h w : Nat) : Nat := (h * digestB + w + 1) % digestP

/-- Take one row into a digest, its last word padded with zero bytes. -/
def digestRow (h : Nat) (row : List Byte) : Nat :=
  (splitEvery 8 ((row.length + 7) / 8) row).foldl (fun h w => digestWord h (leNat w)) h

/-- Handshakes of a DIGEST (R626). -/
def digestWork (rows len : Nat) : Nat := (rows * len + 63) / 64

/-- DIGEST. -/
def runDigest (k : Nat) (sl : Slot) (s : State) : State :=
  let d := sl.desc
  let (src, st, len, rows) := (addr48 d 8, field d 14 4, field d 18 4, field d 22 4 % 2 ^ 20 + 1)
  let dst0 := addr48 d 26
  let dst := dst0 - dst0 % 8
  let cont := bit (field d 32 1) 0
  let s := s.clamp sl.source (b2n (dst0 % 8 ≠ 0))
  if !((len = 0 || rowsIn inVe src len st rows) && inVe dst 8) then (s.clamp sl.source 1).finish k 8 .aborted 0
  else
    let u := s.unitOf ((s.workers sl.barred .vectorEngine (targetOf d)).headD 0)
    let (h0, p0, s) : Nat × Bool × State := if cont then
        let (bs, ps, s) := s.readLocal dst 8
        (leNat bs, anyPoison ps, s)
      else (0, false, s)
    let s := s.clamp sl.source (b2n (digestP ≤ h0))
    let (h, p, s) := (List.range (if len = 0 then 0 else rows)).foldl (fun (acc : Nat × Bool × State) i =>
      let (bs, ps, s) := acc.2.2.readLocal (src + i * st) len
      (digestRow acc.1 bs, acc.2.1 || anyPoison ps, s)) (h0 % digestP, p0, s)
    let (bad, s) := s.writeRec dst (natLe 8 (if p then 2 ^ 64 - 1 else h)) p sl.source
    (s.veWork u (digestWork rows len)).finish k 8 (statusOf false false false bad) 0

/-- DIGEST. -/
def execDigest (slot : Nat) (s : State) : Host.Outcome State Fault Refusal :=
  .next (s.withDesc slot [0x60] (runDigest slot))

/-! ### CHECK (R238 to R243) -/

/-- CHECK as the engine reads it. -/
structure CheckArgs where
  a : Nat
  w : Nat
  out : Nat
  orrec : Option Nat
  bias : Option (Fmt × Nat)
  entry : Nat
  src : Fmt
  outFmt : Fmt
  sampleLog : Nat
  m : Nat
  n : Nat
  kk : Nat
  aStride : Nat
  wStride : Nat
  outStride : Nat
  stream : Nat
  key : Nat
deriving DecidableEq, Repr

/-- Read a CHECK (Tables 7.4 and 16.15). -/
def readCheck (d ext : List Byte) : CheckArgs × Nat :=
  let en := field d 38 2
  let of := field d 40 1
  let (f, c0) := readSrcFmt (en / 4096)
  let (o, c1) := readOutFmt (of % 16)
  let (bf, c2) := readBiasFmt (bits of 6 5)
  (⟨addr48 d 8, addr48 d 14, addr48 d 20, if bit of 4 then some (addr48 d 26) else none,
    bf.map (fun b => (b, addr48 d 32)), en % 4096, f, o, field d 41 1 % 16, field d 44 4 % 2 ^ 20 + 1,
    field d 48 4 % 2 ^ 20 + 1, field d 52 4 % 2 ^ 20 + 1, field ext 0 4, field ext 4 4, field ext 8 4, field ext 12 4,
    field ext 16 8⟩, c0 + c1 + c2)

/-- Address of the layer table (Table 7.12). -/
def State.layerBase (s : State) : Nat :=
  bits (s.regs.eff regLayerLo 0) 31 5 * 32 + bits (s.regs.eff regLayerHi 0) 15 0 * 2 ^ 32
/-- Entries of the layer table. -/
def State.layerCount (s : State) : Nat := bits (s.regs.eff regLayerHi 0) 27 16 + 1
/-- Address of a layer entry (Table 7.6). -/
def State.layerEntry (s : State) (e : Nat) : Nat := s.layerBase + 32 * e

/-- The sums of a sample, over its elements in row-major order. -/
structure Score where
  diff : Value
  ref : Value
  /-- Some y_ref was finite and its y_dev was not. -/
  inf : Bool
  /-- References left out. -/
  left : Nat
  poison : Bool
deriving DecidableEq, Repr

/-- Take one element into a sample (R240, R241), whose output row has a scale `sc`, poisoned or not. -/
def State.checkElem (s : State) (c : CheckArgs) (sc : Option Rat) (sp : Bool) (r col : Nat) (acc : Score) : Score × State :=
  let (as, s) := s.readVals c.src (c.a + r * c.aStride) c.kk
  let (ws, s) := s.readVals c.src (c.w + col * c.wStride) c.kk
  let dot := (as.zip ws).foldl (fun t x => fadd t (fmul x.1.1 x.2.1)) Value.zero
  let (bv, bp, s) := match c.bias with
    | some x =>
      let (v, s) := s.readVals x.1 (x.2 + col * wideBytes x.1) 1
      ((v.headD (.zero, false)).1, (v.headD (.zero, false)).2, s)
    | none => (.zero, false, s)
  let yref := if c.bias.isSome then fadd dot bv else dot
  let ob := (c.outFmt.width + 7) / 8
  let (bs, ps, s) := s.readLocal (c.out + r * c.outStride + col * ob) ob
  let ydev := match sc with
    | some t => roundFp32 ((c.outFmt.value (leNat bs)).mulScale t)
    | none => .nan
  let p := as.any (·.2) || ws.any (·.2) || bp || anyPoison ps || sp
  let acc := { acc with poison := acc.poison || p }
  if !yref.isFin then ({ acc with left := acc.left + 1 }, s)
  else if !ydev.isFin then ({ acc with inf := true }, s)
  else
    let d := fsub ydev yref
    ({ acc with diff := fadd acc.diff (fmul d d), ref := fadd acc.ref (fmul yref yref) }, s)

/-- The score of a sample (R241). -/
def Score.value (x : Score) : Value :=
  if x.inf then .inf false
  else if x.ref = .fin 0 false || x.ref = .fin 0 true then
    (if x.diff = .fin 0 false || x.diff = .fin 0 true then .zero else .inf false)
  else fdiv (fnSqrt encFp32 x.diff).fp32 (fnSqrt encFp32 x.ref).fp32

/-- Whether a score exceeds a threshold as R82 reads it: a NaN score counts as +∞ (R250). -/
def exceeds (e : Value) (thr : Option Rat) : Bool :=
  match thr with
  | none => false
  | some t => match e with
    | .nan | .inf false => true
    | .inf true => false
    | .fin r _ => t < r

/-- Rows and columns of the tile that sample i of a CHECK takes (R239). -/
def CheckArgs.tile (c : CheckArgs) (i : Nat) : List Nat × List Nat :=
  let tn := (c.n + 31) / 32
  let t := (c.m + 31) / 32 * tn
  let q := bits (squallWord c.key c.stream i) 63 0 % t
  let r0 := q / tn * 32
  let c0 := q % tn * 32
  (rangeFrom r0 (min 32 (c.m - r0)), rangeFrom c0 (min 32 (c.n - c0)))

/-- Take one row of a tile into a sample; its row record is read once (R82). -/
def State.checkRow (s : State) (c : CheckArgs) (u : Nat) (src : ClampSource) (cols : List Nat) (r : Nat) (acc : Score) :
    Score × State :=
  let (sc, sp, s) : Option Rat × Bool × State := match c.orrec with
    | some x => s.readRowScale (x + 8 * r) u src
    | none => (some 1, false, s)
  cols.foldl (fun (acc : Score × State) col => acc.2.checkElem c sc sp r col acc.1) (acc, s)

/-- The scores of a tile's elements, added up. -/
def State.checkCells (s : State) (c : CheckArgs) (u : Nat) (src : ClampSource) (t : List Nat × List Nat) : Score × State :=
  t.1.foldl (fun (acc : Score × State) r => acc.2.checkRow c u src t.2 r acc.1) (⟨.zero, .zero, false, 0, false⟩, s)

/-- One sample of a CHECK (R239, R243): its score, `none` for a poisoned tile. DEDUCED (log 19). -/
def State.checkTile (s : State) (c : CheckArgs) (u : Nat) (src : ClampSource) (i : Nat) : Option Value × State :=
  let r := (s.count u ctrSqEvals 1).checkCells c u src (c.tile i)
  let s := r.2.count u (ctrId 7 14 6) r.1.left
  if r.1.poison then (none, s) else (some r.1.value, s.count u (ctrId 7 14 4) 1)

/-- Add a sample's score to those before it; a poisoned sample has none. -/
def addScore (es : List Value) (r : Option Value × State) : List Value × State := (es ++ r.1.toList, r.2)

/-- The scores of the first n samples that are not poisoned. -/
def State.checkTiles (s : State) (c : CheckArgs) (u : Nat) (src : ClampSource) (n : Nat) : List Value × State :=
  (List.range n).foldl (fun (acc : List Value × State) i => addScore acc.1 (acc.2.checkTile c u src i)) ([], s)

/-- Whether a CHECK lies within the engine's reach. -/
def CheckArgs.rangesOk (c : CheckArgs) : Bool :=
  let b := wideBytes c.src
  rowsIn inVe c.a (c.kk * b) c.aStride c.m && rowsIn inVe c.w (c.kk * b) c.wStride c.n
    && rowsIn inVe c.out (c.n * ((c.outFmt.width + 7) / 8)) c.outStride c.m
    && (match c.orrec with | some x => inVe x (8 * c.m) | none => true)
    && (match c.bias with | some x => inVe x.2 (c.n * wideBytes x.1) | none => true)

/-- THRESH of a layer entry whose bytes are eb: as the last step boundary read it, or as it stands where none has (R248). -/
def State.threshOf (s : State) (e : Nat) (eb : List Byte) : Nat :=
  match mget 0 s.aec.thresh e with | 0 => field eb 4 4 | v => v - 1

/-- Add the scores of a CHECK to its layer entry (R242), and count those beyond THRESH: whether a poisoned word was read or kept. THRESH is
read here under R82, so that its clamp counts at each CHECK that scores an entry as well as at the boundary. DESIGN CHOICE (log 19). -/
def State.scoreEntry (s : State) (c : CheckArgs) (u : Nat) (src : ClampSource) (es : List Value) : Bool × State :=
  if es = [] then (false, s)
  else
    let ea := s.layerEntry c.entry
    let e := s.memRead ea 32
    let thr := readScale (s.threshOf c.entry e.1)
    let s := (e.2.2.clamp src (b2n thr.2)).count u (ctrId 7 14 5) (es.filter (fun x => exceeds x thr.1)).length
    let w := s.memWrite (ea + 8) (natLe 4 (toFp32 (es.foldl Value.max2 (fp32Value (field e.1 8 4))))) false
    let w' := w.2.memWrite (ea + 16) (natLe 2 (sat 16 (field e.1 16 2 + es.length))) false
    (anyP e.2.1 || w.1 || w'.1, { w'.2 with aec := { w'.2.aec with sampled := (c.entry :: w'.2.aec.sampled).eraseDups } })

/-- Tiles that a CHECK samples. -/
def CheckArgs.samples (c : CheckArgs) : Nat := ((c.m + 31) / 32 * ((c.n + 31) / 32) + 2 ^ c.sampleLog - 1) / 2 ^ c.sampleLog

/-- Handshakes of a CHECK (Table 8.6). -/
def CheckArgs.work (c : CheckArgs) : Nat := (c.samples * 1024 * c.kk + 63) / 64 + 16 * c.samples

/-- CHECK (R238 to R243). -/
def runCheck (k : Nat) (sl : Slot) (s : State) : State :=
  let (c, clamps) := readCheck sl.desc sl.ext
  let s := s.clamp sl.source clamps
  if s.layerCount ≤ c.entry then (s.clamp sl.source 1).finish k 8 .ok 0
  else
    let ea := s.layerEntry c.entry
    if !(c.rangesOk && inTier ea 32) then (s.clamp sl.source 1).finish k 8 .aborted 0
    else
      let u := s.unitOf ((s.workers sl.barred .vectorEngine (targetOf sl.desc)).headD 0)
      let n := c.samples
      let r := s.checkTiles c u sl.source n
      let (bad, s) := r.2.scoreEntry c u sl.source r.1
      let s := s.veWork u c.work
      s.finish k 8 (statusOf false false false (bad || r.1.length ≠ n)) r.1.length

/-- CHECK. -/
def execCheck (slot : Nat) (s : State) : Host.Outcome State Fault Refusal :=
  .next (s.withDesc slot [0x61] (runCheck slot))

end Sys2Proof.Machine
end

