-- ==== Sys2Proof/Machine/Aec.lean ====
section
/-! DEFINITION. Arithmetic-check decisions of a step boundary: the layer table, persistent widening, storms, residue
rollbacks and margining (chapter 07: R245 to R269). -/

namespace Sys2Proof.Machine

/-- Counters of Table 7.14 by position. -/
def ctrAec (n : Nat) : Nat := ctrId 7 14 n

/-- Fields of AEC_CTL (Table 7.11). -/
def State.widenEn (s : State) : Bool := bit (s.regs.eff regAecCtl 0) 0
/-- ROLLBACK_EN. -/
def State.rollbackEn (s : State) : Bool := bit (s.regs.eff regAecCtl 0) 2
/-- MARGIN_EN. -/
def State.marginEn (s : State) : Bool := bit (s.regs.eff regAecCtl 0) 3
/-- BUDGET. -/
def State.budget (s : State) : Nat := bits (s.regs.eff regAecCtl 0) 23 16
/-- CALM_STEPS, 0 read as 1. -/
def State.calmSteps (s : State) : Nat := max 1 (bits (s.regs.eff regAecCtl 0) 15 4)

/-! ### The ladder (R249, Table 7.7) -/

/-- The next format up. -/
def Fmt.ladderUp : Fmt → Option Fmt
  | .b1 | .t2 | .i3 => some .i4
  | .i4 | .f4 => some .f6
  | .f6 => some .f8m
  | .f8m | .f8x => some .i8
  | .i8 | .bf16 | .fp32 => none

/-- The path of a home format: itself and each next format up. `fuel` bounds it. -/
def ladderPath : Nat → Fmt → List Fmt
  | 0, f => [f]
  | fuel + 1, f => match f.ladderUp with
    | some g => f :: ladderPath fuel g
    | none => [f]

/-- The whole path. -/
def Fmt.path (home : Fmt) : List Fmt := ladderPath 5 home

/-- The path format that firmware takes a format as (R249). -/
def Fmt.onPath (home f : Fmt) : Fmt :=
  if home.path.contains f then f
  else ((home.path.filter (fun g => g.rung ≤ f.rung)).getLast?).getD home

/-- One rung up or down the path of a home format. -/
def Fmt.up (home f : Fmt) : Fmt := (home.path[home.path.findIdx (· == f) + 1]?).getD f
/-- One rung down. -/
def Fmt.down (home f : Fmt) : Fmt := (home.path[home.path.findIdx (· == f) - 1]?).getD f

/-! ### Layer entries (R245, R246, R601) -/

/-- A layer entry with its base map, as firmware works on it. -/
structure Layer where
  addr : Nat
  home : Fmt
  cur : Fmt
  cap : Nat
  frozen : Bool
  thresh : Option Rat
  score : Value
  calm : Nat
  base : Nat
  out : Nat
  blocks : List Fmt
  runs : List Nat
  /-- Overflow flags (R250). -/
  over' : List Bool
  /-- Requests raised at this boundary. -/
  layerReq : Bool
  blockReqs : List Nat
  narrowed : Bool
  granted : Bool
  waiting : Bool
  atCap : Bool
deriving DecidableEq, Repr

/-- Read an entry and its maps through the memory's check codes; the clamps of its format fields and its threshold (R67, R68, R82),
each field of an entry and of a map counting once. -/
def State.readLayer (s : State) (e : Nat) : Layer × Nat × State :=
  let a := s.layerEntry e
  let e := s.memRead a 32
  let r := e.1
  let home := readArrayFmt (field r 0 1 % 16)
  let cur := readArrayFmt (field r 1 1 % 16)
  let th := readScale (field r 4 4)
  let base := field r 20 6
  let out := field r 26 6
  let hd := e.2.2.memRead (base - 16) 8
  let n := field hd.1 0 4 * field hd.1 4 4
  let bm := hd.2.2.memRead base n
  let om := bm.2.2.memRead out n
  let bs := bm.1.map (fun b => readArrayFmt (b.toNat % 16))
  let os := om.1.map (fun b => readArrayFmt (b.toNat % 16))
  (⟨a, home.1, cur.1, min 4 (field r 2 1 % 8), bit (field r 2 1) 3, th.1,
    fp32Value (field r 8 4), field r 18 2, base, out, bs.map (·.1), bm.1.map (fun b => b.toNat / 16),
    (os.zip bs).map (fun x => decide (x.2.1.rung < x.1.1.rung)), false, [], false, false, false, false⟩,
   home.2 + cur.2 + b2n th.2 + ((bs ++ os).map (·.2)).foldl (· + ·) 0, om.2.2)

/-- Every entry. -/
def State.readLayers (s : State) : List Layer × Nat × State :=
  (List.range s.layerCount).foldl (fun (acc : List Layer × Nat × State) e =>
    let r := acc.2.2.readLayer e
    (acc.1 ++ [r.1], acc.2.1 + r.2.1, r.2.2)) ([], 0, s)

/-- The layer table lies in tier memory. -/
def State.layersOk (s : State) : Bool := inTier s.layerBase (32 * s.layerCount)

/-- Part 1 reads THRESH of every entry: a change that software made takes effect here (R248). -/
def State.latchThresh (s : State) : State :=
  if !s.layersOk then s
  else
    let r := (List.range s.layerCount).foldl (fun (acc : List (Nat × Nat) × State) e =>
      let r := acc.2.memRead (s.layerEntry e + 4) 4
      (acc.1 ++ [(e, field r.1 0 4 + 1)], r.2.2)) ([], s)
    { r.2 with aec := { r.2.aec with thresh := r.1 } }

/-- FLAGS of an entry (Table 7.6). -/
def Layer.flags (l : Layer) : Nat :=
  b2n l.layerReq + 2 * b2n l.waiting + 4 * b2n l.granted + 8 * b2n l.narrowed + 16 * b2n (l.blockReqs ≠ [])
    + 32 * b2n l.atCap

/-- Write the firmware-owned fields and the base map of an entry back; `last` is LAST_SCORE, and STEP_SCORE and SAMPLES
are cleared (R255, R269 part 8). -/
def State.writeLayer (s : State) (l : Layer) (last : Value) : State :=
  let s := (s.memWrite (l.addr + 1) (natLe 1 l.cur.code) false).2
  let s := (s.memWrite (l.addr + 3) (natLe 1 l.flags ) false).2
  let s := (s.memWrite (l.addr + 8) (natLe 4 0 ++ natLe 4 (toFp32 last) ++ natLe 2 0 ++ natLe 2 l.calm) false).2
  if l.blocks = [] then s
  else (s.memWrite l.base ((l.blocks.zip l.runs).map (fun b => BitVec.ofNat 8 (b.2 * 16 + b.1.code))) false).2

/-- R247: WIDEN_EN has gone from 0 to 1; every entry starts at its home format. -/
def State.initLayers (s : State) : State :=
  let (ls, c, s) := s.readLayers
  ls.foldl (fun s l => s.writeLayer { l with
    cur := l.home, blocks := l.blocks.map (fun _ => l.home), runs := l.runs.map (fun _ => 0), calm := 0 } .zero)
    (s.clamp .table c)

/-- What a commit point of the arithmetic-check block judges (Tables 7.11 and 7.12), and R247. -/
def State.legalAec (s : State) (old : RegFile) : State :=
  let s := s.commitClamp (bits (s.regs.eff regAecCtl 0) 15 4 = 0) regAecCtl 0 15 4 1
  let s := if s.widenEn && !inTier s.layerBase (32 * s.layerCount) then
      ({ s with regs := s.regs.setEffField regAecCtl 0 0 0 0 } : State).clamp (.register regLayerHi) 1
    else s
  if s.widenEn && !bit (old.eff regAecCtl 0) 0 then s.initLayers else s

/-- What a commit point of the step block judges (Table 17.8). -/
def State.legalTf (s : State) : State :=
  let c := s.regs.eff regTfCtl 0
  (s.commitClamp (bits c 31 16 < 0x100) regTfCtl 0 31 16 0x100).commitClamp (bits c 11 0 = 0) regTfCtl 0 11 0 1

/-! ### The twin vote (R252, R630) -/

/-- A score as it is voted: NaN is +∞. -/
def voteScore (v : Value) : Value :=
  match v with
  | .nan => .inf false
  | .inf n => .inf n
  | .fin r z => .fin r z

/-- What this package brings to the twin exchange: scores, then overflow flags; nothing where WIDEN_EN is 0. Here the boundary
reads the table, so here it counts the clamps of its fields. -/
def State.voteVector (s : State) : List Value × State :=
  if !s.widenEn then ([], s)
  else
    let (ls, clamps, s) := s.readLayers
    (ls.map (fun l => voteScore l.score) ++ ls.flatMap (fun l => l.over'.map (fun b => if b then .fin 1 false else .zero)),
     s.clamp .table clamps)

/-- Give every entry its voted score and flags. -/
def takeVotes : List Layer → List Value → List Value → List Layer
  | [], _, _ => []
  | l :: ls, scores, flags =>
    { l with score := voteScore (scores.headD .zero)
             over' := (flags.take l.blocks.length).map (fun v => v != .zero && v.isFin && v.rat ≠ 0) }
      :: takeVotes ls scores.tail (flags.drop l.blocks.length)

/-! ### Requests, narrowing and grants (R249 to R256) -/

/-- A score is above a bound. -/
def Value.above (v : Value) (b : Rat) : Bool :=
  match v with
  | .fin r _ => b < r
  | .inf n => !n
  | .nan => true

/-- An entry is widened (R254). -/
def Layer.widened (l : Layer) : Bool :=
  l.home.rung < l.cur.rung || l.blocks.any (fun b => l.home.rung < b.rung)

/-- Part 3 for one entry: formats on the path, runs, CALM, requests. -/
def Layer.raise (l : Layer) : Layer :=
  let runs := (l.runs.zip l.over').map (fun x => if x.2 then min 15 (x.1 + 1) else 0)
  let calm := match l.thresh with
    | some t => !l.score.above (t / 4) && !l.over'.any id
    | none => false
  { l with
    cur := l.home.onPath l.cur, blocks := l.blocks.map l.home.onPath, runs := runs,
    calm := if calm then sat 16 (l.calm + 1) else 0,
    layerReq := (match l.thresh with | some t => l.score.above t | none => false),
    blockReqs := (List.range runs.length).filter (fun i => 4 ≤ runs.getD i 0) }

/-- Narrowing of an entry that has been calm long enough (R251). -/
def Layer.narrow (l : Layer) (steps : Nat) : Layer :=
  if l.widened && steps ≤ l.calm then
    let cur := l.home.down l.cur
    { l with
      cur := cur, calm := 0, runs := l.runs.map (fun _ => 0), narrowed := true,
      blocks := l.blocks.map (fun b => if cur.rung < b.rung then
        (let d := l.home.down b; if d.rung < cur.rung then cur else d) else b) }
  else l

/-- The requests of an entry that are eligible: the layer request, block requests (R254). -/
def Layer.eligible (l : Layer) : Bool × List Nat :=
  let ok (f : Fmt) : Bool := f.rung < l.cap && f.rung < 4
  if l.frozen then (false, [])
  else (l.layerReq && ok l.cur, l.blockReqs.filter (fun i => ok (l.blocks.getD i l.home)))

/-- Requests of an entry refused at its cap. -/
def Layer.refused (l : Layer) : Nat :=
  if l.frozen then 0
  else
    let (a, b) := l.eligible
    b2n (l.layerReq && !a) + (l.blockReqs.length - b.length)

/-- Grant the eligible requests of an entry (R254). -/
def Layer.grant (l : Layer) : Layer :=
  let (a, bs) := l.eligible
  let blocks := (l.blocks.zip (List.range l.blocks.length)).map (fun x => if bs.contains x.2 then l.home.up x.1 else x.1)
  let runs := (l.runs.zip (List.range l.runs.length)).map (fun x => if bs.contains x.2 then 0 else x.1)
  let cur := if a then l.home.up l.cur else l.cur
  { l with
    cur := cur, runs := runs, granted := true, waiting := false,
    blocks := if a then blocks.map (fun b => if b.rung < cur.rung then cur else b) else blocks }

/-- Eligible requests of an entry. -/
def Layer.asks (l : Layer) : Nat := let (a, b) := l.eligible; b2n a + b.length

/-- The key that ranks an entry: score over threshold for a layer request, 1 for block requests only. Infinite scores
rank first. -/
def Layer.key (l : Layer) : Option Rat :=
  if l.eligible.1 then
    match l.score, l.thresh with
    | .fin r _, some t => some (r / t)
    | _, _ => none
  else some 1

/-- One key ranks at or above another. -/
def keyGe (a b : Option Rat) : Bool :=
  match a, b with
  | none, _ => true
  | some _, none => false
  | some x, some y => y ≤ x

/-- The grants of a boundary: the entries afterwards, requests granted, requests left waiting, W. A request at its cap is refused under
R254 before any budget; with BUDGET 0 none of the others is granted or left waiting (R256). -/
def grantAll' (ls : List Layer) (budget : Nat) : List Layer × Nat × Nat × Nat :=
  let w0 := (ls.filter Layer.widened).length
  let ls := ls.map (fun l => { l with atCap := l.refused ≠ 0 })
  if budget = 0 then (ls, 0, 0, w0)
  else
    let cap := budget * ls.length / 256
    let idx := List.range ls.length
    let at' (i : Nat) : Option Layer := ls[i]?
    let asking := idx.filter (fun i => match at' i with | some l => l.asks ≠ 0 | none => false)
    let free := asking.filter (fun i => match at' i with | some l => l.widened | none => false)
    let rest := asking.filter (fun i => !free.contains i)
    let ranked := rest.mergeSort (fun i j => match at' i, at' j with
      | some a, some b => keyGe a.key b.key
      | _, _ => true)
    let served := free ++ ranked.take (cap - w0)
    let wait := ranked.drop (cap - w0)
    let sum (is : List Nat) : Nat := (is.map (fun i => match at' i with | some l => l.asks | none => 0)).foldl (· + ·) 0
    ((ls.zip idx).map (fun x =>
      if served.contains x.2 then x.1.grant else if wait.contains x.2 then { x.1 with waiting := true } else x.1),
     sum served, sum wait, w0 + min (cap - w0) ranked.length)

/-- With WIDEN_EN at 0 part 8 of R269 still clears STEP_SCORE and SAMPLES: of every entry of the table, and where LAYER_BASE stands at its
reset value 0, which names no table of the software's, only of the entries that a CHECK raised. DEDUCED (log 28). -/
def State.clearScores (s : State) : State :=
  let es := if s.layerBase ≠ 0 && s.layersOk then List.range s.layerCount else s.aec.sampled
  let s := (es.filter (fun e => inTier (s.layerEntry e) 32)).foldl (fun s e =>
    let a := s.layerEntry e
    (((s.memWrite (a + 8) (natLe 4 0) false).2).memWrite (a + 16) (natLe 2 0) false).2) s
  { s with aec := { s.aec with sampled := [] } }

/-- Parts 3 to 5 of R269 on the voted values, and what they ask of the boundary: the storm flag stands raised, and a
storm rollback is wanted. -/
def State.widening (s : State) (voted : List Value) : Bool × Bool × State :=
  let since := sat 8 (s.aec.sinceRollback + 1)
  if !s.widenEn then
    let s := s.clearScores
    (false, false, { s with aec := { s.aec with
      storm := false, stormRun := 0, sinceRollback := since, waiting := 0, widened := 0 } })
  else
    let (ls, _, s) := s.readLayers
    let ls := (takeVotes ls (voted.take ls.length) (voted.drop ls.length)).map Layer.raise
    let s := s.count 0 (ctrAec 7) ((ls.map (fun l => b2n l.layerReq + l.blockReqs.length)).foldl (· + ·) 0)
    let ls := ls.map (fun l => l.narrow s.calmSteps)
    let s := s.count 0 (ctrAec 11) (ls.filter (·.narrowed)).length
    let s := s.count 0 (ctrAec 10) ((ls.map Layer.refused).foldl (· + ·) 0)
    let (ls, granted, waiting, w) := grantAll' ls s.budget
    let s := (s.count 0 (ctrAec 8) granted).count 0 (ctrAec 9) waiting
    let nWait := (ls.filter (·.waiting)).length
    let storm := waiting ≠ 0
    let run := if storm then min 15 (s.aec.stormRun + 1) else 0
    let s := s.count 0 (ctrAec 12) (b2n storm)
    let eight := storm && s.aec.stormRun = 7
    let back := eight && s.rollbackEn && 64 < since
    let halt := eight && s.rollbackEn && since ≤ 64
    let s := if back then ((s.count 0 (ctrAec 13) 1).count 0 (ctrAec 8) waiting).event 0x0202 0 false else s
    let s := if eight && !back then s.event 0x0203 0 true else s
    let ls' := if back then ls.map (fun l => if l.waiting then l.grant else l) else ls
    let s := (ls'.zip ls).foldl (fun s l => s.writeLayer l.1 l.1.score) s
    (storm, back, { s with aec := { s.aec with
      storm := storm, stormHalt := s.aec.stormHalt || halt, stormRun := if back then 0 else run, sampled := [],
      sinceRollback := if back then 0 else since, waiting := nWait,
      widened := if back then w + nWait else w } })

/-! ### Margining (R262 to R267) -/

/-- Die of a unit's cell. -/
def State.voltWithheld (s : State) (u : Nat) : Bool :=
  if unitDie u = 0 then s.pwr.withheld.1 else s.pwr.withheld.2

/-- A cell group's regulator carries the +25 mV step: a cell of it is at level 2 (R263). -/
def State.groupCarries (s : State) (g : Nat) : Bool :=
  (List.range 17).any (fun i => (mget History.reset s.tree.history (cellUnit g i)).level = 2)

/-- Highest output of a die's cell group regulators: V_op, or 25 mV more while one carries a step (R721). -/
def State.groupOutput (s : State) (d : Nat) : Nat :=
  ofDie s.pwr.vop d
    + (if !ofDie s.pwr.withheld d && (List.range 128).any (fun g => s.groupCarries (128 * d + g)) then 5 else 0)

/-- VCORE of a die is set 30 mV above the highest regulator output, when that has changed (R721). -/
def State.tellCore (was s : State) (d : Nat) : State :=
  if was.groupOutput d = s.groupOutput d then s else s.emit (.setpoint d (s.groupOutput d + 6))

/-- Set a cell's level and with it its margining floor (Table 7.8). -/
def State.setLevel (s : State) (u level : Nat) : State :=
  let cal := (s.unit u).calFloor
  s.tellCore ((s.modHistory u (fun h => { h with level := level })).modUnit u (fun x => { x with
    marginFloor := if level = 0 then 0 else min 63 (cal + 16) })) (unitDie u)

/-- A step boundary that follows residue events of a cell records one counted event, and acts on it (R264). VOLT_HELD says that the event
is of a level-2 cell whose voltage step was withheld, which does not count toward permanence (R265). -/
def State.countedEvent (s : State) (u : Nat) : State :=
  let level := (mget History.reset s.tree.history u).level
  let held := s.voltWithheld u && decide (level = 2)
  let now := s.aec.boundaries % 2 ^ 48
  let s := s.modHistory u (fun h => { h with
    events := sat 16 (h.events + 1), last2 := h.last1, last1 := h.last0, last0 := now, voltHeld := held,
    perm := if held then h.perm else (now :: h.perm).take 3 })
  let h := mget History.reset s.tree.history u
  if !s.marginEn then s
  else if h.level = 2 && !held && h.perm.length = 3 && h.perm.all (fun b => now - b < 10 ^ 6) then s.retireUnit u
  else if h.level < 2 then
    let g := (groupOfUnit u).getD 0
    let carried := s.groupCarries g
    let s := (s.count 0 (ctrAec 14) 1).setLevel u (h.level + 1)
    if h.level = 1 && s.voltWithheld u && !carried then
      (s.count 0 (ctrId 20 11 7) 1).event 0x0B05 (groupNode g + 65536) false
    else s
  else s

/-- A cell with no counted event for 10^6 boundaries goes down one level (R266). DEDUCED (log 28). -/
def State.calmCell (s : State) (u : Nat) : State :=
  let h := mget History.reset s.tree.history u
  if s.marginEn && h.level ≠ 0 && 10 ^ 6 ≤ s.aec.boundaries - h.last0 then
    let s := s.setLevel u (h.level - 1)
    if h.level = 1 then s.modHistory u (fun h => { h with events := 0, last0 := 0, last1 := 0, last2 := 0, perm := [] }) else s
  else s

/-- The boundary count goes up, and every 2^16 boundaries it is written to the history partition (R266, R267).
DEDUCED (log 28). -/
def State.countBoundary (s : State) : State :=
  let n := s.aec.boundaries + 1
  { s with aec := { s.aec with boundaries := n, stored := if s.aec.stored + 65536 ≤ n then n else s.aec.stored } }

/-- Parts 7 and 8 of R269: every cell that has had residue events since the last boundary has a counted event (R264), and each changed
record is written once. The boundary count goes up first. DEDUCED (log 28). -/
def State.margining (s : State) : State :=
  let was := s
  let s := s.countBoundary
  let hit := (s.aec.events.filter (fun kv => kv.2 ≠ 0)).map (·.1)
  let s := hit.foldl (fun s u => s.countedEvent u) { s with aec := { s.aec with events := [] } }
  ((s.tree.history.map (·.1)).foldl (fun s u => s.calmCell u) s).historyOnce was

/-- A boundary whose vote ended with TIMEOUT: no layer changes (R253), but it is one boundary more since the last storm rollback
(R260, Table 7.13), and margining goes on. -/
def State.marginOnly (s : State) : State :=
  ({ s with aec := { s.aec with sinceRollback := sat 8 (s.aec.sinceRollback + 1) } } : State).margining

/-- STORM_HALT_CLEAR: dispatch resumes (R260). -/
def State.stormHaltClear (s : State) : State :=
  { s with aec := { s.aec with stormHalt := false } }

/-- STORM_HALT_CLEAR. -/
def execStormHaltClear (s : State) : Host.Outcome State Fault Refusal :=
  .next (s.onWrite (fun s => s.stormHaltClear))

end Sys2Proof.Machine
end

