-- ==== Sys2Proof/Machine/Links.lean ====
section
/-! DEFINITION. Black-box records and the Ranel ports: flits, retry, credits, training, routing and
sending of messages, and Station Time (chapters 13 and 21). -/

namespace Sys2Proof.Machine

/-! ### Black-box records (R768, R769) -/

/-- Put a record in the writer's queue of 64; a record that finds it full takes no SEQ (R769). After a record has
failed in both partitions, later records are discarded (R771). DEDUCED (log 35). -/
def State.bbRecord (s : State) (code : Nat) (payload : List Byte) : State :=
  let m := s.mgmt
  if m.bbAvoid % 4 = 3 then s.count 0 (ctrId 21 16 5) 1
  else if 64 ≤ m.queue.length then
    ({ s with mgmt := { m with lostNext := true } } : State).count 0 (ctrId 21 16 5) 1
  else
    let body := natLe 2 code ++ natLe 2 (payload.length + 0x8000 * b2n m.lostNext) ++ natLe 4 m.nextSeq
      ++ natLe 8 s.stamp ++ slice payload 0 40 ++ natLe 4 0
    { s with mgmt := { m with
        queue := m.queue ++ [body ++ natLe 4 (crc32 body)], nextSeq := (m.nextSeq + 1) % 2 ^ 32, lostNext := false } }

/-! ### Ports -/

/-- A port. -/
def State.portAt (s : State) (p : Nat) : PortState := mget PortState.reset s.fab.ports p
/-- A port of a package that is powered. -/
def State.portOn (s : State) (p : Nat) : Bool := p < 12 && s.powered
/-- Change a port. -/
def State.modPort (s : State) (p : Nat) (f : PortState → PortState) : State :=
  { s with fab := { s.fab with ports := mmod PortState.reset s.fab.ports p f } }
/-- Node that keeps a port's counters (R499). DEDUCED (log 15). -/
def portDie (p : Nat) : Nat := dieNode (p / 6)
/-- Counter n of Table 13.19. -/
def fabCtr (n : Nat) : Nat := ctrId 13 19 n
/-- Ports in UP. -/
def State.upPorts (s : State) : List Nat := (List.range 12).filter (fun p => (s.portAt p).mode == .up)

/-- Receive-buffer flits per VL of a class (Table 13.9). -/
def classBuffer : Nat → Nat
  | 0 => 64
  | 1 => 384
  | 2 => 384
  | _ => 192

/-- Entry 2k + v of a list of eight counts. -/
def at8 (xs : List Nat) (i : Nat) : Nat := (xs[i]?).getD 0

/-! ### Messages (R467, R468) -/

/-- Class of a message type (Table 13.11). -/
def msgClass (m : Msg) : Nat :=
  match field m.header 0 1 with
  | 0x01 | 0x02 | 0x05 | 0x07 => 2
  | 0x03 | 0x04 | 0x06 | 0x08 | 0x0A => 1
  | 0x09 => 0
  | 0x0B => 3
  | _ => 3

/-- TYPE, DST, SRC, LEN, TARGET and TAG of a message (Table 13.10). -/
def Msg.type (m : Msg) : Nat := field m.header 0 1
def Msg.dst (m : Msg) : Nat := field m.header 2 2 % 32768
def Msg.src (m : Msg) : Nat := field m.header 4 2 % 32768
def Msg.len (m : Msg) : Nat := field m.header 6 2 % 8192
def Msg.target (m : Msg) : Nat := field m.header 8 6
def Msg.tag (m : Msg) : Nat := field m.header 14 2
def Msg.hops (m : Msg) : Nat := field m.header 1 1 / 2
def Msg.epoch (m : Msg) : Nat := field m.header 1 1 % 2

/-- A message injected here: EPOCH from the active bank (R476), no hops. -/
def State.newMsg (s : State) (type dst target tag len : Nat) (payload : List Byte) (poison : List Bool) : Msg :=
  ⟨natLe 1 type ++ natLe 1 s.fab.epoch ++ natLe 2 dst ++ natLe 2 s.chipId ++ natLe 2 len ++ natLe 6 target
    ++ natLe 2 tag, payload, poison⟩

/-- Granules of a message with their poison: the header, then the payload in 16-byte granules (R467). -/
def Msg.granules (m : Msg) : List (List Byte × Bool) :=
  (m.header, false) :: (List.range ((m.payload.length + 15) / 16)).map (fun g =>
    (slice m.payload (16 * g) 16, (m.poison[g]?).getD false))

/-- Data flits of a message: nine granules each. -/
def Msg.flits (m : Msg) : Nat := (m.granules.length + 8) / 9

/-- A flit: header, payload, CRC (Tables 13.6 and 13.7). -/
def mkFlit (kind cls vl : Nat) (som eom : Bool) (seq poison : Nat) (payload : List Byte) : List Byte :=
  let body := natLe 4 (kind * 2 ^ 30 + cls * 2 ^ 28 + vl * 2 ^ 27 + b2n som * 2 ^ 26 + b2n eom * 2 ^ 25
    + seq % 4096 * 2 ^ 13 + poison % 512 * 16) ++ slice payload 0 144
  body ++ natLe 8 (flitCrc body)

/-- One scrambler step (R450): output S[38], shift left, S[38] xor S[3] fed into S[0]. -/
def scramblerStep (st : Nat) : Bool × Nat := (bit st 38, st * 2 % 2 ^ 39 + b2n (bit st 38 != bit st 3))

/-- Data bits xored with a scrambler's output (R450), and the state that the scrambler is left in. -/
def scramble : Nat → List Bool → List Bool × Nat
  | st, [] => ([], st)
  | st, b :: bs =>
    let (o, st') := scramblerStep st
    let (rest, last) := scramble st' bs
    ((b != o) :: rest, last)

/-- Scrambler state of lane l at the first data bit of a reseed block (R450). -/
def reseedState (l : Nat) : Nat := 0x1B2C3D4E50 + 0x11 * l

/-- Sync header of a lane block, first bit first (R449): 0b1000, or 0b0010 of a reseed block. -/
def syncHeader (reseed : Bool) : List Bool := if reseed then [false, false, true, false] else [true, false, false, false]

/-- The number whose bits are a list's, the first lowest. -/
def bitsNat (bs : List Bool) : Nat := bs.foldr (fun b n => b2n b + 2 * n) 0

/-- The 160-bit block that lane l sends for a flit (R449, R450), first bit lowest, and its scrambler's state after it. -/
def laneBlock (reseed : Bool) (l st : Nat) (flit : List Byte) : Nat × Nat :=
  let (data, st') := scramble (if reseed then reseedState l else st) (flit.map (fun b => b.getLsbD l))
  (bitsNat (syncHeader reseed ++ data), st')

/-- PAM4 level of a pair of bits, the first the more significant (R441). -/
def pairLevel (first second : Bool) : Int :=
  match first, second with
  | false, false => -3
  | false, true => -1
  | true, true => 1
  | true, false => 3

/-- The 80 symbols of a lane block, in sending order (R441). -/
def laneLevels (block : Nat) : List Int := (List.range 80).map (fun i => pairLevel (bit block (2 * i)) (bit block (2 * i + 1)))

/-! ### The root (R488) -/

/-- TIME_CTL fields. -/
def State.trefEn (s : State) : Bool := bit (s.regs.eff regTimeCtl 0) 1
def State.rootEn (s : State) : Bool := bit (s.regs.eff regTimeCtl 0) 0

/-- An offer: class, root, hops, port (0 for the package itself, else port + 1). -/
abbrev Offer := Nat × Nat × Nat × Nat

/-- The package's own offer. -/
def State.ownOffer (s : State) : Option Offer :=
  if s.trefEn && s.fab.trefValid && s.time.quality != .unset then some (0, s.chipId, 0, 0)
  else if s.rootEn && s.upPorts ≠ [] then some (1, s.chipId, 0, 0)
  else none

/-- A port's offer: its partner's root with one hop more; none where the partner follows this package. -/
def State.portOffer (s : State) (p : Nat) : Option Offer :=
  let q := s.portAt p
  if q.mode == .up && q.rootClass < 2 && q.upChip != s.chipId && q.hops + 1 < 127 then
    some (q.rootClass, q.root, q.hops + 1, p + 1)
  else none

/-- Order of offers: class, then root chip, then hops, then port. -/
def offerBefore (a b : Offer) : Bool :=
  a.1 < b.1 || (a.1 == b.1 && (a.2.1 < b.2.1 || (a.2.1 == b.2.1 && (a.2.2.1 < b.2.2.1 ||
    (a.2.2.1 == b.2.2.1 && a.2.2.2 < b.2.2.2)))))

/-- The best offer. -/
def State.bestOffer (s : State) : Option Offer :=
  (s.ownOffer.toList ++ (List.range 12).filterMap s.portOffer).foldl (fun best o =>
    match best with
    | none => some o
    | some b => if offerBefore o b then some o else some b) none

/-- Follow the best offer: the root registers, and the quality of a package that is its own root or has none
(R488, R492, Table 13.14). A slew ends with the upstream, or with the reference, that it led to. DEDUCED (log 25). -/
def State.chooseRoot (s : State) : State :=
  let put (up hops root : Nat) (keep : Bool) (q : Quality) : State :=
    { s with
      fab := { s.fab with upPort := up, hops := hops, root := root },
      time := { s.time with
        slew := if keep then s.time.slew else 0, slewPhase := if keep then s.time.slewPhase else 0,
        quality := if s.time.quality == .unset then .unset else q } }
  match s.bestOffer with
  | none => put 15 0xFF 0 false .holdover
  | some (cls, root, hops, p) =>
    if p = 0 then
      if cls = 0 then
        let own := s.fab.upPort = 15
        put 15 0 root own (if own && s.time.slew.natAbs ≤ 512 then .referenced else .holdover)
      else put 15 0 root false .fabric
    else
      let same := s.fab.upPort = p - 1 && s.fab.root = root
      put (p - 1) hops root same (if same then s.time.quality else .holdover)

/-! ### Control flits (Table 13.8) -/

/-- TX_TIME format of this moment: Station Time bits [47:0] and a fraction, which is 0 here. -/
def State.txTime (s : State) : Nat := s.time.now % 2 ^ 48 * 65536

/-- ROOT_CLASS this package advertises: that of the offer it has chosen, 3 for none (R488). -/
def State.ownClass (s : State) : Nat :=
  match s.bestOffer with
  | some o => o.1
  | none => 3

/-- The payload of a control flit that a port sends now. -/
def State.controlPayload (s : State) (p : Nat) : List Byte :=
  let q := s.portAt p
  let up := if s.fab.upPort < 12 then (s.portAt s.fab.upPort).chip else 0x8000
  natLe 2 ((q.rxSeq + 4095) % 4096 + 4096 * b2n q.nak) ++ natLe 2 0 ++ q.returned.flatMap (natLe 2)
    ++ natLe 8 s.txTime ++ natLe 2 (bits s.time.now 63 48) ++ natLe 1 (s.time.quality.code + 4 * s.ownClass)
    ++ natLe 1 (min s.fab.hops 127) ++ natLe 2 s.fab.root ++ natLe 2 up ++ q.echoTx ++ q.echoRx
    ++ natLe 2 s.chipId ++ natLe 1 p ++ natLe 1 0 ++ natLe 8 Config.serial.toNat

/-- Put a flit on a port: one block on each of its 8 lanes, every 4 096th flit as reseed blocks (R449 to R451). Flits are
counted from the end of the port's training, and the idle flits that fill a port's time are no command's. DESIGN CHOICE (log 57). -/
def State.putFlit (s : State) (p : Nat) (flit : List Byte) : State :=
  let q := s.portAt p
  let reseed := (q.flitsSent + 1) % 4096 = 0
  let blocks := (List.range 8).map (fun l => laneBlock reseed l ((q.scramblers[l]?).getD 0) flit)
  (s.modPort p (fun q => { q with
    flitsSent := q.flitsSent + 1, scramblers := blocks.map (·.2),
    sinceControl := if bits (field flit 0 4) 31 30 = 2 then 0 else q.sinceControl + 1 })).emit
    (.flit p flit (blocks.map (fun b => laneLevels b.1)))

/-- Send a control flit. -/
def State.sendControl (s : State) (p : Nat) : State :=
  s.putFlit p (mkFlit 2 0 0 false false 0 0 (s.controlPayload p))

/-- CTRL_LOG2 (Table 13.16). -/
def State.ctrlLog2 (s : State) : Nat := max 3 (min 8 (bits (s.regs.eff regFabCtl 0) 27 24))

/-- Put a data flit on a port, after a control flit where 2^CTRL_LOG2 flits would pass without one (R457). -/
def State.putData (s : State) (p : Nat) (flit : List Byte) : State :=
  (if 2 ^ s.ctrlLog2 ≤ (s.portAt p).sinceControl + 1 then s.sendControl p else s).putFlit p flit

/-! ### Sending messages (R457, R458, R463 to R466) -/

/-- Flits of a receive buffer are passed on or consumed: their credits go back, unless the link they came on has ended (R463). -/
def State.returnCredit (s : State) (origin : Option (Nat × Nat × Nat)) (n : Nat) : State :=
  match origin with
  | none => s
  | some (p, link, i) => s.modPort p (fun q =>
      if q.link = link then { q with returned := setAt q.returned i ((at8 q.returned i + n) % 65536) } else q)

/-- 2 × class + VL of a queued message. -/
def Outgoing.lane (o : Outgoing) : Nat := 2 * msgClass o.msg + o.vl

/-- Send the next flit of a queued message: it is numbered and kept until it is acknowledged (R458), and where the message is being
passed on the flit leaves the receive buffer it came to (R463). -/
def State.sendFlit (s : State) (p : Nat) (o : Outgoing) : State :=
  let i := o.sent
  let last := o.msg.flits ≤ i + 1
  let part := (o.msg.granules.drop (9 * i)).take 9
  let mask := ((part.zip (List.range 9)).map (fun gi => if gi.1.2 then 2 ^ gi.2 else 0)).foldl (· + ·) 0
  let bytes := mkFlit 1 (msgClass o.msg) o.vl (i == 0) last (s.portAt p).txSeq mask (part.flatMap (·.1))
  let s := s.modPort p (fun q => { q with
    txSeq := (q.txSeq + 1) % 4096, replay := q.replay ++ [(o.msg.epoch, bytes)],
    sent := setAt q.sent o.lane ((at8 q.sent o.lane + 1) % 65536),
    turns := setAt q.turns (msgClass o.msg) (1 - o.vl),
    queue := if last then q.queue.erase o else q.queue.replace o { o with sent := i + 1 } })
  ((s.putData p bytes).count (portDie p) (fabCtr 0) 1).returnCredit o.origin 1

/-- A queued message has begun, or has credits for all its flits (R464). -/
def PortState.hasCredit (q : PortState) (o : Outgoing) : Bool :=
  decide (0 < o.sent) || decide (o.msg.flits ≤ (at8 q.limits o.lane + 65536 - at8 q.sent o.lane) % 65536)

/-- A port can send the next flit of a queued message now: it is UP, has room to keep the flit (R458), and the message has its credits. -/
def PortState.canSend (q : PortState) (o : Outgoing) : Bool :=
  q.mode == .up && decide (q.replay.length < 512) && q.hasCredit o

/-- A message of a port that is UP waits for credit (R499). -/
def PortState.stalls (q : PortState) : Bool := q.mode == .up && q.queue.any (fun o => !q.hasCredit o)

/-- The message whose flit goes next: C0 first, then C1, C2, C3; within a class it alternates between the VLs (R465), and on one VL the
oldest goes first, to its end (R464). -/
def PortState.pick (q : PortState) : Option Outgoing :=
  (List.range 4).findSome? (fun c => [at8 q.turns c % 2, (at8 q.turns c + 1) % 2].findSome? (fun vl =>
    match q.queue.find? (fun o => o.vl == vl && msgClass o.msg == c) with
    | some o => if q.canSend o then some o else none
    | none => none))

/-- Send what a port can send. `fuel` bounds the flits: the replay buffer holds 512 (R458). DEDUCED (log 24). -/
def State.pumpPort : Nat → Nat → State → State
  | 0, _, s => s
  | fuel + 1, p, s =>
    match (s.portAt p).pick with
    | some o => State.pumpPort fuel p (s.sendFlit p o)
    | none => s

/-- Queue a message for a port and send what can go. -/
def State.queueMsg (s : State) (p : Nat) (o : Outgoing) : State :=
  let s := s.modPort p (fun q => { q with queue := q.queue ++ [o] })
  State.pumpPort 512 p s

/-- A port takes messages: UP or RETRAIN, and not being disabled (R448, R472). -/
def State.portTakes (s : State) (p : Nat) : Bool :=
  p < 12 && (match (s.portAt p).mode with
    | .up | .retrain => !(s.portAt p).closing
    | .off | .seek | .train | .align | .failed => false)

/-- The egress of a message: port and whether it crosses a dateline; `none`: unreachable (R472), as every other chip is while no port is
UP (R479). -/
def State.egress (s : State) (m : Msg) : Option (Nat × Bool) :=
  let e := mget 0 s.fab.routes (bits (field m.header 1 1) 0 0 * 32768 + m.dst)
  let p := bits e 27 24
  let a := bits e 23 20
  if s.upPorts.isEmpty then none
  else if bit e 31 && s.portTakes p then some (p, bit e 29)
  else if bit e 30 && s.portTakes a then some (a, bit e 28)
  else none

/-- Send a message that arrived on, or is injected on, a VL, with the receive buffer that it lies in. False: the destination is
unreachable, which is counted (R472 to R474). -/
def State.sendOn (s : State) (vl : Nat) (origin : Option (Nat × Nat × Nat)) (m : Msg) : Bool × State :=
  match s.egress m with
  | some (p, line) => (true, s.queueMsg p ⟨if line then 1 else vl, 0, origin, m⟩)
  | none => (false, s.count 0 (fabCtr 10) 1)

/-- Inject a message on VL 0. One for this package is taken in without a lookup (R472). DEDUCED (log 21). -/
def State.send (s : State) (m : Msg) : Bool × State :=
  if m.dst = s.chipId then (true, { s with fab := { s.fab with arrived := s.fab.arrived ++ [m] } }) else s.sendOn 0 none m

/-- Answer an undeliverable C2 or C3 message with UNREACHABLE, which carries this chip's number (R473). -/
def State.bounce (s : State) (m : Msg) : State :=
  if 2 ≤ msgClass m then (s.send (s.newMsg 0x0A m.src s.chipId m.tag 0 [] [])).2 else s

/-- A message discarded under R468 or R469. -/
def State.discardMsg (s : State) : State := s.count 0 (fabCtr 12) 1

/-- Forward a message for another chip (R470, R472); one that goes no further leaves the receive buffer it lies in. DEDUCED (log 21). -/
def State.forwardMsg (s : State) (vl : Nat) (origin : Option (Nat × Nat × Nat)) (m : Msg) : State :=
  if m.hops = 127 then (((s.count 0 (fabCtr 11) 1).count 0 (fabCtr 10) 1).bounce m).returnCredit origin m.flits
  else
    let m' : Msg := { m with header := patch m.header 1 (natLe 1 (field m.header 1 1 + 2)) }
    let (ok, s) := s.sendOn vl origin m'
    if ok then s else (s.bounce m).returnCredit origin m.flits

/-- A port begins to seek a partner (R445, R446). -/
def State.seekPartner (s : State) (p : Nat) : State :=
  (s.count (portDie p) (fabCtr 6) 1).emit (.trainingPattern p s.chipId Config.serial.toNat)

/-! ### Port states (R444 to R453, R461, R477 to R479) -/

/-- NEIGHBOUR: partner chip, 0x7FFF for none (Table 15.5). -/
def State.neighbour (s : State) (p chip : Nat) (dup : Bool) : State :=
  (s.modPort p (fun q => { q with changed := true })).event 0x0402 (p + 16 * b2n dup + chip * 65536) false

/-- ISLAND holds when no port is UP (R479). DEDUCED (log 24). -/
def State.checkIsland (s : State) : State :=
  if s.upPorts = [] then
    if s.fab.island then s
    else ({ s with fab := { s.fab with island := true } } : State).event 0x0403 0 true
  else { s with fab := { s.fab with island := false } }

/-- What follows once the set of ports in UP has changed: ISLAND (R479), and the choice of a root among their offers (R488). -/
def State.portsMoved (s : State) : State := (s.checkIsland.chooseRoot).tellQuality s

/-- Discard the messages queued for a port that a test names, and count them; what of them lies in receive buffers leaves these
(R463, R477). -/
def State.dropQueue (s : State) (p : Nat) (drop : Outgoing → Bool) : State :=
  let q := (s.portAt p).queue
  let s := s.modPort p (fun x => { x with queue := q.filter (fun o => !drop o) })
  (q.filter drop).foldl (fun s o => s.returnCredit o.origin (o.msg.flits - o.sent)) (s.count (portDie p) (fabCtr 8) (q.filter drop).length)

/-- Discard what a port holds for a partner that is gone, and count the messages: those queued, and those whose last flit was sent and
not acknowledged (R477). The link's numbers start again, and so does what it received in part. -/
def State.dropPort (s : State) (p : Nat) : State :=
  let n := ((s.portAt p).replay.filter (fun b => bit (field b.2 0 4) 25)).length
  let s := s.dropQueue p (fun _ => true)
  (s.modPort p (fun q => { q with
    replay := [], txSeq := 0, rxSeq := 0, nak := false, resends := 0, partial' := [], closing := false,
    sent := List.replicate 8 0, got := List.replicate 8 0, returned := List.replicate 8 0, limits := List.replicate 8 0,
    link := q.link + 1, rootClass := 3 })).count (portDie p) (fabCtr 8) n

/-- The port carried traffic and had a partner. -/
def PortState.linked (q : PortState) : Bool :=
  match q.mode with
  | .up | .retrain => true
  | .align => q.known
  | .off | .seek | .train | .failed => false

/-- Leave for a state with no partner: what is queued is discarded and one NEIGHBOUR event is posted where the
port had been up (R477). -/
def State.leaveUp (s : State) (p : Nat) (m : PortMode) : State :=
  let was := (s.portAt p).linked
  let told := (s.portAt p).mode == .up || (s.portAt p).mode == .retrain
  let s := if was then s.dropPort p else s
  let s := s.modPort p (fun q => { q with mode := m, step := 0, known := false })
  let s := if m = .seek then s.seekPartner p else s
  let s := if told then s.neighbour p 0x7FFF false else s
  s.portsMoved

/-- A training failure: back to SEEK, or FAILED at the third in a row (R447); a port whose ENABLE has gone to 0 goes OFF (R448). -/
def State.trainFail (s : State) (p : Nat) : State :=
  let s := s.count (portDie p) (fabCtr 7) 1
  let n := (s.portAt p).fails + 1
  if (s.portAt p).closing then (s.leaveUp p .off).modPort p (fun q => { q with fails := n })
  else if 3 ≤ n then
    (((s.leaveUp p .failed).modPort p (fun q => { q with fails := n })).event 0x0401 p false)
  else (s.leaveUp p .seek).modPort p (fun q => { q with fails := n })

/-- Enter RETRAIN: the replay buffer is kept (Table 13.4). -/
def State.enterRetrain (s : State) (p : Nat) : State :=
  let q := s.portAt p
  if q.mode ≠ .up then s
  else
    ((s.modPort p (fun q => { q with
      mode := .retrain, newChip := q.chip, newPort := q.port, newSerial := q.serial })).count (portDie p)
      (fabCtr 4) 1).portsMoved

/-- Resend every unacknowledged data flit, oldest first; once 16 resends in a row have passed without an acknowledgement of the
oldest, the port enters RETRAIN instead (R459 to R461). -/
def State.resendAll (s : State) (p : Nat) : State :=
  let q := s.portAt p
  if q.replay = [] then s
  else if 16 ≤ q.resends then s.enterRetrain p
  else
    let s := s.count (portDie p) (fabCtr 3) 1
    let s := s.modPort p (fun q => { q with resends := q.resends + 1 })
    q.replay.foldl (fun s b => s.putData p b.2) s

/-- Reach UP: the partner is recorded, and one NEIGHBOUR event is posted, with DUPLICATE where it reports this package's number (R461,
R477, R478). A partner is the same where its package's serial number and its port are. A port whose ENABLE has gone to 0 goes on to OFF
once nothing is unacknowledged (R448). -/
def State.reachUp (s : State) (p : Nat) : State :=
  let q := s.portAt p
  let same := q.known && q.port = q.newPort && q.serial = q.newSerial
  let s := if same then s else (if q.known then s.dropPort p else s)
  let dup := q.newChip = s.chipId
  let lim (q : PortState) : List Nat :=
    if same then q.limits else (List.range 8).map (fun i => classBuffer (i / 2))
  let s := s.modPort p (fun q => { q with
    mode := .up, step := 0, fails := 0, known := true, chip := q.newChip, port := q.newPort, serial := q.newSerial,
    duplicate := dup, resends := 0, limits := lim q, lockFrom := 0, lockGood := 0 })
  let s := (s.neighbour p q.newChip dup).portsMoved
  let s := if same then (s.portAt p).replay.foldl (fun s b => s.putData p b.2) s else s
  if (s.portAt p).closing && (s.portAt p).replay.isEmpty then s.leaveUp p .off else State.pumpPort 512 p s

/-- PARTNER_DETECTED: a port in SEEK hears its partner's pattern on all lanes (R445, step 1); in RETRAIN the partners
exchange identity again (R461). -/
def execPartnerDetected (port chip partnerPort serial : Nat) (s : State) : Host.Outcome State Fault Refusal :=
  let put (m : PortMode) (st : Nat) (q : PortState) : PortState :=
    { q with mode := m, step := st, newChip := chip % 32768, newPort := partnerPort % 16, newSerial := serial % 2 ^ 64 }
  .next (if !s.portOn port then s
    else match (s.portAt port).mode with
      | .seek => s.modPort port (put .train 2)
      | .retrain => s.modPort port (put .retrain 0)
      | .off | .train | .align | .up | .failed => s)

/-- TRAINING_STEP_DONE (Table 13.5): step 2 shows the partner's capabilities, step 4 measures the lane-0 delays, and after it the port
sends flits. What capabilities there are the spec does not say. DESIGN CHOICE (log 24). -/
def execTrainingStepDone (step : TrainStep) (s : State) : Host.Outcome State Fault Refusal :=
  let p := step.port
  .next (if s.portOn p && (s.portAt p).mode == .train then
      let n := (s.portAt p).step
      let s := s.modPort p (fun q => { q with
        capabilities := if n = 2 then step.capabilities else q.capabilities,
        laneDelay := if n = 4 then (step.delayOut, step.delayIn) else q.laneDelay })
      if n < 4 then s.modPort p (fun q => { q with step := n + 1 })
      else (s.modPort p (fun q => { q with
        step := 5, mode := .align, flitsSent := 0, sinceControl := 0, lockFrom := 0, lockGood := 0 })).sendControl p
    else s)

/-- TRAINING_STEP_TIMEOUT: steps 2 to 5 have limits (R447). DESIGN CHOICE (log 8). -/
def execTrainingStepTimeout (port : Nat) (s : State) : Host.Outcome State Fault Refusal :=
  .next (if !s.portOn port then s
    else match (s.portAt port).mode with
      | .train | .align => s.trainFail port
      | .off | .seek | .up | .retrain | .failed => s)

/-- LOCK_ACHIEVED: four good flits after alignment (R452). DEDUCED (log 24). -/
def execLockAchieved (port : Nat) (s : State) : Host.Outcome State Fault Refusal :=
  .next (if !s.portOn port then s
    else match (s.portAt port).mode with
      | .align | .retrain => s.reachUp port
      | .off | .seek | .train | .up | .failed => s)

/-- LOCK_SEARCH_TIMEOUT: the search restarts; the port stays in ALIGN (R452). -/
def execLockSearchTimeout (port : Nat) (s : State) : Host.Outcome State Fault Refusal :=
  .next (if s.portOn port && (s.portAt port).mode == .align then s.modPort port (fun q => { q with lockGood := 0 }) else s)

/-- A flit that the receiver of a port in ALIGN has framed: four good ones in a row after the lanes were aligned bring it to UP; a bad
one shows a false lock, and every lane searches on from the next of its 80 positions (R452). DEDUCED (log 24). -/
def State.lockFlit (s : State) (p : Nat) (good : Bool) : State :=
  if !good then (s.count (portDie p) (fabCtr 2) 1).modPort p (fun q => { q with lockFrom := (q.lockFrom + 1) % 80, lockGood := 0 })
  else if (s.portAt p).lockGood < 3 then s.modPort p (fun q => { q with lockGood := q.lockGood + 1 })
  else s.reachUp p

/-- HEADER_MISMATCH: a port in UP returns to ALIGN and locks again. It keeps its replay buffer, its sequence numbers and the messages
it has begun to send; the messages queued for it are lost, as of any port that leaves UP (R453, R477). DEDUCED (log 24). -/
def execHeaderMismatch (port : Nat) (s : State) : Host.Outcome State Fault Refusal :=
  .next (if s.portOn port && (s.portAt port).mode == .up then
      let s := s.dropQueue port (fun o => o.sent == 0)
      let s := (s.modPort port (fun q => { q with
        mode := .align, step := 5, newChip := q.chip, newPort := q.port, newSerial := q.serial, lockFrom := 0, lockGood := 0 })).count
        (portDie port) (fabCtr 5) 1
      (s.neighbour port 0x7FFF false).portsMoved
    else s)

/-- RETRAIN_TIMEOUT counts as a training failure (R447). -/
def execRetrainTimeout (port : Nat) (s : State) : Host.Outcome State Fault Refusal :=
  .next (if s.portOn port && (s.portAt port).mode == .retrain then s.trainFail port else s)

/-- PORT_DISABLE_TIMEOUT: a port whose ENABLE went to 0 in UP enters OFF (R448). -/
def execPortDisableTimeout (port : Nat) (s : State) : Host.Outcome State Fault Refusal :=
  .next (if s.portOn port && (s.portAt port).closing then s.leaveUp port .off else s)

/-- REPLAY_TIMEOUT (R460). DESIGN CHOICE (log 8). -/
def execReplayTimeout (port : Nat) (s : State) : Host.Outcome State Fault Refusal :=
  .next (if s.portOn port && (s.portAt port).mode == .up then s.resendAll port else s)

/-- CONTROL_FLIT_TIMER (R457): a port that sends flits sends a control flit. -/
def execControlFlitTimer (port : Nat) (s : State) : Host.Outcome State Fault Refusal :=
  .next (if s.portOn port && ((s.portAt port).mode == .up || (s.portAt port).mode == .align) then s.sendControl port else s)

end Sys2Proof.Machine
end

