-- ==== Sys2Proof/Machine/Rings.lean ====
section
/-! DEFINITION. Host rings, doorbells, completion records, events and interrupts, and the BAR4 window
(chapter 15). -/

namespace Sys2Proof.Machine

/-! ### Rings -/

/-- SQ_CFG of a ring, as committed. -/
def State.sqCfg (s : State) (r : Nat) : Nat := s.regs.eff regSqCfg r
/-- A submission ring's state. -/
def State.sqRing (s : State) (r : Nat) : SqRing := mget SqRing.reset s.host.sq r
/-- Change a submission ring. -/
def State.modSq (s : State) (r : Nat) (f : SqRing → SqRing) : State :=
  { s with host := { s.host with sq := mmod SqRing.reset s.host.sq r f } }
/-- Change a completion ring. -/
def State.modCq (s : State) (r : Nat) (f : CqRing → CqRing) : State :=
  { s with host := { s.host with cq := mmod CqRing.reset s.host.cq r f } }
/-- Base of a submission ring in host memory. -/
def State.sqBase (s : State) (r : Nat) : Nat :=
  bits (s.regs.eff regSqBaseLo r) 31 6 * 64 + s.regs.eff regSqBaseHi r * 2 ^ 32
/-- Base of a completion ring in host memory. -/
def State.cqBase (s : State) (r : Nat) : Nat :=
  bits (s.regs.eff regCqBaseLo r) 31 4 * 16 + s.regs.eff regCqBaseHi r * 2 ^ 32

/-- Entries from the head that SQ_TAIL covers. -/
def State.covered (s : State) (r : Nat) : Nat :=
  let q := s.sqRing r
  (q.tail + ringSize (s.sqCfg r) - q.head) % ringSize (s.sqCfg r)

/-- A held copy of the entry that lies `j` after the head shows the current PHASE (R551). -/
def State.currentCopy (s : State) (r j : Nat) : Option (List Byte) :=
  let q := s.sqRing r
  let size := ringSize (s.sqCfg r)
  let lap := q.lap + (q.head + j) / size
  match q.copies.find? (fun c => c.1 == (q.head + j) % size) with
  | some c => if bit (field c.2 1 1) 7 == (lap % 2 == 0) then some c.2 else none
  | none => none

/-- Read a covered entry from host memory where no current copy of it is held; a copy that is not current is
discarded, and each repeated read of such an entry is counted (R557, R558). DEDUCED (log 40). -/
def State.refetch (s : State) (r j : Nat) : State :=
  match s.currentCopy r j with
  | some _ => s
  | none =>
    let size := ringSize (s.sqCfg r)
    let i := ((s.sqRing r).head + j) % size
    let again := (s.sqRing r).copies.any (fun c => c.1 == i) || (s.sqRing r).stale.contains i
    let s := s.modSq r (fun q => { q with
      copies := q.copies.filter (fun c => c.1 != i), reading := i :: q.reading.filter (· != i),
      stale := (if again then [i] else []) ++ q.stale.filter (· != i) })
    (s.count 0 (ctrId 15 10 2) (b2n again)).emit (.hostRead (s.sqBase r + 64 * i) 64)

/-- Places behind the head, within sixteen, of the covered entries. -/
def State.window (s : State) (r : Nat) : List Nat := List.range (min 16 (s.covered r))

/-- The device may read submission entries of a ring: it is enabled and not in ERROR, and the function is in D0. -/
def State.mayFetch (s : State) (r : Nat) : Bool := bit (s.sqCfg r) 31 && !(s.sqRing r).error && !s.d3hot

/-- Read every covered entry that has no current copy, within the sixteen that follow the head. -/
def State.fetchRing (s : State) (r : Nat) : State :=
  if s.mayFetch r then (s.window r).foldl (fun s j => s.refetch r j) s else s

/-- A covered entry has never been read: no copy of it is held, none is under way, and none was found not current. -/
def State.unread (s : State) (r j : Nat) : Bool :=
  let q := s.sqRing r
  let i := (q.head + j) % ringSize (s.sqCfg r)
  !(q.copies.any (fun c => c.1 == i) || q.reading.contains i || q.stale.contains i)

/-- The head has moved on: the covered entries that come within sixteen of it are read at once (R850). -/
def State.fetchNew (s : State) (r : Nat) : State :=
  if s.mayFetch r then ((s.window r).filter (s.unread r)).foldl (fun s j => s.refetch r j) s else s

/-- Whether the package takes anything from the host: BAR0 is readable, no reset or power loss runs, and the function is not in D3hot. -/
def State.hostOpen (s : State) : Bool := s.rst.bar0 && (s.rst.state == 0 || s.rst.state == 2) && !s.d3hot

/-- A read of BAR2 returns zero (R548); the command table has no row for it. -/
def State.bar2View (_ : State) (_offset : Nat) : Nat := 0

/-- A tail is recorded for a submission ring (R553, R554), and the entries it covers are read (R850). DEDUCED (log 40). -/
def State.doorbell (s : State) (r v : Nat) (src : ClampSource) : State :=
  let size := ringSize (s.sqCfg r)
  let s := s.clamp src (b2n (size ≤ v))
  let s := s.modSq r (fun q => { q with tail := v % size })
  s.fetchRing r

/-- SQ_TAIL. While RESETTING doorbells are dropped (R791). -/
def execSqTail (ring value : Nat) (s : State) : Host.Outcome State Fault Refusal :=
  .next (if ring < 256 && s.hostOpen then
      s.doorbell ring (value % 65536) (.doorbell (ring * 0x1000) (value % 65536) ring)
    else s)

/-! ### Interrupts (R574) -/

/-- Send the ring's MSI-X message, or set its pending bit where the vector is masked, by itself or with the whole function. -/
def State.signalVector (s : State) (r : Nat) : State :=
  let v := s.cqCfg r % 2048
  let e := mget MsixEntry.reset s.host.msix v
  if s.vectorMasked v then
    { s with host := { s.host with msix := mput MsixEntry.reset s.host.msix v { e with pending := true } } }
  else (s.emit (.msix v)).count 0 (ctrId 15 10 6) 1

/-- A vector that is no longer masked sends the message that its PBA bit holds (R574). -/
def State.sendPending (s : State) (v : Nat) : State :=
  let e := mget MsixEntry.reset s.host.msix v
  if !e.pending || s.vectorMasked v then s
  else
    (({ s with host := { s.host with msix := mput MsixEntry.reset s.host.msix v { e with pending := false } } } : State).emit
      (.msix v)).count 0 (ctrId 15 10 6) 1

/-- Signal a ring: the message goes out, ARMED clears and the wait starts afresh. -/
def State.signalRing (s : State) (r : Nat) : State :=
  (s.signalVector r).modCq r (fun q => { q with armed := false, since := none, urgent := false })

/-- Signal where ARMED is 1 and COUNT is reached, or an URGENT record has been written since the last signal. DEDUCED (log 40). -/
def State.maySignal (s : State) (r : Nat) : State :=
  let count := bits (s.regs.eff regCqMod r) 31 24
  if (s.cqRing r).armed && ((s.cqRing r).urgent || (count ≠ 0 && count ≤ s.unconsumed r)) then s.signalRing r else s

/-- CQ_HEAD: records are consumed; the value is taken modulo the ring size (R554, R570). -/
def execCqHead (ring value : Nat) (s : State) : Host.Outcome State Fault Refusal :=
  .next (if ring < 256 && s.hostOpen then
      let v := value % 65536
      let size := ringSize (s.cqCfg ring)
      let s := s.clamp (.doorbell (ring * 0x1000 + 4) v ring) (b2n (size ≤ v))
      let all := v % size = (s.cqRing ring).tail
      s.modCq ring (fun q => { q with
        head := v % size, since := if all then none else q.since, urgent := q.urgent && !all })
    else s)

/-- CQ_ARM: a write of 1 arms the ring, and a record that waits starts a new wait from the arm (R574). -/
def execCqArm (ring value : Nat) (s : State) : Host.Outcome State Fault Refusal :=
  .next (if ring < 256 && s.hostOpen && bit value 0 then
      let s := s.modCq ring (fun q => { q with
        armed := true, since := if s.unconsumed ring = 0 then none else some s.time.beats })
      s.maySignal ring
    else s)

/-- MSIX_TIMER: a record has waited TIME × 1 024 beats on an armed ring. DEDUCED (log 40). -/
def execMsixTimer (ring : Nat) (s : State) : Host.Outcome State Fault Refusal :=
  let q := s.cqRing ring
  let t := s.regs.eff regCqMod ring % 65536
  .next (match q.since with
    | some b => if s.rst.bar0 && q.armed && t ≠ 0 && b + t * 1024 ≤ s.time.beats then s.signalRing ring else s
    | none => s)

/-! ### Submission reads (R547, R557, R562) -/

/-- A ring enters ERROR and posts one RING_ERROR event (R562). DEDUCED (log 40). -/
def State.ringError (s : State) (r cause : Nat) : State :=
  if (s.sqRing r).error then s
  else (s.modSq r (fun q => { q with error := true })).event 0x0501 (r + 256 * cause) true

/-- A read of host memory has ended (R547): a failed one counts, and AER logs a completion timeout or a poisoned completion. -/
def State.readEnded (s : State) (error : Nat) : State :=
  let s := s.count 0 (ctrId 15 10 7) (b2n (error ≠ 0))
  match error with
  | 2 => s.aer 14
  | 3 => s.aer 12
  | _ => s

/-- SUBMISSION_READ_COMPLETE. `error`: 0 none, 1 Unsupported Request or Completer Abort, 2 completion timeout, 3
poisoned completion. A failed read of entries that SQ_TAIL did not cover when it was issued is discarded without error (R547); one for a ring that is no longer enabled, or is in ERROR, is counted. -/
def execSubmissionReadComplete (ring index : Nat) (data : List Byte) (error : Nat) (s : State) :
    Host.Outcome State Fault Refusal :=
  .next (
    if ring < 256 && s.hostOpen then
      let s := s.readEnded error
      if !(bit (s.sqCfg ring) 31 && !(s.sqRing ring).error) then s
      else
      let size := ringSize (s.sqCfg ring)
      let n := max 1 (data.length / 64)
      let far (i : Nat) : Nat := (index + i + size - (s.sqRing ring).head) % size
      let entries := (List.range n).map (fun i => (index + i) % size)
      let covered := entries.any (s.sqRing ring).reading.contains
      let s := s.modSq ring (fun q => { q with reading := q.reading.filter (fun e => !entries.contains e) })
      if error ≠ 0 then (if covered then s.ringError ring error else s)
      else
        (List.range (data.length / 64)).foldl (fun s i =>
          if far i < 16 then
            let e := (index + i) % size
            s.modSq ring (fun q => { q with
              copies := q.copies.filter (fun c => c.1 != e) ++ [(e, slice data (64 * i) 64)] })
          else s) s
    else s)

/-- SQ_REFETCH_TIMER: covered entries whose copy is not current are read again (R558). -/
def execSqRefetchTimer (ring : Nat) (s : State) : Host.Outcome State Fault Refusal :=
  .next (if ring < 256 && s.hostOpen then s.fetchRing ring else s)

/-! ### Acceptance (R555, R564) -/

/-- Slots that a ring holds. -/
def State.slotsOf (s : State) (r : Nat) : Nat :=
  (s.host.slots.filter (fun kv => match kv.2 with | some sl => sl.ring == r | none => false)).length

/-- The lowest free holding slot. -/
def State.freeSlot (s : State) : Option Nat :=
  (List.range 4096).find? (fun k => (s.slot k).isNone)

/-- A ring has an entry ready to accept. -/
def State.entryReady (s : State) (r : Nat) : Bool :=
  let cfg := s.sqCfg r
  bit cfg 31 && !(s.sqRing r).error && 0 < s.covered r && (s.currentCopy r 0).isSome

/-- A ring may take a slot: it is ready and holds fewer than MAX_SLOTS. -/
def State.mayAccept (s : State) (r : Nat) : Bool :=
  let m := s.sqCfg r % 8192
  s.entryReady r && (m = 0 || s.slotsOf r < m)

/-- The ring to serve: highest PRIO, and round robin among equals from the ring after the one served last. -/
def State.nextRing (s : State) : Option Nat :=
  [3, 2, 1, 0].findSome? (fun p =>
    let last := mget 255 s.host.lastServed p
    ((List.range 256).map (fun i => (last + 1 + i) % 256)).find? (fun r =>
      bits (s.sqCfg r) 30 29 = p && s.mayAccept r))

/-- New work stops in FATAL, in a reset and in a power-down (R710, R791, R797). -/
def State.acceptsWork (s : State) : Bool :=
  s.rst.bar0 && s.rst.state == 0 && !s.cores.fatal && !s.rst.stoppedAll && !s.memHeld

/-- The descriptors that stand right behind a held MATMUL with DRAIN_CHAIN in a ring, once `d` is accepted at position `seq` (R125). -/
def State.chainedBehind (s : State) (r seq : Nat) (d : List Byte) : List (Nat × List Byte) :=
  let chaining (n : Nat) : Bool := n ≠ 0 && (match s.findSeq r (n - 1) with
    | some (_, m) => chainsOn m.desc
    | none => false)
  ((s.sqRing r).behind.filter (fun b => chaining b.1)) ++ (if chaining seq then [(seq, d)] else [])

/-- Accept the head entry of a ring into a slot. -/
def State.acceptInto (s : State) (r k : Nat) (d : List Byte) : State :=
  let q := s.sqRing r
  let size := ringSize (s.sqCfg r)
  let sl : Slot := ⟨.waiting, d, r, q.head, q.accepted, [], 0, false, 0, [], [], none, s.host.accepted, 0, 0, false, 0, none, [], [], [], [], none⟩
  let behind := s.chainedBehind r q.accepted d
  let s := s.putSlot k (some sl)
  let s := s.modSq r (fun q => { q with
    head := (q.head + 1) % size, lap := q.lap + (if q.head + 1 = size then 1 else 0), accepted := q.accepted + 1,
    copies := q.copies.filter (fun c => c.1 != q.head), behind := behind, stale := q.stale.filter (· != q.head) })
  let s := { s with host := { s.host with
    accepted := s.host.accepted + 1, lastServed := mput 255 s.host.lastServed (bits (s.sqCfg r) 30 29) r } }
  (s.count 0 (ctrId 15 10 0) 1).fetchNew r

/-- DESCRIPTOR_ACCEPT. -/
def execDescriptorAccept (s : State) : Host.Outcome State Fault Refusal :=
  .next (if s.acceptsWork then
      match s.nextRing, s.freeSlot with
      | some r, some k =>
        match s.currentCopy r 0 with
        | some d => s.acceptInto r k d
        | none => s
      | _, _ => s
    else s)

/-! ### Records (R568 to R573) -/

/-- Write one record to a completion ring with its PHASE, and signal where due. DEDUCED (log 40). -/
def State.writeRecord (s : State) (r : Nat) (rec : List Byte) : State :=
  let q := s.cqRing r
  let size := ringSize (s.cqCfg r)
  let flags := field rec 3 1 / 2 * 2 + b2n (q.lap % 2 == 0)
  let bytes := patch rec 3 (natLe 1 flags)
  let s := s.emit (.hostWrite (s.cqBase r + 16 * q.tail) bytes false)
  let s := s.modCq r (fun q => { q with
    tail := (q.tail + 1) % size, lap := q.lap + (if q.tail + 1 = size then 1 else 0),
    since := some (q.since.getD s.time.beats), urgent := q.urgent || bit flags 2 })
  (s.count 0 (ctrId 15 10 1) 1).maySignal r

/-- A completion ring can take a record (R570). -/
def State.cqHasRoom (s : State) (r : Nat) : Bool :=
  0 < s.cqRoom r

/-- The completion ring of a submission ring. -/
def State.cqOf (s : State) (r : Nat) : Nat := bits (s.sqCfg r) 23 16

/-- Slots whose record waits for a completion ring, in completion order. -/
def State.waitingRecords (s : State) (r : Nat) : List (Nat × Slot) :=
  let xs := s.host.slots.filterMap (fun kv => match kv.2 with
    | some sl => if sl.phase == .done && s.cqOf sl.ring == r then some (kv.1, sl) else none
    | none => none)
  xs.mergeSort (fun a b => a.2.order ≤ b.2.order)

/-! ### Orderly power-down, steps 3 to 7 (Table 22.9) -/

/-- Some slot stands in a phase. -/
def State.anySlot (s : State) (p : SlotPhase) : Bool :=
  s.host.slots.any (fun kv => match kv.2 with | some sl => sl.phase == p | none => false)

/-- Occupied holding slots. -/
def State.occupied (s : State) : Nat := (s.host.slots.filter (fun kv => kv.2.isSome)).length

/-- The 32-byte payload of a RESET record (Table 22.8); `disc` holds the seven counts in its order. -/
def resetPayload (kind trigger : Nat) (disc : List Nat) : List Byte :=
  natLe 1 kind ++ natLe 1 trigger ++ [0, 0] ++ (disc.map (sat 32)).flatMap (natLe 4)

/-- Steps 5 to 7: the history takes the boundary count, the RESET record is written and POWERDOWN_READY is posted. -/
def State.pdFinish (s : State) : State :=
  let s := s.flushBuffers
  let disc := [0, 0, at8 s.rst.disc 2, 0, 0, s.occupied, at8 s.rst.disc 6]
  let s := { s with rst := { s.rst with disc := disc, draining := false, readyPosted := true },
                    aec := { s.aec with stored := s.aec.boundaries } }
  (s.bbRecord 0x0006 (resetPayload 4 6 disc)).event 0x0D02 (sat 24 s.occupied) true

/-- An orderly power-down goes on once no dispatched descriptor runs and every record and event has been written. -/
def State.pdCheck (s : State) : State :=
  if s.rst.state ≠ 2 || s.rst.readyPosted || (s.rst.draining && s.anySlot .running) then s
  else
    let s := ({ s with rst := { s.rst with draining := false } } : State).flushBuffers
    if s.anySlot .done || !s.host.events.isEmpty then s else s.pdFinish

/-- COMPLETION_RECORD_WRITE: the record that completed first goes to the ring, and its slot is free; a QUIET
one frees its slot unwritten (R570, R584). After step 1 of R710 none is written. -/
def execCompletionRecordWrite (ring : Nat) (s : State) : Host.Outcome State Fault Refusal :=
  .next (if s.rst.bar0 && !s.cores.fatal && !s.nodesStopped && !s.memHeld && s.cqHasRoom ring then
      match s.waitingRecords ring with
      | (k, sl) :: _ => ((if sl.quiet then s else s.writeRecord ring sl.record).putSlot k none).pdCheck
      | [] => s
    else s)

/-- Step 7 of an orderly power-down: PKG_RUN goes low and STATE reads DOWN_READY (R797). -/
def State.downReady (s : State) : State :=
  ({ s with rst := { s.rst with state := 3, pkgRun := false, readyPosted := false } } : State).emit (.pin "PKG_RUN" false)

/-- The oldest event goes to completion ring 0, where it has room, with LOST where events were lost before it (R573). -/
def State.eventWrite (s : State) : State :=
  if s.rst.bar0 && !s.rst.stoppedAll && s.rst.state != 4 && s.cqHasRoom 0 then
    match s.host.events with
    | rec :: rest =>
      let fl := field rec 3 1
      let rec' := if s.host.lostNext && !bit fl 3 then patch rec 3 (natLe 1 (fl + 8)) else rec
      let s := { s with host := { s.host with events := rest, lostNext := false } }
      let s := s.writeRecord 0 rec'
      if s.rst.readyPosted && field rec 0 2 = 0x0D02 then s.downReady else s.pdCheck
    | [] => s
  else s

/-- EVENT_RECORD_WRITE. -/
def execEventRecordWrite (s : State) : Host.Outcome State Fault Refusal := .next s.eventWrite

/-! ### BAR4 (R324, R337, R549) -/

/-- A request that PCI Express permits on BAR4: 1 to 4 096 bytes within one 4 KiB block of the 16 GiB. -/
def bar4Ok (addr len : Nat) : Bool :=
  1 ≤ len && len ≤ 4096 && addr / 4096 = (addr + len - 1) / 4096 && addr + len ≤ 2 ^ 34

/-- BAR4_READ. The access does not take place while its memory holds (R745), and the command may be given again. DESIGN CHOICE (log 3). -/
def execBar4Read (addr len : Nat) (s : State) : Host.Outcome State Fault Refusal :=
  .next (
    if !s.mgmt.bar4 || !s.bar0Open then s.emit .unsupported
    else if len = 0 then s.emit (.readData (List.replicate 4 0) false)
    else if !bar4Ok addr len then s
    else if tierEnd ≤ addr then s.emit (.readData (List.replicate len 0) false)
    else if s.sramHeld (dieOfAddr addr) then s
    else
      let (bs, ps, s) := s.memRead addr len
      s.emit (.readData bs (anyP ps)))

/-- BAR4_WRITE; it waits as BAR4_READ does. The data of a Poisoned TLP is stored poisoned, and AER logs it (Table 15.1). DEDUCED
(log 40). -/
def execBar4Write (addr : Nat) (data : HostData) (s : State) : Host.Outcome State Fault Refusal :=
  .next (
    if !s.mgmt.bar4 || !s.bar0Open then s
    else if !bar4Ok addr data.bytes.length then s
    else if tierEnd ≤ addr then s.clamp .table 1
    else if s.sramHeld (dieOfAddr addr) then s
    else
      let t := (s.memWrite addr data.bytes data.poisoned).2
      if data.poisoned then t.aer 12 else t)

/-- CLAMP_COUNT_READ: the count since the last read, which clears (R15, R575). -/
def execClampCountRead (s : State) : Host.Outcome State Fault Refusal :=
  .next (s.onRead s.host.clampCount (fun s => { s with host := { s.host with clampCount := 0 } }))

end Sys2Proof.Machine
end

