-- ==== Sys2Proof/Machine/Plan.lean ====
section
/-! DEFINITION. Planned durations of held descriptors in Timetable mode (R637): their handshake counts without freezes, taken from the
timing rules of the owning chapters. -/

namespace Sys2Proof.Machine

/-- The longest of several leaves, each of which spends the sum of its pieces' counts. -/
def perLeaf (xs : List (Nat × Nat)) : Nat :=
  (((xs.map (·.1)).eraseDups).map (fun l => ((xs.filter (fun x => x.1 == l)).map (·.2)).foldl (· + ·) 0)).foldl max 0

/-- Occupancy of row i of a MATMUL at the pieces of tile (kt, nt), whose bank stands at cell u: the passes of its formats, or the
handshakes of its side products where those are more (R113, R129). -/
def State.rowOccupancy (s : State) (u : Nat) (a : MatArgs) (m : BlockFmts) (kt nt i : Nat) : Nat :=
  let k := min (tileK a.q a.packed) (a.k - tileK a.q a.packed * kt)
  let n := min (modeWidth a.q) (a.n - modeWidth a.q * nt)
  let b := (s.cell u).bank a.bank
  let f := (a.fmtAt m kt i).1
  let xs := (s.fetchSlice a.a f (a.a.row0 + i) (a.a.col0 + tileK a.q a.packed * kt) k k u false).1
  ((b.pieces n).map (fun p =>
    let wt (kk j : Nat) : Weight := mget Weight.zero b.w ((laneOrigin a.q a.packed + kk) * 32 + columnOrigin a.q + p.1 + j)
    max (passes a.packed f p.2.2) (sideShakes (sideProducts (xs.zip (List.range xs.length)) wt p.2.1)))).foldl (· + ·) 0

/-- Handshakes of one tile of a MATMUL (R129, R136). -/
def State.matCount (s : State) (u : Nat) (a : MatArgs) (m : BlockFmts) (t : Nat × Nat) : Nat :=
  if a.k = 0 then 6 + a.rows
  else (if a.q.isSome then 38 else 70) + ((List.range a.rows).map (s.rowOccupancy u a m t.1 t.2)).foldl (· + ·) 0

/-- Handshakes of one tile of a LOADW: its lane rows and its side entries, at most eight for each column and half (R115, R118). -/
def State.loadCount (s : State) (u : Nat) (a : LoadArgs) (m : BlockFmts) : Nat :=
  let side := (List.range a.n).flatMap (fun j => (loadSegments a a.k).map (fun sg =>
    let f := (m.at a.ref (a.w.row0 + j) a.w.col0).1
    let lim := if a.packed then 128 else 8
    min lim ((s.fetchSlice a.w f (a.w.row0 + j) (a.w.col0 + sg.1) sg.2 lim u false).1.filter (·.esc)).length))
  24 + (if a.q.isSome then 16 else 32) + (side.foldl (· + ·) 0 + 3) / 4

/-- Handshakes of a row of a DRAIN's output: T of R176. -/
def DrainArgs.perRow (a : DrainArgs) : Nat := if a.raw then 4 else if a.fmt == .fp32 then 2 else 1

/-- Parts that the work of a vector-engine descriptor is divided into, and the handshakes of n of them from one on (Tables 8.3 and 8.6,
R626). -/
def State.veCount (s : State) (d ext : List Byte) : Option (Nat × (Nat → Nat → Nat)) :=
  match opcodeOf d with
  | 0x04 => let a := (readStats d).1; some (a.records, fun _ n => n * a.work)
  | 0x05 => let a := (readQuant d ext).1; some (a.nr, fun r n => a.work (min (128 * n) (a.rows - 128 * r)))
  | 0x06 => some (field d 32 4 % 2 ^ 20 + 1, fun _ n => rotateWork (field d 36 4 % 2 ^ 20 + 1) n)
  | 0x10 => some (field d 40 4 % 2 ^ 20 + 1, fun _ n => vecWork (readVecOp (field d 32 1)).1 (field d 44 4 % 2 ^ 20 + 1) n)
  | 0x11 => let a := (readReduce d ext).1; some (a.rows, fun _ n => a.work n)
  | 0x60 => some (1, fun _ _ => digestWork (field d 22 4 % 2 ^ 20 + 1) (field d 18 4))
  | 0x61 =>
    let c := (readCheck d ext).1
    some (1, fun _ _ => if s.layerCount ≤ c.entry then 0 else c.work)
  | _ => none

/-- Whether a descriptor reads an extension block (Table 16.3). -/
def needsExt (d : List Byte) : Bool :=
  match opcodeOf d with
  | 0x05 | 0x10 | 0x61 => true
  | 0x03 => drainNeedsExt d
  | 0x11 => reduceNeedsExt d
  | _ => false

/-- The rows and mode of the MATMUL that a DRAIN stands chained behind, if it does (R172). -/
def State.chainedTo (s : State) (p : Place) (sl : Slot) (barred : List Nat) : Option MatArgs :=
  if sl.seq = 0 then none
  else match s.findSeq sl.ring (sl.seq - 1) with
    | some (_, m) => if chainsOn m.desc && targetOf m.desc = targetOf sl.desc
        then some (s.readMatmul p (targetOf sl.desc) m.desc barred).1 else none
    | none => none

/-- The handshake count of a held descriptor, without freezes, replays and retries, from what its operands hold now: of a group's
descriptor, that of the leaf whose pieces take longest one after another (R637). `none`: no rule gives one. DEDUCED (log 47). -/
def State.handshakeCount (s : State) (sl : Slot) : Option Nat :=
  let d := sl.desc
  let id := targetOf d
  match s.placeOf id with
  | none => none
  | some p =>
    let barred := s.barredNow.filter (· != s.unitOf id)
    let tiles (ts : List (Nat × Nat)) (f : Nat → Nat × Nat → Nat) : Nat :=
      perLeaf (ts.filterMap (fun t => (s.pieceCell barred id (tileId p id t.1 t.2)).map (fun c =>
        (c, f (s.unitOf (tileId p id t.1 t.2)) t))))
    let a := addr48 d 56 / 64 * 64
    let ext := if needsExt d && inTier a 64 then s.rawBytes a 64 else []
    match opcodeOf d with
    | 0x01 =>
      let a := (s.readMatmul p id d barred).1
      let m := (s.matFmts a).1
      some (tiles a.tiles (fun u t => s.matCount u a m t))
    | 0x02 =>
      let a := (s.readLoadw p d).1
      let m := (s.blockFmts a.w a.ref (a.w.blocks a.n a.k)).1
      some (tiles (workTiles a.q a.packed a.k a.n) (fun u t => s.loadCount u (a.tile d t.1 t.2).1 m))
    | 0x03 =>
      let a := (readDrain p d ext (s.chainedTo p sl barred) barred).1
      some (tiles (workTiles a.q false 0 a.n) (fun _ _ => 16 + a.perRow * a.rows))
    | _ => (s.veCount d ext).map (fun w =>
        perLeaf ((piecesOf (s.workers barred .vectorEngine id) w.1).map (fun x => (x.1, 40 + w.2 x.2.1 x.2.2))))

end Sys2Proof.Machine
end

