-- ==== Sys2Proof/Machine/Begin.lean ====
section
/-! DEFINITION. Dispatch of accepted descriptors: wait masks, what holds a dispatch, the checks made before a
node is reached, and reading the extension block (chapters 02, 15, 16, 17 and 18). -/

namespace Sys2Proof.Machine

/-! ### What a descriptor reads and writes (for R392, R656, R678) -/

/-- Rows of `n` bytes a stride apart. -/
def rowsExtent (base rows stride n : Nat) : List (Nat × Nat) := (List.range rows).map (fun i => (base + i * stride, n))

/-- Rows of `n` bytes a stride apart at an endpoint, where it is LOCAL (R608). -/
def State.endExtent (s : State) (addr kind rows stride n : Nat) : List (Nat × Nat) :=
  match s.endpoint addr kind with
  | some (.local a) => rowsExtent a rows stride n
  | some (.remote _ _) | some (.host _) | none => []

/-- Bytes of an element of UPDATE and NEARVEC by its format code (Tables 12.3 and 12.7): BF16, and any other code FP32. -/
def ueBytes (code : Nat) : Nat := if code % 16 = 9 then 2 else 4

/-- Address ranges that a descriptor writes (Tables 16.9 to 16.22). -/
def State.writeExtents (s : State) (d ext : List Byte) : List (Nat × Nat) :=
  let a (off : Nat) : Nat := field d off 6
  let w (off : Nat) : Nat := field d off 4
  let m1 (off : Nat) : Nat := field d off 4 % 2 ^ 20 + 1
  let e (off : Nat) : Nat := field ext off 6
  match opcodeOf d with
  | 0x03 =>
    let n := field d 42 2 % 4096 + 1
    let rows := m1 44
    rowsExtent (a 8) rows (w 14) (16 * n)
      ++ (if ext = [] then [] else [(e 0, 8 * rows), (e 6, 4 * rows * ((n + 31) / 32))])
  | 0x04 => [(a 18, 16 * max (m1 28) (m1 32))]
  | 0x05 =>
    let rows := m1 48
    let nc := (m1 52 + 127) / 128
    let nr := (rows + 127) / 128
    [(a 24, nr * nc * max (readPitch (field d 45 1)).1 16384), (a 30, 8 * rows), (a 36, 24 * rows * nc), (e 0, nr * nc),
      (e 12, if bit (field d 42 1) 6 then 4 * rows * nc else 0)]
  | 0x06 => rowsExtent (a 18) (m1 32) (w 24) (4 * m1 36)
  | 0x10 => rowsExtent (a 26) (m1 40) (field ext 12 4) ((if field d 32 1 = 0x16 then 16 else 4) * m1 44)
  | 0x11 => rowsExtent (a 26) (m1 36) (w 52) (16 * (field d 40 4 % 2 ^ 20 + 1))
  | 0x20 => s.endExtent (field d 16 8) (field d 24 1 / 4) (m1 32) (w 40) (w 28)
  | 0x30 =>
    let n := field (s.rawBytes (a 8 / 16 * 16) 2) 0 2 % 32768 + 1
    let counts := s.rawBytes (a 32 / 8 * 8) (8 * n)
    let elems := if bit (field d 38 1) 7 then ((List.range n).map (fun i => field counts (8 * i) 8)).foldl (· + ·) 0
      else field d 46 5
    [(a 20, 16 * elems), (a 26, 32 + 4 * n)]
  | 0x31 => [(a 32, 8 * 32768), (a 26, 32)]
  | 0x51 => [(a 26, 32)]
  | 0x40 =>
    let r := s.rawBytes (a 8 / 32 * 32) 128
    let trows := field r 64 4 % 2 ^ 20 + 1
    let len := field r 60 4 % 2 ^ 20 + 1
    let nc := (len + 127) / 128
    let first := field d 16 4 % 2 ^ 20
    let rows := min (m1 20) (trows - first)
    let fmts := field r 68 2
    let rule := field d 14 1 % 4
    let arr (off b : Nat) : List (Nat × Nat) := [(field r off 6 + first * len * b, rows * len * b)]
    arr 0 4 ++ arr 12 (ueBytes (bits fmts 7 4)) ++ (if rule % 2 = 1 then arr 18 (ueBytes (bits fmts 11 8)) else [])
      ++ (if bit (field r 73 1) 0 then arr 24 2 else [])
      ++ (if bit (field r 73 1) 1 then [(field r 30 6 + 4 * first, 4 * rows)] else [])
      ++ (if bit (field r 73 1) 2 then
          [(field r 36 6, (trows + 127) / 128 * nc * max (readPitch (field r 72 1)).1 16384),
            (field r 42 6 + 8 * first, 8 * rows), (field r 48 6 + 24 * first * nc, 24 * rows * nc)]
        else [])
  | 0x41 =>
    let op := field d 26 1 % 16
    [(a 20, if op = 5 || op = 6 || op = 7 then 4 * m1 28 else ueBytes (field d 27 1 / 16) * m1 28 * m1 32)]
  | 0x60 => [(a 26, 8)]
  | 0x61 => [(s.layerEntry (field d 38 2 % 4096), 32)]
  | 0x70 => if bit (field d 24 1) 1 then [(a 14, 32)] else []
  | 0x71 =>
    let list := field d 17 6
    let n := field d 24 4 % 65536 + 1
    s.endExtent (field d 8 8) (field d 16 1) 1 0
      (((List.range n).map (fun i => field (s.rawBytes (list + 16 * i) 16) 8 8)).foldl (· + ·) 0)
  | _ => []

/-- Address ranges that a descriptor reads, where it may read stack memory (for R392 and R678). -/
def State.readExtents (s : State) (d : List Byte) : List (Nat × Nat) :=
  let a (off : Nat) : Nat := field d off 6
  let m1 (off : Nat) : Nat := field d off 4 % 2 ^ 20 + 1
  match opcodeOf d with
  | 0x20 => s.endExtent (field d 8 8) (field d 24 1) (m1 32) (field d 36 4) (field d 28 4)
  | 0x21 => s.endExtent (field d 8 8) (field d 16 1) 1 0 (if bits (field d 16 1) 3 2 = 0 then field d 24 4 else 0)
  | 0x40 =>
    let r := s.rawBytes (a 8 / 32 * 32) 128
    let trows := field r 64 4 % 2 ^ 20 + 1
    let len := field r 60 4 % 2 ^ 20 + 1
    let b := ueBytes (field r 68 2)
    let first := field d 16 4 % 2 ^ 20
    [(a 8 / 32 * 32, 128), (field r 6 6 + first * len * b, min (m1 20) (trows - first) * len * b)]
      ++ (if field d 14 1 % 4 = 3 then [(field r 74 6, 288)] else [])
      ++ (if bit (field r 73 1) 2 && bit (field r 71 1) 4 then
          [(field r 54 6, (trows + 127) / 128 * ((len + 127) / 128))] else [])
  | 0x41 =>
    let op := field d 26 1 % 16
    let n := m1 28 * m1 32
    (if op = 3 then [] else [(a 8, n * ueBytes (field d 26 1 / 16))])
      ++ (if op = 1 then [(a 14, n * ueBytes (field d 27 1))]
          else if op = 4 then [(a 14, m1 28 * ueBytes (field d 27 1))] else [])
  | 0x70 => [(a 8, 16 * field d 20 4)]
  | 0x71 =>
    let list := field d 17 6
    (List.range (field d 24 4 % 65536 + 1)).map (fun i =>
      let e := s.rawBytes (list + 16 * i) 16
      (field e 0 6, field e 8 8))
  | _ => []

/-! ### What holds a dispatch -/

/-- A named descriptor has completed and, in Timetable mode, has been reported (R565, R637, R638). -/
def State.seqDone (s : State) (ring seq : Nat) : Bool :=
  (match s.findSeq ring seq with
    | some (_, sl) => sl.phase == .done
    | none => true) && !s.tf.unreported.any (fun u => u.2.1 == ring && u.2.2.1 == seq)

/-- The wait mask is satisfied (R565). -/
def State.waitDone (s : State) (sl : Slot) : Bool :=
  (List.range 16).all (fun i =>
    !bit (waitOf sl.desc) i || sl.seq < i + 1 || s.seqDone sl.ring (sl.seq - (i + 1)))

/-- The whole package holds dispatch: FATAL, HOLD, STORM_HALT, a reset, a power-down or a trip (R260, R664, R710,
R791, R797, R801). -/
def State.dispatchStopped (s : State) : Bool :=
  !s.rst.bar0 || s.rst.state != 0 || s.cores.fatal || s.rst.stoppedAll || s.res.hold || s.res.rebuilding
    || s.aec.stormHalt

/-- STEP order (R628): a STEP waits for everything accepted before it, and from its dispatch to its completion everything accepted after
it waits for it. -/
def State.stepOrder (s : State) (k : Nat) (sl : Slot) : Bool :=
  let step := opcodeOf sl.desc = 0x52
  s.host.slots.all (fun kv => match kv.2 with
    | some o => kv.1 == k || o.phase == .done || !(o.born < sl.born) || !(step || (opcodeOf o.desc == 0x52 && o.phase == .running))
    | none => true)
    && (!step || s.tf.unreported = [])

/-- An image pass, or a copy of a block, holds the descriptor (R392, R656, R660, R678). -/
def State.imageHolds (s : State) (sl : Slot) : Bool :=
  let ws := s.writeExtents sl.desc sl.ext
  let pass := s.res.imaging || (s.res.due && !s.host.slots.any (fun kv => match kv.2 with
    | some x => x.phase == .running && opcodeOf x.desc == 0x71
    | none => false))
  (pass && (ws.any (fun w => s.touchesState w.1 w.2) ||
      (opcodeOf sl.desc == 0x71 && (s.readExtents sl.desc).any (fun r =>
        s.stateRanges.any (fun g => match g.2.2 with | some i => overlap r.1 r.2 i g.2.1 | none => false)))))
    || s.res.blocks.any (fun b =>
        (ws ++ s.readExtents sl.desc).any (fun w => overlap w.1 w.2 b.1 65536))

/-- Effective TIMEOUT in beats of a 24-bit field: 0 takes STALL_LIMIT, and a STALL_LIMIT of 0 its reset value (R53). -/
def State.timeoutBeats (s : State) (field24 : Nat) : Nat :=
  let limit := s.regs.eff regStallLimit 0 % 2 ^ 24
  1024 * (if field24 ≠ 0 then field24 else if limit ≠ 0 then limit else 0x20000)

/-! ### Dispatch -/

/-- Class bit of an opcode (Table 16.3). -/
def opClass : Nat → Option Nat
  | 0x01 | 0x02 | 0x03 => some 0
  | 0x04 | 0x05 | 0x06 => some 1
  | 0x10 | 0x11 => some 2
  | 0x20 | 0x21 => some 3
  | 0x30 | 0x31 => some 4
  | 0x40 | 0x41 => some 5
  | 0x50 => some 6
  | 0x51 | 0x52 => some 7
  | 0x60 | 0x61 => some 8
  | 0x70 => some 9
  | 0x71 => some 10
  | 0x7F => some 11
  | _ => none

/-- Read the extension block into the slot (R588, R589): `none` where the descriptor ends here. -/
def State.readExt (s : State) (k : Nat) (sl : Slot) : State :=
  if !needsExt sl.desc then s
  else
    let raw := addr48 sl.desc 56
    let a := raw - raw % 64
    let s := s.clamp sl.source (b2n (raw % 64 ≠ 0))
    let cls := (opClass (opcodeOf sl.desc)).getD 0
    if !inTier a 64 then (s.clamp sl.source 1).finish k cls .aborted 0
    else
      let (bs, ps, s) := s.memRead a 64
      if anyP ps then s.finish k cls .poison 0
      else s.putSlot k (some { sl with ext := bs })

/-- Parts that a descriptor's work is divided into for the leaves that are no cells (R39, R401). -/
def descParts (d : List Byte) : Nat :=
  let m1 (off : Nat) : Nat := field d off 4 % 2 ^ 20 + 1
  match opcodeOf d with
  | 0x04 => (readStats d).1.records
  | 0x05 => (m1 48 + 127) / 128
  | 0x06 | 0x20 => m1 32
  | 0x10 => m1 40
  | 0x11 => m1 36
  | 0x40 => m1 20
  | 0x41 => if [5, 6, 7, 8].contains (field d 26 1 % 16) then m1 28 else m1 28 * m1 32
  | _ => 1

/-- The node whose leaves a descriptor's work is divided over: its target, but for UPDATE and NEARVEC the node of `ueNode`. -/
def dividerOf (d : List Byte) : Nat :=
  match workKind (opcodeOf d) with
  | .updateEngine => ueNode d
  | .group | .vectorEngine | .mover | .cell => targetOf d

/-- Leaves that a descriptor's pieces are dealt to, given the units that are barred: the cells of its tiles, or the engines or movers
of its rows or elements (R39, R401). -/
def State.pieceLeaves (s : State) (barred : List Nat) (d : List Byte) : List Nat :=
  let id := targetOf d
  match s.placeOf id with
  | none => []
  | some p =>
    let kind := workKind (opcodeOf d)
    let tiles (ts : List (Nat × Nat)) : List Nat :=
      (ts.filterMap (fun t => s.pieceCell barred id (tileId p id t.1 t.2))).eraseDups
    match opcodeOf d with
    | 0x01 => tiles (s.readMatmul p id d barred).1.tiles
    | 0x02 => let a := (s.readLoadw p d).1; tiles (workTiles a.q a.packed a.k a.n)
    | 0x03 => let a := (readDrain p d [] none barred).1; tiles (workTiles a.q false 0 a.n)
    | _ =>
      if kind == .group then []
      else (piecesOf (s.workers barred kind (dividerOf d)) (descParts d)).map (·.1)

/-- A descriptor for update engines finds none that can run a piece (R43, R44, R435): its stack node, or every engine of it, can take no
work, although the node it is aimed at can. -/
def State.enginesFenced (s : State) (barred : List Nat) (d : List Byte) : Bool :=
  let n := ueNode d
  workKind (opcodeOf d) == .updateEngine && inStack (ueAddr d) 1 && inSubtree (targetOf d) n &&
    !(s.reaches barred (targetOf d) treeFuel n && s.canTake barred treeFuel 5 n)

/-- Hand a descriptor to its node (R34, R42 to R44, R585): its node is Busy, and its command runs next. The division of its work is
settled now (R39). A retired cell that holds an identifier of the spare range (R33) is refused as a spare is. DESIGN CHOICE (log 57). -/
def State.dispatchNow (s : State) (k : Nat) (sl : Slot) : State :=
  let id := targetOf sl.desc
  if !s.tree.ready then s.reject k .aborted
  else
    match opClass (opcodeOf sl.desc) with
    | none => (s.clamp sl.source 1).reject k .aborted
    | some c =>
      match s.placeOf id with
      | none => s.reject k .aborted
      | some p =>
        if 0xF000 ≤ id || !bit p.classes c then s.reject k .aborted
        else
          let u := s.unitOf id
          let barred := s.barredNow.filter (· != u)
          if !(s.unit u).usable || !s.canTake barred treeFuel c id then s.complete k .fenced (s.firstChild c id) 0
          else if s.enginesFenced barred sl.desc then s.complete k .fenced (s.childOf id (ueNode sl.desc)) 0
          else
            let was := s
            let sl := { sl with phase := .running, since := s.time.timer, dispatched := s.host.dispatches,
                                barred := barred, leaves := s.pieceLeaves barred sl.desc }
            let s := s.putSlot k (some sl)
            let s := { s with host := { s.host with dispatches := s.host.dispatches + 1 } }
            let busy :=
              match (s.unit u).state with
              | .idle => s.modUnit u (fun x => { x with state := .busy })
              | .busy | .frozen | .halted | .fenced | .retired | .failed | .spare => s
            let s := (was.tellStates busy id).sig u 0x0C (tagOf sl.desc + opcodeOf sl.desc * 65536)
            s.readExt k sl

/-- Pieces dealt to a leaf that have not completed. -/
def State.piecesAt (s : State) (leaf : Nat) : Nat :=
  (s.host.slots.filter (fun kv => match kv.2 with
    | some sl => sl.phase == .running && sl.leaves.contains leaf
    | none => false)).length

/-- Entries of the piece queue of a leaf of an opcode's work: 16 of a vector engine, 8 of an update engine (Tables 8.1 and 12.1). -/
def queueSize (op : Nat) : Option Nat :=
  match workKind op with
  | .vectorEngine => some 16
  | .updateEngine => some 8
  | .group | .mover | .cell => none

/-- The piece queue of a leaf that a descriptor's work would be dealt to is full (Tables 8.1 and 12.1): it waits in its slot. DESIGN
CHOICE (log 57). -/
def State.queueFull (s : State) (d : List Byte) : Bool :=
  match queueSize (opcodeOf d) with
  | none => false
  | some n => decide (n ≤ s.host.slots.length) && (s.pieceLeaves (s.barredNow.filter (· != s.unitOf (targetOf d))) d).any (fun l =>
      decide (n ≤ s.piecesAt l))

/-- Nothing holds the descriptor in a slot (R274, R565, R628, R656, R692). -/
def State.mayDispatch (s : State) (k : Nat) (sl : Slot) : Bool :=
  sl.phase == .waiting && !s.dispatchStopped && !s.memHeld && s.waitDone sl && s.stepOrder k sl && !s.heldNode (targetOf sl.desc)
    && !s.imageHolds sl && !s.queueFull sl.desc

/-- Planned completion of a descriptor that a wait mask names: 0 where it completed before this step. -/
def State.plannedEnd (s : State) (ring seq : Nat) : Nat :=
  ((s.tf.planned.find? (fun p => p.1 == ring && p.2.1 == seq)).map (·.2.2)).getD 0

/-- Planned start of a held descriptor (R637): the latest of the start of the step, the planned completion of every descriptor that
its wait mask names, and that of the work its node ran before it. DESIGN CHOICE (log 47). -/
def State.plannedStart (s : State) (sl : Slot) : Nat :=
  (List.range 16).foldl (fun t i =>
      if bit (waitOf sl.desc) i && i + 1 ≤ sl.seq then max t (s.plannedEnd sl.ring (sl.seq - (i + 1))) else t)
    (max s.tf.stepStart (mget 0 s.tf.nodePlan (targetOf sl.desc)))

/-- Handshake count of a held descriptor without freezes (R637): that of the owning chapter's timing rule, and an open value for those
that have none, MOVE, SNAPSHOT, NOP and FENCE. DESIGN CHOICE (log 47). -/
def State.handshakes (s : State) (sl : Slot) : Nat × State :=
  match s.handshakeCount sl with
  | some n => (n, s)
  | none => s.free

/-- Release a held descriptor with its plan: the duration is its handshakes divided by PLAN, rounded up to a whole
beat, and 128 beats (R637). -/
def State.releaseHeld (s : State) (k : Nat) (sl : Slot) : State :=
  let (h, s) := s.handshakes sl
  let plan := max 1 (bits (s.regs.eff regTfCtl 0) 31 16)
  let start := s.plannedStart sl
  let due := start + (h * 1000 + plan - 1) / plan + 128
  let s := { s with tf := { s.tf with nodePlan := mput 0 s.tf.nodePlan (targetOf sl.desc) due } }
  s.dispatchNow k { sl with plan := some (start, due) }

/-- Release the descriptor in a slot if nothing holds it: at once when free-running, and a held one of Timetable
mode no sooner than its planned start. -/
def State.tryDispatch (s : State) (k : Nat) : State :=
  match s.slot k with
  | none => s
  | some sl =>
    let s := if s.res.imaging || s.res.due then s.readLists else s
    if !s.mayDispatch k sl then s
    else if s.tf.timetable && s.heldClass sl.desc then
      if s.plannedStart sl ≤ s.time.now then s.releaseHeld k sl else s
    else s.dispatchNow k sl

/-- DESCRIPTOR_DISPATCH. -/
def execDescriptorDispatch (slot : Nat) (s : State) : Host.Outcome State Fault Refusal := .next (s.tryDispatch slot)

/-- HELD_RELEASE: in Timetable mode a held descriptor reaches its planned start (R637). -/
def execHeldRelease (slot : Nat) (s : State) : Host.Outcome State Fault Refusal :=
  .next (if s.tf.timetable then s.tryDispatch slot else s)

/-- Completions are reported to their successors. -/
def State.report (s : State) (p : Nat × Nat × Nat × Nat × Bool → Bool) : State :=
  { s with tf := { s.tf with unreported := s.tf.unreported.filter (fun u => !p u) } }

/-- PLANNED_COMPLETION: Station Time has reached the planned completion of a held descriptor that finished
early (R637). -/
def execPlannedCompletion (slot : Nat) (s : State) : Host.Outcome State Fault Refusal :=
  .next (s.report (fun u => u.1 == slot && u.2.2.2.2 && u.2.2.2.1 ≤ s.time.now))

/-- GRID_COMPLETION: a grid line has been reached at or after the completion (R638). -/
def execGridCompletion (slot : Nat) (s : State) : Host.Outcome State Fault Refusal :=
  .next (s.report (fun u => u.1 == slot && !u.2.2.2.2 && u.2.2.2.1 ≤ s.time.now))

/-- NOP completes OK when it is dispatched (R615). -/
def execNop (slot : Nat) (s : State) : Host.Outcome State Fault Refusal :=
  .next (s.withDesc slot [0x7F] (fun _ s => s.finish slot 11 .ok 0))

/-- FENCE (R425, R616): SCOPE 2 and 3 are read as 1 with a clamp. With stack scope, the engine writes of the stacks it names
can be read through the pins from then on. DEDUCED (log 56). -/
def execFence (slot : Nat) (s : State) : Host.Outcome State Fault Refusal :=
  .next (s.withDesc slot [0x50] (fun sl s =>
    let scope := field sl.desc 8 1 % 4
    let named := field sl.desc 9 1
    let s := s.clamp sl.source (b2n (2 ≤ scope))
    (if scope = 0 then s else s.drained (fun a => bit named (stackOf a))).finish slot 6 .ok 0))

end Sys2Proof.Machine
end

