-- ==== Sys2Proof/Machine/Census.lean ====
section
/-! DEFINITION. The census of power domains (chapter 21: R773 to R777) and its registers. -/

namespace Sys2Proof.Machine

/-- Counters of Table 21.16 by position. -/
def ctrMgmt (n : Nat) : Nat := ctrId 21 16 n

/-- CENSUS_CTL (Table 21.14). -/
def regCensusCtl : Nat := 0x7004

/-- The census domains, in ascending identifier: dies, stack nodes and cell groups (R773). -/
def domainIds : List Nat :=
  ([dieNode 0, dieNode 1] ++ (List.range numGroups).map groupNode ++ (List.range 8).map stackNode).mergeSort (· ≤ ·)

/-- An identifier names a domain. -/
def isDomain (id : Nat) : Bool :=
  match placeOf id with
  | some (.die _) | some (.stack _) | some (.cellGroup _) => true
  | some .root | some (.quadrant _ _) | some (.cluster _ _ _) | some (.vectorEngine _ _ _) | some (.mover _ _ _ _)
  | some (.cell _ _) | some (.updateEngine _ _) | none => false

/-- Management of a domain. -/
def State.domain (s : State) (id : Nat) : Domain := mget Domain.reset s.mgmt.domains id

/-- Change the management of a domain. -/
def State.modDomain (s : State) (id : Nat) (f : Domain → Domain) : State :=
  { s with mgmt := { s.mgmt with domains := mmod Domain.reset s.mgmt.domains id f } }

/-- Fence origin of a domain: 2 for a stack in TEST state (R383), else that of the census. -/
def State.originOf (s : State) (id : Nat) : Nat :=
  match Sys2Proof.Machine.placeOf id with
  | some (.stack k) => if (s.stack k).inTest then 2 else (s.domain id).origin
  | _ => (s.domain id).origin

/-- Units of a domain's subtree that a fence of it reaches, the domain itself apart; spares of its cell groups with them. -/
def State.below (s : State) (id : Nat) : List Nat :=
  (subtree id).filter (· != id) |>.map s.unitOf

/-- Fence a domain and its subtree with origin CENSUS (R43, R773): every node that enters Fenced is a structural change (R36).
DEDUCED (log 29). -/
def State.fenceDomain (s : State) (id : Nat) : State :=
  let s := (s.below id).foldl (fun s u => if (s.unit u).usable then s.setState u .fenced else s) s
  (s.setState id .fenced).modDomain id (fun d => { d with origin := 1 })

/-- A domain that is fenced in its own right holds an identifier: a fence of a domain applies to its whole subtree (R773). -/
def State.fencedStill (s : State) (id : Nat) : Bool := domainIds.any (fun d => inSubtree d id && s.originOf d ≠ 0)

/-- Lift a fence of the census (R775): every node that leaves Fenced is a structural change (R36). Nodes that another domain's fence
holds stay fenced. DEDUCED (log 29). -/
def State.liftFence (s : State) (id : Nat) : State :=
  let s := (subtree id).foldl (fun s i =>
    if (s.unit (s.unitOf i)).state == .fenced && !s.fencedStill i then
      s.setState (s.unitOf i) (if s.haltedNode i then .halted else .idle) else s) (s.modDomain id (fun d => { d with origin := 0 }))
  s.event 0x0C02 id false

/-- A mismatch: one record, one event, one count (R776). -/
def State.mismatch (s : State) (id : Nat) : State :=
  let dp := (s.shownState id).code
  let mv := (s.domain id).mv
  let o := s.originOf id
  let s := s.bbRecord 0x0007 (natLe 2 id ++ natLe 1 dp ++ natLe 1 mv ++ natLe 1 o)
  let s := s.event 0x0C01 (id + dp * 2 ^ 16 + mv * 2 ^ 20 + o * 2 ^ 22) false
  (s.count 0 (ctrMgmt 1) 1)

/-- Refuse an unfence request of a Failed domain (R777). -/
def State.refuseUnfence (s : State) (id : Nat) : State := (s.count 0 (ctrMgmt 2) 1).event 0x0C03 id false

/-- Settle one domain (Table 21.12): whether it was a mismatch. DEDUCED (log 29). -/
def State.censusOne (s : State) (id : Nat) : Bool × State :=
  let d := s.domain id
  let done (s : State) : State := s.modDomain id (fun d => { d with unfence := false })
  match (s.unit id).state with
  | .fenced =>
    if s.originOf id = 2 then
      if d.mv = 3 then (true, done (s.mismatch id)) else (false, done s)
    else if s.originOf id = 1 && d.mv = 0 && d.unfence then (false, done (s.liftFence id))
    else (false, done s)
  | .failed =>
    let s := if d.unfence then s.refuseUnfence id else s
    if d.mv = 0 && !d.recorded then
      (true, done ((s.mismatch id).modDomain id (fun d => { d with recorded := true })))
    else (false, done s)
  | .retired | .spare => (false, done s)
  | .idle | .busy | .frozen | .halted =>
    if d.mv = 0 then (false, done s) else (true, done ((s.mismatch id).fenceDomain id))

/-- A census of every domain (R774 to R776). -/
def State.census (s : State) : State :=
  let (n, s) := domainIds.foldl (fun (acc : Nat × State) id =>
    let (m, s) := acc.2.censusOne id
    (acc.1 + b2n m, s)) (0, s.count 0 (ctrMgmt 0) 1)
  { s with mgmt := { s.mgmt with mismatches := sat 8 n } }

/-- CENSUS_CTL.NOW: ignored with a clamp while a STEP runs (R774, Table 21.15). -/
def State.censusNow (s : State) : State :=
  if s.tf.run.isSome then s.clamp (.register regCensusCtl) 1 else s.census

/-- CENSUS_NOW. -/
def execCensusNow (s : State) : Host.Outcome State Fault Refusal :=
  .next (s.onWrite (fun s => s.censusNow))

/-- An unfence request for the next census (R774, R777). DEDUCED (log 29). -/
def State.requestUnfence (s : State) (id : Nat) : State :=
  if (s.unit id).state == .failed then s.refuseUnfence id
  else s.modDomain id (fun d => { d with unfence := true })

/-- CENSUS_CTL.UNFENCE. -/
def State.censusUnfence (s : State) (node : Nat) : State :=
  if isDomain (node % 65536) then s.requestUnfence (node % 65536) else s.clamp (.register regCensusCtl) 1

/-- CENSUS_UNFENCE. -/
def execCensusUnfence (node : Nat) (s : State) : Host.Outcome State Fault Refusal :=
  .next (s.onWrite (fun s => s.censusUnfence node))

/-- MNODE_STATUS of a node (Table 21.15). -/
def State.mnodeStatus (s : State) (id : Nat) : Nat :=
  if isDomain id then
    let d := s.domain id
    (s.shownState id).code * 2 ^ 28 + d.mv * 2 ^ 26 + s.originOf id * 2 ^ 24 + b2n d.unfence * 2 ^ 23 + 2 ^ 22
  else 0

/-- MNODE_SEL latches both views of a domain. -/
def State.mnodeSel (s : State) (value : Nat) : State :=
  let s := { s with regs := s.regs.write regMnodeSel 0 (BitVec.ofNat 32 value) }
  { s with mgmt := { s.mgmt with mnode := s.mnodeStatus (value % 65536) } }

/-- MNODE_SEL. -/
def execMnodeSel (value : Nat) (s : State) : Host.Outcome State Fault Refusal :=
  .next (s.onWrite (fun s => s.mnodeSel value))

/-- Domains fenced with origin CENSUS (CENSUS_STATUS.FENCED). -/
def State.censusFenced (s : State) : Nat :=
  sat 8 (s.mgmt.domains.filter (fun d => d.2.origin == 1)).length

end Sys2Proof.Machine
end

