-- ==== Sys2Proof/Machine/Movers.lean ====
section
/-! DEFINITION. Movers and streams: MOVE, STREAM, SNAPSHOT, the requests they send, and what their responses do
(chapters 13, 16 and 18). -/

namespace Sys2Proof.Machine

/-! ### Requests (R484, R610) -/

/-- An outstanding request. -/
def State.req (s : State) (tag : Nat) : Option Request := mget none s.fab.reqs tag

/-- A request for a descriptor may be issued: a TAG is free for it, and 512 are left for the copies of firmware, which have at most 256
READs outstanding and a seal to read (R577, R657). DESIGN CHOICE (log 21). -/
def State.tagFree (s : State) : Bool := s.fab.reqs.length < 32256

/-- A TAG that no outstanding request uses, below 0x8000. Collective messages carry TAGs from 0x8000 and stream messages
TAGs from 0xC000. DEDUCED (log 21). -/
def State.newTag (s : State) : Nat :=
  ((List.range 32768).map (fun i => (s.fab.nextTag + i) % 32768)).find? (fun t => (s.req t).isNone) |>.getD 0

/-- Set or drop an outstanding request. -/
def State.putReq (s : State) (tag : Nat) (r : Option Request) : State :=
  { s with fab := { s.fab with reqs := mput none s.fab.reqs tag r } }

/-- Issue a READ. False: unreachable. -/
def State.issueRead (s : State) (who : Asker) (r : ReadAhead) : Bool × State :=
  let tag := s.newTag
  let (ok, s) := s.send (s.newMsg 0x02 r.chip r.src tag r.len [] [])
  if ok then (true, ({ s with fab := { s.fab with nextTag := (tag + 1) % 32768 } } : State).putReq tag
    (some ⟨who, true, r.chip, r.dst, r.len, s.time.timer, r.node, r.mover⟩))
  else (false, s)

/-- Poison of each 16-byte granule of a payload, from poison by byte. -/
def granulePoison (ps : List Bool) : List Bool :=
  (List.range ((ps.length + 15) / 16)).map (fun g => ((ps.drop (16 * g)).take 16).any id)

/-- Issue a WRITE. -/
def State.issueWrite (s : State) (who : Asker) (r : ReadAhead) (bs : List Byte) (ps : List Bool) : Bool × State :=
  let tag := s.newTag
  let (ok, s) := s.send (s.newMsg 0x01 r.chip r.dst tag bs.length bs (granulePoison ps))
  if ok then (true, ({ s with fab := { s.fab with nextTag := (tag + 1) % 32768 } } : State).putReq tag
    (some ⟨who, false, r.chip, r.dst, bs.length, s.time.timer, r.node, r.mover⟩))
  else (false, s)

/-- Issue a request that a mover has queued. -/
def State.issue (s : State) (who : Asker) (r : ReadAhead) : Bool × State :=
  match r.data with
  | none => s.issueRead who r
  | some (bs, ps) => s.issueWrite who r bs ps

/-- Requests that a slot still waits for. -/
def State.slotReqs (s : State) (k : Nat) : List Nat :=
  s.fab.reqs.filterMap (fun kv => match kv.2 with
    | some r => if r.asker == .slot k then some kv.1 else none
    | none => none)

/-- Change what stands in a slot. -/
def State.modSlot (s : State) (k : Nat) (f : Slot → Slot) : State :=
  { s with host := { s.host with slots := mmod none s.host.slots k (fun sl => sl.map f) } }

/-- Drop every request of a slot, and the READs it has not issued: responses that arrive later are discarded (R484, R560). -/
def State.dropSlotReqs (s : State) (k : Nat) : State :=
  ((s.slotReqs k).foldl (fun s t => s.putReq t none) s).modSlot k (fun sl => { sl with unread := [] })

/-- Requests of a slot that may be issued now: a TAG is free (R577), and a mover reads at most 64 KiB ahead of the bytes it has consumed
(R560). -/
def State.readable (s : State) (k : Nat) (r : ReadAhead) : Bool :=
  s.tagFree && (r.data.isSome || r.len + ((s.slotReqs k).map (fun t => match s.req t with
    | some q => if q.read && q.mover = r.mover then q.len else 0
    | none => 0)).foldl (· + ·) 0 ≤ 65536)

/-- Cut n bytes at `a` into pieces of at most 4 096: offset and length. -/
def cut4k (n : Nat) : List (Nat × Nat) :=
  (List.range ((n + 4095) / 4096)).map (fun i => (4096 * i, min 4096 (n - 4096 * i)))

/-- A row that lies wholly in one region (R587, R609). -/
def oneRegion (a n : Nat) : Bool := inTier a n || inAcc a n || inStack a n

/-! ### Completion of a mover's work -/

/-- A mover's descriptor ends once nothing is outstanding, with the report of its pieces: POISON with the granules that a MOVE or
SNAPSHOT found, TIMEOUT with a chip number, or OK (R40, R41, Table 16.26). -/
def State.moverDone (s : State) (k cls : Nat) : State :=
  match s.slot k with
  | none => s
  | some sl =>
    if s.slotReqs k ≠ [] || sl.unread ≠ [] then s
    else
      match sl.report with
      | none => s.finishReport k cls sl.pieces (fun _ => 0)
      | some (st, node, v) =>
        (s.childrenEnd (targetOf sl.desc) sl.pieces).complete k st node
          (if st = .poison then (if opcodeOf sl.desc = 0x21 then 0 else sl.poisoned) else v)

/-- A piece of a slot has ended with a status at a leaf below a child of its target. -/
def State.notePiece (s : State) (k : Nat) (st : Status) (leaf node value : Nat) : State :=
  s.modSlot k (fun sl => sl.note st leaf node value)

/-- Issue the requests that a slot's movers may issue now (R560, R577); one whose chip cannot be reached ends its piece with TIMEOUT
(R473), and with it the whole work of a single node. `fuel` bounds them. -/
def State.readAhead : Nat → Nat → State → State
  | 0, _, s => s
  | fuel + 1, k, s =>
    match s.slot k with
    | none => s
    | some sl =>
      match sl.unread.find? (s.readable k) with
      | none => s
      | some r =>
        let (ok, s) := (s.modSlot k (fun sl => { sl with unread := sl.unread.erase r })).issue (.slot k) r
        State.readAhead fuel k (if ok then s else
          (if r.mover = targetOf sl.desc then s.dropSlotReqs k else s).notePiece k .timeout r.mover r.node s.chipId)

/-- A slot's movers go on with what they have queued, and its descriptor ends where nothing is left. -/
def State.moverOn (s : State) (k cls : Nat) : State :=
  match s.slot k with
  | some sl => (State.readAhead sl.unread.length k s).moverDone k cls
  | none => s

/-- Class of a mover's descriptor (Table 16.3). -/
def moverClass (d : List Byte) : Nat := if opcodeOf d = 0x71 then 10 else 3

/-- Slots whose movers still have requests queued, in order of dispatch. -/
def State.queuing (s : State) : List Nat :=
  ((s.host.slots.filterMap (fun kv => match kv.2 with
    | some sl => if sl.unread = [] then none else some (sl.dispatched, kv.1)
    | none => none)).mergeSort (fun a b => a.1 ≤ b.1)).map (·.2)

/-- A TAG has become free: the movers go on with what they have queued. -/
def State.moversOn (s : State) : State :=
  s.queuing.foldl (fun s k => match s.slot k with
    | some sl => s.moverOn k (moverClass sl.desc)
    | none => s) s

/-- A mover's descriptor ends with TIMEOUT and a chip number. -/
def State.moverTimeout (s : State) (k cls chip : Nat) : State := (s.dropSlotReqs k).finish k cls .timeout chip

/-- A request of a mover's descriptor has failed at a child of its target. A descriptor aimed at one mover, and a SNAPSHOT, ends at
once (R473); one aimed at a group waits for its other pieces (R38, R41). DESIGN CHOICE (log 21). -/
def State.pieceFails (s : State) (k cls : Nat) (st : Status) (leaf node value : Nat) : State :=
  let s := s.notePiece k st leaf node value
  match s.slot k with
  | none => s
  | some sl =>
    match s.placeOf (targetOf sl.desc) with
    | some (.mover _ _ _ _) => (s.dropSlotReqs k).moverDone k cls
    | _ => if opcodeOf sl.desc = 0x71 then (s.dropSlotReqs k).moverDone k cls else s.moverOn k cls

/-- A piece of a slot found poisoned granules: they are counted, and the leaf reports POISON. -/
def State.addPoison (s : State) (k leaf node n : Nat) : State :=
  if n = 0 then s else s.modSlot k (fun sl => { sl with poisoned := sl.poisoned + n }.note .poison leaf node 0)

/-- Mark a slot's descriptor begun. -/
def State.begin' (s : State) (k : Nat) : State := s.modSlot k (fun sl => { sl with begun := true, since := s.time.timer })

/-- Runs of equal flags: offset, length, flag. -/
def flagRuns : List Bool → List (Nat × Nat × Bool)
  | [] => []
  | p :: ps =>
    match flagRuns ps with
    | (_, n, q) :: rest =>
      if p = q then (0, n + 1, q) :: rest.map (fun r => (r.1 + 1, r.2))
      else (0, 1, p) :: (1, n, q) :: rest.map (fun r => (r.1 + 1, r.2))
    | [] => [(0, 1, p)]

/-- Write bytes to the host: poisoned granules as Poisoned TLPs (R337). -/
def State.toHost (s : State) (a : Nat) (bs : List Byte) (ps : List Bool) : State :=
  (flagRuns ps).foldl (fun s r => s.emit (.hostWrite (a + r.1) (slice bs r.1 r.2.1) r.2.2)) s

/-- The granule, record or sector that holds an address (R321, R162, R363). -/
def granuleBase (a : Nat) : Nat := if accBase ≤ a && a < accEnd then a - a % 16 else unitBase a

/-- Granules and sectors from an address that some poison by byte touches (R337). -/
def poisonCount (a : Nat) (ps : List Bool) : Nat :=
  ((ps.zip (List.range ps.length)).filterMap (fun x => if x.1 then some (granuleBase (a + x.2)) else none)).eraseDups.length

/-! ### MOVE (R609, R610) -/

/-- Move an endpoint by a number of bytes. -/
def Endpoint.plus : Endpoint → Nat → Endpoint
  | .local a, n => .local (a + n)
  | .remote c a, n => .remote c (a + n)
  | .host a, n => .host (a + n)

/-- Whether an endpoint is LOCAL. -/
def Endpoint.isLocal : Endpoint → Bool
  | .local _ => true
  | .remote _ _ | .host _ => false

/-- Local rows of an endpoint that lie in a test of addresses. -/
def Endpoint.rowsAny (e : Endpoint) (rows stride n : Nat) (f : Nat → Nat → Bool) : Bool :=
  match e with
  | .local a => (List.range rows).any (fun i => f (a + i * stride) n)
  | .remote _ _ | .host _ => false

/-- A row at an endpoint touches a stack that ends it FENCED. -/
def State.endFenced (s : State) (e : Endpoint) (n : Nat) : Bool := e.rowsAny 1 0 n s.stackFenced

/-- Whether a row at an endpoint waits: on its stack, or on the host interface in D3hot (Table 15.1). -/
def State.endWaits (s : State) (e : Endpoint) (n : Nat) : Bool :=
  match e with
  | .host _ => s.d3hot
  | .local _ | .remote _ _ => e.rowsAny 1 0 n s.stackWaits

/-- Requests that movers of a slot are to issue stand behind those it has still to issue. -/
def State.queueReqs (s : State) (k : Nat) (rs : List ReadAhead) : State :=
  s.modSlot k (fun sl => { sl with unread := sl.unread ++ rs })

/-- Move one row from a local source to any destination, by a leaf below a child of the target. -/
def State.moveOut (s : State) (k leaf node src : Nat) (dst : Endpoint) (n : Nat) : State :=
  let (bs, ps, s) := s.readLocal src n
  let s := s.addPoison k leaf node (poisonCount src ps)
  match dst with
  | .local a =>
    let (bad, clamps, s) := s.writeLocal a bs ps
    let s := s.addPoison k leaf node (b2n (bad && !ps.any id))
    let src' := match s.slot k with | some sl => sl.source | none => .table
    s.clamp src' clamps
  | .host a => s.toHost a bs ps
  | .remote chip a => s.queueReqs k ((cut4k n).map (fun c =>
      ⟨leaf, node, chip, src + c.1, a + c.1, c.2, some (slice bs c.1 c.2, (ps.drop c.1).take c.2)⟩))

/-- Fetch one row from another chip, by a mover: its READs stand behind those that the slot has still to issue. -/
def State.moveIn (s : State) (k mover node chip src dst n : Nat) : State :=
  s.queueReqs k ((cut4k n).map (fun c => ⟨mover, node, chip, src + c.1, dst + c.1, c.2, none⟩))

/-- Write one row of host data with its poison, by a leaf below a child of the target (R547). -/
def State.moveHost (s : State) (k leaf node : Nat) (bs : List Byte) (ps : List Bool) (dst : Nat) : State :=
  let (part, clamps, s) := s.writeLocal dst bs ps
  let src := match s.slot k with | some sl => sl.source | none => .table
  (s.clamp src clamps).addPoison k leaf node (poisonCount dst ps + b2n (part && !ps.any id))

/-- Run one row of a mover's descriptor: a row that touches a FAILED or TEST stack ends FENCED, and the other rows run (R41). -/
def State.moveRow (s : State) (k leaf node : Nat) (src dst : Endpoint) (n : Nat) (run : State → State) : State :=
  if s.endFenced src n || s.endFenced dst n then s.notePiece k .fenced leaf node 0 else run s

/-- Flags of n bytes from an offset on, false past the end of the list. -/
def flagsAt (ps : List Bool) (off n : Nat) : List Bool := ((ps.drop off).take n ++ List.replicate n false).take n

/-- Reads of host memory have ended under R547 (R581), and AER logs a completion timeout or a poisoned completion. -/
def State.countHostReads (s : State) (e : HostEnd) : State :=
  let s := s.count 0 (ctrId 15 10 7) e.errors
  if e.kind = 2 then s.aer 14 else if e.kind = 0 && e.poison.any id then s.aer 12 else s

/-- MOVE at its mover. `host` is the data of a HOST source, row after row, and `ends` says how its reads ended (R547). Row i is a piece of
its own (R39, R41), of the mover that `leafAt` gives. DEDUCED (log 21). -/
def State.runMove (s : State) (k : Nat) (host : List Byte) (ends : HostEnd) (sl : Slot) : State :=
  let d := sl.desc
  let id := targetOf d
  let n := field d 28 4
  let rows := field d 32 4 % 2 ^ 20 + 1
  let ss := field d 36 4
  let ds := field d 40 4
  let abort : State := (s.clamp sl.source 1).finish k 3 .aborted 0
  let pieces := piecesOf (s.workers sl.barred .mover id) rows
  let child (i : Nat) : Nat := s.childOf id (leafAt pieces i)
  if sl.begun then s
  else
    match s.endpoint (field d 8 8) (field d 24 1), s.endpoint (field d 16 8) (field d 24 1 / 4) with
    | some a, some b =>
      let src (i : Nat) : Endpoint := a.plus (i * ss)
      let dst (i : Nat) : Endpoint := b.plus (i * ds)
      let all (s : State) (f : Nat → State → State) : State :=
        (((List.range rows).foldl (fun s i => s.moveRow k (leafAt pieces i) (child i) (src i) (dst i) n (f i)) (s.thaw k)).begin' k).moverOn
          k 3
      if !a.isLocal && !b.isLocal then abort
      else if n = 0 then s.finish k 3 .ok 0
      else if a.rowsAny rows ss n (fun x m => !oneRegion x m) || b.rowsAny rows ds n (fun x m => !oneRegion x m) then
        abort
      else if (List.range rows).any (fun i => !s.endFenced (src i) n && !s.endFenced (dst i) n &&
          (s.endWaits (src i) n || s.endWaits (dst i) n)) then
        s.freeze k (((List.range rows).filter (fun i => s.endWaits (src i) n || s.endWaits (dst i) n)).map (leafAt pieces)).eraseDups
      else
        match a with
        | .local x => all s (fun i s => s.moveOut k (leafAt pieces i) (child i) (x + i * ss) (dst i) n)
        | .remote chip x =>
          match b with
          | .local y => all s (fun i s => s.moveIn k (leafAt pieces i) (child i) chip (x + i * ss) (y + i * ds) n)
          | .remote _ _ | .host _ => abort
        | .host _ =>
          match b with
          | .local y =>
            let s := s.countHostReads ends
            if ends.kind = 1 then s.finish k 3 .aborted 0
            else if ends.kind = 2 then s.finish k 3 .timeout 0xFFFF
            else all s (fun i s => s.moveHost k (leafAt pieces i) (child i) (slice host (i * n) n) (flagsAt ends.poison (i * n) n)
              (y + i * ds))
          | .remote _ _ | .host _ => abort
    | _, _ => abort

/-- MOVE. -/
def execMove (slot : Nat) (host : List Byte) (ends : HostEnd) (s : State) : Host.Outcome State Fault Refusal :=
  .next (s.withDesc slot [0x20] (fun sl s => s.runMove slot host ends sl))

/-! ### SNAPSHOT (R617, R677) -/

/-- SNAPSHOT at the package root: the ranges of the list go to DST back to back. -/
def State.runSnapshot (s : State) (k : Nat) (sl : Slot) : State :=
  let d := sl.desc
  let list := addr48 d 17 / 16 * 16
  let n := field d 24 4 % 65536 + 1
  let abort (s : State) : State := (s.clamp sl.source 1).finish k 10 .aborted 0
  if sl.begun then s
  else
    let s := s.clamp sl.source (b2n (addr48 d 17 % 16 ≠ 0))
    match s.endpoint (field d 8 8) (field d 16 1) with
    | none => abort s
    | some dst =>
      if !inTier list (16 * n) then abort s
      else
        let (bs, ps, s) := s.memRead list (16 * n)
        let rs := (List.range n).map (fun i => (field bs (16 * i) 6, field bs (16 * i + 8) 8))
        let total := (rs.map (·.2)).foldl (· + ·) 0
        let id := targetOf d
        let at' (i : Nat) : Endpoint := dst.plus (((rs.take i).map (·.2)).foldl (· + ·) 0)
        let ranges := rs.zip (List.range rs.length)
        if anyP ps then s.finish k 10 .poison 0
        else if rs.any (fun r => !oneRegion r.1 r.2) || dst.rowsAny 1 0 total (fun x m => !oneRegion x m) then abort s
        else if ranges.any (fun r => !s.stackFenced r.1.1 r.1.2 && !s.endFenced (at' r.2) r.1.2 &&
            (s.stackWaits r.1.1 r.1.2 || s.endWaits (at' r.2) r.1.2)) then s.freeze k [id]
        else
          ((ranges.foldl (fun s r => s.moveRow k id id (.local r.1.1) (at' r.2) r.1.2 (fun s =>
            s.moveOut k id id r.1.1 (at' r.2) r.1.2)) (s.thaw k)).begin' k).moverOn k 10

/-- SNAPSHOT. -/
def execSnapshot (slot : Nat) (s : State) : Host.Outcome State Fault Refusal :=
  .next (s.withDesc slot [0x71] (fun sl s => s.runSnapshot slot sl))

/-! ### Contexts (R480, Table 13.13) -/

/-- A context entry of 64 bytes. -/
def State.ctx (s : State) (c : Nat) : List Byte := mget (List.replicate 64 0) s.fab.ctxs c
/-- Replace a context entry. -/
def State.putCtx (s : State) (c : Nat) (e : List Byte) : State :=
  { s with fab := { s.fab with ctxs := mput (List.replicate 64 0) s.fab.ctxs c e } }
/-- STATE: 0 OFF, 1 SEND, 2 RECEIVE, 3 BROKEN. -/
def ctxMode (e : List Byte) : Nat := field e 0 1 % 4
/-- Ring size of a receive context: RING_LOG2 within 12 to 30. -/
def ctxSize (e : List Byte) : Nat := 2 ^ max 12 (min 30 (field e 1 1))
def ctxPeer (e : List Byte) : Nat := field e 2 2 % 32768
def ctxPeerCtx (e : List Byte) : Nat := field e 4 4 % 2 ^ 18
def ctxBase (e : List Byte) : Nat := field e 8 6 / ctxSize e * ctxSize e
def ctxHead (e : List Byte) : Nat := field e 16 8
def ctxLimit (e : List Byte) : Nat := field e 24 8
def ctxTimeout (e : List Byte) : Nat := field e 32 4

/-- TARGET of a stream message: context, and a byte count in 16-byte units modulo 2^30 (Table 13.10). -/
def streamTarget (ctx count : Nat) : Nat := ctx % 2 ^ 18 + count / 16 % 2 ^ 30 * 2 ^ 18

/-- The least byte count at or above `least` that a 30-bit stream offset stands for. -/
def streamCount (least off : Nat) : Nat := least + (off * 16 + 2 ^ 34 - least % 2 ^ 34) % 2 ^ 34

/-- Report credit to the sender of a receive context (R481): when LIMIT has moved by 1/8 of the ring since the last
report, and when the ring is empty. DEDUCED (log 22). -/
def State.giveCredit (s : State) (c : Nat) : State :=
  let e := s.ctx c
  let grant := ctxLimit e + ctxSize e
  let last := mget (ctxSize e) s.fab.credited c
  if ctxMode e = 2 && last < grant && (last + ctxSize e / 8 ≤ grant || ctxHead e = ctxLimit e) then
    let s := { s with fab := { s.fab with credited := mins c grant s.fab.credited } }
    (s.send (s.newMsg 0x06 (ctxPeer e) (streamTarget (ctxPeerCtx e) grant) 0 0 [] [])).2
  else s

/-! ### STREAM (R611, R612) -/

/-- ACTION of a STREAM: 3 is read as WAIT. -/
def streamAction (d : List Byte) : Nat := let a := bits (field d 16 1) 3 2; if a = 3 then 1 else a
/-- Context of a STREAM. -/
def streamCtx (d : List Byte) : Nat := field d 20 4 % 2 ^ 18

/-- An earlier STREAM that names the same context has not completed (R612). -/
def State.streamBehind (s : State) (sl : Slot) : Bool :=
  s.host.slots.any (fun kv => match kv.2 with
    | some o => o.born < sl.born && o.phase != .done && opcodeOf o.desc == 0x21 && streamCtx o.desc == streamCtx sl.desc
    | none => false)

/-- The mover that runs a STREAM. -/
def Slot.streamLeaf (sl : Slot) : Nat := sl.leaves.headD (targetOf sl.desc)

/-- The host data of a SEND, with its poison: empty where it reads none. -/
abbrev HostBytes := List Byte × List Bool

/-- Send what credit allows of a SEND: chunks of at most 4 096 bytes in order (R481, R611). Each chunk is progress (R484), and poisoned
granules of it are sent so (R337, R547). `fuel` bounds them. -/
def State.sendStream : Nat → Nat → HostBytes → State → State
  | 0, _, _, s => s
  | fuel + 1, k, host, s =>
    match s.slot k with
    | none => s
    | some sl =>
      let d := sl.desc
      let c := streamCtx d
      let e := s.ctx c
      let len := field d 24 4 / 16 * 16
      let n := min 4096 (len - sl.prog)
      let fromHost := field d 16 1 % 4 = 2
      if n = 0 then s.moverDone k 3
      else if ctxLimit e < ctxHead e + n then s.thaw k
      else if !fromHost && s.stackFenced (addr48 d 8 + sl.prog) n then s.finish k 3 .fenced 0
      else if !fromHost && s.stackWaits (addr48 d 8 + sl.prog) n then s.freeze k [sl.streamLeaf]
      else
        let s := s.thaw k
        let src := addr48 d 8 + sl.prog
        let (bs, ps, s) := if fromHost then (slice host.1 sl.prog n, flagsAt host.2 sl.prog n, s) else s.readLocal src n
        let s := s.addPoison k sl.streamLeaf (s.childOf (targetOf d) sl.streamLeaf) (poisonCount src ps)
        let m := s.newMsg 0x05 (ctxPeer e) (streamTarget (ctxPeerCtx e) (ctxHead e)) (0xC000 + sl.born % 16384) n bs (granulePoison ps)
        let (ok, s) := s.send m
        if !ok then s.moverTimeout k 3 s.chipId
        else
          let s := s.putCtx c (patch (patch e 16 (natLe 8 (ctxHead e + n))) 40 (natLe 8 s.stamp))
          State.sendStream fuel k host (s.modSlot k (fun sl => { sl with prog := sl.prog + n, since := s.time.timer }))

/-- The fields of a STREAM are read when its turn has come, and the clamps of ACTION and LEN count then (R611, Table 16.18). -/
def State.streamClamps (s : State) (sl : Slot) : State :=
  if sl.begun then s
  else s.clamp sl.source (b2n (bits (field sl.desc 16 1) 3 2 = 3) + b2n (streamAction sl.desc = 0 && field sl.desc 24 4 % 16 ≠ 0))

/-- Begin a STREAM: the checks all actions share; `none` where the descriptor has ended or waits its turn. -/
def State.streamBegin (s : State) (k : Nat) (sl : Slot) (mode : Nat) : Option State :=
  let e := s.ctx (streamCtx sl.desc)
  if s.streamBehind sl then none
  else if ctxMode e = 3 then some ((s.streamClamps sl).moverTimeout k 3 (ctxPeer e))
  else if ctxMode e ≠ mode then some (((s.streamClamps sl).clamp sl.source 1).finish k 3 .aborted 0)
  else none

/-- Whether a STREAM's context serves its action and no earlier STREAM is before it. -/
def State.streamReady (s : State) (sl : Slot) (mode : Nat) : Bool :=
  !s.streamBehind sl && ctxMode (s.ctx (streamCtx sl.desc)) = mode

/-- Send a SEND whose turn has come, from a source that it may have. -/
def State.sendFrom (s : State) (k : Nat) (host : HostBytes) (sl : Slot) : State :=
  State.sendStream (field sl.desc 24 4 / 4096 + 2) k host (if sl.begun then s else s.begin' k)

/-- STREAM SEND. `host` is the whole of a HOST source, and `ends` says how its reads ended (R547). -/
def State.runStreamSend (s : State) (k : Nat) (host : List Byte) (ends : HostEnd) (sl : Slot) : State :=
  let d := sl.desc
  let len := field d 24 4 / 16 * 16
  if streamAction d ≠ 0 then s
  else if s.streamReady sl 1 then
    let s := s.streamClamps sl
    match s.endpoint (field d 8 8) (field d 16 1) with
    | none | some (.remote _ _) => (s.clamp sl.source 1).finish k 3 .aborted 0
    | some (.local a) =>
      if len = 0 then s.finish k 3 .ok 0
      else if !oneRegion a len then (s.clamp sl.source 1).finish k 3 .aborted 0
      else s.sendFrom k ([], []) sl
    | some (.host _) =>
      if len = 0 then s.finish k 3 .ok 0
      else if s.d3hot then s
      else
        let s := if sl.begun then s else s.countHostReads ends
        if ends.kind = 1 then s.finish k 3 .aborted 0
        else if ends.kind = 2 then s.finish k 3 .timeout (ctxPeer (s.ctx (streamCtx d)))
        else s.sendFrom k (host, ends.poison) sl
  else (s.streamBegin k sl 1).getD s

/-- STREAM_SEND. -/
def execStreamSend (slot : Nat) (host : List Byte) (ends : HostEnd) (s : State) : Host.Outcome State Fault Refusal :=
  .next (s.withDesc slot [0x21] (fun sl s => s.runStreamSend slot host ends sl))

/-- Bytes of a receive ring between two counts include a poisoned granule (R484). DEDUCED (log 22). -/
def State.ringPoisoned (s : State) (e : List Byte) (lo hi : Nat) : Bool :=
  (List.range ((min (hi - lo) (ctxSize e) + 15) / 16)).any (fun i =>
    let b := unitBase (ctxBase e + (lo + 16 * i) % ctxSize e)
    (s.parts b).any (fun p => classify p.k p.r p.mark == .poisoned))

/-- A WAIT completes when HEAD is at or above UNTIL (R611). -/
def State.runStreamWait (s : State) (k : Nat) (sl : Slot) : State :=
  let d := sl.desc
  let e := s.ctx (streamCtx d)
  if streamAction d ≠ 1 then s
  else if s.streamReady sl 2 then
    let s := s.streamClamps sl
    let until' := field d 32 8
    if until' ≤ ctxHead e then
      if s.ringPoisoned e (ctxLimit e) until' then s.finish k 3 .poison 0 else s.finish k 3 .ok 0
    else if sl.begun then s else s.begin' k
  else (s.streamBegin k sl 2).getD s

/-- STREAM_WAIT. -/
def execStreamWait (slot : Nat) (s : State) : Host.Outcome State Fault Refusal :=
  .next (s.withDesc slot [0x21] (fun sl s => s.runStreamWait slot sl))

/-- A RELEASE raises LIMIT and completes at once (R611). -/
def State.runStreamRelease (s : State) (k : Nat) (sl : Slot) : State :=
  let d := sl.desc
  let c := streamCtx d
  let e := s.ctx c
  if streamAction d ≠ 2 then s
  else if s.streamReady sl 2 then
    let v := field d 32 8
    let s := s.clamp sl.source (b2n (ctxHead e < v))
    let v := min v (ctxHead e)
    let s := if ctxLimit e < v then (s.putCtx c (patch e 24 (natLe 8 v))).giveCredit c else s
    s.finish k 3 .ok 0
  else (s.streamBegin k sl 2).getD s

/-- STREAM_RELEASE. -/
def execStreamRelease (slot : Nat) (s : State) : Host.Outcome State Fault Refusal :=
  .next (s.withDesc slot [0x21] (fun sl s => s.runStreamRelease slot sl))

/-- STREAM_TIMEOUT: TIMEOUT units without progress (R484): a chunk sent, or data that came for a WAIT. -/
def execStreamTimeout (slot : Nat) (s : State) : Host.Outcome State Fault Refusal :=
  .next (s.withDesc slot [0x21] (fun sl s =>
    let e := s.ctx (streamCtx sl.desc)
    if sl.begun && ctxTimeout e ≠ 0 && sl.since + 1024 * ctxTimeout e ≤ s.time.timer && !s.timersPaused then
      s.moverTimeout slot 3 (ctxPeer e)
    else s))

/-! ### Stream messages (R481 to R483) -/

/-- Running STREAM slots of a context that have begun, oldest first. -/
def State.streamSlots (s : State) (c : Nat) : List (Nat × Slot) :=
  (s.host.slots.filterMap (fun kv => match kv.2 with
    | some sl => if sl.phase == .running && sl.begun && opcodeOf sl.desc == 0x21 && streamCtx sl.desc == c then
        some (kv.1, sl) else none
    | none => none)).mergeSort (fun a b => a.2.born ≤ b.2.born)

/-- A context goes to BROKEN: one event, and every STREAM on it ends with TIMEOUT at once (R483). DEDUCED (log 22). -/
def State.breakCtx (s : State) (c : Nat) : State :=
  let e := s.ctx c
  let s := s.putCtx c (patch e 0 (natLe 1 (field e 0 1 / 4 * 4 + 3)))
  let s := (s.count 0 (fabCtr 14) 1).event 0x0405 c false
  (s.streamSlots c).foldl (fun s kv => s.moverTimeout kv.1 3 (ctxPeer e)) s

/-- The bytes of a receive ring that the next n bytes of its stream fill: an address and a length, and the rest from the base. -/
def ringSpans (e : List Byte) (n : Nat) : List (Nat × Nat) :=
  let at' := ctxHead e % ctxSize e
  let first := min n (ctxSize e - at')
  [(ctxBase e + at', first), (ctxBase e, n - first)].filter (fun r => r.2 ≠ 0)

/-- Write the parts of a stream's bytes into the parts of its ring; a part in a stack that serves nothing is dropped. DEDUCED
(log 22). -/
def State.fillRing (s : State) (spans : List (Nat × Nat)) (bs : List Byte) (ps : List Bool) : State :=
  (spans.foldl (fun (acc : Nat × State) r =>
    (acc.1 + r.2,
      if acc.2.stackFenced r.1 r.2 then acc.2
      else (acc.2.writeLocal r.1 (slice bs acc.1 r.2) ((ps.drop acc.1).take r.2)).2.2)) (0, s)).2

/-- STREAM_DATA arrives (R482, R483). -/
def State.streamData (s : State) (m : Msg) : State :=
  let c := m.target % 2 ^ 18
  let e := s.ctx c
  let n := m.len
  match ctxMode e with
  | 3 => s
  | 2 =>
    if m.target / 2 ^ 18 * 16 ≠ ctxHead e % 2 ^ 34 || ctxLimit e + ctxSize e < ctxHead e + n then s.breakCtx c
    else
      let s := s.fillRing (ringSpans e n) (slice m.payload 0 n) ((flagsPer 16 m.poison ++ List.replicate n false).take n)
      let b0 := if m.poison.any id then field e 0 1 / 8 * 8 + 4 + field e 0 1 % 4 else field e 0 1
      let e' := patch (patch (patch e 0 (natLe 1 b0)) 16 (natLe 8 (ctxHead e + n))) 40 (natLe 8 s.stamp)
      let s := s.putCtx c e'
      (s.streamSlots c).foldl (fun s kv => match s.slot kv.1 with
        | some sl =>
          let t := s.runStreamWait kv.1 sl
          if t.slot kv.1 = some sl then t.begin' kv.1 else t
        | none => s) s
  | _ => s.count 0 (fabCtr 13) 1

/-- STREAM_CREDIT arrives: LIMIT rises, and a SEND that waits goes on (R481). DEDUCED (log 22). -/
def State.streamCredit (s : State) (m : Msg) : State :=
  let c := m.target % 2 ^ 18
  let e := s.ctx c
  if ctxMode e = 1 then
    let s := s.putCtx c (patch e 24 (natLe 8 (streamCount (ctxLimit e) (m.target / 2 ^ 18))))
    match s.streamSlots c with
    | (k, sl) :: _ => if field sl.desc 16 1 % 4 ≠ 2 then State.sendStream (field sl.desc 24 4 / 4096 + 2) k ([], []) s else s
    | [] => s
  else s

/-! ### Context registers (R498) -/

/-- The context that CTX_SEL names. -/
def State.ctxSel (s : State) : Nat := s.regs.eff regCtxSel 0 % 2 ^ 18

/-- CTX_CMD.WRITE: CTX_DATA is stored into the entry, reserved bits as zero; a RING_LOG2 outside 12 to 30 counts a clamp, whatever the
context is (Table 13.13). -/
def State.ctxWrite (s : State) : State :=
  let raw := (List.range 16).flatMap (fun n => natLe 4 (s.regs.eff (regCtxData n) 0))
  let e := natLe 1 (field raw 0 1 % 8) ++ slice raw 1 1 ++ natLe 2 (field raw 2 2 % 32768) ++ natLe 4 (field raw 4 4 % 2 ^ 18)
    ++ slice raw 8 6 ++ natLe 2 0 ++ slice raw 16 20 ++ natLe 4 0 ++ slice raw 40 8 ++ List.replicate 16 0
  let bad := field e 1 1 < 12 || 30 < field e 1 1
  let s := { s with fab := { s.fab with credited := mdel s.ctxSel s.fab.credited } }
  (s.putCtx s.ctxSel e).clamp (.register 0x20034) (b2n bad)

/-- CTX_CMD_WRITE. -/
def execCtxCmdWrite (s : State) : Host.Outcome State Fault Refusal :=
  .next (s.onWrite (fun s => s.ctxWrite))

/-- CTX_CMD.READ: the entry is latched into CTX_DATA (R498). -/
def State.ctxRead (s : State) : State :=
  let e := s.ctx s.ctxSel
  { s with regs := (List.range 16).foldl (fun rf n =>
    rf.device (regCtxData n) 0 (fun _ => field e (4 * n) 4)) s.regs }

/-- CTX_CMD_READ. -/
def execCtxCmdRead (s : State) : Host.Outcome State Fault Refusal :=
  .next (s.onWrite (fun s => s.ctxRead))

end Sys2Proof.Machine
end

