-- ==== Sys2Proof/Machine/Coll.lean ====
section
/-! DEFINITION. Collectives: instances of COLL, COUNTS and BARRIER, their segments, messages, credits, timeouts and
aborts (chapter 14). The exchanges of the step boundary run on the same instances. -/

namespace Sys2Proof.Machine

/-! ### Group tables (R502 to R504) -/

/-- A group table as read: orders of chip numbers, and clamps. `none`: not wholly in tier memory. -/
def State.readGroup (s : State) (a : Nat) : Option (List (List Nat) × Nat) :=
  if !inTier a 16 then none
  else
    let hd := s.rawBytes a 16
    let n := field hd 0 2 % 32768 + 1
    let o := max 1 (min 6 (field hd 2 1))
    if !inTier a (16 + 2 * n * o) then none
    else some ((List.range o).map (fun k => (List.range n).map (fun i =>
      field (s.rawBytes (a + 16 + 2 * n * k + 2 * i) 2) 0 2 % 32768)), b2n (o ≠ field hd 2 1))

/-- This chip appears exactly once in an order. -/
def State.onceIn (s : State) (o : List Nat) : Bool := o.count s.chipId = 1

/-- Position of a chip in an order. -/
def posIn (chip : Nat) (o : List Nat) : Nat := o.findIdx (· == chip)

/-! ### Geometry of the algorithm (R506, R507, R513, R514) -/

/-- Elements of a segment by transport (Table 14.2); transport 4 carries one 8-byte VALUE of a COUNTS. -/
def segElems : Nat → Nat
  | 0 => 7680
  | 1 => 2040
  | 2 => 1020
  | 3 => 255
  | _ => 1

/-- Segments of a buffer cut under R507: order, first element, elements, position of the owner. -/
def fixedSegs (elems e orders n : Nat) : List (Nat × Nat × Nat × Nat) :=
  let nseg := (elems + e - 1) / e
  (List.range orders).flatMap (fun k =>
    let lo := k * nseg / orders
    let ns := (k + 1) * nseg / orders - lo
    (List.range ns).map (fun t =>
      (k, (lo + t) * e, min e (elems - (lo + t) * e), ((t + 1) * n + ns - 1) / ns - 1)))

/-- Segments of chunks given by counts (R528). -/
def varSegs (counts : List Nat) (e : Nat) : List (Nat × Nat × Nat × Nat) :=
  ((counts.zip (List.range counts.length)).foldl (fun (acc : List (Nat × Nat × Nat × Nat) × Nat) cr =>
    (acc.1 ++ (List.range ((cr.1 + e - 1) / e)).map (fun t => (0, acc.2 + t * e, min e (cr.1 - t * e), cr.2)),
      acc.2 + cr.1)) ([], 0)).1

/-- Members of an instance. -/
def CollInst.size (c : CollInst) : Nat := ((c.orders[0]?).getD []).length
/-- Members on the left side: h. -/
def CollInst.left (c : CollInst) : Nat := (c.size - 1) / 2
/-- Members on the right side: N − 1 − h. -/
def CollInst.right (c : CollInst) : Nat := c.size - 1 - c.left
/-- A segment. -/
def CollInst.seg (c : CollInst) (g : Nat) : Nat × Nat × Nat × Nat := (c.segs[g]?).getD (0, 0, 0, 0)
/-- The chip at an offset from this member in an order. -/
def CollInst.chipAt (c : CollInst) (k off : Nat) (me : Nat) : Nat :=
  let o := (c.orders[k]?).getD []
  (o[(posIn me o + off) % max 1 o.length]?).getD me
/-- Successor (dir 0) or predecessor (dir 1) of this member in an order. -/
def CollInst.neighbour (c : CollInst) (me k dir : Nat) : Nat :=
  c.chipAt k (if dir = 0 then 1 else c.size - 1) me
/-- Offset of this member's position after a segment's owner. -/
def CollInst.offset (c : CollInst) (me g : Nat) : Nat :=
  let (k, _, _, own) := c.seg g
  (posIn me ((c.orders[k]?).getD []) + c.size - own % max 1 c.size) % max 1 c.size
/-- The reduce phase and the gather phase run (R513, R514). -/
def CollInst.reduces (c : CollInst) : Bool := c.kind == .coll && c.op ≠ 2
def CollInst.gathers (c : CollInst) : Bool := c.kind == .counts || c.op ≠ 1

/-! ### Values and their transport (R517 to R519) -/

/-- Bytes of an input element. -/
def CollInst.inBytes (c : CollInst) : Nat := if c.xport = 4 then 8 else if c.xport = 3 then 16 else wideBytes c.inFmt
/-- Bytes of an output element. -/
def CollInst.outBytes (c : CollInst) : Nat :=
  if c.xport = 4 then 8 else match c.outFmt with | none => 16 | some f => wideBytes f

/-- Data of a segment, as a member computes with it: FP32 values, records, or raw bytes. -/
inductive SegVal where
  | vals (vs : List Value)
  | recs (ps : List Partial)
  | raw (bs : List Byte)
deriving DecidableEq, Repr

/-- Wire groups of a list of values, padded with zeros (R508). -/
def groups128 (vs : List Value) : List (List Value) :=
  (List.range ((vs.length + 127) / 128)).map (fun g =>
    let x := (vs.drop (128 * g)).take 128
    x ++ List.replicate (128 - x.length) Value.zero)

/-- The FP32 values of a segment, none of another kind. -/
def SegVal.values : SegVal → List Value
  | .vals vs => vs
  | .recs _ | .raw _ => []
/-- The records of a segment, none of another kind. -/
def SegVal.records : SegVal → List Partial
  | .recs ps => ps
  | .vals _ | .raw _ => []

/-- Elements of several segments, place by place. -/
def columns {α : Type} : List (List α) → List (List α)
  | [] => []
  | r :: rs => rs.foldl (fun acc q => List.zipWith (fun xs x => xs ++ [x]) acc q) (r.map (fun x => [x]))

/-- The vector engine that does an instance's arithmetic and counts what it finds. The spec says that vector engines add (R179) and
not which: the first that may run work of the descriptor's node. DESIGN CHOICE (log 57). -/
def State.collEngine (s : State) (c : CollInst) : Nat :=
  s.unitOf ((match s.slot c.slot with
    | some sl => s.workers sl.barred .vectorEngine (targetOf sl.desc)
    | none => s.workers s.barredNow .vectorEngine 0).headD 0)

/-- The source of an instance's clamps: its descriptor, or no descriptor for the step boundary. -/
def State.collSource (s : State) (c : CollInst) : ClampSource :=
  match s.slot c.slot with | some sl => sl.source | none => .table

/-- Records read from bytes, each WIN out of range clamped (R158). -/
def State.segRecords (s : State) (c : CollInst) (bs : List Byte) (n : Nat) : SegVal × State :=
  let rs := (List.range n).map (fun i => readPartial (slice bs (16 * i) 16))
  (.recs (rs.map (·.1)), s.clamp (s.collSource c) (rs.filter (·.2)).length)

/-- Own contribution to a segment (Table 14.4, R212, R213). -/
def State.segOwn (s : State) (c : CollInst) (g : Nat) : SegVal × State :=
  let (_, e0, n, _) := c.seg g
  let b := c.inBytes
  let vs := (List.range n).map (fun i => c.inFmt.value (field c.input (b * (e0 + i)) b))
  match c.xport with
  | 0 =>
    let (ys, s) := s.rotateRow (s.collEngine c) 0 c.key c.stream (e0 / 128) vs
    (.vals ys, s)
  | 3 => s.segRecords c (slice c.input (16 * e0) (16 * n)) n
  | 4 => (.raw (slice c.input (b * e0) (b * n)), s)
  | _ => (.vals vs, s)

/-- Decode a segment's transport bytes; a wire block's findings count at the receiver (R219, R518). -/
def State.segDecode (s : State) (c : CollInst) (g : Nat) (bs : List Byte) : SegVal × State :=
  let (_, _, n, _) := c.seg g
  match c.xport with
  | 0 =>
    let ws := (List.range ((n + 127) / 128)).map (fun i => wireDecode (slice bs (68 * i) 68))
    let s := s.clamp (s.collSource c) (ws.filter (·.clamp)).length
    let s := s.count (s.collEngine c) (ctrId 3 12 2) (ws.filter (·.rowNan)).length
    (.vals (ws.flatMap (·.vals)), s.count (s.collEngine c) (ctrId 3 12 3) (ws.foldl (fun m w => m + w.unmatched) 0))
  | 1 => (.vals ((List.range n).map (fun i => bf16Value (field bs (2 * i) 2))), s)
  | 2 => (.vals ((List.range n).map (fun i => fp32Value (field bs (4 * i) 4))), s)
  | 3 => s.segRecords c bs n
  | _ => (.raw bs, s)

/-- Encode a segment for its transport, drawing from a stream (R218, R519). COLL has no CLIP: its conversions run with CLIP 0.
DESIGN CHOICE (log 57). -/
def State.segEncode (s : State) (c : CollInst) (g stream : Nat) (v : SegVal) : List Byte × State :=
  let (_, e0, _, _) := c.seg g
  let rnd := if c.wrnd = 1 then Rnd.nearest else .stochastic
  let u := s.collEngine c
  let draw (i : Nat) : Nat := squallDraw c.key (stream % 2 ^ 32) (e0 + i)
  match v with
  | .raw bs => (bs, s)
  | .recs ps => (ps.flatMap Partial.bytes, s)
  | .vals vs =>
    let s := if c.wrnd = 1 || 1 < c.xport then s else s.count u ctrSqEvals (squallEvals e0 vs.length)
    match c.xport with
    | 0 =>
      let ws := ((groups128 vs).zip (List.range ((vs.length + 127) / 128))).map (fun gi =>
        wireEncode rnd (fun i => draw (128 * gi.2 + i)) gi.1)
      (ws.flatMap (·.1), s.count u (ctrId 3 12 2) (ws.filter (·.2)).length)
    | 1 =>
      let es := (vs.zip (List.range vs.length)).map (fun vi => encode .bf16 rnd false 0 (draw vi.2) vi.1)
      (es.flatMap (fun e => natLe 2 e.code), s.countFindings u (Findings.ofAll es))
    | _ => (vs.flatMap (fun v => natLe 4 (toFp32 v)), s)

/-- Combine two values of one element (R87, R179). -/
def redOp (red : Nat) (a b : Value) : Value :=
  match red with
  | 1 => a.max2 b
  | 2 => a.min2 b
  | _ => fadd a b

/-- Combine the values of one element in the order given, or in a tree_sum (R289, R522). -/
def redAll (red : Nat) (tree : Bool) (xs : List Value) : Value :=
  if tree && red = 0 then treeSum xs
  else
    match xs with
    | [] => .zero
    | x :: xs => xs.foldl (redOp red) x

/-- Combine segments in the order given (R517, R518, R522): records by one exact add (R160), which counts as an XADD of theirs (R296,
R300), values element by element. A member alone adds nothing, so that it counts no record (R516). DESIGN CHOICE (log 57). -/
def State.segSum (s : State) (c : CollInst) (tree : Bool) (xs : List SegVal) : SegVal × State :=
  let u := s.collEngine c
  match xs.head? with
  | some (.vals _) =>
    let cols := columns (xs.map SegVal.values)
    let ys := cols.map (redAll c.red tree)
    let made := List.zipWith madeFlags cols ys
    let s := s.count u (ctrVe 2) (made.foldl (fun n m => n + m.1) 0)
    (.vals ys, s.count u (ctrVe 3) (made.foldl (fun n m => n + m.2) 0))
  | some (.recs _) =>
    let cols := columns (xs.map SegVal.records)
    let ys := cols.map exactAdd
    let made := List.zipWith (fun c y => madeFlags (c.map Partial.value) y.value) cols ys
    let s := s.count u (ctrVe 5) (if xs.length ≤ 1 then 0 else cols.foldl (fun n c => n + c.length) 0)
    let s := s.count u (ctrVe 2) (made.foldl (fun n m => n + m.1) 0)
    let s := s.count u (ctrVe 3) (made.foldl (fun n m => n + m.2) 0)
    (.recs ys, s.count u (ctrId 5 8 6) (ys.filter (·.inexact)).length)
  | some (.raw bs) => (.raw bs, s)
  | none => (.raw [], s)

/-! ### Poison of a segment (R536) -/

/-- Bytes of an element in transport; XPORT 0 carries wire blocks of 128 elements instead. -/
def CollInst.elemBytes (c : CollInst) : Nat :=
  match c.xport with
  | 1 => 2
  | 2 => 4
  | 3 => 16
  | _ => 8
/-- Groups of 128 buffer elements that a segment touches: the first, and how many. -/
def CollInst.firstGroup (c : CollInst) (g : Nat) : Nat := (c.seg g).2.1 / 128
def CollInst.segGroups (c : CollInst) (g : Nat) : Nat :=
  if (c.seg g).2.2.1 = 0 then 0 else ((c.seg g).2.1 + (c.seg g).2.2.1 - 1) / 128 - c.firstGroup g + 1
/-- Where the part of a segment's group j stands in its transport bytes, and how long it is. -/
def CollInst.groupSpan (c : CollInst) (g j : Nat) : Nat × Nat :=
  if c.xport = 0 then (68 * j, 68)
  else
    let e0 := (c.seg g).2.1
    let lo := max e0 (128 * (c.firstGroup g + j))
    let hi := min (e0 + (c.seg g).2.2.1) (128 * (c.firstGroup g + j + 1))
    (c.elemBytes * (lo - e0), c.elemBytes * (hi - lo))
/-- Groups of a segment whose own input is poisoned. -/
def CollInst.ownPoison (c : CollInst) (g : Nat) : List Bool :=
  (List.range (c.segGroups g)).map (fun j => (c.inPoison[c.firstGroup g + j]?).getD false)
/-- Granule marks that carry a segment's poisoned groups. DEDUCED (log 23). -/
def CollInst.toGranules (c : CollInst) (g : Nat) (ps : List Bool) (len : Nat) : List Bool :=
  (List.range ((len + 15) / 16)).map (fun q => (List.range ps.length).any (fun j =>
    (ps[j]?).getD false && overlap (16 * q) 16 (c.groupSpan g j).1 (c.groupSpan g j).2))
/-- Poisoned groups of a segment that arrived with granule marks. -/
def CollInst.fromGranules (c : CollInst) (g : Nat) (qs : List Bool) : List Bool :=
  (List.range (c.segGroups g)).map (fun j => (List.range qs.length).any (fun q =>
    (qs[q]?).getD false && overlap (16 * q) 16 (c.groupSpan g j).1 (c.groupSpan g j).2))
/-- A group has been written with an earlier segment that it reaches into, so it is not counted again. -/
def CollInst.groupSeen (c : CollInst) (q : Nat) : Bool :=
  c.done.any (fun g => overlap (c.seg g).2.1 (c.seg g).2.2.1 (128 * q) 128)
/-- Either of two. -/
def orList (a b : List Bool) : List Bool := List.zipWith (· || ·) a b

/-! ### Instances in State -/

/-- A warm or function reset discards everything, and knows the COLL_IDs whose late messages are stale (R545). -/
def CollState.discarded (c : CollState) : CollState :=
  { CollState.reset with stale := (c.active.filter (·.ended.isNone)).map (·.id) ++ c.stale }

/-- The active instance with a COLL_ID. -/
def State.inst (s : State) (id : Nat) : Option CollInst := s.coll.active.find? (fun c => c.id == id && c.ended.isNone)
/-- Replace an instance. -/
def State.putInst (s : State) (c : CollInst) : State :=
  { s with coll := { s.coll with active := s.coll.active.map (fun x => if x.id == c.id && x.slot == c.slot then c else x) } }
/-- Counter n of Table 14.9. -/
def collCtr (n : Nat) : Nat := ctrId 14 9 n
/-- TARGET of a collective message (Table 14.5). -/
def collTarget (kind dir order id : Nat) : Nat := kind * 2 ^ 22 + dir * 2 ^ 21 + order * 2 ^ 18 + id % 65536
/-- TAG of a collective message: the instance's place, and what the message is: order × 2 + direction, or 16 + the round
of a barrier. DEDUCED (log 21). -/
def collTag (place code : Nat) : Nat := 0x8000 + place % 32 * 512 + code % 512
/-- Subheader (Table 14.6). -/
def subheader (seg latest rank : Nat) : List Byte := natLe 4 seg ++ natLe 8 latest ++ natLe 2 rank ++ natLe 2 0
/-- The later of two stamps, by bits [61:0]; a tie goes to the lower rank (R529). -/
def later (a b : Nat × Nat) : Nat × Nat :=
  if a.1 % 2 ^ 62 < b.1 % 2 ^ 62 || (a.1 % 2 ^ 62 = b.1 % 2 ^ 62 && b.2 < a.2) then b else a

/-- Write the summary record and count the slowest member (R531, Table 14.7). The Boolean says that the counter stood poisoned (R333,
R335). -/
def State.writeSummary (s : State) (c : CollInst) : Bool × State :=
  match c.arr with
  | none => (false, s)
  | some a =>
    let lag := if c.slowest = 0xFFFF then 0 else c.latest % 2 ^ 62 - c.entry % 2 ^ 62
    let rec' := natLe 8 c.entry ++ natLe 8 c.latest ++ natLe 2 c.slowest ++ natLe 2 0 ++ natLe 4 (sat 32 lag)
      ++ natLe 4 (if c.kind == .barrier then 0 else c.done.length) ++ natLe 4 (sat 32 c.nondet)
    let (b0, s) := s.memWrite a rec' false
    if c.slowest = 0xFFFF then (b0, s)
    else
      let p := a + 32 + 4 * c.slowest
      let (v, ps, s) := s.memRead p 4
      let (b1, s) := s.memWrite p (natLe 4 (sat 32 (leNat v + 1))) false
      (b0 || anyP ps || b1, s)

/-- The segments of OUT that an instance has not written when it times out hold unspecified values (R535). DEDUCED (log 23). -/
def State.openOut (s : State) (c : CollInst) : State :=
  match c.out with
  | none => s
  | some a =>
    ((List.range c.segs.length).filter (fun g => !c.done.contains g && (c.gathers || c.offset s.chipId g = 0))).foldl
      (fun s g =>
        let (bs, s) := s.freeBytes (c.outBytes * (c.seg g).2.2.1)
        s.rawStore (a + c.outBytes * (c.seg g).2.1) bs) s

/-- Every stamp that has come counts, also those of a barrier's later rounds (R530). -/
def CollInst.mergeHeard (c : CollInst) : CollInst :=
  let l := c.heard.foldl (fun l h => match h.2 with | some st => later l st | none => l) (c.latest, c.slowest)
  { c with latest := l.1, slowest := l.2 }

/-- An instance ends: its summary is written and its descriptor completes, or the step boundary takes its result. A barrier
completes before its summary (R539). -/
def State.endInst (s : State) (c : CollInst) (st : Status) (detail : Nat) : State :=
  let c := c.mergeHeard
  let s := s.count 0 (collCtr 4) (b2n (st == .timeout))
  let s := if st == .timeout then s.openOut c else s
  let s := { s with coll := { s.coll with finished := c.id :: s.coll.finished.filter (· != c.id) } }
  if c.slot = 4096 then (s.writeSummary c).2.putInst { c with ended := some (st, detail) }
  else
    let s := { s with coll := { s.coll with active := s.coll.active.filter (fun x => !(x.id == c.id && x.slot == c.slot)) } }
    if c.kind == .barrier then ((s.finish c.slot 7 st detail).writeSummary c).2
    else
      let (bad, s) := s.writeSummary c
      let st' := if bad then st.join .poison else st
      s.finish c.slot 4 st' (if st' == st then detail else c.poisoned)

/-- Send an ABORT to a neighbour; one that cannot be reached is left out. -/
def State.sendAbort (s : State) (c : CollInst) (k dir chip : Nat) : State :=
  let m := s.newMsg 0x07 (c.neighbour s.chipId k dir) (collTarget 2 dir k c.id)
    (collTag c.place (2 * k + dir)) 16 (subheader chip c.latest c.slowest) []
  let (ok, s) := s.send m
  s.count 0 (collCtr 5) (b2n ok)

/-- An instance times out: ABORT to both neighbours in every order (R532, R533). -/
def State.timeoutInst (s : State) (c : CollInst) (chip : Nat) : State :=
  let c := c.mergeHeard
  let s := (List.range c.orders.length).foldl (fun s k =>
    if c.size ≤ 1 then s else (s.sendAbort c k 0 chip).sendAbort c k 1 chip) s
  s.endInst c .timeout chip

/-! ### Results (Table 14.4, R536) -/

/-- Round a segment's results to OUT_FMT with CLIP 0: bytes, state. DESIGN CHOICE (log 57). -/
def State.segRound (s : State) (c : CollInst) (f : Fmt) (vs : List Value) : List Byte × State :=
  let es := vs.map (encode f c.rnd false 0 0)
  (es.flatMap (fun e => natLe (wideBytes f) e.code), s.countFindings (s.collEngine c) (Findings.ofAll es))

/-- Bytes of a segment's result in OUT, how many results are inexact, state (Table 14.4, R161, R212). -/
def State.segOutput (s : State) (c : CollInst) (g : Nat) (v : SegVal) : List Byte × Nat × State :=
  let (_, e0, n, _) := c.seg g
  match v with
  | .raw bs => (bs, 0, s)
  | .recs ps =>
    let inx := (ps.filter (·.inexact)).length
    match c.outFmt with
    | none => (ps.flatMap Partial.bytes, inx, s)
    | some f =>
      let (bs, s) := s.segRound c f (ps.map (fun p => drainValue p.value (some 1) (some 1) .zero))
      (bs, inx, s)
  | .vals vs =>
    let (vs, s) := if c.xport = 0 then s.rotateRow (s.collEngine c) 2 c.key c.stream (e0 / 128) vs else (vs, s)
    let (bs, s) := s.segRound c (c.outFmt.getD .fp32) (vs.take n)
    (bs, 0, s)

/-- Write a segment's result to OUT, poisoned where its groups are; each group written poisoned counts once (Table 14.8). -/
def State.writeResult (s : State) (c : CollInst) (g : Nat) (v : SegVal) (ps : List Bool) : CollInst × State :=
  let (_, e0, n, _) := c.seg g
  let b := c.outBytes
  let (bs, inx, s) := s.segOutput c g v
  let bad := ((List.range ps.length).filter (fun j => (ps[j]?).getD false && !c.groupSeen (c.firstGroup g + j))).length
  let c := { c with done := c.done ++ [g], inexact := c.inexact + inx }
  match c.out with
  | none => ({ c with result := patch c.result (b * e0) bs, poisoned := c.poisoned + bad }, s)
  | some a =>
    let (kept, _, s) := s.writeLocal (a + b * e0) bs
      ((List.range n).flatMap (fun i => List.replicate b ((ps[(e0 + i) / 128 - e0 / 128]?).getD false)))
    ({ c with poisoned := c.poisoned + max bad (b2n (kept && !ps.any id)) }, s)

/-- Queue a segment to be sent. -/
def CollInst.push (c : CollInst) (r : Ready) : CollInst := { c with ready := c.ready ++ [r] }

/-- Give a landing place back and report the credit (R525), against the direction of the data: DIR is 1 to the predecessor (Table 14.5).
In this model an area empties as each segment leaves it, so
credit is reported at once. DEDUCED (log 23). -/
def State.giveBack (s : State) (c : CollInst) (key : Nat) : CollInst × State :=
  let n := mget 0 c.consumed key + 1
  let c := { c with consumed := mput 0 c.consumed key n, reported := mput 0 c.reported key (64 + n) }
  let k := key / 2
  let dir := key % 2
  let peer := c.neighbour s.chipId k (1 - dir)
  let (ok, s) := s.send (s.newMsg 0x08 peer (collTarget 0 (1 - dir) k c.id) (collTag c.place (2 * k + 1 - dir)) 8
    (natLe 8 (64 + n)) [])
  ({ c with lost := if ok then c.lost else some peer }, s)

/-- The owner has every value of a segment: write the result where OUT takes it, and send it round (R513, R514, R522). -/
def State.ownerDone (s : State) (c : CollInst) (g : Nat) (v : SegVal) (ps : List Bool) (latest : Nat × Nat) :
    CollInst × State :=
  let (k, _, _, _) := c.seg g
  let (bytes, s) := if c.gathers || c.xport = 1 then s.segEncode c g (c.stream + 32769) v else ([], s)
  let (kept, s) := if (c.gathers && c.xport = 0) || c.xport = 1 then s.segDecode c g bytes else (v, s)
  let data : SegData := ⟨bytes, c.toGranules g ps bytes.length, latest.1, latest.2⟩
  let c := if c.gathers && 1 ≤ c.right then c.push ⟨k, 0, true, g, data, none⟩ else c
  let c := if c.gathers && 1 ≤ c.left then c.push ⟨k, 1, true, g, data, none⟩ else c
  s.writeResult c g kept ps

/-- Combine at the owner once both expected partials are present (R522). -/
def State.ownerTry (s : State) (c : CollInst) (g : Nat) : CollInst × State :=
  let me := s.chipId
  let (k, _, _, _) := c.seg g
  let order0 := (c.orders[0]?).getD []
  let l := mget none c.got (2 * g)
  let r := mget none c.got (2 * g + 1)
  let rankOf (dir : Nat) : Nat := posIn (c.neighbour me k dir) order0
  let stamp0 : Nat × Nat := (c.entry, c.rank)
  if (1 ≤ c.left && l.isNone) || (1 ≤ c.right && r.isNone) then (c, s)
  else
    let (own, s) := s.segOwn c g
    match l, r with
    | none, none =>
      let (v, s) := s.segSum c false [own]
      s.ownerDone c g v (c.ownPoison g) stamp0
    | some x, none =>
      let (c, s) := s.giveBack c (2 * k)
      let (lv, s) := s.segDecode c g x.bytes
      let (v, s) := s.segSum c false [own, lv]
      s.ownerDone c g v (orList (c.ownPoison g) (c.fromGranules g x.poison)) (later stamp0 (x.latest, x.rank))
    | none, some y =>
      let (c, s) := s.giveBack c (2 * k + 1)
      let (rv, s) := s.segDecode c g y.bytes
      let (v, s) := s.segSum c false [own, rv]
      s.ownerDone c g v (orList (c.ownPoison g) (c.fromGranules g y.poison)) (later stamp0 (y.latest, y.rank))
    | some x, some y =>
      let (lv, s) := s.segDecode c g x.bytes
      let (rv, s) := s.segDecode c g y.bytes
      let leftFirst := mget 0 c.first g = 1
      let rl := rankOf 1
      let rr := rankOf 0
      let parts : List SegVal :=
        if s.tf.timetable then
          (([(c.rank, own), (rl, lv), (rr, rv)] : List (Nat × SegVal)).mergeSort (fun a b => a.1 ≤ b.1)).map (·.2)
        else if leftFirst then [own, lv, rv]
        else [own, rv, lv]
      let (v, s) := s.segSum c s.tf.timetable parts
      let odd := !s.tf.timetable && c.red = 0 && c.xport < 3 && (leftFirst != decide (rl < rr))
      let s := s.count 0 (ctrId 17 9 0) (b2n odd)
      let c := { c with nondet := c.nondet + b2n odd }
      let (c, s) := s.giveBack c (2 * k)
      let (c, s) := s.giveBack c (2 * k + 1)
      s.ownerDone c g v
        (orList (c.ownPoison g) (orList (c.fromGranules g x.poison) (c.fromGranules g y.poison)))
        (later (later stamp0 (x.latest, x.rank)) (y.latest, y.rank))

/-- An instance has done everything: its results are written and its sends are gone. -/
def CollInst.finished (c : CollInst) (me : Nat) : Bool :=
  c.kind != .barrier && c.ready = [] && (List.range c.segs.length).all (fun g =>
    c.done.contains g || (!c.gathers && c.offset me g ≠ 0 && (mget none c.got (2 * g)).isSome))

/-- End an instance that has done everything (R543). -/
def State.checkDone (s : State) (c : CollInst) : State :=
  if c.lost.isSome then s.timeoutInst c (c.lost.getD 0)
  else if c.finished s.chipId then
    let st := statusOf (c.inexact ≠ 0) false false (c.poisoned ≠ 0 || c.sawPoison)
    s.endInst c st (match st with | .poison => c.poisoned | .inexact => c.inexact | _ => c.slowest)
  else s.putInst c

/-! ### Starting (R504, R510, R512, R525, R526, R534) -/

/-- Own contributions go out where this member is the far end of a chain; an owner without neighbours finishes at once
(R513, R516). -/
def State.seedSegs (s : State) (c : CollInst) : CollInst × State :=
  (List.range c.segs.length).foldl (fun (acc : CollInst × State) g =>
    let (c, s) := acc
    let o := c.offset s.chipId g
    let (k, _, _, _) := c.seg g
    let seed (dir : Nat) : CollInst × State :=
      let (own, s) := s.segOwn c g
      let (bytes, s) := s.segEncode c g (c.stream + 1 + c.rank) own
      ({ c.push ⟨k, dir, false, g, ⟨bytes, c.toGranules g (c.ownPoison g) bytes.length, c.entry, c.rank⟩, none⟩ with
        got := mput none c.got (2 * g) (if c.gathers then none else some ⟨[], [], 0, 0⟩) }, s)
    if o = 0 then
      if c.reduces then s.ownerTry c g
      else
        let (own, s) := s.segOwn c g
        s.ownerDone c g own (c.ownPoison g) (c.entry, c.rank)
    else if !c.reduces then (c, s)
    else if c.size - o = c.left && c.right < o then seed 0
    else if o = c.right then seed 1
    else (c, s)) (c, s)

/-- Grant 64 segments to each neighbour that sends to this member (R525). -/
def State.grantAll (s : State) (c : CollInst) : CollInst × State :=
  if c.size ≤ 1 || c.kind == .barrier then (c, s)
  else ((List.range c.orders.length).flatMap (fun k => [(k, 0), (k, 1)])).foldl (fun (acc : CollInst × State) kd =>
    let peer := c.neighbour acc.2.chipId kd.1 (1 - kd.2)
    let (ok, s) := acc.2.send (acc.2.newMsg 0x08 peer (collTarget 0 (1 - kd.2) kd.1 c.id)
      (collTag c.place (2 * kd.1 + 1 - kd.2)) 8 (natLe 8 64) [])
    ({ acc.1 with lost := if ok || acc.1.lost.isSome then acc.1.lost else some peer }, s)) (c, s)

/-- Take the first grants that came early (R525). DEDUCED (log 23). -/
def State.takeCredits (s : State) (c : CollInst) : CollInst × State :=
  ({ c with granted := (s.coll.credits.filter (fun x => x.1 == c.id)).foldl (fun m x => mput 0 m x.2 64) c.granted },
    { s with coll := { s.coll with credits := s.coll.credits.filter (fun x => x.1 != c.id) } })

/-- Rounds of a barrier: ⌈log2 N⌉. -/
def rounds (n : Nat) : Nat := if n ≤ 1 then 0 else (n - 1).log2 + 1

/-- Send a barrier's message of its present round (R538). -/
def State.sendRound (s : State) (c : CollInst) : Bool × State :=
  let peer := c.chipAt 0 (2 ^ c.round % max 1 c.size) s.chipId
  s.send (s.newMsg 0x07 peer (collTarget 3 0 0 c.id) (collTag c.place (16 + c.round)) 16 (subheader c.round c.latest c.slowest) [])

/-- A barrier releases: completion stamped now, SLOWEST and LATE in the detail (R539, R541). -/
def State.releaseBarrier (s : State) (c : CollInst) : State :=
  let poor := s.time.quality == .holdover || s.time.quality == .unset
  let s := (s.count 0 (collCtr 7) (b2n c.late)).count 0 (collCtr 8) (b2n poor)
  s.endInst c .ok (c.slowest % 32768 + 32768 * b2n c.late)

/-- Go through the rounds whose messages have come; after the last, know the release time (R538). `fuel` bounds the
rounds. -/
def State.advanceRounds : Nat → CollInst → State → State
  | 0, c, s => s.putInst c
  | fuel + 1, c, s =>
    if rounds c.size ≤ c.round then
      let t := c.latest % 2 ^ 62 + c.lead
      let c := { c with release := some t, late := t < s.time.now }
      if t < s.time.now then s.releaseBarrier c else s.putInst c
    else
      match mget none c.heard c.round with
      | none => s.putInst c
      | some st =>
        let l := later (c.latest, c.slowest) st
        let c := { c with latest := l.1, slowest := l.2, round := c.round + 1 }
        if rounds c.size ≤ c.round then State.advanceRounds fuel c s
        else
          let (ok, s) := s.sendRound c
          if ok then State.advanceRounds fuel c s
          else s.timeoutInst c (c.chipAt 0 (2 ^ c.round % max 1 c.size) s.chipId)

/-- Make an instance active and let it begin. A barrier takes its early messages out of their table (R542); an ABORT kept for its
COLL_ID ends it at once (R534). -/
def State.startInst (s : State) (c : CollInst) : State :=
  let place := ((List.range 32).find? (fun p => !s.coll.active.any (fun x => x.place == p))).getD 0
  let mine := s.coll.early.filter (fun e => e.1 == c.id)
  let c : CollInst := { c with place := place, sawPoison := c.inPoison.any id }
  let s : State := { s with coll := { s.coll with
    active := s.coll.active ++ [c], finished := s.coll.finished.filter (· != c.id), stale := s.coll.stale.filter (· != c.id),
    early := if c.kind == .barrier then s.coll.early.filter (fun e => e.1 != c.id) else s.coll.early } }
  match s.coll.aborts.find? (fun a => a.1 == c.id) with
  | some a =>
    ({ s with coll := { s.coll with aborts := s.coll.aborts.erase a } } : State).endInst c .timeout a.2
  | none =>
    if c.kind == .barrier then
      let c := { c with heard := mine.foldl (fun h e => mins e.2.1 (some (e.2.2.1, e.2.2.2)) h) [] }
      if rounds c.size = 0 then State.advanceRounds 1 c s
      else
        let (ok, s) := s.sendRound c
        if ok then State.advanceRounds 16 c s else s.timeoutInst c (c.chipAt 0 1 s.chipId)
    else
      let (c, s) := s.takeCredits c
      let (c, s) := s.grantAll c
      let (c, s) := if c.lost.isSome then (c, s) else s.seedSegs c
      s.checkDone c

/-- An instance with nothing done yet; the caller fills in what its kind needs. -/
def State.blankInst (s : State) (kind : CollKind) (slot id : Nat) (orders : List (List Nat)) (timeout : Nat) : CollInst :=
  { kind := kind, slot := slot, id := id % 65536, orders := orders, rank := posIn s.chipId ((orders[0]?).getD []),
    op := 0, red := 0, xport := 2, inFmt := .fp32, outFmt := some .fp32, rnd := .nearest, wrnd := 1, key := 0, stream := 0,
    segs := [], input := [], inPoison := [], out := none, result := [], arr := none, entry := s.stamp, latest := s.stamp,
    slowest := posIn s.chipId ((orders[0]?).getD []), got := [], first := [], done := [], ready := [], granted := [],
    sent := [], consumed := [], reported := [], since := s.time.timer, heardAt := [], timeout := timeout, nondet := 0,
    inexact := 0, poisoned := 0, lead := 0, round := 0, heard := [], release := none, late := false, ended := none, place := 0, lost := none, passed := [],
    sawPoison := false }

/-- Collective descriptors dispatched before one, which have not started yet: they take the free places first (R526). -/
def State.collAhead (s : State) (sl : Slot) : Nat :=
  (s.host.slots.filter (fun kv => match kv.2 with
    | some o => o.phase == .running && !o.begun && [0x30, 0x31, 0x51].contains (opcodeOf o.desc)
        && decide (o.dispatched < sl.dispatched)
    | none => false)).length

/-- A descriptor that waits for a place takes its place in the queue of the package root, in dispatch order (R526).
DEDUCED (log 23). -/
def State.queueColl (s : State) (k : Nat) (sl : Slot) : State :=
  let before (j : Nat) : Bool := match s.slot j with | some o => decide (o.dispatched < sl.dispatched) | none => true
  let q := s.coll.waiting.filter (· != k)
  { s with coll := { s.coll with waiting := q.filter before ++ k :: q.filter (fun j => !before j) } }

/-- What every collective descriptor checks before it starts: `some` with its orders, its aligned ARR_BASE and whether its group table
reads poisoned, or `none` with the state in which it has ended or waits. `noClamp`: ORDERS is not used, so it counts no clamp (R528).
ABORTED ranks above POISON (R40, R543), so that the caller ends a poisoned one after its own checks. DEDUCED (log 23). -/
def State.collCheck (s : State) (k : Nat) (sl : Slot) (orders0 noClamp : Bool) (cls : Nat) :
    Option (List (List Nat) × Nat × Bool) × State :=
  let d := sl.desc
  let abort (s : State) : Option (List (List Nat) × Nat × Bool) × State :=
    (none, (s.clamp sl.source 1).finish k cls .aborted 0)
  if sl.begun then (none, s)
  else if 16 ≤ (s.coll.active.filter (fun c => c.ended.isNone)).length + s.collAhead sl then (none, s.queueColl k sl)
  else
    let s := { s with coll := { s.coll with waiting := s.coll.waiting.filter (· != k) } }
    let s := s.clamp sl.source (b2n (addr48 d 8 % 16 ≠ 0) + b2n (addr48 d 26 % 32 ≠ 0))
    let arr := addr48 d 26 / 32 * 32
    match s.readGroup (addr48 d 8 / 16 * 16) with
    | none => abort s
    | some (orders, clamps) =>
      let used := if orders0 then orders.take 1 else orders
      let s := s.clamp sl.source (if noClamp then 0 else clamps)
      let n := ((used[0]?).getD []).length
      let (_, ps, s) := s.memRead (addr48 d 8 / 16 * 16) (16 + 2 * n * used.length)
      if !inTier arr (32 + 4 * n) then abort s
      else if used.any (fun o => !s.onceIn o) then abort s
      else if (s.inst (field d 44 2)).isSome then abort s
      else (some (used, arr, anyP ps), s.begin' k)

/-- Groups of 128 elements that hold a poisoned byte. -/
def poisonGroups (b : Nat) (ps : List Bool) : List Bool :=
  (List.range ((ps.length + 128 * b - 1) / (128 * b))).map (fun g => ((ps.drop (128 * b * g)).take (128 * b)).any id)

/-- COLL at its root or die (R509 to R516, R528). -/
def State.runColl (s : State) (k : Nat) (sl : Slot) : State :=
  let d := sl.desc
  let ctl := field d 38 1
  let var := bit ctl 7
  let abort (s : State) : State := (s.clamp sl.source 1).finish k 4 .aborted 0
  match s.collCheck k sl var var 4 with
  | (none, s) => s
  | (some (orders, arr, bad0), s) =>
    let n := ((orders[0]?).getD []).length
    let op := if ctl % 4 = 3 then 0 else ctl % 4
    let red := if bits ctl 3 2 = 3 then 0 else bits ctl 3 2
    let x0 := bits ctl 5 4
    let xport := if x0 = 0 && (red ≠ 0 || var) then 2 else x0
    let (inF, c1) := if xport = 3 then (Fmt.fp32, 0) else readSrcFmt (field d 39 1 % 16)
    let outCode := field d 39 1 / 16
    let (outF, c2) := if xport = 3 && outCode = 0xF then (none, 0)
      else let (f, c) := readSrcFmt outCode; (some f, c)
    let rnd := if field d 40 1 % 4 = 2 then Rnd.towardZero else .nearest
    let cb := addr48 d 32
    let s := s.clamp sl.source (b2n (ctl % 4 = 3) + b2n (bits ctl 3 2 = 3) + b2n (xport ≠ x0) + c1 + c2
      + b2n (field d 40 1 % 2 = 1) + b2n (var && cb % 8 ≠ 0))
    let cb := cb / 8 * 8
    let base := s.blankInst .coll k (field d 44 2) orders (s.timeoutBeats (field d 41 3))
    let c := { base with
      op := op, red := red, xport := xport, inFmt := inF, outFmt := outF, rnd := rnd, wrnd := bits ctl 6 6,
      key := field d 56 8, stream := field d 52 4, out := some (addr48 d 20), arr := some arr }
    if var && !inTier cb (8 * n) then abort s
    else
      let (cs, cps, s) := if var then s.memRead cb (8 * n) else ([], [], s)
      let counts := (List.range n).map (fun i => field cs (8 * i) 8)
      let elems := if var then (counts.foldl (· + ·) 0) else field d 46 5
      if var && 2 ^ 40 ≤ elems then abort s
      else if !inTier (addr48 d 14) (elems * c.inBytes) || !inTier (addr48 d 20) (elems * c.outBytes) then abort s
      else if bad0 || anyP cps then s.finish k 4 .poison 0
      else if elems = 0 && !var then
        let (bad, s) := s.writeSummary { c with slowest := 0xFFFF }
        s.finish k 4 (if bad then .poison else .ok) (if bad then 0 else 0xFFFF)
      else
        let e := segElems xport
        let segs := if var then varSegs counts e else fixedSegs elems e orders.length n
        let c := { c with segs := segs }
        let wanted := (List.range segs.length).filter (fun g => op ≠ 2 || c.offset s.chipId g = 0)
        let b := c.inBytes
        let (buf, ps, s) :=
          if op ≠ 2 then s.readLocal (addr48 d 14) (b * elems)
          else wanted.foldl (fun (acc : List Byte × List Bool × State) g =>
            let (_, e0, m, _) := c.seg g
            let (x, q, s) := acc.2.2.readLocal (addr48 d 14 + b * e0) (b * m)
            (patch acc.1 (b * e0) x, acc.2.1.take (b * e0) ++ q ++ acc.2.1.drop (b * (e0 + m)), s))
            (List.replicate (b * elems) 0, List.replicate (b * elems) false, s)
        s.startInst { c with input := buf, inPoison := poisonGroups b ps }

/-- COLL. -/
def execColl (slot : Nat) (s : State) : Host.Outcome State Fault Refusal :=
  .next (s.withDesc slot [0x30] (fun sl s => s.runColl slot sl))

/-- COUNTS: an ALLGATHER of one VALUE of each member on order 0 (R527). -/
def State.runCounts (s : State) (k : Nat) (sl : Slot) : State :=
  let d := sl.desc
  match s.collCheck k sl true false 4 with
  | (none, s) => s
  | (some (orders, arr, bad0), s) =>
    let n := ((orders[0]?).getD []).length
    let s := s.clamp sl.source (b2n (addr48 d 32 % 8 ≠ 0))
    let out := addr48 d 32 / 8 * 8
    if !inTier out (8 * n) then (s.clamp sl.source 1).finish k 4 .aborted 0
    else if bad0 then s.finish k 4 .poison 0
    else
      let base := s.blankInst .counts k (field d 44 2) orders (s.timeoutBeats (field d 41 3))
      s.startInst { base with
        op := 2, xport := 4, segs := varSegs (List.replicate n 1) 1,
        input := patch (List.replicate (8 * n) 0) (8 * base.rank) (slice d 56 8), inPoison := [], out := some out,
        arr := some arr }

/-- COUNTS. -/
def execCounts (slot : Nat) (s : State) : Host.Outcome State Fault Refusal :=
  .next (s.withDesc slot [0x31] (fun sl s => s.runCounts slot sl))

/-- BARRIER (R537, R538): LEAD in units of 64 beats, 0 for ⌈log2 N⌉ × 8 192 beats. -/
def State.runBarrier (s : State) (k : Nat) (sl : Slot) : State :=
  let d := sl.desc
  match s.collCheck k sl true false 7 with
  | (none, s) => s
  | (some (_, _, true), s) => s.finish k 7 .poison 0
  | (some (orders, arr, false), s) =>
    let n := ((orders[0]?).getD []).length
    let lead := field d 46 2
    let base := s.blankInst .barrier k (field d 44 2) orders (s.timeoutBeats (field d 41 3))
    s.startInst { base with arr := some arr, lead := if lead = 0 then rounds n * 8192 else 64 * lead }

/-- BARRIER. -/
def execBarrier (slot : Nat) (s : State) : Host.Outcome State Fault Refusal :=
  .next (s.withDesc slot [0x51] (fun sl s => s.runBarrier slot sl))

/-! ### Sending (R515, R525, R529) -/

/-- Segments that may still be sent to a neighbour. -/
def CollInst.credit (c : CollInst) (key : Nat) : Nat := mget 0 c.granted key - mget 0 c.sent key

/-- The next segment to send on a directed ring: gather before reduce, lower segments first. -/
def CollInst.nextReady (c : CollInst) (k dir : Nat) : Option Ready :=
  let xs := c.ready.filter (fun r => r.order == k && r.dir == dir)
  (xs.mergeSort (fun a b => (a.gather && !b.gather) || (a.gather == b.gather && a.seg ≤ b.seg))).head?

/-- Send the first segment that has credit, over the directed rings in order. -/
def State.sendSegment (s : State) (c : CollInst) : State :=
  match ((List.range c.orders.length).flatMap (fun k => [(k, 0), (k, 1)])).findSome? (fun kd =>
      if 0 < c.credit (2 * kd.1 + kd.2) then c.nextReady kd.1 kd.2 else none) with
  | none => s
  | some r =>
    let key := 2 * r.order + r.dir
    let peer := c.neighbour s.chipId r.order r.dir
    let m := s.newMsg 0x07 peer (collTarget (b2n r.gather) r.dir r.order c.id)
      (collTag c.place key) (16 + r.data.bytes.length)
      (subheader r.seg r.data.latest r.data.rank ++ r.data.bytes) (false :: r.data.poison)
    let (ok, s) := s.send m
    if !ok then s.timeoutInst c peer
    else
      let s := s.count 0 (collCtr 0) 1
      let c := { c with ready := c.ready.erase r, sent := mput 0 c.sent key (mget 0 c.sent key + 1) }
      let (c, s) := match r.back with | some b => s.giveBack c b | none => (c, s)
      s.checkDone c

/-- COLL_SEGMENT_SEND: slot 4 096 names the exchange of the step boundary. -/
def State.collSend (s : State) (slot : Nat) : State :=
  match s.coll.active.find? (fun c => c.slot == slot && c.ended.isNone && c.kind != .barrier) with
  | some c => s.sendSegment c
  | none => s

/-! ### Arriving messages (R513, R514, R525, R526, R533, R542) -/

/-- Note a message from a neighbour (R532). -/
def State.hear (s : State) (c : CollInst) (key : Nat) : CollInst :=
  { c with since := s.time.timer, heardAt := mput 0 c.heardAt key s.time.timer }

/-- COLL_ID, order and direction of a collective message. -/
def collId (m : Msg) : Nat := m.target % 65536
def collOrder (m : Msg) : Nat := bits m.target 20 18
def collDir (m : Msg) : Nat := bits m.target 21 21

/-- A REDUCE segment lands. -/
def State.collReduce (s : State) (m : Msg) : State :=
  match s.inst (collId m) with
  | none => s.count 0 (collCtr 3) 1
  | some c =>
    let g := field m.payload 0 4
    if c.kind == .barrier || c.segs.length ≤ g then s.count 0 (collCtr 3) 1
    else
      let s := s.count 0 (collCtr 1) 1
      let dir := collDir m
      let (k, _, _, _) := c.seg g
      let c := s.hear c (2 * k + (1 - dir))
      let x : SegData := ⟨m.payload.drop 16, m.poison.drop 1, field m.payload 4 8, field m.payload 12 2 % 32768⟩
      let l := later (c.latest, c.slowest) (x.latest, x.rank)
      let c := { c with latest := l.1, slowest := l.2, sawPoison := c.sawPoison || m.poison.any id }
      if c.offset s.chipId g = 0 then
        let c := { c with
          got := mins (2 * g + dir) (some x) c.got,
          first := if mget 0 c.first g = 0 then mput 0 c.first g (dir + 1) else c.first }
        let (c, s) := s.ownerTry c g
        s.checkDone c
      else
        let (own, s) := s.segOwn c g
        let (dv, s) := s.segDecode c g x.bytes
        let (v, s) := s.segSum c false [own, dv]
        let (bytes, s) := s.segEncode c g (c.stream + 1 + c.rank) v
        let ps := orList (c.ownPoison g) (c.fromGranules g x.poison)
        let st := later (c.entry, c.rank) (x.latest, x.rank)
        let c := { c.push ⟨k, dir, false, g, ⟨bytes, c.toGranules g ps bytes.length, st.1, st.2⟩, some (2 * k + dir)⟩ with
          got := if c.gathers then c.got else mins (2 * g) (some x) c.got
          passed := g :: c.passed }
        s.checkDone c

/-- A GATHER segment lands: it is written to OUT and forwarded unchanged. -/
def State.collGather (s : State) (m : Msg) : State :=
  match s.inst (collId m) with
  | none => s.count 0 (collCtr 3) 1
  | some c =>
    let g := field m.payload 0 4
    if c.kind == .barrier || c.segs.length ≤ g || c.done.contains g then s.count 0 (collCtr 3) 1
    else
      let s := s.count 0 (collCtr 1) 1
      let dir := collDir m
      let (k, _, _, _) := c.seg g
      let c := s.hear c (2 * k + (1 - dir))
      let x : SegData := ⟨m.payload.drop 16, m.poison.drop 1, field m.payload 4 8, field m.payload 12 2 % 32768⟩
      let l := later (c.latest, c.slowest) (x.latest, x.rank)
      let c := { c with latest := l.1, slowest := l.2 }
      let o := c.offset s.chipId g
      let on := if dir = 0 then o < c.right else c.size - o < c.left
      let (v, s) := s.segDecode c g x.bytes
      let (c, s) := s.writeResult c g v (c.fromGranules g x.poison)
      if on then s.checkDone (c.push ⟨k, dir, true, g, x, some (2 * k + dir)⟩)
      else
        let (c, s) := s.giveBack c (2 * k + dir)
        s.checkDone c

/-- An ABORT: an active instance takes its stamp (R530), ends with TIMEOUT, and the ABORT goes on to the far side (R533); one that has not started
keeps it, the oldest of 32 giving way (R534); one for an instance completed here, or discarded by a reset (R545), is dropped. -/
def State.collAbort (s : State) (m : Msg) : State :=
  let chip := field m.payload 0 4 % 32768
  match s.inst (collId m) with
  | some c =>
    let c := c.mergeHeard
    let l := later (c.latest, c.slowest) (field m.payload 4 8, field m.payload 12 2 % 32768)
    let c := { c with latest := l.1, slowest := l.2 }
    (s.sendAbort c (collOrder m) (collDir m) chip).endInst c .timeout chip
  | none =>
    if s.coll.finished.contains (collId m) || s.coll.stale.contains (collId m) then s
    else
      let full := 32 ≤ s.coll.aborts.length
      let s := s.count 0 (collCtr 6) (b2n full)
      { s with coll := { s.coll with
          aborts := (if full then s.coll.aborts.drop 1 else s.coll.aborts) ++ [(collId m, chip)] } }

/-- A BARRIER message of one round (R538, R542). -/
def State.collBarrier (s : State) (m : Msg) : State :=
  let r := field m.payload 0 4
  let st := (field m.payload 4 8, field m.payload 12 2 % 32768)
  match s.inst (collId m) with
  | some c =>
    if c.kind == .barrier && c.release.isNone then
      State.advanceRounds 16 { s.hear c 0 with heard := mins r (some st) c.heard } s
    else s
  | none =>
    if s.coll.stale.contains (collId m) then s
    else if 1024 ≤ s.coll.early.length then s.count 0 (collCtr 9) 1
    else { s with coll := { s.coll with early := s.coll.early ++ [(collId m, r, st.1, st.2)] } }

/-- A COLL_CREDIT: a cumulative grant (R524, R525) for the data that goes the other way than the message (Table 14.5). A member grants as it starts, which may be before the instance starts
here: such a first grant is kept. DEDUCED (log 23). -/
def State.collCredit (s : State) (m : Msg) : State :=
  match s.inst (collId m) with
  | some c =>
    let key := 2 * collOrder m + (1 - collDir m)
    let c := s.hear c key
    s.putInst { c with granted := mput 0 c.granted key (max (mget 0 c.granted key) (field m.payload 0 8)) }
  | none =>
    let key := 2 * collOrder m + (1 - collDir m)
    if field m.payload 0 8 = 64 && !s.coll.credits.contains (collId m, key) && !s.coll.stale.contains (collId m) then
      { s with coll := { s.coll with credits := s.coll.credits ++ [(collId m, key)] } }
    else s

/-- An UNREACHABLE answers a collective message: the instance ends at once, and its detail is the neighbour that the
message was for (R473, R532). -/
def State.collUnreachable (s : State) (tag : Nat) : State :=
  match s.coll.active.find? (fun c => c.place == bits tag 13 9 && c.ended.isNone) with
  | some c =>
    let code := bits tag 8 0
    s.timeoutInst c (if 16 ≤ code then c.chipAt 0 (2 ^ (code - 16) % max 1 c.size) s.chipId
      else c.neighbour s.chipId (code / 2) (code % 2))
  | none => s

/-! ### Timers (R532, R539) -/

/-- What this member still waits for from a neighbour in an order: a partial or a result on its directed ring, or credit.
DEDUCED (log 23). -/
def CollInst.awaits (c : CollInst) (me k side : Nat) : Bool :=
  c.ready.any (fun r => r.order == k && r.dir == side && c.credit (2 * k + side) == 0)
    || (List.range c.segs.length).any (fun g =>
        (c.seg g).1 == k && !c.done.contains g && c.size ≠ 1 &&
          (let o := c.offset me g
           if o = 0 then c.reduces && (if side = 1 then 1 ≤ c.left else 1 ≤ c.right) && (mget none c.got (2 * g + (1 - side))).isNone
           else
             (c.reduces && !c.passed.contains g && (if side = 0 then decide (o < c.right)
               else decide (c.right < o) && decide (c.size - o < c.left)))
             || (c.gathers && (if side = 1 then o ≤ c.right else c.right < o))))

/-- The neighbour waited on longest: lowest order and successor first among equals (R532). -/
def CollInst.suspect (c : CollInst) (me : Nat) : Nat :=
  let ks := (List.range c.orders.length).flatMap (fun k => [(k, 0), (k, 1)])
  let ws := ks.filter (fun kd => c.awaits me kd.1 kd.2)
  let ws := if ws = [] then ks else ws
  let t (kd : Nat × Nat) : Nat := mget 0 c.heardAt (2 * kd.1 + kd.2)
  let best := ws.foldl (fun b kd => match b with
    | none => some kd
    | some x => if t kd < t x then some kd else some x) none
  match best with
  | some kd => c.neighbour me kd.1 kd.2
  | none => me

/-- A barrier waits on the sender of its present round; one that awaits its release waits on nobody, and R532's tie names the
successor. DEDUCED (log 23). -/
def CollInst.waitedChip (c : CollInst) (me : Nat) : Nat :=
  if c.kind == .barrier && c.release.isNone then c.chipAt 0 (c.size - 2 ^ c.round % max 1 c.size) me else c.suspect me

/-- COLL_TIMEOUT: TIMEOUT without a message or credit while it is incomplete, a barrier up to its release (R532). DEDUCED (log 23). -/
def State.collTimeout (s : State) (slot : Nat) : State :=
  match s.coll.active.find? (fun c => c.slot == slot && c.ended.isNone) with
  | some c =>
    if c.since + c.timeout ≤ s.time.timer && !s.timersPaused then
      s.timeoutInst c (c.waitedChip s.chipId)
    else s
  | none => s

/-- BARRIER_RELEASE: Station Time is at or above the release time (R539). DEDUCED (log 23). -/
def State.barrierRelease (s : State) (slot : Nat) : State :=
  match s.coll.active.find? (fun c => c.slot == slot && c.ended.isNone && c.kind == .barrier) with
  | some c =>
    match c.release with
    | some t => if t ≤ s.time.now then s.releaseBarrier c else s
    | none => s
  | none => s

end Sys2Proof.Machine
end

