-- ==== Sys2Proof/Machine/Resil.lean ====
section
/-! DEFINITION. Resilience: the live state and its image, copies from twins, rollback, HOLD and the resilience commands
(chapter 18: R650 to R685). The seal itself and R654 stand in Machine/Memory.lean. -/

namespace Sys2Proof.Machine

/-- Counters of Table 18.11 by position. -/
def ctrRes (n : Nat) : Nat := ctrId 18 11 n

/-! ### Live state and image (R654, R655) -/

/-- The live state holds step n: the seal says so (R654). -/
def State.setLive (s : State) (n : Nat) : State :=
  ({ s with res := { s.res with liveValid := true, pending := false, cut := n } } : State).writeSeal

/-- The live state is no longer vouched for. -/
def State.dropLive (s : State) : State :=
  if s.res.liveValid then ({ s with res := { s.res with liveValid := false } } : State).writeSeal else s

/-- Run a change of state ranges that restores what they held, so that R654 does not take it for the first write of a
step: the seal stands meanwhile. -/
def State.quietly (s : State) (f : State → State) : State :=
  let lv := s.res.liveValid
  let s := f { s with res := { s.res with liveValid := false } }
  { s with res := { s.res with liveValid := lv } }

/-- Imaged ranges: base, length, image. -/
def State.imagedRanges (s : State) : List (Nat × Nat × Nat) :=
  s.stateRanges.filterMap (fun r => r.2.2.map (fun i => (r.1, r.2.1, i)))

/-- Ranges without an image: base and length. -/
def State.plainRanges (s : State) : List (Nat × Nat) :=
  s.stateRanges.filterMap (fun r => if r.2.2.isNone then some (r.1, r.2.1) else none)

/-- Copy n bytes from one local range to another, poison by unit with them. -/
def State.copyLocal (s : State) (src dst n : Nat) : State :=
  let (bs, ps, s) := s.readLocal src n
  (s.writeLocal dst bs ps).2.2

/-- A running SNAPSHOT reads an image (R678). -/
def State.snapshotOnImage (s : State) : Bool :=
  s.host.slots.any (fun kv => match kv.2 with
    | some sl => sl.phase == .running && opcodeOf sl.desc == 0x71 && (s.readExtents sl.desc).any (fun r =>
        s.imagedRanges.any (fun g => overlap r.1 r.2 g.2.2 g.2.1))
    | none => false)

/-- An image pass begins, unless a SNAPSHOT still reads an image (R655, R678). -/
def State.beginImage (s : State) : State :=
  if s.res.imaging || !s.res.liveValid then s
  else if s.snapshotOnImage then { s with res := { s.res with due := true } }
  else
    let s := s.readLists
    ({ s with res := { s.res with imaging := true, due := false, imageValid := false } } : State).writeSeal

/-- An image pass starts where IMAGE_EN is 1 and the image does not hold the live step (R655). -/
def State.startImage (s : State) : State :=
  if bit (s.regs.eff regRsCtl 0) 0 && s.res.liveValid && !(s.res.imageValid && s.res.img = s.res.cut) then s.beginImage
  else s

/-- A copy between a state range and its image waits on a stack (R22, R373, R377). -/
def State.imagesWait (s : State) : Bool :=
  s.imagedRanges.any (fun r => s.stackWaits r.1 r.2.1 || s.stackWaits r.2.2 r.2.1)

/-- A state range or an image lies in a FAILED or TEST stack, which completes every access with FENCED (R381, R383). -/
def State.imagesFenced (s : State) : Bool :=
  s.imagedRanges.any (fun r => s.stackFenced r.1 r.2.1 || s.stackFenced r.2.2 r.2.1)

/-- The pass ends: every imaged range has been copied in list order, and IMAGE_STEP is written (R655). It copies a block
under copy last, so it does not end before the copy (R660), and its copies wait on their stacks (R22, R373, R377). A pass that meets a
FAILED or TEST stack ends with no image. DESIGN CHOICE (log 27). -/
def State.imageDone (s : State) : State :=
  let s := if s.res.due then s.beginImage else s
  if !s.res.imaging || s.res.blocks ≠ [] then s
  else
    let s := s.readLists
    if s.imagesFenced then { s with res := { s.res with imaging := false } }
    else if s.imagesWait then s
    else
      let s := s.imagedRanges.foldl (fun s r => s.copyLocal r.1 r.2.2 r.2.1) s
      let s := { s with res := { s.res with imaging := false, imageValid := true, img := s.res.cut } }
      s.writeSeal.count 0 (ctrRes 1) 1

/-! ### Copying from a twin (R657 to R660) -/

/-- Outstanding READs of the copy. -/
def State.copyReqs (s : State) : List Nat :=
  s.fab.reqs.filterMap (fun kv => match kv.2 with
    | some r => (match r.asker with | .copy _ => some kv.1 | .slot _ => none)
    | none => none)

/-- Drop the copy's outstanding READs: responses that arrive later are discarded (R484). -/
def State.dropCopyReqs (s : State) : State := s.copyReqs.foldl (fun s t => s.putReq t none) s

/-- Change the running copy. -/
def State.modCopy (s : State) (f : Copy → Copy) : State := { s with res := { s.res with copy := s.res.copy.map f } }

/-- Mark every unit of a range poisoned (R658). -/
def State.poisonRange (s : State) (a n : Nat) : State :=
  (unitsOf a n).foldl (fun s u => (s.drainSector u.1).setMark u.1 (s.poisonMark u.1)) s

/-- Sources of a copy in the order of R659: TWINS order 0 from the position after this chip's, without it. -/
def State.twinSources (s : State) : List Nat :=
  let o := s.res.twins
  let i := o.findIdx (· == s.chipId)
  (o.drop (i + 1) ++ o.take i).filter (· != s.chipId)

/-- The reads of a copy's data, live or from the images of the source: ranges without an image are live only (R657). -/
def State.copyReads (s : State) (c : Copy) : List (Nat × Nat × Nat) :=
  c.ranges.map (fun r =>
    let src := if c.image then
        ((s.imagedRanges.find? (fun g => g.1 ≤ r.1 && r.1 + r.2 ≤ g.1 + g.2.1)).map
          (fun g => g.2.2 + (r.1 - g.1))).getD r.1
      else r.1
    (src, r.1, r.2))

/-- The reads of a REBUILD's lists: the state list and the image list (R669). -/
def State.listReads (s : State) : List (Nat × Nat × Nat) :=
  [(s.listBase, s.listBase, 16 * s.listCount), (s.imageBase, s.imageBase, 8 * s.listCount)]

/-- The copy ends without a source (R659, R668, R670). -/
def State.copyExhausted (s : State) (c : Copy) : State :=
  let ended := s.modCopy (fun c => { c with phase := 4 })
  match c.what with
  | .block _ => ended
  | .diverged => ended.enterHold 4 none
  | .sync => { s with res := { s.res with copy := none, cmdErr := 3 } }
  | .rebuild => { s with res := { s.res with
      copy := none, rebuilding := false, rebState := 3, cause := 4 } } |>.tellState s

/-- The stack that a copy writes to serves no access (R381, R383): no source can help. DESIGN CHOICE (log 27). -/
def State.copyFenced (s : State) (c : Copy) : State :=
  let s := { s with res := { s.res with copy := some { c with sources := [], failed := some (c.failed.getD 0) } } }
  s.dropCopyReqs.copyExhausted { c with sources := [] }

/-- Issue the next READ of a copy, if one can be issued: `none` where the source cannot be reached. -/
def State.issueNext (s : State) (c : Copy) : Option (Bool × State) :=
  match c.sources, c.todo with
  | chip :: _, (src, dst, n) :: rest =>
    if n = 0 then some (true, s.modCopy (fun c => { c with todo := rest }))
    else if 256 ≤ s.copyReqs.length then some (false, s)
    else
      let len := min n 4096
      let (ok, s) := s.issueRead (.copy 1) ⟨0, 0, chip, src, dst, len, none⟩
      if ok then some (true, s.modCopy (fun c => { c with
        todo := if len = n then rest else (src + len, dst + len, n - len) :: rest }))
      else none
  | _, _ => some (false, s)

/-- Read a seal of the source in use; false where it cannot be reached. -/
def State.readSeal (s : State) (c : Copy) (phase : Nat) : Bool × State :=
  match c.sources with
  | [] => (false, s)
  | chip :: _ => (s.modCopy (fun c => { c with phase := phase })).issueRead (.copy phase) ⟨0, 0, chip, s.sealBase, 0, 32, none⟩

/-- Issue reads until 256 are outstanding or none is left; false where the source cannot be reached. -/
def State.issueReads : Nat → State → Bool × State
  | 0, s => (true, s)
  | fuel + 1, s =>
    match s.res.copy with
    | none => (true, s)
    | some c =>
      match s.issueNext c with
      | none => (false, s)
      | some (true, s) => State.issueReads fuel s
      | some (false, s) => (true, s)

/-- The source in use has failed: the ranges that the copy wrote, fully or in part, are poisoned, or wiped for a REBUILD,
and the failure is reported where the spec says so (R658, R659, R670). A failed sync leaves every range without an image
poisoned (R668). -/
def State.failSource (s : State) (c : Copy) (reason : Nat) : State :=
  let chip := c.sources.headD 0
  let s := s.dropCopyReqs
  let s := match c.what with
    | .rebuild => c.wrote.foldl (fun s r => s.zeroRange r.1 r.2) s
    | .block _ => s.quietly (fun s => c.wrote.foldl (fun s r => s.poisonRange r.1 r.2) s)
    | .diverged => c.wrote.foldl (fun s r => s.poisonRange r.1 r.2) s
    | .sync => c.ranges.foldl (fun s r => s.poisonRange r.1 r.2) s.dropLive
  let report (rebuild : Nat) (s : State) : State :=
    (s.count 0 (ctrRes 6) 1).event 0x0903 (chip + reason * 65536 + rebuild * 2 ^ 18) false
  let s := match c.what with
    | .block _ => report 0 s
    | .rebuild => { (report 1 s) with res := { (report 1 s).res with rebBytes := 0, rebSource := c.index + 1 } }
    | .sync | .diverged => s
  s.modCopy (fun c => { c with
    sources := c.sources.tail, index := c.index + 1, phase := 0, waited := 0, image := false, todo := [],
    ranges := if c.what == .rebuild then [] else c.ranges, lists := false, failed := some reason, wrote := [] })

/-- Begin with the source in use: a REBUILD reads its lists first, every other copy the seal. -/
def State.beginSource (s : State) (c : Copy) : Bool × State :=
  if c.what == .rebuild && !c.lists then
    State.issueReads 512 (s.modCopy (fun c => { c with phase := 1, todo := s.listReads }))
  else s.readSeal c 0

/-- Try sources until one can be reached. DEDUCED (log 27). -/
def State.trySources : Nat → State → State
  | 0, s => s
  | fuel + 1, s =>
    match s.res.copy with
    | none => s
    | some c =>
      if c.sources = [] then s.copyExhausted c
      else
        match s.beginSource c with
        | (true, s) => s
        | (false, s) => State.trySources fuel (s.failSource c 1)

/-- The source in use fails with a reason of Table 18.7, and the next is tried. DEDUCED (log 27). -/
def State.copyFail (s : State) (reason : Nat) : State :=
  match s.res.copy with
  | none => s
  | some c => State.trySources (c.sources.length + 1) (s.failSource c reason)

/-- Start a copy. A block copy that it displaces is begun again later. -/
def State.startCopy (s : State) (what : CopyFor) (step : Nat) (sources : List Nat) (ranges : List (Nat × Nat)) : State :=
  let c : Copy := ⟨what, step, sources, 0, 0, 0, false, [], ranges, false, none, []⟩
  State.trySources (sources.length + 1) { s.dropCopyReqs with res := { s.res with copy := some c } }

/-- Start the copy of the first block that waits, when no other copy runs (R659). -/
def State.nextBlock (s : State) : State :=
  match s.res.copy, s.res.blocks with
  | none, (a, step) :: _ => s.startCopy (.block a) step s.twinSources [(a, 65536)]
  | _, _ => s

/-- A block lies wholly in an imaged state range in stack memory (R659). -/
def State.blockOk (s : State) (a : Nat) : Bool :=
  inStack a 65536 && s.imagedRanges.any (fun g => g.1 ≤ a && a + 65536 ≤ g.1 + g.2.1)

/-- Request a copy of the 64 KiB block that holds an address. -/
def State.requestBlock (s : State) (addr step : Nat) : State :=
  let a := addr / 65536 * 65536
  if s.blockOk a && !s.res.blocks.any (fun b => b.1 == a) then
    { s with res := { s.res with blocks := s.res.blocks ++ [(a, step)] } }
  else s

/-- CLEARED of the log entries that a restored block covers, and COPIED of the range entries all of whose blocks are restored (R392,
R431). -/
def State.blockRestored (s : State) (a : Nat) : State :=
  let k := stackOf a
  let s := s.modLogs (2 + k) (fun l => { l with
    ue := l.ue.map (fun e => if e.addr / 65536 * 65536 == a then { e with cleared := true } else e) })
  let s := s.count (stackNode k) (ctrId 11 10 8) 1
  let ue := mget UeState.reset s.ue k
  let done := a :: ue.restored
  let under (e : RangeEntry) : Bool :=
    let first := e.addr / 65536
    (rangeFrom first ((e.addr + 32 * e.sectors - 1) / 65536 + 1 - first)).all (fun b => done.contains (b * 65536))
  { s with ue := mput UeState.reset s.ue k { ue with
      restored := done,
      ranges := ue.ranges.map (fun e => e.map (fun e =>
        if overlap e.addr (32 * e.sectors) a 65536 && under e then { e with copied := true } else e)) } }

/-- The copy of every Open unit of a stack will not be complete. -/
def State.wholeFails (s : State) (k : Nat) : State :=
  { s with ue := mmod UeState.reset s.ue k (fun u => { u with whole := false }) }

/-- The copy of every Open unit of a stack has completed: RANGE_LOST clears (R431). -/
def State.wholeDone (s : State) (k : Nat) : State :=
  let u := mget UeState.reset s.ue k
  if u.whole && !s.res.blocks.any (fun b => stackOf b.1 == k) then
    { s with ue := mput UeState.reset s.ue k { u with whole := false, lost := false } }
  else s

/-- A block copy ends: the block is restored, or every twin has failed and the package enters HOLD (R659). -/
def State.blockDone (s : State) : State :=
  match s.res.copy with
  | some c =>
    match c.what with
    | .block a =>
      if c.phase ≠ 4 then s
      else
        let s := { s with res := { s.res with copy := none, blocks := s.res.blocks.filter (fun b => b.1 != a) } }
        let s := if c.failed.isNone then (s.count 0 (ctrRes 3) 1).blockRestored a
          else (s.wholeFails (stackOf a)).enterHold 4 none
        (s.wholeDone (stackOf a)).nextBlock
    | .sync | .rebuild | .diverged => s
  | none => s.nextBlock

/-- The SHAPE of the lists as they stand (R673). -/
def State.shapeOf (s : State) : Nat :=
  digestRow 0 (s.rawBytes s.listBase (16 * s.listCount) ++ s.rawBytes s.imageBase (8 * s.listCount))

/-- A copy has read everything and the seal still vouches for it. -/
def State.copyOk (s : State) (c : Copy) : State :=
  let ended := s.modCopy (fun c => { c with phase := 4, failed := none })
  match c.what with
  | .block _ | .diverged => ended
  | .sync => ({ s with res := { s.res with copy := none } } : State).setLive c.step |>.nextBlock
  | .rebuild =>
    let s := { s with res := { s.res with
      copy := none, rebuilding := false, rebState := 2, imageValid := false, blocks := [] } }
    ((s.setLive c.step).event 0x0904 (c.sources.headD 0) false).platform 47 s.packageState

/-- After data of a copy has arrived: issue more reads, or, when every READ_DATA has arrived, the last seal read; lists
that have been read give a REBUILD its ranges. -/
def State.copyGoOn (s : State) : State :=
  match State.issueReads 512 s with
  | (false, s) => s.copyFail 1
  | (true, s) =>
    match s.res.copy with
    | none => s
    | some c =>
      if c.todo ≠ [] || s.copyReqs ≠ [] then s
      else if c.what == .rebuild && !c.lists then
        let s := s.readLists
        let s := { s with res := { s.res with shape := s.shapeOf } }
        let s := s.modCopy (fun c => { c with lists := true, ranges := s.stateRanges.map (fun r => (r.1, r.2.1)) })
        match s.readSeal c 0 with
        | (true, s) => s
        | (false, s) => s.copyFail 1
      else
        match s.readSeal c 2 with
        | (true, s) => s
        | (false, s) => s.copyFail 1

/-- The seal of the source has been read (R657). -/
def State.copySeal (s : State) (c : Copy) (phase : Nat) (bs : List Byte) : State :=
  let live := field bs 0 8 = c.step
  let image := field bs 8 8 = c.step
  if phase = 2 then
    if (if c.image then image else live) then s.copyOk c
    else
      let s := s.count 0 (ctrRes 5) 1
      match s.readSeal c 0 with
      | (true, s) => s
      | (false, s) => s.copyFail 1
  else if live || image then
    let s := s.modCopy (fun c => { c with phase := 1, image := !live })
    (s.modCopy (fun c => { c with todo := s.copyReads c })).copyGoOn
  else s.modCopy (fun c => { c with phase := 3 })

/-- READ_DATA of a copy's READ arrives. -/
def State.copyArrive (s : State) (r : Request) (phase : Nat) (payload : List Byte) (poison : List Bool) : State :=
  match s.res.copy with
  | none => s
  | some c =>
    if poison.any id then s.copyFail 0
    else if phase = 1 && s.stackFenced r.addr r.len then s.copyFenced c
    else if phase = 1 then
      let bs := slice payload 0 r.len
      let put (s : State) : State := (s.writeLocal r.addr bs []).2.2
      let s := s.modCopy (fun c => { c with
        wrote := c.ranges.filter (fun g => c.wrote.contains g || (g.1 ≤ r.addr && r.addr < g.1 + g.2)) })
      let s := match c.what with
        | .block _ => s.quietly put
        | .sync | .rebuild | .diverged => put s
      let counts := match c.what with | .rebuild => c.lists | .sync => true | .block _ | .diverged => false
      let s := if counts then s.count 0 (ctrRes 7) ((r.len + 4095) / 4096) else s
      let s := if c.what == .rebuild && c.lists then
          { s with res := { s.res with rebBytes := s.res.rebBytes + r.len } } else s
      s.copyGoOn
    else s.copySeal c phase payload

/-- The source's seal did not name the step: 65 536 beats have gone by (R657). -/
def State.copyWait (s : State) : State :=
  match s.res.copy with
  | none => s
  | some c =>
    if c.phase ≠ 3 then s
    else
      let waited := c.waited + 65536
      let s := (s.count 0 (ctrRes 4) 1).modCopy (fun c => { c with waited := waited })
      if 4096 * max 1 (bits (s.regs.eff regRsCtl 0) 31 16) ≤ waited then s.copyFail 2
      else
        match s.readSeal c 0 with
        | (true, s) => s
        | (false, s) => s.copyFail 1

/-! ### Restoring from the image (R661, R662) -/

/-- Restore every imaged range from its image, in list order, and name the blocks of which a granule was read poisoned
(R661 steps 3 and 4). -/
def State.restoreImages (s : State) : List Nat × State :=
  let s := s.dropLive.readLists
  s.imagedRanges.foldl (fun (acc : List Nat × State) r =>
    let x := acc.2.readLocal r.2.2 r.2.1
    let blocks := ((List.range (r.2.1 / 65536)).filter (fun b => ((x.2.1.drop (65536 * b)).take 65536).any id)).map
      (fun b => r.1 + 65536 * b)
    (acc.1 ++ blocks, (x.2.2.writeLocal r.1 x.1 x.2.1).2.2)) ([], s)

/-- Restore the image and request copies of the blocks that could not be read, for a step. -/
def State.restoreFor (s : State) (step : Nat) : State :=
  let r := s.restoreImages
  r.1.foldl (fun s a => s.requestBlock a step) r.2

/-- A restore for a step begins, by a RECOVER or by part 8 of a boundary: LIVE_STEP is invalid meanwhile (R661 step 3). -/
def State.startRestore (s : State) (step : Nat) (back : Bool) : State :=
  let s := s.dropLive.readLists
  { s with res := { s.res with restoring := some (step, back) } }

/-- The image holds a step. -/
def State.imageIs (s : State) (step : Nat) : Bool := s.res.imageValid && s.res.img = step

/-! ### Commands (R667 to R673) -/

/-- Argument n of RS_ARG. -/
def State.rsArg (s : State) (n : Nat) : Nat := s.regs.shadow (regRsArg n) 0

/-- RS_STATUS.CMD_BUSY: a command still runs. -/
def State.cmdBusy (s : State) : Bool :=
  s.res.restoring.any (fun r => !r.2) || (match s.res.copy with
    | some c => c.what == .sync || c.what == .rebuild
    | none => false)

/-- RS_CMD (Table 18.8). -/
def regRsCmd : Nat := 0x4040

/-- Run a command, unless one runs already (R667); `held` commands are accepted only in HOLD. -/
def State.rsCommand (s : State) (held : Bool) (f : State → State) : State :=
  if s.cmdBusy then s.clamp (.register regRsCmd) 1
  else if held && !s.res.hold then { s with res := { s.res with cmdErr := 1 } }
  else f { s with res := { s.res with cmdErr := 0 } }

/-- The target step of a command. -/
def State.rsStep (s : State) : Nat := s.rsArg 0 + s.rsArg 1 * 2 ^ 32

/-- The end of a RECOVER whose live state holds step n: sync the ranges that have no image from another chip (R668). -/
def State.recoverSync (s : State) (n : Nat) : State :=
  let chip := s.rsArg 2 % 32768
  if chip = s.chipId || s.plainRanges = [] then (s.setLive n).nextBlock
  else s.startCopy .sync n [chip] s.plainRanges

/-- The restore of a RECOVER goes on: it runs once no stack of it waits (R22, R373, R377). One that meets a FAILED or TEST stack ends with
CMD_ERR 2. DESIGN CHOICE (log 27). -/
def State.recoverOn (s : State) : State :=
  match s.res.restoring with
  | some (n, false) =>
    if s.imagesFenced then { s with res := { s.res with restoring := none, cmdErr := 2 } }
    else if s.imagesWait then s
    else (({ s with res := { s.res with restoring := none } } : State).restoreFor n).recoverSync n
  | _ => s

/-- RECOVER (R668). DEDUCED (log 27). -/
def State.recover (s : State) : State :=
  let n := s.rsStep
  let s := s.readLists
  if s.res.liveValid && s.res.cut = n then s.recoverSync n
  else if s.res.pending && s.res.cut = n then (s.setLive n).recoverSync n
  else if s.imageIs n && !s.imagesFenced then (s.startRestore n false).recoverOn
  else { s with res := { s.res with cmdErr := 2 } }

/-- RECOVER. -/
def execRecover (s : State) : Host.Outcome State Fault Refusal := .next (s.onWrite (fun s => s.rsCommand true State.recover))

/-- REBUILD (R669): its valid sources in order. DEDUCED (log 27). -/
def State.rebuild (s : State) : State :=
  let src (n : Nat) : List Nat :=
    let w := s.rsArg (2 + n / 2) / 2 ^ (16 * (n % 2)) % 65536
    if bit w 15 then [w % 32768] else []
  let s := { s.dropLive with res := { s.dropLive.res with
    rebuilding := true, rebState := 1, rebSource := 0, rebBytes := 0 } }
  (s.platform 47 2).startCopy .rebuild s.rsStep ((List.range 4).flatMap src) []

/-- REBUILD. -/
def execRebuild (s : State) : Host.Outcome State Fault Refusal := .next (s.onWrite (fun s => s.rsCommand true State.rebuild))

/-- ADOPT (R671). -/
def State.adopt (s : State) : State :=
  let shape := s.rsArg 2 + s.rsArg 3 * 2 ^ 32
  if shape ≠ 0 && shape ≠ s.res.shape then { s with res := { s.res with cmdErr := 4 } }
  else ({ s with res := { s.res with imageValid := false } } : State).setLive s.rsStep

/-- ADOPT. -/
def execAdopt (s : State) : Host.Outcome State Fault Refusal := .next (s.onWrite (fun s => s.rsCommand true State.adopt))

/-- Every accepted descriptor that has not been dispatched completes with ABORTED (R672), in order of acceptance. -/
def State.flush (s : State) : State :=
  let waiting := s.host.slots.filterMap (fun kv => match kv.2 with
    | some sl => if sl.phase == .waiting then some (sl.born, kv.1) else none
    | none => none)
  (waiting.mergeSort (fun a b => a.1 ≤ b.1)).foldl (fun s k => s.reject k.2 .aborted) s

/-- RESUME (R672). DEDUCED (log 27). -/
def State.resume (s : State) : State :=
  if !s.res.liveValid then { s with res := { s.res with cmdErr := 2 } }
  else
    let s := if bit (s.rsArg 2) 0 then s.flush else s
    ({ s with res := { s.res with hold := false, cause := 0, decided := 0 } } : State).startImage.tellState s

/-- RESUME. -/
def execResume (s : State) : Host.Outcome State Fault Refusal := .next (s.onWrite (fun s => s.rsCommand false State.resume))

/-- HOLD. -/
def execHold (s : State) : Host.Outcome State Fault Refusal := .next (s.onWrite (fun s => s.rsCommand false (fun s => s.enterHold 7 none)))

/-- BLOCK_COPY_COMPLETE: a block copied from a twin is restored, or no twin could serve it. -/
def execBlockCopyComplete (s : State) : Host.Outcome State Fault Refusal :=
  .next (if s.nodesStopped then s else s.blockDone)

/-- COPY_SEAL_WAIT. -/
def execCopySealWait (s : State) : Host.Outcome State Fault Refusal :=
  .next (if s.nodesStopped || s.timersPaused then s else s.copyWait)

end Sys2Proof.Machine
end

