-- ==== Sys2Proof/Machine/Update.lean ====
section
/-! DEFINITION. The update engines of the base dies: UPDATE with its built-in rules, rule programs, row maxima and
narrow copy, NEARVEC, and the poisoned-range list (chapter 12: R397 to R438). -/

namespace Sys2Proof.Machine

/-- Counters of Table 12.11 by position. -/
def ctrUe (n : Nat) : Nat := ctrId 12 11 n

/-- A format field that names BF16 or FP32 (Tables 12.3 and 12.7): any other code is read as FP32 with a clamp. -/
def readUeFmt (code : Nat) : Fmt × Nat :=
  if code % 16 = 9 then (.bf16, 0) else if code % 16 = 10 then (.fp32, 0) else (.fp32, 1)

/-! ### The poisoned-range list (R430, R431, R437) -/

/-- Update engines of a stack. -/
def State.ueOf (s : State) (k : Nat) : UeState := mget UeState.reset s.ue k

/-- Change the update engines of a stack. -/
def State.modUe (s : State) (k : Nat) (f : UeState → UeState) : State :=
  { s with ue := mmod UeState.reset s.ue k f }

/-- A range adjoins or overlaps an entry. -/
def RangeEntry.meets (e : RangeEntry) (a n : Nat) : Bool := a ≤ e.addr + 32 * e.sectors && e.addr ≤ a + 32 * n

/-- An entry grown to hold a range. What is newly poisoned has not been copied. -/
def RangeEntry.grow (e : RangeEntry) (a n : Nat) (nearvec : Bool) : RangeEntry :=
  let lo := min e.addr a
  let hi := max (e.addr + 32 * e.sectors) (a + 32 * n)
  ⟨lo, false, e.nearvec || nearvec, (hi - lo) / 32, e.time⟩

/-- The place of the first entry that satisfies a test. -/
def findRange (p : Option RangeEntry → Bool) (l : List (Option RangeEntry)) : Option Nat :=
  (List.range l.length).find? (fun i => p (l.getD i none))

/-- Enter a range of n sectors at `a` (R430): merged where it adjoins or overlaps an entry, else in the lowest free
entry, else lost. Its blocks are restored no more. DEDUCED (log 20). -/
def State.addRange (s : State) (k a n : Nat) (nearvec : Bool) : State :=
  let s := s.modUe k (fun u => { u with restored := u.restored.filter (fun b => !overlap a (32 * n) b 65536) })
  let l := (s.ueOf k).ranges
  match findRange (fun e => match e with | some e => e.meets a n | none => false) l with
  | some i => s.modUe k (fun u => { u with ranges := modAt l i (fun e => e.map (fun e => e.grow a n nearvec)) })
  | none =>
    match findRange (fun e => e.isNone) l with
    | some i => s.modUe k (fun u =>
        { u with ranges := setAt l i (some ⟨a, false, nearvec, n, s.time.now % 2 ^ 32⟩) })
    | none => (s.modUe k (fun u => { u with lost := true })).count (stackNode k) (ctrUe 9) 1

/-- Runs of adjoining sectors: base and number. -/
def sectorRuns : List (Nat × Bool) → List (Nat × Nat)
  | [] => []
  | (a, _) :: rest =>
    match sectorRuns rest with
    | (b, n) :: more => if b = a + 32 then (a, n + 1) :: more else (a, 1) :: (b, n) :: more
    | [] => [(a, 1)]

/-- Enter the sectors that a descriptor wrote poisoned, run by run. -/
def State.addRanges (s : State) (k : Nat) (secs : List (Nat × Bool)) (nearvec : Bool) : State :=
  (sectorRuns secs).foldl (fun s r => s.addRange k r.1 r.2 nearvec) s

/-- The 16 bytes of an entry (Table 12.9); zeros for a free one. -/
def rangeBytes : Option RangeEntry → List Byte
  | none => List.replicate 16 0
  | some e => natLe 6 e.addr ++ natLe 1 (1 + 2 * b2n e.copied + 4 * b2n e.nearvec) ++ [0]
      ++ natLe 4 (sat 32 e.sectors) ++ natLe 4 e.time

/-- RANGE_SEL latches an entry (R437). -/
def State.rangeSel (s : State) (k v : Nat) : State :=
  let s := { s with regs := s.regs.write (regRangeSel k) 0 (BitVec.ofNat 32 v) }
  s.modUe k (fun u => { u with data := rangeBytes (u.ranges.getD (v % 16) none) })

/-- RANGE_SEL. -/
def execRangeSel (stack value : Nat) (s : State) : Host.Outcome State Fault Refusal :=
  .next (s.onWrite (fun s => s.rangeSel (stack % 8) value))

/-- RANGE_CLEAR.ALL frees every entry and clears RANGE_LOST (R437). -/
def State.rangeClear (s : State) (k : Nat) : State :=
  s.modUe k (fun u => { u with ranges := List.replicate 16 none, lost := false, whole := false })

/-- RANGE_CLEAR. -/
def execRangeClear (stack : Nat) (s : State) : Host.Outcome State Fault Refusal := .next (s.onWrite (fun s => s.rangeClear (stack % 8)))

/-! ### Placing the work (R399, R400, R422, R432) -/

/-- Whether the node a descriptor is aimed at serves a stack (R400). -/
def State.aimsAt (s : State) (id k : Nat) : Bool :=
  match s.placeOf id with
  | some .root => true
  | some (.die d) => k / 4 = d
  | some (.stack t) => t = k
  | some (.updateEngine t _) => t = k
  | some (.quadrant _ _) | some (.cluster _ _ _) | some (.vectorEngine _ _ _) | some (.mover _ _ _ _)
  | some (.cellGroup _) | some (.cell _ _) | none => false

/-- A range lies wholly in one stack; an empty one does. -/
def inOneStack (k a n : Nat) : Bool := n = 0 || (inStack a n && stackOf a = k && stackOf (a + n - 1) = k)

/-- A range touches a sector of a Sealed unit. -/
def State.touchesSealed (s : State) (a n : Nat) : Bool :=
  n ≠ 0 && (rangeFrom (regionUnit a) (regionUnit (a + n - 1) + 1 - regionUnit a)).any
    (fun g => !s.unitOpen (stackOf a) g)

/-- What stands in the way of a descriptor's ranges, if anything (R399, R422, R432). -/
inductive UeBar where
  | abort | fenced | sealed | waits
deriving DecidableEq, Repr

/-- Judge the ranges that a descriptor of a stack names. DEDUCED (log 11). -/
def State.ueBar (s : State) (k : Nat) (rs : List (Nat × Nat)) : Option UeBar :=
  if !rs.all (fun r => inOneStack k r.1 r.2) then some .abort
  else if rs.any (fun r => s.stackFenced r.1 r.2) then some .fenced
  else if rs.any (fun r => s.touchesSealed r.1 r.2) then some .sealed
  else if rs.any (fun r => s.stackWaits r.1 r.2) then some .waits
  else none

/-- NODE and completion of a descriptor of a stack: the root names the die and the die the stack node that it handed
the work to, a stack node the lowest engine that reported, an engine itself (R40). -/
def State.ueFinish (s : State) (slot k : Nat) (st : Status) (value : Nat) : State :=
  match s.slot slot with
  | none => s
  | some sl =>
    match s.placeOf (targetOf sl.desc) with
    | some .root => s.complete slot st (dieNode (k / 4)) value
    | some (.die _) => s.complete slot st (stackNode k) value
    | _ => s.finish slot 5 st value

/-- A descriptor that the spec ends before it starts (R399, R362). -/
def State.ueAbort (s : State) (slot : Nat) (sl : Slot) : State := (s.clamp sl.source 1).finish slot 5 .aborted 0

/-- The node whose engines run a descriptor of a stack: an engine runs its own work, else the stack node divides it (R400, R401). -/
def State.ueDivider (s : State) (id k : Nat) : Nat :=
  match s.placeOf id with
  | some (.updateEngine _ _) => id
  | _ => stackNode k

/-- What a bar does to a descriptor, whose fields so far have earned `clamps`. One that waits is judged again later. -/
def State.ueStop (s : State) (slot k : Nat) (sl : Slot) (clamps : Nat) (b : UeBar) : State :=
  match b with
  | .abort => (s.clamp sl.source clamps).ueAbort slot sl
  | .fenced => (s.clamp sl.source clamps).ueFinish slot k .fenced 0
  | .sealed => ((s.clamp sl.source clamps).count (stackNode k) (ctrId 11 10 11) 1).ueFinish slot k .sealed 0
  | .waits => s.freeze slot sl.leaves

/-! ### What a descriptor writes -/

/-- What a piece of an UPDATE or NEARVEC has done: the descriptor's place in acceptance order, sectors written poisoned, partial writes
that met poison, elements poisoned, elements skipped. -/
structure UeRun where
  owner : Nat
  secs : List (Nat × Bool)
  kept : Bool
  poisoned : Nat
  skipped : Nat
deriving DecidableEq, Repr

/-- Nothing yet. -/
def UeRun.start (owner : Nat) : UeRun := ⟨owner, [], false, 0, 0⟩

/-- What two pieces did together. -/
def UeRun.join (a b : UeRun) : UeRun :=
  ⟨a.owner, b.secs.foldl (fun m e => mput false m e.1 e.2) a.secs, a.kept || b.kept, a.poisoned + b.poisoned,
    a.skipped + b.skipped⟩

/-- The status of a piece (Table 12.10). -/
def UeRun.status (r : UeRun) : Status := if r.poisoned ≠ 0 || r.kept then .poison else .ok

/-- Write bytes with poison by byte and note the sectors written poisoned: by their own bytes, or by a partial write that met poison and
stored the mark again (R333, R428, R430). The write enters the base die's write buffer (R424). -/
def State.ueWrite (s : State) (r : UeRun) (a : Nat) (bs : List Byte) (ps : List Bool) : UeRun × State :=
  let kept := s.mem.buffered
  let olds := s.sectorsOf r.owner a bs.length
  let (bad, s) := s.memWriteP a bs ps
  let s := s.buffer (stackOf a) kept olds
  let secs := (unitsOf a bs.length).foldl (fun m u =>
    let off := u.1 + u.2.1 - a
    if ((ps.drop off).take u.2.2).any id || (bad && decide (u.2.2 < 32) && s.poisonedAs (s.isOpen u.1) u.1) then mput false m u.1 true
    else m) r.secs
  ({ r with secs := secs, kept := r.kept || bad }, s)

/-- Write bytes that are poisoned as a whole or not at all. -/
def State.ueWriteAll (s : State) (r : UeRun) (a : Nat) (bs : List Byte) (p : Bool) : UeRun × State :=
  s.ueWrite r a bs (List.replicate bs.length p)

/-- Write every sector that a range touches as zero with the poison mark (R429). -/
def State.uePoisonOut (s : State) (r : UeRun) (a n : Nat) : UeRun × State :=
  if n = 0 then (r, s)
  else
    let lo := unitBase a
    let hi := unitBase (a + n - 1) + 32
    s.ueWriteAll r lo (List.replicate (hi - lo) 0) true

/-! ### Pieces of the engines (R398, R401, R423, R432) -/

/-- What stands in the way of one row or element of work that has begun (R373, R377, R423, R432). -/
def State.partBar (s : State) (rs : List (Nat × Nat)) : Option UeBar :=
  if rs.any (fun r => s.stackFenced r.1 r.2) then some .fenced
  else if rs.any (fun r => s.touchesSealed r.1 r.2) then some .sealed
  else if rs.any (fun r => s.stackStalls r.1 r.2) then some .waits
  else none

/-- The parts of some work that are dealt with now: the parts to run, each with its engine and whether all of it runs, in descending
order; the engines that stop, each with its reason; how many parts have been dealt with; and an engine that waits. -/
structure UePlan where
  parts : List (Nat × Nat × Bool)
  stops : List (Nat × Status)
  done : Nat
  waits : Option Nat
deriving DecidableEq, Repr

/-- Plan parts in ascending order: an engine that meets a Sealed unit or a stack that serves nothing stops there and takes no later part
(R423, R432), and a part that waits on its handshake holds up what follows it. DESIGN CHOICE (log 3). -/
def uePlan (leaf : Nat → Nat) (bar : Nat → Option UeBar) (old : List Nat) : List Nat → UePlan → UePlan
  | [], p => p
  | i :: rest, p =>
    let l := leaf i
    if old.contains l || p.stops.any (fun x => x.1 == l) then uePlan leaf bar old rest { p with done := i + 1 }
    else
      match bar i with
      | some .waits => { p with waits := some l }
      | some .fenced => uePlan leaf bar old rest { p with stops := (l, .fenced) :: p.stops, done := i + 1 }
      | some .sealed =>
        uePlan leaf bar old rest { p with parts := (i, l, false) :: p.parts, stops := (l, .sealed) :: p.stops, done := i + 1 }
      | some .abort | none => uePlan leaf bar old rest { p with parts := (i, l, true) :: p.parts, done := i + 1 }

/-- Runs of adjoining parts of one engine: engine, first part, number of parts. -/
def partRuns : List (Nat × Nat × Bool) → List (Nat × Nat × Nat)
  | [] => []
  | (i, l, _) :: rest =>
    match partRuns rest with
    | (m, j, n) :: more => if m = l && j = i + 1 then (l, i, n + 1) :: more else (l, i, 1) :: (m, j, n) :: more
    | [] => [(l, i, 1)]

/-- The engines have dealt with every row or element: the descriptor completes with the report of its pieces (R40, Table 12.10). An
exception comes after its stores have left the buffer (R794). DEDUCED (log 53). -/
def State.ueEnd (s : State) (slot k : Nat) (sl : Slot) (p : UeProgress) : State :=
  let s := if sl.fails = [] then s else s.drained (fun a => stackOf a == k)
  s.finishReport slot 5 sl.pieces (fun st => if st = .poison then p.poisoned else if st = .ok then p.skipped else 0)

/-- Deal with up to `amount` more rows or elements of a descriptor of a stack: `bar` judges a part, and `run` runs the parts of a plan,
each engine's work with what it did. -/
def State.ueGo (s : State) (slot k amount : Nat) (sl : Slot) (p : UeProgress) (nearvec : Bool) (bar : Nat → Option UeBar)
    (run : List (Nat × Nat × Bool) → State → List (Nat × UeRun) × State) : State :=
  let id := targetOf sl.desc
  let pieces := piecesOf (s.workers sl.barred .updateEngine (s.ueDivider id k)) p.total
  let plan := uePlan (leafAt pieces) bar p.stopped (rangeFrom p.done (min amount (p.total - p.done))) ⟨[], [], p.done, none⟩
  let (rs, s) := run plan.parts.reverse s
  let all := rs.foldl (fun r x => r.join x.2) (UeRun.start sl.born)
  let p := { p with
    done := plan.done, stopped := p.stopped ++ plan.stops.map (·.1), poisoned := p.poisoned + all.poisoned,
    skipped := p.skipped + all.skipped }
  let ends := (rs.filter (fun x => x.2.status = .poison)).map (fun x => (x.1, Status.poison)) ++ plan.stops
  let s := (s.addRanges k all.secs nearvec).modSlot slot (fun sl =>
    ends.foldl (fun sl x => sl.note x.2 x.1 (s.childOf id x.1) 0) { sl with engines := some p, begun := true })
  match plan.waits, s.slot slot with
  | some l, _ => s.freeze slot [l]
  | none, some sl => if p.done < p.total then s.thaw slot else s.ueEnd slot k sl p
  | none, none => s

/-! ### Arithmetic of the rules (R405) -/

/-- FMA: a × b + c, one rounding. -/
def ffma (a b c : Value) : Value := roundFp32 ((a.times b).add c)
/-- FNMA: c − a × b, one rounding. -/
def ffnma (a b c : Value) : Value := roundFp32 (c.sub (a.times b))
/-- SQRT, correctly rounded. -/
def fsqrt (a : Value) : Value := (fnSqrt encFp32 a).fp32

/-- CLAMP(x, c) is min(max(x, −abs(c)), abs(c)) under R87; +∞ or NaN leaves x. -/
def ueClamp (x c : Value) : Value :=
  match c with
  | .nan | .inf false => x
  | .fin _ _ | .inf true => (x.max2 c.abs.negate).min2 c.abs

/-- SIGN(c): −1, +1, or c itself when it is ±0 or NaN. -/
def ueSign (c : Value) : Value :=
  match c with
  | .nan => .nan
  | .inf n => .signed n 1
  | .fin r z => if r = 0 then .fin r z else .signed (r < 0) 1

/-! ### The update record (Tables 12.2 and 12.3) -/

/-- An UPDATE as its engine reads it. -/
structure UpdArgs where
  rule : Nat
  p : Nat
  g : Nat
  m : Nat
  v : Nat
  c : Nat
  max : Nat
  code : Nat
  rrec : Nat
  side : Nat
  map : Option Nat
  rowLen : Nat
  trows : Nat
  gFmt : Fmt
  mFmt : Fmt
  vFmt : Fmt
  mRnd : Rnd
  vRnd : Rnd
  cRnd : Rnd
  nRnd : Rnd
  nFmt : Fmt
  ratio : Nat
  pitch : Nat
  writeC : Bool
  writeMax : Bool
  narrow : Bool
  skip : Bool
  nesterov : Bool
  prog : Nat
  key : Nat
  origin : Nat
  h : List Value
  lr : Value
  bc1 : Value
  bc2 : Value
  aux : Value
  stream : Nat
  /-- A pitch below what NFMT needs is read as that need. -/
  pitchRaised : Bool
deriving DecidableEq, Repr

/-- C_RND: 0b01 and 0b11 are read as nearest-even. -/
def readCRnd (code : Nat) : Rnd × Nat :=
  match code % 4 with
  | 0 => (.nearest, 0)
  | 2 => (.towardZero, 0)
  | _ => (.nearest, 1)

/-- Read the fields of an UPDATE and its record (R404, Table 12.3). Every field is read, and its illegal value clamped, whether or not
the rule and the outputs use it; a code pitch below what NFMT needs is judged where the narrow copy is written (R416). -/
def readUpdate (d r : List Byte) : UpdArgs × Nat :=
  let rule := field d 14 1 % 4
  let outs := field r 73 1
  let rnds := field r 70 1
  let nar := field r 71 1
  let fmts := field r 68 2
  let rowLen := field r 60 4 % 2 ^ 20 + 1
  let narrow := bit outs 2 && rowLen ≤ 65536
  let (gf, c0) := readUeFmt (bits fmts 3 0)
  let (mf, c1) := readUeFmt (bits fmts 7 4)
  let (vf, c2) := readUeFmt (bits fmts 11 8)
  let (mr, c3) := readRnd (bits rnds 1 0)
  let (vr, c4) := readRnd (bits rnds 3 2)
  let (cr, c5) := readCRnd (bits rnds 5 4)
  let (nr, c6) := readRnd (bits rnds 7 6)
  let (nf, c7) := readArrayFmt (nar % 16)
  let (pitch, c8) := readPitch (field r 72 1)
  let need := blockNeed nf
  (⟨rule, addr48 r 0, addr48 r 6, addr48 r 12, addr48 r 18, addr48 r 24, addr48 r 30, addr48 r 36, addr48 r 42,
    addr48 r 48, if bit nar 4 then some (addr48 r 54) else none, rowLen, field r 64 4 % 2 ^ 20 + 1, gf, mf, vf, mr, vr,
    cr, nr, nf, min 6 (bits nar 7 5), max pitch need, bit outs 0, bit outs 1, narrow, bit outs 3, bit outs 4,
    addr48 r 74, field r 80 8, field r 88 8, (List.range 8).map (fun n => fp32Value (field r (96 + 4 * n) 4)),
    fp32Value (field d 24 4), fp32Value (field d 28 4), fp32Value (field d 32 4), fp32Value (field d 36 4),
    field d 40 4, narrow && pitch < need⟩,
   c0 + c1 + c2 + c3 + c4 + c5 + c6 + c7 + c8 + b2n (bits nar 7 5 = 7) + b2n (bit outs 2 && !narrow)
    + b2n (narrow && pitch < need))

/-- Column blocks of the narrow copy. -/
def UpdArgs.nc (a : UpdArgs) : Nat := (a.rowLen + 127) / 128

/-! ### Rule programs (R409 to R413) -/

/-- One operation of a rule program. -/
structure UeOp where
  op : Nat
  d : Nat
  a : Nat
  b : Nat
  c : Nat
deriving DecidableEq, Repr

/-- The operations of a program block, and its clamps (R409, R413): its length, and each reserved operation, operand
code, bit field and STORE output. -/
def readProgram (pb : List Byte) : List UeOp × Nat :=
  let n := field pb 0 1
  let bad := n = 0 || 64 < n
  let ws := (List.range (if bad then 64 else n)).map (fun j => field pb (32 + 4 * j) 4)
  (ws.map (fun w => ⟨bits w 31 26, bits w 25 22, bits w 21 16, bits w 15 10, bits w 9 4⟩),
   ws.foldl (fun acc w =>
     let op := bits w 31 26
     acc + b2n (0x14 < op) + b2n (0x27 < bits w 21 16) + b2n (0x27 < bits w 15 10) + b2n (0x27 < bits w 9 4)
       + b2n (w % 16 ≠ 0) + b2n (op = 0x14 && 3 < bits w 25 22)) (b2n bad))

/-- Operands that an operation reads. -/
def UeOp.reads (o : UeOp) : List Nat :=
  match o.op with
  | 0x01 | 0x02 | 0x03 | 0x06 | 0x09 | 0x0A | 0x0E => [o.a, o.b]
  | 0x04 | 0x05 | 0x0F => [o.a, o.b, o.c]
  | 0x07 | 0x08 | 0x0B | 0x0C | 0x0D | 0x10 | 0x11 | 0x12 | 0x13 | 0x14 => [o.a]
  | _ => []

/-- A program reads an operand. -/
def progReads (ops : List UeOp) (code : Nat) : Bool := ops.any (fun o => o.reads.contains code)

/-- A program stores to an output. -/
def progStores (ops : List UeOp) (out : Nat) : Bool := ops.any (fun o => o.op = 0x14 && o.d % 4 = out)

/-- A program can skip an element. -/
def progSkips (ops : List UeOp) : Bool := ops.any (fun o => o.op = 0x13)

/-- The result of an arithmetic operation of Table 12.6; `none` for the others. -/
def UeOp.result (o : UeOp) (a b c : Value) : Option Value :=
  match o.op with
  | 0x01 => some (fadd a b)
  | 0x02 => some (fsub a b)
  | 0x03 => some (fmul a b)
  | 0x04 => some (ffma a b c)
  | 0x05 => some (ffnma a b c)
  | 0x06 => some (fdiv a b)
  | 0x07 => some (fsqrt a)
  | 0x08 => some (frsqrt a)
  | 0x09 => some (a.min2 b)
  | 0x0A => some (a.max2 b)
  | 0x0B => some a.abs
  | 0x0C => some a.negate
  | 0x0D => some (ueSign a)
  | 0x0E => some (ueClamp a b)
  | 0x0F => some (match a with
      | .nan => c
      | .inf n => if n then c else b
      | .fin r _ => if 0 < r then b else c)
  | 0x10 => some (fnExp encFp32 a).fp32
  | 0x11 => some (fnLog encFp32 a).fp32
  | 0x12 => some (if a.isFin then .fin 1 false else .zero)
  | _ => none

/-- What an element brings to a rule and takes from it. -/
structure UeElem where
  p : Value
  g : Value
  m : Value
  v : Value
  poison : Bool
deriving DecidableEq, Repr

/-- New values of an element's outputs; `none` leaves the stored bits. -/
structure UeOut where
  p : Option Value
  m : Option Value
  v : Option Value
  /-- The BF16 copy, where a program stores it. -/
  c : Option Value
  skipped : Bool
deriving DecidableEq, Repr

/-- An element that is skipped (R406). -/
def UeOut.skip : UeOut := ⟨none, none, none, none, true⟩

/-- Inputs of one run of a program: constants K0 to K15, the element and its random operand. -/
def ueOperand (ks : List Value) (x : UeElem) (x4 : Value) (ts : List Value) (code : Nat) : Value :=
  if code < 0x10 then ts.getD code .zero
  else if code < 0x20 then ks.getD (code - 0x10) .zero
  else
    match code with
    | 0x20 => x.p
    | 0x21 => x.g
    | 0x22 => x.m
    | 0x23 => x.v
    | 0x24 => x4
    | 0x26 => .fin 1 false
    | 0x27 => .fin (-1) false
    | _ => .zero

/-- Run a program on an element (R411, R412). DEDUCED (log 20). -/
def runProgram (ks : List Value) (x : UeElem) (x4 : Value) : List UeOp → List Value → UeOut → UeOut
  | [], _, out => out
  | o :: rest, ts, out =>
    let rd := ueOperand ks x x4 ts
    let a := rd o.a
    if o.op = 0x13 then
      (match a with
       | .fin r _ => if r = 0 then runProgram ks x x4 rest ts out else UeOut.skip
       | .nan | .inf _ => UeOut.skip)
    else if o.op = 0x14 then
      runProgram ks x x4 rest ts (match o.d % 4 with
        | 0 => { out with p := some a }
        | 1 => { out with m := some a }
        | 2 => { out with v := some a }
        | _ => { out with c := some a })
    else
      match o.result a (rd o.b) (rd o.c) with
      | some y => runProgram ks x x4 rest (setAt ts (o.d % 16) y) out
      | none => runProgram ks x x4 rest ts out

/-- What the built-in rules compute for an element (R405, R406). -/
def UpdArgs.builtin (a : UpdArgs) (x : UeElem) : UeOut :=
  let hy (n : Nat) : Value := a.h.getD n .zero
  let g0 := fmul x.g (hy 0)
  if a.skip && !g0.isFin then UeOut.skip
  else
    let g := ueClamp g0 (hy 1)
    let wd := hy 2
    match a.rule with
    | 0 =>
      let g := ffma wd x.p g
      let m1 := ffma (hy 3) x.m g
      let d := if a.nesterov then ffma (hy 3) m1 g else m1
      ⟨some (ffnma a.lr d x.p), some m1, none, none, false⟩
    | 1 =>
      let m1 := ffma (hy 3) x.m (fmul (hy 4) g)
      let v1 := ffma (hy 5) x.v (fmul (hy 6) (fmul g g))
      let d := fadd (fsqrt (fmul v1 a.bc2)) (hy 7)
      let u := fdiv (fmul m1 a.bc1) d
      ⟨some (ffnma a.lr (ffma wd x.p u) x.p), some m1, some v1, none, false⟩
    | _ =>
      let c := ffma (hy 3) x.m (fmul (hy 4) g)
      ⟨some (ffnma a.lr (ffma wd x.p (ueSign c)) x.p), some (ffma (hy 5) x.m (fmul (hy 6) g)), none, none, false⟩

/-! ### Which arrays a descriptor uses -/

/-- An UPDATE with its program. -/
structure UpdRun where
  a : UpdArgs
  ops : List UeOp
  /-- Constants K0 to K15. -/
  ks : List Value
  engine : Nat
  src : ClampSource
deriving DecidableEq, Repr

/-- G is read. -/
def UpdRun.readsG (u : UpdRun) : Bool := u.a.rule ≠ 3 || progReads u.ops 0x21
/-- M is written. -/
def UpdRun.writesM (u : UpdRun) : Bool := u.a.rule ≠ 3 || progStores u.ops 1
/-- M is read. -/
def UpdRun.readsM (u : UpdRun) : Bool := u.a.rule ≠ 3 || progReads u.ops 0x22
/-- V is written. -/
def UpdRun.writesV (u : UpdRun) : Bool := u.a.rule = 1 || (u.a.rule = 3 && progStores u.ops 2)
/-- V is read. -/
def UpdRun.readsV (u : UpdRun) : Bool := u.a.rule = 1 || (u.a.rule = 3 && progReads u.ops 0x23)
/-- P is written. -/
def UpdRun.writesP (u : UpdRun) : Bool := u.a.rule ≠ 3 || progStores u.ops 0
/-- P is read: by the rule, or because an output is formed from the P of an element that the program leaves without a new one (R406,
R412, R414, R415). DEDUCED (log 20). -/
def UpdRun.readsP (u : UpdRun) : Bool :=
  let keeps := progSkips u.ops || !progStores u.ops 0
  u.a.rule ≠ 3 || progReads u.ops 0x20 || ((u.a.writeMax || u.a.narrow) && keeps) ||
    (u.a.writeC && (progSkips u.ops || (!progStores u.ops 3 && keeps)))

/-- Output arrays by whole tensor or by rows: base and bytes for rows [i, i + n), the code array apart. -/
def UpdRun.outs (u : UpdRun) (i n : Nat) : List (Nat × Nat) :=
  let a := u.a
  let L := a.rowLen
  let arr (base b : Nat) : Nat × Nat := (base + i * L * b, n * L * b)
  (if u.writesP then [arr a.p 4] else []) ++ (if u.writesM then [arr a.m (wideBytes a.mFmt)] else [])
    ++ (if u.writesV then [arr a.v (wideBytes a.vFmt)] else []) ++ (if a.writeC then [arr a.c 2] else [])
    ++ (if a.writeMax then [(a.max + 4 * i, 4 * n)] else [])
    ++ (if a.narrow then [(a.rrec + 8 * i, 8 * n), (a.side + i * a.nc * 24, n * a.nc * 24)] else [])

/-- Every range that the descriptor names and uses, beside its record and program (R399, R416, R422): an address that it neither reads
nor writes takes no part. DEDUCED (log 20). -/
def UpdRun.ranges (u : UpdRun) : List (Nat × Nat) :=
  let a := u.a
  let n := a.trows * a.rowLen
  u.outs 0 a.trows ++ (if u.readsP then [(a.p, 4 * n)] else [])
    ++ (if u.readsG then [(a.g, n * wideBytes a.gFmt)] else [])
    ++ (if u.readsM then [(a.m, n * wideBytes a.mFmt)] else [])
    ++ (if u.readsV then [(a.v, n * wideBytes a.vFmt)] else [])
    ++ (if a.narrow then [(a.code, (a.trows + 127) / 128 * a.nc * a.pitch)] else [])
    ++ (if a.narrow then (match a.map with | some m => [(m, (a.trows + 127) / 128 * a.nc)] | none => []) else [])

/-- Where element c of row i is read and written in the arrays P, G, M, V and C. -/
def UpdRun.elemRanges (u : UpdRun) (i c : Nat) : List (Nat × Nat) :=
  let a := u.a
  let n := i * a.rowLen + c
  let arr (on : Bool) (base b : Nat) : List (Nat × Nat) := if on then [(base + n * b, b)] else []
  arr (u.readsP || u.writesP) a.p 4 ++ arr u.readsG a.g (wideBytes a.gFmt) ++ arr (u.readsM || u.writesM) a.m (wideBytes a.mFmt)
    ++ arr (u.readsV || u.writesV) a.v (wideBytes a.vFmt) ++ arr a.writeC a.c 2

/-- What row i reads and writes, the code rows of its narrow copy among it. -/
def UpdRun.rowRanges (u : UpdRun) (fmts : List (Fmt × Bool)) (i : Nat) : List (Nat × Nat) :=
  let a := u.a
  let arr (on : Bool) (base b : Nat) : List (Nat × Nat) := if on then [(base + i * a.rowLen * b, a.rowLen * b)] else []
  u.outs i 1 ++ arr u.readsP a.p 4 ++ arr u.readsG a.g (wideBytes a.gFmt) ++ arr u.readsM a.m (wideBytes a.mFmt)
    ++ arr u.readsV a.v (wideBytes a.vFmt)
    ++ (if a.narrow then (List.range a.nc).map (fun c =>
        let w := (fmts.getD c (a.nFmt, false)).1.width
        (a.code + (i / 128 * a.nc + c) * a.pitch + i % 128 * 16 * w, 16 * w)) else [])

/-! ### One row -/

/-- Read n elements if they are read at all, else zeros. -/
def State.ueRead (s : State) (on : Bool) (f : Fmt) (a n : Nat) : List (Value × Bool) × State :=
  if on then s.readElems f a n else (List.replicate n (.zero, false), s)

/-- The inputs of the first n elements of row i. DEDUCED (log 20). -/
def State.updInputs (s : State) (u : UpdRun) (i n : Nat) : List UeElem × State :=
  let a := u.a
  let l := a.rowLen
  let (ps, s) := s.ueRead u.readsP Fmt.fp32 (a.p + i * l * 4) n
  let (gs, s) := s.ueRead u.readsG a.gFmt (a.g + i * l * wideBytes a.gFmt) n
  let (ms, s) := s.ueRead u.readsM a.mFmt (a.m + i * l * wideBytes a.mFmt) n
  let (vs, s) := s.ueRead u.readsV a.vFmt (a.v + i * l * wideBytes a.vFmt) n
  ((ps.zip (gs.zip (ms.zip vs))).map (fun x =>
    ⟨x.1.1, x.2.1.1, x.2.2.1.1, x.2.2.2.1, x.1.2 || x.2.1.2 || x.2.2.1.2 || x.2.2.2.2⟩), s)

/-- The result of an element at parameter index n. -/
def UpdRun.elem (u : UpdRun) (x : UeElem) (n : Nat) : UeOut :=
  if u.a.rule = 3 then
    let x4 := if progReads u.ops 0x24 then
        roundFp32 (.ofRat (((squallDraw u.a.key (u.a.stream + 3) n : Rat) + 1 / 2) * pow2 (-24)))
      else .zero
    runProgram u.ks x x4 u.ops (List.replicate 16 .zero) ⟨none, none, none, none, false⟩
  else u.a.builtin x

/-- The draw of a stored element (R407), 0 where the rounding takes none. -/
def UpdArgs.draw (a : UpdArgs) (rnd : Rnd) (extra n : Nat) : Nat :=
  if rnd == .stochastic then squallDraw a.key (a.stream + extra) n else 0

/-- Runs of adjoining elements that are written: first element, and their bytes with their poison. -/
def writtenRuns : Nat → List (Option (List Byte × Bool)) → List (Nat × List Byte × List Bool)
  | _, [] => []
  | c, none :: rest => writtenRuns (c + 1) rest
  | c, some (bs, p) :: rest =>
    match writtenRuns (c + 1) rest with
    | (d, ys, qs) :: more =>
      if d = c + 1 then (c, bs ++ ys, List.replicate bs.length p ++ qs) :: more
      else (c, bs, List.replicate bs.length p) :: (d, ys, qs) :: more
    | [] => [(c, bs, List.replicate bs.length p)]

/-- Write one array of a row: elements with a new value take it; one without a new value is not written (R406, R412), but where its
inputs were poisoned its stored bits are written back with the mark (R428). -/
def State.updStore (s : State) (u : UpdRun) (r : UeRun) (f : Fmt) (rnd : Rnd) (extra base i : Nat)
    (vals : List (Option Value × Bool)) : UeRun × State :=
  let b := wideBytes f
  let start := base + i * u.a.rowLen * b
  let n0 := u.a.origin + i * u.a.rowLen
  let es : List (Option (List Byte × Bool) × Findings) := (vals.zip (List.range vals.length)).map (fun vi =>
    match vi.1.1 with
    | some v =>
      let e : Encoded := encode f rnd false 0 (u.a.draw rnd extra (n0 + vi.2)) v
      (some (natLe b e.code, vi.1.2), if f == Fmt.fp32 then Findings.none else Findings.of e)
    | none => (if vi.1.2 then some (s.rawBytes (start + b * vi.2) b, true) else none, Findings.none))
  let fd := es.foldl (fun g e => g.join e.2) Findings.none
  let s := if rnd == .stochastic && f != .fp32 then s.count u.engine ctrSqEvals (squallEvals n0 vals.length) else s
  (writtenRuns 0 (es.map (·.1))).foldl (fun (acc : UeRun × State) x => acc.2.ueWrite acc.1 (start + b * x.1) x.2.1 x.2.2)
    (r, s.countFindings u.engine fd)

/-- The formats of the narrow copy's blocks in row block R, each with whether its map entry was poisoned, the clamps
of entries (R67, R68), and whether one had to be written in NFMT (R416). -/
def State.updFormats (s : State) (a : UpdArgs) (R : Nat) : List (Fmt × Bool) × Nat × Bool × State :=
  match a.map with
  | none => (List.replicate a.nc (a.nFmt, false), 0, false, s)
  | some m =>
    let (fs, s) := (List.range a.nc).foldl (fun (acc : List ((Fmt × Nat) × Bool) × State) c =>
      let (bs, ps, s) := acc.2.memRead (m + R * a.nc + c) 1
      (acc.1 ++ [(readArrayFmt (leNat bs % 16), anyP ps)], s)) ([], s)
    (fs.map (fun x => (if a.pitch < blockNeed x.1.1 then a.nFmt else x.1.1, x.2)),
     fs.foldl (fun n f => n + f.1.2) 0, fs.any (fun f => a.pitch < blockNeed f.1.1), s)

/-- QUANT's view of the narrow copy: what its group encoder needs. -/
def UpdArgs.quant (a : UpdArgs) : QuantArgs :=
  ⟨0, 0, 0, a.code, a.rrec, a.side, .fp32, false, false, 0, none, false, a.nFmt, none, 0, a.ratio, false, a.nRnd, a.pitch,
   a.trows, a.rowLen, 0, ⟨a.key, a.stream + 2, a.origin⟩, 0, 0⟩

/-- Row i of the narrow copy (R415 to R417): `news` are the row's new P values and `p` its poison. -/
def State.updNarrow (s : State) (u : UpdRun) (r : UeRun) (fmts : List (Fmt × Bool)) (i : Nat) (news : List Value)
    (p : Bool) : UeRun × State :=
  let a := u.a
  let q := a.quant
  let n0 := a.origin + i * a.rowLen
  let sc := rowScale (statOf news).finmax (scaleFmt (fmts.map (·.1))) a.ratio
  let ts := news.map (fun v => some (v.divScale sc)) ++ List.replicate (128 * a.nc - news.length) none
  let s := if a.nRnd == .stochastic then s.count u.engine ctrSqEvals (squallEvals n0 a.rowLen) else s
  let (r, nan, fd, s) := (List.range a.nc).foldl (fun (acc : UeRun × Bool × Findings × State) c =>
    let (r, nan, fd, s) := acc
    let f := (fmts.getD c (a.nFmt, false)).1
    let g := q.group f false 0 (n0 + 128 * c) ((ts.drop (128 * c)).take 128)
    let s := ((s.count u.engine (ctrUe 6) g.escaped).count u.engine (ctrUe 7) g.excess).countFindings
      u.engine g.findings
    let (r, s) := s.ueWriteAll r (a.code + (i / 128 * a.nc + c) * a.pitch + i % 128 * 16 * f.width)
      (packRow f.width g.codes) p
    let (r, s) := s.ueWriteAll r (a.side + (i * a.nc + c) * 24) (sideSlot g.entries) p
    (r, nan || g.rowNan, fd.join g.findings, s)) (r, false, Findings.none, s)
  let s := (s.count u.engine (ctrId 3 12 2) (b2n nan)).count u.engine (ctrUe 5) 1
  let scb := if nan then Fmt.nanCode .fp32 else toFp32 (.ofRat sc)
  s.ueWriteAll r (a.rrec + 8 * i) (natLe 4 scb ++ [0] ++ natLe 1 (fd.flags ||| b2n nan) ++ [0, 0]) p

/-- One row of an UPDATE (R405 to R418, R428), from inputs already read; `whole` is false where the row has stopped before its end, and
then it has no outputs of the row (R423). -/
def State.updRow (s : State) (u : UpdRun) (r : UeRun) (fmts : List (Fmt × Bool)) (i : Nat) (whole : Bool) (xs : List UeElem) :
    UeRun × State :=
  let a := u.a
  let n0 := a.origin + i * a.rowLen
  let poisonAt (c : Nat) (x : UeElem) : Bool := x.poison || (a.narrow && (fmts.getD (c / 128) (a.nFmt, false)).2)
  let outs := (xs.zip (List.range xs.length)).map (fun (x : UeElem × Nat) =>
    (x.1, u.elem x.1 (n0 + x.2), poisonAt x.2 x.1))
  let news := outs.map (fun o => o.2.1.p.getD o.1.p)
  let pois := (outs.filter (fun o => o.2.2)).length
  let skips := (outs.filter (fun o => o.2.1.skipped)).length
  let bad := (outs.filter (fun o => match o.2.1.p with | some v => !v.isFin | none => false)).length
  let s := ((((s.count u.engine (ctrUe 0) xs.length).count u.engine (ctrUe 3) skips).count u.engine (ctrUe 4)
    bad).count u.engine (ctrUe 8) pois)
  let s := if a.rule = 3 && progReads u.ops 0x24 then s.count u.engine ctrSqEvals (squallEvals n0 xs.length) else s
  let rowP := pois ≠ 0
  let (r, s) := if u.writesP then s.updStore u r .fp32 .nearest 0 a.p i (outs.map (fun o => (o.2.1.p, o.2.2)))
    else (r, s)
  let (r, s) := if u.writesM then s.updStore u r a.mFmt a.mRnd 0 a.m i (outs.map (fun o => (o.2.1.m, o.2.2)))
    else (r, s)
  let (r, s) := if u.writesV then s.updStore u r a.vFmt a.vRnd 1 a.v i (outs.map (fun o => (o.2.1.v, o.2.2)))
    else (r, s)
  let (r, s) := if a.writeC then s.updStore u r .bf16 a.cRnd 0 a.c i
      ((outs.zip news).map (fun o => (some (o.1.2.1.c.getD o.2), o.1.2.2))) else (r, s)
  let (r, s) := if a.writeMax && whole then s.ueWriteAll r (a.max + 4 * i) (natLe 4 (toFp32 (statOf news).maxabs)) rowP
    else (r, s)
  let (r, s) := if a.narrow && whole then s.updNarrow u r fmts i news rowP else (r, s)
  ({ r with poisoned := r.poisoned + pois, skipped := r.skipped + skips }, s)

/-- Formats of the narrow copy by row block: the blocks that rows [i0, i0 + n) touch, each map entry read once (R416). -/
def State.updAllFormats (s : State) (u : UpdRun) (i0 n : Nat) : List (Nat × List (Fmt × Bool)) × State :=
  let a := u.a
  if !a.narrow then ([], s)
  else
    let (fmts, clamps, wide, s) := (rangeFrom (i0 / 128) ((i0 + n - 1) / 128 + 1 - i0 / 128)).foldl
      (fun (acc : List (Nat × List (Fmt × Bool)) × Nat × Bool × State) R =>
        let (fs, c, w, s) := acc.2.2.2.updFormats a R
        (acc.1 ++ [(R, fs)], acc.2.1 + c, acc.2.2.1 || w, s)) ([], 0, false, s)
    (fmts, s.clamp u.src (clamps + b2n wide))

/-- The formats of a row among those of its blocks. -/
def fmtsOfRow (fmts : List (Nat × List (Fmt × Bool))) (i : Nat) : List (Fmt × Bool) :=
  ((fmts.find? (fun f => f.1 == i / 128)).map (·.2)).getD []

/-- Elements of row i before the first one that touches a Sealed unit (R423). -/
def State.openElems (s : State) (u : UpdRun) (i : Nat) : Nat :=
  ((List.range u.a.rowLen).find? (fun c => (u.elemRanges i c).any (fun r => s.touchesSealed r.1 r.2))).getD u.a.rowLen

/-- One row whose record or program is poisoned (R429): nothing is computed, and every output sector of the row is written as zero with
the poison mark. -/
def State.updPoison (s : State) (u : UpdRun) (r : UeRun) (fmts : List (Fmt × Bool)) (i : Nat) : UeRun × State :=
  let a := u.a
  let codes := if a.narrow then (List.range a.nc).map (fun c =>
      let w := (fmts.getD c (a.nFmt, false)).1.width
      (a.code + (i / 128 * a.nc + c) * a.pitch + i % 128 * 16 * w, 16 * w)) else []
  let (r, s) := (u.outs i 1 ++ codes).foldl (fun (acc : UeRun × State) o => acc.2.uePoisonOut acc.1 o.1 o.2) (r, s)
  ({ r with poisoned := r.poisoned + a.rowLen }, s.count u.engine (ctrUe 8) a.rowLen)

/-- The rows of a plan, of a descriptor whose first row is i0. Every input is read before anything is written, so that the result does
not depend on how the rows are divided (R402). -/
def State.updParts (s : State) (u : UpdRun) (p : UeProgress) (owner i0 : Nat) (parts : List (Nat × Nat × Bool)) :
    List (Nat × UeRun) × State :=
  let (ins, s) := parts.foldl (fun (acc : List ((Nat × Nat × Bool) × List UeElem) × State) x =>
    let (xs, s) := if p.bad then ([], acc.2) else acc.2.updInputs u (i0 + x.1) (if x.2.2 then u.a.rowLen else acc.2.openElems u (i0 + x.1))
    (acc.1 ++ [(x, xs)], s)) ([], s)
  ins.foldl (fun (acc : List (Nat × UeRun) × State) x =>
    let i := i0 + x.1.1
    let u := { u with engine := acc.2.unitOf x.1.2.1 }
    let start := UeRun.start owner
    let (r, s) :=
      if p.bad then (if x.1.2.2 then acc.2.updPoison u start (fmtsOfRow p.fmts i) i else (start, acc.2))
      else acc.2.updRow u start (fmtsOfRow p.fmts i) i x.1.2.2 x.2
    (acc.1 ++ [(x.1.2.1, r)], s)) ([], s)

/-- An UPDATE as its engine runs it, from its descriptor, record and program. -/
def updRunOf (sl : Slot) (record program : List Byte) : UpdRun :=
  let a := (readUpdate sl.desc record).1
  ⟨a, if a.rule = 3 then (readProgram program).1 else [],
    a.h ++ (List.range 4).map (fun n => fp32Value (field program (16 + 4 * n) 4)) ++ [a.lr, a.bc1, a.bc2, a.aux], 0, sl.source⟩

/-- The engines go on with an UPDATE. -/
def State.updGo (s : State) (slot amount : Nat) (sl : Slot) (p : UeProgress) : State :=
  let u := updRunOf sl p.record p.program
  let first := field sl.desc 16 4 % 2 ^ 20
  s.ueGo slot (stackOf (addr48 sl.desc 8)) amount sl p false
    (fun i => s.partBar (u.rowRanges (fmtsOfRow p.fmts (first + i)) (first + i)))
    (fun parts s => s.updParts u p sl.born first parts)

/-- UPDATE begins: its record, its program and its ranges are judged before anything is read or written (R399, R400, R422), and its rows
are counted (Table 12.3). -/
def State.updBegin (s : State) (slot amount : Nat) (sl : Slot) : State :=
  let d := sl.desc
  let id := targetOf d
  let low := b2n (addr48 d 8 % 32 ≠ 0)
  let rec' := addr48 d 8 / 32 * 32
  if !inStack rec' 128 then (s.clamp sl.source low).ueAbort slot sl
  else
    let k := stackOf rec'
    if !s.aimsAt id k then (s.clamp sl.source low).ueAbort slot sl
    else
      match s.ueBar k [(rec', 128)] with
      | some b => s.ueStop slot k sl low b
      | none =>
        let (rb, rps, s1) := s.memRead rec' 128
        let (a, clamps) := readUpdate d rb
        match if a.rule = 3 then s.ueBar k [(a.prog, 288)] else none with
        | some b => s.ueStop slot k sl (low + clamps) b
        | none =>
          let (pb, pps, s1) := if a.rule = 3 then s1.memRead a.prog 288 else ([], [], s1)
          let clamps := low + clamps + (if a.rule = 3 then (readProgram pb).2 else 0)
          let u := updRunOf sl rb pb
          match s.ueBar k u.ranges with
          | some b => s.ueStop slot k sl clamps b
          | none =>
            let first := field d 16 4 % 2 ^ 20
            let rows := field d 20 4 % 2 ^ 20 + 1
            let s := s1.clamp sl.source clamps
            if a.trows ≤ first then (s.clamp sl.source 1).ueFinish slot k .ok 0
            else
              let s := s.clamp sl.source (b2n (a.trows < first + rows))
              let n := min rows (a.trows - first)
              let (fmts, s) := s.updAllFormats u first n
              s.updGo slot amount sl ⟨rb, pb, anyP rps || anyP pps, fmts, n, 0, [], 0, 0⟩

/-- UPDATE (R399 to R418, R422, R423, R428, R429): the engines begin it, or go on with it. -/
def runUpdate (slot amount : Nat) (sl : Slot) (s : State) : State :=
  match sl.engines with
  | none => s.updBegin slot amount sl
  | some p => s.updGo slot amount sl p

/-- UPDATE. -/
def execUpdate (work : EngineWork) (s : State) : Host.Outcome State Fault Refusal :=
  .next (s.withDesc work.slot [0x40] (runUpdate work.slot work.amount))

/-! ### NEARVEC (R419 to R421) -/

/-- NEARVEC as its engine reads it. -/
structure NearArgs where
  op : Nat
  a : Nat
  b : Nat
  dst : Nat
  aFmt : Fmt
  bFmt : Fmt
  dFmt : Fmt
  rnd : Rnd
  rows : Nat
  cols : Nat
  k : Value
  eps : Value
  stream : Nat
  key : Nat
  origin : Nat
deriving DecidableEq, Repr

/-- Read a NEARVEC (R419, Table 12.7). Every field is read, and its illegal value clamped, whether or not the operation uses it.
DEDUCED (log 20). -/
def readNear (d : List Byte) : NearArgs × Nat :=
  let op0 := field d 26 1 % 16
  let op := if 8 < op0 then 0 else op0
  let (af, c0) := readUeFmt (field d 26 1 / 16)
  let (bf, c1) := readUeFmt (field d 27 1 % 16)
  let (df, c2) := readUeFmt (field d 27 1 / 16)
  let (rnd, c3) := readRnd (bits (field d 28 4) 21 20)
  (⟨op, addr48 d 8 / 4 * 4, addr48 d 14 / 4 * 4, addr48 d 20 / 4 * 4, af, bf, df, rnd, field d 28 4 % 2 ^ 20 + 1,
    field d 32 4 % 2 ^ 20 + 1, fp32Value (field d 36 4), fp32Value (field d 40 4), field d 44 4, field d 48 8,
    field d 56 8⟩,
   b2n (8 < op0) + b2n (addr48 d 8 % 4 ≠ 0) + b2n (addr48 d 14 % 4 ≠ 0) + b2n (addr48 d 20 % 4 ≠ 0) + c0 + c1 + c2 + c3)

/-- Row outputs: one FP32 word per row. -/
def NearArgs.rowOp (a : NearArgs) : Bool := a.op = 5 || a.op = 6 || a.op = 7

/-- Ranges that a NEARVEC names. -/
def NearArgs.ranges (a : NearArgs) : List (Nat × Nat) :=
  let n := a.rows * a.cols
  (if a.op ≠ 3 then [(a.a, n * wideBytes a.aFmt)] else [])
    ++ (if a.op = 1 then [(a.b, n * wideBytes a.bFmt)] else if a.op = 4 then [(a.b, a.rows * wideBytes a.bFmt)] else [])
    ++ [(a.dst, if a.rowOp then 4 * a.rows else n * wideBytes a.dFmt)]

/-- The word of a row (SUM, SUMSQ, MAXABS). -/
def NearArgs.rowValue (a : NearArgs) (xs : List Value) : Value :=
  match a.op with
  | 5 => treeSum xs
  | 6 => treeSum (xs.map (fun x => fmul x x))
  | _ => (statOf xs).maxabs

/-- The factor of RMSSCALE for a row: round(K × RSQRT(round(round(q/COLS) + EPS))). -/
def NearArgs.factor (a : NearArgs) (xs : List Value) : Value :=
  fmul a.k (frsqrt (fadd (fdiv (treeSum (xs.map (fun x => fmul x x))) (.ofRat a.cols)) a.eps))

/-- The exact value of an element output, and the values it was made from. -/
def NearArgs.exact (a : NearArgs) (x y f : Value) : Value :=
  match a.op with
  | 1 => (a.k.times x).add y
  | 2 => a.k.times x
  | 3 => a.k
  | 4 => x.times y
  | 8 => x.times f
  | _ => x

/-- Whether the rows of an operation are divided, and not its elements (R401). -/
def NearArgs.byRow (a : NearArgs) : Bool := a.rowOp || a.op = 8

/-- The exact outputs of elements and their poison, from inputs already read: of RMSSCALE the inputs are a whole row, on which every
element depends. -/
def NearArgs.outputs (a : NearArgs) (xs ys : List (Value × Bool)) : List (Value × Bool) :=
  let f := if a.op = 8 then a.factor (xs.map (·.1)) else .zero
  let bad := xs.any (·.2)
  (xs.zip (ys ++ List.replicate (xs.length - ys.length) (.zero, false))).map (fun x =>
    (a.exact x.1.1 x.2.1 f, if a.op = 8 then bad else x.1.2 || x.2.2))

/-- Write elements [m, m + vs.length) of the output, counted row by row (R420, R428). -/
def State.nearElems (s : State) (a : NearArgs) (r : UeRun) (e m : Nat) (vs : List (Value × Bool)) : UeRun × State :=
  let b := wideBytes a.dFmt
  let n0 := a.origin + m
  let s := if a.rnd == .stochastic then s.count e ctrSqEvals (squallEvals n0 vs.length) else s
  let outs := (vs.zip (List.range vs.length)).map (fun v =>
    let u := if a.rnd == .stochastic then squallDraw a.key a.stream (n0 + v.2) else 0
    (encode a.dFmt a.rnd false 0 u v.1.1, v.1.2))
  let n := (outs.filter (·.2)).length
  let s := ((s.count e (ctrUe 0) vs.length).count e (ctrUe 8) n).countFindings e (Findings.ofAll (outs.map (·.1)))
  let (r, s) := s.ueWrite r (a.dst + m * b) (outs.flatMap (fun o => natLe b o.1.code))
    (outs.flatMap (fun o => List.replicate b o.2))
  ({ r with poisoned := r.poisoned + n }, s)

/-- Write the word of row i of a row operation (R420, R428). -/
def State.nearWord (s : State) (a : NearArgs) (r : UeRun) (e i : Nat) (xs : List (Value × Bool)) : UeRun × State :=
  let p := xs.any (·.2)
  let n := if p then a.cols else 0
  let s := (s.count e (ctrUe 0) a.cols).count e (ctrUe 8) n
  let (r, s) := s.ueWriteAll r (a.dst + 4 * i) (natLe 4 (toFp32 (a.rowValue (xs.map (·.1))))) p
  ({ r with poisoned := r.poisoned + n }, s)

/-- Ranges that elements [m, m + n) of the input, in row-major order, are read from. -/
def NearArgs.inRanges (a : NearArgs) (m n : Nat) : List (Nat × Nat) :=
  (if a.op = 3 then [] else [(a.a + m * wideBytes a.aFmt, n * wideBytes a.aFmt)])
    ++ (if a.op = 1 then [(a.b + m * wideBytes a.bFmt, n * wideBytes a.bFmt)]
        else if a.op = 4 then
          [(a.b + m / a.cols * wideBytes a.bFmt, ((m + n - 1) / a.cols + 1 - m / a.cols) * wideBytes a.bFmt)]
        else [])

/-- Ranges of part i: a row, or an element. -/
def NearArgs.partRanges (a : NearArgs) (i : Nat) : List (Nat × Nat) :=
  let n := if a.byRow then a.cols else 1
  a.inRanges (i * n) n ++ [(a.dst + i * (if a.rowOp then 4 else n * wideBytes a.dFmt), if a.rowOp then 4 else n * wideBytes a.dFmt)]

/-- The inputs of elements [m, m + n). -/
def State.nearInputs (s : State) (a : NearArgs) (m n : Nat) : List (Value × Bool) × List (Value × Bool) × State :=
  let (xs, s) := s.ueRead (a.op ≠ 3) a.aFmt (a.a + m * wideBytes a.aFmt) n
  if a.op = 1 then
    let (ys, s) := s.readElems a.bFmt (a.b + m * wideBytes a.bFmt) n
    (xs, ys, s)
  else if a.op = 4 then
    let r := m / a.cols
    let (ys, s) := s.readElems a.bFmt (a.b + r * wideBytes a.bFmt) ((m + n - 1) / a.cols + 1 - r)
    (xs, (List.range n).map (fun j => ys.getD ((m + j) / a.cols - r) (.zero, false)), s)
  else (xs, [], s)

/-- Elements that a row has before the first that touches a Sealed unit (R423): none where it is read as a whole and its source touches
one, or where its output is one word. -/
def State.nearOpen (s : State) (a : NearArgs) (i : Nat) : Nat :=
  if !a.byRow || a.rowOp || (a.inRanges (i * a.cols) a.cols).any (fun r => s.touchesSealed r.1 r.2) then 0
  else
    let b := wideBytes a.dFmt
    ((List.range a.cols).find? (fun c => s.touchesSealed (a.dst + (i * a.cols + c) * b) b)).getD a.cols

/-- The parts of a plan of a NEARVEC: every input is read before anything is written (R402). -/
def State.nearParts (s : State) (a : NearArgs) (owner : Nat) (parts : List (Nat × Nat × Bool)) : List (Nat × UeRun) × State :=
  let whole := if a.byRow then [] else partRuns (parts.filter (·.2.2))
  let rows := if a.byRow then parts.map (fun x =>
      (x.2.1, x.1, if x.2.2 then a.cols else s.nearOpen a x.1)) else []
  let runs := (whole.map (fun x => (x.1, x.2.1, x.2.2, x.2.2)) ++ rows.map (fun x => (x.1, x.2.1 * a.cols, a.cols, x.2.2))).filter
    (fun x => x.2.2.2 ≠ 0)
  let (ins, s) := runs.foldl (fun (acc : List ((Nat × Nat × Nat) × List (Value × Bool) × List (Value × Bool)) × State) x =>
    let (xs, ys, s) := acc.2.nearInputs a x.2.1 x.2.2.1
    (acc.1 ++ [((x.1, x.2.1, x.2.2.2), xs, ys)], s)) ([], s)
  ins.foldl (fun (acc : List (Nat × UeRun) × State) x =>
    let e := acc.2.unitOf x.1.1
    let (r, s) :=
      if a.rowOp then acc.2.nearWord a (UeRun.start owner) e (x.1.2.1 / a.cols) x.2.1
      else acc.2.nearElems a (UeRun.start owner) e x.1.2.1 ((a.outputs x.2.1 x.2.2).take x.1.2.2)
    (acc.1 ++ [(x.1.1, r)], s)) ([], s)

/-- The engines go on with a NEARVEC: a row operation and RMSSCALE are divided into whole rows, every other operation with no regard to
row ends (R401). -/
def State.nearGo (s : State) (slot amount : Nat) (sl : Slot) (p : UeProgress) : State :=
  let a := (readNear sl.desc).1
  s.ueGo slot (stackOf (if a.op = 3 then a.dst else a.a)) amount sl p true (fun i => s.partBar (a.partRanges i))
    (fun parts s => s.nearParts a sl.born parts)

/-- NEARVEC (R399 to R402, R419 to R423, R428): the engines begin it, or go on with it. -/
def runNearvec (slot amount : Nat) (sl : Slot) (s : State) : State :=
  match sl.engines with
  | some p => s.nearGo slot amount sl p
  | none =>
    let (a, clamps) := readNear sl.desc
    let main := if a.op = 3 then a.dst else a.a
    let k := stackOf main
    if !inStack main 1 || !s.aimsAt (targetOf sl.desc) k then (s.clamp sl.source clamps).ueAbort slot sl
    else
      match s.ueBar k a.ranges with
      | some b => s.ueStop slot k sl clamps b
      | none =>
        (s.clamp sl.source clamps).nearGo slot amount sl
          ⟨[], [], false, [], if a.byRow then a.rows else a.rows * a.cols, 0, [], 0, 0⟩

/-- NEARVEC. -/
def execNearvec (work : EngineWork) (s : State) : Host.Outcome State Fault Refusal :=
  .next (s.withDesc work.slot [0x41] (runNearvec work.slot work.amount))

end Sys2Proof.Machine
end

