-- ==== Sys2Proof/Machine/Boundary.lean ====
section
/-! DEFINITION. The step boundary: STEP, its exchanges and its parts in order (chapter 17: R628 to R645, with R269, R349,
R391, R431 and R661 to R665). -/

namespace Sys2Proof.Machine

/-- Counters of Table 17.9 by position. -/
def ctrStep (n : Nat) : Nat := ctrId 17 9 n

/-- The slot number that stands for the step boundary's own instances (R628). -/
def stepSlot : Nat := 4096

/-! ### Part 1: the latch (R704, R707) -/

/-- Every counter's live value becomes its latched value and restarts at zero (R704). CLAMP_COUNT of the register map counts from
its own last read and is left alone (R575). DEDUCED (log 15). -/
def State.latchCounters (s : State) : State :=
  { s with obs := { s.obs with latched := s.obs.live, live := [] } }

/-- At a step boundary cells that R234 suspended take pieces again, and the freeze counts that FREEZE_COUNT reads restart (Table 2.16). -/
def State.restartUnits (s : State) : State :=
  { s with tree := { s.tree with units := s.tree.units.foldl (fun m ku =>
      mput UnitState.reset m ku.1 { ku.2 with suspended := false, freezes := 0 }) s.tree.units } }

/-- The 16-byte records of R707 for some counter values, in ascending node and identifier: `s` keeps names. -/
def State.dumpRecords (s : State) (vals : List (Nat × Nat)) : List (List Byte) :=
  let recs := vals.map (fun kv => (s.identOf (kv.1 / 65536), kv.1 % 65536, kv.2))
  (recs.mergeSort (fun a b => a.1 < b.1 || (a.1 = b.1 && a.2.1 ≤ b.2.1))).map (fun r =>
    natLe 2 r.1 ++ natLe 2 r.2.1 ++ natLe 1 (b2n (r.2.2 = 2 ^ ctrWidth r.2.1 - 1)) ++ [0, 0, 0] ++ natLe 8 r.2.2)

/-- The record that ends a table of counters: records before it, and whether it was cut (R707). -/
def dumpEnd (cut : Bool) (n : Nat) : List Byte :=
  natLe 2 0xFFFF ++ natLe 2 0xFFFF ++ natLe 1 (2 * b2n cut) ++ [0, 0, 0] ++ natLe 8 n

/-- Write the table of CTR_DUMP where EN is 1 (R707). -/
def State.dumpCounters (s : State) : State :=
  let hi := s.regs.eff regCtrDumpHi 0
  let base := bits hi 15 0 * 2 ^ 32 + bits (s.regs.eff regCtrDumpLo 0) 31 4 * 16
  let room := s.regs.eff regCtrDumpLen 0
  if !bit hi 31 || room = 0 then s
  else
    let recs := s.dumpRecords s.obs.latched
    let cut := room ≤ recs.length
    let kept := if cut then recs.take (room - 1) else recs
    let last := dumpEnd cut kept.length
    (s.writeLocal base (kept.flatten ++ last) []).2.2

/-! ### Exchanges -/

/-- Start an ALLREDUCE with RED MAX and XPORT 2 of FP32 values (R630, R632). -/
def State.maxExchange (s : State) (r : StepRun) (orders : List (List Nat)) (id : Nat) (vs : List Value) : State :=
  let c := s.blankInst .coll stepSlot id orders r.timeout
  s.startInst { c with
    op := 0, red := 1, xport := 2, segs := fixedSegs vs.length (segElems 2) orders.length ((orders[0]?).getD []).length,
    input := vs.flatMap (fun v => natLe 4 (toFp32 v)), result := List.replicate (4 * vs.length) 0 }

/-- Start the COUNTS of R631. -/
def State.countsExchange (s : State) (r : StepRun) (value : Nat) : State :=
  let order := r.twins.take 1
  let n := ((order[0]?).getD []).length
  let c := s.blankInst .counts stepSlot (r.coll + 1) order r.timeout
  s.startInst { c with
    op := 2, xport := 4, segs := varSegs (List.replicate n 1) 1,
    input := patch (List.replicate (8 * n) 0) (8 * c.rank) (natLe 8 value), result := List.replicate (8 * n) 0 }

/-- Start the barrier of part 10. -/
def State.startBarrier (s : State) (r : StepRun) : State :=
  let c := s.blankInst .barrier stepSlot (r.coll + 3) [r.all] r.timeout
  s.startInst { c with lead := rounds r.all.length * 8192 }

/-- The boundary's instance that has ended, taken out of the active ones. -/
def State.takeEnded (s : State) : Option (CollInst × Status × Nat × State) :=
  (s.coll.active.find? (fun c => c.slot == stepSlot)).bind (fun c => c.ended.map (fun e =>
    (c, e.1, e.2, { s with coll := { s.coll with active := s.coll.active.filter (fun x => x.slot != stepSlot) } })))

/-- The digests of the table, each as four 16-bit values followed by their negations (R630). -/
def digestElems (ds : List Nat) : List Value :=
  ds.flatMap (fun d => (List.range 4).flatMap (fun q =>
    let v : Rat := bits d (16 * q + 15) (16 * q)
    [.fin v false, .fin (-v) (v = 0)]))

/-- Element i of a result buffer. -/
def resultAt (bs : List Byte) (i : Nat) : Value := fp32Value (field bs (4 * i) 4)

/-- The lowest digest on which the twins disagree, if any (R630). -/
def lowestMismatch (r : StepRun) (bs : List Byte) : Option Nat :=
  (List.range r.digests.length).find? (fun d => (List.range 4).any (fun q =>
    let i := r.votes + 8 * d + 2 * q
    (resultAt bs i).rat + (resultAt bs (i + 1)).rat ≠ 0))

/-- The value that more than half of some values have. -/
def majorityOf (vs : List Nat) : Option Nat := vs.find? (fun v => vs.length < 2 * vs.count v)

/-! ### Start and end of a STEP -/

/-- Change the running STEP. -/
def State.modRun (s : State) (f : StepRun → StepRun) : State := { s with tf := { s.tf with run := s.tf.run.map f } }

/-- Part 11 and the end of every boundary: completion, STEPNO, and the start of the next step. -/
def State.endStep (s : State) (r : StepRun) (st : Status) (value : Nat) (start : Nat) : State :=
  let s := s.finish r.slot 7 st value
  { s with
    tf := { s.tf with
      run := none, stepNo := r.stepNo, rollback := r.rollback, stepStart := start, nodePlan := [], planned := [], overrun := false,
      wasDiverged := s.tf.diverged, wasSplit := r.dstar.isSome && r.majority.isNone }
    res := { s.res with spoiled := false }
    aec := { s.aec with rollbackPending := false } }

/-- Part 5: live poison is counted, and copies of its blocks are requested from the twins (R349, R391, R431); the list of
R534 is cleared. -/
def State.partFive (s : State) (r : StepRun) : State :=
  let s := s.countLive.readLists
  let s := { s with coll := { s.coll with aborts := [], finished := [], stale := [] }, res := { s.res with twins := (r.twins[0]?).getD [] } }
  (List.range 8).foldl (fun s k =>
    let s := ((s.errLogs (2 + k)).ue.filter (fun e => !e.cleared && s.isOpen e.addr)).foldl
      (fun s e => s.requestBlock e.addr r.stepNo) s
    let ue := s.ueOf k
    let s := s.modUe k (fun u => { u with ranges := u.ranges.map (fun e => e.filter (fun e => !e.copied)), restored := [], whole := false })
    if ue.lost then
      let blocks := ((List.range 48).filter (s.unitOpen k)).flatMap (fun g =>
        (List.range 16384).map (fun b => stackBase + k * stackSize + g * 2 ^ 30 + b * 65536))
      let s := blocks.foldl (fun s a => s.requestBlock a r.stepNo) s
      s.modUe k (fun u => { u with whole := blocks.all s.blockOk })
    else
      (ue.ranges.filterMap (fun e => e.filter (fun e => !e.copied))).foldl (fun s e =>
        (rangeFrom (e.addr / 65536) ((e.addr + 32 * e.sectors - 1) / 65536 + 1 - e.addr / 65536)).foldl
          (fun s b => s.requestBlock (65536 * b) r.stepNo) s) s) s

/-- The twins disagree on digest d: MISMATCH, FIRST and DIGEST_MISMATCH (R631). -/
def State.mismatched (s : State) (d : Nat) (noMajority : Bool) : State :=
  let s := (s.count 0 (ctrStep 4) 1).event 0x0801 (d + 4096 * b2n noMajority) true
  { s with tf := { s.tf with mismatch := true, first := d } }

/-- An exchange has ended with TIMEOUT: the STEP completes so, DECIDED is recorded, and the package enters HOLD (R633,
R665). Where the vote did, part 4 still margins and counts the boundary (R253, R267, R269), and parts 5 and 6 still run. A disagreement that the vote had found stands
(R631): no majority is known, and none is said to be missing. DEDUCED (log 26). -/
def State.stepTimeout (s : State) (r : StepRun) (chip : Nat) : State :=
  let s := if r.part = 3 then s.mismatched (r.dstar.getD 0) false else s
  let s := if r.part = 2 || r.part = 3 then ((s.marginOnly).partFive r).census else s
  let decided := if r.part = 10 then (if r.rollback then 2 else 1) else 0
  let pending := decided = 0 && !s.res.spoiled && !s.aec.rollbackPending
  let s := if pending then
      { s.dropLive with res := { s.dropLive.res with pending := true, cut := r.stepNo } }
    else s
  let s := { s with res := { s.res with decided := decided } }
  (s.endStep r .timeout chip s.time.now).enterHold 1 (some (chip % 32768))

/-- Part 11: the completion with VALUE of Table 16.26, and the release of the next step (R655). -/
def State.stepDone (s : State) (r : StepRun) (start : Nat) : State :=
  let value := b2n r.rollback + 2 * b2n r.storm + 4 * b2n s.aec.stormHalt
  let s := s.endStep r .ok value start
  if s.res.hold then s else s.startImage

/-- Parts 9 and 10: the mode for the next step with its slack, and the start barrier where one runs (R634, R635). -/
def State.applyMode (s : State) (r : StepRun) : State :=
  let changed := r.newMode != s.tf.timetable
  let s := { s with tf := { s.tf with timetable := r.newMode } }
  let s := allCells.foldl (fun s u => s.modUnit u (fun x => { x with
    ttSlack := if r.newMode then min 63 (x.calFloor + 16) else 0 })) s
  let s := if changed || r.forced then s.event 0x0803 (b2n r.newMode + 2 * b2n r.forced) false else s
  if r.newMode || changed || r.rollback then (s.modRun (fun r => { r with part := 10 })).startBarrier r
  else s.stepDone r s.time.now

/-- The package holds the end state of step n again, after a rollback of one step (R661 step 5). -/
def State.rolledBack (s : State) (r : StepRun) : State :=
  let n := r.stepNo - 1
  let s := ((s.setLive n).count 0 (ctrRes 0) 1).event 0x0902 (n % 2 ^ 32) false
  s.nextBlock.applyMode r

/-- Part 8 (R629, R661 to R663). DEDUCED (log 26). -/
def State.partEight (s : State) (r : StepRun) : State :=
  if !r.rollback then ((s.setLive r.stepNo).nextBlock).applyMode r
  else
    let s := (List.range 8).foldl State.wholeFails { s.dropCopyReqs with res := { s.res with blocks := [], copy := none } }
    let split := r.dstar.isSome && r.majority.isNone
    if (s.tf.diverged && s.tf.wasDiverged) || (split && s.tf.wasSplit) then
      (s.enterHold 5 none).stepDone r s.time.now
    else if s.tf.diverged then
      let order := (r.twins[0]?).getD []
      let good := (order.zip r.values).filterMap (fun cv => if some cv.2 = r.majority then some cv.1 else none)
      let sources := s.twinSources.filter good.contains
      let s := s.dropLive.modRun (fun r => { r with part := 8 })
      s.startCopy .diverged (r.stepNo - 1) sources (s.stateRanges.map (fun g => (g.1, g.2.1)))
    else if !s.imageIs (r.stepNo - 1) then (s.enterHold 3 none).stepDone r s.time.now
    else (s.modRun (fun r => { r with part := 8 })).startRestore (r.stepNo - 1) true

/-- The rebuild of a diverged package has ended. DEDUCED (log 26). -/
def State.divergedDone (s : State) (r : StepRun) : State :=
  match s.res.copy with
  | some c =>
    if c.what == .diverged && c.phase = 4 then
      let s := { s with res := { s.res with copy := none } }
      if c.failed.isNone then s.rolledBack r else s.stepDone r s.time.now
    else s
  | none => s

/-- The restore of part 8 goes on: it runs once no stack of it waits (R22, R373, R377), and images that lie in a FAILED or TEST stack
are no image (R662). DESIGN CHOICE (log 27). -/
def State.restoreOn (s : State) (r : StepRun) : State :=
  match s.res.restoring with
  | some (n, true) =>
    let t := { s with res := { s.res with restoring := none } }
    if s.imagesFenced then (t.enterHold 3 none).stepDone r s.time.now
    else if s.imagesWait then s
    else (t.restoreFor n).rolledBack r
  | _ => s

/-- The slowest member of the decision exchange (R674). -/
def State.straggler (s : State) (c : CollInst) : State :=
  let lag := sat 16 ((c.latest % 2 ^ 62 - c.entry % 2 ^ 62) / 1024)
  let ctl := s.regs.eff regStragCtl 0
  let steps := ctl % 256
  let late := steps ≠ 0 && bits ctl 31 16 * 1024 ≤ c.latest % 2 ^ 62 - c.entry % 2 ^ 62
  let run := if !late then 0
    else if c.slowest = s.res.stragSlowest && s.res.stragRun ≠ 0 then s.res.stragRun + 1 else 1
  let fire := late && steps ≤ run
  let s := { s with res := { s.res with
    stragLag := lag, stragSlowest := c.slowest % 32768, stragRun := if fire then 0 else run } }
  if fire then s.event 0x0905 (c.slowest % 32768 + lag * 65536) false else s

/-- Parts 4 to 6, and the start of part 7 (R269, R632). -/
def State.decide' (s : State) (r : StepRun) : State :=
  let (storm, back, s) := s.widening ((List.range r.votes).map (resultAt r.voted))
  let wants := r.dstar.isSome || back || (s.aec.rollbackPending && s.rollbackEn)
  let s := s.margining
  let r := { r with storm := storm, wants := wants, part := 7 }
  let s := (s.partFive r).census
  let m : Rat := if r.timetable then 2 else 1
  let s := { s with tf := { s.tf with run := some r } }
  s.maxExchange r [r.all] (r.coll + 2)
    [if wants then .fin 1 false else .zero, if s.aec.stormHalt then .fin 1 false else .zero, .fin m false, .fin (-m) false]

/-- The decision exchange has given its result (R632). -/
def State.decided (s : State) (r : StepRun) (bs : List Byte) : State :=
  let m := (resultAt bs 2).rat
  let forced := m ≠ -(resultAt bs 3).rat
  let r := { r with
    rollback := (resultAt bs 0).rat ≠ 0, newMode := !forced && m = 2, forced := forced }
  let s := match s.slot r.slot with
    | some sl => s.clamp sl.source (b2n forced)
    | none => s
  let s := { s with
    aec := { s.aec with stormHalt := s.aec.stormHalt || (resultAt bs 1).rat ≠ 0 }
    tf := { s.tf with run := some r, rollback := r.rollback } }
  s.partEight r

/-- Every twin's value of the disagreeing digest is known (R631). -/
def State.located (s : State) (r : StepRun) (bs : List Byte) : State :=
  let order := (r.twins[0]?).getD []
  let values := (List.range order.length).map (fun i => field bs (8 * i) 8)
  let d := r.dstar.getD 0
  let maj := majorityOf values
  let s := s.mismatched d maj.isNone
  let mine := r.digests.getD d 0
  let div := maj.isSome && maj ≠ some mine
  let s := if div then s.event 0x0802 d true else s
  { s with tf := { s.tf with diverged := div } } |>.decide'
    { r with majority := maj, values := values }

/-- The twin exchange has given its result (R630). -/
def State.votedOn (s : State) (r : StepRun) (bs : List Byte) : State :=
  let r := { r with voted := bs, dstar := lowestMismatch r bs }
  match r.dstar with
  | none => s.decide' r
  | some d =>
    let r := { r with part := 3 }
    ({ s with tf := { s.tf with run := some r } } : State).countsExchange r (r.digests.getD d 0)

/-- Go on with the boundary as far as its exchanges have ended. `fuel` bounds the parts. DEDUCED (log 26). -/
def State.stepPump : Nat → State → State
  | 0, s => s
  | fuel + 1, s =>
    match s.tf.run with
    | none => s
    | some r =>
      if r.part = 8 then
        let t := if s.res.restoring.isSome then s.restoreOn r else s.divergedDone r
        if t.tf.run = s.tf.run then t else State.stepPump fuel t
      else
        match s.takeEnded with
        | none => s
        | some (c, st, detail, s) =>
          if st == .timeout then s.stepTimeout r detail
          else
            State.stepPump fuel (match r.part with
              | 2 => s.votedOn r c.result
              | 3 => s.located r c.result
              | 7 => (s.straggler c).decided r c.result
              | _ => s.stepDone r s.time.now)

/-- Go on with the boundary. -/
def State.pump (s : State) : State := if s.nodesStopped then s else State.stepPump 12 s

/-- IMAGE_PASS_COMPLETE: firmware's movers have gone on with the images: the pass ends, or a restore that waited on a stack goes on. -/
def execImagePassComplete (s : State) : Host.Outcome State Fault Refusal :=
  .next (if s.nodesStopped then s else s.imageDone.recoverOn.pump)

/-! ### STEP -/

/-- Apply every pending capture of a block in the order of its COMMITs, and judge the fields after each (R813, R816).
`fuel` bounds them. -/
def State.applyPending : Nat → Nat → (State → RegFile → State) → State → State
  | 0, _, _, s => s
  | fuel + 1, b, legal, s =>
    match s.takeCapture b with
    | some (v, t) => State.applyPending fuel b legal (legal (t.applyVals v) s.regs)
    | none => s

/-- A STEP at the package root: part 1, then the twin exchange (R629, R630). A group table or digest table outside tier
memory, or a table that does not name this chip once, ends it ABORTED before part 1. DEDUCED (log 26). -/
def State.runStep (s : State) (k : Nat) (sl : Slot) : State :=
  let d := sl.desc
  let abort (s : State) : State := (s.clamp sl.source 1).finish k 7 .aborted 0
  if sl.begun then s
  else
    let s := s.clamp sl.source (b2n (field d 30 1 % 4 = 3) + b2n (addr48 d 16 % 16 ≠ 0) + b2n (addr48 d 22 % 16 ≠ 0))
    let n := field d 46 2 % 4096 + 1
    match s.readGroup (addr48 d 16 / 16 * 16), s.readGroup (addr48 d 22 / 16 * 16) with
    | some (twins, c0), some (alls, c1) =>
      let s := s.clamp sl.source (c0 + c1)
      let all := (alls[0]?).getD []
      if !inTier (addr48 d 40) (8 * n) || twins.any (fun o => !s.onceIn o) || !s.onceIn all then abort s
      else
        let s := s.begin' k
        let s := { s with tf := { s.tf with mismatch := false, diverged := false, rollback := false } }
        let s := s.latchCounters.restartUnits.dumpCounters
        let s := (State.applyPending s.regs.captures.length 1 State.legalAec s)
        let s := (State.applyPending s.regs.captures.length 2 (fun s _ => s.legalTf) s)
        let s := s.latchThresh
        let bs := (s.memRead (addr48 d 40) (8 * n)).1
        let s := s.afterRead (addr48 d 40) (8 * n)
        let mode := field d 30 1 % 4
        let (vote, s) := s.voteVector
        let r : StepRun := ⟨k, 2, twins, all, field d 28 2, field d 8 8,
          if mode = 1 then false else if mode = 2 then true else s.tf.timetable, s.timeoutBeats (field d 32 3),
          (List.range n).map (fun i => field bs (8 * i) 8), vote.length, [], none, none, [], false, false, false, false,
          false⟩
        let s := { s with tf := { s.tf with run := some r } }
        (s.maxExchange r twins r.coll (vote ++ digestElems r.digests)).pump
    | _, _ => abort s

/-- STEP. -/
def execStep (slot : Nat) (s : State) : Host.Outcome State Fault Refusal :=
  .next (s.withDesc slot [0x52] (fun sl s => s.runStep slot sl))

end Sys2Proof.Machine
end

