-- ==== Sys2Proof/Machine/Timebase.lean ====
section
/-! DEFINITION. Station Time: steering, the time reference, the routing switch, and what an arriving control, data or idle flit does
to its port (chapter 13). -/

namespace Sys2Proof.Machine

/-! ### Steering (R490, R491) -/

/-- Act on an offset to the upstream or to the reference, in 2^−8 ns, positive when the package is ahead: step forward
when it is more than 1 ms behind, else slew until it is within 2 ns; the quality is then `good`. DEDUCED (log 25). -/
def State.steer (s : State) (off : Int) (good : Quality) : State :=
  let beats := off / 256
  if off < -256000000 then
    let by' := (-beats).toNat
    let s := { s with time := { s.time with now := (s.time.now + by') % 2 ^ 64, slew := 0, slewPhase := 0, quality := good } }
    let s := s.count 0 (fabCtr 15) 1
    (s.bbRecord 0x0005 (natLe 8 by')).event 0x0404 (sat 32 (by' / 1000)) false
  else
    { s with time := { s.time with
        slew := if off.natAbs ≤ 512 then 0 else off, aim := good,
        quality := if off.natAbs ≤ 512 then good else .holdover } }

/-- Delay and offset of a control flit, in 2^−16 ns (R489). -/
def linkDelay (b1 a2 a3 b4 : Nat) : Int := (sext 64 (wrap 64 ((b4 : Int) - b1)) - sext 64 (wrap 64 ((a3 : Int) - a2))) / 2
def linkOffset (b1 a2 a3 b4 : Nat) : Int := (sext 64 (wrap 64 ((b1 : Int) - a2)) + sext 64 (wrap 64 ((b4 : Int) - a3))) / 2

/-- Class an advertisement makes of a good offset. -/
def goodQuality (cls : Nat) : Quality := if cls = 0 then .referenced else .fabric

/-- Use the time content of a control flit that arrived on a port (R488 to R491); a package that leaves UNSET chooses its root again,
since it may now offer itself. DEDUCED (log 25). -/
def State.useTime (s : State) (p : Nat) (c : List Byte) : State :=
  let q := s.portAt p
  let b4 := s.txTime
  let a3 := field c 20 8
  let b1 := field c 36 8
  let a2 := field c 44 8
  let fresh := b1 ≠ 0
  let dly := if fresh then linkDelay b1 a2 a3 b4 else 0
  let off := if fresh then linkOffset b1 a2 a3 b4 else 0
  let s := s.modPort p (fun q => { q with
    delay := if fresh then min (dly / 256).toNat (2 ^ 24 - 1) else q.delay,
    rootClass := bits (field c 30 1) 3 2, hops := field c 31 1, root := field c 32 2 % 32768,
    upChip := if bit (field c 34 2) 15 then 0x8000 else field c 34 2 % 32768,
    echoTx := slice c 20 8, echoRx := natLe 8 b4 })
  let s := s.chooseRoot
  if s.fab.upPort ≠ p then s
  else
    match s.time.quality with
    | .unset =>
      let there := field c 28 2 * 2 ^ 48 + a3 / 65536
      ({ s with time := { s.time with
          now := (there + q.delay / 256) % 2 ^ 64, slew := 0, slewPhase := 0,
          quality := goodQuality (s.portAt p).rootClass } } : State).chooseRoot
    | .referenced | .fabric | .holdover =>
      if fresh then
        let o := off / 256
        let s := { s with fab := { s.fab with offset := max (-(2 ^ 31)) (min (2 ^ 31 - 1) o) } }
        s.steer o (goodQuality (s.portAt p).rootClass)
      else s

/-- After a forward step of Station Time in Timetable mode: every held descriptor whose planned start the step has reached is released
at once, if it is ready, in planned order, and at one planned start in the order of acceptance (R497, R641). -/
def State.releaseSkipped (s : State) (before : Nat) : State :=
  if !s.tf.timetable || s.time.now ≤ before then s
  else
    let due := s.host.slots.filterMap (fun kv => match kv.2 with
      | some sl =>
        if sl.phase == .waiting && s.heldClass sl.desc && s.plannedStart sl ≤ s.time.now then some (s.plannedStart sl, sl.born, kv.1)
        else none
      | none => none)
    (due.mergeSort (fun a b => a.1 < b.1 || (a.1 == b.1 && a.2.1 ≤ b.2.1))).foldl (fun s x => s.tryDispatch x.2.2) s

/-! ### Arriving flits (R455 to R459) -/

/-- A flit of 156 bytes whose CRC is right. -/
def goodFlit (bs : List Byte) : Bool := bs.length == 156 && field bs 148 8 == flitCrc (bs.take 148)

/-- A flit whose CRC fails is discarded, counted, and answered with a NAK at once (R456, R457, R459). -/
def State.badFlit (s : State) (p : Nat) : State :=
  let s := s.count (portDie p) (fabCtr 2) 1
  (s.modPort p (fun q => { q with nak := true })).sendControl p

/-- Acknowledgements and credits of a control flit (R458, R463). -/
def State.useAck (s : State) (p : Nat) (c : List Byte) : State :=
  let ack := field c 0 2 % 4096
  let before := (s.portAt p).replay.length
  let s := s.modPort p (fun q => { q with
    replay := q.replay.filter (fun b => 2048 ≤ (ack + 4096 - bits (field b.2 0 4) 24 13) % 4096),
    limits := (List.range 8).map (fun i => (field c (4 + 2 * i) 2 + classBuffer (i / 2)) % 65536) })
  let s := if (s.portAt p).replay.length < before then s.modPort p (fun q => { q with resends := 0 }) else s
  let s := if bit (field c 0 2) 12 then s.resendAll p else s
  let s := if (s.portAt p).closing && (s.portAt p).replay = [] then s.leaveUp p .off else s
  State.pumpPort 512 p s

/-- CONTROL_FLIT. -/
def execControlFlit (port : Nat) (bytes : List Byte) (s : State) : Host.Outcome State Fault Refusal :=
  .next (if !s.portOn port then s
    else if (s.portAt port).mode == .align then s.lockFlit port (goodFlit bytes)
    else if (s.portAt port).mode != .up then s
    else if !goodFlit bytes then s.badFlit port
    else if bits (field bytes 0 4) 31 30 ≠ 2 then s
    else
      let c := slice bytes 4 144
      (((s.useTime port c).tellQuality s).releaseSkipped s.time.now).useAck port c)

/-- IDLE_FLIT carries nothing (R455). -/
def execIdleFlit (port : Nat) (bytes : List Byte) (s : State) : Host.Outcome State Fault Refusal :=
  .next (if !s.portOn port then s
    else if (s.portAt port).mode == .align then s.lockFlit port (goodFlit bytes)
    else if (s.portAt port).mode == .up && !goodFlit bytes then s.badFlit port
    else s)

/-- Flits of a class and VL that lie in a port's receive buffer: accepted, and neither passed on nor consumed (R462, R463). -/
def PortState.buffered (q : PortState) (i : Nat) : Nat := (at8 q.got i + 65536 - at8 q.returned i) % 65536

/-- Take a data flit in SEQ order into the receive buffer (R459, R462, R464); the last flit of a message completes it there. A flit that
finds its class and VL full is one that its sender had no credit for, and is not accepted. DEDUCED (log 24). -/
def State.takeFlit (s : State) (p : Nat) (bs : List Byte) : State :=
  let h := field bs 0 4
  let q := s.portAt p
  let i := 2 * bits h 29 28 + bits h 27 27
  if !goodFlit bs then s.badFlit p
  else if bits h 31 30 ≠ 1 || bits h 24 13 ≠ q.rxSeq || classBuffer (i / 2) ≤ q.buffered i then s
  else
    let gs := (List.range 9).map (fun g => (slice bs (4 + 16 * g) 16, bit h (4 + g)))
    let all := if bit h 26 then gs else mget [] q.partial' i ++ gs
    let s := s.modPort p (fun q => { q with
      rxSeq := (q.rxSeq + 1) % 4096, nak := false, partial' := mput [] q.partial' i (if bit h 25 then [] else all),
      got := setAt q.got i ((at8 q.got i + 1) % 65536) })
    let s := s.count (portDie p) (fabCtr 1) 1
    if bit h 25 then
      let hd := ((all[0]?).map (·.1)).getD []
      let len := field hd 6 2 % 8192
      let rest := all.drop 1
      let m : Msg := ⟨hd, (rest.flatMap (·.1)).take len, rest.map (·.2)⟩
      s.modPort p (fun q => { q with inbox := q.inbox ++ [⟨i, all.length / 9, ((all[0]?).map (·.2)).getD false, m⟩] })
    else s

/-! ### The reference and the switch (R476, R491, R495, R496) -/

/-- TIME_SET. -/
def State.timeSet (s : State) : Nat := s.regs.eff regTimeSetLo 0 + s.regs.eff regTimeSetHi 0 * 2 ^ 32

/-- SET_ARM clears when it is applied (R495, R818). -/
def State.clearSetArm (s : State) : State :=
  { s with regs := s.regs.device regTimeCtl 0 (fun v => if bit v 2 then v - 4 else v) }

/-- A pulse while the reference is valid (R495, R496). -/
def State.validPulse (s : State) : State :=
  let armed := bit (s.regs.eff regTimeCtl 0) 2
  if s.time.quality == .unset then
    if s.trefEn then
      let v := if armed then s.timeSet else 0
      let s := if armed then s.clearSetArm.clamp (.register regTimeCtl) (b2n (v ≤ s.time.now)) else s
      ({ s with time := { s.time with now := v, quality := .referenced, slew := 0, slewPhase := 0 } } : State).chooseRoot
    else s
  else if armed then
    if s.time.now < s.timeSet then
      ({ s with time := { s.time with now := s.timeSet, slew := 0, slewPhase := 0 } } : State).clearSetArm
    else (s.clearSetArm).clamp (.register regTimeCtl) 1
  else if s.trefEn && s.fab.upPort = 15 && s.fab.hops = 0 then
    let r := s.time.now % 1000000000
    let off : Int := if r < 500000000 then r else (r : Int) - 1000000000
    s.steer (256 * off) .referenced
  else s

/-- TIME_REF_PULSE: `interval` is the time in nanoseconds since the pulse before it, 0 for the first. DEDUCED (log 25). -/
def execTimeRefPulse (interval : Nat) (s : State) : Host.Outcome State Fault Refusal :=
  let good := 999900000 ≤ interval && interval ≤ 1000100000
  .next (((if !s.powered then s
    else if s.fab.trefValid then s.validPulse.chooseRoot
    else
      ({ s with fab := { s.fab with
          trefValid := good && 1 ≤ s.fab.trefPulses, trefPulses := 1 } } : State).chooseRoot).tellQuality s).releaseSkipped s.time.now)

/-- TIME_REF_LOST: 2 s without a pulse (R495); a root goes on as a FABRIC root (R492). -/
def execTimeRefLost (s : State) : Host.Outcome State Fault Refusal :=
  .next (if !s.powered then s
    else ({ s with fab := { s.fab with trefValid := false, trefPulses := 0 } } : State).chooseRoot.tellQuality s)

/-- UNSET_ROOT_TIMER: the own offer has been best for 100 ms (R491). DEDUCED (log 25). -/
def execUnsetRootTimer (s : State) : Host.Outcome State Fault Refusal :=
  .next (match s.time.quality, s.bestOffer with
    | .unset, some (1, _, _, 0) =>
      if s.rootEn && s.powered then ({ s with time := { s.time with now := 0, quality := .fabric } } : State).chooseRoot.tellQuality s else s
    | _, _ => s)

/-- ROUTE_SWITCH: Station Time has reached the armed time (R476, R818). -/
def State.routeSwitch (s : State) : State :=
  let hi := s.regs.eff regRouteSwitchHi 0
  let at' := s.regs.eff regRouteSwitchLo 0 + hi % 2 ^ 30 * 2 ^ 32
  if s.powered && bit hi 31 && at' ≤ s.time.now then
    { s with
      regs := s.regs.device regRouteSwitchHi 0 (fun v => if bit v 31 then v - 2 ^ 31 else v),
      fab := { s.fab with epoch := 1 - s.fab.epoch } }
  else s

/-- ROUTE_SWITCH. -/
def execRouteSwitch (s : State) : Host.Outcome State Fault Refusal := .next s.routeSwitch

/-- TIME_NOW_LO_READ: the low word, and the high word latched (R498). -/
def execTimeNowLoRead (s : State) : Host.Outcome State Fault Refusal :=
  .next (s.onRead (bits s.time.now 31 0) (fun s => { s with fab := { s.fab with nowHi := bits s.time.now 63 32 } }))

end Sys2Proof.Machine
end

