-- ==== Sys2Proof/Machine/Msgs.lean ====
section
/-! DEFINITION. Messages that arrive over the fabric and what each does at its destination, and the timers of requests,
collectives and barriers (chapters 13 and 14: R459, R464, R467 to R473, R484, R513, R532, R539, R555, R571). -/

namespace Sys2Proof.Machine

/-! ### WRITE and READ (R468, R469) -/

/-- The local ranges that a message for this package reads or writes when it is taken: of a WRITE or READ, of a READ_DATA that
answers a mover, and the bytes of its ring that a STREAM_DATA fills. -/
def State.messageRanges (s : State) (m : Msg) : List (Nat × Nat) :=
  match m.type with
  | 0x01 | 0x02 => [(m.target, m.len)]
  | 0x03 =>
    match s.req m.tag with
    | some r => (match r.asker with | .slot _ => [(r.addr, r.len)] | .copy p => if p = 1 then [(r.addr, r.len)] else [])
    | none => []
  | 0x05 =>
    let e := s.ctx (m.target % 2 ^ 18)
    if ctxMode e = 2 then ringSpans e m.len else []
  | _ => []

/-- Response that a WRITE or READ asks for (Table 13.11): its type and the bytes it carries. -/
def Msg.response (m : Msg) : Option (Nat × Nat) :=
  match m.type with
  | 0x01 => some (0x04, 0)
  | 0x02 => some (0x03, m.len)
  | _ => none

/-- Flits of a class that wait at a port to be sent. -/
def PortState.waiting (q : PortState) (cls : Nat) : Nat :=
  ((q.queue.filter (fun o => msgClass o.msg == cls)).map (fun o => o.msg.flits - o.sent)).foldl (· + ·) 0

/-- There is no output space for the response to a WRITE or READ: with it, more response flits would wait at the port that it leaves by
than a receive buffer has for one VL (R577). How much output space a node has the spec does not say. DESIGN CHOICE (log 24). -/
def State.outputFull (s : State) (m : Msg) : Bool :=
  match m.response with
  | none => false
  | some (t, n) =>
    let a := s.newMsg t m.src m.target m.tag n (List.replicate n 0) []
    a.dst != s.chipId && (match s.egress a with
      | some (p, _) => decide (classBuffer 1 < (s.portAt p).waiting 1 + a.flits)
      | none => false)

/-- A message for this package waits where it lies: a range that it reads or writes waits on a stack or on a memory that holds (R50,
R373, R377, R745), or its response has no output space (R577). DEDUCED (log 21). -/
def State.messageWaits (s : State) (m : Msg) : Bool :=
  m.dst = s.chipId && (s.outputFull m || (s.messageRanges m).any (fun r =>
    (s.stackWaits r.1 r.2 && !s.stackFenced r.1 r.2) || (r.1 < accEnd && s.sramHeld (dieOfAddr r.1))))

/-- A WRITE: the payload goes to TARGET, poisoned granules poisoned, and WRITE_ACK is sent. A range that no region holds
is dropped with a clamp, and one in a stack that serves nothing is dropped. DEDUCED (log 21). -/
def State.msgWrite (s : State) (m : Msg) : State :=
  let a := m.target
  let n := m.len
  let s :=
    if !oneRegion a n then s.clamp (.message m.src) 1
    else if s.stackFenced a n then s
    else
      let ps := (flagsPer 16 m.poison ++ List.replicate n false).take n
      let (_, clamps, s) := s.writeLocal a (slice m.payload 0 n) ps
      s.clamp (.message m.src) clamps
  (s.send (s.newMsg 0x04 m.src a m.tag 0 [] [])).2

/-- A READ: LEN bytes at TARGET go back in READ_DATA, with the poison of each granule. The spec does not say what a range
returns that no region holds or whose stack serves nothing: those bytes are open
values. DESIGN CHOICE (log 7). -/
def State.msgRead (s : State) (m : Msg) : State :=
  let a := m.target
  let n := m.len
  let (bs, ps, s) :=
    if !oneRegion a n then
      let (bs, s) := (s.clamp (.message m.src) 1).freeBytes n
      (bs, [], s)
    else if s.stackFenced a n then
      let (bs, s) := s.freeBytes n
      (bs, [], s)
    else s.readLocal a n
  (s.send (s.newMsg 0x03 m.src a m.tag n bs (granulePoison ps))).2

/-! ### Responses (R468, R484) -/

/-- Class of the descriptor in a slot: SNAPSHOT runs at the package root, every other requester is a mover. -/
def State.slotClass (s : State) (k : Nat) : Nat :=
  match s.slot k with
  | some sl => if opcodeOf sl.desc = 0x71 then 10 else 3
  | none => 3

/-- READ_DATA: the data go to the requester's address. A response that no outstanding READ expects is discarded. -/
def State.msgReadData (s : State) (m : Msg) : State :=
  match s.req m.tag with
  | none => s
  | some r =>
    if !r.read then s
    else
      let s := s.putReq m.tag none
      match r.asker with
      | .copy phase => s.copyArrive r phase (slice m.payload 0 r.len) m.poison
      | .slot k =>
        if s.stackFenced r.addr r.len then (s.pieceFails k (s.slotClass k) .fenced r.mover r.node 0).moversOn
        else
          let ps := (flagsPer 16 m.poison ++ List.replicate r.len false).take r.len
          let (bad, clamps, s) := s.writeLocal r.addr (slice m.payload 0 r.len) ps
          let src := match s.slot k with | some sl => sl.source | none => ClampSource.table
          let s := (s.clamp src clamps).addPoison k r.mover r.node (poisonCount r.addr ps + b2n (bad && !ps.any id))
          (s.moverOn k (s.slotClass k)).moversOn

/-- WRITE_ACK: the WRITE is done. -/
def State.msgWriteAck (s : State) (m : Msg) : State :=
  match s.req m.tag with
  | none => s
  | some r =>
    match r.asker with
    | .copy _ => s
    | .slot k => if r.read then s else ((s.putReq m.tag none).moverOn k (s.slotClass k)).moversOn

/-- A request ends without its response: its piece ends with TIMEOUT and a chip number, and a copy fails over
to its next source (R41, R473, R484, R658). -/
def State.requestFails (s : State) (tag chip : Nat) : State :=
  match s.req tag with
  | none => s
  | some r =>
    let s := s.putReq tag none
    match r.asker with
    | .copy _ => s.copyFail 1
    | .slot k => (s.pieceFails k (s.slotClass k) .timeout r.mover r.node chip).moversOn

/-- UNREACHABLE: the source descriptor completes with TIMEOUT at once, with the chip that TARGET carries (R473). -/
def State.msgUnreachable (s : State) (m : Msg) : State :=
  let chip := m.target % 32768
  if m.tag < 0x8000 then s.requestFails m.tag chip
  else if m.tag < 0xC000 then s.collUnreachable m.tag
  else
    match s.host.slots.find? (fun kv => match kv.2 with
      | some sl => sl.phase == .running && sl.begun && opcodeOf sl.desc == 0x21 && streamAction sl.desc == 0 &&
          sl.born % 16384 == m.tag % 16384
      | none => false) with
    | some kv => s.moverTimeout kv.1 3 chip
    | none => s

/-! ### EVENT and DOORBELL -/

/-- EVENT: its 16-byte record goes to completion ring 0 (R571, R573). -/
def State.msgEvent (s : State) (m : Msg) : State := s.bufferEvent (slice m.payload 0 16)

/-- DOORBELL: a write of SQ_TAIL on a ring whose REMOTE is 1; otherwise it is discarded and counted (R555). -/
def State.msgDoorbell (s : State) (m : Msg) : State :=
  let r := m.target % 256
  let v := bits m.target 23 8
  if bit (s.sqCfg r) 15 then s.doorbell r v (.doorbellMessage m.src v r) else s.discardMsg

/-! ### Delivery (R468, R472) -/

/-- A COLL message by KIND (Table 14.5). -/
def State.msgColl (s : State) (m : Msg) : State :=
  match bits m.target 23 22 with
  | 0 => s.collReduce m
  | 1 => s.collGather m
  | 2 => s.collAbort m
  | _ => s.collBarrier m

/-- What a message for this package does, by TYPE (Table 13.11). -/
def State.consume (s : State) (m : Msg) : State :=
  match m.type with
  | 0x01 => s.msgWrite m
  | 0x02 => s.msgRead m
  | 0x03 => s.msgReadData m
  | 0x04 => s.msgWriteAck m
  | 0x05 => s.streamData m
  | 0x06 => s.streamCredit m
  | 0x07 => s.msgColl m
  | 0x08 => s.collCredit m
  | 0x09 => s.msgEvent m
  | 0x0A => s.msgUnreachable m
  | 0x0B => s.msgDoorbell m
  | _ => s.discardMsg

/-- A message for this package. In FATAL it is discarded, and one of class C2 or C3 is answered with UNREACHABLE (R711);
while a reset runs the same holds, but for C0 (R792). What it does may let the step boundary go on. -/
def State.accept (s : State) (m : Msg) : State :=
  if s.cores.fatal || s.rst.state == 1 then
    if s.rst.state == 1 && msgClass m = 0 then s.msgEvent m else s.bounce m
  else (s.consume m).pump

/-- A known message type. -/
def knownType (t : Nat) : Bool := 0x01 ≤ t && t ≤ 0x0B

/-- A message that lies whole in the receive buffer of a port: it is consumed, discarded or passed on (R468 to R472), and its credits go
back as its flits leave the buffer (R463). -/
def State.deliver (s : State) (p link : Nat) (h : Held) : State :=
  let origin := some (p, link, h.lane)
  if h.headerPoisoned || !knownType h.msg.type then s.discardMsg.returnCredit origin h.flits
  else if h.msg.dst = s.chipId then (s.accept h.msg).returnCredit origin h.flits
  else s.forwardMsg (h.lane % 2) origin h.msg

/-- The messages in a port's receive buffer that wait for nothing are delivered, those of one class and VL in order: one that waits holds
no other class or VL up (R466, R475, R576). -/
def State.drainPort (s : State) (p : Nat) : State :=
  let all := (s.portAt p).inbox
  let put (s : State) (h : Held) : State := s.modPort p (fun q => { q with inbox := q.inbox ++ [h] })
  (all.foldl (fun (x : List Nat × State) h =>
      if x.1.contains h.lane || (!h.headerPoisoned && x.2.messageWaits h.msg) then (h.lane :: x.1, put x.2 h)
      else (x.1, x.2.deliver p (s.portAt p).link h))
    ([], s.modPort p (fun q => { q with inbox := [] }))).2

/-- The messages that this package has taken in for itself and that wait for nothing are acted on, those of one class from one chip in
order (R472, R475). -/
def State.drainArrived (s : State) : State :=
  let put (s : State) (m : Msg) : State := { s with fab := { s.fab with arrived := s.fab.arrived ++ [m] } }
  let of (m : Msg) : Nat × Nat := (msgClass m, m.src)
  (s.fab.arrived.foldl (fun (x : List (Nat × Nat) × State) m =>
      if x.1.contains (of m) || x.2.messageWaits m then (of m :: x.1, put x.2 m) else (x.1, x.2.accept m))
    ([], ({ s with fab := { s.fab with arrived := [] } } : State))).2

/-- Messages that wait for nothing are acted on: what lies in the receive buffers and what this package has taken in for itself. What
acting on one sends to the package itself is acted on at the next beat at the latest. DESIGN CHOICE (log 21). -/
def State.takeWaiting (s : State) : State := ((List.range 12).foldl State.drainPort s).drainArrived

/-- DATA_FLIT (R459). DEDUCED (log 24). -/
def execDataFlit (port : Nat) (bytes : List Byte) (s : State) : Host.Outcome State Fault Refusal :=
  .next (if !s.portOn port then s
    else if (s.portAt port).mode == .align then s.lockFlit port (goodFlit bytes)
    else if (s.portAt port).mode == .up then (s.takeFlit port bytes).takeWaiting
    else s)

/-- MESSAGE_FORWARD. The message came in on VL 0, and no flit of it lies in a receive buffer; one of a reserved type is discarded
(R468). -/
def execMessageForward (_port : Nat) (header payload : List Byte) (poison : List Bool) (s : State) :
    Host.Outcome State Fault Refusal :=
  let m : Msg := ⟨slice header 0 16, payload, poison⟩
  .next (if m.dst = s.chipId || !s.powered then s
    else if !knownType m.type then s.discardMsg
    else (s.forwardMsg 0 none m).drainArrived)

/-! ### The message commands: a message of one type that has arrived for this package -/

/-- Take a message of a given type that is addressed to this package. One that must wait, or that comes behind one of its class and
source that waits, stays until it can be acted on. -/
def State.takeMsg (s : State) (type : Nat) (header payload : List Byte) (poison : List Bool) : State :=
  let m : Msg := ⟨slice header 0 16, payload, poison⟩
  if s.powered && m.type = type && m.dst = s.chipId then
    if s.messageWaits m || s.fab.arrived.any (fun x => msgClass x == msgClass m && x.src == m.src) then
      { s with fab := { s.fab with arrived := s.fab.arrived ++ [m] } }
    else s.accept m
  else s

/-- Take a COLL message of a given kind. -/
def State.takeColl (s : State) (kind : Nat) (header payload : List Byte) (poison : List Bool) : State :=
  if bits (field header 8 6) 23 22 = kind then s.takeMsg 0x07 header payload poison else s

/-- WRITE. -/
def execWrite (header payload : List Byte) (poison : List Bool) (s : State) : Host.Outcome State Fault Refusal :=
  .next (s.takeMsg 0x01 header payload poison)

/-- READ. -/
def execRead (header : List Byte) (s : State) : Host.Outcome State Fault Refusal := .next (s.takeMsg 0x02 header [] [])

/-- READ_DATA. -/
def execReadData (header payload : List Byte) (poison : List Bool) (s : State) : Host.Outcome State Fault Refusal :=
  .next (s.takeMsg 0x03 header payload poison)

/-- WRITE_ACK. -/
def execWriteAck (header : List Byte) (s : State) : Host.Outcome State Fault Refusal :=
  .next (s.takeMsg 0x04 header [] [])

/-- STREAM_DATA. -/
def execStreamData (header payload : List Byte) (poison : List Bool) (s : State) : Host.Outcome State Fault Refusal :=
  .next (s.takeMsg 0x05 header payload poison)

/-- STREAM_CREDIT. -/
def execStreamCredit (header : List Byte) (s : State) : Host.Outcome State Fault Refusal :=
  .next (s.takeMsg 0x06 header [] [])

/-- COLL_REDUCE. -/
def execCollReduce (header payload : List Byte) (poison : List Bool) (s : State) : Host.Outcome State Fault Refusal :=
  .next (s.takeColl 0 header payload poison)

/-- COLL_GATHER. -/
def execCollGather (header payload : List Byte) (poison : List Bool) (s : State) : Host.Outcome State Fault Refusal :=
  .next (s.takeColl 1 header payload poison)

/-- COLL_ABORT. -/
def execCollAbort (header payload : List Byte) (s : State) : Host.Outcome State Fault Refusal :=
  .next (s.takeColl 2 header payload [])

/-- COLL_BARRIER. -/
def execCollBarrier (header payload : List Byte) (s : State) : Host.Outcome State Fault Refusal :=
  .next (s.takeColl 3 header payload [])

/-- COLL_CREDIT. -/
def execCollCredit (header payload : List Byte) (s : State) : Host.Outcome State Fault Refusal :=
  .next (s.takeMsg 0x08 header payload [])

/-- EVENT. -/
def execEvent (header payload : List Byte) (s : State) : Host.Outcome State Fault Refusal :=
  .next (s.takeMsg 0x09 header payload [])

/-- UNREACHABLE. -/
def execUnreachable (header : List Byte) (s : State) : Host.Outcome State Fault Refusal :=
  .next (s.takeMsg 0x0A header [] [])

/-- DOORBELL. -/
def execDoorbell (header : List Byte) (s : State) : Host.Outcome State Fault Refusal :=
  .next (s.takeMsg 0x0B header [] [])

/-! ### Timers -/

/-- Length of the wait for a response in beats: STALL_LIMIT, and for a SNAPSHOT its TIMEOUT field where that is not 0 (R53,
Table 16.22). -/
def State.responseBeats (s : State) (r : Request) : Nat :=
  match r.asker with
  | .copy _ => s.timeoutBeats 0
  | .slot k =>
    match s.slot k with
    | some sl => s.timeoutBeats (if opcodeOf sl.desc = 0x71 then field sl.desc 28 3 else 0)
    | none => s.timeoutBeats 0

/-- RESPONSE_TIMEOUT: a WRITE_ACK or READ_DATA has not come within its time (R53, R484); the timers stand still under
TIMER_PAUSE (R697). DESIGN CHOICE (log 8). -/
def execResponseTimeout (tag : Nat) (s : State) : Host.Outcome State Fault Refusal :=
  .next (if s.timersPaused then s
    else match s.req tag with
      | some r => if r.since + s.responseBeats r ≤ s.time.timer then (s.requestFails tag r.chip).pump else s
      | none => s)

/-- COLL_SEGMENT_SEND. -/
def execCollSegmentSend (slot : Nat) (s : State) : Host.Outcome State Fault Refusal :=
  .next (if s.nodesStopped then s else (s.collSend slot).pump)

/-- COLL_TIMEOUT. -/
def execCollTimeout (slot : Nat) (s : State) : Host.Outcome State Fault Refusal :=
  .next (if s.nodesStopped then s else (s.collTimeout slot).pump)

/-- BARRIER_RELEASE. -/
def execBarrierRelease (slot : Nat) (s : State) : Host.Outcome State Fault Refusal :=
  .next (if s.nodesStopped then s else (s.barrierRelease slot).pump)

end Sys2Proof.Machine
end

