-- ==== Sys2Proof/Machine/Cores.lean ====
section
/-! DEFINITION. Control cores, halts, FATAL, the signal logs and counters as software reads them (chapter 19: R686 to
R712, R715, R717). The dump's contents stand in Machine/Dump.lean, the Debug Module in Machine/Debug.lean. -/

namespace Sys2Proof.Machine

/-! ### Cores (R686 to R689) -/

/-- Role of hart h (Table 19.2, the assignment of B0 firmware). -/
def hartRole (h : Nat) : Nat :=
  let c := h % 32
  if c = 0 then 1 else if c ≤ 4 then 2 else if c ≤ 8 then 3 else if c = 9 then 4 else if c = 10 then 5
  else if c = 11 then 6 else if c ≤ 27 then 7 else if c ≤ 30 then 0 else 8

/-- Root of the subtree whose node controllers hart h serves; 0xFFFF for none (R689, Table 19.2). DEDUCED (log 36). -/
def hartNode (h : Nat) : Nat :=
  let d := h / 32
  let c := h % 32
  if h = 0 then 0 else if c = 0 then dieNode d else if c ≤ 4 then quadrantNode d (c - 1)
  else if c ≤ 8 then stackNode (4 * d + (c - 5)) else 0xFFFF

/-- The cores run: images are loaded, and power is present. -/
def State.coresRun (s : State) : Bool := s.rst.bar0 && s.rst.state != 4 && s.mgmt.bootFail = 0 && !s.rst.stoppedAll

/-! ### Halts (R691 to R698) -/

/-- Root of a hart's scope (R692): CORE_SCOPE 0 the served subtree, 1 its die, 2 the package. -/
def State.hartScope (s : State) (h : Nat) : Nat :=
  match bits (s.regs.eff regObsCfg 0) 2 1 with
  | 0 => hartNode h
  | 1 => dieNode (h / 32)
  | _ => 0

/-- Classes that a group deals to its children in pieces. -/
def dealtClass (d : List Byte) : Bool :=
  match opClass (opcodeOf d) with
  | some c => c ≤ 3 || c == 5
  | none => false

/-- Pieces dispatched before a halt still run at nodes of its scope (R693 step 3). DEDUCED (log 36). -/
def State.draining (s : State) (h : Halt) : Bool :=
  s.host.slots.any (fun kv => match kv.2 with
    | some sl => sl.phase == .running && decide (sl.dispatched < h.since) &&
        (inSubtree h.node (targetOf sl.desc) || (dealtClass sl.desc && inSubtree (targetOf sl.desc) h.node))
    | none => false)

/-- A descriptor runs at a node. -/
def State.runsAt (s : State) (id : Nat) : Bool :=
  s.host.slots.any (fun kv => match kv.2 with
    | some sl => sl.phase == .running && targetOf sl.desc == id
    | none => false)

/-- Step 4: every held node that is Idle, Busy or Frozen takes state Halted; one whose pieces still run stays (R694). -/
def State.haltNodes (s : State) (top : Nat) : State :=
  s.tellStates ((subtree top).foldl (fun s i =>
    let u := s.unitOf i
    match (s.unit u).state with
    | .idle => s.modUnit u (fun x => { x with state := .halted })
    | .busy | .frozen => if s.runsAt i then s else s.modUnit u (fun x => { x with state := .halted })
    | .halted | .fenced | .retired | .failed | .spare => s) s) top

/-- ARG of a BREAK entry and event (Table 19.4). -/
def breakArg (source : Nat) (incomplete : Bool) : Nat :=
  (if source < 64 then source else 0) + 64 * b2n (64 ≤ source) + 128 * b2n incomplete

/-- Step 5: the halt is reported, with DRAIN_INCOMPLETE where its drain has not ended (R693, R694). -/
def State.reportHalt (s : State) (h : Halt) : State :=
  let bad := s.draining h
  let s := (s.haltNodes h.node).drained (fun a => (subtree h.node).contains (stackNode (stackOf a)))
  let s := { s with cores := { s.cores with
    halts := s.cores.halts.map (fun x => if x == h then { x with reported := true } else x), incomplete := bad } }
  (s.event 0x0A01 (breakArg h.source bad) false).sig 0 0x09 (breakArg h.source bad)

/-- A halt begins. Where every node of its scope is already held it is reported at once (R695). -/
def State.beginHalt (s : State) (source node : Nat) : State :=
  let held := (subtree node).all s.heldNode
  let h : Halt := ⟨source, node, false, s.host.dispatches⟩
  if s.cores.halts.any (fun x => x.source == source && (source < 64 || x.node == node)) then s
  else
    let s := { s with cores := { s.cores with halts := s.cores.halts ++ [h] } }
    if held then s.reportHalt h else s

/-- A hart enters debug mode, and its halt begins; `pc` is the instruction that caused it and `cause` that of dcsr. -/
def State.debugHalt (s : State) (hart pc cause : Nat) : State :=
  if 64 ≤ hart || !s.coresRun || s.cores.halts.any (fun x => x.source == hart) then s
  else
    let s := { s with cores := { s.cores with
      dpc := mput 0 s.cores.dpc hart (pc % 2 ^ 64),
      hartRegs := mput 0 s.cores.hartRegs (hart * 2 ^ 32 + 0x7B0) (cause % 8 * 64) } }
    s.beginHalt hart (s.hartScope hart)

/-- DEBUG_HALT. -/
def execDebugHalt (hart pc cause : Nat) (s : State) : Host.Outcome State Fault Refusal :=
  .next (s.debugHalt hart pc cause)

/-- A host halt of HALT_NODE's subtree; an identifier that names no node leaves it without effect, with a clamp. -/
def State.hostHalt (s : State) : State :=
  let id := s.regs.shadow regHaltNode 0 % 65536
  if (s.placeOf id).isNone || 0xF000 ≤ id then s.clamp (.register regHaltNode) 1
  else if s.coresRun then s.beginHalt 64 id else s

/-- DBG_CTL_HALT. -/
def execDbgCtlHalt (s : State) : Host.Outcome State Fault Refusal := .next (s.onWrite (fun s => s.hostHalt))

/-- HALT_DRAIN_COMPLETE: the halts whose scope runs nothing any more are reported. -/
def execHaltDrainComplete (s : State) : Host.Outcome State Fault Refusal :=
  .next (s.cores.halts.foldl (fun s h => if h.reported || s.draining h then s else s.reportHalt h) s)

/-- DRAIN_LIMIT_EXPIRY: the oldest halt not yet reported has drained for DRAIN_LIMIT (R694). -/
def execDrainLimitExpiry (s : State) : Host.Outcome State Fault Refusal :=
  .next (match s.cores.halts.find? (fun h => !h.reported) with
    | some h => s.reportHalt h
    | none => s)

/-- Halts end: nodes that no halt holds return to Idle or Busy, and the last halt's end is reported (R698).
DEDUCED (log 36). -/
def State.endHalts (s : State) (p : Halt → Bool) : State :=
  let gone := s.cores.halts.filter p
  if gone = [] then s
  else
    let s := { s with cores := { s.cores with halts := s.cores.halts.filter (fun h => !p h) } }
    let s := gone.foldl (fun s h => s.tellStates ((subtree h.node).foldl (fun s i =>
      let u := s.unitOf i
      if (s.unit u).state == .halted && !s.heldNode i then
        s.modUnit u (fun x => { x with state := if s.runsAt i then .busy else .idle })
      else s) s) h.node) s
    if s.cores.halts.isEmpty then (s.event 0x0A02 0 false).sig 0 0x0A 0 else s

/-- HART_RESUME. -/
def execHartResume (hart : Nat) (s : State) : Host.Outcome State Fault Refusal :=
  .next (if hart < 64 then s.endHalts (fun h => h.source == hart) else s)

/-- DBG_CTL_RESUME. -/
def execDbgCtlResume (s : State) : Host.Outcome State Fault Refusal := .next (s.onWrite (fun s => s.endHalts (fun h => h.source == 64)))

/-! ### FATAL (R709 to R712, R715) -/

/-- A fatal cause: the first enters FATAL, whose step 1 stops acceptance and dispatch; later ones set MULTIPLE (R709).
DEDUCED (log 54). -/
def State.enterFatal (s : State) (cause : Nat) (hart : Option Nat) : State :=
  let s := { s with cores := { s.cores with dead := hart.toList ++ s.cores.dead } }
  if s.cores.fatal then { s with cores := { s.cores with multiple := true } }
  else
    ({ s with cores := { s.cores with
      fatal := true, seen := true, multiple := false, cause := cause, fatalStamp := s.stamp } } : State)

/-- The hart that writes the dump: core 0 of die 0, or of die 1 where that one is a cause; none where neither can
(R712). -/
def State.dumpWriter (s : State) : Option Nat := [0, 32].find? (fun h => !s.cores.dead.contains h)

/-- First byte and bytes of the dump region (Table 19.13). -/
def State.dumpBase (s : State) : Nat :=
  bits (s.regs.eff regDumpBaseLo 0) 31 12 * 4096 + bits (s.regs.eff regDumpBaseHi 0) 15 0 * 2 ^ 32
def State.dumpRoom (s : State) : Nat := s.regs.eff regDumpLen 0 * 2 ^ 20

/-- A stack of the dump region is FAILED (R712), or is in TEST state, which completes every access with FENCED (R383). DESIGN CHOICE
(log 36). -/
def State.dumpBlocked (s : State) : Bool :=
  (List.range 8).any (fun k => ((s.stack k).mode == .failed || (s.stack k).inTest) &&
    overlap s.dumpBase s.dumpRoom (stackBase + k * stackSize) stackSize)

/-- The dump begins: it is abandoned where no core can write it or its region is lost, and none is written where
DUMP_LEN is 0 (R712, R714). -/
def State.startDump (s : State) : State :=
  let st := if s.dumpRoom = 0 then 0 else if s.dumpWriter.isNone || s.dumpBlocked then 3 else 1
  { s with cores := { s.cores with dumpState := st, truncated := false, hostDone := false, dumpMib := 0 } }

/-- DUMP_STATUS (Table 19.13). -/
def State.dumpStatus (s : State) : Nat :=
  s.cores.dumpState * 2 ^ 30 + b2n s.cores.truncated * 2 ^ 29 + b2n s.cores.hostDone * 2 ^ 28 + s.cores.dumpMib % 2 ^ 24

/-- Write waiting events while ring 0 has room. -/
def State.eventsOut : Nat → State → State
  | 0, s => s
  | fuel + 1, s => if s.host.events ≠ [] && s.cqHasRoom 0 then State.eventsOut fuel s.eventWrite else s

/-- Steps 2 to 4 of R710: logs and counters stop, the FATAL event goes out with ring 0's interrupt whether or not it is
armed, the root's log takes its entry, MCTP and the black box are told, and the dump begins. DEDUCED (log 36). -/
def State.fatalStop (s : State) : State :=
  if !s.cores.fatal || s.cores.stopped then s
  else
    let s := s.flushBuffers.sig 0 0x0E s.cores.cause
    let s := { s with cores := { s.cores with stopped := true } }
    let s := (s.event 0x0A03 s.cores.cause true)
    let s := (State.eventsOut 513 s).signalRing 0
    let s := (s.platform 47 3).startDump
    s.bbRecord 0x0004 (natLe 1 s.cores.cause ++ natLe 4 s.dumpStatus)

/-- FATAL_DRAIN_LIMIT_EXPIRY. -/
def execFatalDrainLimitExpiry (s : State) : Host.Outcome State Fault Refusal := .next s.fatalStop

/-- DBG_CTL_FORCE_FATAL. -/
def State.forceFatal (s : State) : State :=
  if s.coresRun then s.enterFatal 6 none else s

/-- DBG_CTL_FORCE_FATAL. -/
def execDbgCtlForceFatal (s : State) : Host.Outcome State Fault Refusal :=
  .next (s.onWrite (fun s => s.forceFatal))

/-- CORE_TRAP. -/
def execCoreTrap (hart : Nat) (s : State) : Host.Outcome State Fault Refusal :=
  .next (if hart < 64 && s.coresRun then
      ({ s with cores := { s.cores with trapped := hart :: s.cores.trapped.filter (· != hart) } } : State).enterFatal 1
        (some hart)
    else s)

/-- WATCHDOG: a core of an idle role, and a hart in debug mode, are exempt. -/
def execWatchdog (hart : Nat) (s : State) : Host.Outcome State Fault Refusal :=
  .next (if hart < 64 && s.coresRun && hartRole hart ≠ 0 && !s.cores.halts.any (fun h => h.source == hart) then
      s.enterFatal 2 (some hart)
    else s)

/-- QUEUE_UE. -/
def execQueueUe (s : State) : Host.Outcome State Fault Refusal :=
  .next (if s.coresRun then s.enterFatal 3 none else s)

/-- COUPLING. -/
def execCoupling (s : State) : Host.Outcome State Fault Refusal :=
  .next (if s.coresRun then s.enterFatal 4 none else s)

/-! ### Signal logs (R702) -/

/-- SIG_SEL latches an entry and the count of its node. -/
def State.sigSel (s : State) (value : Nat) : State :=
  let s := { s with regs := s.regs.write regSigSel 0 (BitVec.ofNat 32 value) }
  let id := bits value 31 16
  let log := if (s.placeOf id).isSome then mget SigLog.reset s.obs.logs (s.unitOf id) else SigLog.reset
  let bytes := match log.entries[value % 64]? with
    | some e => natLe 8 e.1 ++ natLe 8 e.2
    | none => List.replicate 16 0
  { s with obs := { s.obs with sigInfo := log.count, sigData := bytes } }

/-- SIG_SEL. -/
def execSigSel (value : Nat) (s : State) : Host.Outcome State Fault Refusal :=
  .next (s.onWrite (fun s => s.sigSel value))

/-! ### Counters (R703 to R706) -/

/-- Whether the node at a place keeps a counter. DEDUCED (log 15). -/
def keepsCounter (id : Nat) (p : Place) : Bool :=
  let n := id % 32
  let root := p == .root
  let die := match p with | .die _ => true | _ => false
  let stack := match p with | .stack _ => true | _ => false
  let cell := p.kind == .cell
  let ve := p.kind == .vectorEngine
  let ue := p.kind == .updateEngine
  match id / 1024, id / 32 % 32 with
  | 2, 16 => n = 0 && (cell || ve)
  | 9, 0 => n = 0 && (cell || ve || ue)
  | 15, 0 => n = 0 && root
  | 3, 12 => n < 4 && (cell || ve || ue)
  | 4, 8 => n < 7 && cell
  | 5, 8 => if n = 6 then ve else n < 6 && cell
  | 6, 12 => n < 11 && (ve || (n = 8 && cell))
  | 7, 14 => if n < 4 then cell else if n < 7 then ve else n < 16 && root
  | 8, 8 => n < 7 && ve
  | 10, 12 => if n < 8 then die else n < 12 && cell
  | 11, 10 => n < 12 && stack
  | 12, 11 => if n = 9 then stack else n < 9 && ue
  | 13, 19 => if n < 10 then die else n < 16 && root
  | 14, 9 => n < 10 && root
  | 15, 10 => n < 8 && root
  | 17, 9 => n < 5 && root
  | 18, 11 => n < 9 && root
  | 20, 11 => n < 11 && root
  | 21, 16 => n < 9 && root
  | _, _ => false

/-- Units at or below a node that keep a counter (R705). -/
def State.keepers (s : State) (node ctr : Nat) : List Nat :=
  match s.placeOf node with
  | none => []
  | some p => ((rangeFrom node p.span).filter (fun i => match s.placeOf i with
      | some q => keepsCounter ctr q
      | none => false)).map s.unitOf

/-- The sum of a counter over some units, saturating at its width. -/
def ctrSum (vals : List (Nat × Nat)) (units : List Nat) (id : Nat) : Nat :=
  sat (ctrWidth id) ((units.map (fun u => mget 0 vals (ctrKey u id))).foldl (· + ·) 0)

/-- A counter value is saturated. -/
def ctrSaturated (id v : Nat) : Bool := v = 2 ^ ctrWidth id - 1

/-- CTR_SEL latches the live value, the latched value and the flags (R705). -/
def State.ctrSel (s : State) (value : Nat) : State :=
  let s := { s with regs := s.regs.write regCtrSel 0 (BitVec.ofNat 32 value) }
  let id := value % 65536
  let us := s.keepers (bits value 31 16) id
  let live := ctrSum s.obs.live us id
  let old := ctrSum s.obs.latched us id
  if us = [] then { s with obs := { s.obs with ctrFlags := 4, ctrLive := 0, ctrLatched := 0 } }
    else { s with obs := { s.obs with
      ctrFlags := b2n (ctrSaturated id live) + 2 * b2n (ctrSaturated id old), ctrLive := live, ctrLatched := old } }

/-- CTR_SEL. -/
def execCtrSel (value : Nat) (s : State) : Host.Outcome State Fault Refusal :=
  .next (s.onWrite (fun s => s.ctrSel value))

/-- CTR_CMD (Table 19.10). -/
def regCtrCmd : Nat := 0x504C

/-- CTR_CMD_LATCH: ignored with a clamp while a STEP runs (R706). -/
def State.ctrLatch (s : State) : State :=
  if s.tf.run.isSome then s.clamp (.register regCtrCmd) 1 else s.latchCounters

/-- CTR_CMD_LATCH. -/
def execCtrCmdLatch (s : State) : Host.Outcome State Fault Refusal :=
  .next (s.onWrite (fun s => s.ctrLatch))

/-! ### CORE_STATUS (Table 19.11) -/

/-- CORE_STATUS of a hart. -/
def State.coreStatus (s : State) (h : Nat) : Nat :=
  let st :=
    if s.cores.trapped.contains h then 3
    else match s.cores.halts.find? (fun x => x.source == h) with
      | some x => if x.reported then 1 else 2
      | none => 0
  st * 2 ^ 30 + hartRole h * 2 ^ 24 + hartNode h

/-- CORE_SEL latches a hart's status. -/
def State.coreSel (s : State) (value : Nat) : State :=
  let s := { s with regs := s.regs.write regCoreSel 0 (BitVec.ofNat 32 value) }
  { s with cores := { s.cores with status := s.coreStatus (value % 64) } }

/-- CORE_SEL. -/
def execCoreSel (value : Nat) (s : State) : Host.Outcome State Fault Refusal :=
  .next (s.onWrite (fun s => s.coreSel value))

/-- DBG_STATUS (Table 19.11). -/
def State.dbgStatus (s : State) : Nat :=
  let hs := s.cores.halts
  b2n (hs.any (fun h => h.source == 64 && h.reported)) * 2 ^ 31
    + b2n (hs.any (fun h => !h.reported)) * 2 ^ 30 + b2n s.cores.incomplete * 2 ^ 29
    + (hs.filter (fun h => h.source < 64 && h.reported)).length * 2 ^ 16
    + sat 16 ((rangeFrom 0 spanRoot).filter s.heldNode).length

/-- FATAL_STATUS (Table 19.13). -/
def State.fatalStatus (s : State) : Nat :=
  b2n s.cores.fatal * 2 ^ 31 + b2n s.cores.seen * 2 ^ 30 + b2n s.cores.multiple * 2 ^ 29 + s.cores.cause % 256

end Sys2Proof.Machine
end

