-- ==== Sys2Proof/Machine/Power.lean ====
section
/-! DEFINITION. Power, cooling and the competing loops: limits, levers, precedence, supply holds and the thermal trip
(chapter 20: R719 to R752). -/

namespace Sys2Proof.Machine

/-- Counters of Table 20.11 by position. -/
def ctrPwr (n : Nat) : Nat := ctrId 20 11 n

/-- Change the component of a pair for a die. -/
def modDie {α : Type} (p : α × α) (d : Nat) (f : α → α) : α × α := if d = 0 then (f p.1, p.2) else (p.1, f p.2)

/-- Change the power state. -/
def State.modPwr (s : State) (f : PwrState → PwrState) : State := { s with pwr := f s.pwr }

/-! ### Precedence (R722, R723, R728, R733, R738 to R740) -/

/-- The lowest and highest legal codes of V_op: 0.62 V and 0.78 V (R722). -/
def vMin : Nat := 4
def vMax : Nat := 36

/-- U_cold of a die: 0.74 V while a sensor of it reads below 30 °C (R723). -/
def PwrState.uCold (p : PwrState) (d : Nat) : Nat := if (ofDie (p.temps0, p.temps1) d).any (· < 30) then 28 else vMax

/-- U_safe of a die. -/
def PwrState.uSafe (p : PwrState) (d : Nat) : Nat := min (ofDie p.uJunction d) (min p.uCool p.uFast)

/-- A cell of a die is at margining level 1 or 2. -/
def State.margined (s : State) (d : Nat) : Bool := s.tree.history.any (fun kv => kv.2.level ≠ 0 && unitDie kv.1 == d)

/-- F_rel of a die (R738). -/
def State.fRel (s : State) (d : Nat) : Nat := if s.margined d then bits (s.regs.eff regPwrCtl 0) 13 8 else vMin

/-- The V_op that the loops give a die (R728, R738). -/
def State.vTarget (s : State) (d : Nat) : Nat :=
  if s.pwr.coolant = 2 then vMin
  else
    let perf := if d = 0 then bits (s.regs.eff regPerfCtl 0) 5 0 else bits (s.regs.eff regPerfCtl 0) 13 8
    max vMin (min perf (min (s.pwr.uCold d) (min (max s.pwr.uCap (s.fRel d)) (s.pwr.uSafe d))))

/-- F_rel holds a die above U_cap (Table 20.10, MARGIN). -/
def State.relHolds (s : State) (d : Nat) : Bool := s.pwr.uCap < s.fRel d && s.pwr.uCap < s.vTarget d

/-- The LIMITER set (Table 20.10). FAST and COOLANT are set while any share of those loops acts. DEDUCED (log 44). -/
def State.limiter (s : State) : Nat :=
  let p := s.pwr
  128 * b2n (0 < p.tFast || p.uFast < vMax)
    + 64 * b2n ([0, 1].any (fun d => ofDie p.uJunction d < vMax || 0 < ofDie p.tSlow d))
    + 32 * b2n (p.coolant = 2 || p.uCool < vMax || 0 < p.tCool)
    + 16 * b2n p.alert + 8 * b2n (p.uCap < vMax || 0 < p.tCap) + 4 * b2n (s.relHolds 0 || s.relHolds 1)
    + 2 * b2n (p.uCold 0 < vMax || p.uCold 1 < vMax)
    + b2n ([0, 1].any (fun d => ofDie p.withheld d && (List.range 128).any (fun g => s.groupCarries (128 * d + g))))

/-- Whether a die withholds its margining steps (R728, R740). -/
def PwrState.withholds (p : PwrState) (d : Nat) : Bool :=
  p.coolant = 2 || p.uSafe d < vMax || 1000 ≤ ofDie p.high d

/-- Judge the withholding of a die's steps: each cell group that carries one posts MARGIN_STEP at a change (R740). -/
def State.judgeSteps (s : State) (d : Nat) : State :=
  let w := s.pwr.withholds d
  if w = ofDie s.pwr.withheld d then s
  else
    let s := s.tellCore (s.modPwr (fun p => { p with withheld := modDie p.withheld d (fun _ => w) })) d
    ((List.range 128).map (128 * d + ·)).foldl (fun s g =>
      if s.groupCarries g then (s.count 0 (ctrPwr 7) (b2n w)).event 0x0B05 (groupNode g + 65536 * b2n w) false
      else s) s

/-- Post PWR_LIMITED where the set has changed, at most once in 1 ms (R743), and tell the management path.
DEDUCED (log 44). -/
def State.judgeLimiter (s : State) : State :=
  let set := s.limiter
  let late := match s.pwr.lastEvent with | some b => b + 1000000 ≤ s.time.beats | none => true
  if set ≠ s.pwr.lastSet && late then
    let s := s.modPwr (fun p => { p with lastSet := set, lastEvent := some s.time.beats })
    (s.event 0x0B01 (set + s.pwr.p1ms % 4096 * 256 + s.throttleOf 0 * 2 ^ 20 + s.throttleOf 1 * 2 ^ 24) false).platform 44
      set
  else s

/-- After a change of any loop. -/
def State.judgePower (s : State) : State := ((s.judgeSteps 0).judgeSteps 1).judgeLimiter

/-- The loops run while the rails are up (R751). DEDUCED (log 43). -/
def State.loopsRun (s : State) : Bool := s.rst.vaux && s.rst.pkgRun && !s.rst.stoppedAll

/-! ### The loops (Table 20.6, R738) -/

/-- T_fast for the next 1 µs. DEDUCED (log 44). -/
def PwrState.nextFast (p : PwrState) (watts : Nat) (limit2 : Bool) : PwrState :=
  if 3000 < watts then { p with tFast := min 15 (p.tFast + 4), fastDown := 0 }
  else if limit2 then { p with tFast := if p.ticks % 10 = 0 then min 15 (p.tFast + 1) else p.tFast, fastDown := 0 }
  else if 100 ≤ p.fastDown + 1 then { p with tFast := p.tFast - 1, fastDown := 0 }
  else { p with fastDown := p.fastDown + 1 }

/-- The fast loop's share of U_safe: one step down for each 1 ms at level 12 or above after the first, one step up for
each 1 ms otherwise. DEDUCED (log 44). -/
def PwrState.nextFastVolt (p : PwrState) : PwrState :=
  if p.highFast ≠ 0 && p.highFast % 1000 = 0 then { p with uFast := max vMin (p.uFast - 1) }
  else if p.highFast = 0 && p.ticks % 1000 = 0 then { p with uFast := min vMax (p.uFast + 1) }
  else p

/-- One period of the fast loop with the estimate P_1µs (R732, R733). DEDUCED (log 44). -/
def PwrState.fastTick (p : PwrState) (watts : Nat) : PwrState :=
  let p := { p with ticks := p.ticks + 1, p1us := watts, acc := (p.acc.1 + watts, p.acc.2 + 1) }
  let p := if 1000 ≤ p.acc.2 then { p with p1ms := p.acc.1 / p.acc.2, acc := (0, 0) } else p
  let above := (if 2400 < watts then [p.ticks] else []) ++ p.above.filter (fun t => p.ticks < t + 100000)
  let limit2 := 2400 < watts && 10000 ≤ above.length
  let p := { p with above := above, limit2 := limit2 }.nextFast watts limit2
  let up (d h : Nat) : Nat := if 12 ≤ max p.tFast (p.slow d) then h + 1 else 0
  { p with
    highFast := if 12 ≤ p.tFast then p.highFast + 1 else 0, high := (up 0 p.high.1, up 1 p.high.2) }.nextFastVolt

/-- FAST_SAFETY_TICK. -/
def execFastSafetyTick (watts : Nat) (s : State) : Host.Outcome State Fault Refusal :=
  .next (if !s.loopsRun then s
    else
      let before := s.pwr.limit2
      let old := s.pwr.p1ms
      let s := s.modPwr (fun p => p.fastTick watts)
      let s := s.count 0 (ctrPwr 6) (b2n (s.pwr.limit2 && !before))
      let s := [2400, 3000].foldl (fun s t =>
        if decide (old < t) != decide (s.pwr.p1ms < t) then s.platform 1 s.pwr.p1ms else s) s
      s.judgePower)

/-- One period of a loop that lowers a voltage share first and raises a throttle share at its floor. -/
def loopDown (u t : Nat) : Nat × Nat := if vMin < u then (u - 1, t) else (u, min 15 (t + 1))
/-- One period of its recovery: the throttle share falls first. -/
def loopUp (u t : Nat) : Nat × Nat := if t ≠ 0 then (u, t - 1) else (min vMax (u + 1), t)

/-- SLOW_SAFETY_JUNCTION_TICK: the recovery moves once in ten periods, which is 1 ms. DEDUCED (log 44). -/
def execSlowSafetyJunctionTick (die : Nat) (s : State) : Host.Outcome State Fault Refusal :=
  .next (if 2 ≤ die || !s.loopsRun then s
    else
      let p := s.pwr
      let u := ofDie p.uJunction die
      let t := ofDie p.tSlow die
      let n := ofDie p.slowTicks die + 1
      let put (ut : Nat × Nat) (n : Nat) : State := s.modPwr (fun p => { p with
        uJunction := modDie p.uJunction die (fun _ => ut.1), tSlow := modDie p.tSlow die (fun _ => ut.2),
        slowTicks := modDie p.slowTicks die (fun _ => n) })
      (if ofDie p.hot die then put (loopDown u t) 0
       else if 10 ≤ n then put (loopUp u t) 0
       else put (u, t) n).judgePower)

/-- COOLANT_LOOP_TICK: the loop recovers once P_1ms is at or below P_cool. DEDUCED (log 44). -/
def execCoolantLoopTick (s : State) : Host.Outcome State Fault Refusal :=
  .next (if !s.loopsRun then s
    else
      (s.modPwr (fun p =>
        let (u, t) := if p.pCool < p.p1ms then loopDown p.uCool p.tCool else loopUp p.uCool p.tCool
        { p with uCool := u, tCool := t })).judgePower)

/-- The policy cap: the lower of PWR_CAP and MGMT_CAP (R734). -/
def State.policyCap (s : State) : Nat := min (bits (s.regs.eff regPwrCtl 0) 27 16) s.mgmt.mgmtCap

/-- One period of the policy-cap loop. -/
def State.policyCapStep (s : State) : State :=
  let cap := s.policyCap
  s.modPwr (fun p =>
    if cap < p.p1ms then
      let (u, t) := loopDown p.uCap p.tCap
      { p with uCap := u, tCap := t }
    else if 100 * p.p1ms < 98 * cap then
      let (u, t) := loopUp p.uCap p.tCap
      { p with uCap := u, tCap := t }
    else p)

/-- VOP_STEP: V_op of a die moves one step toward its target, and VCORE follows with 30 mV above the highest regulator
output (R721, R722). -/
def execVopStep (die : Nat) (s : State) : Host.Outcome State Fault Refusal :=
  .next (if 2 ≤ die || !s.loopsRun then s
    else
      let v := ofDie s.pwr.vop die
      let t := s.vTarget die
      if v = t then s
      else
        (s.tellCore ((s.modPwr (fun p => { p with
          vop := modDie p.vop die (fun v => if v < t then v + 1 else v - 1) })).count 0 (ctrPwr 8) 1) die).judgePower)

/-! ### Alerts (R733) -/

/-- PWR_ALERT. -/
def execPwrAlert (s : State) : Host.Outcome State Fault Refusal :=
  .next (if !s.loopsRun then s
    else ((s.modPwr (fun p => { p with alert := true })).count 0 (ctrPwr 5) 1).judgePower)

/-- PWR_ALERT_RELEASE_TIMER. -/
def execPwrAlertReleaseTimer (s : State) : Host.Outcome State Fault Refusal :=
  .next (if s.pwr.alert then (s.modPwr (fun p => { p with alert := false })).judgePower else s)

/-! ### Readings (R720, R726 to R731) -/

/-- Send one PlatformEventMessage for each threshold that a numeric sensor crosses (R758). A reading equal to a threshold counts as above
it, as Table 20.5 has it, but for the inlet and outlet, where Table 20.4 has it below. DEDUCED (log 30). -/
def State.crossings (s : State) (sensor old new : Nat) (ths : List Nat) : State :=
  ths.foldl (fun s t => if decide (old < t) != decide (new < t) then s.platform sensor new else s) s

/-- A thermal trip: THERMTRIP# is asserted, every node stops without draining, and one THERMTRIP record is written (R731,
R801). -/
def State.trip (s : State) (die sensor temp : Nat) : State :=
  if s.rst.thermtrip || !s.rst.vaux then s
  else
    let s := { s with rst := { s.rst with thermtrip := true, stoppedAll := true } }
    ((s.emit (.pin "THERMTRIP#" false)).bbRecord 0x0003 (natLe 1 die ++ natLe 1 sensor ++ natLe 1 temp)).platform 48 1

/-- THERMTRIP: a sensor reads 110 °C or above. -/
def execThermtrip (die sensor temp : Nat) (s : State) : Host.Outcome State Fault Refusal :=
  .next (if 110 ≤ temp && die < 2 && sensor < 16 then s.trip die sensor temp else s)

/-- The hottest of some readings, and which sensor it is. -/
def hottest (ts : List Nat) : Nat × Nat :=
  (ts.zip (List.range ts.length)).foldl (fun m ti => if m.1 < ti.1 then ti else m) (0, 0)

/-- Judge the readings of one die (Table 20.5). -/
def State.judgeJunction (s : State) (d : Nat) (old new : List Nat) : State :=
  let o := (hottest old).1
  let (t, k) := hottest new
  let s := if o < 90 && 90 ≤ t then s.event 0x0B02 (d + k * 16 + min t 255 * 256) false else s
  let s := s.crossings (2 + d) o t [90, 95, 110]
  let s := s.modPwr (fun p => { p with hot := modDie p.hot d (fun h => 95 ≤ t || (h && 93 < t)) })
  if 110 ≤ t then s.trip d k t else s

/-- JUNCTION_SENSOR_READ: the 16 sensors of each die, in °C. -/
def execJunctionSensorRead (temps0 temps1 : List Nat) (s : State) : Host.Outcome State Fault Refusal :=
  .next (if !s.loopsRun then s
    else
      let t0 := temps0.take 16
      let t1 := temps1.take 16
      let o0 := s.pwr.temps0
      let o1 := s.pwr.temps1
      let s := s.modPwr (fun p => { p with temps0 := t0, temps1 := t1 })
      ((s.judgeJunction 0 o0 t0).judgeJunction 1 o1 t1).judgePower)

/-- P_cool of a coolant state with readings (Table 20.4), in watts. DEDUCED (log 44). -/
def coolLimit (state inlet flow : Nat) : Nat :=
  match state with
  | 0 => 2400
  | 1 => min 2400 (min (2400 * flow / 2500) (240 * (50 - inlet)))
  | _ => 0

/-- The coolant state whose condition some readings meet (Table 20.4). -/
def coolState (inlet outlet flow : Nat) : Nat :=
  if 2500 ≤ flow && inlet ≤ 40 then 0
  else if 1500 ≤ flow && inlet ≤ 45 && outlet ≤ 65 then 1
  else 2

/-- COOLANT_REPORT: inlet and outlet in °C, flow in 0.001 L/min. -/
def execCoolantReport (inlet outlet flow : Nat) (s : State) : Host.Outcome State Fault Refusal :=
  .next (if !s.loopsRun then s
    else
      let old := s.pwr
      let s := s.modPwr (fun p => { p with
        inlet := sat 8 inlet, outlet := sat 8 outlet, flow := sat 16 flow, pCool := coolLimit p.coolant inlet flow })
      ((s.crossings 12 old.inlet inlet [41, 46]).crossings 13 old.outlet outlet [66]).crossings 14 old.flow flow
        [2500, 1500])

/-- COOLANT_STATE_CHANGE: the condition of another state has held for its time (R727). -/
def execCoolantStateChange (s : State) : Host.Outcome State Fault Refusal :=
  .next (
    let p := s.pwr
    let st := coolState p.inlet p.outlet p.flow
    if !s.loopsRun || st = p.coolant then s
    else
      let s := s.modPwr (fun p => { p with coolant := st, pCool := coolLimit st p.inlet p.flow })
      let s := s.event 0x0B03 (st + p.inlet % 256 * 256 + p.flow % 65536 * 65536) (st = 2)
      let s := s.platform 43 st
      let s := if st = 2 then s.bbRecord 0x000C (natLe 1 p.inlet ++ natLe 1 p.outlet ++ natLe 2 p.flow) else s
      s.judgePower)

/-- Setpoint of VDDQ of a die, in mV: the nominal of Table 20.1, moved by 5 mV a step while a VDDQ margin test runs (R385).
DEDUCED (log 31). -/
def State.vddqMv (s : State) (d : Nat) : Nat :=
  match (List.range 4).findSome? (fun t => match (s.stack (4 * d + t)).margin with
      | some (3, off, _) => some off
      | _ => none) with
  | some off => (750 + 5 * off).toNat
  | none => 750

/-- Hold and release thresholds of a rail, in mV, where `setpoint` is that of VDDQ (Table 20.1). PRESUMED (log 31). -/
def holdLevels (setpoint : Nat) : Nat → Option (Nat × Nat)
  | 2 | 3 => some (700, 720)
  | 6 | 7 => some (1000, 1020)
  | 8 | 9 => some (setpoint - 40, setpoint - 20)
  | 10 | 11 => some (1700, 1740)
  | _ => none

/-- Hold and release thresholds of a rail now. -/
def State.holdNow (s : State) (r : Nat) : Option (Nat × Nat) := holdLevels (s.vddqMv (r % 2)) r

/-- Fail threshold of a rail, in mV (Table 20.1). -/
def failLevel : Nat → Option Nat
  | 0 | 1 => some 450
  | 2 | 3 => some 600
  | 6 | 7 => some 950
  | 8 | 9 => some 650
  | 10 | 11 => some 1600
  | 13 => some 1620
  | _ => none

/-- A PMBus status word reports a fault: output overvoltage, output overcurrent or input undervoltage.
PRESUMED (log 31). -/
def pmbusFault (status : Nat) : Bool := bits status 5 3 ≠ 0

/-- Domains that a rail supplies (R773, Table 20.1). PRESUMED (log 31). -/
def railDomains (r : Nat) : List Nat :=
  if r < 4 then [dieNode (r % 2)]
  else if 6 ≤ r && r < 12 then (List.range 4).map (fun t => stackNode (4 * (r % 2) + t))
  else []

/-- One rail's reading: voltage in mV, current in 0.1 A, status word. -/
def State.readRail (s : State) (r : Nat) (v : Nat × Nat × Nat) : State :=
  let old := mget (0, 0, 0) s.pwr.rails r
  let s := s.modPwr (fun p => { p with rails := mput (0, 0, 0) p.rails r v })
  let s := s.crossings (15 + r) old.1 v.1 ((s.holdNow r).toList.map (·.1) ++ (failLevel r).toList)
  let s := s.crossings (29 + r) old.2.1 v.2.1 [(Config.railWarn r).toNat]
  if pmbusFault v.2.2 then
    (railDomains r).foldl (fun s d => s.modDomain d (fun x => { x with mv := 3 })) s
  else s

/-- PMBUS_READ: rails 0 to 13 in order (R720); a fault sets the management state of its domains (Table 21.11). -/
def execPmbusRead (rails : List (Nat × Nat × Nat)) (s : State) : Host.Outcome State Fault Refusal :=
  .next (if !s.loopsRun then s
    else ((rails.take 14).zip (List.range 14)).foldl (fun s rv => s.readRail rv.2 rv.1) s)

/-! ### Supply holds (R745, R746) -/

/-- SUPPLY_HOLD_START. -/
def execSupplyHoldStart (rail mv : Nat) (s : State) : Host.Outcome State Fault Refusal :=
  .next (match s.holdNow rail with
    | none => s
    | some (h, _) =>
      if mv < h && s.loopsRun && !s.railHolds rail then
        (s.modPwr (fun p => { p with holds := p.holds ++ [(rail, s.time.beats)] })).count 0 (ctrPwr 9) 1
      else s)

/-- SUPPLY_HOLD_END: one event with the rail and the length. -/
def execSupplyHoldEnd (rail mv : Nat) (s : State) : Host.Outcome State Fault Refusal :=
  .next (match s.holdNow rail, s.pwr.holds.find? (fun h => h.1 == rail) with
    | some (_, r), some (_, since) =>
      if r < mv then
        (s.modPwr (fun p => { p with holds := p.holds.filter (fun h => h.1 != rail) })).event 0x0B04
          (rail + sat 24 ((s.time.beats - since) / 1000) * 256) false
      else s
    | _, _ => s)

/-! ### Registers (R750) -/

/-- RAIL_STATUS of a rail (Table 20.10). -/
def State.railStatusOf (s : State) (r : Nat) : Nat :=
  if 14 ≤ r then 0
  else
    let v := mget (0, 0, 0) s.pwr.rails r
    b2n (s.railHolds r) * 2 ^ 31 + b2n (pmbusFault v.2.2) * 2 ^ 30 + sat 14 v.1 * 2 ^ 16 + sat 16 v.2.1

/-- RAIL_SEL latches a rail's status. -/
def State.railSel (s : State) (value : Nat) : State :=
  let s := { s with regs := s.regs.write regRailSel 0 (BitVec.ofNat 32 value) }
  s.modPwr (fun p => { p with railStatus := s.railStatusOf (value % 16) })

/-- RAIL_SEL. -/
def execRailSel (value : Nat) (s : State) : Host.Outcome State Fault Refusal :=
  .next (s.onWrite (fun s => s.railSel value))

/-- PWR_STATUS, VOLT_STATUS, CAP_STATUS, TEMP_STATUS and COOL_STATUS (Table 20.10). -/
def State.pwrStatus (s : State) : Nat :=
  s.limiter * 2 ^ 24 + s.throttleOf 0 * 2 ^ 20 + s.throttleOf 1 * 2 ^ 16 + sat 12 s.pwr.p1ms
/-- VOLT_STATUS. -/
def State.voltStatus (s : State) : Nat := s.pwr.vop.2 * 2 ^ 24 + s.pwr.vop.1 * 2 ^ 16 + s.pwr.uCap * 256
/-- CAP_STATUS. -/
def State.capStatus (s : State) : Nat := s.mgmt.mgmtCap * 2 ^ 16 + s.pwr.pCool
/-- TEMP_STATUS. -/
def State.tempStatus (s : State) : Nat :=
  sat 8 (hottest s.pwr.temps0).1 * 2 ^ 24 + sat 8 (hottest s.pwr.temps1).1 * 2 ^ 16 + s.pwr.inlet * 256 + s.pwr.outlet
/-- COOL_STATUS. -/
def State.coolStatus (s : State) : Nat := s.pwr.coolant * 2 ^ 30 + s.pwr.flow

/-- The stack's temperature report, with its sensor's thresholds (R376, R758). -/
def execStackTempRead (stack temp : Nat) (s : State) : Host.Outcome State Fault Refusal :=
  .next (if stack < 8 && s.powered then
      (s.stackTemp stack temp).crossings (4 + stack) (s.stack stack).temp temp [85, 95, 105]
    else s)

end Sys2Proof.Machine
end

