-- ==== Sys2Proof/Machine/Mgmt.lean ====
section
/-! DEFINITION. The management path: MCTP control, PLDM monitoring and firmware update, SPDM, the vendor commands and the
black-box writer (chapter 21: R754 to R772). A request is answered before the next one is taken. -/

namespace Sys2Proof.Machine

/-- Change the management state. -/
def State.modMgmt (s : State) (f : MgmtState → MgmtState) : State := { s with mgmt := f s.mgmt }

/-! ### Requests (R754, R755, R763) -/

/-- Answer a request: completion code and payload. PRESUMED (log 30). -/
def State.answer (s : State) (code : Nat) (data : List Byte) : State := s.emit (.mctp code data)

/-- Take an MCTP request. Until an endpoint ID is set only control messages are answered; in BOOT_FAIL only control
messages, GET_BOOT and firmware update (`boot`); a ninth request outstanding is answered ERROR_NOT_READY.
PRESUMED (log 30). -/
def State.mctp (s : State) (control boot : Bool) (f : State → State) : State :=
  if !s.rst.vaux then s
  else
    let s := s.count 0 (ctrMgmt 6) 1
    if !control && (!s.mgmt.eidSet || (s.mgmt.bootFail ≠ 0 && !boot)) then s
    else if 8 ≤ s.mgmt.outstanding then (s.count 0 (ctrMgmt 7) 1).answer 0x04 []
    else f s

/-- UNSUPPORTED_COMMAND: the unsupported-command code of the type, which for SPDM is 0x07 (R755). -/
def execUnsupportedCommand (msgType command : Nat) (s : State) : Host.Outcome State Fault Refusal :=
  .next (s.mctp (msgType = 0) false (fun s =>
    (s.count 0 (ctrMgmt 7) 1).answer (if msgType = 5 then 0x07 else 0x05) (natLe 1 command)))

/-! ### MCTP control -/

/-- SET_ENDPOINT_ID: 0 and 0xFF name no endpoint. PRESUMED (log 30). -/
def execSetEndpointId (eid : Nat) (s : State) : Host.Outcome State Fault Refusal :=
  .next (s.mctp true false (fun s =>
    if eid = 0 || 0xFF ≤ eid then s.answer 0x02 []
    else (s.modMgmt (fun m => { m with eid := eid, eidSet := true })).answer 0 ([0] ++ natLe 1 eid ++ [0])))

/-- GET_ENDPOINT_ID. -/
def execGetEndpointId (s : State) : Host.Outcome State Fault Refusal :=
  .next (s.mctp true false (fun s => s.answer 0 (natLe 1 s.mgmt.eid ++ [0, 0])))

/-- GET_ENDPOINT_UUID. -/
def execGetEndpointUuid (s : State) : Host.Outcome State Fault Refusal :=
  .next (s.mctp true false (fun s => s.answer 0 ((List.range 16).map Config.uuid)))

/-- Versions of a message type (Table 21.2), as four bytes each; `none` for a type the endpoint does not support.
PRESUMED (log 30). -/
def typeVersions : Nat → Option (List Nat)
  | 0x00 | 0xFF => some [0xF1F3FF00]
  | 0x01 => some [0xF1F1FF00]
  | 0x05 => some [0xF1F2FF00, 0xF1F3FF00]
  | 0x7E => some []
  | _ => none

/-- GET_MCTP_VERSION_SUPPORT: 0x80 where the type is not supported. -/
def execGetMctpVersionSupport (msgType : Nat) (s : State) : Host.Outcome State Fault Refusal :=
  .next (s.mctp true false (fun s =>
    match typeVersions msgType with
    | some vs => s.answer 0 (natLe 1 vs.length ++ vs.flatMap (natLe 4))
    | none => s.answer 0x80 []))

/-- GET_MESSAGE_TYPE_SUPPORT (Table 21.2). -/
def execGetMessageTypeSupport (s : State) : Host.Outcome State Fault Refusal :=
  .next (s.mctp true false (fun s => s.answer 0 [4, 0x00, 0x01, 0x05, 0x7E]))

/-- GET_VENDOR_DEFINED_MSG_SUPPORT: one set, of the PCI Vendor ID. -/
def execGetVendorDefinedMsgSupport (selector : Nat) (s : State) : Host.Outcome State Fault Refusal :=
  .next (s.mctp true false (fun s =>
    if selector = 0 then s.answer 0 ([0xFF, 0] ++ natLe 2 Config.vendorId.toNat) else s.answer 0x02 []))

/-- DYNAMIC_ADDRESS_ASSIGNMENT on the I3C bus (R754). -/
def execDynamicAddressAssignment (address : Nat) (s : State) : Host.Outcome State Fault Refusal :=
  .next (if s.rst.vaux then s.modMgmt (fun m => { m with i3cAddr := address % 128 }) else s)

/-! ### PLDM monitoring (R758, R759) -/

/-- Reading of a numeric sensor (Table 21.4); `none`: no such sensor. -/
def State.sensor (s : State) (id : Nat) : Option Nat :=
  let rail (r : Nat) : Nat × Nat × Nat := mget (0, 0, 0) s.pwr.rails r
  if id = 0 then none
  else if id = 1 then some s.pwr.p1ms
  else if id = 2 then some (hottest s.pwr.temps0).1
  else if id = 3 then some (hottest s.pwr.temps1).1
  else if id < 12 then some (s.stack (id - 4)).temp
  else if id = 12 then some s.pwr.inlet
  else if id = 13 then some s.pwr.outlet
  else if id = 14 then some s.pwr.flow
  else if id < 29 then some (rail (id - 15)).1
  else if id < 43 then some (rail (id - 29)).2.1
  else if id = 46 then some s.upPorts.length
  else none

/-- GET_SENSOR_READING: 0x80 for an identifier that names no numeric sensor. -/
def execGetSensorReading (sensor : Nat) (s : State) : Host.Outcome State Fault Refusal :=
  .next (s.mctp false false (fun s =>
    match s.sensor sensor with
    | some v => s.answer 0 (natLe 4 v)
    | none => s.answer 0x80 []))

/-- State of a state sensor (Table 21.4). -/
def State.stateSensor (s : State) : Nat → Option Nat
  | 43 => some s.pwr.coolant
  | 44 => some s.limiter
  | 45 => some s.time.quality.code
  | 47 => some s.packageState
  | 48 => some (b2n s.rst.thermtrip)
  | _ => none

/-- GET_STATE_SENSOR_READINGS. -/
def execGetStateSensorReadings (sensor : Nat) (s : State) : Host.Outcome State Fault Refusal :=
  .next (s.mctp false false (fun s =>
    match s.stateSensor sensor with
    | some v => s.answer 0 (natLe 1 v)
    | none => s.answer 0x80 []))

/-- MGMT_CAP takes a value, read within 600 to 2 400 W; a change writes one record and posts one event (R759). -/
def State.setMgmtCap (s : State) (watts : Nat) : State :=
  let c := max 600 (min 2400 watts)
  let old := s.mgmt.mgmtCap
  if c = old then s
  else
    ((s.modMgmt (fun m => { m with mgmtCap := c })).bbRecord 0x000A (natLe 2 old ++ natLe 2 c)).event 0x0C06 c false

/-- SET_NUMERIC_EFFECTER_VALUE. -/
def execSetNumericEffecterValue (effecter value : Nat) (s : State) : Host.Outcome State Fault Refusal :=
  .next (s.mctp false false (fun s =>
    if effecter = 1 then (s.setMgmtCap value).answer 0 [] else s.answer 0x80 []))

/-- GET_NUMERIC_EFFECTER_VALUE. -/
def execGetNumericEffecterValue (effecter : Nat) (s : State) : Host.Outcome State Fault Refusal :=
  .next (s.mctp false false (fun s =>
    if effecter = 1 then s.answer 0 (natLe 2 s.mgmt.mgmtCap) else s.answer 0x80 []))

/-- Thresholds that a PDR gives a sensor (Table 21.4): warning, critical, fatal where it has them. PRESUMED (log 30). -/
def sensorThresholds (id : Nat) : List Nat :=
  if id = 1 then [2400, 3000]
  else if id = 2 || id = 3 then [90, 95, 110]
  else if 4 ≤ id && id < 12 then [85, 95, 105]
  else if id = 12 then [40, 45]
  else if id = 13 then [65]
  else if id = 14 then [2500, 1500]
  else if 15 ≤ id && id < 29 then (holdLevels 750 (id - 15)).toList.map (·.1) ++ (failLevel (id - 15)).toList
  else if 29 ≤ id && id < 43 then [(Config.railWarn (id - 29)).toNat]
  else []

/-- GET_PDR: records 1 to 48 describe the sensors, 49 the effecter; 0 asks for the first. PRESUMED (log 30). -/
def execGetPdr (handle : Nat) (s : State) : Host.Outcome State Fault Refusal :=
  .next (s.mctp false false (fun s =>
    let h := if handle = 0 then 1 else handle
    if 49 < h then s.answer 0x82 []
    else
      let body := if h = 49 then natLe 2 1 ++ natLe 2 600 ++ natLe 2 2400
        else natLe 2 h ++ (sensorThresholds h).flatMap (natLe 2)
      s.answer 0 (natLe 4 (if h = 49 then 0 else h + 1) ++ natLe 2 body.length ++ body)))

/-- SET_EVENT_RECEIVER: 0 takes the receiver away. -/
def execSetEventReceiver (eid enable : Nat) (s : State) : Host.Outcome State Fault Refusal :=
  .next (s.mctp false false (fun s =>
    (s.modMgmt (fun m => { m with receiver := if enable = 0 then none else some (eid % 256) })).answer 0 []))

/-! ### Firmware (R765) -/

/-- A flash image. -/
def State.image (s : State) (slot comp : Nat) : Nat × Nat × Bool × List Byte :=
  mget firstImage s.mgmt.images (slot * 4 + comp)

/-- The slot an update writes: the one that did not boot; where neither did, the one that is not first choice.
DEDUCED (log 32). -/
def State.updateSlot (s : State) (comp : Nat) : Nat :=
  let b := at8 s.mgmt.booted comp
  if b < 2 && s.mgmt.bootFail = 0 then 1 - b else 1 - s.mgmt.firstSlot

/-- PLDM_FIRMWARE_UPDATE of one component. -/
def execPldmFirmwareUpdate (component version svn : Nat) (image : List Byte) (good : Bool) (s : State) :
    Host.Outcome State Fault Refusal :=
  .next (s.mctp false true (fun s =>
    if 4 ≤ component then s.answer 0x02 []
    else
      let t := s.updateSlot component
      (s.modMgmt (fun m => { m with
        images := mput firstImage m.images (t * 4 + component) (version, svn, good, image),
        written := m.written.filter (fun w => w.1 != component) ++ [(component, t)] })).answer 0 []))

/-- ACTIVATE_FIRMWARE: the written slot becomes first choice, at the next power-on, or at the next warm reset where the
request asks for it. PRESUMED (log 30). -/
def execActivateFirmware (warm : Bool) (s : State) : Host.Outcome State Fault Refusal :=
  .next (s.mctp false true (fun s =>
    match s.mgmt.written with
    | [] => s.answer 0x84 []
    | (c, t) :: rest =>
      let s := ((c, t) :: rest).foldl (fun s w =>
        s.bbRecord 0x0009 (natLe 1 w.1 ++ natLe 1 w.2 ++ natLe 4 (s.image w.2 w.1).1)) s
      (s.modMgmt (fun m => { m with firstSlot := t, activate := warm, written := [] })).answer 0 []))

/-! ### SPDM (R755 to R757) -/

/-- GET_VERSION: 1.2 and 1.3. -/
def execGetVersion (s : State) : Host.Outcome State Fault Refusal :=
  .next (s.mctp false false (fun s => s.answer 0x04 (natLe 1 2 ++ natLe 2 0x1200 ++ natLe 2 0x1300)))

/-- GET_CAPABILITIES: certificates, challenges and signed measurements. -/
def execGetCapabilities (s : State) : Host.Outcome State Fault Refusal :=
  .next (s.mctp false false (fun s => s.answer 0x61 (natLe 4 0x16)))

/-- NEGOTIATE_ALGORITHMS: ECDSA P-384 (bit 7) and SHA-384 (bit 1), and nothing else (R756). -/
def execNegotiateAlgorithms (asym hash : Nat) (s : State) : Host.Outcome State Fault Refusal :=
  .next (s.mctp false false (fun s =>
    s.answer 0x63 (natLe 4 (if bit asym 7 then 0x80 else 0) ++ natLe 4 (if bit hash 1 then 2 else 0))))

/-- An SPDM answer that ends in bytes the spec leaves open: hashes, nonces and signatures. PRESUMED (log 30). -/
def State.answerOpen (s : State) (code n : Nat) (data : List Byte) : State :=
  let (bs, s) := s.freeBytes n
  s.answer code (data ++ bs)

/-- GET_DIGESTS of the chains of slots 0 and 1. -/
def execGetDigests (s : State) : Host.Outcome State Fault Refusal :=
  .next (s.mctp false false (fun s => s.answerOpen 0x01 96 (natLe 1 3)))

/-- GET_CERTIFICATE of slot 0, the identity chain, or 1, the alias chain. -/
def execGetCertificate (slot offset len : Nat) (s : State) : Host.Outcome State Fault Refusal :=
  .next (s.mctp false false (fun s =>
    if slot < 2 then s.answerOpen 0x02 (min (len % 65536) 4096) (natLe 1 slot ++ natLe 2 offset)
    else s.answer 0x7F (natLe 1 0x01)))

/-- CHALLENGE: hash of the chain, nonce, hash of the measurements, signature. -/
def execChallenge (slot : Nat) (nonce : List Byte) (s : State) : Host.Outcome State Fault Refusal :=
  .next (s.mctp false false (fun s =>
    if slot < 2 && nonce.length = 32 then s.answerOpen 0x03 (48 + 32 + 48 + 96) (natLe 1 slot)
    else s.answer 0x7F (natLe 1 0x01)))

/-- The SHA-384 digest of some bytes. -/
def digest384 (bs : List Byte) : List Byte := (List.range 48).map (Config.sha384 bs)

/-- Content of the booted image of a component; empty for the defaults. -/
def State.bootedImage (s : State) (comp : Nat) : List Byte :=
  let b := at8 s.mgmt.booted comp
  if b < 2 then (s.image b comp).2.2.2 else []

/-- A measurement block (Table 21.3): index and value. -/
def State.measurement (s : State) (i : Nat) : List Byte :=
  natLe 1 i ++ (match i with
    | 1 => digest384 Config.bootRom
    | 2 => digest384 (natLe 1 (at8 s.mgmt.booted 0) ++ s.bootedImage 0)
    | 3 => digest384 (s.bootedImage 1)
    | 4 => digest384 (s.bootedImage 2)
    | 5 => natLe 8 (2 ^ s.mgmt.svn - 1) ++ natLe 8 s.mgmt.revoked
    | 6 => natLe 1 (s.mgmt.unlocked % 4)
    | _ => digest384 (s.bootedImage 3))

/-- GET_MEASUREMENTS: 0 asks how many there are, 0xFF for all, 1 to 7 for one; signed with the alias key. -/
def execGetMeasurements (operation : Nat) (sign : Bool) (nonce : List Byte) (s : State) :
    Host.Outcome State Fault Refusal :=
  .next (s.mctp false false (fun s =>
    let body := if operation = 0 then natLe 1 7
      else if operation = 0xFF then (rangeFrom 1 7).flatMap s.measurement
      else s.measurement operation
    if (7 < operation && operation ≠ 0xFF) || (sign && nonce.length ≠ 32) then s.answer 0x7F (natLe 1 0x01)
    else s.answerOpen 0x60 (if sign then 32 + 96 else 32) body))

/-! ### Black-box records as read (R768, R779) -/

/-- A record slot reads as a record: it is not erased. -/
def recordWritten (r : List Byte) : Bool := field r 0 2 ≠ 0xFFFF
/-- Its CRC holds. -/
def recordGood (r : List Byte) : Bool := recordWritten r && field r 60 4 == crc32 (r.take 60)
/-- SEQ of a record. -/
def recordSeq (r : List Byte) : Nat := field r 4 4

/-- Valid records of both partitions, in SEQ order. -/
def State.validRecords (s : State) : List (List Byte) :=
  ((s.mgmt.records.map (·.2)).filter recordGood).mergeSort (fun a b => recordSeq a ≤ recordSeq b)

/-- Records that a read ignores because their CRC fails are counted (R768). -/
def State.countBad (s : State) : State :=
  s.count 0 (ctrMgmt 4) (s.mgmt.records.filter (fun r => recordWritten r.2 && !recordGood r.2)).length

/-- READ_BLACKBOX: a count of 1 to 60; any other is answered INVALID. DEDUCED (log 30). -/
def execReadBlackbox (start count : Nat) (s : State) : Host.Outcome State Fault Refusal :=
  .next (s.mctp false false (fun s =>
    if count = 0 || 60 < count then s.answer 0x02 []
    else (s.answer 0 (((s.validRecords.filter (fun r => start ≤ recordSeq r)).take count).flatten)).countBad))

/-- READ_LASTGASP. -/
def execReadLastgasp (s : State) : Host.Outcome State Fault Refusal :=
  .next (s.mctp false false (fun s => s.answer 0 s.mgmt.lastGasp))

/-- BB_SEL latches a record: 0 is the newest valid one. -/
def State.bbSel (s : State) (value : Nat) : State :=
  let s := { s with regs := s.regs.write regBbSel 0 (BitVec.ofNat 32 value) }
  let rec' := (s.validRecords.reverse[value % 65536]?).getD (List.replicate 64 0)
  (s.modMgmt (fun m => { m with bbData := slice rec' 0 64 })).countBad

/-- BB_SEL. -/
def execBbSel (value : Nat) (s : State) : Host.Outcome State Fault Refusal :=
  .next (s.onWrite (fun s => s.bbSel value))

/-! ### Domains, FATAL and boot (R760) -/

/-- GET_DOMAIN: DP, MV and fence origin. -/
def execGetDomain (node : Nat) (s : State) : Host.Outcome State Fault Refusal :=
  .next (s.mctp false false (fun s =>
    if isDomain node then
      s.answer 0 (natLe 1 (s.shownState node).code ++ natLe 1 (s.domain node).mv ++ natLe 1 (s.originOf node))
    else s.answer 0x02 []))

/-- SET_DOMAIN: MV acts at the next census, and so does an unfence request. An MV that SET_DOMAIN does not set is answered INVALID.
DEDUCED (log 30). -/
def execSetDomain (node mv : Nat) (unfence : Bool) (s : State) : Host.Outcome State Fault Refusal :=
  .next (s.mctp false false (fun s =>
    if isDomain node && mv < 3 then
      let s := s.modDomain node (fun d => { d with mv := mv })
      (if unfence then s.requestUnfence node else s).answer 0 []
    else s.answer 0x02 []))

/-- REQUEST_FATAL with its confirmation word (R709); any other word is answered INVALID. DEDUCED (log 30). -/
def execRequestFatal (word : Nat) (s : State) : Host.Outcome State Fault Refusal :=
  .next (s.mctp false false (fun s =>
    if word = 0x46415441 then (if s.coresRun then s.enterFatal 7 none else s).answer 0 [] else s.answer 0x02 []))

/-- Versions of the booted images. -/
def State.bootedVersions (s : State) : List Byte :=
  (List.range 4).flatMap (fun c =>
    let b := at8 s.mgmt.booted c
    natLe 4 (if b < 2 then (s.image b c).1 else 0))

/-- GET_BOOT: slots booted, image versions, security version, BOOT_FAIL cause. -/
def execGetBoot (s : State) : Host.Outcome State Fault Refusal :=
  .next (s.mctp false true (fun s =>
    s.answer 0 (s.mgmt.booted.flatMap (natLe 1) ++ s.bootedVersions ++ natLe 1 s.mgmt.svn ++ natLe 1 s.mgmt.bootFail)))

/-! ### The black-box writer (R769 to R771) -/

/-- Record slots of a partition, and of one erase sector (R769). -/
def partitionSlots : Nat := 131072
def sectorSlots : Nat := 1024

/-- Component of a pair for a partition. -/
def usedOf (m : MgmtState) (p : Nat) : Nat := if p = 0 then m.bbUsed.1 else m.bbUsed.2

/-- Put a record slot into a partition; the sector ahead of the write point is kept erased. -/
def State.putRecord (s : State) (p : Nat) (r : List Byte) : State :=
  let mine := s.mgmt.records.filter (fun x => x.1 == p)
  let m := s.mgmt
  let kept := if 127 * sectorSlots ≤ mine.length + 1 then
      m.records.filter (fun x => x.1 != p) ++ mine.drop sectorSlots
    else m.records
  s.modMgmt (fun m => { m with
    records := kept ++ [(p, r)], bbUsed := if p = 0 then (m.bbUsed.1 + 1, m.bbUsed.2) else (m.bbUsed.1, m.bbUsed.2 + 1) })

/-- The partition whose turn a record is: SEQ mod 2 while both work, else the remaining one (R769, R770); `none` where
both have failed. -/
def MgmtState.partition (m : MgmtState) (seq : Nat) : Option Nat :=
  match m.bbAvoid % 4 with
  | 0 => some (seq % 2)
  | 1 => some 1
  | 2 => some 0
  | _ => none

/-- The last-gasp field after a dual failure of a record (Table 21.10); `none` where every bit of LATER is set.
DEDUCED (log 35). -/
def gaspAfter (old rec : List Byte) (chip : Nat) : Option (List Byte) :=
  let f := leNat old
  if bit f 95 then
    let later := bits f 255 128
    if later = 2 ^ 128 - 1 then none else some (natLe 32 (f ||| 2 ^ 128 * (later + 1)))
  else
    some (natLe 32 (field rec 8 8 + field rec 0 2 * 2 ^ 64 + chip % 32768 * 2 ^ 80 + 2 ^ 95 + recordSeq rec * 2 ^ 96))

/-- A record has failed in both partitions (R771). DEDUCED (log 35). -/
def State.bbDual (s : State) (rec : List Byte) : State :=
  let rest := s.mgmt.queue.length - 1
  let s := s.modMgmt (fun m => { m with bbFailed := 3, bbAvoid := 3, queue := [] })
  let s := s.count 0 (ctrMgmt 5) rest
  match gaspAfter s.mgmt.lastGasp rec s.chipId with
  | some f => ((s.modMgmt (fun m => { m with lastGasp := f })).event 0x0C05 (recordSeq rec) true).platform 47 s.packageState
  | none => s.platform 47 s.packageState

/-- The front record's write: programmed and verified, or not. A slot whose program or verify failed holds what the flash
then reads. A LAST_GASP record that fails goes to the other partition, and nothing more is written or told (R772).
DEDUCED (log 35). -/
def State.bbWrite (s : State) (good : Bool) : State :=
  match s.mgmt.queue with
  | [] => s
  | rec :: rest =>
    match s.mgmt.partition (recordSeq rec) with
    | none => s
    | some p =>
      if good then
        ((s.putRecord p rec).modMgmt (fun m => { m with queue := rest })).count 0 (ctrMgmt 3) 1
      else
        let off := 64 * (usedOf s.mgmt p % partitionSlots)
        let (junk, s) := s.freeBytes 64
        let s := s.putRecord p junk
        if field rec 0 2 = 2 then
          if s.mgmt.bbAvoid % 4 = 0 then s.modMgmt (fun m => { m with bbAvoid := p + 1 })
          else s.modMgmt (fun m => { m with bbAvoid := 3, queue := rest })
        else if s.mgmt.bbAvoid % 4 = 0 then
          let s := s.modMgmt (fun m => { m with bbFailed := m.bbFailed ||| (p + 1), bbAvoid := p + 1 })
          (s.bbRecord 0x0008 (natLe 1 p ++ natLe 4 off)).event 0x0C04 p false
        else s.bbDual rec

/-- BLACKBOX_RECORD_WRITE. -/
def execBlackboxRecordWrite (good : Bool) (s : State) : Host.Outcome State Fault Refusal :=
  .next (if s.rst.vaux || s.rst.state = 4 then s.bbWrite good else s)

/-- BB_STATUS (Table 21.15). -/
def State.bbStatus (s : State) : Nat :=
  s.mgmt.bbFailed % 4 * 2 ^ 30 + b2n (bit (leNat s.mgmt.lastGasp) 95) * 2 ^ 29 + s.mgmt.nextSeq % 2 ^ 29

/-- MGMT_STATUS (Table 21.15). -/
def State.mgmtStatus (s : State) : Nat :=
  b2n (s.mgmt.bootFail ≠ 0) * 2 ^ 31 + b2n (at8 s.mgmt.booted 1 = 1) * 2 ^ 30 + b2n (bit s.mgmt.unlocked 0) * 2 ^ 29
    + b2n s.mgmt.eidSet * 2 ^ 28 + s.mgmt.bootFail % 16 * 2 ^ 24 + s.mgmt.eid % 256 * 256 + sat 8 s.mgmt.svn

/-- CENSUS_STATUS (Table 21.15). -/
def State.censusStatus (s : State) : Nat := s.censusFenced * 256 + s.mgmt.mismatches

end Sys2Proof.Machine
end

