-- ==== Sys2Proof/Machine/Reset.lean ====
section
/-! DEFINITION. Power-on, boot, warm and function resets, orderly power-down, power loss and PCI Express configuration
(chapters 21 and 22: R761 to R764, R782 to R804). A reset or power-on runs its whole sequence as one command. -/

namespace Sys2Proof.Machine

/-! ### Secure boot (Table 21.6, R762, R764) -/

/-- An image verifies: signed under a provisioned key, whose slot is not revoked, with a security version not below the
OTP counter (R762). DEDUCED (log 32). -/
def State.verifies (s : State) (comp slot : Nat) : Bool :=
  let (_, svn, good, bytes) := s.image slot comp
  good && !bit s.mgmt.revoked (Config.imageKey bytes % 4) && s.mgmt.svn ≤ svn

/-- The CRC-32 of a configuration or calibration partition holds. DEDUCED (log 32). -/
def State.partitionGood (s : State) (comp slot : Nat) : Bool := (s.image slot comp).2.2.1

/-- Steps 1 to 3. `flash` has bit d set where the partition table of flash die d cannot be read. DEDUCED (log 32). -/
def State.boot (s : State) (flash : Nat) : State :=
  let order := [s.mgmt.firstSlot, 1 - s.mgmt.firstSlot]
  let fail (c : Nat) : State := s.modMgmt (fun m => { m with bootFail := c, bar4 := false })
  if flash % 4 = 3 then fail 1
  else
    match order.find? (s.verifies 0) with
    | none => fail 2
    | some b =>
      match [b, 1 - b].find? (s.verifies 1) with
      | none => fail 3
      | some f =>
        let pick (c : Nat) : Nat := (([f, 1 - f].find? (s.partitionGood c)).getD 2)
        let c := pick 2
        s.modMgmt (fun m => { m with
          bootFail := 0, booted := [b, f, c, pick 3], activate := false,
          bar4 := c < 2 && Config.bar4Enable (s.image c 2).2.2.2 })

/-- The BOOT record. -/
def State.bootRecord (s : State) : State :=
  s.bbRecord 0x0001 (s.mgmt.booted.flatMap (natLe 1) ++ natLe 1 s.mgmt.svn ++ s.bootedVersions)

/-- After READY the OTP fields advance where the booted firmware's header asks for it (R764). DEDUCED (log 32). -/
def State.raiseSvn (s : State) : State :=
  let img := s.image (at8 s.mgmt.booted 1) 1
  if Config.imageRaises img.2.2.2 then
    s.modMgmt (fun m => { m with
      svn := max m.svn (min 64 img.2.1), revoked := m.revoked ||| Config.imageRevokes img.2.2.2 % 16 })
  else s

/-! ### Enumeration (R31, R46, R47, R56, R267, R268, R319) -/

/-- Every physical cell, spares with them, in ascending unit. -/
def physicalCells : List Nat :=
  ((List.range numGroups).flatMap (fun g => (List.range 16).map (cellUnit g)))
    ++ (List.range numGroups).map spareId

/-- Calibration floor of a cell: that of the CAL partition in force, or 8. -/
def State.calOf (s : State) (u : Nat) : Nat :=
  if at8 s.mgmt.booted 3 < 2 then Config.calFloor (s.bootedImage 3) u % 64 else 8

/-- A cell's unit from its history: floors, and Retired where the history says so. -/
def State.buildCell (s : State) (u : Nat) : State :=
  let h := mget History.reset s.tree.history u
  let cal := s.calOf u
  s.modUnit u (fun x => { x with
    calFloor := cal, marginFloor := if h.level = 0 then 0 else min 63 (cal + 16)
    state := if h.retired then .retired else if x.state == .fenced then .fenced
      else if 0xF000 ≤ u then .spare else .idle })

/-- Apply the substitution that a retired cell's history records (R47). DEDUCED (log 52). -/
def State.applySubst (s : State) (u : Nat) : State :=
  let h := mget History.reset s.tree.history u
  match groupOfUnit u with
  | some g =>
    if h.retired && h.subst = 16 && u ≠ spareId g then
      let s := s.exchange u (spareId g)
      if (s.unit (spareId g)).state == .spare then s.modUnit (spareId g) (fun x => { x with state := .idle }) else s
    else s
  | none => s

/-- A cell's history at start-up: what flash says, a retirement being permanent (R46, R268). -/
def State.foundHistory (s : State) (u : Nat) : History :=
  let h := s.flashHistory u
  { h with retired := h.retired || (mget History.reset s.tree.history u).retired }

/-- The histories at start-up of some cells, beside those of m. -/
def State.foundHistories (s : State) (us : List Nat) (m : List (Nat × History)) : List (Nat × History) :=
  us.foldl (fun m u => mput History.reset m u (s.foundHistory u)) m

/-- Build the node table afresh from the cell history in flash (R47, R268); units that a census has fenced, and engines and nodes that have failed, stay so. -/
def State.buildTable (s : State) : State :=
  let kept := s.tree.units.filterMap (fun kv => match kv.2.state with
    | .fenced | .failed => some (kv.1, { UnitState.reset with state := kv.2.state })
    | .idle | .busy | .frozen | .halted | .retired | .spare => none)
  let found := s.foundHistories physicalCells s.tree.history
  let s := { s with tree := { TreeState.reset with units := kept, history := found, flash := s.tree.flash } }
  let s := physicalCells.foldl State.buildCell s
  physicalCells.foldl State.applySubst s

/-- A unit fails its self-test. The entry is unit + 2^16 × arg, where arg is 0 for the built-in self-test and the ARG of a
SELFTEST entry (Table 19.4) for a Squall unit: a cell is retired, an engine is Failed. -/
def State.failUnit (s : State) (x : Nat) : State :=
  let u := x % 65536
  let arg := x / 65536
  let s := if arg = 0 then s else s.sig u 0x04 (arg % 1024)
  match Sys2Proof.Machine.placeOf u with
  | some (.cell _ _) => (s.retireUnit u).modHistory u (fun h => { h with selftestFail := true })
  | some (.vectorEngine _ _ _) | some (.updateEngine _ _) => s.modUnit u (fun t => { t with state := .failed })
  | some .root | some (.die _) | some (.quadrant _ _) | some (.cluster _ _ _) | some (.mover _ _ _ _)
  | some (.cellGroup _) | some (.stack _) | none => s

/-- Update engines of a stack that are not Failed, taken at READY. -/
def State.countEngines (s : State) : State :=
  (List.range 8).foldl (fun s k =>
    let n := ((rangeFrom (stackNode k + 1) 64).filter (fun u => (s.unit u).state != .failed)).length
    { s with ue := mmod UeState.reset s.ue k (fun e => { e with enginesOk := n }) }) s

/-- Steps 6 and 7 of Table 22.3 with the self-tests before them, and READY: `failed` lists the units that failed. Cells hold
no weights by then. DEDUCED (log 52). -/
def State.enumerate (s : State) (failed : List Nat) : State :=
  let s := failed.foldl State.failUnit ({ s with cells := [] } : State).buildTable
  let s := (s.census).countEngines
  { s with tree := { s.tree with ready := true } }

/-- READY is posted, with the kind, trigger and stores discarded (Table 22.10). -/
def State.postReady (s : State) : State :=
  let stores := (s.rst.disc.take 5).foldl (· + ·) 0
  s.event 0x0D01 (s.rst.kind + s.rst.trigger * 16 + sat 24 stores * 256) false

/-- Counters read zero. -/
def State.zeroCounters (s : State) : State := { s with obs := { s.obs with live := [], latched := [] } }

/-! ### Power-on (R783, R787) -/

/-- SEQ that the writer goes on from (R770). DEDUCED (log 35). -/
def State.seqAfter (s : State) : Nat :=
  let seqs := (s.validRecords.map (fun r => recordSeq r + 1))
    ++ (if bit (leNat s.mgmt.lastGasp) 95 then [bits (leNat s.mgmt.lastGasp) 127 96 + 1] else [])
  seqs.foldl max 0 % 2 ^ 32

/-- What flash and OTP hold stays through every power-on. -/
def MgmtState.stored (m : MgmtState) : MgmtState :=
  { MgmtState.reset with
    firstSlot := m.firstSlot, svn := m.svn, revoked := m.revoked, lastGasp := m.lastGasp, images := m.images,
    records := m.records, bbUsed := m.bbUsed }

/-- Management after a VAUX power-on, or after a main power-on, which keeps the state that R783 lists. DEDUCED (log 35). -/
def State.mgmtPower (s : State) (vaux : Bool) : MgmtState :=
  let m := s.mgmt
  if vaux then { m.stored with nextSeq := s.seqAfter }
  else
    { m.stored with
      mgmtCap := m.mgmtCap, domains := (m.domains.map (fun d => (d.1, { Domain.reset with mv := d.2.mv }))).filter
        (fun d => d.2 ≠ Domain.reset),
      unlocked := m.unlocked, authFails := m.authFails, queue := m.queue, nextSeq := m.nextSeq,
      bbFailed := m.bbFailed, lostNext := m.lostNext }

/-- Everything takes its power-on state (R783). -/
def State.powerReset (s : State) (vaux : Bool) : State :=
  let n := s.aec.stored + 65536
  { State.reset with
    pending := s.pending, out := s.out, taken := s.taken,
    tree := { TreeState.reset with history := s.tree.history, flash := s.tree.flash },
    aec := { AecState.reset with boundaries := n, stored := n },
    cores := { CoreState.reset with dmi := s.cores.dmi, tapIr := s.cores.tapIr },
    mgmt := s.mgmtPower vaux,
    rst := { RstState.reset with
      vaux := true, pkgRun := true, kind := b2n vaux, testMode := s.rst.testMode, boundary := s.rst.boundary } }

/-- Stack training (Table 11.5): lanes repaired by each stack, none where it fails (R381). -/
def State.trainStacks (s : State) (training : List (Option Nat)) : State :=
  (List.range 8).foldl (fun s k =>
    match (training[k]?).getD (some 0) with
    | some n => s.modStack k (fun x => { x with mode := .run, trained := true, lanesRepaired := sat 8 n })
    | none => s.failStack k) s

/-- CHIP_ID from the CONFIG partition goes into FAB_CTL, at a power-on only (Table 22.3, step 6). -/
def State.loadChip (s : State) : State :=
  let c := at8 s.mgmt.booted 2
  if c < 2 then
    { s with regs := s.regs.device regFabCtl 0 (fun v => v / 32768 * 32768 + Config.chipDefault (s.image c 2).2.2.2 % 32768) }
  else s

/-- The sequence of Table 22.3, up to READY, or to BOOT_FAIL (R763). With TEST_MODE high it ends after step 1 (R846).
DESIGN CHOICE (log 9). -/
def State.powerOn (s : State) (vaux : Bool) (flash : Nat) (failed : List Nat) (training : List (Option Nat)) : State :=
  let s := (s.powerReset vaux).emit (.pin "PKG_RUN" true)
  if s.rst.testMode then s
  else
    let s := s.boot flash
    let s := { s with rst := { s.rst with bar0 := true } }
    if s.mgmt.bootFail ≠ 0 then s.platform 47 s.packageState
    else
      let s := ((s.trainStacks training).loadChip).enumerate failed
      (s.postReady.bootRecord.raiseSvn).zeroCounters

/-- VAUX_POWER_ON. -/
def execVauxPowerOn (testMode : Bool) (flash : Nat) (selfTestFail : List Nat) (training : List (Option Nat)) (s : State) :
    Host.Outcome State Fault Refusal :=
  .next (({ s with rst := { s.rst with testMode := testMode, boundary := 0 }
                   cores := { s.cores with dmi := [], tapIr := 0x01 } } : State).powerOn true flash selfTestFail training)

/-- MAIN_POWER_ON: VAUX is already up. -/
def execMainPowerOn (flash : Nat) (selfTestFail : List Nat) (training : List (Option Nat)) (s : State) :
    Host.Outcome State Fault Refusal :=
  .next (if s.rst.vaux then s.powerOn false flash selfTestFail training else s)

/-! ### Warm and function resets (R790 to R796, R820, Tables 22.5 and 23.5) -/

/-- Registers that a reset keeps (Table 23.5). DEDUCED (log 37). -/
def regKept (off : Nat) : Bool :=
  (0x4000 ≤ off && off < 0x5000) || off = regPdCfg || off = regBbSel || off = regFabCtl || off = regPortCtl || off = regTimeCtl
    || off = regTimeSetLo || off = regTimeSetHi || (0x40000 ≤ off && off < 0x48000 && (off % 0x1000 = 4 || off % 0x1000 = 8))

/-- A message of this package that stores at another chip: WRITE or STREAM_DATA (Table 22.7). -/
def State.ownStore (s : State) (m : Msg) : Bool := m.src = s.chipId && (m.type = 0x01 || m.type = 0x05)

/-- Buffered stores and the rest that a reset discards, as Table 22.8 counts them. DESIGN CHOICE (log 9). -/
def State.discards (s : State) : List Nat :=
  let remote := ((List.range 12).map (fun p => ((s.portAt p).queue.filter (fun o => o.sent == 0 && s.ownStore o.msg)).length)).foldl (· + ·) 0
  let pieces := (s.host.slots.filter (fun kv => match kv.2 with | some sl => sl.phase == .running | none => false)).length
  [0, 0, 0, remote, 0, s.occupied, pieces]

/-- Ports drop the stores that wait in their queues; every context is OFF (R501, R795). DEDUCED (log 37). -/
def State.resetFabric (s : State) : State :=
  let own := s.ownStore
  { s with fab := { s.fab with
      ports := s.fab.ports.map (fun kv => (kv.1, { kv.2 with
        queue := kv.2.queue.filter (fun o => !(o.sent == 0 && own o.msg)) })),
      arrived := s.fab.arrived.filter (fun m => !own m),
      ctxs := s.fab.ctxs.foldl (fun m kv =>
        mput (List.replicate 64 0) m kv.1 (patch kv.2 0 (natLe 1 (field kv.2 0 1 / 4 * 4)))) s.fab.ctxs,
      credited := [], reqs := [] } }

/-- Stacks are restored under R380, and STK_STATUS reads again what a reset leaves (Table 23.5). One in TEST returns to RUN as it does at a
COMMIT: its contents are lost (R386). DEDUCED (log 37). -/
def State.resetStacks (s : State) : State :=
  (List.range 8).foldl (fun s k =>
    if (s.stack k).mode == .failed then s.modStack k (fun x => { x with temp := 0, throttle := 0, marginResult := 0, bin := 0 })
    else
      let test := (s.stack k).inTest && !s.censusHolds (stackNode k)
      let vddq := match (s.stack k).margin with | some (3, _) => true | _ => false
      let s := if (s.stack k).inTest then s.leaveTest k s.isOpen else s
      let s := s.modStack k (fun x => { x with
        temp := 0, throttle := 0, enteringTest := false, margin := none, marginResult := 0, bin := 0 })
      let s := if vddq then s.emit (.setpoint (16 + k / 4) 0) else s
      if test then s.modUnit (stackNode k) (fun x => { x with state := .idle }) else s) s

/-- Resilience keeps its registers; work that the reset interrupts clears what it was making (R666). -/
def State.resetRes (s : State) : State :=
  let s := if s.res.copy.isSome then s.dropLive else s
  { s with res := { s.res with
      hold := false, rebuilding := false, imaging := false, rebState := if s.res.rebState = 1 then 3 else s.res.rebState,
      copy := none, blocks := [], due := false, restoring := none, twins := [], spoiled := false } }

/-- Cores restart; FATAL ends, a dump being written is abandoned, and every halt ends (R715, R718). -/
def State.resetCores (s : State) : State :=
  { s with cores := { CoreState.reset with
      seen := s.cores.seen, multiple := s.cores.multiple, cause := s.cores.cause, fatalStamp := s.cores.fatalStamp,
      dumpState := if s.cores.dumpState = 1 then 3 else s.cores.dumpState, truncated := s.cores.truncated,
      hostDone := s.cores.hostDone, dumpMib := s.cores.dumpMib, dmi := s.cores.dmi, tapIr := s.cores.tapIr,
      authPos := s.cores.authPos } }

/-- What a warm or function reset leaves of every block, before enumeration. DEDUCED (log 37). -/
def State.resetBlocks (s : State) : State :=
  let s := s.resetStacks.resetFabric.resetRes.resetCores
  { s with
    tree := { s.tree with ready := false }
    regs := s.regs.resetAll regKept (fun _ => false), host := HostState.reset, coll := s.coll.discarded,
    tf := TfState.reset, aec := { AecState.reset with boundaries := s.aec.stored + 65536, stored := s.aec.stored + 65536 },
    obs := { ObsState.reset with logs := s.obs.logs },
    mem := { s.mem with ueLive := [], slicePass := [] },
    ue := s.ue.map (fun kv => (kv.1, { kv.2 with data := List.replicate 16 0 })),
    mgmt := { s.mgmt with mnode := 0 } }

/-- A package that resets: power is up, and no thermal trip or power loss has stopped it (Table 22.6). -/
def State.canReset (s : State) : Bool :=
  s.rst.vaux && s.rst.bar0 && s.rst.state != 4 && !s.rst.stoppedAll && !s.rst.testMode

/-- The reset block after a reset of a kind. -/
def RstState.after (r : RstState) (kind trigger : Nat) (disc : List Nat) : RstState :=
  { r with
    state := 0, kind := kind, trigger := trigger, count := sat 16 (r.count + 1), disc := disc, pkgRun := true,
    draining := false, readyPosted := false, config := [] }

/-- Steps 5 and 6 of R791. -/
def State.resetDone (s : State) (squall : List Nat) (activated : Bool) : State :=
  let s := (s.enumerate squall).bbRecord 0x0006 (resetPayload s.rst.kind s.rst.trigger s.rst.disc)
  let s := if activated then s.bootRecord.raiseSvn else s
  ((s.enterHold 2 none).postReady).zeroCounters

/-- The steps of R791. DESIGN CHOICE (log 9). -/
def State.restart (s : State) (kind trigger : Nat) (squall : List Nat) : State :=
  if !s.canReset then s
  else
    let (lost, s) := s.discardBuffers
    let disc := s.discards.set 2 lost
    let old := if s.rst.state = 3 then s.emit (.pin "PKG_RUN" true) else s
    let activated := kind == 2 && (s.mgmt.activate || trigger == 4)
    let s := (if activated then old.boot 0 else old).resetBlocks
    let s : State := { s with rst := s.rst.after kind trigger disc }
    (if s.mgmt.bootFail = 0 then s.resetDone squall activated else s).tellState old

/-- WARM_RESET: trigger 1 PERST#, 2 Hot Reset or Link Disable, 4 firmware activation. -/
def execWarmReset (trigger : Nat) (squallFail : List Nat) (s : State) : Host.Outcome State Fault Refusal :=
  .next (if trigger = 1 || trigger = 2 || trigger = 4 then s.restart 2 trigger squallFail else s)

/-- FUNCTION_LEVEL_RESET. -/
def execFunctionLevelReset (squallFail : List Nat) (s : State) : Host.Outcome State Fault Refusal :=
  .next (s.restart 3 5 squallFail)

/-! ### RST_CTL and orderly power-down (R797, Table 22.12) -/

/-- RST_CTL (Table 22.11). -/
def regRstCtl : Nat := 0x8000

/-- Step 1 of Table 22.9. A power-down in HOLD skips to step 3, and one in FATAL to step 5. DEDUCED (log 38). -/
def State.powerdown (s : State) : State :=
  if s.rst.state ≠ 0 then s
  else
    let held := s.res.hold
    let s := { s with rst := { s.rst with
      state := 2, kind := 4, trigger := 6, disc := List.replicate 7 0, draining := !held && !s.cores.fatal } }
    let s := if held then s else s.flush
    if s.cores.fatal then s.pdFinish else s.pdCheck

/-- A write of RST_CTL: nothing but a clamp without the KEY; where both bits are 1 only WARM acts, with a clamp. -/
def State.rstCtl (s : State) (v : Nat) (squall : List Nat) : State :=
  if bits v 31 16 ≠ 0x5A3C then s.clamp (.register regRstCtl) 1
  else if bit v 0 then (s.clamp (.register regRstCtl) (b2n (bit v 1))).restart 2 3 squall
  else if bit v 1 then s.powerdown
  else s

/-- RST_CTL_WARM. -/
def execRstCtlWarm (value : Nat) (squallFail : List Nat) (s : State) : Host.Outcome State Fault Refusal :=
  .next (s.onWrite (fun s => s.rstCtl value squallFail))

/-- RST_CTL_POWERDOWN. -/
def execRstCtlPowerdown (value : Nat) (s : State) : Host.Outcome State Fault Refusal := .next (s.onWrite (fun s => s.rstCtl value []))

/-- Running descriptors in order of acceptance. -/
def State.runningSlots (s : State) : List (Nat × Slot) :=
  (s.host.slots.filterMap (fun kv => match kv.2 with
    | some sl => if sl.phase == .running then some (kv.1, sl) else none
    | none => none)).mergeSort (fun a b => a.2.born ≤ b.2.born)

/-- POWERDOWN_LIMIT_EXPIRY: the limit of step 2 stops what runs, which completes ABORTED; that of step 4 ends the wait for
the rings. DEDUCED (log 38). -/
def execPowerdownLimitExpiry (s : State) : Host.Outcome State Fault Refusal :=
  .next (if s.rst.state ≠ 2 || s.rst.readyPosted then s
    else if s.rst.draining && s.anySlot .running then
      let rs := s.runningSlots
      let s := rs.foldl (fun s kv => s.finish kv.1 ((opClass (opcodeOf kv.2.desc)).getD 0) .aborted 0) s
      ({ s with rst := { s.rst with draining := false, disc := s.rst.disc.set 6 rs.length } } : State).pdCheck
    else s.pdFinish)

/-- POWERDOWN_READY_TIMEOUT. -/
def execPowerdownReadyTimeout (s : State) : Host.Outcome State Fault Refusal :=
  .next (if s.rst.state = 2 && s.rst.readyPosted then s.downReady else s)

/-! ### Power loss (R772, R799, R800) -/

/-- SUDDEN_POWER_LOSS: a rail of Table 20.1 by index below its fail threshold (13 is VAUX), or 14 for SYS_PWROK; a rail without a fail
threshold is no power loss (R748). In DOWN_READY it is no sudden loss; VAUX then just falls. DEDUCED (log 38). -/
def execSuddenPowerLoss (cause : Nat) (s : State) : Host.Outcome State Fault Refusal :=
  .next (if !s.rst.vaux || ((failLevel cause).isNone && cause ≠ 14) then s
    else if s.rst.state = 3 then (if cause = 13 then { s with rst := { s.rst with vaux := false, bar0 := false } } else s)
    else if s.rst.state = 4 then (if cause = 13 then { s with rst := { s.rst with vaux := false } } else s)
    else
      let s := { s with rst := { s.rst with
        state := 4, stoppedAll := true, pkgRun := false, bar0 := false, vaux := cause ≠ 13 } }
      let s := (s.emit (.pin "PKG_RUN" false)).modMgmt (fun m => { m with queue := [] })
      s.bbRecord 0x0002 (natLe 1 cause ++ natLe 8 s.stamp ++ natLe 1 (b2n s.cores.fatal + 2 * b2n s.res.hold)))

/-! ### PCI Express configuration (R546, R789) -/

/-- CONFIGURATION_REQUEST: Request Retry Status before BAR0 is readable. Where a write opens MSI-X, the pending vectors go out. -/
def execConfigurationRequest (write : Bool) (register value : Nat) (s : State) : Host.Outcome State Fault Refusal :=
  .next (if !s.rst.vaux || s.rst.state = 3 || s.rst.state = 4 then s
    else if !s.rst.bar0 then s.emit (.config true 0)
    else if write then
      let s := s.configWrite register value
      (if register = 44 then (s.host.msix.map (·.1)).foldl State.sendPending s else s).emit (.config false 0)
    else s.emit (.config false (s.configAt register)))

end Sys2Proof.Machine
end

