-- ==== Sys2Proof/Machine/Commits.lean ====
section
/-! DEFINITION. COMMIT of each block and its commit point (chapter 23: R812 to R821, Table 23.3), with what each block judges
there. The unit-tree block's stands in Machine/Units.lean, the tier-memory and stack blocks' in Machine/MemCmds.lean, those of
the arithmetic-check and step blocks in Machine/Aec.lean. -/

namespace Sys2Proof.Machine

/-- A write of 1 to a block's COMMIT: its shadows are captured, and take effect at once, or wait behind the wait of the
block or an earlier COMMIT of it (R813, R819). DEDUCED (log 16). -/
def State.commitWrite (s : State) (b : Nat) (waits : Bool) (legal : State → RegFile → State) : State :=
  let vals := s.regs.capture b
  if waits || s.regs.captures.any (fun c => c.block == b) then s.keepCapture b vals
  else legal (s.applyVals vals) s.regs

/-! ### What each block judges (R814 to R816) -/

/-- A field outside two bounds is read as the nearer one, with a clamp. -/
def State.commitBound (s : State) (off inst hi lo least most : Nat) : State :=
  let v := bits (s.regs.eff off inst) hi lo
  s.commitClamp (v < least || most < v) off inst hi lo (max least (min most v))

/-- The resilience block: TWIN_WAIT, IMAGE_EN, and, where a list has changed, SHAPE and IMAGE_VALID (R673); the seal is
written where its address or what it holds changes (R653, R684). -/
def State.legalRs (s : State) (old : RegFile) : State :=
  let s := s.commitClamp (bits (s.regs.eff regRsCtl 0) 31 16 = 0) regRsCtl 0 31 16 1
  let s := if bit (s.regs.eff regRsCtl 0) 0 && !inTier s.listBase (16 * s.listCount) then
      ({ s with regs := s.regs.setEffField regRsCtl 0 0 0 0 } : State).clamp (.register regListHi) 1
    else s
  let was := { s with regs := old }
  let lists := was.listBase ≠ s.listBase || was.listCount ≠ s.listCount || was.imageBase ≠ s.imageBase
  let s := if lists then s.readLists else s
  let s := if lists then { s with res := { s.res with shape := s.shapeOf, imageValid := false } } else s
  if lists || was.sealBase ≠ s.sealBase then s.writeSeal else s

/-- The observation block (Tables 19.11 to 19.13). -/
def State.legalObs (s : State) (_ : RegFile) : State :=
  let s := s.commitClamp (bits (s.regs.eff regObsCfg 0) 31 16 = 0) regObsCfg 0 31 16 1
  let s := s.commitClamp (bits (s.regs.eff regObsCfg 0) 2 1 = 3) regObsCfg 0 2 1 2
  let s := s.commitClamp (s.regs.eff regCtrDumpLen 0 = 0) regCtrDumpLen 0 31 0 1
  let hi := s.regs.eff regCtrDumpHi 0
  let a := bits (s.regs.eff regCtrDumpLo 0) 31 4 * 16 + bits hi 15 0 * 2 ^ 32
  let s := s.commitClamp (bit hi 31 && !inTier a (16 * s.regs.eff regCtrDumpLen 0)) regCtrDumpHi 0 31 31 0
  if s.dumpRoom ≠ 0 && !inStack s.dumpBase s.dumpRoom then
    ({ s with regs := s.regs.setEff regDumpLen 0 0 } : State).clamp (.register regDumpBaseHi) 1
  else s

/-- The power block (Table 20.9). -/
def State.legalPwr (s : State) (_ : RegFile) : State :=
  let s := (s.commitBound regPwrCtl 0 27 16 600 2400).commitBound regPwrCtl 0 13 8 vMin vMax
  (s.commitBound regPerfCtl 0 13 8 vMin vMax).commitBound regPerfCtl 0 5 0 vMin vMax

/-- The reset block (Table 22.12). -/
def State.legalRst (s : State) (_ : RegFile) : State :=
  s.commitClamp (bits (s.regs.eff regPdCfg 0) 31 16 = 0) regPdCfg 0 31 16 1

/-! ### The host block (R561, Table 15.8) -/

/-- A field of a ring that stays enabled keeps its value, with a clamp where the COMMIT changes it. -/
def State.keepField (s : State) (old : RegFile) (off r hi lo : Nat) : State :=
  let v := bits (old.eff off r) hi lo
  s.commitClamp (bits (s.regs.eff off r) hi lo ≠ v) off r hi lo v

/-- A base address of a ring that stays enabled keeps its value. -/
def State.keepBase (s : State) (old : RegFile) (lo hi r : Nat) : State :=
  if old.eff lo r = s.regs.eff lo r && old.eff hi r = s.regs.eff hi r then s
  else
    ({ s with regs := (s.regs.setEff lo r (old.eff lo r)).setEff hi r (old.eff hi r) } : State).clamp (.register lo) 1

/-- A submission ring at a COMMIT: legality, then what stays, then its start where it becomes enabled. DEDUCED (log 16). -/
def State.commitSq (s : State) (old : RegFile) (r : Nat) : State :=
  let s := (s.commitBound regSqCfg r 28 24 4 16).commitBound regSqCfg r 12 0 0 4096
  match bit (old.eff regSqCfg r) 31, bit (s.regs.eff regSqCfg r) 31 with
  | true, true =>
    (((s.keepBase old regSqBaseLo regSqBaseHi r).keepField old regSqCfg r 28 24).keepField old regSqCfg r 23 16).keepField old
      regSqCfg r 15 15
  | false, true => s.modSq r (fun q => { SqRing.reset with accepted := q.accepted + 16 })
  | _, false => s

/-- A completion ring at a COMMIT: alike, and a start arms it. A COUNT that its unconsumed records reach now signals (R574). -/
def State.commitCq (s : State) (old : RegFile) (r : Nat) : State :=
  let s := s.commitBound regCqCfg r 28 24 4 16
  let m := s.regs.eff regCqMod r
  let s := s.commitClamp (bits m 31 24 = 0 && bits m 15 0 = 0) regCqMod r 31 24 1
  match bit (old.eff regCqCfg r) 31, bit (s.regs.eff regCqCfg r) 31 with
  | true, true => ((s.keepBase old regCqBaseLo regCqBaseHi r).keepField old regCqCfg r 28 24).maySignal r
  | false, true => s.modCq r (fun _ => { CqRing.reset with armed := true })
  | _, false => s

/-- The host block: every ring. -/
def State.legalHost (s : State) (old : RegFile) : State :=
  (List.range 256).foldl (fun s r => (s.commitSq old r).commitCq old r) s

/-! ### The fabric block (R445, R448, Table 13.16) -/

/-- A port at a COMMIT: ENABLE 0 ends it, at once or after its replay buffer (R448), ENABLE 1 brings an OFF port to SEEK
(R445), and RETRAIN acts and returns to 0 (R817). -/
def State.commitPort (s : State) (p : Nat) : State :=
  let c := s.regs.eff regPortCtl p
  let s := if bit c 1 then { s with regs := s.regs.device regPortCtl p (fun v => if bit v 1 then v - 2 else v) } else s
  match bit c 0, (s.portAt p).mode with
  | false, .off => s
  | false, .up => if (s.portAt p).replay = [] then s.leaveUp p .off else s.modPort p (fun q => { q with closing := true })
  | false, _ => s.leaveUp p .off
  | true, .off => (s.modPort p (fun q => { q with mode := .seek, fails := 0 })).seekPartner p
  | true, _ =>
    let s := s.modPort p (fun q => { q with closing := false })
    if bit c 1 then s.enterRetrain p else s

/-- The fabric block. -/
def State.legalFab (s : State) (_ : RegFile) : State :=
  let s := s.commitBound regFabCtl 0 27 24 3 8
  let old := s
  (((List.range 12).foldl State.commitPort s).chooseRoot).tellQuality old

/-! ### COMMIT rows -/

/-- AEC_COMMIT: part 1 of the next STEP. -/
def execAecCommit (s : State) : Host.Outcome State Fault Refusal :=
  .next (s.onWrite (fun s => s.commitWrite 1 true State.legalAec))

/-- TF_COMMIT: part 1 of the next STEP. -/
def execTfCommit (s : State) : Host.Outcome State Fault Refusal :=
  .next (s.onWrite (fun s => s.commitWrite 2 true (fun s _ => s.legalTf)))

/-- The resilience block waits while an image pass or a command runs. DEDUCED (log 16). -/
def State.rsWaits (s : State) : Bool := s.res.imaging || s.cmdBusy || s.res.restoring.isSome

/-- RS_COMMIT. -/
def execRsCommit (s : State) : Host.Outcome State Fault Refusal :=
  .next (s.onWrite (fun s => s.commitWrite 3 s.rsWaits State.legalRs))

/-- OBS_COMMIT. -/
def execObsCommit (s : State) : Host.Outcome State Fault Refusal :=
  .next (s.onWrite (fun s => s.commitWrite 4 false State.legalObs))

/-- PWR_COMMIT: the next 1 ms period of the loops. -/
def execPwrCommit (s : State) : Host.Outcome State Fault Refusal :=
  .next (s.onWrite (fun s => s.commitWrite 5 true State.legalPwr))

/-- RST_COMMIT. -/
def execRstCommit (s : State) : Host.Outcome State Fault Refusal :=
  .next (s.onWrite (fun s => s.commitWrite 6 false State.legalRst))

/-- HOST_COMMIT. -/
def execHostCommit (s : State) : Host.Outcome State Fault Refusal :=
  .next (s.onWrite (fun s => s.commitWrite 7 false State.legalHost))

/-- FAB_COMMIT. -/
def execFabCommit (s : State) : Host.Outcome State Fault Refusal :=
  .next (s.onWrite (fun s => s.commitWrite 8 false State.legalFab))

/-- TM_COMMIT of a die. -/
def State.tmCommit (s : State) (d : Nat) : State := s.commitWrite (9 + d) false (fun s _ => s.legalTm d)

/-- TM_COMMIT. -/
def execTmCommit (die : Nat) (s : State) : Host.Outcome State Fault Refusal :=
  .next (s.onWrite (fun s => if die < 2 then s.tmCommit die else s))

/-- STK_COMMIT of a stack: a capture that asks for TEST in RUN first lets accepted accesses complete (R383). -/
def State.stkCommit (s : State) (k : Nat) : State :=
  let vals := s.regs.capture (16 + k)
  let s := if wantsTest k vals && (s.stack k).mode == .run then s.modStack k (fun x => { x with enteringTest := true }) else s
  s.commitWrite (16 + k) (s.stkWaits k vals) (fun s old => s.legalStk k old)

/-- STK_COMMIT. -/
def execStkCommit (stack : Nat) (s : State) : Host.Outcome State Fault Refusal :=
  .next (s.onWrite (fun s => if stack < 8 then s.stkCommit stack else s))

/-! ### Commit points that waited (R819) -/

/-- The oldest pending capture of a block takes effect. -/
def State.commitOldest (s : State) (b : Nat) (legal : State → RegFile → State) : State :=
  match s.takeCapture b with
  | some (vals, t) => legal (t.applyVals vals) s.regs
  | none => s

/-- The commit point of a block that waits, where its wait is over. Those of the arithmetic-check and step blocks are part 1
of a STEP; TEST state is entered by TEST_ENTRY. DEDUCED (log 16). -/
def State.commitPoint (s : State) (b : Nat) : State :=
  if b = 3 then (if s.rsWaits then s else s.commitOldest 3 State.legalRs)
  else if b = 5 then (s.commitOldest 5 State.legalPwr).judgePower
  else if 16 ≤ b && b < 24 then
    match s.takeCapture b with
    | some (vals, _) => if s.stkWaits (b - 16) vals then s else s.commitOldest b (fun s old => s.legalStk (b - 16) old)
    | none => s
  else s

/-- COMMIT_POINT. -/
def execCommitPoint (block : Nat) (s : State) : Host.Outcome State Fault Refusal := .next (s.commitPoint block)

/-- POLICY_CAP_TICK: pending COMMITs of the power block take effect at the period, and the loop moves. -/
def execPolicyCapTick (s : State) : Host.Outcome State Fault Refusal :=
  .next (if !s.loopsRun then s
    else ((State.applyPending s.regs.captures.length 5 State.legalPwr s).policyCapStep).judgePower)

/-- CMT_PENDING (Table 23.2). -/
def State.cmtPending (s : State) : Nat :=
  ((List.range 24).map (fun b => b2n (s.regs.captures.any (fun c => c.block == b)) * 2 ^ b)).foldl (· + ·) 0

end Sys2Proof.Machine
end

