-- ==== Sys2Proof/Machine/RegView.lean ====
section
/-! DEFINITION. BAR0 as a host sees it: what a read of a register returns, with no side effect (R13, R805, R808, R822), and
what a write of a register does (R548, R806, R809, R811). -/

namespace Sys2Proof.Machine

/-! ### What a read returns -/

/-- Word n of some bytes. -/
def word (bs : List Byte) (n : Nat) : Nat := field bs (4 * n) 4

/-- The 32 bits of a number from bit 32 n. -/
def part (x n : Nat) : Nat := bits x (32 * n + 31) (32 * n)

/-- A stored register's shadow. -/
def State.stored (s : State) (off inst : Nat) : Nat := s.regs.shadow off inst

/-- Identification block (Table 23.2). -/
def State.viewId (s : State) (r : Nat) : Nat :=
  match r with
  | 0x000 => 0x24001000
  | 0x004 => part Config.serial.toNat 0
  | 0x008 => part Config.serial.toNat 1
  | 0x00C => b2n s.mgmt.bar4
  | 0x010 => s.cmtPending
  | 0x014 => s.stored regScratch 0
  | _ => 0

/-- Unit-tree block (Table 2.8). -/
def State.viewTree (s : State) (r : Nat) : Nat :=
  let id := s.stored regNodeSel 0 % 65536
  match r with
  | 0x000 => b2n s.tree.ready * 2 ^ 31 + s.tree.gen * 65536 + (if s.tree.ready then spanRoot else 0)
  | 0x048 => s.slackStatus id
  | 0x04C => s.cadenceOf id
  | 0x050 => s.nodeStatus id
  | 0x058 => s.freezeCount id
  | 0x05C => 0
  | _ => if 0x020 ≤ r && r < 0x040 then word s.tree.enumData ((r - 0x020) / 4) else s.stored (0x1000 + r) 0

/-- Arithmetic-check block (Tables 7.10 and 7.13). -/
def State.viewAec (s : State) (r : Nat) : Nat :=
  match r with
  | 0x00C => b2n s.aec.storm * 2 ^ 31 + b2n s.aec.stormHalt * 2 ^ 30 + b2n s.aec.rollbackPending * 2 ^ 29
      + s.aec.stormRun % 16 * 2 ^ 20 + sat 8 s.aec.sinceRollback
  | 0x010 => sat 16 s.aec.waiting * 65536 + sat 16 s.aec.widened
  | 0x014 => 0
  | _ => s.stored (0x2000 + r) 0

/-- Step block (Table 17.8). -/
def State.viewTf (s : State) (r : Nat) : Nat :=
  match r with
  | 0x000 => s.stored regTfCtl 0
  | 0x004 => b2n s.tf.timetable * 2 ^ 31 + b2n s.tf.run.isSome * 2 ^ 30 + b2n s.tf.mismatch * 2 ^ 29
      + b2n s.tf.diverged * 2 ^ 28 + b2n s.tf.rollback * 2 ^ 27 + s.tf.first % 4096
  | 0x008 => part s.tf.stepNo 0
  | 0x00C => part s.tf.stepNo 1
  | _ => 0

/-- Resilience block (Table 18.10). -/
def State.viewRes (s : State) (r : Nat) : Nat :=
  let x := s.res
  match r with
  | 0x01C => (if x.rebuilding then 2 else b2n x.hold) * 2 ^ 30 + x.decided % 4 * 2 ^ 28 + b2n x.liveValid * 2 ^ 27
      + b2n x.pending * 2 ^ 26 + b2n x.imageValid * 2 ^ 25 + b2n x.imaging * 2 ^ 24 + b2n s.cmdBusy * 2 ^ 23
      + x.cmdErr % 8 * 2 ^ 20 + x.cause % 16 * 65536 + x.waited % 32768
  | 0x020 => part x.cut 0
  | 0x024 => part x.cut 1
  | 0x028 => part x.img 0
  | 0x02C => part x.img 1
  | 0x040 => 0
  | 0x044 => x.rebState % 16 * 2 ^ 28 + x.rebSource % 4 * 2 ^ 26 + x.rebBytes / 2 ^ 26 % 2 ^ 24
  | 0x048 => part x.shape 0
  | 0x04C => part x.shape 1
  | 0x054 => sat 16 x.stragLag * 65536 + x.stragSlowest % 32768
  | 0x058 => 0
  | _ => s.stored (0x4000 + r) 0

/-- Observation block (Table 19.10). -/
def State.viewObs (s : State) (r : Nat) : Nat :=
  match r with
  | 0x000 | 0x04C | 0x07C => 0
  | 0x00C => s.dbgStatus
  | 0x014 => s.cores.status
  | 0x020 => s.obs.sigInfo
  | 0x024 => word s.obs.sigData 0
  | 0x028 => word s.obs.sigData 1
  | 0x02C => word s.obs.sigData 2
  | 0x030 => word s.obs.sigData 3
  | 0x038 => s.obs.ctrFlags
  | 0x03C => part s.obs.ctrLive 0
  | 0x040 => part s.obs.ctrLive 1
  | 0x044 => part s.obs.ctrLatched 0
  | 0x048 => part s.obs.ctrLatched 1
  | 0x074 => s.dumpStatus
  | 0x078 => s.fatalStatus
  | _ => s.stored (0x5000 + r) 0

/-- Power block (Table 20.8). -/
def State.viewPwr (s : State) (r : Nat) : Nat :=
  match r with
  | 0x008 => s.pwrStatus
  | 0x00C => s.voltStatus
  | 0x010 => s.capStatus
  | 0x014 => s.tempStatus
  | 0x018 => s.coolStatus
  | 0x020 => s.pwr.railStatus
  | 0x024 => 0
  | _ => s.stored (0x6000 + r) 0

/-- Management block (Table 21.14). -/
def State.viewMgmt (s : State) (r : Nat) : Nat :=
  match r with
  | 0x000 => s.mgmtStatus
  | 0x004 => 0
  | 0x008 => s.censusStatus
  | 0x010 => s.mgmt.mnode
  | 0x014 => s.bbStatus
  | _ =>
    if 0x020 ≤ r && r < 0x060 then word s.mgmt.bbData ((r - 0x020) / 4)
    else if 0x060 ≤ r && r < 0x080 then word s.mgmt.lastGasp ((r - 0x060) / 4)
    else s.stored (0x7000 + r) 0

/-- RST_STATUS (Table 22.12). -/
def State.rstStatus (s : State) : Nat :=
  s.rst.state % 16 * 2 ^ 28 + s.rst.kind % 16 * 2 ^ 24 + s.rst.trigger % 16 * 2 ^ 20 + s.rst.count

/-- Reset block (Table 22.11). -/
def State.viewRst (s : State) (r : Nat) : Nat :=
  match r with
  | 0x004 => s.rstStatus
  | 0x008 => s.stored regPdCfg 0
  | _ => if 0x00C ≤ r && r < 0x028 then sat 32 (at8 s.rst.disc ((r - 0x00C) / 4)) else 0

/-- SQ_STATE of a ring (Table 15.8). -/
def State.sqState (s : State) (r : Nat) : Nat :=
  let q := s.sqRing r
  (if !bit (s.sqCfg r) 31 then 0 else if q.error then 2 else 1) * 2 ^ 30 + b2n (q.lap % 2 = 0) * 2 ^ 29
    + s.slotsOf r % 8192

/-- CQ_STATE of a ring (Table 15.8). -/
def State.cqState (s : State) (r : Nat) : Nat :=
  let q := s.cqRing r
  b2n q.armed * 2 ^ 31 + b2n (q.lap % 2 = 0) * 2 ^ 30
    + b2n (bit (s.cqCfg r) 31 && ringSize (s.cqCfg r) ≤ s.unconsumed r + 1) * 2 ^ 29
    + sat 13 (s.waitingRecords r).length

/-- Slots that hold a record not yet written. -/
def State.doneSlots (s : State) : Nat :=
  (s.host.slots.filter (fun kv => match kv.2 with | some sl => sl.phase == .done | none => false)).length

/-- Host block (Table 15.7). -/
def State.viewHost (s : State) (r : Nat) : Nat :=
  let ring := s.stored regRingSel 0 % 256
  match r with
  | 0x000 => s.stored regRingSel 0
  | 0x010 => (s.sqRing ring).tail % 65536 * 65536 + (s.sqRing ring).head % 65536
  | 0x014 => s.sqState ring
  | 0x028 => (s.cqRing ring).tail % 65536 * 65536 + (s.cqRing ring).head % 65536
  | 0x02C => s.cqState ring
  | 0x030 => (4096 - s.occupied) * 65536 + s.doneSlots
  | 0x034 => b2n s.host.evtLost * 2 ^ 31 + min 512 s.host.events.length
  | 0x038 => s.host.clampCount
  | 0x03C => s.host.clampLastLo
  | 0x040 => s.host.clampLastHi
  | 0x044 => 0
  | _ => s.stored (0x10000 + r) ring

/-- Port states in code order (Table 13.4). -/
def PortMode.code : PortMode → Nat
  | .off => 0 | .seek => 1 | .train => 2 | .align => 3 | .up => 4 | .retrain => 5 | .failed => 6

/-- Messages of the inactive epoch remain here: taken in, queued, in a receive buffer whole or in part, or with a flit in a replay buffer
(FAB_STATUS). -/
def State.oldEpochBusy (s : State) : Bool :=
  let old (e : Nat) : Bool := e ≠ s.fab.epoch
  s.fab.arrived.any (fun m => old m.epoch) || (List.range 12).any (fun p =>
    let q := s.portAt p
    q.queue.any (fun o => old o.msg.epoch) || q.inbox.any (fun h => old h.msg.epoch)
      || q.partial'.any (fun x => match x.2 with
        | g :: _ => old (field g.1 1 1 % 2)
        | [] => false)
      || q.replay.any (fun f => old f.1))

/-- FAB_STATUS (Table 13.16). -/
def State.fabStatus (s : State) : Nat :=
  b2n s.fab.island * 2 ^ 31 + s.fab.epoch % 2 * 2 ^ 30 + b2n (bit (s.regs.eff regRouteSwitchHi 0) 31) * 2 ^ 29
    + b2n s.oldEpochBusy * 2 ^ 28 + s.upPorts.length * 4096 + (s.upPorts.map (2 ^ ·)).foldl (· + ·) 0

/-- PORT_STATUS of a port. -/
def PortState.status (q : PortState) : Nat :=
  q.mode.code * 2 ^ 28 + q.port % 16 * 2 ^ 24 + b2n q.duplicate * 2 ^ 23 + b2n q.changed * 2 ^ 22 + q.chip % 32768

/-- TIME_STATUS (Table 13.18). -/
def State.timeStatus (s : State) : Nat :=
  s.time.quality.code * 2 ^ 30 + b2n (s.time.slew ≠ 0) * 2 ^ 29 + b2n s.fab.trefValid * 2 ^ 28
    + s.fab.upPort % 16 * 2 ^ 24 + s.fab.hops % 256 * 65536 + s.fab.root % 32768

/-- Fabric block (Table 13.15). -/
def State.viewFab (s : State) (r : Nat) : Nat :=
  let p := s.stored regPortSel 0 % 16
  let q := s.portAt p
  match r with
  | 0x004 => s.fabStatus
  | 0x00C => if p < 12 then s.stored regPortCtl p % 2 else 0
  | 0x010 => if p < 12 then q.status else 0
  | 0x014 => if p < 12 then sat 24 q.delay else 0
  | 0x018 => if p < 12 then part q.serial 0 else 0
  | 0x01C => if p < 12 then part q.serial 1 else 0
  | 0x024 =>
    let sel := s.stored regRouteSel 0
    mget 0 s.fab.routes (bits sel 31 31 * 32768 + sel % 32768)
  | 0x034 | 0x09C => 0
  | 0x084 => s.timeStatus
  | 0x088 => part s.time.now 0
  | 0x08C => s.fab.nowHi
  | 0x098 => wrap 32 (max (-(2 ^ 31)) (min (2 ^ 31 - 1) s.fab.offset))
  | _ => s.stored (0x20000 + r) 0

/-- Tier-memory block of a die (Table 10.8). -/
def State.viewTm (s : State) (d r : Nat) : Nat :=
  match r with
  | 0x004 => mget 0 s.mem.ueLive d % 128 * 65536 + s.bgPasses d
  | 0x00C | 0x03C => 0
  | _ =>
    if 0x010 ≤ r && r < 0x020 then word (mget (List.replicate 16 0) s.obs.logData d) ((r - 0x010) / 4)
    else s.stored (tierBlock d + r) 0

/-- Stack states in code order (Table 11.8). -/
def StackMode.code : StackMode → Nat
  | .run => 0 | .test => 1 | .training => 2 | .failed => 3

/-- STK_STATUS of a stack (Table 11.8). -/
def State.stkStatus (s : State) (k : Nat) : Nat :=
  let x := s.stack k
  x.temp % 256 * 2 ^ 24 + x.throttle % 4 * 2 ^ 22 + b2n x.trained * 2 ^ 21 + b2n (!x.converting.isEmpty) * 2 ^ 20
    + x.mode.code * 2 ^ 18 + x.lanesRepaired % 256 * 256 + sat 8 (mget 0 s.mem.ueLive (2 + k))

/-- Stack block (Table 11.6). -/
def State.viewStk (s : State) (k r : Nat) : Nat :=
  match r with
  | 0x00C => s.stkStatus k
  | 0x014 => (s.stack k).marginResult
  | 0x024 | 0x02C => 0
  | _ =>
    if 0x030 ≤ r && r < 0x040 then word (mget (List.replicate 16 0) s.obs.logData (2 + k)) ((r - 0x030) / 4)
    else s.stored (stackBlock k + r) 0

/-- Update-engine block of a stack (Table 12.12). -/
def State.viewUe (s : State) (k r : Nat) : Nat :=
  let u := mget UeState.reset s.ue k
  match r with
  | 0x000 => (u.ranges.filter Option.isSome).length * 65536 + b2n u.lost * 32768 + u.enginesOk
  | 0x004 => s.stored (regRangeSel k) 0
  | _ => if 0x010 ≤ r && r < 0x020 then word u.data ((r - 0x010) / 4) else 0

/-- MSI-X table and PBA (R806). -/
def State.viewMsix (s : State) (r : Nat) : Nat :=
  if r < 0x8000 then
    let e := mget MsixEntry.reset s.host.msix (r / 16)
    match r % 16 / 4 with
    | 0 => part e.addr 0
    | 1 => part e.addr 1
    | 2 => e.data
    | _ => b2n e.masked
  else
    ((List.range 32).map (fun i =>
      b2n (mget MsixEntry.reset s.host.msix ((r - 0x8000) * 8 + i)).pending * 2 ^ i)).foldl (· + ·) 0

/-- What a read of a BAR0 register returns (Table 23.1); an offset that holds no register reads zero (R548). In BOOT_FAIL only
MGMT_STATUS reads other than zero (R763). -/
def State.regView (s : State) (off : Nat) : Nat :=
  if s.mgmt.bootFail ≠ 0 then (if off = 0x7000 then 2 ^ 31 + s.mgmt.bootFail % 16 * 2 ^ 24 else 0)
  else
    let r := off % 0x1000
    match off / 0x1000 with
    | 0x00 => s.viewId r
    | 0x01 => s.viewTree r
    | 0x02 => s.viewAec r
    | 0x03 => s.viewTf r
    | 0x04 => s.viewRes r
    | 0x05 => s.viewObs r
    | 0x06 => s.viewPwr r
    | 0x07 => s.viewMgmt r
    | 0x08 => s.viewRst r
    | 0x10 => s.viewHost r
    | 0x20 => s.viewFab r
    | 0x30 | 0x31 => s.viewTm (off / 0x1000 - 0x30) r
    | b =>
      if 0x40 ≤ b && b < 0x48 then s.viewStk (b - 0x40) r
      else if 0x50 ≤ b && b < 0x58 then s.viewUe (b - 0x50) r
      else if 0x1000000 ≤ off && off < 0x1008100 then s.viewMsix (off - 0x1000000)
      else 0

/-! ### Which offsets hold a register (R548) -/

/-- Ranges of register offsets of each block, by page of 4 KiB: first offset and the offset of the last register. -/
def regRanges : List (Nat × Nat × Nat) :=
  [(0x00, 0x00, 0x14), (0x01, 0x00, 0x04), (0x01, 0x20, 0x5C), (0x02, 0x00, 0x14), (0x03, 0x00, 0x10), (0x04, 0x00, 0x58),
   (0x05, 0x00, 0x7C), (0x06, 0x00, 0x24), (0x07, 0x00, 0x18), (0x07, 0x20, 0x7C), (0x08, 0x00, 0x28), (0x10, 0x00, 0x44),
   (0x20, 0x00, 0x34), (0x20, 0x40, 0x9C)]
  ++ [0x30, 0x31].map (fun b => (b, 0x00, 0x3C)) ++ (rangeFrom 0x40 8).map (fun b => (b, 0x00, 0x3C))
  ++ (rangeFrom 0x50 8).flatMap (fun b => [(b, 0x00, 0x08), (b, 0x10, 0x1C)])

/-- An offset holds a register. DEDUCED (log 41). -/
def isRegister (off : Nat) : Bool :=
  (0x1000000 ≤ off && off < 0x1008100)
    || regRanges.any (fun r => off / 0x1000 == r.1 && r.2.1 ≤ off % 0x1000 && off % 0x1000 ≤ r.2.2)

/-! ### Writes -/

/-- A write of an MSI-X table entry's word; unmasking a vector whose bit is pending sends its message (R574, R806). -/
def State.msixWrite (s : State) (r v : Nat) : State :=
  if 0x8000 ≤ r then s
  else
    let n := r / 16
    let e := mget MsixEntry.reset s.host.msix n
    let e := match r % 16 / 4 with
      | 0 => { e with addr := e.addr / 2 ^ 32 * 2 ^ 32 + v / 4 * 4 }
      | 1 => { e with addr := e.addr % 2 ^ 32 + v * 2 ^ 32 }
      | 2 => { e with data := v }
      | _ => { e with masked := bit v 0 }
    ({ s with host := { s.host with msix := mput MsixEntry.reset s.host.msix n e } } : State).sendPending n

/-- ROUTE_DATA: the active bank is not written; a port of 12 to 15 clears its valid bit (Table 13.17). DEDUCED (log 24). -/
def State.routeWrite (s : State) (v : Nat) : State :=
  let sel := s.stored regRouteSel 0
  let bank := bits sel 31 31
  if bank = s.fab.epoch then s.clamp (.register 0x20024) 1
  else
    let e := v / 2 ^ 20 * 2 ^ 20
    let badP := decide (12 ≤ bits e 27 24)
    let badA := decide (12 ≤ bits e 23 20)
    let e := e - b2n (badP && bit e 31) * 2 ^ 31 - b2n (badA && bit e 30) * 2 ^ 30
    ({ s with fab := { s.fab with routes := mput 0 s.fab.routes (bank * 32768 + sel % 32768) e } } : State).clamp
      (.register 0x20024) (b2n badP + b2n badA)

/-- RS_CMD (Table 18.5). -/
def State.rsCmd (s : State) (v : Nat) : State :=
  match v % 16 with
  | 1 => s.rsCommand true State.recover
  | 2 => s.rsCommand true State.rebuild
  | 3 => s.rsCommand true State.adopt
  | 4 => s.rsCommand false State.resume
  | 5 => s.rsCommand false (fun s => s.enterHold 7 none)
  | _ => s.clamp (.register regRsCmd) 1

/-- DBG_CTL: HALT, then RESUME, then FORCE_FATAL. DEDUCED (log 41). -/
def State.dbgCtl (s : State) (v : Nat) : State :=
  let s := if bit v 0 then s.hostHalt else s
  let s := if bit v 1 then s.endHalts (fun h => h.source == 64) else s
  if bit v 2 then s.forceFatal else s

/-- CENSUS_CTL: the unfence request, then the census. DEDUCED (log 41). -/
def State.censusCtl (s : State) (v : Nat) : State :=
  let s := if bit v 30 then s.censusUnfence (v % 65536) else s
  if bit v 31 then s.censusNow else s

/-- CTX_CMD: WRITE, then READ. DEDUCED (log 41). -/
def State.ctxCmd (s : State) (v : Nat) : State :=
  let s := if bit v 1 then s.ctxWrite else s
  if bit v 0 then s.ctxRead else s

/-- LOG_CLEAR of a block. -/
def State.logClear (s : State) (block v : Nat) : State :=
  s.modLogs block (fun l => ⟨if bit v 0 then [] else l.ce, if bit v 1 then [] else l.ue⟩)

/-- A write of a register that stores what is written; the registers of rings and of ports have the instance selected. -/
def State.store (s : State) (off v : Nat) : State :=
  let inst := if off / 0x1000 = 0x10 && off ≠ regRingSel then s.stored regRingSel 0 % 256
    else if off = regPortCtl then s.stored regPortSel 0 % 16 else 0
  if off = regPortCtl && 12 ≤ inst then s
  else { s with regs := s.regs.write off inst (BitVec.ofNat 32 v) }

/-- A COMMIT register: acts where bit 0 is written 1. -/
def State.ifCommit (s : State) (v : Nat) (f : State → State) : State := if bit v 0 then f s else s

/-- A write to a block below 0x1_0000 that does more than store. -/
def State.writeLow (s : State) (off v : Nat) : State :=
  match off with
  | 0x1004 => s.enumSel v
  | 0x1050 => if bit v 0 then s.clearStall (s.stored regNodeSel 0 % 65536) else s
  | 0x105C => s.ifCommit v State.unitTreeCommit
  | 0x200C => if bit v 30 then s.stormHaltClear else s
  | 0x2014 => s.ifCommit v (fun s => s.commitWrite 1 true State.legalAec)
  | 0x3010 => s.ifCommit v (fun s => s.commitWrite 2 true (fun s _ => s.legalTf))
  | 0x4040 => s.rsCmd v
  | 0x4058 => s.ifCommit v (fun s => s.commitWrite 3 s.rsWaits State.legalRs)
  | 0x5000 => s.dbgCtl v
  | 0x5010 => s.coreSel v
  | 0x5018 => s.sigSel v
  | 0x5034 => s.ctrSel v
  | 0x504C => if bit v 0 then s.ctrLatch else s
  | 0x5078 => if bit v 30 then { s with cores := { s.cores with seen := false } } else s
  | 0x507C => s.ifCommit v (fun s => s.commitWrite 4 false State.legalObs)
  | 0x601C => s.railSel v
  | 0x6024 => s.ifCommit v (fun s => s.commitWrite 5 true State.legalPwr)
  | 0x7004 => s.censusCtl v
  | 0x700C => s.mnodeSel v
  | 0x7018 => s.bbSel v
  | 0x8000 => s.rstCtl v []
  | 0x8028 => s.ifCommit v (fun s => s.commitWrite 6 false State.legalRst)
  | _ => s.store off v

/-- A write to the host or fabric block. -/
def State.writeHigh (s : State) (off v : Nat) : State :=
  match off with
  | 0x10034 => if bit v 31 then { s with host := { s.host with evtLost := false } } else s
  | 0x10044 => s.ifCommit v (fun s => s.commitWrite 7 false State.legalHost)
  | 0x20010 =>
    let p := s.stored regPortSel 0 % 16
    if bit v 22 && p < 12 then s.modPort p (fun q => { q with changed := false }) else s
  | 0x20024 => s.routeWrite v
  | 0x20034 => s.ctxCmd v
  | 0x2009C => s.ifCommit v (fun s => s.commitWrite 8 false State.legalFab)
  | _ => s.store off v

/-- A write to the tier-memory block of die d. -/
def State.writeTm (s : State) (d r v : Nat) : State :=
  match r with
  | 0x008 => s.logSel d v
  | 0x00C => s.logClear d v
  | 0x03C => s.ifCommit v (fun s => s.tmCommit d)
  | _ => s.store (tierBlock d + r) v

/-- A write to the block of stack k. -/
def State.writeStk (s : State) (k r v : Nat) : State :=
  match r with
  | 0x010 =>
    let s := s.store (regMarginCtl k) v
    if bit v 31 then s.marginStart k else s
  | 0x024 => s.ifCommit v (fun s => s.stkCommit k)
  | 0x028 => s.logSel (2 + k) v
  | 0x02C => s.logClear (2 + k) v
  | _ => s.store (stackBlock k + r) v

/-- A write to the update-engine block of stack k. -/
def State.writeUe (s : State) (k r v : Nat) : State :=
  match r with
  | 0x004 => s.rangeSel k v
  | 0x008 => if bit v 0 then s.rangeClear k else s
  | _ => s

/-- A whole 4-byte write of a register; an offset that holds none is ignored, with a clamp (R548). DEDUCED (log 41). -/
def State.regWrite (s : State) (off v : Nat) : State :=
  if !isRegister off then s.clamp (.register off) 1
  else if 0x1000000 ≤ off then s.msixWrite (off - 0x1000000) v
  else
    let b := off / 0x1000
    if b < 0x10 then s.writeLow off v
    else if b < 0x30 then s.writeHigh off v
    else if b < 0x32 then s.writeTm (b - 0x30) (off % 0x1000) v
    else if b < 0x48 then s.writeStk (b - 0x40) (off % 0x1000) v
    else s.writeUe (b - 0x50) (off % 0x1000) v

/-- REGISTER_WRITE: `enables` are the four byte enables. One that crosses a register is not supported; one with partial
enables is ignored, with a clamp (R809). -/
def execRegisterWrite (offset value enables : Nat) (s : State) : Host.Outcome State Fault Refusal :=
  .next (s.onWrite (fun s =>
    if offset % 4 ≠ 0 then s.emit .unsupported
    else if enables % 16 ≠ 15 then s.clamp (.register offset) 1
    else s.regWrite offset (value % 2 ^ 32)))

end Sys2Proof.Machine
end

