-- ==== Sys2Proof/Machine/Debug.lean ====
section
/-! DEFINITION. The Debug Module, its authentication and the test access port (chapters 19, 21 and 24: R687, R766, R844 to
R846). R687 names the RISC-V debug specification 1.0 for the module's registers; their layout is that specification's. -/

namespace Sys2Proof.Machine

/-! ### Authentication (R766) -/

/-- A debugger's token answers the challenge in force: 8 bytes of scope and 96 of signature over the serial number, the
challenge and the scope. The challenge is used up. PRESUMED (log 33). -/
def State.authToken (s : State) (token : List Byte) : State :=
  if !s.rst.vaux || s.mgmt.challenge.isEmpty then s
  else
    let scope := slice token 0 8
    let sig := slice token 8 96
    let msg := natLe 8 Config.serial.toNat ++ s.mgmt.challenge ++ scope
    let s := { s with cores := { s.cores with authPos := 0 } }
    if token.length = 104 && Config.debugVerify msg sig then
      (s.modMgmt (fun m => { m with unlocked := m.unlocked ||| bits (leNat scope) 1 0, challenge := [] })).bbRecord 0x000B scope
    else (s.modMgmt (fun m => { m with authFails := m.authFails + 1, challenge := [] })).count 0 (ctrMgmt 8) 1

/-- DEBUG_AUTH. -/
def execDebugAuth (token : List Byte) (s : State) : Host.Outcome State Fault Refusal := .next (s.authToken token)

/-- The main rails are present. DEDUCED (log 43). -/
def State.mainRails (s : State) : Bool := s.rst.vaux && s.rst.pkgRun && s.rst.state != 4

/-! ### Registers of the module -/

/-- A register of the module that holds what was written. -/
def State.dm (s : State) (a : Nat) : Nat := mget 0 s.cores.dmi a

/-- Set a register of the module. -/
def State.setDm (s : State) (a v : Nat) : State :=
  { s with cores := { s.cores with dmi := mput 0 s.cores.dmi a v } }

/-- The module is unlocked. -/
def State.dmOpen (s : State) : Bool := bit s.mgmt.unlocked 0

/-- Keys under which the token's words and their count, and the acknowledgement of a hart's resumption, are held. -/
def dmToken : Nat := 0x100
def dmTokenCount : Nat := 0x200
def dmResumed : Nat := 0x400

/-- The hart that dmcontrol selects: hartselhi above hartsello. -/
def State.hartsel (s : State) : Nat := bits (s.dm 0x10) 15 6 * 1024 + bits (s.dm 0x10) 25 16

/-- A hart is in debug mode. -/
def State.hartHalted (s : State) (h : Nat) : Bool := s.cores.halts.any (fun x => x.source == h)

/-- A read of authdata: the next word of the challenge, of which one is issued where none is in force and eight tokens
have not failed. -/
def State.authRead (s : State) : State :=
  let s :=
    if s.mgmt.challenge.isEmpty && s.mgmt.authFails < 8 then
      let (c, s) := s.freeBytes 32
      ({ s with cores := { s.cores with authPos := 0 } } : State).modMgmt (fun m => { m with challenge := c })
    else s
  let w := field s.mgmt.challenge (4 * s.cores.authPos) 4
  ({ s with cores := { s.cores with authPos := (s.cores.authPos + 1) % 8 } } : State).emit (.debug w)

/-- A write of authdata: the next word of a token, of which the twenty-sixth completes it. -/
def State.authWrite (s : State) (v : Nat) : State :=
  let n := s.dm dmTokenCount
  let s := s.setDm (dmToken + n) v
  if n < 25 then s.setDm dmTokenCount (n + 1)
  else
    let token := (List.range 26).flatMap (fun i => natLe 4 (s.dm (dmToken + i)))
    (s.setDm dmTokenCount 0).authToken token

/-- dmstatus: version 3, authenticated, and the states of the selected hart. PRESUMED (log 33). -/
def State.dmstatus (s : State) : Nat :=
  let h := s.hartsel
  let there := h < 64
  let run := there && s.coresRun
  let two (b : Bool) (n : Nat) : Nat := b2n b * 3 * 2 ^ n
  if !s.dmOpen then 3
  else 3 + 2 ^ 7 + two (run && s.hartHalted h) 8 + two (run && !s.hartHalted h) 10 + two (there && !s.coresRun) 12
    + two (!there) 14 + two (s.dm (dmResumed + h) = 1) 16

/-- dmcontrol: hart selection, haltreq, resumereq and dmactive. With dmactive 0 the module resets. -/
def State.dmcontrol (s : State) (v : Nat) : State :=
  if !bit v 0 then { s with cores := { s.cores with dmi := s.cores.dmi.filter (fun kv => dmToken ≤ kv.1 && kv.1 ≤ dmTokenCount) } }
  else
    let s := s.setDm 0x10 (v / 64 % 2 ^ 20 * 64 + 1)
    let h := s.hartsel
    if 64 ≤ h then s
    else if bit v 31 then
      let (pc, s) := s.free
      (s.setDm (dmResumed + h) 0).debugHalt h pc 3
    else if bit v 30 && s.hartHalted h then (s.endHalts (fun x => x.source == h)).setDm (dmResumed + h) 1
    else s

/-! ### Abstract commands -/

/-- Read a core register. The time CSR shows Station Time bits 61 to 0 (Table 19.1), and mhartid the number of the hart (R687).
PRESUMED (log 33). -/
def State.hartRead (s : State) (h r : Nat) : Nat × State :=
  if r = 0x7B1 then (mget 0 s.cores.dpc h, s)
  else if r = 0xC01 then (s.time.now % 2 ^ 62, s)
  else if r = 0xF14 then (h, s)
  else if r = 0x7B0 then (0x40000003 + mget 0 s.cores.hartRegs (h * 2 ^ 32 + r), s)
  else if r = 0x1000 then (0, s)
  else
    match mget 0 s.cores.hartRegs (h * 2 ^ 32 + r) with
    | v + 1 => (v, s)
    | 0 =>
      let (v, s) := s.free
      (v, { s with cores := { s.cores with hartRegs := mput 0 s.cores.hartRegs (h * 2 ^ 32 + r) (v + 1) } })

/-- Write a core register. -/
def State.hartWrite (s : State) (h r v : Nat) : State :=
  let c := s.cores
  if r = 0x7B1 then { s with cores := { c with dpc := mput 0 c.dpc h v } }
  else if r = 0x1000 then s
  else
    let x := if r = 0x7B0 then bits v 15 9 * 512 + mget 0 c.hartRegs (h * 2 ^ 32 + r) % 512 else v + 1
    { s with cores := { c with hartRegs := mput 0 c.hartRegs (h * 2 ^ 32 + r) x } }

/-- Set cmderr. -/
def State.cmderr (s : State) (e : Nat) : State := s.setDm 0x16 e

/-- The transfer of an access-register command, and postincrement of regno. -/
def State.transfer (s : State) (h v : Nat) : State :=
  let r := v % 65536
  let size := bits v 22 20
  let s :=
    if !bit v 17 then s
    else if bit v 16 then
      let d := s.dm 0x04 + (if size = 3 then s.dm 0x05 * 2 ^ 32 else 0)
      if size = 3 then s.hartWrite h r d
      else
        let (old, s) := s.hartRead h r
        s.hartWrite h r (old / 2 ^ 32 * 2 ^ 32 + d)
    else
      let (x, s) := s.hartRead h r
      let s := s.setDm 0x04 (part x 0)
      if size = 3 then s.setDm 0x05 (part x 1) else s
  if bit v 19 then s.setDm 0x17 (v / 65536 * 65536 + (r + 1) % 65536) else s

/-- Running the program buffer: what a program leaves in the core's registers is not in the spec, so every register of the
hart but dcsr and dpc is open afterwards. PRESUMED (log 33). -/
def State.runBuffer (s : State) (h : Nat) : State :=
  { s with cores := { s.cores with hartRegs := s.cores.hartRegs.filter (fun kv => kv.1 / 2 ^ 32 != h || kv.1 % 2 ^ 32 == 0x7B0) } }

/-- A write of command. PRESUMED (log 33). -/
def State.command (s : State) (v : Nat) : State :=
  let h := s.hartsel
  let size := bits v 22 20
  if s.dm 0x16 ≠ 0 then s
  else
    let s := s.setDm 0x17 v
    if bits v 31 24 ≠ 0 then s.cmderr 2
    else if 64 ≤ h || !s.coresRun || !s.hartHalted h then s.cmderr 4
    else if bit v 17 && (0x1020 ≤ v % 65536 || (size ≠ 2 && size ≠ 3)) then s.cmderr 2
    else if bit v 17 && bit v 16 && 0xC00 ≤ v % 65536 && v % 65536 < 0x1000 then s.cmderr 3
    else
      let s := s.transfer h v
      if bit v 18 then s.runBuffer h else s

/-! ### System bus access -/

/-- First local address of BAR0's map for the control cores, and its size (R807). PRESUMED (log 33). -/
def mapBase : Nat := 0xF00000000000
def mapSize : Nat := 2 ^ 26

/-- What a read of a register changes (R15, R51, R498, R575). -/
def State.regSide (s : State) (off : Nat) : State :=
  if off = 0x1058 then s.freezeRead (s.stored regNodeSel 0 % 65536)
  else if off = 0x10038 then { s with host := { s.host with clampCount := 0 } }
  else if off = 0x20088 then { s with fab := { s.fab with nowHi := bits s.time.now 63 32 } }
  else s

/-- The stored bits of sbcs, held by their difference from the reset value, whose sbaccess is 2. PRESUMED (log 33). -/
def State.sbcs (s : State) : Nat := s.dm 0x38 ^^^ 2 ^ 18
/-- Set the stored bits of sbcs. -/
def State.setSbcs (s : State) (v : Nat) : State := s.setDm 0x38 (v ^^^ 2 ^ 18)

/-- Address and access size of the bus. -/
def State.sbAddr (s : State) : Nat := s.dm 0x39 + s.dm 0x3A * 2 ^ 32
def State.sbSize (s : State) : Nat := bits s.sbcs 19 17

/-- Set sberror. -/
def State.sberror (s : State) (e : Nat) : State :=
  let v := s.sbcs
  s.setSbcs (v - bits v 14 12 * 2 ^ 12 + e * 2 ^ 12)

/-- The error an access meets: 4 size, 3 alignment, 2 an address that nothing holds, 7 a register in part. -/
def State.sbFault (s : State) : Option Nat :=
  let a := s.sbAddr
  let n := 2 ^ s.sbSize
  if 3 < s.sbSize then some 4
  else if a % n ≠ 0 then some 3
  else if mapBase ≤ a && a < mapBase + mapSize then (if n < 4 then some 7 else none)
  else if oneRegion a n && !s.stackFenced a n then none
  else some 2

/-- After an access: the address moves on where sbautoincrement is set. -/
def State.sbNext (s : State) : State :=
  if bit s.sbcs 16 then
    let a := s.sbAddr + 2 ^ s.sbSize
    (s.setDm 0x39 (part a 0)).setDm 0x3A (part a 1)
  else s

/-- Read n bytes at a bus address. -/
def State.sbFetch (s : State) (a n : Nat) : Nat × State :=
  if mapBase ≤ a then
    let off := a - mapBase
    if n = 8 then (s.regView off + (s.regSide off).regView (off + 4) * 2 ^ 32, (s.regSide off).regSide (off + 4))
    else (s.regView off, s.regSide off)
  else (leNat (s.readLocal a n).1, (s.readLocal a n).2.2)

/-- What a bus read returned goes into sbdata. -/
def State.sbTake (n : Nat) (r : Nat × State) : State :=
  let s := r.2.setDm 0x3C (part r.1 0)
  (if n = 8 then s.setDm 0x3D (part r.1 1) else s).sbNext

/-- A bus read into sbdata. -/
def State.sbReadNow (s : State) : State :=
  match s.sbFault with
  | some e => s.sberror e
  | none => State.sbTake (2 ^ s.sbSize) (s.sbFetch s.sbAddr (2 ^ s.sbSize))

/-- Store bytes over the bus. A write to the accumulator window is part of a record and counts its clamps (R163, R165), which belong to
no descriptor, register or message: they count as a table's. DESIGN CHOICE (log 33). -/
def State.sbStore (s : State) (a : Nat) (bs : List Byte) : State :=
  let r := s.writeLocal a bs []
  r.2.2.clamp .table r.2.1

/-- A bus write of sbdata. -/
def State.sbWriteNow (s : State) : State :=
  match s.sbFault with
  | some e => s.sberror e
  | none =>
    let a := s.sbAddr
    let n := 2 ^ s.sbSize
    let v := s.dm 0x3C + s.dm 0x3D * 2 ^ 32
    let s :=
      if mapBase ≤ a then
        let off := a - mapBase
        s.onWrite (fun s =>
          let s := s.regWrite off (part v 0)
          if n = 8 then s.regWrite (off + 4) (part v 1) else s)
      else s.sbStore a (natLe n v)
    s.sbNext

/-- What the bus waits to do: 0 nothing, 1 a read, 2 a write; kept beside the registers, at an address that DMI does not have. -/
def State.sbPending (s : State) : Nat := s.dm 0x138

/-- The access at the bus address waits on its stack (R373, R377). -/
def State.sbWaits (s : State) : Bool := s.sbAddr < mapBase && s.sbFault.isNone && s.stackWaits s.sbAddr (2 ^ s.sbSize)

/-- A bus access goes on: it runs at once, or keeps sbbusy until its stack serves it. PRESUMED (log 33). -/
def State.sbGo (s : State) (what : Nat) : State :=
  if what = 0 then s
  else if s.sbWaits then s.setDm 0x138 what
  else if what = 1 then (s.setDm 0x138 0).sbReadNow
  else (s.setDm 0x138 0).sbWriteNow

/-- Start a bus read, or a bus write. -/
def State.sbRead (s : State) : State := s.sbGo 1
def State.sbWrite (s : State) : State := s.sbGo 2

/-- Bus accesses go on: sberror and sbbusyerror are clear. -/
def State.sbClear (s : State) : Bool := bits s.sbcs 14 12 = 0 && !bit s.sbcs 22

/-- A register of the bus is used while it is busy: sbbusyerror sets. -/
def State.sbBusyError (s : State) : State := s.setSbcs (s.sbcs - bits s.sbcs 22 22 * 2 ^ 22 + 2 ^ 22)

/-! ### DMI -/

/-- What a read of a register of the open module returns. PRESUMED (log 33). -/
def State.dmRead (s : State) (a : Nat) : Nat :=
  if a = 0x10 then s.dm 0x10
  else if a = 0x11 then s.dmstatus
  else if a = 0x16 then 8 * 2 ^ 24 + s.dm 0x16 * 256 + 2
  else if a = 0x38 then 2 ^ 29 + s.sbcs + b2n (s.sbPending ≠ 0) * 2 ^ 21 + 64 * 32 + 15
  else if a = 0x04 || a = 0x05 || (0x20 ≤ a && a < 0x28) || a = 0x39 || a = 0x3A || a = 0x3C || a = 0x3D then s.dm a
  else 0

/-- A write of a register of the open module. PRESUMED (log 33). -/
def State.dmWrite (s : State) (a v : Nat) : State :=
  if (a = 0x39 || a = 0x3A || a = 0x3C || a = 0x3D) && s.sbPending ≠ 0 then s.sbBusyError
  else if a = 0x10 then s.dmcontrol v
  else if a = 0x16 then s.setDm 0x16 (s.dm 0x16 - (s.dm 0x16 &&& bits v 10 8))
  else if a = 0x17 then s.command v
  else if a = 0x38 then
    let old := bits s.sbcs 14 12
    s.setSbcs (b2n (bit s.sbcs 22 && !bit v 22) * 2 ^ 22 + bits v 20 15 * 2 ^ 15 + (old - (old &&& bits v 14 12)) * 2 ^ 12)
  else if a = 0x39 then
    let s := s.setDm 0x39 v
    if bit s.sbcs 20 && s.sbClear then s.sbRead else s
  else if a = 0x3C then
    let s := s.setDm 0x3C v
    if s.sbClear then s.sbWrite else s
  else if a = 0x04 || a = 0x05 || (0x20 ≤ a && a < 0x28) || a = 0x3A || a = 0x3D then s.setDm a v
  else s

/-- DMI_ACCESS: `op` 1 reads, 2 writes. A locked module gives only dmstatus, dmactive and authdata. A bus access that waited goes on
first, where its stack serves it. -/
def State.dmiAccess (s : State) (op a v : Nat) : State :=
  let s := if s.mainRails then s.sbGo s.sbPending else s
  if !s.mainRails then s
  else if op = 1 then
    if a = 0x30 then s.authRead
    else if s.dmOpen then
      let t := s.emit (.debug (s.dmRead a))
      if (a = 0x3C || a = 0x3D) && s.sbPending ≠ 0 then t.sbBusyError
      else if a = 0x3C && bit s.sbcs 15 && s.sbClear then t.sbRead else t
    else s.emit (.debug (if a = 0x11 then s.dmstatus else if a = 0x10 then s.dm 0x10 % 2 else 0))
  else if op = 2 then
    if a = 0x30 then s.authWrite v
    else if s.dmOpen then s.dmWrite a v
    else if a = 0x10 then s.setDm 0x10 (v % 2)
    else s
  else s

/-- DMI_ACCESS. -/
def execDmiAccess (op address data : Nat) (s : State) : Host.Outcome State Fault Refusal :=
  .next (s.dmiAccess op address (data % 2 ^ 32))

/-! ### The test access port (R844 to R846, Table 24.8) -/

/-- IDCODE of stepping B0 (R845). -/
def idcode : Nat := 0x124009A7

/-- DTMCS: version 1, seven address bits. DEDUCED (log 34). -/
def dtmcs : Nat := 7 * 16 + 1

/-- TOL_STATUS: zero while the main rails are absent. -/
def State.tolStatus (s : State) : Nat := if s.mainRails then s.rstStatus * 2 ^ 32 + s.mgmtStatus else 0

/-- What boundary scan captures from the balls: an open value. DEDUCED (log 34). -/
def State.sampleBalls (s : State) : State :=
  let (v, s) := s.free
  s.emit (.debug v)

/-- An instruction of the TAP, by code; any other is BYPASS. `drive` is what is shifted into the boundary cells.
DEDUCED (log 34). -/
def State.tap (s : State) (ir drive : Nat) : State :=
  let known := [0x00, 0x01, 0x02, 0x03, 0x04, 0x05, 0x06, 0x10, 0x11, 0x18, 0x19].contains ir
  let s := { s with cores := { s.cores with tapIr := if known then ir else 0x1F } }
  let scan : State := { s with rst := { s.rst with boundary := drive } }
  match ir with
  | 0x01 => s.emit (.debug idcode)
  | 0x10 => s.emit (.debug dtmcs)
  | 0x11 => s
  | 0x18 => s.emit (.debug s.tolStatus)
  | 0x19 => s.emit (.debug Config.serial.toNat)
  | 0x02 => if s.rst.testMode then scan.sampleBalls else s.sampleBalls
  | 0x00 | 0x05 | 0x06 => if s.rst.testMode then (scan.emit (.balls ir drive)).sampleBalls else s.emit (.debug 0)
  | 0x03 => if s.rst.testMode then (s.emit (.balls ir s.rst.boundary)).emit (.debug 0) else s.emit (.debug 0)
  | 0x04 => if s.rst.testMode then (s.emit (.balls ir 0)).emit (.debug 0) else s.emit (.debug 0)
  | _ => s.emit (.debug 0)

/-- TAP_INSTRUCTION: the port lies in the VAUX domain (R842). -/
def execTapInstruction (ir drive : Nat) (s : State) : Host.Outcome State Fault Refusal :=
  .next (if s.rst.vaux then s.tap (ir % 32) drive else s)

end Sys2Proof.Machine
end

