-- ==== Sys2Proof/Machine/Dump.lean ====
section
/-! DEFINITION. The state dump (chapter 19: R710, R712 to R714): what each section holds, where it lies in the region, and the
copy to the host. -/

namespace Sys2Proof.Machine

/-! ### Sections (Table 19.8) -/

/-- Identifiers in the order of sections 2 and 3: those of the tree, then the spares. -/
def dumpIds : List Nat := rangeFrom 0 spanRoot ++ (List.range numGroups).map spareId

/-- Section 4: records of live values, then of latched values, each with its end record. -/
def State.dumpCounterBytes (s : State) : List Byte :=
  let one (vals : List (Nat × Nat)) : List Byte :=
    let r := s.dumpRecords vals
    r.flatten ++ dumpEnd false r.length
  one s.obs.live ++ one s.obs.latched

/-- Sections of the dump and their lengths. Sections 8 and 9 need their bit of DUMP_CTL and a debug token whose scope names
them (R766). DEDUCED (log 36). -/
def State.dumpSections (s : State) : List (Nat × Nat) :=
  let ctl := s.regs.eff regDumpCtl 0
  let open' := bit s.mgmt.unlocked 1
  [(1, 2 ^ 26), (2, 32 * dumpIds.length), (3, 1040 * dumpIds.length), (4, s.dumpCounterBytes.length), (5, 128 * 4096),
    (6, 64 * 136 * 1024), (7, 2 ^ 28)]
    ++ (if bit ctl 0 && open' then [(8, 4352 * 16384 * 16)] else []) ++ (if bit ctl 1 && open' then [(9, tierEnd)] else [])

/-- Place sections from an offset on, each on a 4 KiB boundary, as much of them as fits: kind, offset and bytes written of
each, and whether any is cut (R714). -/
def dumpLayout (room : Nat) : Nat → List (Nat × Nat) → List (Nat × Nat × Nat) × Bool
  | _, [] => ([], false)
  | off, (k, n) :: rest =>
    let at' := (off + 4095) / 4096 * 4096
    if room ≤ at' then ([], true)
    else if room < at' + n then ([(k, at', room - at')], true)
    else
      let (l, cut) := dumpLayout room (at' + n) rest
      ((k, at', n) :: l, cut)

/-- Bytes of a node's part of section 3: identifier, entry count, then its 64 entries, oldest first. -/
def State.dumpLog (s : State) (id : Nat) : List Byte :=
  let l := mget SigLog.reset s.obs.logs (s.unitOf id)
  slice (natLe 2 id ++ [0, 0] ++ natLe 4 l.count ++ List.replicate 8 0
    ++ l.entries.reverse.flatMap (fun e => natLe 8 e.1 ++ natLe 8 e.2)) 0 1040

/-- Bytes of a holding slot in section 5: descriptor, wait state, whose layout the spec leaves open, and record.
DEDUCED (log 36). -/
def State.dumpSlot (s : State) (k : Nat) : List Byte :=
  let wait := (List.range 48).map (fun i => Config.freeByte s.taken (128 * k + i))
  match s.slot k with
  | some sl => slice sl.desc 0 64 ++ wait ++ slice sl.record 0 16
  | none => List.replicate 64 0 ++ wait ++ List.replicate 16 0

/-- Bytes [32 i, 32 i + 32) of a section, and whether they are poisoned. Reads have no side effect (R713). -/
def State.dumpChunk (s : State) (kind i : Nat) : List Byte × Bool :=
  match kind with
  | 1 => ((List.range 8).flatMap (fun j => natLe 4 (s.regView (32 * i + 4 * j))), false)
  | 2 => (s.enumRecord ((dumpIds[i]?).getD 0), false)
  | 3 =>
    ((List.range 32).map (fun j =>
      let o := 32 * i + j
      (((s.dumpLog ((dumpIds[o / 1040]?).getD 0))[o % 1040]?).getD 0)), false)
  | 4 => (slice s.dumpCounterBytes (32 * i) 32, false)
  | 5 => (slice (s.dumpSlot (i / 4)) (i % 4 * 32) 32, false)
  | 8 =>
    let rec' (n : Nat) : List Byte × Bool :=
      let id := (physicalCells[n / 16384]?).getD 0
      let (b, p, _) := s.accReadRecord (accAddr id (n % 16384 / 32) (n % 32))
      (b, p)
    let (b0, p0) := rec' (2 * i)
    let (b1, p1) := rec' (2 * i + 1)
    (b0 ++ b1, p0 || p1)
  | 9 =>
    let (b, p, _) := s.memRead (32 * i) 32
    (b, anyP p)
  | _ => ((List.range 32).map (fun j => Config.freeByte s.taken (2 ^ 40 * kind + 32 * i + j)), false)

/-! ### Writing it -/

/-- The 4 KiB header (Table 19.7). -/
def State.dumpHeader (s : State) (cut : Bool) (dir : List (Nat × Nat × Nat)) : List Byte :=
  slice (natLe 4 0x50444743 ++ natLe 2 1 ++ natLe 1 s.cores.cause ++ natLe 1 (b2n cut + 2 * b2n s.cores.multiple)
    ++ natLe 8 s.cores.fatalStamp ++ natLe 8 Config.serial.toNat ++ natLe 2 s.chipId ++ natLe 2 dir.length ++ natLe 4 0
    ++ dir.flatMap (fun e => natLe 8 e.1 ++ natLe 8 e.2.1 ++ natLe 8 e.2.2 ++ natLe 8 0)) 0 4096

/-- Write a section into the region; what it holds is read from `was`, the state at the start. -/
def State.writeSection (was : State) (base : Nat) (s : State) (e : Nat × Nat × Nat) : State :=
  (List.range ((e.2.2 + 31) / 32)).foldl (fun s i =>
    let (b, p) := was.dumpChunk e.1 i
    (s.memWrite (base + e.2.1 + 32 * i) (b.take (min 32 (e.2.2 - 32 * i))) p).2) s

/-- Bytes of a dump: to the end of its last section. -/
def dumpSize (dir : List (Nat × Nat × Nat)) : Nat := dir.foldl (fun m e => max m (e.2.1 + e.2.2)) 4096

/-- Write the header and the sections of a directory, and post DUMP_DONE. -/
def State.writeDump (s : State) (dir : List (Nat × Nat × Nat)) (cut : Bool) : State :=
  let t := (s.memWrite s.dumpBase (s.dumpHeader cut dir) false).2
  let t := (dir.foldl (State.writeSection s s.dumpBase) t).free.2
  let mib := (dumpSize dir + 2 ^ 20 - 1) / 2 ^ 20
  ({ t with cores := { t.cores with dumpState := 2, truncated := cut, dumpMib := mib } } : State).event 0x0A04
    (mib % 2 ^ 24 + 2 ^ 24 * b2n cut) true

/-- Directory of the dump, and whether a section of it is cut. -/
def State.dumpDir (s : State) : List (Nat × Nat × Nat) × Bool := dumpLayout s.dumpRoom 4096 s.dumpSections

/-- The dump is written and DUMP_DONE posted, or it is abandoned where no core can write it or a stack of the region is FAILED (R710,
R712). Its writes wait on their stacks (R373, R377). -/
def State.dumpDone (s : State) : State :=
  if s.cores.dumpState ≠ 1 || !s.cores.fatal then s
  else if s.dumpBlocked || s.dumpWriter.isNone then { s with cores := { s.cores with dumpState := 3 } }
  else if s.stackWaits s.dumpBase s.dumpRoom then s
  else s.writeDump s.dumpDir.1 s.dumpDir.2

/-- DUMP_DONE. -/
def execDumpDone (s : State) : Host.Outcome State Fault Refusal := .next s.dumpDone

/-- Send sector i of a dump that stands in `was`, with its poison. -/
def State.copySector (was : State) (host : Nat) (s : State) (i : Nat) : State :=
  let r := was.memRead (was.dumpBase + 32 * i) 32
  s.emit (.hostWrite (host + 32 * i) r.1 (anyP r.2.1))

/-- Copy n sectors of the written dump to the host. -/
def State.copySectors (s : State) (n : Nat) : State :=
  (List.range n).foldl (s.copySector (bits (s.regs.eff regDumpHostLo 0) 31 12 * 4096 + s.regs.eff regDumpHostHi 0 * 2 ^ 32)) s

/-- HOST_DUMP_DONE is posted. -/
def State.tellHostDump (s : State) : State :=
  ({ s with cores := { s.cores with hostDone := true } } : State).event 0x0A05 (s.cores.dumpMib % 2 ^ 24) true

/-- The written dump is copied to the host and HOST_DUMP_DONE is posted. The copy's reads wait on their stacks (R373, R377), and a FAILED
stack never serves them. DESIGN CHOICE (log 36). -/
def State.hostDumpDone (s : State) : State :=
  if s.cores.dumpState ≠ 2 || s.dumpBlocked || s.stackWaits s.dumpBase (dumpSize s.dumpDir.1) || !s.cores.fatal || s.cores.hostDone ||
      s.d3hot || !bit (s.regs.eff regDumpCtl 0) 2 then s
  else (s.copySectors ((dumpSize s.dumpDir.1 + 31) / 32)).tellHostDump

/-- HOST_DUMP_DONE. -/
def execHostDumpDone (s : State) : Host.Outcome State Fault Refusal := .next s.hostDumpDone

end Sys2Proof.Machine
end

