-- ==== Sys2Proof/Machine/Dispatch.lean ====
section
/-! DEFINITION. Dispatch: one arm per command, each a direct call of its meaning. -/

namespace Sys2Proof.Machine

/-- The effect of a command on everything but the queue. -/
def exec (i : Instr) (s : State) : Host.Outcome State Fault Refusal :=
  match i with
  | .vauxPowerOn testMode flash selfTestFail training => Sys2Proof.Machine.execVauxPowerOn testMode flash selfTestFail training s
  | .mainPowerOn flash selfTestFail training => Sys2Proof.Machine.execMainPowerOn flash selfTestFail training s
  | .warmReset trigger squallFail => Sys2Proof.Machine.execWarmReset trigger squallFail s
  | .functionLevelReset squallFail => Sys2Proof.Machine.execFunctionLevelReset squallFail s
  | .rstCtlWarm value squallFail => Sys2Proof.Machine.execRstCtlWarm value squallFail s
  | .rstCtlPowerdown value => Sys2Proof.Machine.execRstCtlPowerdown value s
  | .powerdownLimitExpiry => Sys2Proof.Machine.execPowerdownLimitExpiry s
  | .suddenPowerLoss cause => Sys2Proof.Machine.execSuddenPowerLoss cause s
  | .thermtrip die sensor temp => Sys2Proof.Machine.execThermtrip die sensor temp s
  | .supplyHoldStart rail mv => Sys2Proof.Machine.execSupplyHoldStart rail mv s
  | .supplyHoldEnd rail mv => Sys2Proof.Machine.execSupplyHoldEnd rail mv s
  | .pwrAlert => Sys2Proof.Machine.execPwrAlert s
  | .pwrAlertReleaseTimer => Sys2Proof.Machine.execPwrAlertReleaseTimer s
  | .fastSafetyTick watts => Sys2Proof.Machine.execFastSafetyTick watts s
  | .slowSafetyJunctionTick die => Sys2Proof.Machine.execSlowSafetyJunctionTick die s
  | .coolantLoopTick => Sys2Proof.Machine.execCoolantLoopTick s
  | .policyCapTick => Sys2Proof.Machine.execPolicyCapTick s
  | .vopStep die => Sys2Proof.Machine.execVopStep die s
  | .junctionSensorRead temps0 temps1 => Sys2Proof.Machine.execJunctionSensorRead temps0 temps1 s
  | .coolantReport inlet outlet flow => Sys2Proof.Machine.execCoolantReport inlet outlet flow s
  | .coolantStateChange => Sys2Proof.Machine.execCoolantStateChange s
  | .pmbusRead rails => Sys2Proof.Machine.execPmbusRead rails s
  | .sqTail ring value => Sys2Proof.Machine.execSqTail ring value s
  | .cqHead ring value => Sys2Proof.Machine.execCqHead ring value s
  | .cqArm ring value => Sys2Proof.Machine.execCqArm ring value s
  | .submissionReadComplete ring index data error => Sys2Proof.Machine.execSubmissionReadComplete ring index data error s
  | .sqRefetchTimer ring => Sys2Proof.Machine.execSqRefetchTimer ring s
  | .descriptorAccept => Sys2Proof.Machine.execDescriptorAccept s
  | .descriptorDispatch slot => Sys2Proof.Machine.execDescriptorDispatch slot s
  | .completionRecordWrite ring => Sys2Proof.Machine.execCompletionRecordWrite ring s
  | .msixTimer ring => Sys2Proof.Machine.execMsixTimer ring s
  | .eventRecordWrite => Sys2Proof.Machine.execEventRecordWrite s
  | .bar4Read addr len => Sys2Proof.Machine.execBar4Read addr len s
  | .bar4Write addr data => Sys2Proof.Machine.execBar4Write addr data s
  | .matmul work => Sys2Proof.Machine.execMatmul work s
  | .loadw work => Sys2Proof.Machine.execLoadw work s
  | .drain slot => Sys2Proof.Machine.execDrain slot s
  | .freezeResume node => Sys2Proof.Machine.execFreezeResume node s
  | .stats slot => Sys2Proof.Machine.execStats slot s
  | .quant slot => Sys2Proof.Machine.execQuant slot s
  | .rotate slot => Sys2Proof.Machine.execRotate slot s
  | .vec slot => Sys2Proof.Machine.execVec slot s
  | .reduce slot => Sys2Proof.Machine.execReduce slot s
  | .check slot => Sys2Proof.Machine.execCheck slot s
  | .digest slot => Sys2Proof.Machine.execDigest slot s
  | .move slot host error => Sys2Proof.Machine.execMove slot host error s
  | .streamSend slot host error => Sys2Proof.Machine.execStreamSend slot host error s
  | .streamWait slot => Sys2Proof.Machine.execStreamWait slot s
  | .streamRelease slot => Sys2Proof.Machine.execStreamRelease slot s
  | .streamTimeout slot => Sys2Proof.Machine.execStreamTimeout slot s
  | .responseTimeout tag => Sys2Proof.Machine.execResponseTimeout tag s
  | .coll slot => Sys2Proof.Machine.execColl slot s
  | .collSegmentSend slot => Sys2Proof.Machine.execCollSegmentSend slot s
  | .collTimeout slot => Sys2Proof.Machine.execCollTimeout slot s
  | .counts slot => Sys2Proof.Machine.execCounts slot s
  | .barrier slot => Sys2Proof.Machine.execBarrier slot s
  | .barrierRelease slot => Sys2Proof.Machine.execBarrierRelease slot s
  | .update work => Sys2Proof.Machine.execUpdate work s
  | .nearvec work => Sys2Proof.Machine.execNearvec work s
  | .fence slot => Sys2Proof.Machine.execFence slot s
  | .scrub slot => Sys2Proof.Machine.execScrub slot s
  | .snapshot slot => Sys2Proof.Machine.execSnapshot slot s
  | .nop slot => Sys2Proof.Machine.execNop slot s
  | .step slot => Sys2Proof.Machine.execStep slot s
  | .blockCopyComplete => Sys2Proof.Machine.execBlockCopyComplete s
  | .copySealWait => Sys2Proof.Machine.execCopySealWait s
  | .imagePassComplete => Sys2Proof.Machine.execImagePassComplete s
  | .heldRelease slot => Sys2Proof.Machine.execHeldRelease slot s
  | .gridCompletion slot => Sys2Proof.Machine.execGridCompletion slot s
  | .stallLimitExpiry node => Sys2Proof.Machine.execStallLimitExpiry node s
  | .cadenceWindow counts => Sys2Proof.Machine.execCadenceWindow counts s
  | .tierWalkTick die => Sys2Proof.Machine.execTierWalkTick die s
  | .stackWalkTick stack => Sys2Proof.Machine.execStackWalkTick stack s
  | .stackRefresh work => Sys2Proof.Machine.execStackRefresh work s
  | .stackTempRead stack temp => Sys2Proof.Machine.execStackTempRead stack temp s
  | .regionConversionDone stack => Sys2Proof.Machine.execRegionConversionDone stack s
  | .testEntry stack lanes => Sys2Proof.Machine.execTestEntry stack lanes s
  | .marginStart stack => Sys2Proof.Machine.execMarginStart stack s
  | .marginTestDone stack errors => Sys2Proof.Machine.execMarginTestDone stack errors s
  | .dataFlit port bytes => Sys2Proof.Machine.execDataFlit port bytes s
  | .controlFlit port bytes => Sys2Proof.Machine.execControlFlit port bytes s
  | .idleFlit port bytes => Sys2Proof.Machine.execIdleFlit port bytes s
  | .controlFlitTimer port => Sys2Proof.Machine.execControlFlitTimer port s
  | .replayTimeout port => Sys2Proof.Machine.execReplayTimeout port s
  | .partnerDetected port chip partnerPort serial => Sys2Proof.Machine.execPartnerDetected port chip partnerPort serial s
  | .trainingStepDone step => Sys2Proof.Machine.execTrainingStepDone step s
  | .trainingStepTimeout port => Sys2Proof.Machine.execTrainingStepTimeout port s
  | .lockAchieved port => Sys2Proof.Machine.execLockAchieved port s
  | .lockSearchTimeout port => Sys2Proof.Machine.execLockSearchTimeout port s
  | .headerMismatch port => Sys2Proof.Machine.execHeaderMismatch port s
  | .retrainTimeout port => Sys2Proof.Machine.execRetrainTimeout port s
  | .portDisableTimeout port => Sys2Proof.Machine.execPortDisableTimeout port s
  | .messageForward port header payload poison => Sys2Proof.Machine.execMessageForward port header payload poison s
  | .write header payload poison => Sys2Proof.Machine.execWrite header payload poison s
  | .read header => Sys2Proof.Machine.execRead header s
  | .readData header payload poison => Sys2Proof.Machine.execReadData header payload poison s
  | .writeAck header => Sys2Proof.Machine.execWriteAck header s
  | .streamData header payload poison => Sys2Proof.Machine.execStreamData header payload poison s
  | .streamCredit header => Sys2Proof.Machine.execStreamCredit header s
  | .collReduce header payload poison => Sys2Proof.Machine.execCollReduce header payload poison s
  | .collGather header payload poison => Sys2Proof.Machine.execCollGather header payload poison s
  | .collAbort header payload => Sys2Proof.Machine.execCollAbort header payload s
  | .collBarrier header payload => Sys2Proof.Machine.execCollBarrier header payload s
  | .collCredit header payload => Sys2Proof.Machine.execCollCredit header payload s
  | .event header payload => Sys2Proof.Machine.execEvent header payload s
  | .unreachable header => Sys2Proof.Machine.execUnreachable header s
  | .doorbell header => Sys2Proof.Machine.execDoorbell header s
  | .routeSwitch => Sys2Proof.Machine.execRouteSwitch s
  | .unsetRootTimer => Sys2Proof.Machine.execUnsetRootTimer s
  | .timeRefPulse interval => Sys2Proof.Machine.execTimeRefPulse interval s
  | .timeRefLost => Sys2Proof.Machine.execTimeRefLost s
  | .recover => Sys2Proof.Machine.execRecover s
  | .rebuild => Sys2Proof.Machine.execRebuild s
  | .adopt => Sys2Proof.Machine.execAdopt s
  | .resume => Sys2Proof.Machine.execResume s
  | .hold => Sys2Proof.Machine.execHold s
  | .debugHalt hart pc cause => Sys2Proof.Machine.execDebugHalt hart pc cause s
  | .dbgCtlHalt => Sys2Proof.Machine.execDbgCtlHalt s
  | .haltDrainComplete => Sys2Proof.Machine.execHaltDrainComplete s
  | .drainLimitExpiry => Sys2Proof.Machine.execDrainLimitExpiry s
  | .hartResume hart => Sys2Proof.Machine.execHartResume hart s
  | .dbgCtlResume => Sys2Proof.Machine.execDbgCtlResume s
  | .dbgCtlForceFatal => Sys2Proof.Machine.execDbgCtlForceFatal s
  | .coreTrap hart => Sys2Proof.Machine.execCoreTrap hart s
  | .watchdog hart => Sys2Proof.Machine.execWatchdog hart s
  | .queueUe => Sys2Proof.Machine.execQueueUe s
  | .coupling => Sys2Proof.Machine.execCoupling s
  | .dumpDone => Sys2Proof.Machine.execDumpDone s
  | .hostDumpDone => Sys2Proof.Machine.execHostDumpDone s
  | .debugAuth token => Sys2Proof.Machine.execDebugAuth token s
  | .ctrCmdLatch => Sys2Proof.Machine.execCtrCmdLatch s
  | .censusNow => Sys2Proof.Machine.execCensusNow s
  | .censusUnfence node => Sys2Proof.Machine.execCensusUnfence node s
  | .stormHaltClear => Sys2Proof.Machine.execStormHaltClear s
  | .logClearUe block => Sys2Proof.Machine.execLogClearUe block s
  | .logClearCe block => Sys2Proof.Machine.execLogClearCe block s
  | .rangeClear stack => Sys2Proof.Machine.execRangeClear stack s
  | .ctxCmdWrite => Sys2Proof.Machine.execCtxCmdWrite s
  | .ctxCmdRead => Sys2Proof.Machine.execCtxCmdRead s
  | .enumSel value => Sys2Proof.Machine.execEnumSel value s
  | .logSel block value => Sys2Proof.Machine.execLogSel block value s
  | .sigSel value => Sys2Proof.Machine.execSigSel value s
  | .ctrSel value => Sys2Proof.Machine.execCtrSel value s
  | .rangeSel stack value => Sys2Proof.Machine.execRangeSel stack value s
  | .railSel value => Sys2Proof.Machine.execRailSel value s
  | .coreSel value => Sys2Proof.Machine.execCoreSel value s
  | .mnodeSel value => Sys2Proof.Machine.execMnodeSel value s
  | .bbSel value => Sys2Proof.Machine.execBbSel value s
  | .timeNowLoRead => Sys2Proof.Machine.execTimeNowLoRead s
  | .freezeCountRead => Sys2Proof.Machine.execFreezeCountRead s
  | .clampCountRead => Sys2Proof.Machine.execClampCountRead s
  | .unitTreeCommit => Sys2Proof.Machine.execUnitTreeCommit s
  | .aecCommit => Sys2Proof.Machine.execAecCommit s
  | .tfCommit => Sys2Proof.Machine.execTfCommit s
  | .rsCommit => Sys2Proof.Machine.execRsCommit s
  | .obsCommit => Sys2Proof.Machine.execObsCommit s
  | .pwrCommit => Sys2Proof.Machine.execPwrCommit s
  | .rstCommit => Sys2Proof.Machine.execRstCommit s
  | .hostCommit => Sys2Proof.Machine.execHostCommit s
  | .fabCommit => Sys2Proof.Machine.execFabCommit s
  | .tmCommit die => Sys2Proof.Machine.execTmCommit die s
  | .stkCommit stack => Sys2Proof.Machine.execStkCommit stack s
  | .commitPoint block => Sys2Proof.Machine.execCommitPoint block s
  | .registerWrite offset value enables => Sys2Proof.Machine.execRegisterWrite offset value enables s
  | .setEndpointId eid => Sys2Proof.Machine.execSetEndpointId eid s
  | .getEndpointId => Sys2Proof.Machine.execGetEndpointId s
  | .getEndpointUuid => Sys2Proof.Machine.execGetEndpointUuid s
  | .getMctpVersionSupport msgType => Sys2Proof.Machine.execGetMctpVersionSupport msgType s
  | .getMessageTypeSupport => Sys2Proof.Machine.execGetMessageTypeSupport s
  | .getVendorDefinedMsgSupport selector => Sys2Proof.Machine.execGetVendorDefinedMsgSupport selector s
  | .getSensorReading sensor => Sys2Proof.Machine.execGetSensorReading sensor s
  | .getStateSensorReadings sensor => Sys2Proof.Machine.execGetStateSensorReadings sensor s
  | .setNumericEffecterValue effecter value => Sys2Proof.Machine.execSetNumericEffecterValue effecter value s
  | .getNumericEffecterValue effecter => Sys2Proof.Machine.execGetNumericEffecterValue effecter s
  | .getPdr handle => Sys2Proof.Machine.execGetPdr handle s
  | .setEventReceiver eid enable => Sys2Proof.Machine.execSetEventReceiver eid enable s
  | .pldmFirmwareUpdate component version svn image good => Sys2Proof.Machine.execPldmFirmwareUpdate component version svn image good s
  | .activateFirmware warm => Sys2Proof.Machine.execActivateFirmware warm s
  | .getVersion => Sys2Proof.Machine.execGetVersion s
  | .getCapabilities => Sys2Proof.Machine.execGetCapabilities s
  | .negotiateAlgorithms asym hash => Sys2Proof.Machine.execNegotiateAlgorithms asym hash s
  | .getDigests => Sys2Proof.Machine.execGetDigests s
  | .getCertificate slot offset len => Sys2Proof.Machine.execGetCertificate slot offset len s
  | .challenge slot nonce => Sys2Proof.Machine.execChallenge slot nonce s
  | .getMeasurements operation sign nonce => Sys2Proof.Machine.execGetMeasurements operation sign nonce s
  | .readBlackbox start count => Sys2Proof.Machine.execReadBlackbox start count s
  | .readLastgasp => Sys2Proof.Machine.execReadLastgasp s
  | .getDomain node => Sys2Proof.Machine.execGetDomain node s
  | .setDomain node mv unfence => Sys2Proof.Machine.execSetDomain node mv unfence s
  | .requestFatal word => Sys2Proof.Machine.execRequestFatal word s
  | .getBoot => Sys2Proof.Machine.execGetBoot s
  | .blackboxRecordWrite good => Sys2Proof.Machine.execBlackboxRecordWrite good s
  | .plannedCompletion slot => Sys2Proof.Machine.execPlannedCompletion slot s
  | .fatalDrainLimitExpiry => Sys2Proof.Machine.execFatalDrainLimitExpiry s
  | .powerdownReadyTimeout => Sys2Proof.Machine.execPowerdownReadyTimeout s
  | .dmiAccess op address data => Sys2Proof.Machine.execDmiAccess op address data s
  | .tapInstruction ir drive => Sys2Proof.Machine.execTapInstruction ir drive s
  | .configurationRequest write register value => Sys2Proof.Machine.execConfigurationRequest write register value s
  | .dynamicAddressAssignment address => Sys2Proof.Machine.execDynamicAddressAssignment address s
  | .unsupportedCommand msgType command => Sys2Proof.Machine.execUnsupportedCommand msgType command s

end Sys2Proof.Machine
end

