-- ==== Sys2Proof/Machine/Tick.lean ====
section
/-! DEFINITION. One local beat: what happens in the package while no command arrives (R490, R494 and the counters of beats of
Tables 11.10, 13.19, 14.9, 15.10, 18.11 and 20.11). -/

namespace Sys2Proof.Machine

/-! ### Station Time (R490, R494) -/

/-- Beats by which a slew changes the count once: ±100 ppm. -/
def slewPeriod : Nat := 10000

/-- A slew of a beat toward an offset of 0: what is left of it, and the quality once it is within 2 ns (R490, Table 13.14). -/
def TimeState.slewed (t : TimeState) (left : Int) : TimeState :=
  if left.natAbs ≤ 512 then { t with slew := 0, slewPhase := 0, quality := t.aim } else { t with slew := left, slewPhase := 0 }

/-- One beat of the clock. Local beats advance by one. Station Time advances by one while it is set; while a slew runs, one
beat in 10 000 is left out when the package is ahead, and counted twice when it is behind. -/
def TimeState.beat (t : TimeState) : TimeState :=
  let t := { t with beats := t.beats + 1 }
  match t.quality with
  | .unset => t
  | .referenced | .fabric | .holdover =>
    if t.slew = 0 then { t with now := (t.now + 1) % 2 ^ 64 }
    else if t.slewPhase + 1 < slewPeriod then { t with now := (t.now + 1) % 2 ^ 64, slewPhase := t.slewPhase + 1 }
    else if 0 < t.slew then t.slewed (t.slew - 256)
    else ({ t with now := (t.now + 2) % 2 ^ 64 } : TimeState).slewed (t.slew + 256)

/-! ### What counts beats -/

/-- An entry is ready and no holding slot is free. -/
def State.slotWaits (s : State) : Bool := s.occupied == 4096 && (List.range 256).any s.entryReady

/-- A completion record or an event waits for room in its ring. DESIGN CHOICE (log 2). -/
def State.recordWaits (s : State) : Bool :=
  (!s.host.events.isEmpty && !s.cqHasRoom 0)
    || s.host.slots.any (fun kv => match kv.2 with
      | some sl => sl.phase == .done && !sl.quiet && !s.cqHasRoom (s.cqOf sl.ring)
      | none => false)

/-- A segment that is ready waits for credit. -/
def State.creditWaits (s : State) : Bool :=
  s.coll.active.any (fun c => c.ready.any (fun r => c.credit (2 * r.order + r.dir) == 0))

/-- An image pass holds a descriptor (R656). -/
def State.imageWaits (s : State) : Bool :=
  (s.res.imaging || s.res.due) && s.host.slots.any (fun kv => match kv.2 with
    | some sl => sl.phase == .waiting && s.imageHolds sl
    | none => false)

/-- The package root's counters of beats, each with whether this beat counts. -/
def State.beatCounters (s : State) : List (Nat × Bool) :=
  let p := s.pwr
  [(ctrPwr 0, decide (0 < p.tFast)),
    (ctrPwr 1, [0, 1].any (fun d => decide (ofDie p.uJunction d < vMax) || decide (0 < ofDie p.tSlow d))),
    (ctrPwr 2, decide (p.uCool < vMax) || decide (0 < p.tCool)),
    (ctrPwr 3, decide (p.uCap < vMax) || decide (0 < p.tCap)),
    (ctrPwr 4, s.relHolds 0 || s.relHolds 1),
    (ctrPwr 10, !p.holds.isEmpty),
    (ctrId 15 10 3, s.slotWaits), (ctrId 15 10 4, s.recordWaits), (ctrId 14 9 2, s.creditWaits),
    (ctrId 18 11 2, s.imageWaits)]

/-- Flit periods of 0.752 94 ns (64/85 of a beat, Table 13.1) that end in local beat b. DEDUCED (log 50). -/
def flitPeriods (b : Nat) : Nat := (b + 1) * 85 / 64 - b * 85 / 64

/-- Flit periods of this beat in which a message of a port waits for credit (CREDIT_STALLS, R499). -/
def State.countStalls (s : State) : State :=
  (List.range 12).foldl (fun t p =>
    t.count (portDie p) (fabCtr 9) (if (s.portAt p).stalls then flitPeriods s.time.beats else 0)) s

/-- One beat counted in every counter of beats whose condition holds now. DESIGN CHOICE (log 2). -/
def State.countBeat (s : State) : State :=
  let t := s.beatCounters.foldl (fun t c => t.count 0 c.1 (b2n c.2)) s.countStalls
  (List.range 8).foldl (fun t k => t.count (stackNode k) (ctrId 11 10 10) (b2n (decide (2 ≤ (s.stack k).throttle)))) t

/-- One local beat. Nothing happens while the main rails are absent, and timeouts do not advance while they are paused
(R697); messages that wait for nothing any more are acted on. DESIGN CHOICE (log 2). -/
def State.tick (s : State) : State :=
  if s.mainRails then
    let s := s.takeWaiting.countBeat
    ({ s with time := { s.time.beat with timer := s.time.timer + b2n (!s.timersPaused) } } : State).tellQuality s
  else s

end Sys2Proof.Machine
end

