-- ==== Sys2Proof/Safety.lean ====
section
/-! DEFINITION. What counts as a safe run: the canonical form of memory, what a step never takes back, and the outcome of a
step. Claims are stated in these terms. -/

namespace Sys2Proof.Machine

/-- Memory is in canonical form: addresses strictly rising, no byte listed that an unlisted address reads as, and the same of
the check-bit differences of granules and sectors. -/
def Memory.wf (m : MemState) : Bool := mwf 0 m.cells && mwf 0 m.marks

/-- The invariant that every step keeps. -/
def State.Inv (s : State) : Prop := Memory.wf s.mem = true

/-- The registers that a write to memory itself may change: those that arm a flip mask or an injection (R353, R393). -/
def flipRegs : List Nat := [regFlipCtl 0, regFlipCtl 1] ++ (List.range 8).map regInjCtl

/-- Two register files agree but for those registers. -/
def RegFile.agree (a b : RegFile) : Prop :=
  b.captures = a.captures ∧ ∀ off inst, off ∉ flipRegs → inst < 65536 → b.get off inst = a.get off inst

/-- From a to b nothing but one register has changed. -/
def RegFile.only (a b : RegFile) (off inst : Nat) : Prop :=
  b.captures = a.captures ∧ ∀ o i, i < 65536 → (o, i) ≠ (off, inst) → b.get o i = a.get o i

/-- From a to b one unshadowed register has taken the bits of `mask` from v, and nothing else has changed. -/
def RegFile.stores (a b : RegFile) (off inst : Nat) (v mask : Word32) : Prop :=
  a.only b off inst ∧
    b.get off inst = ⟨mergeBits (a.get off inst).shadow v mask, mergeBits (a.get off inst).eff v mask⟩

/-- What a captured field makes of a register's effective value: the shadowed bits take the shadow (R813). -/
def RegFile.due (a : RegFile) (off inst : Nat) : Nat :=
  match regRow off with
  | some r => (mergeBits (a.get off inst).eff (a.get off inst).shadow (BitVec.ofNat 32 r.sh)).toNat
  | none => a.eff off inst

/-- From a to b the shadows of a block have become effective together: shadows are as they were but for the registers `acted`,
every register of the block holds what its shadow gives but for the registers `judged`, and no other register has changed. -/
def RegFile.committed (a b : RegFile) (block : Nat) (judged acted : List Nat) : Prop :=
  b.captures = a.captures ∧ ∀ off inst, inst < 65536 →
    (off ∉ acted → b.shadow off inst = a.shadow off inst) ∧
    (blockOf off = some block → off ∉ judged → b.eff off inst = a.due off inst) ∧
    (blockOf off ≠ some block → b.eff off inst = a.eff off inst)

/-- A block whose COMMIT has nothing of an earlier one to wait for. -/
def State.noneWaits (s : State) (block : Nat) : Prop := ∀ c ∈ s.regs.captures, c.block ≠ block

/-- s with the reports of t: what has been sent, the live counters and signal logs, the event buffer and the record of clamps.
A statement `t = X.reported t` says that t is X in everything that is no report. -/
def State.reported (s t : State) : State :=
  { s with
    out := t.out
    obs := { s.obs with live := t.obs.live, logs := t.obs.logs }
    host := { s.host with
      events := t.host.events, evtLost := t.host.evtLost, lostNext := t.host.lostNext, clampCount := t.host.clampCount,
      clampLastLo := t.host.clampLastLo, clampLastHi := t.host.clampLastHi } }

/-- The history of cell u says that it is retired. -/
def State.retiredCell (s : State) (u : Nat) : Bool := (mget History.reset s.tree.history u).retired

/-- What no command takes back: what has been sent, the OTP security version and revoked keys (R764), the retirement of a
cell (R46, R268), and the count of open values taken. -/
structure Kept (s t : State) : Prop where
  /-- Outputs are only added. -/
  out : s.out <+: t.out
  taken : s.taken ≤ t.taken
  svn : s.mgmt.svn ≤ t.mgmt.svn
  revoked : ∀ k, s.mgmt.revoked.testBit k = true → t.mgmt.revoked.testBit k = true
  retired : ∀ u, s.retiredCell u = true → t.retiredCell u = true

/-- t comes from s by work in slot k: the slot is as it was or holds a completion record of its descriptor. -/
structure Works (k : Nat) (s t : State) : Prop where
  regs : s.regs.agree t.regs
  /-- Time, stacks, fabric, collectives, cores, power, management, resets and the queue. -/
  same : t.pending = s.pending ∧ t.time = s.time ∧ t.stk = s.stk ∧ t.fab = s.fab ∧ t.coll = s.coll ∧
    t.cores = s.cores ∧ t.pwr = s.pwr ∧ t.mgmt = s.mgmt ∧ t.rst = s.rst
  /-- Rings and interrupts. -/
  rings : t.host.sq = s.host.sq ∧ t.host.cq = s.host.cq ∧ t.host.msix = s.host.msix ∧ t.host.lastServed = s.host.lastServed
  /-- Other slots. -/
  others : ∀ j, j ≠ k → t.slot j = s.slot j
  /-- The slot itself. -/
  own : t.slot k = s.slot k ∨ ∃ sl sl' st node value, s.slot k = some sl ∧ t.slot k = some sl' ∧ sl'.phase = .done ∧
    sl'.desc = sl.desc ∧ sl'.record = completionRecord sl.desc st node value s.stamp

/-- In t the slot k, which held sl, holds the completion record of its descriptor with a status, node and value. -/
def State.ended (s t : State) (k : Nat) (sl : Slot) (st : Status) (node value : Nat) : Prop :=
  ∃ sl', t.slot k = some sl' ∧ sl'.phase = .done ∧ sl'.desc = sl.desc ∧
    sl'.record = completionRecord sl.desc st node value s.stamp

/-- Slot k runs a descriptor that its node may work on: nothing has stopped the nodes, memory does not hold, no descriptor dispatched
before it must run first, and no halted node holds pieces of it. -/
def State.works (s : State) (k : Nat) (sl : Slot) : Prop :=
  s.slot k = some sl ∧ sl.phase = .running ∧ s.nodesStopped = false ∧ s.memHeld = false ∧ s.waitsTurn k sl = false ∧
    s.piecesHeld sl = false

/-- Nothing makes an access to stack j wait. -/
def State.stackGoes (s : State) (j : Nat) : Bool :=
  let k := s.stack j
  k.mode != .training && !s.stackHeld j && k.throttle != 3 && !k.enteringTest && k.converting.isEmpty

/-- The ranges that an UPDATE names lie open in the stack that its target serves (R399, R400, R422). -/
def State.updateLegal (s : State) (sl : Slot) : Bool :=
  let a0 := addr48 sl.desc 8 / 32 * 32
  let k := stackOf a0
  let r := s.memRead a0 128
  let a := (readUpdate sl.desc r.1).1
  let prog := if a.rule = 3 then (r.2.2.memRead a.prog 288).1 else []
  inStack a0 128 && s.aimsAt (targetOf sl.desc) k && (s.ueBar k [(a0, 128)]).isNone &&
    (a.rule ≠ 3 || (s.ueBar k [(a.prog, 288)]).isNone) && (s.ueBar k (updRunOf sl r.1 prog).ranges).isNone

/-- The ranges that a NEARVEC names lie open in the stack that its target serves (R399, R400, R422). -/
def State.nearLegal (s : State) (sl : Slot) : Bool :=
  let a := (readNear sl.desc).1
  let main := if a.op = 3 then a.dst else a.a
  inStack main 1 && s.aimsAt (targetOf sl.desc) (stackOf main) && (s.ueBar (stackOf main) a.ranges).isNone

/-- The ranges that a VEC names lie in memory that vector engines reach (R276). -/
def State.vecLegal (s : State) (sl : Slot) : Bool :=
  let d := sl.desc
  let ext := sl.ext
  match (readVecOp (field d 32 1)).1 with
  | 0x15 =>
    let a := (readDequant d ext).1
    (match a.map with | some m => inVe m ((a.rows + 127) / 128 * ((a.cols + 127) / 128)) | none => true) &&
      a.rangesOk (s.dequantFmts a).1
  | 0x16 =>
    let nc := (min (field ext 16 4) (2 ^ 20) + 127) / 128
    let rows := field d 40 4 % 2 ^ 20 + 1
    let cols := field d 44 4 % 2 ^ 20 + 1
    inVe (addr48 d 8) (8 * rows) && inVe (addr48 d 14) (8 * cols) && inVe (addr48 d 20) (4 * rows * nc) &&
      inVe (addr48 ext 48) (4 * cols * nc) && rowsIn inVe (addr48 d 26) (16 * cols) (field ext 12 4) rows
  | _ =>
    let v := (readVec d ext).1
    v.a.ok v.rows v.cols && v.b.ok v.rows v.cols && v.c.ok v.rows v.cols &&
      rowsIn inVe v.dst (v.cols * wideBytes v.out) v.dstStride v.rows

/-- The ranges that a descriptor of a cell, an engine or the memory check names lie where the spec lets it reach: it is not ABORTED for
them (R276, R399, R422, R587). A LOADW of one cell names no map, a DRAIN is not chained, a SCRUB lies in no stack. -/
def State.rangesLegal (s : State) (p : Place) (sl : Slot) : Bool :=
  let d := sl.desc
  match opcodeOf d with
  | 0x01 => s.matRangesOk (s.readMatmul p (targetOf d) d sl.barred).1
  | 0x02 => s.loadRangesOk (s.readLoadw p d).1 && !(p.isCell && (s.readLoadw p d).1.w.mapEn)
  | 0x03 => sl.chain = [] && (readDrain p d sl.ext none sl.barred).1.rangesOk p
  | 0x04 => (readStats d).1.rangesOk
  | 0x05 =>
    let a := (readQuant d sl.ext).1
    (match a.mapIn with | some m => inVe m (a.nr * a.nc) | none => true) && a.rangesOk (s.quantBlocks a).1
  | 0x06 =>
    let rows := field d 32 4 % 2 ^ 20 + 1
    let cols := field d 36 4 % 2 ^ 20 + 1
    rowsIn inVe (addr48 d 8) (cols * wideBytes (readSrcFmt (field d 28 1 % 16)).1) (field d 14 4) rows &&
      rowsIn inVe (addr48 d 18) (cols * wideBytes (readWideOut (field d 29 1 % 16)).1) (field d 24 4) rows
  | 0x10 => s.vecLegal sl
  | 0x11 => (readReduce d sl.ext).1.rangesOk
  | 0x40 => s.updateLegal sl
  | 0x41 => s.nearLegal sl
  | 0x60 => (field d 18 4 = 0 || rowsIn inVe (addr48 d 8) (field d 18 4) (field d 14 4) (field d 22 4 % 2 ^ 20 + 1)) &&
      inVe (addr48 d 26 / 8 * 8) 8
  | 0x61 =>
    let c := (readCheck d sl.ext).1
    s.layerCount ≤ c.entry || (c.rangesOk && inTier (s.layerEntry c.entry) 32)
  | 0x70 =>
    let base := addr48 d 8 / 16 * 16
    !inStack base 16 && (field d 20 4 = 0 || (inAny base 16 && inAny base (16 * field d 20 4))) &&
      (!bit (field d 24 1) 1 || inTier (addr48 d 14 / 32 * 32) 32)
  | _ => false

/-- A collective's tables and buffers lie in tier memory and name this chip once, its COLL_ID is free and no ABORT is kept for it, and
no byte is marked (R504, R510, R526, R528, R534). A COLL has no counts table. -/
def State.collLegal (s : State) (sl : Slot) : Bool :=
  let d := sl.desc
  match s.readGroup (addr48 d 8 / 16 * 16) with
  | none => false
  | some (orders, _) =>
    let n := ((orders[0]?).getD []).length
    s.mem.marks = [] && inTier (addr48 d 26 / 32 * 32) (32 + 4 * n) && (s.inst (field d 44 2)).isNone &&
      s.coll.aborts.all (fun a => a.1 != field d 44 2) &&
      (match opcodeOf d with
       | 0x30 => !bit (field d 38 1) 7 && orders.all s.onceIn && inTier (addr48 d 14) (field d 46 5 * 16) &&
           inTier (addr48 d 20) (field d 46 5 * 16)
       | 0x31 => s.onceIn ((orders[0]?).getD []) && inTier (addr48 d 32 / 8 * 8) (8 * n)
       | _ => s.onceIn ((orders[0]?).getD []))

/-- Every other member of a collective's group has an egress in the bank of the active epoch. -/
def State.membersReachable (s : State) (sl : Slot) : Prop :=
  ∀ orders c, s.readGroup (addr48 sl.desc 8 / 16 * 16) = some (orders, c) →
    ∀ m : Msg, m.dst ∈ orders.flatten → bit (field m.header 1 1) 0 = bit s.fab.epoch 0 → m.dst = s.chipId ∨ (s.egress m).isSome = true

/-- t comes from s by work in slot k that may also send messages: the slot still holds its descriptor, in the same phase or
with its completion record. Fabric and collectives may have changed. -/
structure Moves (k : Nat) (s t : State) : Prop where
  regs : s.regs.agree t.regs
  /-- Time, stacks, cores, power, management, the queue, and resets but for the errors that AER logs. -/
  same : t.pending = s.pending ∧ t.time = s.time ∧ t.stk = s.stk ∧ t.cores = s.cores ∧ t.pwr = s.pwr ∧ t.mgmt = s.mgmt ∧
    t.rst = { s.rst with config := t.rst.config }
  /-- Rings and interrupts. -/
  rings : t.host.sq = s.host.sq ∧ t.host.cq = s.host.cq ∧ t.host.msix = s.host.msix ∧ t.host.lastServed = s.host.lastServed
  /-- Other slots. -/
  others : ∀ j, j ≠ k → t.slot j = s.slot j
  /-- The slot itself. -/
  own : t.slot k = s.slot k ∨ ∃ sl sl', s.slot k = some sl ∧ t.slot k = some sl' ∧ sl'.desc = sl.desc ∧ sl'.ring = sl.ring ∧
    sl'.index = sl.index ∧ sl'.seq = sl.seq ∧ (sl'.phase = sl.phase ∨ sl'.phase = .done ∧ ∃ st node value,
      sl'.record = completionRecord sl.desc st node value s.stamp)

/-- A message of a type has arrived for this package, which is powered and takes it: no FATAL state, no reset, no stack that
makes it wait, none of its class and source that waits before it, and no STEP that it could move on. -/
def State.hears (s : State) (m : Msg) (type : Nat) : Prop :=
  s.powered = true ∧ s.cores.fatal = false ∧ s.rst.state ≠ 1 ∧ s.tf.run = none ∧ s.messageWaits m = false ∧
    (∀ x ∈ s.fab.arrived, ¬ (msgClass x = msgClass m ∧ x.src = m.src)) ∧ m.header.length = 16 ∧ m.type = type ∧ m.dst = s.chipId

/-- A request of slot k stands under a TAG: a READ or a WRITE. -/
def State.asks (s : State) (tag k : Nat) (r : Request) : Prop := s.req tag = some r ∧ r.asker = .slot k

/-- Slot k has no other request than the one with this TAG. -/
def State.lastAsk (s : State) (k tag : Nat) : Prop := ∀ x ∈ s.slotReqs k, x = tag

/-- A request of slot k that fails ends the slot's descriptor at once: a SNAPSHOT, one aimed at a mover, or one that waits for nothing
else (R38, R41, R473). -/
def State.failsAtOnce (s : State) (k tag : Nat) (sl : Slot) : Prop :=
  opcodeOf sl.desc = 0x71 ∨ (∃ d q c m, s.placeOf (targetOf sl.desc) = some (.mover d q c m)) ∨
    (s.lastAsk k tag ∧ sl.unread = [])

/-- t is s but for its ports, what follows from the set of those in UP (ISLAND, the root that is chosen, the quality of time and the slew
toward it), and reports. -/
def State.portsOnly (s t : State) : Prop :=
  t = ({ s with
    fab := { s.fab with
      ports := t.fab.ports, island := t.fab.island, upPort := t.fab.upPort, hops := t.fab.hops, root := t.fab.root }
    time := { s.time with quality := t.time.quality, slew := t.time.slew, slewPhase := t.time.slewPhase, aim := t.time.aim } } : State).reported t

/-- From s to t every port but p is as it was, but for the credits that it has returned. -/
def State.otherPorts (s : State) (p : Nat) (t : State) : Prop :=
  ∀ r, r ≠ p → t.portAt r = { s.portAt r with returned := (t.portAt r).returned }

/-- Bytes can be stored at `a` without a side effect: whole granules of tier memory, no flip armed, and no seal to make
invalid. -/
def State.plainTier (s : State) (a n : Nat) : Prop :=
  inTier a n = true ∧ a % 16 = 0 ∧ n % 16 = 0 ∧ s.res.liveValid = false ∧
    bit (s.regs.eff (regFlipCtl 0) 0) 16 = false ∧ bit (s.regs.eff (regFlipCtl 1) 0) 16 = false

/-- From s to t the bytes bs have been stored at `a`, fresh and unpoisoned, and every other byte reads as before. -/
def State.storedAt (s t : State) (a : Nat) (bs : List Byte) : Prop :=
  (∀ x, t.byte x = if a ≤ x ∧ x < a + bs.length then (bs[x - a]?).getD 0 else s.byte x) ∧
    ∀ g, a ≤ g → g < a + bs.length → g % 16 = 0 → mget 0 t.mem.marks g = 0

/-- t is s with the power state p, but for what the loops' precedence decides afterwards (R740, R743): withheld margining
steps and the last LIMITER report. -/
def State.judged (s : State) (p : PwrState) (t : State) : Prop :=
  t = ({ s with pwr := { p with withheld := t.pwr.withheld, lastSet := t.pwr.lastSet, lastEvent := t.pwr.lastEvent } }
    : State).reported t

end Sys2Proof.Machine
end

