-- ==== Sys2Proof/Certificates/Slice0/Obligations.lean ====
section
/-! DEFINITION. The statements for the provers, one for each rule or group of rules of the spec; the text of each stands in its
docstring. The words they share stand in Safety.lean. -/

open Sys2Proof Sys2Proof.Machine

/-- For every command c, every rest of the queue and every state: a step of the state with c in front is exec of c on the
state with the rest as its queue, whatever exec answers. The queue of commands is the model's own (log entry 1). (R13,
95_what_each_step_holds.md) -/
def Obligations.StepRunsTheFrontCommand : Prop :=
  ∀ (c : Instr) (rest : List Instr) (s : State),
    step { s with pending := c :: rest } = exec c { s with pending := rest }

/-- On an empty queue a step answers a next state. Without the main rails it is the same state. With them it is the state in
which the messages that wait for nothing any more have been acted on, but for the clock, the live counters and the report of
a quality that changed; where no message waits, in a receive buffer or for this package, only these and the order in which
ports are listed change. The local beats advance by one; Station Time stands still while UNSET, and while no slew runs it
advances by one modulo 2^64; while a slew runs it advances by one with the slew unchanged, or by none or two with the slew
one beat nearer to zero, and a slew that comes within 2 ns of zero ends with the quality it aims at. That a step on an empty
queue is one beat is the model's choice (log entry 2). (R490, R494, R499, R704, 13_ranel_fabric.md) -/
def Obligations.IdleStepIsOneBeat : Prop :=
  ∀ s : State, s.pending = [] → ∃ t, step s = .next t ∧
    (s.mainRails = false → t = s) ∧
    (s.mainRails = true →
      t = { s.takeWaiting with time := t.time, obs := { s.takeWaiting.obs with live := t.obs.live }, out := t.out } ∧
      (t.time.quality = s.takeWaiting.time.quality → t.out = s.takeWaiting.out) ∧
      ((∀ p, (s.portAt p).inbox = []) → s.fab.arrived = [] →
        t = { s with
          time := t.time, obs := { s.obs with live := t.obs.live }, fab := { s.fab with ports := t.fab.ports }, out := t.out } ∧
        ∀ p, t.portAt p = s.portAt p) ∧
      ∀ c, c = s.takeWaiting.time →
        t.time.beats = c.beats + 1 ∧ t.time.aim = c.aim ∧
        (c.quality = .unset → t.time.now = c.now ∧ t.time.slew = c.slew ∧ t.time.quality = .unset) ∧
        (c.quality ≠ .unset → c.slew = 0 → t.time.now = (c.now + 1) % 2 ^ 64 ∧ t.time.slew = 0 ∧ t.time.quality = c.quality) ∧
        (c.quality ≠ .unset → c.slew ≠ 0 →
          (t.time.now = (c.now + 1) % 2 ^ 64 ∧ t.time.slew = c.slew ∧ t.time.quality = c.quality) ∨
          (∃ left : Int, left = (if 0 < c.slew then c.slew - 256 else c.slew + 256) ∧
            t.time.now = (if 0 < c.slew then c.now else (c.now + 2) % 2 ^ 64) ∧
            (left.natAbs ≤ 512 → t.time.slew = 0 ∧ t.time.quality = c.aim) ∧
            (512 < left.natAbs → t.time.slew = left ∧ t.time.quality = c.quality))))

/-- For every state whose byte memory and check-bit differences are in canonical form (addresses strictly rising, no entry
equal to what an unlisted address reads as) every next state of a step has them in canonical form. The form is the model's
own (log entry 6). (R331, R358, R379, 10_tier_memory_and_protection.md) -/
def Obligations.StepKeepsMemoryCanonical : Prop :=
  ∀ s t : State, s.Inv → step s = .next t → t.Inv

/-- State.reset has memory in canonical form: it lists nothing, so that every byte reads zero with fresh check bits. The
choices of the model that it rests on: log entry 6. (R358, R379, 10_tier_memory_and_protection.md) -/
def Obligations.ResetMemoryCanonical : Prop :=
  State.reset.Inv ∧ ∀ a, mget 0 State.reset.mem.cells a = 0 ∧ mget 0 State.reset.mem.marks a = 0

/-- For every state and every next state of a step: what has been sent out is only added to, the OTP security version never
falls, a revoked key stays revoked, and a cell whose history says retired stays retired. (R46, R268, R764,
21_management_security_black_box.md) -/
def Obligations.StepTakesNothingBack : Prop :=
  ∀ s t : State, step s = .next t →
    s.out <+: t.out ∧ s.mgmt.svn ≤ t.mgmt.svn ∧
    (∀ k, s.mgmt.revoked.testBit k = true → t.mgmt.revoked.testBit k = true) ∧
    (∀ u, s.retiredCell u = true → t.retiredCell u = true)

/-- For every command and every state, exec answers a next state (never a fault or a refusal), whose queue of waiting
commands is that of the state before and whose outputs begin with those of the state before. The choices of the model that
it rests on: log entry 55. (R3, 95_what_each_step_holds.md) -/
def Obligations.EveryCommandAnswers : Prop :=
  ∀ (c : Instr) (s : State), ∃ t, exec c s = .next t ∧ t.pending = s.pending ∧ s.out <+: t.out

/-- In State.reset no command waits and nothing has been sent, READY is 0 and writes to BAR0 are not taken, no ring is
enabled, every holding slot is free, Station Time is UNSET and zero, the resilience state is RUN with nothing valid, every
stack is in TRAINING; and the shadow and the effective value of each register with a nonzero Reset column that the list in
the statement names (STALL_LIMIT 0x020000, AEC_CTL, TF_CTL, RS_CTL, OBS_CFG, SIG_MASK 0x8900, PWR_CTL, PERF_CTL, PD_CFG,
SQ_CFG, CQ_CFG, CQ_MOD, FAB_CTL, PORT_CTL, TIME_CTL, TM_CTL, STK_CTL, MARGIN_CTL) are that column's. The choices of the
model that it rests on: log entries 4 and 5. (02_unit_tree_and_self_timed_execution.md, 15_host_rings_and_flow_control.md,
18_resilience_and_checkpoints.md, 20_power_thermal_and_adaptive_loops.md, 23_set_up_registers.md) -/
def Obligations.ResetValues : Prop :=
  State.reset.pending = [] ∧ State.reset.out = [] ∧ State.reset.tree.ready = false ∧ State.reset.takesWrites = false ∧
  (∀ r, bit (State.reset.sqCfg r) 31 = false ∧ bit (State.reset.cqCfg r) 31 = false) ∧
  (∀ k, State.reset.slot k = none) ∧
  State.reset.time.quality = .unset ∧ State.reset.time.now = 0 ∧
  State.reset.res.hold = false ∧ State.reset.res.liveValid = false ∧ State.reset.res.imageValid = false ∧
  (∀ k, (State.reset.stack k).mode = .training) ∧
  [(regStallLimit, 0x20000), (regAecCtl, 0x001A100C), (regTfCtl, 0x06000040), (regRsCtl, 0x80000000),
    (regObsCfg, 0x04000000), (regSigMask, 0x8900), (regPwrCtl, 0x09601400), (regPerfCtl, 0x1414), (regPdCfg, 0x40000000),
    (regSqCfg, 0x04000000), (regCqCfg, 0x04000000), (regCqMod, 0x01000000), (regFabCtl, 0x05000000), (regPortCtl, 1),
    (regTimeCtl, 1), (regTmCtl 0, 0x10400), (regTmCtl 1, 0x10400), (regStkCtl 0, 0x00280100), (regMarginCtl 7, 0x10)].all
      (fun r => State.reset.regs.shadow r.1 0 == r.2 && State.reset.regs.eff r.1 0 == r.2) = true

/-- Where BAR0 takes writes, ENUM_SEL with value v answers the next state in which ENUM_SEL holds v[15:0], the eight words
ENUM_DATA0 to ENUM_DATA7 are the record of the identifier v[15:0], and nothing else has changed. Of an identifier that names
no node the record has kind 0xFF and every other byte zero. Of one that names a node the words are those of Table 2.4:
identifier and parent, span, kind and state, children and position, array rows and columns, classes, die, stack and
substitute, and, of a cell group, its unused spares and retired cells. A host read of the eight registers (outside
BOOT_FAIL) returns them. Completion (the conclusion is exec c s = next t, under conditions on state and operands alone):
enumSel, where BAR0 takes writes. (R35) -/
def Obligations.EnumSelLatchesTheRecord : Prop :=
  ∀ (s : State) (v : Nat), s.takesWrites = true → ∃ t, exec (.enumSel v) s = .next t ∧
    t = { s with regs := t.regs, tree := { s.tree with enumData := t.tree.enumData } } ∧
    s.regs.stores t.regs regEnumSel 0 (BitVec.ofNat 32 v) 0xFFFF ∧
    t.tree.enumData.length = 32 ∧
    (s.mgmt.bootFail = 0 → ∀ n < 8, t.regView (0x1020 + 4 * n) = word t.tree.enumData n) ∧
    (s.placeOf (v % 65536) = none →
      t.tree.enumData = List.replicate 6 0 ++ [0xFF] ++ List.replicate 25 0) ∧
    ∀ p q, placeOf (v % 65536) = some q → s.placeOf (v % 65536) = some p →
      (word t.tree.enumData 0 = v % 65536 + q.parent * 65536 ∧
        word t.tree.enumData 1 = p.span + p.kind.code * 65536 + (s.shownState (v % 65536)).code * 2 ^ 24 ∧
        word t.tree.enumData 2 = p.children + q.position * 65536 ∧
        word t.tree.enumData 3 = p.array.1 + p.array.2 * 65536 ∧
        word t.tree.enumData 4 = p.classes + p.dieIx % 256 * 65536 + p.stackIx % 256 * 2 ^ 24 ∧
        field t.tree.enumData 20 2 = s.substitute (v % 65536) % 65536 ∧
        (∀ g, p = .cellGroup g → field t.tree.enumData 22 1 = (if (s.unit (spareId g)).state = .spare then 1 else 0) ∧
          field t.tree.enumData 23 1 = s.retiredIn g) ∧
        word t.tree.enumData 6 = 0 ∧ word t.tree.enumData 7 = 0)

/-- Where BAR0 takes writes, SIG_SEL with node v[31:16] and index v[5:0] answers the next state in which SIG_INFO is the
node's entry count, SIG_DATA0 to SIG_DATA3 are the 8-byte stamp and the 8-byte word of the entry of that index counted from
the newest (both modulo 2^64), or zeros where the log has no such entry, and nothing else has changed but SIG_SEL itself.
The log is that of the unit the identifier reaches; an identifier that names no node reads as an empty log. A host read of
the five registers (outside BOOT_FAIL) returns them. Completion (the conclusion is exec c s = next t, under conditions on
state and operands alone): sigSel, where BAR0 takes writes. (R702) -/
def Obligations.SigSelLatchesTheEntry : Prop :=
  ∀ (s : State) (v : Nat), s.takesWrites = true → ∃ t, exec (.sigSel v) s = .next t ∧
    t = { s with regs := t.regs, obs := { s.obs with sigInfo := t.obs.sigInfo, sigData := t.obs.sigData } } ∧
    s.regs.stores t.regs regSigSel 0 (BitVec.ofNat 32 v) 0xFFFF003F ∧
    (s.mgmt.bootFail = 0 → t.regView 0x5020 = t.obs.sigInfo ∧ ∀ n < 4, t.regView (0x5024 + 4 * n) = word t.obs.sigData n) ∧
    (s.placeOf (bits v 31 16) = none → t.obs.sigInfo = 0 ∧ t.obs.sigData = List.replicate 16 0) ∧
    ∀ p, s.placeOf (bits v 31 16) = some p →
      t.obs.sigInfo = (mget SigLog.reset s.obs.logs (s.unitOf (bits v 31 16))).count ∧
      (∀ e, (mget SigLog.reset s.obs.logs (s.unitOf (bits v 31 16))).entries[v % 64]? = some e →
        field t.obs.sigData 0 8 = e.1 % 2 ^ 64 ∧ field t.obs.sigData 8 8 = e.2 % 2 ^ 64) ∧
      ((mget SigLog.reset s.obs.logs (s.unitOf (bits v 31 16))).entries.length ≤ v % 64 →
        t.obs.sigData = List.replicate 16 0)

/-- Where BAR0 takes writes, CTR_SEL with node v[31:16] and counter v[15:0] answers the next state in which CTR_LIVE and
CTR_LATCHED are the sums of the live and latched values over the units at or below the node that keep the counter,
saturating at its width, and CTR_FLAGS has its bits 0 and 1 where they are saturated; where no unit keeps it, both are zero
and only NONE (bit 2) is set; nothing else changes but CTR_SEL itself. CTR_CMD.LATCH outside a STEP copies every live value
into the latched value, restarts every live value at zero and changes nothing else; while a STEP runs it changes nothing but
the clamp counters. Completion (the conclusion is exec c s = next t, under conditions on state and operands alone): ctrSel
and ctrCmdLatch, where BAR0 takes writes. The choices of the model that it rests on: log entry 15. (R703, R704, R705, R706)
-/
def Obligations.CountersAreReadAndLatched : Prop :=
  ∀ (s : State), s.takesWrites = true →
    (∀ v : Nat, ∃ t, exec (.ctrSel v) s = .next t ∧
      t = { s with
        regs := t.regs
        obs := { s.obs with ctrFlags := t.obs.ctrFlags, ctrLive := t.obs.ctrLive, ctrLatched := t.obs.ctrLatched } } ∧
      s.regs.stores t.regs regCtrSel 0 (BitVec.ofNat 32 v) 0xFFFFFFFF ∧
      (s.keepers (bits v 31 16) (v % 65536) = [] →
        t.obs.ctrFlags = 4 ∧ t.obs.ctrLive = 0 ∧ t.obs.ctrLatched = 0) ∧
      (s.keepers (bits v 31 16) (v % 65536) ≠ [] →
        t.obs.ctrLive = min (((s.keepers (bits v 31 16) (v % 65536)).map (fun u => s.ctr u (v % 65536))).sum)
          (2 ^ ctrWidth (v % 65536) - 1) ∧
        t.obs.ctrLatched = min (((s.keepers (bits v 31 16) (v % 65536)).map
          (fun u => mget 0 s.obs.latched (ctrKey u (v % 65536)))).sum) (2 ^ ctrWidth (v % 65536) - 1) ∧
        (t.obs.ctrFlags.testBit 0 ↔ t.obs.ctrLive = 2 ^ ctrWidth (v % 65536) - 1) ∧
        (t.obs.ctrFlags.testBit 1 ↔ t.obs.ctrLatched = 2 ^ ctrWidth (v % 65536) - 1) ∧ t.obs.ctrFlags < 4)) ∧
    (∃ t, exec .ctrCmdLatch s = .next t ∧
      (s.tf.run = none →
        t = { s with obs := { s.obs with live := t.obs.live, latched := t.obs.latched } } ∧
        ∀ u id, mget 0 t.obs.latched (ctrKey u id) = s.ctr u id ∧ t.ctr u id = 0) ∧
      (s.tf.run ≠ none → t = s.reported t ∧ t.host.events = s.host.events ∧
        t.host.clampCount = min (s.host.clampCount + 1) (2 ^ 32 - 1)))

/-- Where BAR0 takes writes, each of these selectors answers the next state in which the selector register holds its value,
the data registers of the block hold what is selected, and nothing else has changed. LOG_SEL of block b (dies 0 and 1,
stacks 2 to 9): the 16 bytes of the log entry, from the uncorrectable log where v[7] is set, zeros where there is no such
entry. RANGE_SEL: the 16 bytes of entry v[3:0] of the stack's poisoned-range list, zeros where it is free. RAIL_SEL: hold
and fault bits, millivolts and 0.1 A of rail v[3:0] as last read, zero for 14 and 15. CORE_SEL: state, role and node of hart
v[5:0]. MNODE_SEL: the two views of the domain v[15:0]. BB_SEL: the 64 bytes of valid black-box record v[15:0] counted from
the newest, zeros where there is none (reports may change too). Completion (the conclusion is exec c s = next t, under
conditions on state and operands alone): logSel, rangeSel, railSel, coreSel, mnodeSel and bbSel, where BAR0 takes writes.
The choices of the model that it rests on: log entry 41. (R356, R437, R717, R750, R779, 10_tier_memory_and_protection.md,
12_update_engines.md) -/
def Obligations.OtherSelectorsLatch : Prop :=
  ∀ (s : State), s.takesWrites = true → ∀ v : Nat,
    (∀ b < 10, ∃ t, exec (.logSel b v) s = .next t ∧
      t = { s with
        regs := t.regs
        obs := { s.obs with logData := mput (List.replicate 16 0) s.obs.logData b (mget (List.replicate 16 0) t.obs.logData b) } } ∧
      s.regs.stores t.regs (logSelOf b) 0 (BitVec.ofNat 32 v) 0xBF ∧
      mget (List.replicate 16 0) t.obs.logData b =
        (match (if v.testBit 7 then (s.errLogs b).ue else (s.errLogs b).ce)[v % 64]? with
          | some e => e.bytes
          | none => List.replicate 16 0)) ∧
    (∀ k < 8, ∃ t, exec (.rangeSel k v) s = .next t ∧
      t = { s with regs := t.regs, ue := t.ue } ∧
      s.regs.stores t.regs (regRangeSel k) 0 (BitVec.ofNat 32 v) 0xF ∧
      (∀ j, j ≠ k → t.ueOf j = s.ueOf j) ∧ t.ueOf k = { s.ueOf k with data := rangeBytes ((s.ueOf k).ranges.getD (v % 16) none) }) ∧
    (∃ t, exec (.railSel v) s = .next t ∧
      t = { s with regs := t.regs, pwr := { s.pwr with railStatus := t.pwr.railStatus } } ∧
      s.regs.stores t.regs regRailSel 0 (BitVec.ofNat 32 v) 0xF ∧
      (14 ≤ v % 16 → t.pwr.railStatus = 0) ∧
      (v % 16 < 14 → ∀ mv a st, mget (0, 0, 0) s.pwr.rails (v % 16) = (mv, a, st) →
        t.pwr.railStatus = (if s.railHolds (v % 16) then 2 ^ 31 else 0) + (if pmbusFault st then 2 ^ 30 else 0)
          + min mv 16383 * 2 ^ 16 + min a 65535)) ∧
    (∃ t, exec (.coreSel v) s = .next t ∧
      t = { s with regs := t.regs, cores := { s.cores with status := s.coreStatus (v % 64) } } ∧
      s.regs.stores t.regs regCoreSel 0 (BitVec.ofNat 32 v) 0x3F) ∧
    (∃ t, exec (.mnodeSel v) s = .next t ∧
      t = { s with regs := t.regs, mgmt := { s.mgmt with mnode := s.mnodeStatus (v % 65536) } } ∧
      s.regs.stores t.regs regMnodeSel 0 (BitVec.ofNat 32 v) 0xFFFF) ∧
    (∃ t, exec (.bbSel v) s = .next t ∧
      t = ({ s with regs := t.regs, mgmt := { s.mgmt with bbData := t.mgmt.bbData } } : State).reported t ∧
      s.regs.stores t.regs regBbSel 0 (BitVec.ofNat 32 v) 0xFFFF ∧
      (∀ rec', s.validRecords.reverse[v % 65536]? = some rec' → rec'.length = 64 → t.mgmt.bbData = rec') ∧
      (s.validRecords.length ≤ v % 65536 → t.mgmt.bbData = List.replicate 64 0))

/-- Where BAR0 answers (readable, no reset running, power present, the function not in D3hot) and with no BOOT_FAIL:
TIME_NOW_LO answers one read completion with Station Time bits [31:0] and latches bits [63:32] for TIME_NOW_HI; CLAMP_COUNT
answers with the count and clears it; FREEZE_COUNT answers with the freeze count of the node that NODE_SEL names, after
which that count reads zero and the freeze count of every unit outside the node's cells and vector engines is as before.
Each changes nothing else. Where BAR0 does not answer each answers Unsupported and changes nothing else; in BOOT_FAIL each
answers zero and changes nothing else. Completion (the conclusion is exec c s = next t, under conditions on state and
operands alone): timeNowLoRead, freezeCountRead and clampCountRead, where BAR0 answers. The choices of the model that it
rests on: log entries 12 and 41. (R13, R15, R498, R575, R763, R792, R822) -/
def Obligations.ReadsWithAnEffect : Prop :=
  ∀ s : State,
    (s.bar0Open = true → s.mgmt.bootFail = 0 →
      exec .timeNowLoRead s = .next { s with
        out := s.out ++ [.readData (natLe 4 (s.time.now % 2 ^ 32)) false]
        fab := { s.fab with nowHi := s.time.now / 2 ^ 32 % 2 ^ 32 } } ∧
      exec .clampCountRead s = .next { s with
        out := s.out ++ [.readData (natLe 4 s.host.clampCount) false], host := { s.host with clampCount := 0 } } ∧
      ∃ t, exec .freezeCountRead s = .next t ∧
        t = { s with
          out := s.out ++ [.readData (natLe 4 (s.freezeCount (s.regs.shadow regNodeSel 0 % 65536))) false]
          tree := { s.tree with units := t.tree.units } } ∧
        t.freezeCount (s.regs.shadow regNodeSel 0 % 65536) = 0 ∧
        (∀ u, t.unit u = { s.unit u with freezes := (t.unit u).freezes }) ∧
        ∀ u, u ∉ (s.leavesOf .cell (s.regs.shadow regNodeSel 0 % 65536)
            ++ s.leavesOf .vectorEngine (s.regs.shadow regNodeSel 0 % 65536)).map s.unitOf → t.unit u = s.unit u) ∧
    (∀ c ∈ [Instr.timeNowLoRead, .clampCountRead, .freezeCountRead],
      (s.bar0Open = false →
        exec c s = .next { s with out := s.out ++ [.unsupported] }) ∧
      (s.bar0Open = true → s.mgmt.bootFail ≠ 0 →
        exec c s = .next { s with out := s.out ++ [.readData (natLe 4 0) false] }))

/-- Where BAR0 takes writes, each of UNIT_TREE_COMMIT, OBS_COMMIT, RST_COMMIT and TM_COMMIT (of either die) answers a next
state. Unless an earlier COMMIT of the block waits, it is the state in which every shadowed field of the block has taken its
shadow's value, no shadow has changed (a clamp alters only the effective value) and no register of another block has
changed; where one waits, OBS_COMMIT, RST_COMMIT and TM_COMMIT capture the shadows behind it and change nothing else.
UNIT_TREE_COMMIT also sets the software request of every cell that SLACK_CTL names (the subtree of NODE_SEL with SUBTREE
set, else the one cell) to its SLACK and changes nothing else but reports. OBS_COMMIT reads DRAIN_LIMIT 0 as 1, CORE_SCOPE 3
as 2, CTR_DUMP_LEN 0 as 1, clears CTR_DUMP_HI.EN of a table outside tier memory and DUMP_LEN of a region outside stack
memory. RST_COMMIT reads DOWN_LIMIT 0 as 1. TM_COMMIT reads INTERVAL 0 as 1 and clears FLIP_CTL.ARM at an address outside
tier memory and the accumulator window. These three change nothing else but reports. Completion (the conclusion is exec c s
= next t, under conditions on state and operands alone): unitTreeCommit, obsCommit, rstCommit and tmCommit, where BAR0 takes
writes. The choices of the model that it rests on: log entry 16. (R65, R812, R813, R814, R815, R816, R819, R64) -/
def Obligations.CommitsThatActAtOnce : Prop :=
  ∀ s : State, s.takesWrites = true →
    (∀ cb ∈ [(Instr.obsCommit, 4), (.rstCommit, 6), (.tmCommit 0, 9), (.tmCommit 1, 10)], ¬ s.noneWaits cb.2 →
      exec cb.1 s = .next { s with
        regs := { s.regs with captures := s.regs.captures ++ [⟨cb.2, s.regs.capture cb.2⟩] } }) ∧
    (∃ t, exec .unitTreeCommit s = .next t ∧ s.regs.committed t.regs 0 [] [] ∧
      t = ({ s with regs := t.regs, tree := { s.tree with units := t.tree.units } } : State).reported t ∧
      (∀ u, t.unit u = { s.unit u with request := (t.unit u).request }) ∧
      (∀ id ∈ s.leavesOf .cell (s.regs.shadow regNodeSel 0 % 65536),
        ((s.regs.due regSlackCtl 0).testBit 8 ∨ id = s.regs.shadow regNodeSel 0 % 65536) →
          (t.unit (s.unitOf id)).request = s.regs.due regSlackCtl 0 % 64) ∧
      (∀ u, u ∉ (s.leavesOf .cell (s.regs.shadow regNodeSel 0 % 65536)).map s.unitOf → t.unit u = s.unit u)) ∧
    (s.noneWaits 4 → ∃ t, exec .obsCommit s = .next t ∧ t = ({ s with regs := t.regs } : State).reported t ∧
      s.regs.committed t.regs 4 [regObsCfg, regCtrDumpLen, regCtrDumpHi, regDumpLen] [] ∧
      bits (t.regs.eff regObsCfg 0) 31 16 = max 1 (bits (s.regs.due regObsCfg 0) 31 16) ∧
      bits (t.regs.eff regObsCfg 0) 2 1 = min 2 (bits (s.regs.due regObsCfg 0) 2 1) ∧
      bits (t.regs.eff regObsCfg 0) 0 0 = bits (s.regs.due regObsCfg 0) 0 0 ∧
      t.regs.eff regCtrDumpLen 0 = max 1 (s.regs.due regCtrDumpLen 0) ∧
      bits (t.regs.eff regCtrDumpHi 0) 15 0 = bits (s.regs.due regCtrDumpHi 0) 15 0 ∧
      bits (t.regs.eff regCtrDumpHi 0) 31 31 =
        (if inTier (bits (s.regs.due regCtrDumpLo 0) 31 4 * 16 + bits (s.regs.due regCtrDumpHi 0) 15 0 * 2 ^ 32)
            (16 * t.regs.eff regCtrDumpLen 0) then bits (s.regs.due regCtrDumpHi 0) 31 31 else 0) ∧
      t.regs.eff regDumpLen 0 =
        (if inStack (bits (s.regs.due regDumpBaseLo 0) 31 12 * 4096 + bits (s.regs.due regDumpBaseHi 0) 15 0 * 2 ^ 32)
            (s.regs.due regDumpLen 0 * 2 ^ 20) then s.regs.due regDumpLen 0 else 0)) ∧
    (s.noneWaits 6 → ∃ t, exec .rstCommit s = .next t ∧ t = ({ s with regs := t.regs } : State).reported t ∧
      s.regs.committed t.regs 6 [regPdCfg] [] ∧
      bits (t.regs.eff regPdCfg 0) 31 16 = max 1 (bits (s.regs.due regPdCfg 0) 31 16)) ∧
    (∀ d < 2, s.noneWaits (9 + d) → ∃ t, exec (.tmCommit d) s = .next t ∧ t = ({ s with regs := t.regs } : State).reported t ∧
      s.regs.committed t.regs (9 + d) [regTmCtl d, regFlipCtl d] [] ∧
      bits (t.regs.eff (regTmCtl d) 0) 15 0 = max 1 (bits (s.regs.due (regTmCtl d) 0) 15 0) ∧
      bits (t.regs.eff (regTmCtl d) 0) 16 16 = bits (s.regs.due (regTmCtl d) 0) 16 16 ∧
      bits (t.regs.eff (regFlipCtl d) 0) 8 0 = bits (s.regs.due (regFlipCtl d) 0) 8 0 ∧
      bits (t.regs.eff (regFlipCtl d) 0) 16 16 =
        (if inTier (bits (s.regs.due (regFlipAddrHi d) 0) 15 0 * 2 ^ 32 + s.regs.due (regFlipAddrLo d) 0) 16 ||
            inAcc (bits (s.regs.due (regFlipAddrHi d) 0) 15 0 * 2 ^ 32 + s.regs.due (regFlipAddrLo d) 0) 16
          then bits (s.regs.due (regFlipCtl d) 0) 16 16 else 0))

/-- Where BAR0 takes writes and no earlier COMMIT of the host block waits, HOST_COMMIT answers the next state in which no
shadow has changed and no register of another block has changed, and for every ring: ENABLE of the submission and of the
completion side is the shadow's; a side that becomes enabled starts empty (indexes and laps zero, no error; its sequence
goes on 16 further, a choice of the model), the completion side armed; a side that stays enabled keeps its base address and
size (the submission side also CQ and REMOTE) and its ring state, but that a completion ring which is armed and holds an
urgent record, or as many unconsumed records as its new COUNT, signals: ARMED clears; a side that is not enabled keeps its
ring state. Of a side that does not stay enabled the size exponent lies between 4 and 16 and is the shadow's where that
does. Nothing else has changed but pending interrupts and reports. Completion (the conclusion is exec c s = next t, under
conditions on state and operands alone): hostCommit, where BAR0 takes writes and no earlier COMMIT of the block waits. The
choices of the model that it rests on: log entries 16 and 40. (R555, R561, R574, R813, R816, R819, R551) -/
def Obligations.HostCommitStartsRings : Prop :=
  ∀ s : State, s.takesWrites = true → s.noneWaits 7 → ∃ t, exec .hostCommit s = .next t ∧
    t = ({ s with regs := t.regs, host := { s.host with sq := t.host.sq, cq := t.host.cq, msix := t.host.msix } } : State).reported t ∧
    s.regs.committed t.regs 7 [regSqBaseLo, regSqBaseHi, regSqCfg, regCqBaseLo, regCqBaseHi, regCqCfg, regCqMod] [] ∧
    ∀ r < 256,
      bit (t.sqCfg r) 31 = bit (s.regs.due regSqCfg r) 31 ∧ bit (t.cqCfg r) 31 = bit (s.regs.due regCqCfg r) 31 ∧
      (bit (s.sqCfg r) 31 = false → bit (s.regs.due regSqCfg r) 31 = true → 
        t.sqRing r = { SqRing.reset with accepted := (s.sqRing r).accepted + 16 }) ∧
      (bit (s.cqCfg r) 31 = false → bit (s.regs.due regCqCfg r) 31 = true →
        t.cqRing r = { CqRing.reset with armed := true }) ∧
      (bit (s.sqCfg r) 31 = true ∨ bit (s.regs.due regSqCfg r) 31 = false → t.sqRing r = s.sqRing r) ∧
      (bit (s.regs.due regCqCfg r) 31 = false → t.cqRing r = s.cqRing r) ∧
      (bit (s.cqCfg r) 31 = true → bit (s.regs.due regCqCfg r) 31 = true → t.cqRing r =
        (if (s.cqRing r).armed && ((s.cqRing r).urgent || (bits (t.regs.eff regCqMod r) 31 24 ≠ 0 &&
              bits (t.regs.eff regCqMod r) 31 24 ≤ s.unconsumed r))
          then { s.cqRing r with armed := false, since := none, urgent := false } else s.cqRing r)) ∧
      (bit (s.sqCfg r) 31 = true → bit (s.regs.due regSqCfg r) 31 = true →
        t.regs.eff regSqBaseLo r = s.regs.eff regSqBaseLo r ∧ t.regs.eff regSqBaseHi r = s.regs.eff regSqBaseHi r ∧
        bits (t.sqCfg r) 28 24 = bits (s.sqCfg r) 28 24 ∧ bits (t.sqCfg r) 23 16 = bits (s.sqCfg r) 23 16 ∧
        bits (t.sqCfg r) 15 15 = bits (s.sqCfg r) 15 15) ∧
      (bit (s.cqCfg r) 31 = true → bit (s.regs.due regCqCfg r) 31 = true →
        t.regs.eff regCqBaseLo r = s.regs.eff regCqBaseLo r ∧ t.regs.eff regCqBaseHi r = s.regs.eff regCqBaseHi r ∧
        bits (t.cqCfg r) 28 24 = bits (s.cqCfg r) 28 24) ∧
      (bit (s.sqCfg r) 31 = false ∨ bit (s.regs.due regSqCfg r) 31 = false →
        bits (t.sqCfg r) 28 24 = max 4 (min 16 (bits (s.regs.due regSqCfg r) 28 24))) ∧
      (bit (s.cqCfg r) 31 = false ∨ bit (s.regs.due regCqCfg r) 31 = false →
        bits (t.cqCfg r) 28 24 = max 4 (min 16 (bits (s.regs.due regCqCfg r) 28 24))) ∧
      bits (t.sqCfg r) 12 0 = min 4096 (bits (s.regs.due regSqCfg r) 12 0)

/-- Where BAR0 takes writes and no earlier COMMIT of the fabric block waits, FAB_COMMIT answers the next state in which
every shadowed field of the block holds its shadow's value but for CTRL_LOG2 of FAB_CTL, which lies between 3 and 8, and
RETRAIN, which acts and returns to 0 in shadow and effective value; no other shadow and no register of another block
changes. A port with ENABLE 0 is OFF, or, where it was UP with unacknowledged flits, is still UP and closing. A port with
ENABLE 1 that was OFF is in SEEK with no failures counted; one that was not OFF is not closing, and one that was UP with
RETRAIN set is in RETRAIN. Only the registers, ports, island flag, root, quality and slew of Station Time, and reports, have
changed. Completion (the conclusion is exec c s = next t, under conditions on state and operands alone): fabCommit, where
BAR0 takes writes and no earlier COMMIT of the block waits. The choices of the model that it rests on: log entries 16 and
24. (R445, R448, R813, R817, R498, R479) -/
def Obligations.FabCommitActsOnPorts : Prop :=
  ∀ s : State, s.takesWrites = true → s.noneWaits 8 → ∃ t, exec .fabCommit s = .next t ∧
    t = ({ s with
      regs := t.regs
      time := { s.time with quality := t.time.quality, slew := t.time.slew, slewPhase := t.time.slewPhase }
      fab := { s.fab with ports := t.fab.ports, island := t.fab.island, upPort := t.fab.upPort, hops := t.fab.hops, root := t.fab.root } }
        : State).reported t ∧
    s.regs.committed t.regs 8 [regFabCtl, regPortCtl] [regPortCtl] ∧
    t.regs.eff regFabCtl 0 % 2 ^ 24 = s.regs.due regFabCtl 0 % 2 ^ 24 ∧
    bits (t.regs.eff regFabCtl 0) 27 24 = max 3 (min 8 (bits (s.regs.due regFabCtl 0) 27 24)) ∧
    ∀ p < 12,
      t.regs.eff regPortCtl p % 4 = s.regs.due regPortCtl p % 2 ∧
      (bit (s.regs.due regPortCtl p) 1 = false → t.regs.shadow regPortCtl p = s.regs.shadow regPortCtl p) ∧
      (bit (s.regs.due regPortCtl p) 1 = true → bit (t.regs.shadow regPortCtl p) 1 = false) ∧
      (bit (s.regs.due regPortCtl p) 0 = false → (s.portAt p).mode = .up → (s.portAt p).replay ≠ [] →
        (t.portAt p).mode = .up ∧ (t.portAt p).closing = true) ∧
      (bit (s.regs.due regPortCtl p) 0 = false → ((s.portAt p).mode ≠ .up ∨ (s.portAt p).replay = []) →
        (t.portAt p).mode = .off) ∧
      (bit (s.regs.due regPortCtl p) 0 = true → (s.portAt p).mode = .off →
        (t.portAt p).mode = .seek ∧ (t.portAt p).fails = 0) ∧
      (bit (s.regs.due regPortCtl p) 0 = true → (s.portAt p).mode ≠ .off → (t.portAt p).closing = false ∧
        ((s.portAt p).mode = .up → bit (s.regs.due regPortCtl p) 1 = true → (t.portAt p).mode = .retrain) ∧
        (((s.portAt p).mode ≠ .up ∨ bit (s.regs.due regPortCtl p) 1 = false) → (t.portAt p).mode = (s.portAt p).mode))

/-- Where BAR0 takes writes, AEC_COMMIT, TF_COMMIT and PWR_COMMIT always, and RS_COMMIT while an image pass or a resilience
command runs or an earlier one waits, answer the next state in which the shadows of the block are captured behind those that
wait and nothing else has changed; CMT_PENDING then shows the block pending. An RS_COMMIT that need not wait takes effect at
once: every shadowed field of the block takes its shadow's value, TWIN_WAIT 0 reads as 1, IMAGE_EN is cleared where the
range list is not wholly in tier memory; only registers, the resilience state's SHAPE and IMAGE_VALID, memory, its error
logs and reports have changed, and a flip mask or injection that waits for the seal may have fired. Where the lists stay
where they were, memory has changed in the seal alone; else the lists are read, and what is found correctable in them is
corrected. Completion (the conclusion is exec c s = next t, under conditions on state and operands alone): aecCommit,
tfCommit, pwrCommit and rsCommit, where BAR0 takes writes. The choices of the model that it rests on: log entry 16. (R247,
R647, R673, R653, R813, R819) -/
def Obligations.CommitsThatWait : Prop :=
  ∀ s : State, s.takesWrites = true →
    (∀ cb ∈ [(Instr.aecCommit, 1), (.tfCommit, 2), (.pwrCommit, 5)], exec cb.1 s = .next { s with
      regs := { s.regs with captures := s.regs.captures ++ [⟨cb.2, s.regs.capture cb.2⟩] } }) ∧
    (s.rsWaits = true ∨ ¬ s.noneWaits 3 → exec .rsCommit s = .next { s with
      regs := { s.regs with captures := s.regs.captures ++ [⟨3, s.regs.capture 3⟩] } }) ∧
    (∀ b vals, (b = 1 ∨ b = 2 ∨ b = 3 ∨ b = 5) →
      ({ s with regs := { s.regs with captures := s.regs.captures ++ [⟨b, vals⟩] } } : State).cmtPending.testBit b = true) ∧
    (s.rsWaits = false → s.noneWaits 3 → ∃ t r, exec .rsCommit s = .next t ∧
      s.regs.committed r 3 [regRsCtl] [] ∧ r.agree t.regs ∧
      bits (t.regs.eff regRsCtl 0) 31 16 = max 1 (bits (s.regs.due regRsCtl 0) 31 16) ∧
      (bit (s.regs.due regRsCtl 0) 0 = false → bit (t.regs.eff regRsCtl 0) 0 = false) ∧
      (bit (s.regs.due regRsCtl 0) 0 = true → (bit (t.regs.eff regRsCtl 0) 0 = inTier t.listBase (16 * t.listCount))) ∧
      t = ({ s with
        regs := t.regs
        mem := { s.mem with cells := t.mem.cells, marks := t.mem.marks, logs := t.mem.logs }
        res := { s.res with shape := t.res.shape, imageValid := t.res.imageValid } } : State).reported t ∧
      (t.listBase = s.listBase → t.listCount = s.listCount → t.imageBase = s.imageBase →
        ∀ a, (a < t.sealBase ∨ t.sealBase + 32 ≤ a) → mget 0 t.mem.cells a = mget 0 s.mem.cells a ∧
        mget 0 t.mem.marks a = mget 0 s.mem.marks a))

/-- Where BAR0 takes writes, STK_COMMIT of stack k answers a next state: where a unit is being converted, or the shadows ask
for TEST of a stack in RUN or for another data rate in TEST, or would end a margin test, or an earlier COMMIT waits, the
shadows are captured behind those that wait, a stack in RUN is marked as entering TEST, and nothing else changes; otherwise
every shadowed field of the block takes its shadow's value but for those that the block judges (STK_CTL, MARGIN_CTL,
INJ_CTL), BIN of a stack not in TEST stays as it was, and a stack in TEST whose STATE bit is 0 goes to RUN. COMMIT_POINT of
a block that has no capture waiting changes nothing. COMMIT_POINT of the power block takes the oldest capture out: with
distinct registers in it, each of its fields holds the captured value, PWR_CTL and PERF_CTL clamped to their bounds, and no
shadow changes. Completion (the conclusion is exec c s = next t, under conditions on state and operands alone): stkCommit,
where BAR0 takes writes; commitPoint, of a waiting capture of the power block. The choices of the model that it rests on:
log entry 16. (R373, R383, R384, R393, R813, R816, R819, 11_memory_stacks.md) -/
def Obligations.StackCommitsWaitInOrder : Prop :=
  ∀ s : State,
    (∀ k < 8, s.takesWrites = true →
      (s.stkWaits k (s.regs.capture (16 + k)) = true ∨ ¬ s.noneWaits (16 + k) → ∃ t, exec (.stkCommit k) s = .next t ∧
        t = { s with
          regs := { s.regs with captures := s.regs.captures ++ [⟨16 + k, s.regs.capture (16 + k)⟩] }
          stk := t.stk } ∧
        (∀ j, t.stack j = { s.stack j with enteringTest := (s.stack j).enteringTest ||
          (j == k && wantsTest k (s.regs.capture (16 + k)) && (s.stack j).mode == .run) })) ∧
      (s.stkWaits k (s.regs.capture (16 + k)) = false → s.noneWaits (16 + k) → ∃ t r, exec (.stkCommit k) s = .next t ∧
        s.regs.committed r (16 + k) [regStkCtl k, regMarginCtl k, regInjCtl k] [] ∧ r.agree t.regs ∧
        ((s.stack k).mode = .test → bit (s.regs.due (regStkCtl k) 0) 24 = false → (t.stack k).mode = .run) ∧
        ((s.stack k).mode ≠ .test → (t.stack k).mode = (s.stack k).mode) ∧
        (bit (s.regs.due (regStkCtl k) 0) 24 = false →
          bits (t.regs.eff (regStkCtl k) 0) 27 26 = bits (s.regs.eff (regStkCtl k) 0) 27 26) ∧
        bits (t.regs.eff (regStkCtl k) 0) 23 20 = min 8 (bits (s.regs.due (regStkCtl k) 0) 23 20) ∧
        bits (t.regs.eff (regStkCtl k) 0) 15 0 = max 1 (bits (s.regs.due (regStkCtl k) 0) 15 0) ∧
        bits (t.regs.eff (regMarginCtl k) 0) 7 0 = max 1 (bits (s.regs.due (regMarginCtl k) 0) 7 0) ∧
        (∀ j, j ≠ k → t.stack j = s.stack j) ∧ t.host.slots = s.host.slots ∧ t.cells = s.cells ∧ t.fab = s.fab ∧
        t.time = s.time ∧ t.pwr = s.pwr ∧ t.res = { s.res with liveValid := t.res.liveValid })) ∧
    (∀ b, s.noneWaits b → ∃ t, exec (.commitPoint b) s = .next t ∧ t.regs = s.regs ∧ (b ≠ 5 → t = s)) ∧
    (∀ c rest, s.regs.captures = c :: rest → c.block = 5 → (c.vals.map Prod.fst).Nodup →
      ∃ t, exec (.commitPoint 5) s = .next t ∧ t.regs.captures = rest ∧
        (∀ off inst, inst < 65536 → t.regs.shadow off inst = s.regs.shadow off inst) ∧
        (∀ v, (regKey regPwrCtl 0, v) ∈ c.vals →
          bits (t.regs.eff regPwrCtl 0) 27 16 = max 600 (min 2400 (bits v.toNat 27 16)) ∧
          bits (t.regs.eff regPwrCtl 0) 13 8 = max vMin (min vMax (bits v.toNat 13 8)) ∧
          bits (t.regs.eff regPwrCtl 0) 0 0 = bits v.toNat 0 0) ∧
        (∀ v, (regKey regPerfCtl 0, v) ∈ c.vals →
          bits (t.regs.eff regPerfCtl 0) 13 8 = max vMin (min vMax (bits v.toNat 13 8)) ∧
          bits (t.regs.eff regPerfCtl 0) 5 0 = max vMin (min vMax (bits v.toNat 5 0))))

/-- Where BAR0 takes writes each of these answers a next state with exactly the effect named. LOG_CLEAR.UE and LOG_CLEAR.CE
of block b free every entry of that one log. RANGE_CLEAR frees the stack's poisoned-range list, clears RANGE_LOST and the
whole-stack request. AEC_STATUS.STORM_HALT is cleared. CENSUS_CTL.UNFENCE of a domain that has not failed sets its unfence
request; of one that has failed, or of a node that is no domain, only reports change. CTX_CMD.WRITE puts the sixteen
CTX_DATA words into the selected context entry with STATE, PEER and PEER_CTX cut to their widths and the reserved bytes
zero, and changes no other entry. CTX_CMD.READ puts the entry's bytes into CTX_DATA. Completion (the conclusion is exec c s
= next t, under conditions on state and operands alone): logClearUe, logClearCe, rangeClear, stormHaltClear, censusUnfence,
ctxCmdWrite and ctxCmdRead, where BAR0 takes writes. The choices of the model that it rests on: log entries 29 and 41.
(R260, R351, R437, R498, R774, R775, R777) -/
def Obligations.WritesThatClearAndMove : Prop :=
  ∀ s : State, s.takesWrites = true →
    (∀ b < 10, ∃ t, exec (.logClearUe b) s = .next t ∧ t = { s with mem := { s.mem with logs := t.mem.logs } } ∧
      t.errLogs b = { s.errLogs b with ue := [] } ∧ ∀ j, j ≠ b → t.errLogs j = s.errLogs j) ∧
    (∀ b < 10, ∃ t, exec (.logClearCe b) s = .next t ∧ t = { s with mem := { s.mem with logs := t.mem.logs } } ∧
      t.errLogs b = { s.errLogs b with ce := [] } ∧ ∀ j, j ≠ b → t.errLogs j = s.errLogs j) ∧
    (∀ k < 8, ∃ t, exec (.rangeClear k) s = .next t ∧ t = { s with ue := t.ue } ∧
      t.ueOf k = { s.ueOf k with ranges := List.replicate 16 none, lost := false, whole := false } ∧
      ∀ j, j ≠ k → t.ueOf j = s.ueOf j) ∧
    exec .stormHaltClear s = .next { s with aec := { s.aec with stormHalt := false } } ∧
    (∀ n < 65536, ∃ t, exec (.censusUnfence n) s = .next t ∧
      (isDomain n = true → (s.unit n).state ≠ .failed →
        t = { s with mgmt := { s.mgmt with domains := t.mgmt.domains } } ∧
        t.domain n = { s.domain n with unfence := true } ∧ ∀ j, j ≠ n → t.domain j = s.domain j) ∧
      (isDomain n = false ∨ (s.unit n).state = .failed → t = s.reported t)) ∧
    (∃ t, exec .ctxCmdWrite s = .next t ∧
      t = ({ s with fab := { s.fab with ctxs := t.fab.ctxs, credited := t.fab.credited } } : State).reported t ∧
      (∀ c, c ≠ s.ctxSel → t.ctx c = s.ctx c) ∧
      t.ctx s.ctxSel =
        natLe 1 (s.regs.eff (regCtxData 0) 0 % 8) ++ natLe 1 (bits (s.regs.eff (regCtxData 0) 0) 15 8)
          ++ natLe 2 (bits (s.regs.eff (regCtxData 0) 0) 30 16) ++ natLe 4 (s.regs.eff (regCtxData 1) 0 % 2 ^ 18)
          ++ natLe 4 (s.regs.eff (regCtxData 2) 0) ++ natLe 4 (s.regs.eff (regCtxData 3) 0 % 65536)
          ++ natLe 4 (s.regs.eff (regCtxData 4) 0) ++ natLe 4 (s.regs.eff (regCtxData 5) 0)
          ++ natLe 4 (s.regs.eff (regCtxData 6) 0) ++ natLe 4 (s.regs.eff (regCtxData 7) 0)
          ++ natLe 4 (s.regs.eff (regCtxData 8) 0) ++ natLe 4 0
          ++ natLe 4 (s.regs.eff (regCtxData 10) 0) ++ natLe 4 (s.regs.eff (regCtxData 11) 0) ++ List.replicate 16 0) ∧
    (∃ t, exec .ctxCmdRead s = .next t ∧ t = { s with regs := t.regs } ∧
      (∀ n < 16, t.regs.shadow (regCtxData n) 0 = field (s.ctx s.ctxSel) (4 * n) 4) ∧
      ∀ off inst, inst < 65536 → (∀ n < 16, (off, inst) ≠ (regCtxData n, 0)) → t.regs.get off inst = s.regs.get off inst)

/-- Where BAR0 takes writes, a write answers a next state. At an address that is no multiple of 4 it is answered Unsupported
and changes nothing else. With partial byte enables, or at an offset that holds no register, it changes nothing but the
clamp counters. A whole write of a register that only stores changes that register alone (in the host block the instance
that RING_SEL names, of PORT_CTL that of PORT_SEL): its RW bits take the value in the shadow, its unshadowed bits in the
effective value too, its W1C bits clear where the value has 1, every other bit stays. Completion (the conclusion is exec c s
= next t, under conditions on state and operands alone): registerWrite, where BAR0 takes writes. The choices of the model
that it rests on: log entry 41. (R13, R548, R809, R812) -/
def Obligations.RegisterWriteStores : Prop :=
  ∀ s : State, s.takesWrites = true → ∀ off v en : Nat,
    (off % 4 ≠ 0 → exec (.registerWrite off v en) s = .next { s with out := s.out ++ [.unsupported] }) ∧
    (off % 4 = 0 → (en % 16 ≠ 15 ∨ isRegister off = false) → ∃ t, exec (.registerWrite off v en) s = .next t ∧
      t = s.reported t ∧ t.out = s.out ∧ t.host.events = s.host.events ∧
      t.host.clampCount = min (s.host.clampCount + 1) (2 ^ 32 - 1)) ∧
    (en % 16 = 15 → ∀ r, regRow off = some r →
      regNormal off ∉ [regEnumSel, regCoreSel, regSigSel, regCtrSel, regRailSel, regMnodeSel, regBbSel, regTmLogSel 0,
        regStkLogSel 0, regRangeSel 0, regMarginCtl 0] →
      ∀ inst, inst = (if off / 0x1000 = 0x10 ∧ off ≠ regRingSel then s.regs.shadow regRingSel 0 % 256
        else if off = regPortCtl then s.regs.shadow regPortSel 0 % 16 else 0) →
      (off = regPortCtl → 12 ≤ inst → exec (.registerWrite off v en) s = .next s) ∧
      ((off = regPortCtl → inst < 12) → ∃ t, exec (.registerWrite off v en) s = .next t ∧ t = { s with regs := t.regs } ∧
        s.regs.only t.regs off inst ∧
        (t.regs.get off inst).shadow = mergeBits (s.regs.get off inst).shadow (BitVec.ofNat 32 v) (BitVec.ofNat 32 r.rw)
          &&& ~~~(BitVec.ofNat 32 v &&& BitVec.ofNat 32 r.w1c) ∧
        (t.regs.get off inst).eff = mergeBits (s.regs.get off inst).eff (BitVec.ofNat 32 v) (BitVec.ofNat 32 (r.rw - r.sh))
          &&& ~~~(BitVec.ofNat 32 v &&& BitVec.ofNat 32 r.w1c)))

/-- Where BAR0 takes writes, a whole write of a selector, a COMMIT, a clear or a command register by REGISTER_WRITE is the
command of the table that stands for it: the list in the statement pairs each register offset and value with its command
(the seven selectors of the low blocks, LOG_SEL and RANGE_SEL with any 32-bit value; each COMMIT, CTR_CMD.LATCH, DBG_CTL,
RS_CMD, CTX_CMD, CENSUS_CTL.NOW, STORM_HALT, LOG_CLEAR and RANGE_CLEAR with the value that asks for it). The choices of the
model that it rests on: log entry 41. (R13, R64, R702, R813, 95_what_each_step_holds.md) -/
def Obligations.RegisterWriteIsTheCommand : Prop :=
  ∀ s : State, s.takesWrites = true →
    (∀ v < 2 ^ 32, ∀ oc ∈ [(0x1004, Instr.enumSel v), (0x5010, .coreSel v), (0x5018, .sigSel v), (0x5034, .ctrSel v),
        (0x601C, .railSel v), (0x700C, .mnodeSel v), (0x7018, .bbSel v), (0x30008, .logSel 0 v), (0x31008, .logSel 1 v),
        (0x40028, .logSel 2 v), (0x47028, .logSel 9 v), (0x50004, .rangeSel 0 v), (0x57004, .rangeSel 7 v)],
      exec (.registerWrite oc.1 v 15) s = exec oc.2 s) ∧
    (∀ x ∈ [(0x105C, 1, Instr.unitTreeCommit), (0x200C, 2 ^ 30, .stormHaltClear), (0x2014, 1, .aecCommit),
        (0x3010, 1, .tfCommit), (0x4040, 1, .recover), (0x4040, 2, .rebuild), (0x4040, 3, .adopt), (0x4040, 4, .resume),
        (0x4040, 5, .hold), (0x4058, 1, .rsCommit), (0x5000, 1, .dbgCtlHalt), (0x5000, 2, .dbgCtlResume),
        (0x5000, 4, .dbgCtlForceFatal), (0x504C, 1, .ctrCmdLatch), (0x507C, 1, .obsCommit), (0x6024, 1, .pwrCommit),
        (0x7004, 2 ^ 31, .censusNow), (0x8028, 1, .rstCommit), (0x10044, 1, .hostCommit), (0x20034, 2, .ctxCmdWrite),
        (0x20034, 1, .ctxCmdRead), (0x2009C, 1, .fabCommit), (0x3000C, 1, .logClearCe 0), (0x3100C, 2, .logClearUe 1),
        (0x3003C, 1, .tmCommit 0), (0x3103C, 1, .tmCommit 1), (0x40024, 1, .stkCommit 0), (0x47024, 1, .stkCommit 7),
        (0x4002C, 1, .logClearCe 2), (0x4702C, 2, .logClearUe 9), (0x50008, 1, .rangeClear 0), (0x57008, 1, .rangeClear 7)],
      exec (.registerWrite x.1 x.2.1 15) s = exec x.2.2 s)

/-- Where BAR0 does not take writes (READY is 0, BAR0 is not yet there, a reset runs, or power is lost) every command that
is a write of BAR0 answers the state unchanged, clamp counter included: the selectors, the COMMITs, the clears, the command
registers, RST_CTL and REGISTER_WRITE. The choices of the model that it rests on: log entry 41. (R811, R792, R800) -/
def Obligations.WritesIgnoredUntilReady : Prop :=
  ∀ s : State, s.takesWrites = false → ∀ a v e : Nat, ∀ l : List Nat,
    ∀ c ∈ [Instr.enumSel v, .sigSel v, .ctrSel v, .coreSel v, .railSel v, .mnodeSel v, .bbSel v, .logSel a v, .rangeSel a v,
        .unitTreeCommit, .aecCommit, .tfCommit, .rsCommit, .obsCommit, .pwrCommit, .rstCommit, .hostCommit, .fabCommit,
        .tmCommit a, .stkCommit a, .logClearUe a, .logClearCe a, .rangeClear a, .stormHaltClear, .censusNow, .censusUnfence a,
        .ctxCmdWrite, .ctxCmdRead, .ctrCmdLatch, .recover, .rebuild, .adopt, .resume, .hold, .dbgCtlHalt, .dbgCtlResume,
        .dbgCtlForceFatal, .marginStart a, .rstCtlWarm v l, .rstCtlPowerdown v, .registerWrite a v e],
      exec c s = .next s

/-- With the host interface open (BAR0 readable, no reset running, power present, not in D3hot), for a ring below 256:
SQ_TAIL records v[15:0] modulo the ring size as the tail, with one clamp where it is not below the size, and of an enabled
ring without error reads from host memory every covered entry, among the sixteen from the head, of which no current copy is
held; SQ_REFETCH_TIMER does the same reads with the tail as it is; each such entry then stands in the ring's list of reads
that a failure counts for; no other ring and nothing but that list, the ring's held copies, the list of entries found not
current and reports changes, and copies are only dropped. CQ_HEAD records the head likewise, with the same clamp rule, and
ends the wait, and an URGENT record's claim, where nothing is left unconsumed. CQ_ARM with bit 0 clear changes nothing; with
it set the ring is armed and its wait starts now where records are unconsumed, or, where COUNT is reached or an URGENT
record has been written since the last signal, the vector is signalled at once and the ring is not armed. Completion (the
conclusion is exec c s = next t, under conditions on state and operands alone): sqTail, sqRefetchTimer, cqHead and cqArm,
with the host interface open, of a ring below 256. The choices of the model that it rests on: log entry 40. (R553, R554,
R557, R558, R570, R574, R575, 15_host_rings_and_flow_control.md) -/
def Obligations.DoorbellsMoveRings : Prop :=
  ∀ s : State, s.hostOpen = true → ∀ r < 256, ∀ v : Nat,
    (∀ ct ∈ [(Instr.sqTail r v, v % 65536 % ringSize (s.sqCfg r)), (.sqRefetchTimer r, (s.sqRing r).tail)],
      ∃ t, exec ct.1 s = .next t ∧
        t = ({ s with host := { s.host with sq := t.host.sq } } : State).reported t ∧ t.host.events = s.host.events ∧
        (∀ q, q ≠ r → t.sqRing q = s.sqRing q) ∧
        t.sqRing r = { s.sqRing r with
          tail := ct.2, copies := (t.sqRing r).copies, reading := (t.sqRing r).reading
          stale := (t.sqRing r).stale } ∧
        (∀ c ∈ (t.sqRing r).copies, c ∈ (s.sqRing r).copies) ∧
        (bit (s.sqCfg r) 31 = true → (s.sqRing r).error = false → ∀ j < min 16 (t.covered r), s.currentCopy r j = none →
          .hostRead (s.sqBase r + 64 * (((s.sqRing r).head + j) % ringSize (s.sqCfg r))) 64 ∈ t.out.drop s.out.length ∧
            ((s.sqRing r).head + j) % ringSize (s.sqCfg r) ∈ (t.sqRing r).reading)) ∧
    (∃ t, exec (.sqTail r v) s = .next t ∧ t.host.clampCount =
      (if ringSize (s.sqCfg r) ≤ v % 65536 then min (s.host.clampCount + 1) (2 ^ 32 - 1) else s.host.clampCount)) ∧
    (∃ t, exec (.cqHead r v) s = .next t ∧
      t = ({ s with host := { s.host with cq := t.host.cq } } : State).reported t ∧ t.out = s.out ∧
      (∀ q, q ≠ r → t.cqRing q = s.cqRing q) ∧
      t.cqRing r = { s.cqRing r with
        head := v % 65536 % ringSize (s.cqCfg r)
        since := if v % 65536 % ringSize (s.cqCfg r) = (s.cqRing r).tail then none else (s.cqRing r).since
        urgent := (s.cqRing r).urgent && v % 65536 % ringSize (s.cqCfg r) != (s.cqRing r).tail } ∧
      t.host.clampCount =
        (if ringSize (s.cqCfg r) ≤ v % 65536 then min (s.host.clampCount + 1) (2 ^ 32 - 1) else s.host.clampCount)) ∧
    (v % 2 = 0 → exec (.cqArm r v) s = .next s) ∧
    (v % 2 = 1 → ∃ t, exec (.cqArm r v) s = .next t ∧
      t = ({ s with host := { s.host with cq := t.host.cq, msix := t.host.msix } } : State).reported t ∧
      (∀ q, q ≠ r → t.cqRing q = s.cqRing q) ∧
      ((s.cqRing r).urgent = false →
          (bits (s.regs.eff regCqMod r) 31 24 = 0 ∨ s.unconsumed r < bits (s.regs.eff regCqMod r) 31 24) →
        t.out = s.out ∧ t.host.msix = s.host.msix ∧
        t.cqRing r = { s.cqRing r with armed := true, since := if s.unconsumed r = 0 then none else some s.time.beats }) ∧
      ((s.cqRing r).urgent = true ∨
          (bits (s.regs.eff regCqMod r) 31 24 ≠ 0 ∧ bits (s.regs.eff regCqMod r) 31 24 ≤ s.unconsumed r) →
        t.cqRing r = { s.cqRing r with armed := false, since := none, urgent := false } ∧
        (s.vectorMasked (s.cqCfg r % 2048) = false → t.out = s.out ++ [.msix (s.cqCfg r % 2048)]) ∧
        (s.vectorMasked (s.cqCfg r % 2048) = true → t.out = s.out ∧
          (mget MsixEntry.reset t.host.msix (s.cqCfg r % 2048)).pending = true)))

/-- SUBMISSION_READ_COMPLETE, host interface open: AER logs a completion timeout (error 2, status bit 14) or a poisoned
completion (error 3, bit 12). On a ring that is disabled or in ERROR only that and a counter change. On an enabled ring
without error: without an error every 64-byte entry of the data that lies within sixteen of the head is held as the copy of
its index (the latest of equal indexes), with an error the ring enters ERROR and one event is posted where an entry read was
covered when its read was issued, and otherwise only that counter; either way the entries leave the ring's list of reads in
flight, and nothing else changes. DESCRIPTOR_ACCEPT where new work is taken, some ring may give an entry and a slot is free:
the ring r served may be served, none of higher PRIO may, the lowest free slot holds r's head entry, waiting, with its ring,
index and position, the head moves on modulo the ring size with the lap, the entry's copy is dropped, and (not in D3hot)
each covered entry that comes within sixteen of the head, never read before, is read; no other ring or slot changes. Where
no ring may give an entry, or no slot is free, or no work is taken, nothing changes. Completion (the conclusion is exec c s
= next t, under conditions on state and operands alone): submissionReadComplete, with the host interface open, of an enabled
ring; descriptorAccept, where a ring may give an entry and a slot is free. The choices of the model that it rests on: log
entry 40. (R547, R555, R557, R562, R564, R565, R551) -/
def Obligations.EntriesAreHeldAndAccepted : Prop :=
  ∀ s : State,
    (∀ r < 256, ∀ i e : Nat, ∀ data : List Byte, s.hostOpen = true → ∃ t, exec (.submissionReadComplete r i data e) s = .next t ∧
      t = ({ s with host := { s.host with sq := t.host.sq }, rst := { s.rst with config := t.rst.config } } : State).reported t ∧
      (e ≠ 2 → e ≠ 3 → t.rst = s.rst) ∧
      (e = 2 → bit (t.configAt 65) 14 = true) ∧ (e = 3 → bit (t.configAt 65) 12 = true) ∧
      (bit (s.sqCfg r) 31 = false ∨ (s.sqRing r).error = true → t.out = s.out ∧ t.host = s.host) ∧
      (bit (s.sqCfg r) 31 = true → (s.sqRing r).error = false →
        (∀ q, q ≠ r → t.sqRing q = s.sqRing q) ∧
        (∀ x, x ∈ (t.sqRing r).reading ↔ x ∈ (s.sqRing r).reading ∧
          ∀ j < max 1 (data.length / 64), x ≠ (i + j) % ringSize (s.sqCfg r)) ∧
        (e = 0 → t.out = s.out ∧ t.sqRing r = { s.sqRing r with copies := (t.sqRing r).copies, reading := (t.sqRing r).reading } ∧
          (∀ n, data.length = 64 * n → n ≤ ringSize (s.sqCfg r) → ∀ j < n,
            (i + j + ringSize (s.sqCfg r) - (s.sqRing r).head) % ringSize (s.sqCfg r) < 16 →
            ((i + j) % ringSize (s.sqCfg r), (data.drop (64 * j)).take 64) ∈ (t.sqRing r).copies ∧
            ∀ c ∈ (t.sqRing r).copies, c.1 = (i + j) % ringSize (s.sqCfg r) → c.2 = (data.drop (64 * j)).take 64)) ∧
        (e ≠ 0 → t.sqRing r = { s.sqRing r with error := (t.sqRing r).error, reading := (t.sqRing r).reading } ∧
          ((t.sqRing r).error = true ↔ ∃ j < max 1 (data.length / 64),
            (i + j) % ringSize (s.sqCfg r) ∈ (s.sqRing r).reading)))) ∧
    (s.acceptsWork = true → (∃ r < 256, s.mayAccept r = true) → (∃ k < 4096, s.slot k = none) →
      ∃ t r k d, exec .descriptorAccept s = .next t ∧ r < 256 ∧ k < 4096 ∧ s.mayAccept r = true ∧ s.slot k = none ∧
        s.currentCopy r 0 = some d ∧
        (∀ q < 256, s.mayAccept q = true → bits (s.sqCfg q) 30 29 ≤ bits (s.sqCfg r) 30 29) ∧
        (∀ j < k, s.slot j ≠ none) ∧
        t = ({ s with host := { s.host with
          sq := t.host.sq, slots := t.host.slots, accepted := s.host.accepted + 1, lastServed := t.host.lastServed } } : State).reported t ∧
        (∀ j, j ≠ k → t.slot j = s.slot j) ∧
        t.slot k = some ⟨.waiting, d, r, (s.sqRing r).head, (s.sqRing r).accepted, [], 0, false, 0, [], [], none,
          s.host.accepted, 0, 0, false, 0, none, [], [], [], [], none⟩ ∧
        (∀ q, q ≠ r → t.sqRing q = s.sqRing q) ∧
        t.sqRing r = { s.sqRing r with
          head := ((s.sqRing r).head + 1) % ringSize (s.sqCfg r)
          lap := (s.sqRing r).lap + (if (s.sqRing r).head + 1 = ringSize (s.sqCfg r) then 1 else 0)
          accepted := (s.sqRing r).accepted + 1
          copies := (s.sqRing r).copies.filter (fun c => c.1 != (s.sqRing r).head)
          behind := s.chainedBehind r (s.sqRing r).accepted d
          stale := (s.sqRing r).stale.filter (fun i => i != (s.sqRing r).head)
          reading := (t.sqRing r).reading } ∧
        (s.d3hot = false → ∀ j < min 16 (t.covered r), ∀ i, i = ((t.sqRing r).head + j) % ringSize (s.sqCfg r) →
          (∀ c ∈ (s.sqRing r).copies, c.1 ≠ i) → i ∉ (s.sqRing r).reading → i ∉ (s.sqRing r).stale →
          .hostRead (s.sqBase r + 64 * i) 64 ∈ t.out.drop s.out.length)) ∧
    ((s.acceptsWork = false ∨ (∀ r < 256, s.mayAccept r = false) ∨ (∀ k < 4096, s.slot k ≠ none)) →
      exec .descriptorAccept s = .next s)

/-- COMPLETION_RECORD_WRITE to ring c, where BAR0 is there, no FATAL, no node stop and no memory hold stands, the ring has
room and a record waits for it: of the slots whose records wait, one with the least place in completion order is freed;
unless it is QUIET its 16 bytes go to the ring's tail address with bit 0 of byte 3 the phase of the lap, and the tail moves
on modulo the ring size. Where none waits or there is no room nothing changes. EVENT_RECORD_WRITE where ring 0 has room and
an event waits: the oldest event leaves the buffer and goes to ring 0 in the same way. No other slot or ring changes.
MSIX_TIMER on an armed ring whose oldest record has waited TIME x 1 024 beats (TIME not zero): the ring is not armed and
waits no more, and its vector's message is sent, or its pending bit set where it is masked; before that time nothing
changes. Completion (the conclusion is exec c s = next t, under conditions on state and operands alone):
completionRecordWrite and eventRecordWrite, where the ring has room and a record waits; msixTimer, of an armed ring whose
time has passed. The choices of the model that it rests on: log entries 8 and 40. (R551, R568, R570, R573, R574, R584) -/
def Obligations.RecordsGoToRings : Prop :=
  ∀ s : State, ∀ c < 256,
    (s.rst.bar0 = true → s.cores.fatal = false → s.nodesStopped = false → s.memHeld = false → s.cqHasRoom c = true →
      (s.waitingRecords c = [] → exec (.completionRecordWrite c) s = .next s) ∧
      (∀ k sl rest, s.waitingRecords c = (k, sl) :: rest → ∃ t, exec (.completionRecordWrite c) s = .next t ∧
        (k, some sl) ∈ s.host.slots ∧ (∀ x ∈ rest, sl.order ≤ x.2.order) ∧
        t.slot k = none ∧ (∀ j, j ≠ k → t.slot j = s.slot j) ∧
        t.regs = s.regs ∧ t.mem = { s.mem with buffered := t.mem.buffered } ∧ t.tree = s.tree ∧ t.cells = s.cells ∧
        t.fab = s.fab ∧ t.coll = s.coll ∧
        t.tf = s.tf ∧ t.res = s.res ∧ t.time = s.time ∧ t.host.sq = s.host.sq ∧ (∀ q, q ≠ c → t.cqRing q = s.cqRing q) ∧
        (sl.quiet = true → t.out = s.out ∧ t.cqRing c = s.cqRing c) ∧
        (sl.quiet = false →
          (∃ more, t.out = s.out ++ .hostWrite (s.cqBase c + 16 * (s.cqRing c).tail)
            (patch sl.record 3 (natLe 1 (field sl.record 3 1 / 2 * 2 + (if (s.cqRing c).lap % 2 = 0 then 1 else 0)))) false :: more) ∧
          (t.cqRing c).tail = ((s.cqRing c).tail + 1) % ringSize (s.cqCfg c) ∧ (t.cqRing c).head = (s.cqRing c).head ∧
          (t.cqRing c).lap = (s.cqRing c).lap + (if (s.cqRing c).tail + 1 = ringSize (s.cqCfg c) then 1 else 0)))) ∧
    (s.cqHasRoom c = false → exec (.completionRecordWrite c) s = .next s) ∧
    (s.rst.bar0 = true → s.rst.stoppedAll = false → s.rst.state ≠ 4 → s.cqHasRoom 0 = true →
      ∀ rec' rest, s.host.events = rec' :: rest → ∃ t more w, exec .eventRecordWrite s = .next t ∧
        t.out = s.out ++ .hostWrite (s.cqBase 0 + 16 * (s.cqRing 0).tail) w false :: more ∧
        (rec'.length = 16 → (∀ n < 16, n ≠ 3 → w[n]? = rec'[n]?) ∧
          field w 3 1 % 2 = if (s.cqRing 0).lap % 2 = 0 then 1 else 0) ∧
        (s.rst.state ≠ 2 → s.rst.readyPosted = false → t.host.events = rest ∧ t.host.lostNext = false) ∧
        (t.cqRing 0).tail = ((s.cqRing 0).tail + 1) % ringSize (s.cqCfg 0) ∧
        t.host.slots = s.host.slots ∧ t.host.sq = s.host.sq ∧ t.regs = s.regs ∧ t.tree = s.tree ∧
        t.mem = { s.mem with buffered := t.mem.buffered }) ∧
    (∀ b, (s.cqRing c).since = some b →
      (s.rst.bar0 = true → (s.cqRing c).armed = true → s.regs.eff regCqMod c % 65536 ≠ 0 →
        b + s.regs.eff regCqMod c % 65536 * 1024 ≤ s.time.beats → ∃ t, exec (.msixTimer c) s = .next t ∧
          t = ({ s with host := { s.host with cq := t.host.cq, msix := t.host.msix } } : State).reported t ∧
          (∀ q, q ≠ c → t.cqRing q = s.cqRing q) ∧
          t.cqRing c = { s.cqRing c with armed := false, since := none, urgent := false } ∧
          (s.vectorMasked (s.cqCfg c % 2048) = false → t.out = s.out ++ [.msix (s.cqCfg c % 2048)]) ∧
          (s.vectorMasked (s.cqCfg c % 2048) = true → t.out = s.out ∧
            (mget MsixEntry.reset t.host.msix (s.cqCfg c % 2048)).pending = true)) ∧
      (s.time.beats < b + s.regs.eff regCqMod c % 65536 * 1024 → exec (.msixTimer c) s = .next s))

/-- With BAR4 present, where BAR0 answers (readable, no reset running, power present, not in D3hot), for a request that PCI
Express permits that lies in tier memory. While the memory of its die holds (R745) neither changes anything. Else BAR4_READ
answers one read completion with the stored bytes: not poisoned, and nothing else changes, where every granule touched has
fresh check bits; poisoned where some granule touched holds the poison mark. BAR4_WRITE, where every granule touched has
fresh check bits, no flip mask waits and the live state is not vouched for: the bytes read back are those written, every
byte outside the range and every check-bit difference is as before, and nothing else changes. Above tier memory a read
returns zero bytes and a write is dropped with one clamp; where BAR0 does not answer or BAR4 is absent a read is answered
Unsupported and a write dropped. The data of a Poisoned TLP, under the same conditions, leaves every granule touched
poisoned, and AER logs it (status bit 12). Completion (the conclusion is exec c s = next t, under conditions on state and
operands alone): bar4Read and bar4Write, of tier memory that does not hold. The choices of the model that it rests on: log
entries 40 and 44. (R324, R337, R549, R332, 10_tier_memory_and_protection.md) -/
def Obligations.Bar4ReadsAndWrites : Prop :=
  ∀ s : State, ∀ a : Nat,
    (s.mgmt.bar4 = true → s.bar0Open = true →
      (∀ n, ∀ data : HostData, bar4Ok a n = true → bar4Ok a data.bytes.length = true → a < tierEnd → s.sramHeld (dieOfAddr a) = true →
        exec (.bar4Read a n) s = .next s ∧ exec (.bar4Write a data) s = .next s) ∧
      (∀ n, bar4Ok a n = true → a < tierEnd → s.sramHeld (dieOfAddr a) = false →
        ((∀ u ∈ unitsOf a n, mget 0 s.mem.marks u.1 = 0) →
          exec (.bar4Read a n) s = .next { s with out := s.out ++ [.readData (s.rawBytes a n) false] }) ∧
        ((∃ u ∈ unitsOf a n, mget 0 s.mem.marks u.1 = 255) → ∃ t bs, exec (.bar4Read a n) s = .next t ∧
          t.out = s.out ++ [.readData bs true] ∧ bs.length = n)) ∧
      (∀ data : List Byte, bar4Ok a data.length = true → a < tierEnd → s.sramHeld (dieOfAddr a) = false →
        s.res.liveValid = false → (∀ d < 2, bit (s.regs.eff (regFlipCtl d) 0) 16 = false) →
        ∃ t, exec (.bar4Write a ⟨data, true⟩) s = .next t ∧ bit (t.configAt 65) 12 = true ∧
          ∀ u ∈ unitsOf a data.length, mget 0 t.mem.marks u.1 = 255) ∧
      (∀ data : List Byte, bar4Ok a data.length = true → a < tierEnd → s.sramHeld (dieOfAddr a) = false →
        (∀ u ∈ unitsOf a data.length, mget 0 s.mem.marks u.1 = 0) → s.res.liveValid = false →
        (∀ d < 2, bit (s.regs.eff (regFlipCtl d) 0) 16 = false) →
        ∃ t, exec (.bar4Write a ⟨data, false⟩) s = .next t ∧ t = { s with mem := { s.mem with cells := t.mem.cells, marks := t.mem.marks } } ∧
          t.rawBytes a data.length = data ∧ (∀ b, (b < a ∨ a + data.length ≤ b) → t.byte b = s.byte b) ∧
          ∀ b, mget 0 t.mem.marks b = mget 0 s.mem.marks b) ∧
      (∀ n, bar4Ok a n = true → tierEnd ≤ a →
        exec (.bar4Read a n) s = .next { s with out := s.out ++ [.readData (List.replicate n 0) false] }) ∧
      (∀ data : HostData, bar4Ok a data.bytes.length = true → tierEnd ≤ a → ∃ t, exec (.bar4Write a data) s = .next t ∧
        t = s.reported t ∧ t.out = s.out ∧ t.host.clampCount = min (s.host.clampCount + 1) (2 ^ 32 - 1))) ∧
    ((s.mgmt.bar4 = false ∨ s.bar0Open = false) →
      (∀ n, exec (.bar4Read a n) s = .next { s with out := s.out ++ [.unsupported] }) ∧
      ∀ data, exec (.bar4Write a data) s = .next s)

/-- A descriptor command waits in its slot, unchanged, while something holds it (HOLD, FATAL, a halt, its wait mask, STEP
order, an image pass, a memory hold, a full piece queue). When nothing holds it and it is not a held one of Timetable mode,
DESCRIPTOR_DISPATCH: an unknown opcode, a target that names no node, a spare, or a node that does not accept the class
completes with ABORTED and NODE 0xFFFF; a node that is fenced, failed, retired or spare, or below which nothing can take the
class, completes it with FENCED at that node, of a group at its lowest child of the class; so does, at the child that holds
it, a stack whose engines a root or die would pass the work to; otherwise, where it needs no extension block, the slot is
running from this moment, with the barred units and the leaves of its pieces settled, and the descriptor is as it was. In
Timetable mode a held descriptor is dispatched no sooner than its planned start (DESCRIPTOR_DISPATCH and HELD_RELEASE leave
it till then). At or after its planned start HELD_RELEASE completes: with a node that can take it and no extension block,
the slot is running and holds its plan, the planned start and a planned completion at least 128 beats later (128 and the
handshake count of its owning chapter's rule divided by PLAN, where there is one), which the node's next planned start takes
in. In Timetable mode the two commands do the same; outside it HELD_RELEASE changes nothing. While an image pass runs or is
due the state and image lists are first read, with corrections. No other slot changes. Completion (the conclusion is exec c
s = next t, under conditions on state and operands alone): descriptorDispatch, where nothing holds the descriptor and it is
not a held one; heldRelease, of a held one at or after its planned start. The choices of the model that it rests on: log
entries 13, 47 and 57. (R34, R42, R43, R44, R565, R585, R588, R618, R619, R628, R635, R637) -/
def Obligations.DispatchGoesToTheNode : Prop :=
  ∀ (s0 s : State) (k : Nat), s = (if s0.res.imaging || s0.res.due then s0.readLists else s0) →
    (∀ c ∈ [Instr.descriptorDispatch k, .heldRelease k],
      (s.slot k = none → exec c s0 = .next s0) ∧
      (∀ sl, s.slot k = some sl → s.mayDispatch k sl = false → exec c s0 = .next s) ∧
      (∀ sl, s.slot k = some sl → s.tf.timetable = true → s.heldClass sl.desc = true → s.time.now < s.plannedStart sl →
        exec c s0 = .next s) ∧
      ∃ t, exec c s0 = .next t ∧ ∀ j, j ≠ k → t.slot j = s.slot j) ∧
    (s.tf.timetable = false → exec (.heldRelease k) s0 = .next s0) ∧
    (s.tf.timetable = true → exec (.heldRelease k) s0 = exec (.descriptorDispatch k) s0) ∧
    (∀ sl cls p, s.slot k = some sl → s.mayDispatch k sl = true → s.tree.ready = true → s.tf.timetable = true →
      s.heldClass sl.desc = true → s.plannedStart sl ≤ s.time.now → opClass (opcodeOf sl.desc) = some cls →
      s.placeOf (targetOf sl.desc) = some p → targetOf sl.desc < 0xF000 → bit p.classes cls = true →
      (s.unit (s.unitOf (targetOf sl.desc))).usable = true → s.canTake (s.barredNow.filter (· != s.unitOf (targetOf sl.desc))) treeFuel cls (targetOf sl.desc) = true →
      s.enginesFenced (s.barredNow.filter (· != s.unitOf (targetOf sl.desc))) sl.desc = false →
      needsExt sl.desc = false → ∃ t due, exec (.heldRelease k) s0 = .next t ∧
        t.slot k = some { sl with
          phase := .running, since := s.time.timer, dispatched := s.host.dispatches, plan := some (s.plannedStart sl, due)
          barred := s.barredNow.filter (· != s.unitOf (targetOf sl.desc))
          leaves := s.pieceLeaves (s.barredNow.filter (· != s.unitOf (targetOf sl.desc))) sl.desc } ∧
        (∀ n, s.handshakeCount sl = some n → due = s.plannedStart sl + 128 +
          (n * 1000 + max 1 (bits (s.regs.eff regTfCtl 0) 31 16) - 1) / max 1 (bits (s.regs.eff regTfCtl 0) 31 16)) ∧
        s.plannedStart sl + 128 ≤ due ∧ mget 0 t.tf.nodePlan (targetOf sl.desc) = due ∧
        ((s.unit (s.unitOf (targetOf sl.desc))).state = .idle → (t.unit (s.unitOf (targetOf sl.desc))).state = .busy) ∧
        (∀ u, u ≠ s.unitOf (targetOf sl.desc) → t.unit u = s.unit u) ∧
        t = ({ s with
          taken := s.taken + (if (s.handshakeCount sl).isSome then 0 else 1)
          host := { s.host with slots := t.host.slots, dispatches := s.host.dispatches + 1 }
          tree := { s.tree with units := t.tree.units }
          tf := { s.tf with nodePlan := t.tf.nodePlan } } : State).reported t) ∧
    (∀ sl, s.slot k = some sl → s.mayDispatch k sl = true → s.tree.ready = true →
      (s.tf.timetable = false ∨ s.heldClass sl.desc = false) →
      ((opClass (opcodeOf sl.desc) = none ∨ s.placeOf (targetOf sl.desc) = none ∨ 0xF000 ≤ targetOf sl.desc ∨
          (∃ cls p, opClass (opcodeOf sl.desc) = some cls ∧ s.placeOf (targetOf sl.desc) = some p ∧ bit p.classes cls = false)) →
        ∃ t sl', exec (.descriptorDispatch k) s0 = .next t ∧ t.slot k = some sl' ∧ sl'.phase = .done ∧ sl'.desc = sl.desc ∧
          sl'.record = completionRecord sl.desc .aborted 0xFFFF 0 s.stamp) ∧
      (∀ cls p, opClass (opcodeOf sl.desc) = some cls → s.placeOf (targetOf sl.desc) = some p → targetOf sl.desc < 0xF000 →
        bit p.classes cls = true →
        ((s.unit (s.unitOf (targetOf sl.desc))).usable = false ∨ s.canTake (s.barredNow.filter (· != s.unitOf (targetOf sl.desc))) treeFuel cls (targetOf sl.desc) = false →
          ∃ t sl', exec (.descriptorDispatch k) s0 = .next t ∧ t.slot k = some sl' ∧ sl'.phase = .done ∧ sl'.desc = sl.desc ∧
            sl'.record = completionRecord sl.desc .fenced (s.firstChild cls (targetOf sl.desc)) 0 s.stamp) ∧
        ((s.unit (s.unitOf (targetOf sl.desc))).usable = true → s.canTake (s.barredNow.filter (· != s.unitOf (targetOf sl.desc))) treeFuel cls (targetOf sl.desc) = true →
          s.enginesFenced (s.barredNow.filter (· != s.unitOf (targetOf sl.desc))) sl.desc = true →
            ∃ t sl', exec (.descriptorDispatch k) s0 = .next t ∧ t.slot k = some sl' ∧ sl'.phase = .done ∧ sl'.desc = sl.desc ∧
              sl'.record = completionRecord sl.desc .fenced (s.childOf (targetOf sl.desc) (ueNode sl.desc)) 0 s.stamp) ∧
        ((s.unit (s.unitOf (targetOf sl.desc))).usable = true →
          s.canTake (s.barredNow.filter (· != s.unitOf (targetOf sl.desc))) treeFuel cls (targetOf sl.desc) = true →
          s.enginesFenced (s.barredNow.filter (· != s.unitOf (targetOf sl.desc))) sl.desc = false →
          needsExt sl.desc = false → ∃ t, exec (.descriptorDispatch k) s0 = .next t ∧
            t.slot k = some { sl with
              phase := .running, since := s.time.timer, dispatched := s.host.dispatches
              barred := s.barredNow.filter (· != s.unitOf (targetOf sl.desc))
              leaves := s.pieceLeaves (s.barredNow.filter (· != s.unitOf (targetOf sl.desc))) sl.desc } ∧
            ((s.unit (s.unitOf (targetOf sl.desc))).state = .idle → (t.unit (s.unitOf (targetOf sl.desc))).state = .busy) ∧
            (∀ u, u ≠ s.unitOf (targetOf sl.desc) → t.unit u = s.unit u) ∧
            t = ({ s with
              host := { s.host with slots := t.host.slots, dispatches := s.host.dispatches + 1 }
              tree := { s.tree with units := t.tree.units } } : State).reported t)))

/-- PLANNED_COMPLETION of slot k reports every unreported completion of a held descriptor of that slot whose planned
completion Station Time has reached, and GRID_COMPLETION every one of a grid descriptor whose grid line has been reached. No
other completion is reported, and nothing else changes. A descriptor that names the position in its wait mask is then no
longer held by it. Completion (the conclusion is exec c s = next t, under conditions on state and operands alone):
plannedCompletion and gridCompletion, in every state (they report what is due). The choices of the model that it rests on:
log entries 8 and 47. (R637, R638, R635, 17_training_flow_and_determinism.md) -/
def Obligations.CompletionsAreReportedInTime : Prop :=
  ∀ (s : State) (k : Nat),
    (∀ ch ∈ [(Instr.plannedCompletion k, true), (.gridCompletion k, false)], ∃ t, exec ch.1 s = .next t ∧
      t = { s with tf := { s.tf with unreported := t.tf.unreported } } ∧
      (∀ slot ring seq due held, (slot, ring, seq, due, held) ∈ t.tf.unreported ↔
        (slot, ring, seq, due, held) ∈ s.tf.unreported ∧ ¬ (slot = k ∧ held = ch.2 ∧ due ≤ s.time.now)) ∧
      ∀ ring seq, s.seqDone ring seq = true → t.seqDone ring seq = true)

/-- Where slot k runs a descriptor at a node, nothing has stopped the nodes, memory does not hold, no earlier descriptor
must run first and no halted node holds pieces of it, LOADW (with any datapath errors), DRAIN, STATS, QUANT, ROTATE, VEC,
REDUCE, DIGEST and CHECK of slot k, each on a descriptor of its opcode, answer a next state in which the slot holds the
descriptor's completion record (TAG, a status, a node, a value and the present stamp). Where the ranges that it names lie
where the spec lets it reach (rangesLegal), each, and SCRUB and MATMUL too, has run and is not ABORTED: its status is OK,
INEXACT, POISON, WIDENED, or FENCED for pieces with no leaf to run them. So do MATMUL without DRAIN_CHAIN (with any datapath
errors), NOP, FENCE, and SCRUB where no stack makes it wait (else it completes so or its slot is as it was); the last two
change no byte of memory, and a FENCE with stack scope leaves no engine write of a stack it names in a write buffer; they
complete OK with VALUE 0, at the target itself where that is a leaf. A MATMUL with DRAIN_CHAIN whose DRAIN has not yet been
accepted waits unchanged. Each leaves every other slot, Station Time, the registers (but those that arm flips), rings,
stacks, ports, collectives, cores, power, management and reset state as they were. A command whose slot runs no descriptor
of its opcode changes nothing. Completion (the conclusion is exec c s = next t, under conditions on state and operands
alone): matmul, loadw, drain, stats, quant, rotate, vec, reduce, check, digest, scrub, nop and fence, with the effect of the
descriptor, where rangesLegal holds (NOP and FENCE need no range). The choices of the model that it rests on: log entries 3,
10, 13, 28, 56 and 57. (R38, R40, R567, R568, R615, R616, R619, 04_matrix_cells.md, 05_accumulation_and_drain.md,
06_quantisation_scales_outliers_rotations.md, 08_vector_engines.md, 10_tier_memory_and_protection.md) -/
def Obligations.LeafDescriptorsComplete : Prop :=
  ∀ (s : State) (k : Nat),
    (∀ sl, s.works k sl → (s.placeOf (targetOf sl.desc)).isSome = true →
      (∀ es : List DatapathError, ∀ c ∈ [(Instr.loadw ⟨k, es⟩, 0x02), (.drain k, 0x03), (.stats k, 0x04), (.quant k, 0x05), (.rotate k, 0x06), (.vec k, 0x10),
          (.reduce k, 0x11), (.digest k, 0x60), (.check k, 0x61)], opcodeOf sl.desc = c.2 →
        ∃ t st node value, exec c.1 s = .next t ∧ s.ended t k sl st node value ∧ Works k s t) ∧
      (∀ es : List DatapathError, ∀ p, s.placeOf (targetOf sl.desc) = some p → s.rangesLegal p sl = true →
        ∀ c ∈ [(Instr.loadw ⟨k, es⟩, 0x02), (.drain k, 0x03), (.stats k, 0x04), (.quant k, 0x05), (.rotate k, 0x06), (.vec k, 0x10),
          (.reduce k, 0x11), (.digest k, 0x60), (.check k, 0x61), (.scrub k, 0x70)]
          ++ (if bit (field sl.desc 45 1) 1 then [] else [(.matmul ⟨k, es⟩, 0x01)]), opcodeOf sl.desc = c.2 →
        ∃ t st node value, exec c.1 s = .next t ∧ s.ended t k sl st node value ∧
          st ∈ [Status.ok, .inexact, .poison, .widened, .fenced]) ∧
      (opcodeOf sl.desc = 0x70 → ∃ t, exec (.scrub k) s = .next t ∧ Works k s t ∧
        ((∀ j < 8, s.stackGoes j = true) → ∃ st node value, s.ended t k sl st node value) ∧
        (t.slot k = some sl ∨ ∃ st node value, s.ended t k sl st node value)) ∧
      (∀ es, opcodeOf sl.desc = 0x01 → bit (field sl.desc 45 1) 1 = false →
        ∃ t st node value, exec (.matmul ⟨k, es⟩) s = .next t ∧ s.ended t k sl st node value ∧ Works k s t) ∧
      (∀ es, opcodeOf sl.desc = 0x01 → bit (field sl.desc 45 1) 1 = true → s.chainNext sl = .notYet →
        exec (.matmul ⟨k, es⟩) s = .next s) ∧
      (∀ c ∈ [(Instr.nop k, 0x7F), (.fence k, 0x50)], opcodeOf sl.desc = c.2 →
        ∃ t node, exec c.1 s = .next t ∧ s.ended t k sl .ok node 0 ∧ Works k s t ∧
          t.mem = { s.mem with buffered := t.mem.buffered } ∧
          (c.2 = 0x7F ∨ field sl.desc 8 1 % 4 = 0 → t.mem = s.mem) ∧
          (c.2 = 0x50 → field sl.desc 8 1 % 4 ≠ 0 → t.mem.buffered =
            s.mem.buffered.filter (fun e => !bit (field sl.desc 9 1) (stackOf e.addr))) ∧
          (∀ p, s.placeOf (targetOf sl.desc) = some p → p.kind ≠ .group → node = targetOf sl.desc))) ∧
    ((∀ sl, s.slot k = some sl → sl.phase = .running → opcodeOf sl.desc ∉
        [0x01, 0x02, 0x03, 0x04, 0x05, 0x06, 0x10, 0x11, 0x40, 0x41, 0x50, 0x60, 0x61, 0x70, 0x7F]) →
      ∀ es : List DatapathError, ∀ n : Nat, ∀ c ∈ [Instr.matmul ⟨k, es⟩, .loadw ⟨k, es⟩, .drain k, .stats k, .quant k, .rotate k, .vec k, .reduce k,
        .update ⟨k, n⟩, .nearvec ⟨k, n⟩, .fence k,
        .digest k, .check k, .scrub k, .nop k], exec c s = .next s)

/-- Where slot k runs an UPDATE (or NEARVEC) descriptor at a node, the command, which has the engines deal with up to n more
of its rows or elements, answers a next state that leaves every other slot, Station Time, the registers (but those that arm
flips), rings, stacks, ports, collectives, cores, power, management and reset state as they were. Where no stack is in
training, held, at throttle level 3, entering TEST state or converting a unit, and n is at least the parts that the
descriptor divides into, the slot then holds the completion record of the descriptor, with TAG, a status, a node, a value
and the present stamp; where moreover the ranges that it names lie where R399, R400 and R422 let it reach, and it has not
begun, that record is no ABORTED: its status is OK, POISON, SEALED or FENCED. Else the slot holds such a record, or still
runs the descriptor. Completion (the conclusion is exec c s = next t, under conditions on state and operands alone): update
and nearvec, where the ranges are legal and no stack makes them wait. The choices of the model that it rests on: log entries
3, 11, 12, 13, 20 and 56. (R399, R400, R401, R402, R422, R428, R373, R377, R619, 12_update_engines.md) -/
def Obligations.UpdatesComplete : Prop :=
  ∀ (s : State) (k : Nat) (sl : Slot), s.works k sl → (s.placeOf (targetOf sl.desc)).isSome = true →
    ∀ n : Nat, ∀ c ∈ [(Instr.update ⟨k, n⟩, 0x40), (.nearvec ⟨k, n⟩, 0x41)], opcodeOf sl.desc = c.2 →
      ∃ t, exec c.1 s = .next t ∧ Moves k s t ∧ t.rst = s.rst ∧ t.fab = s.fab ∧ t.coll = s.coll ∧
        ((∀ j < 8, s.stackGoes j = true) → (match sl.engines with | some p => p.total | none => 2 ^ 40) ≤ n → ∃ st node value, s.ended t k sl st node value) ∧
        (∀ p, s.placeOf (targetOf sl.desc) = some p → s.rangesLegal p sl = true → sl.engines = none → sl.pieces = [] →
          (∀ j < 8, s.stackGoes j = true) → 2 ^ 40 ≤ n →
          ∃ st node value, s.ended t k sl st node value ∧ st ∈ [Status.ok, .poison, .sealed, .fenced]) ∧
        ((∃ sl', t.slot k = some sl' ∧ sl'.phase = .running ∧ sl'.desc = sl.desc) ∨ ∃ st node value, s.ended t k sl st node value)

/-- FREEZE_RESUME of a node leaves no leaf at or below it Frozen, in the work of any slot, leaves every other leaf as it
was, and changes nothing else but reports. STALL_LIMIT_EXPIRY of a leaf with work, where STALL_LIMIT is not 0 and no halt
pauses the timers, sets STALL of that leaf, posts event 0x0102 with the node (where the event buffer has room) and changes
nothing else but reports; of a group, of a leaf without work, with limit 0 or paused, it changes nothing. CADENCE_WINDOW
with a count for each cell sets CADENCE of each listed cell to count x 1 000 / 65 536, saturated to 16 bits, and changes no
other unit, nothing else of a unit and no other state. Completion (the conclusion is exec c s = next t, under conditions on
state and operands alone): freezeResume and cadenceWindow, in every state; stallLimitExpiry, of a leaf with work and a
limit. The choices of the model that it rests on: log entries 8, 12 and 50. (R50, R51, R52, R57, R58, R571, R573, R697) -/
def Obligations.NodesFreezeStallAndPace : Prop :=
  ∀ s : State,
    (∀ node,
      (∃ t, exec (.freezeResume node) s = .next t ∧
        t = ({ s with tree := { s.tree with frozen := t.tree.frozen } } : State).reported t ∧
        ∀ k, t.frozenLeaves k = (s.frozenLeaves k).filter (fun l => !(l == node || inSubtree node l))) ∧
      (∀ p, s.placeOf node = some p → p.kind ≠ .group → bits (s.regs.eff regStallLimit 0) 23 0 ≠ 0 → s.hasWork node = true →
        s.timersPaused = false → ∃ t, exec (.stallLimitExpiry node) s = .next t ∧
          t = ({ s with tree := { s.tree with units := t.tree.units } } : State).reported t ∧
          t.unit (s.unitOf node) = { s.unit (s.unitOf node) with stall := true } ∧
          (∀ u, u ≠ s.unitOf node → t.unit u = s.unit u) ∧
          (s.host.events.length < 512 → t.host.events = s.host.events ++ [eventRecord 0x0102 node false false s.stamp])) ∧
      (∀ p, s.placeOf node = some p → p.kind = .group ∨ bits (s.regs.eff regStallLimit 0) 23 0 = 0 ∨ s.hasWork node = false ∨
        s.timersPaused = true → exec (.stallLimitExpiry node) s = .next s)) ∧
    (∀ counts, ∃ t, exec (.cadenceWindow counts) s = .next t ∧ t = { s with tree := { s.tree with units := t.tree.units } } ∧
      (∀ c ∈ counts, (∃ g i, s.placeOf c.1 = some (.cell g i)) → (∀ c' ∈ counts, s.unitOf c'.1 = s.unitOf c.1 → c' = c) →
        t.unit (s.unitOf c.1) = { s.unit (s.unitOf c.1) with cadence := sat 16 (c.2 * 1000 / 65536) }) ∧
      (∀ u, (∀ c ∈ counts, s.unitOf c.1 ≠ u) → t.unit u = s.unit u))

/-- Where slot k runs a MOVE not yet begun at a node, of LENGTH not 0, whose local rows lie in one region each, in stacks
that serve at once, with the function not in D3hot: with no request of the slot outstanding, unread or reported on, from a
local source to a local or host destination, or from the host with data to a local destination, it completes, with POISON or
OK; host reads that end with Unsupported Request complete it with ABORTED, with a completion timeout with TIMEOUT and
0xFFFF; with LENGTH 0 it completes OK; with neither end local, ABORTED. From or to another chip it has completed with
TIMEOUT, or it is begun, or it has completed as the local ones do. Begun, it waits unchanged. A SNAPSHOT whose list lies
outside tier memory completes ABORTED; one whose list (free of poison), ranges and local destination lie in tier memory,
with nothing outstanding, completes with OK or POISON; any SNAPSHOT not begun leaves its slot with the descriptor, completed
or not. All leave the other slots, Station Time, stacks, cores, power, management, resets, rings and registers (but those
that arm flips) as they were; the host writes go out in order. Completion (the conclusion is exec c s = next t, under
conditions on state and operands alone): move, between local ranges, or the host and a local range, with nothing
outstanding; snapshot, to a local range with its list and ranges in tier memory. The choices of the model that it rests on:
log entries 3, 10, 11, 12, 21 and 56. (R609, R610, R587, R337, R377, R617, R677, R484, 16_descriptor_catalogue.md) -/
def Obligations.MovesComplete : Prop :=
  ∀ (s : State) (k : Nat) (sl : Slot), s.works k sl → (s.placeOf (targetOf sl.desc)).isSome = true →
    (opcodeOf sl.desc = 0x20 → ∀ (host : List Byte) (ends : HostEnd),
      (sl.begun = true → exec (.move k host ends) s = .next s) ∧
      (sl.begun = false → ∀ a b, s.endpoint (field sl.desc 8 8) (field sl.desc 24 1) = some a →
        s.endpoint (field sl.desc 16 8) (field sl.desc 24 1 / 4) = some b → ∃ t, exec (.move k host ends) s = .next t ∧ Moves k s t ∧
          (a.isLocal = false → b.isLocal = false → ∃ node, s.ended t k sl .aborted node 0) ∧
          (a.isLocal = true ∨ b.isLocal = true → field sl.desc 28 4 = 0 → ∃ node, s.ended t k sl .ok node 0) ∧
          (field sl.desc 28 4 ≠ 0 → s.d3hot = false → (∀ f ∈ [fun x m => !oneRegion x m, s.stackFenced, s.stackWaits],
              a.rowsAny (field sl.desc 32 4 % 2 ^ 20 + 1) (field sl.desc 36 4) (field sl.desc 28 4) f = false ∧
              b.rowsAny (field sl.desc 32 4 % 2 ^ 20 + 1) (field sl.desc 40 4) (field sl.desc 28 4) f = false) →
            (∀ x y, a = .local x → b = .local y ∨ b = .host y → s.slotReqs k = [] → sl.unread = [] → sl.report = none → sl.fails = [] →
              ∃ st node value, (st = .ok ∨ st = .poison) ∧ s.ended t k sl st node value) ∧
            (∀ x y, a = .host x → b = .local y →
              (ends.kind = 0 → s.slotReqs k = [] → sl.unread = [] → sl.report = none → sl.fails = [] →
                ∃ st node value, (st = .ok ∨ st = .poison) ∧ s.ended t k sl st node value) ∧
              (ends.kind = 1 → ∃ node, s.ended t k sl .aborted node 0) ∧
              (ends.kind = 2 → ∃ node, s.ended t k sl .timeout node 0xFFFF)) ∧
            ((∃ c x y, a = .remote c x ∧ b = .local y ∨ a = .local y ∧ b = .remote c x) →
              (∃ st node value, s.ended t k sl st node value) ∨ (∃ sl', t.slot k = some sl' ∧ sl'.begun = true))))) ∧
    (opcodeOf sl.desc = 0x71 → (sl.begun = true → exec (.snapshot k) s = .next s) ∧
      (sl.begun = false → ∃ t, exec (.snapshot k) s = .next t ∧ Moves k s t ∧
        (inTier (addr48 sl.desc 17 / 16 * 16) (16 * (field sl.desc 24 4 % 65536 + 1)) = false →
          ∃ node, s.ended t k sl .aborted node 0) ∧
        (∀ list n, list = addr48 sl.desc 17 / 16 * 16 → n = field sl.desc 24 4 % 65536 + 1 → inTier list (16 * n) = true →
          ∀ bs ps u y, s.memRead list (16 * n) = (bs, ps, u) → anyP ps = false →
            s.endpoint (field sl.desc 8 8) (field sl.desc 16 1) = some (.local y) →
            inTier y (((List.range n).map (fun i => field bs (16 * i + 8) 8)).foldl (· + ·) 0) = true →
            (∀ i < n, inTier (field bs (16 * i) 6) (field bs (16 * i + 8) 8) = true) →
            s.slotReqs k = [] → sl.unread = [] → sl.report = none → sl.fails = [] →
            ∃ st node value, (st = .ok ∨ st = .poison) ∧ s.ended t k sl st node value)))

/-- Where slot k runs a STREAM at a node, the action's command of another ACTION changes nothing, and so does one behind an
earlier STREAM of its context. On a context in the mode of the action, and first in turn: a SEND of less than 16 bytes from
a local or host source completes OK; any SEND leaves the slot's descriptor, completed or not; a WAIT completes with OK or
POISON where HEAD is at or above UNTIL, and else waits, begun; a RELEASE raises LIMIT to the lower of its value and HEAD,
never lowers it, and completes OK. On a BROKEN context each completes with TIMEOUT and the partner; on one of another mode,
ABORTED. STREAM_TIMEOUT ends a begun one with TIMEOUT and the partner when TIMEOUT units have passed and no halt pauses
timers; before that it changes nothing. Each leaves other slots, Station Time, stacks, cores, power, management, resets,
rings and registers (but those that arm flips) as they were. Completion (the conclusion is exec c s = next t, under
conditions on state and operands alone): streamSend, streamWait and streamRelease, on a context in the mode of the action
and first in turn; streamTimeout, of a begun STREAM whose TIMEOUT has passed. The choices of the model that it rests on: log
entries 3, 8 and 22. (R611, R612, R480, R481, R484, 13_ranel_fabric.md, 16_descriptor_catalogue.md) -/
def Obligations.StreamsRun : Prop :=
  ∀ (s : State) (k : Nat) (sl : Slot), s.works k sl → (s.placeOf (targetOf sl.desc)).isSome = true → opcodeOf sl.desc = 0x21 →
    (∀ (host : List Byte) (ends : HostEnd), ∀ c ∈ [(Instr.streamSend k host ends, 0, 1), (.streamWait k, 1, 2), (.streamRelease k, 2, 2)],
      (streamAction sl.desc ≠ c.2.1 → exec c.1 s = .next s) ∧
      (streamAction sl.desc = c.2.1 → s.streamBehind sl = true → exec c.1 s = .next s) ∧
      (streamAction sl.desc = c.2.1 → s.streamBehind sl = false → ∃ t, exec c.1 s = .next t ∧ Moves k s t ∧
        (ctxMode (s.ctx (streamCtx sl.desc)) = 3 → ∃ node, s.ended t k sl .timeout node (ctxPeer (s.ctx (streamCtx sl.desc)))) ∧
        (ctxMode (s.ctx (streamCtx sl.desc)) ≠ 3 → ctxMode (s.ctx (streamCtx sl.desc)) ≠ c.2.2 →
          ∃ node, s.ended t k sl .aborted node 0))) ∧
    (s.streamBehind sl = false → ∀ e, s.ctx (streamCtx sl.desc) = e →
      (streamAction sl.desc = 0 → ctxMode e = 1 → (field sl.desc 16 1 % 4 = 0 ∨ field sl.desc 16 1 % 4 = 2) →
        field sl.desc 24 4 < 16 → ∀ (host : List Byte) (ends : HostEnd), ∃ t node, exec (.streamSend k host ends) s = .next t ∧
          s.ended t k sl .ok node 0) ∧
      (streamAction sl.desc = 1 → ctxMode e = 2 → ∃ t, exec (.streamWait k) s = .next t ∧
        (field sl.desc 32 8 ≤ ctxHead e → ∃ st node, (st = .ok ∨ st = .poison) ∧ s.ended t k sl st node 0) ∧
        (ctxHead e < field sl.desc 32 8 → ∃ sl', t.slot k = some sl' ∧ sl'.begun = true ∧ sl'.phase = .running)) ∧
      (streamAction sl.desc = 2 → ctxMode e = 2 → e.length = 64 → ∃ t node, exec (.streamRelease k) s = .next t ∧
        s.ended t k sl .ok node 0 ∧
        ctxLimit (t.ctx (streamCtx sl.desc)) = max (ctxLimit e) (min (field sl.desc 32 8) (ctxHead e)) ∧
        ctxHead (t.ctx (streamCtx sl.desc)) = ctxHead e ∧
        ∀ c, c ≠ streamCtx sl.desc → t.ctx c = s.ctx c) ∧
      (sl.begun = true → ctxTimeout e ≠ 0 → sl.since + 1024 * ctxTimeout e ≤ s.time.timer → s.timersPaused = false →
        ∃ t node, exec (.streamTimeout k) s = .next t ∧ s.ended t k sl .timeout node (ctxPeer e) ∧ Moves k s t ∧
          t.slotReqs k = []) ∧
      (sl.begun = false ∨ ctxTimeout e = 0 ∨ s.time.timer < sl.since + 1024 * ctxTimeout e ∨ s.timersPaused = true →
        exec (.streamTimeout k) s = .next s))

/-- A WRITE that must wait (for a stack, a memory that holds, room for its answer, or one before it) is kept behind the
messages that wait. For a message that the package takes: a WRITE of whole unpoisoned granules to tier memory, with no flip
armed and no seal to make invalid, stores its payload, fresh, and every other byte reads as before; a WRITE to a range that
no region holds stores nothing and counts one clamp; both change only memory, fabric and reports. A READ of tier memory in
which nothing is marked answers the sending of READ_DATA to the source with the bytes, unpoisoned, and changes nothing else.
An EVENT puts its 16-byte record behind the event buffer, or, where that holds 512 and those that ring 0 can take, is lost
and LOST set. A DOORBELL for a ring whose REMOTE is 0 changes nothing but reports; for one whose REMOTE is 1 the ring's tail
is the value modulo its size and no other ring changes. Completion (the conclusion is exec c s = next t, under conditions on
state and operands alone): write, read, event and doorbell, of a message that the package takes. The choices of the model
that it rests on: log entries 7, 11 and 21. (R468, R469, R472, R484, R333, R336, R571, R573, R555, R473, 13_ranel_fabric.md)
-/
def Obligations.MessagesToMemoryAndRings : Prop :=
  ∀ (s : State) (m : Msg),
    (s.powered = true → m.header.length = 16 → m.type = 0x01 → m.dst = s.chipId → s.messageWaits m = true →
      exec (.write m.header m.payload m.poison) s = .next { s with fab := { s.fab with arrived := s.fab.arrived ++ [m] } }) ∧
    (s.hears m 0x01 →
      (s.plainTier m.target m.len → m.payload.length = m.len → (∀ p ∈ m.poison, p = false) →
        ∃ t, exec (.write m.header m.payload m.poison) s = .next t ∧ s.storedAt t m.target m.payload ∧
          t = ({ s with mem := t.mem, fab := t.fab } : State).reported t) ∧
      (oneRegion m.target m.len = false → ∃ t, exec (.write m.header m.payload m.poison) s = .next t ∧
        t = ({ s with fab := t.fab } : State).reported t ∧ t.host.clampCount = min (s.host.clampCount + 1) (2 ^ 32 - 1))) ∧
    (s.hears m 0x02 → m.payload = [] → m.poison = [] → inTier m.target m.len = true → s.mem.marks = [] →
      ∃ poison, (∀ p ∈ poison, p = false) ∧ exec (.read m.header) s =
        .next (s.send (s.newMsg 0x03 m.src m.target m.tag m.len (s.rawBytes m.target m.len) poison)).2) ∧
    (s.hears m 0x09 → m.poison = [] →
      (s.host.events.length < 512 → exec (.event m.header m.payload) s =
        .next { s with host := { s.host with events := s.host.events ++ [slice m.payload 0 16] } }) ∧
      (512 + s.cqRoom 0 ≤ s.host.events.length → ∃ t, exec (.event m.header m.payload) s = .next t ∧ t = s.reported t ∧
        t.host.events = s.host.events ∧ t.host.evtLost = true ∧ t.host.lostNext = true)) ∧
    (s.hears m 0x0B → m.payload = [] → m.poison = [] →
      (bit (s.sqCfg (m.target % 256)) 15 = false → ∃ t, exec (.doorbell m.header) s = .next t ∧ t = s.reported t ∧
        t.host.events = s.host.events ∧ t.out = s.out) ∧
      (bit (s.sqCfg (m.target % 256)) 15 = true → ∃ t, exec (.doorbell m.header) s = .next t ∧
        t = ({ s with host := { s.host with sq := t.host.sq } } : State).reported t ∧
        (t.sqRing (m.target % 256)).tail = bits m.target 23 8 % ringSize (s.sqCfg (m.target % 256)) ∧
        ∀ q, q ≠ m.target % 256 → t.sqRing q = s.sqRing q))

/-- A WRITE_ACK or READ_DATA that the package takes and whose TAG stands under no request changes nothing. Where no other
slot has requests queued: WRITE_ACK under a WRITE of slot k, and READ_DATA under a READ of it, take the request out;
READ_DATA of whole unpoisoned granules to tier memory, with no flip armed and no seal to make invalid, stores its payload at
the request's address and every other byte reads as before. Where it was the slot's last request, nothing is queued and no
piece reported, the descriptor completes OK with VALUE 0. UNREACHABLE with a TAG below 0x8000, and RESPONSE_TIMEOUT once the
request's time has passed and where no halt pauses timers and no STEP runs, take the request out. Of a descriptor with no
report that is a SNAPSHOT, is aimed at a mover, or has nothing else to wait for, every request ends and it completes with
TIMEOUT and the chip that UNREACHABLE carries, or that did not answer; any other keeps running with that report (the model's
choice, log entry 21). A timer under no request, paused, or before its time changes nothing. Each leaves other slots,
Station Time, stacks, cores, power, management, resets, rings and registers (but those that arm flips) as they were.
Completion (the conclusion is exec c s = next t, under conditions on state and operands alone): writeAck and readData, under
a request of their kind; unreachable, under a request; responseTimeout, once its time has passed. The choices of the model
that it rests on: log entries 8 and 21. (R484, R473, R610, R697, R468, 13_ranel_fabric.md, 16_descriptor_catalogue.md) -/
def Obligations.ResponsesEndRequests : Prop :=
  ∀ (s : State) (m : Msg),
    (s.hears m 0x04 → m.payload = [] → m.poison = [] →
      (s.req m.tag = none → exec (.writeAck m.header) s = .next s) ∧
      (∀ k r sl, s.asks m.tag k r → r.read = false → s.slot k = some sl → (∀ j ∈ s.queuing, j = k) →
        ∃ t, exec (.writeAck m.header) s = .next t ∧ Moves k s t ∧ (s.queuing = [] → t.req m.tag = none) ∧
        (s.lastAsk k m.tag → s.queuing = [] → sl.report = none → sl.fails = [] → ∃ node, s.ended t k sl .ok node 0))) ∧
    (s.hears m 0x03 →
      (s.req m.tag = none → exec (.readData m.header m.payload m.poison) s = .next s) ∧
      (∀ k r sl, s.asks m.tag k r → r.read = true → s.slot k = some sl → (∀ j ∈ s.queuing, j = k) → ∃ t,
        exec (.readData m.header m.payload m.poison) s = .next t ∧ Moves k s t ∧
        (s.queuing = [] → t.req m.tag = none) ∧ (s.plainTier r.addr r.len → m.payload.length = r.len → (∀ p ∈ m.poison, p = false) →
          s.storedAt t r.addr m.payload ∧
          (s.lastAsk k m.tag → s.queuing = [] → sl.report = none → sl.fails = [] → ∃ node, s.ended t k sl .ok node 0)))) ∧
    (s.hears m 0x0A → m.payload = [] → m.poison = [] → m.tag < 0x8000 → ∀ k r sl, s.asks m.tag k r → s.slot k = some sl →
      sl.report = none → (∀ j ∈ s.queuing, j = k) → ∃ t, exec (.unreachable m.header) s = .next t ∧ Moves k s t ∧
        (s.failsAtOnce k m.tag sl → t.slotReqs k = [] ∧ s.ended t k sl .timeout r.node (m.target % 32768)) ∧
        (¬ s.failsAtOnce k m.tag sl → s.queuing = [] → t.req m.tag = none ∧
          t.slot k = some (sl.note .timeout r.mover r.node (m.target % 32768)))) ∧
    (∀ tag,
      (s.timersPaused = true ∨ s.req tag = none → exec (.responseTimeout tag) s = .next s) ∧
      (∀ r, s.req tag = some r → s.time.timer < r.since + s.responseBeats r → exec (.responseTimeout tag) s = .next s) ∧
      (s.timersPaused = false → s.tf.run = none → ∀ k r sl, s.asks tag k r → s.slot k = some sl → sl.report = none →
        (∀ j ∈ s.queuing, j = k) → r.since + s.responseBeats r ≤ s.time.timer →
        ∃ t, exec (.responseTimeout tag) s = .next t ∧ Moves k s t ∧
          (s.failsAtOnce k tag sl → t.slotReqs k = [] ∧ s.ended t k sl .timeout r.node r.chip) ∧
          (¬ s.failsAtOnce k tag sl → s.queuing = [] →
            t.req tag = none ∧ t.slot k = some (sl.note .timeout r.mover r.node r.chip))))

/-- STREAM_DATA that the package takes: for a BROKEN context it changes nothing; for one OFF or SEND nothing but reports;
for a RECEIVE context in order, of whole unpoisoned granules that fit into the ring and do not wrap, with no descriptor
waiting on it, no flip armed and no seal to make invalid, the payload is stored at the ring's write place, every other byte
reads as before, HEAD grows by LEN, and only this context, memory and reports change; out of order or beyond the ring, the
context becomes BROKEN, one event is posted and every STREAM that has begun on it completes with TIMEOUT. STREAM_CREDIT on a
SEND context with no descriptor waiting raises LIMIT to the count that its offset stands for and changes no other context;
on another context nothing but reports. Completion (the conclusion is exec c s = next t, under conditions on state and
operands alone): streamData, in order on a RECEIVE context; streamCredit, on a SEND context. The choices of the model that
it rests on: log entry 22. (R480, R481, R482, R483, R484, 13_ranel_fabric.md) -/
def Obligations.StreamMessages : Prop :=
  ∀ (s : State) (m : Msg) (c : Nat) (e : List Byte), c = m.target % 2 ^ 18 → s.ctx c = e → e.length = 64 →
    (s.hears m 0x05 →
      (ctxMode e = 3 → exec (.streamData m.header m.payload m.poison) s = .next s) ∧
      (ctxMode e ≠ 2 → ctxMode e ≠ 3 → ∃ t, exec (.streamData m.header m.payload m.poison) s = .next t ∧ t = s.reported t) ∧
      (ctxMode e = 2 → m.target / 2 ^ 18 * 16 = ctxHead e % 2 ^ 34 → ctxHead e + m.len ≤ ctxLimit e + ctxSize e →
        ctxHead e % ctxSize e + m.len ≤ ctxSize e → s.streamSlots c = [] → ctxHead e + m.len < 2 ^ 64 →
        s.plainTier (ctxBase e + ctxHead e % ctxSize e) m.len → m.payload.length = m.len → (∀ p ∈ m.poison, p = false) →
        ∃ t, exec (.streamData m.header m.payload m.poison) s = .next t ∧
          s.storedAt t (ctxBase e + ctxHead e % ctxSize e) m.payload ∧ ctxHead (t.ctx c) = ctxHead e + m.len ∧
          ctxLimit (t.ctx c) = ctxLimit e ∧ ctxMode (t.ctx c) = 2 ∧ (∀ d, d ≠ c → t.ctx d = s.ctx d) ∧
          t = ({ s with mem := t.mem, fab := { s.fab with ctxs := t.fab.ctxs } } : State).reported t) ∧
      (ctxMode e = 2 → m.target / 2 ^ 18 * 16 ≠ ctxHead e % 2 ^ 34 ∨ ctxLimit e + ctxSize e < ctxHead e + m.len →
        ∃ t, exec (.streamData m.header m.payload m.poison) s = .next t ∧ ctxMode (t.ctx c) = 3 ∧
          (∀ d, d ≠ c → t.ctx d = s.ctx d) ∧ (∀ x, t.byte x = s.byte x) ∧ t.regs = s.regs ∧ t.time = s.time ∧
          (s.host.events.length < 512 → eventRecord 0x0405 c false false s.stamp ∈ t.host.events) ∧
          (∀ k sl, (k, sl) ∈ s.streamSlots c → s.slot k = some sl → ∃ node, s.ended t k sl .timeout node (ctxPeer e)) ∧
          ∀ k, (∀ sl, (k, sl) ∉ s.streamSlots c) → t.slot k = s.slot k)) ∧
    (s.hears m 0x06 → m.payload = [] → m.poison = [] →
      (ctxMode e = 1 → s.streamSlots c = [] → streamCount (ctxLimit e) (m.target / 2 ^ 18) < 2 ^ 64 →
        ∃ t, exec (.streamCredit m.header) s = .next t ∧
          ctxLimit (t.ctx c) = streamCount (ctxLimit e) (m.target / 2 ^ 18) ∧ ctxHead (t.ctx c) = ctxHead e ∧
          (∀ d, d ≠ c → t.ctx d = s.ctx d) ∧ t = { s with fab := { s.fab with ctxs := t.fab.ctxs } }) ∧
      (ctxMode e ≠ 1 → ∃ t, exec (.streamCredit m.header) s = .next t ∧ t = s.reported t))

/-- MESSAGE_FORWARD of a message for this package, or without power, changes nothing; one of a reserved type is discarded
and nothing but reports changes. Where no message of this package's own waits, of a message for another chip with fewer than
127 hops and an egress in the routing bank of its epoch: where that port has nothing queued, can send and has room to keep
the flits, the message with one hop more goes out at once: its flits are numbered, kept for replay with its epoch and put on
the port in order; where it cannot send, the message is queued on the VL that its dateline gives. No other port changes, and
nothing but ports and reports does. With 127 hops or no egress, and of a class that takes no UNREACHABLE, nothing but
reports changes. Completion (the conclusion is exec c s = next t, under conditions on state and operands alone):
messageForward, of a message for another chip with fewer than 127 hops and an egress. The choices of the model that it rests
on: log entries 21, 24 and 43. (R470, R472, R473, R474, R465, R458, R468, 13_ranel_fabric.md) -/
def Obligations.MessagesAreForwarded : Prop :=
  ∀ (s : State) (m : Msg) (q : Nat), m.header.length = 16 →
    (m.dst = s.chipId ∨ s.powered = false → exec (.messageForward q m.header m.payload m.poison) s = .next s) ∧
    (m.dst ≠ s.chipId → s.powered = true → knownType m.type = false →
      ∃ t, exec (.messageForward q m.header m.payload m.poison) s = .next t ∧ t = s.reported t ∧ t.out = s.out) ∧
    (m.dst ≠ s.chipId → s.powered = true → knownType m.type = true → s.fab.arrived = [] → m.hops ≠ 127 → ∀ p line, s.egress m = some (p, line) →
      ∀ m' : Msg, m' = { m with header := patch m.header 1 (natLe 1 (field m.header 1 1 + 2)) } →
      ∃ t, exec (.messageForward q m.header m.payload m.poison) s = .next t ∧
        t = ({ s with fab := { s.fab with ports := t.fab.ports } } : State).reported t ∧
        (∀ r, r ≠ p → t.portAt r = s.portAt r) ∧
        ((s.portAt p).queue = [] →
          ((s.portAt p).canSend ⟨b2n line, 0, none, m'⟩ = true → (s.portAt p).replay.length + m.flits ≤ 512 →
            (t.portAt p).queue = [] ∧ (t.portAt p).txSeq = ((s.portAt p).txSeq + m.flits) % 4096 ∧
            ∃ fs : List (List Byte), fs.length = m.flits ∧
              (t.portAt p).replay = (s.portAt p).replay ++ fs.map (fun b => (m'.epoch, b)) ∧
              fs.Sublist ((t.out.drop s.out.length).filterMap (fun o => match o with
                | .flit r b _ => if r = p then some b else none
                | _ => none))) ∧
          ((s.portAt p).canSend ⟨b2n line, 0, none, m'⟩ = false →
            (t.portAt p).queue = [⟨b2n line, 0, none, m'⟩] ∧ t.out = s.out))) ∧
    (m.dst ≠ s.chipId → s.powered = true → knownType m.type = true → s.fab.arrived = [] → m.hops = 127 ∨ s.egress m = none → msgClass m < 2 →
      ∃ t, exec (.messageForward q m.header m.payload m.poison) s = .next t ∧ t = s.reported t ∧ t.out = s.out)

/-- Where slot k runs a COLL (COUNTS, BARRIER) descriptor at a node: begun, it changes nothing. Not begun, with no place
left by the instances active and the collective descriptors dispatched earlier that have not begun (sixteen together), it
joins the waiting descriptors and nothing else changes. With a place left, it either completes (with ABORTED and VALUE 0
where its group table lies outside tier memory), or an instance of its kind, with its COLL_ID, this slot and the present
stamp as entry, is active and not ended, and the slot is begun; with its tables and buffers in tier memory, no byte marked,
this chip once in its group, its COLL_ID free and unaborted, and every other member reachable, a record is OK or POISON, so
that neither ABORTED nor TIMEOUT stands for it. The other slots, Station Time, stacks, cores, power, management, resets,
rings and the registers (but those that arm flips) stay as they were. Completion (the conclusion is exec c s = next t, under
conditions on state and operands alone): coll, counts and barrier, with a place left and collLegal, every other member
reachable. The choices of the model that it rests on: log entry 23. (R503, R504, R510, R512, R526, R527, R534, R537, R538,
14_collectives.md, 16_descriptor_catalogue.md) -/
def Obligations.CollectivesStart : Prop :=
  ∀ (s : State) (k : Nat) (sl : Slot), s.works k sl → (s.placeOf (targetOf sl.desc)).isSome = true → k < 4096 →
    ∀ c ∈ [(Instr.coll k, 0x30, CollKind.coll), (.counts k, 0x31, .counts), (.barrier k, 0x51, .barrier)],
      opcodeOf sl.desc = c.2.1 →
      (sl.begun = true → exec c.1 s = .next s) ∧
      (sl.begun = false → ∃ t, exec c.1 s = .next t ∧ Moves k s t ∧
        (16 ≤ (s.coll.active.filter (fun i => i.ended.isNone)).length + s.collAhead sl →
          t = { s with coll := { s.coll with waiting := t.coll.waiting } } ∧ k ∈ t.coll.waiting ∧
            ∀ j ∈ s.coll.waiting, j ∈ t.coll.waiting) ∧
        ((s.coll.active.filter (fun i => i.ended.isNone)).length + s.collAhead sl < 16 →
          ((∃ st node value, s.ended t k sl st node value) ∨
            ∃ i ∈ t.coll.active, i.slot = k ∧ i.id = field sl.desc 44 2 ∧ i.kind = c.2.2 ∧ i.entry = s.stamp ∧ i.ended = none ∧
              ∃ sl', t.slot k = some sl' ∧ sl'.begun = true) ∧
          (s.collLegal sl = true → s.membersReachable sl →
            (∃ st node value, (st = .ok ∨ st = .poison) ∧ s.ended t k sl st node value) ∨
              ∃ i ∈ t.coll.active, i.slot = k ∧ i.id = field sl.desc 44 2 ∧ i.kind = c.2.2 ∧ i.ended = none) ∧
          (s.readGroup (addr48 sl.desc 8 / 16 * 16) = none → ∃ node, s.ended t k sl .aborted node 0)))

/-- Of messages that the package takes. With no active instance of its COLL_ID: a REDUCE or GATHER changes nothing but
reports; an ABORT is kept behind the others with its chip, the oldest of 32 giving way, unless the COLL_ID has completed
here or a reset has discarded it; a BARRIER is kept, below 1 024, but of a discarded COLL_ID changes nothing; a COLL_CREDIT
of 64 is kept once for the ring whose data go the other way, but of a discarded COLL_ID, and any other, changes nothing.
With an active instance of slot k: a REDUCE that this member passes on (not the owner, gather phase run, nothing
unreachable) leaves the instance with the segment ready for the next member, and changes nothing else but reports; a GATHER,
ABORT or BARRIER leaves the other slots, Station Time, stacks, cores, power, management, resets, rings and registers (but
those that arm flips); the GATHER's segment is done, or the descriptor has completed; the ABORT completes it with TIMEOUT
and its chip and the instance is gone; the BARRIER's round is heard, or the descriptor has completed. A COLL_CREDIT raises
the grant of its directed ring, never lowers it, and changes nothing else. Completion (the conclusion is exec c s = next t,
under conditions on state and operands alone): collReduce, collGather, collAbort, collBarrier and collCredit, of an active
instance. The choices of the model that it rests on: log entries 23 and 57. (R513, R514, R525, R526, R529, R533, R534, R538,
R542, 14_collectives.md) -/
def Obligations.CollectiveMessages : Prop :=
  ∀ (s : State) (m : Msg),
    (s.hears m 0x07 → s.inst (collId m) = none →
      (∀ c ∈ [(Instr.collReduce m.header m.payload m.poison, 0), (.collGather m.header m.payload m.poison, 1)],
        bits m.target 23 22 = c.2 → ∃ t, exec c.1 s = .next t ∧ t = s.reported t) ∧
      (m.poison = [] →
        (bits m.target 23 22 = 2 →
          (s.coll.finished.contains (collId m) = true ∨ s.coll.stale.contains (collId m) = true →
            exec (.collAbort m.header m.payload) s = .next s) ∧
          (s.coll.finished.contains (collId m) = false → s.coll.stale.contains (collId m) = false → ∃ t, exec (.collAbort m.header m.payload) s = .next t ∧
            t = ({ s with coll := { s.coll with aborts := t.coll.aborts } } : State).reported t ∧
            t.coll.aborts = (if 32 ≤ s.coll.aborts.length then s.coll.aborts.drop 1 else s.coll.aborts)
              ++ [(collId m, field m.payload 0 4 % 32768)])) ∧
        (bits m.target 23 22 = 3 → s.coll.stale.contains (collId m) = true → exec (.collBarrier m.header m.payload) s = .next s) ∧
        (bits m.target 23 22 = 3 → s.coll.stale.contains (collId m) = false → s.coll.early.length < 1024 →
          exec (.collBarrier m.header m.payload) s = .next { s with coll := { s.coll with early := s.coll.early ++
            [(collId m, field m.payload 0 4, field m.payload 4 8, field m.payload 12 2 % 32768)] } }))) ∧
    (s.hears m 0x08 → m.poison = [] → s.inst (collId m) = none →
      exec (.collCredit m.header m.payload) s = .next (
        if field m.payload 0 8 = 64 ∧ (collId m, 2 * collOrder m + (1 - collDir m)) ∉ s.coll.credits ∧
            s.coll.stale.contains (collId m) = false then
          { s with coll := { s.coll with credits := s.coll.credits ++ [(collId m, 2 * collOrder m + (1 - collDir m))] } }
        else s)) ∧
    (∀ c, s.inst (collId m) = some c →
      (s.hears m 0x07 → bits m.target 23 22 = 0 → c.kind = .coll → field m.payload 0 4 < c.segs.length → c.gathers = true →
        c.offset s.chipId (field m.payload 0 4) ≠ 0 → c.lost = none →
        ∃ t, exec (.collReduce m.header m.payload m.poison) s = .next t ∧
          t = ({ s with coll := { s.coll with active := t.coll.active } } : State).reported t ∧
          ∃ i ∈ t.coll.active, i.id = c.id ∧ i.slot = c.slot ∧ i.since = s.time.timer ∧ ∃ r, i.ready = c.ready ++ [r] ∧
            r.seg = field m.payload 0 4 ∧ r.gather = false ∧ r.dir = collDir m ∧
            r.back = some (2 * (c.seg (field m.payload 0 4)).1 + collDir m)) ∧
      (∀ sl, s.slot c.slot = some sl → c.slot < 4096 → s.hears m 0x07 →
        (bits m.target 23 22 = 1 → c.kind ≠ .barrier → field m.payload 0 4 < c.segs.length →
          c.done.contains (field m.payload 0 4) = false →
          ∃ t, exec (.collGather m.header m.payload m.poison) s = .next t ∧ Moves c.slot s t ∧
            ((∃ st node value, s.ended t c.slot sl st node value) ∨
              ∃ i ∈ t.coll.active, i.id = c.id ∧ i.slot = c.slot ∧ field m.payload 0 4 ∈ i.done)) ∧
        (m.poison = [] → bits m.target 23 22 = 2 → ∃ t node, exec (.collAbort m.header m.payload) s = .next t ∧ Moves c.slot s t ∧
          s.ended t c.slot sl .timeout node (field m.payload 0 4 % 32768) ∧
          ∀ i ∈ t.coll.active, ¬ (i.id = c.id ∧ i.slot = c.slot)) ∧
        (m.poison = [] → bits m.target 23 22 = 3 → c.kind = .barrier → c.release = none →
          ∃ t, exec (.collBarrier m.header m.payload) s = .next t ∧ Moves c.slot s t ∧
            ((∃ st node value, s.ended t c.slot sl st node value) ∨
              ∃ i ∈ t.coll.active, i.id = c.id ∧ i.slot = c.slot ∧
                mget none i.heard (field m.payload 0 4) = some (field m.payload 4 8, field m.payload 12 2 % 32768)))) ∧
      (s.hears m 0x08 → m.poison = [] → ∃ t, exec (.collCredit m.header m.payload) s = .next t ∧
        t = { s with coll := { s.coll with active := t.coll.active } } ∧
        ∃ i ∈ t.coll.active, i.id = c.id ∧ i.slot = c.slot ∧
          mget 0 i.granted (2 * collOrder m + (1 - collDir m)) =
            max (mget 0 c.granted (2 * collOrder m + (1 - collDir m))) (field m.payload 0 8)))

/-- With nodes running and no STEP to move on, and c the active instance of slot k. COLL_SEGMENT_SEND changes nothing where
no ready segment has credit; where segment r is the first that has, of an instance with more to send, whose successor is
reachable and which gives no landing place back, r is no longer ready, one more is counted as sent on its directed ring, and
only the instance, fabric and reports change. COLL_TIMEOUT, where TIMEOUT beats have passed since the last message or credit
and no halt pauses timers, completes the descriptor with TIMEOUT and the chip waited for, and the instance is gone; sooner,
or paused, it changes nothing. BARRIER_RELEASE at or after the release time completes the barrier OK with SLOWEST and LATE;
before it, it changes nothing. Where slot k has no such instance none of the three changes anything. Completion (the
conclusion is exec c s = next t, under conditions on state and operands alone): collSegmentSend, where a ready segment has
credit; collTimeout, once TIMEOUT has passed; barrierRelease, at or after the release time. The choices of the model that it
rests on: log entries 8, 23 and 57. (R515, R525, R529, R532, R533, R539, R541, R697, 14_collectives.md) -/
def Obligations.CollectivesGoOn : Prop :=
  ∀ (s : State) (k : Nat), s.nodesStopped = false → s.tf.run = none → k < 4096 →
    ((∀ c ∈ s.coll.active, c.slot ≠ k) →
      ∀ c ∈ [Instr.collSegmentSend k, .collTimeout k, .barrierRelease k], exec c s = .next s) ∧
    (∀ c sl, s.coll.active = [c] → c.slot = k → c.ended = none → s.slot k = some sl →
      (c.kind ≠ .barrier →
        (((List.range c.orders.length).flatMap (fun o => [(o, 0), (o, 1)])).findSome? (fun od =>
            if 0 < c.credit (2 * od.1 + od.2) then c.nextReady od.1 od.2 else none) = none →
          exec (.collSegmentSend k) s = .next s) ∧
        (∀ r, ((List.range c.orders.length).flatMap (fun o => [(o, 0), (o, 1)])).findSome? (fun od =>
            if 0 < c.credit (2 * od.1 + od.2) then c.nextReady od.1 od.2 else none) = some r →
          r.back = none → c.lost = none → c.ready.erase r ≠ [] →
          (∀ m : Msg, m.dst = c.neighbour s.chipId r.order r.dir % 32768 → bit (field m.header 1 1) 0 = bit s.fab.epoch 0 →
            m.dst = s.chipId ∨ (s.egress m).isSome = true) →
          ∃ t i, exec (.collSegmentSend k) s = .next t ∧ t.coll.active = [i] ∧
            i = { c with ready := c.ready.erase r, sent := i.sent } ∧
            mget 0 i.sent (2 * r.order + r.dir) = mget 0 c.sent (2 * r.order + r.dir) + 1 ∧
            t = ({ s with coll := { s.coll with active := [i] }, fab := t.fab } : State).reported t)) ∧
      (c.since + c.timeout ≤ s.time.timer → s.timersPaused = false →
        ∃ t node, exec (.collTimeout k) s = .next t ∧ Moves k s t ∧
          s.ended t k sl .timeout node (c.waitedChip s.chipId) ∧ t.coll.active = []) ∧
      (s.time.timer < c.since + c.timeout ∨ s.timersPaused = true → exec (.collTimeout k) s = .next s) ∧
      (c.kind = .barrier → ∀ r, c.release = some r →
        (r ≤ s.time.now → ∃ t node, exec (.barrierRelease k) s = .next t ∧ Moves k s t ∧
          s.ended t k sl .ok node (c.slowest % 32768 + 32768 * b2n c.late) ∧ t.coll.active = []) ∧
        (s.time.now < r → exec (.barrierRelease k) s = .next s)))

/-- Where slot k runs a STEP at a node, with memory and nodes free: begun, it changes nothing. Not begun: where a group
table or the digest table lies outside tier memory, or an order does not name this chip once, it completes ABORTED.
Otherwise, with aligned operands and no clamp, its counters are latched: the latched counters are the live ones as they
stood; and it is the running step of this slot, or its descriptor has completed. The queue, Station Time, the rings, power
and resets stay as they were. Completion (the conclusion is exec c s = next t, under conditions on state and operands
alone): step, with tables in tier memory that name this chip once. The choices of the model that it rests on: log entries 16
and 26. (R628, R629, R630, R704, R816, R819, 17_training_flow_and_determinism.md, 16_descriptor_catalogue.md) -/
def Obligations.StepBegins : Prop :=
  ∀ (s : State) (k : Nat) (sl : Slot), s.works k sl → (s.placeOf (targetOf sl.desc)).isSome = true → opcodeOf sl.desc = 0x52 →
    (sl.begun = true → exec (.step k) s = .next s) ∧
    (sl.begun = false →
      (s.readGroup (addr48 sl.desc 16 / 16 * 16) = none ∨ s.readGroup (addr48 sl.desc 22 / 16 * 16) = none →
        ∃ t node, exec (.step k) s = .next t ∧ s.ended t k sl .aborted node 0 ∧ Works k s t) ∧
      (∀ twins alls c0 c1, s.readGroup (addr48 sl.desc 16 / 16 * 16) = some (twins, c0) →
        s.readGroup (addr48 sl.desc 22 / 16 * 16) = some (alls, c1) →
        (inTier (addr48 sl.desc 40) (8 * (field sl.desc 46 2 % 4096 + 1)) = false ∨ (∃ o ∈ twins, s.onceIn o = false) ∨
            s.onceIn ((alls[0]?).getD []) = false →
          ∃ t node, exec (.step k) s = .next t ∧ s.ended t k sl .aborted node 0 ∧ Works k s t) ∧
        (inTier (addr48 sl.desc 40) (8 * (field sl.desc 46 2 % 4096 + 1)) = true → (∀ o ∈ twins, s.onceIn o = true) →
          s.onceIn ((alls[0]?).getD []) = true → c0 = 0 → c1 = 0 → field sl.desc 30 1 % 4 ≠ 3 → addr48 sl.desc 16 % 16 = 0 →
          addr48 sl.desc 22 % 16 = 0 →
          ∃ t, exec (.step k) s = .next t ∧ t.obs.latched = s.obs.live ∧
            ((∃ r, t.tf.run = some r ∧ r.slot = k) ∨ ∃ st node value, s.ended t k sl st node value) ∧
            t.pending = s.pending ∧ t.time = s.time ∧ t.pwr = s.pwr ∧ t.rst = s.rst ∧ t.host.sq = s.host.sq ∧
            t.host.cq = s.host.cq ∧ t.host.msix = s.host.msix)))

/-- Where BAR0 takes writes: while a command runs, each changes nothing but reports, with one clamp; outside HOLD, RECOVER,
REBUILD and ADOPT set CMD_ERR to 1 and do nothing else. Otherwise (n the step in RS_ARG0 and RS_ARG1): RECOVER first reads
the lists with their codes checked; of a step that neither the live state, the pending one nor the image holds it sets
CMD_ERR 2 and nothing else; of the pending step n, with this package as chip and no copy or block waiting, it makes the live
state n valid and writes only the seal and what it corrects. REBUILD with no valid source ends FAILED with cause 4; with a
first source that can be reached it runs, from step n and the sources, the live state invalid and nothing counted. ADOPT of
another SHAPE sets CMD_ERR 4 and nothing else; otherwise the live state is n, valid, and the image is not. RESUME without a
valid live state sets CMD_ERR 2; with one it leaves HOLD with cause and DECIDED 0, and with argument bit 0 every waiting
descriptor completes ABORTED. HOLD enters HOLD with cause 7 and posts event 0x0901; in HOLD it changes nothing but CMD_ERR.
Completion (the conclusion is exec c s = next t, under conditions on state and operands alone): recover, rebuild, adopt,
resume and hold, where BAR0 takes writes, in HOLD (hold: outside it) with no command running, and a step or source that
allows them. The choices of the model that it rests on: log entry 27. (R667, R668, R669, R670, R671, R672, R673, R650, R654,
18_resilience_and_checkpoints.md) -/
def Obligations.ResilienceCommands : Prop :=
  ∀ s : State, s.takesWrites = true →
    (s.cmdBusy = true → ∀ c ∈ [Instr.recover, .rebuild, .adopt, .resume, .hold], ∃ t, exec c s = .next t ∧ t = s.reported t ∧
      t.host.clampCount = min (s.host.clampCount + 1) (2 ^ 32 - 1)) ∧
    (s.cmdBusy = false → s.res.hold = false → ∀ c ∈ [Instr.recover, .rebuild, .adopt],
      exec c s = .next { s with res := { s.res with cmdErr := 1 } }) ∧
    (s.cmdBusy = false → s.res.hold = true →
      (¬ (s.res.liveValid = true ∧ s.res.cut = s.rsStep) → ¬ (s.res.pending = true ∧ s.res.cut = s.rsStep) →
        ¬ (s.res.imageValid = true ∧ s.res.img = s.rsStep) →
        ∃ t, exec .recover s = .next t ∧ t = ({ s with mem := t.mem, res := { s.res with cmdErr := 2 } } : State).reported t ∧
          (s.mem.marks = [] → t.mem = s.mem)) ∧
      (s.res.liveValid = false → s.res.pending = true → s.res.cut = s.rsStep → s.rsArg 2 % 32768 = s.chipId → s.res.copy = none →
        s.res.blocks = [] → ∃ t, exec .recover s = .next t ∧
          t = ({ s with
            mem := t.mem
            regs := t.regs
            res := { s.res with cmdErr := 0, liveValid := true, pending := false, cut := s.rsStep } } : State).reported t ∧
          s.regs.agree t.regs ∧ (s.mem.marks = [] → ∀ x, x < s.sealBase ∨ s.sealBase + 32 ≤ x → t.byte x = s.byte x)) ∧
      (((List.range 4).all (fun n => !bit (s.rsArg (2 + n / 2) / 2 ^ (16 * (n % 2)) % 65536) 15)) = true →
        ∃ t, exec .rebuild s = .next t ∧ t.res.rebuilding = false ∧ t.res.rebState = 3 ∧ t.res.cause = 4 ∧ t.res.hold = true ∧
          t.res.liveValid = false ∧ t.res.copy = none) ∧
      (bit (s.rsArg 2) 15 = true →
        (∀ m : Msg, m.dst = s.rsArg 2 % 32768 → bit (field m.header 1 1) 0 = bit s.fab.epoch 0 →
          m.dst = s.chipId ∨ (s.egress m).isSome = true) →
        ∃ t c, exec .rebuild s = .next t ∧ t.res.rebuilding = true ∧ t.res.rebState = 1 ∧ t.res.rebSource = 0 ∧
          t.res.rebBytes = 0 ∧ t.res.liveValid = false ∧ t.res.copy = some c ∧ c.what = .rebuild ∧ c.step = s.rsStep ∧
          c.sources.head? = some (s.rsArg 2 % 32768) ∧ s.regs.agree t.regs ∧
          t.host.slots = s.host.slots) ∧
      (s.rsArg 2 + s.rsArg 3 * 2 ^ 32 ≠ 0 → s.rsArg 2 + s.rsArg 3 * 2 ^ 32 ≠ s.res.shape →
        exec .adopt s = .next { s with res := { s.res with cmdErr := 4 } }) ∧
      (s.rsArg 2 + s.rsArg 3 * 2 ^ 32 = 0 ∨ s.rsArg 2 + s.rsArg 3 * 2 ^ 32 = s.res.shape →
        ∃ t, exec .adopt s = .next t ∧
          t = ({ s with
            mem := t.mem
            regs := t.regs
            res := { s.res with cmdErr := 0, imageValid := false, liveValid := true, pending := false, cut := s.rsStep } }
              : State).reported t ∧
          s.regs.agree t.regs ∧ ∀ x, x < s.sealBase ∨ s.sealBase + 32 ≤ x → t.byte x = s.byte x)) ∧
    (s.cmdBusy = false →
      (s.res.liveValid = false → exec .resume s = .next { s with res := { s.res with cmdErr := 2 } }) ∧
      (s.res.liveValid = true → ∃ t, exec .resume s = .next t ∧ t.res.hold = false ∧ t.res.cause = 0 ∧ t.res.decided = 0 ∧
        t.res.cmdErr = 0 ∧ s.regs.agree t.regs ∧ t.time = s.time ∧
        (bit (s.rsArg 2) 0 = false → t.host.slots = s.host.slots) ∧
        (bit (s.rsArg 2) 0 = true → ∀ k sl, (k, some sl) ∈ s.host.slots → s.slot k = some sl → sl.phase = .waiting →
          s.ended t k sl .aborted 0xFFFF 0)) ∧
      (s.res.hold = false → ∃ t, exec .hold s = .next t ∧
        t = ({ s with res := { s.res with cmdErr := 0, hold := true, cause := 7 } } : State).reported t ∧
        (s.host.events.length < 512 →
          t.host.events = s.host.events ++ [eventRecord 0x0901 (7 + 0x7FFF * 65536) true false s.stamp])) ∧
      (s.res.hold = true → exec .hold s = .next { s with res := { s.res with cmdErr := 0 } }))

/-- With nodes running. With no STEP and no restore under way and no pass due, IMAGE_PASS_COMPLETE changes nothing where no
pass runs or a block copy is outstanding. Of a running pass with none outstanding it reads the lists with their codes
checked; then, where a range or image lies in a FAILED or TEST stack it ends the pass with no image, where a stack makes a
copy wait it changes nothing more, and else it leaves the pass ended and the image valid at the live step.
BLOCK_COPY_COMPLETE with no copy and no block waiting, or before the copy has ended, changes nothing; of the only block,
restored, it leaves no copy and no block, and no HOLD that was not there; of one that no twin could serve the package is in
HOLD, with cause 4 where it was not in HOLD before. COPY_SEAL_WAIT without a copy that waits for a seal, or with timers
paused, changes nothing; of one that has not reached the limit and whose source can be reached, 65 536 beats more are
counted and the seal is read again, and nothing but the copy, fabric and reports changes. Completion (the conclusion is exec
c s = next t, under conditions on state and operands alone): imagePassComplete, of a running pass with no copy outstanding;
blockCopyComplete, of an ended copy; copySealWait, of a copy that waits for a seal. The choices of the model that it rests
on: log entries 8 and 27. (R655, R657, R658, R659, R660, R431, R392, 18_resilience_and_checkpoints.md) -/
def Obligations.CopiesAndImagesGoOn : Prop :=
  ∀ s : State, s.nodesStopped = false →
    (s.res.due = false → s.tf.run = none → s.res.restoring = none → s.res.imaging = false ∨ s.res.blocks ≠ [] →
      exec .imagePassComplete s = .next s) ∧
    (s.res.due = false → s.tf.run = none → s.res.restoring = none → s.res.imaging = true → s.res.blocks = [] →
      (s.readLists.imagesFenced = true → exec .imagePassComplete s =
        .next { s.readLists with res := { s.readLists.res with imaging := false } }) ∧
      (s.readLists.imagesFenced = false → s.readLists.imagesWait = true → exec .imagePassComplete s = .next s.readLists) ∧
      (s.readLists.imagesFenced = false → s.readLists.imagesWait = false → ∃ t, exec .imagePassComplete s = .next t ∧
      t.res.imaging = false ∧ t.res.imageValid = true ∧ t.res.img = s.res.cut ∧ t.res.cut = s.res.cut ∧ t.res.hold = s.res.hold ∧
      t.host.slots = s.host.slots ∧ t.time = s.time ∧ t.fab = s.fab ∧ t.tree = s.tree)) ∧
    (s.res.copy = none → s.res.blocks = [] → exec .blockCopyComplete s = .next s) ∧
    (∀ c a, s.res.copy = some c → c.what = .block a →
      (c.phase ≠ 4 → exec .blockCopyComplete s = .next s) ∧
      (c.phase = 4 → ∀ step, s.res.blocks = [(a, step)] → ∃ t, exec .blockCopyComplete s = .next t ∧
        t.res.copy = none ∧ t.res.blocks = [] ∧ (∀ x, t.byte x = s.byte x) ∧
        (c.failed = none → t.res.hold = s.res.hold ∧
          t = ({ s with
            mem := { s.mem with logs := t.mem.logs }
            ue := t.ue
            res := { s.res with copy := none, blocks := [] } } : State).reported t) ∧
        (c.failed ≠ none → t.res.hold = true ∧ (s.res.hold = false → t.res.cause = 4)))) ∧
    (s.timersPaused = true ∨ s.res.copy = none → exec .copySealWait s = .next s) ∧
    (s.timersPaused = false → ∀ c, s.res.copy = some c →
      (c.phase ≠ 3 → exec .copySealWait s = .next s) ∧
      (∀ chip rest, c.phase = 3 → c.sources = chip :: rest →
        c.waited + 65536 < 4096 * max 1 (bits (s.regs.eff regRsCtl 0) 31 16) →
        (∀ m : Msg, m.dst = chip % 32768 → bit (field m.header 1 1) 0 = bit s.fab.epoch 0 →
          m.dst = s.chipId ∨ (s.egress m).isSome = true) →
        ∃ t, exec .copySealWait s = .next t ∧
          t = ({ s with
            fab := t.fab
            res := { s.res with copy := some { c with waited := c.waited + 65536, phase := 0 } } } : State).reported t))

/-- TIER_WALK_TICK of a die whose walk is on, powered and with memory not held: every slice of the die has moved on by one
line, and no slice of the other die; where no unit is marked no byte changes; nothing but memory, cells and reports changes.
STACK_WALK_TICK of a stack in RUN below throttle level 3 whose walk is on, powered and not held: every pseudo-channel has
moved on by one row, but one whose row's unit is being converted, and no other stack's; nothing but memory and reports. Off,
held or without power each changes nothing. STACK_REFRESH adds the retries for parity errors to STK_CA_PARITY, and counts
one refresh, at the doubled rate from throttle level 1; a stack in self-refresh refreshes itself. STACK_TEMP_READ keeps the
temperature, and of a level up to 3 the new level is at least l exactly where the temperature has reached the threshold of
l, or the old level had it and the temperature is no more than 3 degrees below; a change posts event 0x0303, and no other
stack changes. REGION_CONVERSION_DONE with no seal to make invalid leaves the lowest changed unit zero and fresh, but where
a flip or injection waits for a write, every other byte as before, and the unit no longer converting; with none converting,
or without power, it changes nothing. Completion (the conclusion is exec c s = next t, under conditions on state and
operands alone): tierWalkTick and stackWalkTick, of a walk that is on; stackRefresh and stackTempRead, of a powered stack;
regionConversionDone, of a stack that converts. The choices of the model that it rests on: log entries 8, 43 and 48. (R346,
R366, R376, R378, R387, R373, 10_tier_memory_and_protection.md, 11_memory_stacks.md) -/
def Obligations.MemoryIsWalkedAndKept : Prop :=
  ∀ s : State,
    (∀ d < 2,
      (s.powered = true → bit (s.regs.eff (regTmCtl d) 0) 16 = true → s.sramHeld d = false →
        ∃ t, exec (.tierWalkTick d) s = .next t ∧ t = ({ s with mem := t.mem, cells := t.cells } : State).reported t ∧
          (∀ n < 256, mget 0 t.mem.sliceRow (d * 256 + n) = (mget 0 s.mem.sliceRow (d * 256 + n) + 1) % 122880 ∧
            mget 0 t.mem.sliceRow ((1 - d) * 256 + n) = mget 0 s.mem.sliceRow ((1 - d) * 256 + n)) ∧
          (s.mem.marks = [] → ∀ x, t.byte x = s.byte x)) ∧
      (s.powered = false ∨ bit (s.regs.eff (regTmCtl d) 0) 16 = false ∨ s.sramHeld d = true →
        exec (.tierWalkTick d) s = .next s)) ∧
    (∀ k < 8,
      (s.powered = true → bit (s.regs.eff (regStkCtl k) 0) 19 = true → (s.stack k).mode = .run → (s.stack k).throttle ≠ 3 →
        s.stackHeld k = false → ∃ t, exec (.stackWalkTick k) s = .next t ∧ t = ({ s with mem := t.mem } : State).reported t ∧
          (∀ pc < 64, mget 0 t.mem.stackRow (k * 64 + pc) =
            if s.stackWaits (rowPlace k pc (mget 0 s.mem.stackRow (k * 64 + pc)) 0).addr 32 then
              mget 0 s.mem.stackRow (k * 64 + pc)
            else (mget 0 s.mem.stackRow (k * 64 + pc) + 1) % 786432) ∧
          (∀ key, key < k * 64 ∨ k * 64 + 64 ≤ key → mget 0 t.mem.stackRow key = mget 0 s.mem.stackRow key) ∧
          (s.mem.marks = [] → ∀ x, t.byte x = s.byte x)) ∧
      (s.powered = false ∨ bit (s.regs.eff (regStkCtl k) 0) 19 = false ∨ (s.stack k).mode ≠ .run ∨ (s.stack k).throttle = 3 ∨
        s.stackHeld k = true → exec (.stackWalkTick k) s = .next s) ∧
      (s.powered = true →
        (∀ retries, ∃ t, exec (.stackRefresh ⟨k, retries⟩) s = .next t ∧ t = ({ s with stk := t.stk } : State).reported t ∧
          (s.cores.stopped = false →
            mget 0 t.obs.live (ctrKey (stackNode k) (ctrId 11 10 9)) =
              (if retries = 0 then mget 0 s.obs.live (ctrKey (stackNode k) (ctrId 11 10 9))
               else sat (ctrWidth (ctrId 11 10 9)) (mget 0 s.obs.live (ctrKey (stackNode k) (ctrId 11 10 9)) + retries))) ∧
          t.stack k = (if s.selfRefresh k then s.stack k else { s.stack k with
            refreshes := (s.stack k).refreshes + 1
            refreshDouble := decide (1 ≤ (s.stack k).throttle) }) ∧
          ∀ j, j ≠ k → t.stack j = s.stack j) ∧
        (∀ temp, (s.stack k).throttle ≤ 3 → ∃ t, exec (.stackTempRead k temp) s = .next t ∧
          t = ({ s with stk := t.stk } : State).reported t ∧
          t.stack k = { s.stack k with temp := temp % 256, throttle := (t.stack k).throttle } ∧
          (t.stack k).throttle ≤ 3 ∧
          (∀ l ∈ [(1, 85), (2, 95), (3, 105)], l.1 ≤ (t.stack k).throttle ↔
            l.2 ≤ temp ∨ l.1 ≤ (s.stack k).throttle ∧ l.2 ≤ temp + 3) ∧
          ((t.stack k).throttle ≠ (s.stack k).throttle → s.host.events.length < 512 →
            t.host.events = s.host.events ++ [eventRecord 0x0303 (k + 256 * (t.stack k).throttle) false false s.stamp]) ∧
          ((t.stack k).throttle = (s.stack k).throttle → t.host.events = s.host.events) ∧
          ∀ j, j ≠ k → t.stack j = s.stack j)) ∧
      (s.powered = false ∨ (s.stack k).converting = [] → exec (.regionConversionDone k) s = .next s) ∧
      (∀ g rest, s.powered = true → (s.stack k).converting = g :: rest → s.res.liveValid = false →
        ∃ t, exec (.regionConversionDone k) s = .next t ∧ t.stack k = { s.stack k with converting := rest } ∧
          (∀ x, x < stackBase + k * stackSize + g * 2 ^ 30 ∨ stackBase + k * stackSize + g * 2 ^ 30 + 2 ^ 30 ≤ x →
            t.byte x = s.byte x) ∧
          (∀ x, stackBase + k * stackSize + g * 2 ^ 30 ≤ x → x < stackBase + k * stackSize + g * 2 ^ 30 + 2 ^ 30 →
            x - x % 32 ∉ s.armedUnits → t.byte x = 0 ∧ mget 0 t.mem.marks x = 0) ∧
          (∀ j, j ≠ k → t.stack j = s.stack j) ∧ s.regs.agree t.regs ∧
          t = ({ s with stk := t.stk, mem := t.mem, regs := t.regs } : State).reported t))

/-- TEST_ENTRY of a powered stack in RUN, or in TEST at another data rate, with nothing converting, no margin test and no
work of its engines, whose oldest waiting capture asks for TEST, makes the captured fields effective, and the node of a
stack in RUN Fenced; at the same data rate the stack is in TEST state and the capture taken out, at another it is in
training and the capture still waits. Of a stack that trains again it takes the capture out: the stack is in TEST state with
the lanes that retraining repaired, or failed, with its node, where it failed. With no capture waiting, or with work of its
engines, it changes nothing. MARGIN_START, where BAR0 takes writes, of a stack in TEST with no test running: a VDDQ test
without all four stacks of the die in TEST reports DONE with all errors; any other starts with its kind, its bounded offset,
its scope and duration, and a VDDQ test also puts the offset to the regulator. In another state, or with a test running, it
changes nothing. MARGIN_TEST_DONE of a running test leaves none running, DONE and the saturated errors with PASS where there
are none, and the regulator back at its trained setting after a VDDQ test; with none running, or without power, it changes
nothing. Completion (the conclusion is exec c s = next t, under conditions on state and operands alone): testEntry, of a
capture that asks for TEST; marginStart, of a stack in TEST with no test running; marginTestDone, of a running test. The
choices of the model that it rests on: log entries 10 and 16. (R381, R383, R384, R385, R386, R813, R819,
11_memory_stacks.md) -/
def Obligations.StacksAreTested : Prop :=
  ∀ (s : State), ∀ k < 8,
    (∀ lanes,
      ((∀ c ∈ s.regs.captures, c.block ≠ 16 + k) ∨ s.engineWork k = true → exec (.testEntry k lanes) s = .next s) ∧
      (∀ c, s.regs.captures.find? (fun c => c.block == 16 + k) = some c → wantsTest k c.vals = true → s.powered = true →
        (s.stack k).mode = .run ∨ (s.stack k).mode = .test ∧ wantsBin k c.vals ≠ (s.stack k).bin →
        (s.stack k).converting = [] → (s.stack k).margin = none → s.engineWork k = false →
        bit ((({ s.regs with captures := s.regs.captures.erase c } : RegFile).apply c.vals).eff (regStkCtl k) 0) 24 = true →
        ∃ t, exec (.testEntry k lanes) s = .next t ∧
          ((s.stack k).mode = .run → (t.unit (stackNode k)).state = .fenced) ∧
          (t.stack k).bin = bits (t.regs.eff (regStkCtl k) 0) 27 26 ∧
          ((t.stack k).bin = (s.stack k).bin → (t.stack k).mode = .test ∧ t.regs.captures = s.regs.captures.erase c) ∧
          ((t.stack k).bin ≠ (s.stack k).bin → (t.stack k).mode = .training ∧ t.regs.captures = s.regs.captures) ∧
          (∀ j, j ≠ k → t.stack j = s.stack j) ∧ t.host.slots = s.host.slots ∧ t.time = s.time ∧ ∀ x, t.byte x = s.byte x) ∧
      (∀ c, s.regs.captures.find? (fun c => c.block == 16 + k) = some c → s.powered = true → s.engineWork k = false →
        (s.stack k).retraining = true → ∃ t, exec (.testEntry k lanes) s = .next t ∧
          t.regs.captures = s.regs.captures.erase c ∧
          (∀ n, lanes = some n → (t.stack k).mode = .test ∧ (t.stack k).lanesRepaired = min n 255 ∧ ∀ x, t.byte x = s.byte x) ∧
          (lanes = none → (t.stack k).mode = .failed ∧ (t.unit (stackNode k)).state = .failed) ∧
          (∀ j, j ≠ k → t.stack j = s.stack j) ∧ t.host.slots = s.host.slots ∧ t.time = s.time)) ∧
    (s.takesWrites = true → ∀ c, c = s.regs.eff (regMarginCtl k) 0 →
      ((s.stack k).mode ≠ .test ∨ (s.stack k).margin ≠ none → exec (.marginStart k) s = .next s) ∧
      ((s.stack k).mode = .test → (s.stack k).margin = none →
        (bits c 29 28 = 3 → (∃ j < 4, (s.stack (k / 4 * 4 + j)).mode ≠ .test) → ∃ t, exec (.marginStart k) s = .next t ∧
          t = { s with stk := t.stk } ∧ t.stack k = { s.stack k with marginResult := 2 ^ 31 + (2 ^ 24 - 1) } ∧
          ∀ j, j ≠ k → t.stack j = s.stack j) ∧
        (bits c 29 28 ≠ 3 ∨ (∀ j < 4, (s.stack (k / 4 * 4 + j)).mode = .test) → ∃ t, exec (.marginStart k) s = .next t ∧
          t = { s with stk := t.stk, out := t.out } ∧
          t.stack k = { s.stack k with
            marginResult := 0
            margin := some (bits c 29 28, marginBound (bits c 29 28) (sext 8 (bits c 23 16)),
              if bit c 14 then none else some (bits c 13 8), max 1 (c % 256)) } ∧
          (∀ j, j ≠ k → t.stack j = s.stack j) ∧
          t.out = s.out ++ (if bits c 29 28 = 3 then
            [.setpoint (16 + k / 4) (wrap 8 (marginBound 3 (sext 8 (bits c 23 16))))] else [])))) ∧
    (∀ errors,
      (s.powered = false ∨ (s.stack k).margin = none → exec (.marginTestDone k errors) s = .next s) ∧
      (∀ kind off pc n, s.powered = true → (s.stack k).margin = some (kind, off, pc, n) →
        ∃ t, exec (.marginTestDone k errors) s = .next t ∧ t = { s with stk := t.stk, out := t.out } ∧
          t.stack k = { s.stack k with
            margin := none
            marginResult := 2 ^ 31 + (if errors = 0 then 2 ^ 30 else 0) + min errors (2 ^ 24 - 1) } ∧
          (∀ j, j ≠ k → t.stack j = s.stack j) ∧
          t.out = s.out ++ (if kind = 3 then [.setpoint (16 + k / 4) 0] else [])))

/-- For a port below 12 of a powered package, each changes only the fabric's ports, root and ISLAND, the quality of time and
slew that follow from the root, and reports; of another port at most the credits it returns. PARTNER_DETECTED in SEEK begins
TRAIN at step 2, in RETRAIN keeps the state; both note the partner shown. TRAINING_STEP_DONE in TRAIN goes to the next step
and holds what the step shows (capabilities at 2, lane-0 delays at 4); after step 4 to ALIGN, where the port sends a control
flit. LOCK_ACHIEVED in ALIGN or RETRAIN reaches UP with the partner recorded, no failure counted and ISLAND clear; a closing
port with the same partner and nothing kept goes OFF. LOCK_SEARCH_TIMEOUT in ALIGN starts the count of good flits again.
TRAINING_STEP_TIMEOUT in TRAIN or ALIGN and RETRAIN_TIMEOUT in RETRAIN count a failure: a closing port is OFF; else at the
third in a row the port is FAILED and event 0x0401 is posted, before that it is in SEEK. HEADER_MISMATCH in UP goes to ALIGN
with replay buffer, sequence numbers and begun messages kept and other queued messages dropped. PORT_DISABLE_TIMEOUT of a
closing port leaves it OFF, with nothing queued or kept where it had a partner. REPLAY_TIMEOUT in UP with nothing
unacknowledged changes nothing; else it counts one resend and sends every kept flit again, oldest first, or, after sixteen
in a row, enters RETRAIN. In the other states each changes nothing. Completion (the conclusion is exec c s = next t, under
conditions on state and operands alone): partnerDetected in SEEK or RETRAIN, trainingStepDone in TRAIN, lockAchieved in
ALIGN or RETRAIN, lockSearchTimeout in ALIGN, trainingStepTimeout in TRAIN or ALIGN, retrainTimeout in RETRAIN,
headerMismatch and replayTimeout in UP, portDisableTimeout of a closing port. The choices of the model that it rests on: log
entries 8, 24 and 43. (R445, R447, R448, R452, R453, R461, R477, R478, R479, R460, 13_ranel_fabric.md) -/
def Obligations.PortsTrainAndFail : Prop :=
  ∀ (s : State), ∀ p < 12, s.powered = true → ∀ q, q = s.portAt p →
    (∀ chip pp serial,
      (q.mode = .seek ∨ q.mode = .retrain → ∃ t, exec (.partnerDetected p chip pp serial) s = .next t ∧
        t = { s with fab := { s.fab with ports := t.fab.ports } } ∧ (∀ r, r ≠ p → t.portAt r = s.portAt r) ∧
        t.portAt p = { q with
          mode := (if q.mode = .seek then .train else .retrain), step := (if q.mode = .seek then 2 else 0)
          newChip := chip % 32768, newPort := pp % 16, newSerial := serial % 2 ^ 64 }) ∧
      (q.mode ≠ .seek → q.mode ≠ .retrain → exec (.partnerDetected p chip pp serial) s = .next s)) ∧
    (∀ w : TrainStep, w.port = p →
      (q.mode = .train → ∃ t, exec (.trainingStepDone w) s = .next t ∧
        t = { s with out := t.out, fab := { s.fab with ports := t.fab.ports } } ∧
        (∀ r, r ≠ p → t.portAt r = s.portAt r) ∧
        (q.step < 4 → t.out = s.out ∧ t.portAt p = { q with
          step := q.step + 1, capabilities := (if q.step = 2 then w.capabilities else q.capabilities) }) ∧
        (4 ≤ q.step → (∃ f levels, t.out = s.out ++ [.flit p f levels] ∧ goodFlit f = true ∧ bits (field f 0 4) 31 30 = 2) ∧
          t.portAt p = { q with
            step := 5, mode := .align, laneDelay := (if q.step = 4 then (w.delayOut, w.delayIn) else q.laneDelay), lockFrom := 0, lockGood := 0
            flitsSent := 1, sinceControl := 0, scramblers := (t.portAt p).scramblers })) ∧
      (q.mode ≠ .train → exec (.trainingStepDone w) s = .next s)) ∧
    (q.mode = .align ∨ q.mode = .retrain → ∃ t, exec (.lockAchieved p) s = .next t ∧ s.portsOnly t ∧ s.otherPorts p t ∧
      (q.closing = false → t.fab.island = false ∧ (t.portAt p).mode = .up ∧ (t.portAt p).fails = 0 ∧
        (t.portAt p).known = true ∧ (t.portAt p).chip = q.newChip ∧ (t.portAt p).port = q.newPort ∧
        (t.portAt p).serial = q.newSerial) ∧
      (q.closing = true → q.replay = [] → (q.known = true → q.port = q.newPort ∧ q.serial = q.newSerial) →
        (t.portAt p).mode = .off)) ∧
    (q.mode ≠ .align → q.mode ≠ .retrain → exec (.lockAchieved p) s = .next s) ∧
    (q.mode = .align → ∃ t, exec (.lockSearchTimeout p) s = .next t ∧
      t = { s with fab := { s.fab with ports := t.fab.ports } } ∧ (∀ r, r ≠ p → t.portAt r = s.portAt r) ∧
      t.portAt p = { q with lockGood := 0 }) ∧
    (q.mode ≠ .align → exec (.lockSearchTimeout p) s = .next s) ∧
    (∀ c ∈ [(Instr.trainingStepTimeout p, [PortMode.train, .align]), (.retrainTimeout p, [.retrain])],
      (q.mode ∈ c.2 → ∃ t, exec c.1 s = .next t ∧ s.portsOnly t ∧ s.otherPorts p t ∧ (t.portAt p).fails = q.fails + 1 ∧
        (q.closing = true → (t.portAt p).mode = .off) ∧
        (q.closing = false → q.fails < 2 → (t.portAt p).mode = .seek) ∧
        (q.closing = false → 2 ≤ q.fails → (t.portAt p).mode = .failed ∧
          (s.host.events.length < 500 → ∃ st, eventRecord 0x0401 p false false st ∈ t.host.events))) ∧
      (q.mode ∉ c.2 → exec c.1 s = .next s)) ∧
    (q.mode = .up →
      (∃ t, exec (.headerMismatch p) s = .next t ∧ s.portsOnly t ∧ s.otherPorts p t ∧
        t.portAt p = { q with
          mode := .align, step := 5, newChip := q.chip, newPort := q.port, newSerial := q.serial, lockFrom := 0, lockGood := 0
          changed := true, queue := q.queue.filter (fun o => decide (o.sent ≠ 0)), returned := (t.portAt p).returned }) ∧
      (q.replay = [] → exec (.replayTimeout p) s = .next s) ∧
      (q.replay ≠ [] → ∃ t, exec (.replayTimeout p) s = .next t ∧ s.portsOnly t ∧ s.otherPorts p t ∧
        (t.portAt p).replay = q.replay ∧
        (q.resends < 16 → (t.portAt p).mode = .up ∧ (t.portAt p).resends = q.resends + 1 ∧
          (q.replay.map (·.2)).Sublist ((t.out.drop s.out.length).filterMap (fun o => match o with
            | .flit r f _ => if r = p then some f else none
            | _ => none))) ∧
        (16 ≤ q.resends → (t.portAt p).mode = .retrain))) ∧
    (q.mode ≠ .up → exec (.headerMismatch p) s = .next s ∧ exec (.replayTimeout p) s = .next s) ∧
    (q.closing = true → ∃ t, exec (.portDisableTimeout p) s = .next t ∧ s.portsOnly t ∧ s.otherPorts p t ∧
      (t.portAt p).mode = .off ∧ (t.portAt p).known = false ∧
      (q.linked = true → (t.portAt p).queue = [] ∧ (t.portAt p).replay = [] ∧ (t.portAt p).closing = false)) ∧
    (q.closing = false → exec (.portDisableTimeout p) s = .next s)

/-- For a port below 12 of a powered package: in a state other than UP and ALIGN, DATA_FLIT, CONTROL_FLIT, IDLE_FLIT and
CONTROL_FLIT_TIMER change nothing. In ALIGN a bad flit of any kind moves the search for lock on by one of its 80 positions
and ends the count of good ones, a good one counts, and the fourth acts as LOCK_ACHIEVED. In UP: a bad flit leaves a NAK
standing and sends a control flit; a good idle flit changes nothing, nor does a good flit given to DATA_FLIT out of sequence
or of another kind; a good data flit in sequence that finds room in the receive buffer moves the expected SEQ on by one,
ends the NAK and is counted in its class and VL, and one that ends a message completes it in that buffer; after a DATA_FLIT
the messages that wait for nothing are acted on (takeWaiting). A good control flit without NAK on a port that is not closing
and has nothing queued, while no descriptor is held for its time, takes out of the replay buffer what it acknowledges and
sets the limits to its credits plus the buffers. CONTROL_FLIT_TIMER in UP or ALIGN puts one control flit on the port, of 156
bytes with a right CRC: 80 PAM4 levels on each of 8 lanes, of which the first two are +3 and -3, or -3 and +3 where it is a
4 096th flit; each other level carries two data bits, bit l of two successive flit bytes on lane l, xored with the lane's
scrambler, which a reseed block first sets to 0x1B_2C3D_4E50 + 0x11 l. Xored again with the same scrambler the data bits are
the flit's. Completion (the conclusion is exec c s = next t, under conditions on state and operands alone): dataFlit,
controlFlit, idleFlit and controlFlitTimer, of a port in UP. The choices of the model that it rests on: log entries 24, 43,
46 and 57. (R441, R449, R450, R451, R452, R455, R456, R457, R458, R459, R463, 13_ranel_fabric.md) -/
def Obligations.FlitsArriveAndLeave : Prop :=
  ∀ (s : State), ∀ p < 12, s.powered = true → ∀ q, q = s.portAt p → ∀ bs : List Byte, ∀ i,
    i = 2 * bits (field bs 0 4) 29 28 + bits (field bs 0 4) 27 27 →
    (q.mode ≠ .up → q.mode ≠ .align → ∀ c ∈ [Instr.dataFlit p bs, .controlFlit p bs, .idleFlit p bs, .controlFlitTimer p],
      exec c s = .next s) ∧
    (q.mode = .align → ∀ c ∈ [Instr.dataFlit p bs, .controlFlit p bs, .idleFlit p bs],
      (goodFlit bs = true → 3 ≤ q.lockGood → exec c s = exec (.lockAchieved p) s) ∧
      (goodFlit bs = false ∨ q.lockGood < 3 → ∃ t, exec c s = .next t ∧
        t = ({ s with fab := { s.fab with ports := t.fab.ports } } : State).reported t ∧
        (∀ r, r ≠ p → t.portAt r = s.portAt r) ∧
        t.portAt p = (if goodFlit bs then { q with lockGood := q.lockGood + 1 }
          else { q with lockFrom := (q.lockFrom + 1) % 80, lockGood := 0 }))) ∧
    (q.mode = .up →
      (goodFlit bs = false → ∃ t,
        exec (.dataFlit p bs) s = .next t.takeWaiting ∧ exec (.controlFlit p bs) s = .next t ∧ exec (.idleFlit p bs) s = .next t ∧
        t = ({ s with fab := { s.fab with ports := t.fab.ports } } : State).reported t ∧
        t.portAt p = { q with
          nak := true, flitsSent := q.flitsSent + 1, scramblers := (t.portAt p).scramblers, sinceControl := 0 } ∧
        (∀ r, r ≠ p → t.portAt r = s.portAt r) ∧ ∃ f levels, t.out = s.out ++ [.flit p f levels] ∧ goodFlit f = true) ∧
      (goodFlit bs = true → exec (.idleFlit p bs) s = .next s) ∧
      (goodFlit bs = true → bits (field bs 0 4) 31 30 ≠ 1 ∨ bits (field bs 0 4) 24 13 ≠ q.rxSeq →
        exec (.dataFlit p bs) s = .next s.takeWaiting) ∧
      (goodFlit bs = true → bits (field bs 0 4) 31 30 = 1 → bits (field bs 0 4) 24 13 = q.rxSeq →
        q.buffered i < classBuffer (i / 2) → q.got.length = 8 → ∃ t, exec (.dataFlit p bs) s = .next t.takeWaiting ∧
          t = ({ s with fab := { s.fab with ports := t.fab.ports } } : State).reported t ∧
          (∀ r, r ≠ p → t.portAt r = s.portAt r) ∧ t.out = s.out ∧
          t.portAt p = { q with
            rxSeq := (q.rxSeq + 1) % 4096, nak := false, partial' := (t.portAt p).partial', got := (t.portAt p).got
            inbox := (t.portAt p).inbox } ∧
          (∀ j < 8, at8 (t.portAt p).got j = if j = i then (at8 q.got j + 1) % 65536 else at8 q.got j) ∧
          (bit (field bs 0 4) 25 = false → (t.portAt p).inbox = q.inbox) ∧
          (bit (field bs 0 4) 25 = true → ∃ h, (t.portAt p).inbox = q.inbox ++ [h] ∧ h.lane = i ∧
            (bit (field bs 0 4) 26 = true → h.flits = 1 ∧ h.msg.header = slice bs 4 16))) ∧
      (goodFlit bs = true → bits (field bs 0 4) 31 30 ≠ 2 → exec (.controlFlit p bs) s = .next s) ∧
      (goodFlit bs = true → bits (field bs 0 4) 31 30 = 2 → bit (field bs 4 2) 12 = false → q.closing = false →
        q.queue = [] → (s.tf.timetable = true → ∀ k sl, s.slot k = some sl → sl.phase ≠ .waiting) →
        ∃ t, exec (.controlFlit p bs) s = .next t ∧
          t = ({ s with fab := t.fab, time := t.time, mgmt := t.mgmt } : State).reported t ∧
          (∀ r, r ≠ p → t.portAt r = s.portAt r) ∧ t.fab.routes = s.fab.routes ∧ t.fab.ctxs = s.fab.ctxs ∧
          t.fab.reqs = s.fab.reqs ∧ (t.portAt p).mode = .up ∧
          (t.portAt p).replay = q.replay.filter (fun b =>
            decide (2048 ≤ (field bs 4 2 % 4096 + 4096 - bits (field b.2 0 4) 24 13) % 4096)) ∧
          ∀ j < 8, at8 (t.portAt p).limits j = (field bs (8 + 2 * j) 2 + classBuffer (j / 2)) % 65536)) ∧
    (q.mode = .up ∨ q.mode = .align →
      ∃ t f levels, exec (.controlFlitTimer p) s = .next t ∧
        t = { s with out := s.out ++ [.flit p f levels], fab := { s.fab with ports := t.fab.ports } } ∧
        t.portAt p = { q with flitsSent := q.flitsSent + 1, scramblers := (t.portAt p).scramblers, sinceControl := 0 } ∧
        (∀ r, r ≠ p → t.portAt r = s.portAt r) ∧ goodFlit f = true ∧ bits (field f 0 4) 31 30 = 2 ∧ f.length = 156 ∧
        levels.length = 8 ∧ ∀ l < 8, ∀ lane, levels[l]? = some lane → ∀ reseed st sent : _,
          reseed = decide ((q.flitsSent + 1) % 4096 = 0) →
          st = (if reseed then 0x1B2C3D4E50 + 0x11 * l else (q.scramblers[l]?).getD 0) →
          sent = scramble st (f.map (fun b => b.getLsbD l)) →
          lane.length = 80 ∧ lane.take 2 = (if reseed then [-3, 3] else [3, -3]) ∧
          (∀ i < 78, lane[i + 2]? = some (pairLevel ((sent.1[2 * i]?).getD false) ((sent.1[2 * i + 1]?).getD false))) ∧
          (t.portAt p).scramblers[l]? = some sent.2 ∧ (scramble st sent.1).1 = f.map (fun b => b.getLsbD l))

/-- Without power none of them changes anything. TIME_REF_LOST leaves the reference invalid with no pulse counted; where no
port offers a root, ROOT_EN is set, a port is UP and time is set, this package is then its own FABRIC root and slews no
more. TIME_REF_PULSE while the reference is not valid counts it; the reference is then valid exactly where a pulse came
before and the interval is within 100 ppm of 1 s. While it is valid, the package UNSET with TREF_EN and SET_ARM set and no
port offering, the pulse makes Station Time the armed time, the quality REFERENCED and clears SET_ARM, before held
descriptors whose start the step has reached are released. UNSET_ROOT_TIMER of an UNSET package whose own FABRIC offer is
best and whose reference is off starts Station Time at 0 as a FABRIC root; in any other quality it changes nothing.
ROUTE_SWITCH, armed, at or after its time switches the epoch and clears ARM; otherwise it changes nothing. Each changes only
the fabric, time, the register named and reports. Completion (the conclusion is exec c s = next t, under conditions on state
and operands alone): timeRefLost and timeRefPulse, with power; unsetRootTimer, in UNSET; routeSwitch, armed, at or after its
time. The choices of the model that it rests on: log entries 8, 25 and 43. (R476, R488, R491, R492, R495, R496, R818,
13_ranel_fabric.md) -/
def Obligations.TimeAndRoutesChange : Prop :=
  ∀ s : State,
    (s.powered = false → ∀ c ∈ [Instr.timeRefLost, .unsetRootTimer, .routeSwitch, .timeRefPulse 0], exec c s = .next s) ∧
    (s.powered = true →
      (∃ t, exec .timeRefLost s = .next t ∧
        t = ({ s with
          time := { s.time with quality := t.time.quality, slew := t.time.slew, slewPhase := t.time.slewPhase }
          fab := { s.fab with
            trefValid := false, trefPulses := 0, upPort := t.fab.upPort, hops := t.fab.hops, root := t.fab.root } }
          : State).reported t ∧
        ((∀ p < 12, s.portOffer p = none) → s.rootEn = true → s.upPorts ≠ [] → s.time.quality ≠ .unset →
          t.time.quality = .fabric ∧ t.time.slew = 0 ∧ t.fab.upPort = 15 ∧ t.fab.hops = 0 ∧ t.fab.root = s.chipId)) ∧
      (∀ n, s.fab.trefValid = false → ∃ t, exec (.timeRefPulse n) s = .next t ∧
        t = ({ s with
          time := { s.time with quality := t.time.quality, slew := t.time.slew, slewPhase := t.time.slewPhase }
          fab := { s.fab with
            trefValid := t.fab.trefValid, trefPulses := 1, upPort := t.fab.upPort, hops := t.fab.hops, root := t.fab.root } }
          : State).reported t ∧
        (t.fab.trefValid = true ↔ 1 ≤ s.fab.trefPulses ∧ 999900000 ≤ n ∧ n ≤ 1000100000)) ∧
      (∀ n, s.fab.trefValid = true → s.time.quality = .unset → s.trefEn = true → bit (s.regs.eff regTimeCtl 0) 2 = true →
        (∀ p < 12, s.portOffer p = none) → ∃ t,
          exec (.timeRefPulse n) s = .next (t.releaseSkipped s.time.now) ∧
          t = ({ s with regs := t.regs, time := t.time, fab := t.fab } : State).reported t ∧
          t.time.now = s.timeSet ∧ t.time.quality = .referenced ∧ t.time.beats = s.time.beats ∧
          s.regs.only t.regs regTimeCtl 0 ∧ bit (t.regs.eff regTimeCtl 0) 2 = false ∧ t.fab.ports = s.fab.ports) ∧
      (s.time.quality = .unset → s.bestOffer = some (1, s.chipId, 0, 0) → s.rootEn = true → s.trefEn = false →
        ∃ t, exec .unsetRootTimer s = .next t ∧
          t = ({ s with
            time := { s.time with now := 0, quality := .fabric, slew := 0, slewPhase := 0 }
            fab := { s.fab with upPort := 15, hops := 0, root := s.chipId } } : State).reported t) ∧
      (s.time.quality ≠ .unset → exec .unsetRootTimer s = .next s) ∧
      (bit (s.regs.eff regRouteSwitchHi 0) 31 = true →
        s.regs.eff regRouteSwitchLo 0 + s.regs.eff regRouteSwitchHi 0 % 2 ^ 30 * 2 ^ 32 ≤ s.time.now →
        ∃ t, exec .routeSwitch s = .next t ∧ t = { s with regs := t.regs, fab := { s.fab with epoch := 1 - s.fab.epoch } } ∧
          s.regs.only t.regs regRouteSwitchHi 0 ∧ bit (t.regs.eff regRouteSwitchHi 0) 31 = false) ∧
      (bit (s.regs.eff regRouteSwitchHi 0) 31 = false ∨
        s.time.now < s.regs.eff regRouteSwitchLo 0 + s.regs.eff regRouteSwitchHi 0 % 2 ^ 30 * 2 ^ 32 →
        exec .routeSwitch s = .next s))

/-- Where cores run and hart h below 64 has no halt, DEBUG_HALT keeps its pc and adds its halt with the scope that
CORE_SCOPE gives; with a halt of the hart already, or no cores running, it changes nothing. DBG_CTL_HALT, where BAR0 takes
writes, adds the halt of the node in HALT_NODE; one that names no node, or a spare, leaves it without effect, with a clamp.
HALT_DRAIN_COMPLETE reports every halt of whose scope nothing runs and leaves the others, and a node of a reported scope
that was Idle is then Halted; DRAIN_LIMIT_EXPIRY reports the oldest unreported halt, with DRAIN_INCOMPLETE where its scope
still runs, and with none unreported changes nothing. HART_RESUME ends the hart's halts and DBG_CTL_RESUME the host's: they
are gone, a Halted node of their scopes that nothing else holds is Idle or Busy, and with no such halt nothing changes. Each
changes only the halts with what belongs to them, node states, reports and what waits in the base dies' write buffers, which
a reported halt empties in its scope. Completion (the conclusion is exec c s = next t, under conditions on state and
operands alone): debugHalt and dbgCtlHalt, of a hart or node with no halt; haltDrainComplete, drainLimitExpiry, hartResume
and dbgCtlResume, of a halt that stands. The choices of the model that it rests on: log entries 8, 36 and 56. (R691, R692,
R693, R694, R695, R697, R698, 19_control_cores_and_observation.md) -/
def Obligations.HaltsBeginAndEnd : Prop :=
  ∀ s : State,
    (∀ h < 64, ∀ pc cause,
      (s.coresRun = false ∨ s.hartHalted h = true → exec (.debugHalt h pc cause) s = .next s) ∧
      (s.coresRun = true → s.hartHalted h = false → ∃ t, exec (.debugHalt h pc cause) s = .next t ∧
        t = ({ s with
          mem := { s.mem with buffered := t.mem.buffered }
          cores := t.cores, tree := { s.tree with units := t.tree.units } } : State).reported t ∧
        mget 0 t.cores.dpc h = pc % 2 ^ 64 ∧ (∃ x ∈ t.cores.halts, x.source = h ∧ x.node = s.hartScope h) ∧
        t.cores.fatal = s.cores.fatal ∧ t.cores.halts.length = s.cores.halts.length + 1)) ∧
    (s.takesWrites = true → ∀ id, id = s.regs.shadow regHaltNode 0 % 65536 →
      ((s.placeOf id = none ∨ 0xF000 ≤ id) → ∃ t, exec .dbgCtlHalt s = .next t ∧ t = s.reported t ∧
        t.host.clampCount = min (s.host.clampCount + 1) (2 ^ 32 - 1)) ∧
      ((s.placeOf id).isSome = true → id < 0xF000 → s.coresRun = true → ∃ t, exec .dbgCtlHalt s = .next t ∧
        t = ({ s with
          mem := { s.mem with buffered := t.mem.buffered }
          cores := t.cores, tree := { s.tree with units := t.tree.units } } : State).reported t ∧
        ∃ x ∈ t.cores.halts, x.source = 64 ∧ x.node = id)) ∧
    (∃ t, exec .haltDrainComplete s = .next t ∧
      t = ({ s with
        mem := { s.mem with buffered := t.mem.buffered }
        cores := { s.cores with halts := t.cores.halts, incomplete := t.cores.incomplete }
        tree := { s.tree with units := t.tree.units } } : State).reported t ∧
      (∀ x ∈ s.cores.halts, s.draining x = false → { x with reported := true } ∈ t.cores.halts ∧
        (x.reported = false → ∀ i ∈ subtree x.node, (s.unit (s.unitOf i)).state = .idle →
          (t.unit (s.unitOf i)).state = .halted)) ∧
      (∀ x ∈ s.cores.halts, s.draining x = true → x ∈ t.cores.halts) ∧
      t.cores.halts.length = s.cores.halts.length) ∧
    ((∀ x ∈ s.cores.halts, x.reported = true) → exec .drainLimitExpiry s = .next s) ∧
    (∀ x, s.cores.halts.find? (fun x => !x.reported) = some x → ∃ t, exec .drainLimitExpiry s = .next t ∧
      (∀ e ∈ t.mem.buffered, e ∈ s.mem.buffered ∧ stackNode (stackOf e.1) ∉ subtree x.node) ∧
      t = ({ s with
        mem := { s.mem with buffered := t.mem.buffered }
        cores := { s.cores with halts := t.cores.halts, incomplete := s.draining x }
        tree := { s.tree with units := t.tree.units } } : State).reported t ∧
      t.cores.halts = s.cores.halts.map (fun y => if y = x then { y with reported := true } else y) ∧
      ∀ i ∈ subtree x.node, (s.unit (s.unitOf i)).state = .idle → (t.unit (s.unitOf i)).state = .halted) ∧
    (∀ c ∈ (List.range 64).map (fun h => (Instr.hartResume h, h)) ++ [(.dbgCtlResume, 64)],
      (c.2 = 64 → s.takesWrites = true) →
      ((∀ x ∈ s.cores.halts, x.source ≠ c.2) → exec c.1 s = .next s) ∧
      (∃ t, exec c.1 s = .next t ∧
        t = ({ s with
          cores := { s.cores with halts := s.cores.halts.filter (fun x => x.source != c.2) }
          tree := { s.tree with units := t.tree.units } } : State).reported t ∧
        ∀ x ∈ s.cores.halts, x.source = c.2 → ∀ i ∈ subtree x.node, t.heldNode i = false →
          (t.unit (s.unitOf i)).state ≠ .halted))

/-- Where cores run, DBG_CTL_FORCE_FATAL (cause 6, where BAR0 takes writes), CORE_TRAP of a hart (1), WATCHDOG of a hart
with a role and not in debug mode (2), QUEUE_UE (3) and COUPLING (4) enter FATAL: the flag, SEEN, the cause and the present
stamp are set and MULTIPLE is clear; in FATAL they set MULTIPLE only. Beside that they note at most the hart, and nothing
else changes. Where no cores run nothing changes. FATAL_DRAIN_LIMIT_EXPIRY in FATAL, counters running, stops them and leaves
nothing in the base dies' write buffers: no live counter changes, and the dump is not wanted, abandoned or running;
otherwise it changes nothing. DUMP_DONE of a running dump abandons it where a stack of its region is FAILED or in TEST or no
hart can write it, waits with its region's stacks, and else records it written, with node states, registers (but those that
arm flips), slots and time as they were. HOST_DUMP_DONE, wanted, of a written dump not yet copied, whose region's stacks
answer, out of D3hot, sends only host writes, notes it done and changes nothing else but reports; in any other state each
changes nothing. Completion (the conclusion is exec c s = next t, under conditions on state and operands alone): queueUe,
coupling, coreTrap, watchdog and dbgCtlForceFatal, where cores run; fatalDrainLimitExpiry, in FATAL; dumpDone, of a running
dump; hostDumpDone, of a written one. The choices of the model that it rests on: log entries 8, 36 and 56. (R704, R709,
R710, R711, R712, R713, R714, R715, 19_control_cores_and_observation.md) -/
def Obligations.FatalIsEnteredOnceAndDumped : Prop :=
  ∀ s : State,
    (s.coresRun = true → ∀ c ∈ [(Instr.queueUe, 3), (.coupling, 4)] ++ (List.range 64).map (fun h => (Instr.coreTrap h, 1))
        ++ ((List.range 64).filter (fun h => hartRole h != 0 && !s.hartHalted h)).map (fun h => (Instr.watchdog h, 2))
        ++ (if s.takesWrites then [(.dbgCtlForceFatal, 6)] else []),
      ∃ t, exec c.1 s = .next t ∧
        (s.cores.fatal = false → t = { s with cores := { s.cores with
          fatal := true, seen := true, multiple := false, cause := c.2, fatalStamp := s.stamp
          dead := t.cores.dead, trapped := t.cores.trapped } }) ∧
        (s.cores.fatal = true → t = { s with cores := { s.cores with
          multiple := true, dead := t.cores.dead, trapped := t.cores.trapped } })) ∧
    (s.coresRun = false → ∀ c ∈ [Instr.queueUe, .coupling, .dbgCtlForceFatal] ++ (List.range 64).map Instr.coreTrap
        ++ (List.range 64).map Instr.watchdog, exec c s = .next s) ∧
    (s.cores.fatal = false ∨ s.cores.stopped = true → exec .fatalDrainLimitExpiry s = .next s) ∧
    (s.cores.fatal = true → s.cores.stopped = false → ∃ t, exec .fatalDrainLimitExpiry s = .next t ∧ t.cores.stopped = true ∧
      t.obs.live = s.obs.live ∧ t.cores.fatal = true ∧ t.cores.cause = s.cores.cause ∧
      (s.dumpRoom = 0 → t.cores.dumpState = 0) ∧ (s.dumpRoom ≠ 0 → t.cores.dumpState = 1 ∨ t.cores.dumpState = 3) ∧
      t.time = s.time ∧ t.regs = s.regs ∧ t.tree = s.tree ∧ t.mem = { s.mem with buffered := [] } ∧ t.fab = s.fab) ∧
    (s.cores.fatal = false ∨ s.cores.dumpState ≠ 1 → exec .dumpDone s = .next s) ∧
    (s.cores.fatal = true → s.cores.dumpState = 1 →
      (s.dumpBlocked = false → s.dumpWriter.isSome = true → s.stackWaits s.dumpBase s.dumpRoom = true →
        exec .dumpDone s = .next s) ∧
      (s.dumpBlocked = true ∨ s.dumpWriter = none → exec .dumpDone s = .next { s with cores := { s.cores with dumpState := 3 } }) ∧
      (s.dumpBlocked = false → s.dumpWriter.isSome = true → s.stackWaits s.dumpBase s.dumpRoom = false → ∃ t, exec .dumpDone s = .next t ∧
        t.cores = { s.cores with dumpState := 2, truncated := s.dumpDir.2, dumpMib := t.cores.dumpMib } ∧
        t.tree = s.tree ∧ s.regs.agree t.regs ∧ t.host.slots = s.host.slots ∧ t.time = s.time ∧ t.fab = s.fab ∧ t.pwr = s.pwr)) ∧
    (s.cores.fatal = false ∨ s.cores.dumpState ≠ 2 ∨ s.cores.hostDone = true ∨ bit (s.regs.eff regDumpCtl 0) 2 = false ∨
      s.dumpBlocked = true ∨ s.stackWaits s.dumpBase (dumpSize s.dumpDir.1) = true ∨ s.d3hot = true →
      exec .hostDumpDone s = .next s) ∧
    (s.cores.fatal = true → s.cores.dumpState = 2 → s.cores.hostDone = false → bit (s.regs.eff regDumpCtl 0) 2 = true →
      s.dumpBlocked = false → s.stackWaits s.dumpBase (dumpSize s.dumpDir.1) = false → s.d3hot = false →
      ∃ t, exec .hostDumpDone s = .next t ∧ t = ({ s with cores := { s.cores with hostDone := true } } : State).reported t ∧
        ∀ o ∈ t.out.drop s.out.length, ∃ a b p, o = Output.hostWrite a b p)

/-- Where VAUX is present, the TAP instruction IDCODE (code 1) selects its register and returns 0x124009A7, and changes
nothing else; in that word bits [31:28] are 1 (the version), bits [27:12] 0x2400 (the part), bits [11:1] 0x4D3 (the
manufacturer) and bit 0 is 1. (R845) -/
def Obligations.TapReadsIdcode : Prop :=
  (∀ (s : State) (drive : Nat), s.rst.vaux = true → exec (.tapInstruction 0x01 drive) s = .next
    { s with out := s.out ++ [.debug 0x124009A7], cores := { s.cores with tapIr := 0x01 } }) ∧
  bits 0x124009A7 31 28 = 1 ∧ bits 0x124009A7 27 12 = 0x2400 ∧ bits 0x124009A7 11 1 = 0x4D3 ∧ bits 0x124009A7 0 0 = 1

/-- DEBUG_AUTH without VAUX or without a challenge in force changes nothing; with one, a token of 104 bytes whose signature
holds adds its scope to what is unlocked, any other token counts one failure, and the challenge is used up. DMI_ACCESS
without the main rails changes nothing; with them a bus access that waits goes on first where its stack serves it (sbGo),
none waiting being no change. Locked, a read of any register but authdata returns dmstatus (3), dmactive or zero and changes
nothing else, and a write of a register other than authdata and dmcontrol changes nothing; open, a write of data0 is kept
and changes nothing else. TAP_INSTRUCTION without VAUX changes nothing; a code that Table 24.8 does not hold selects BYPASS
and returns 0, and with TEST_MODE low so do EXTEST, CLAMP, HIGHZ, EXTEST_PULSE and EXTEST_TRAIN in what they return; the
serial number is returned whole. The layout of the Debug Module's registers is log entry 33's. Completion (the conclusion is
exec c s = next t, under conditions on state and operands alone): tapInstruction and debugAuth, with VAUX; dmiAccess, with
the main rails. The choices of the model that it rests on: log entry 34. (R687, R766, R844, R846,
19_control_cores_and_observation.md, 21_management_security_black_box.md, 24_package_and_electrical.md) -/
def Obligations.DebugIsLocked : Prop :=
  ∀ s : State,
    (∀ token : List Byte,
      (s.rst.vaux = false ∨ s.mgmt.challenge = [] → exec (.debugAuth token) s = .next s) ∧
      (s.rst.vaux = true → s.mgmt.challenge ≠ [] →
        (token.length = 104 → ∃ t good, exec (.debugAuth token) s = .next t ∧
          good = Config.debugVerify (natLe 8 Config.serial.toNat ++ s.mgmt.challenge ++ slice token 0 8) (slice token 8 96) ∧
          t.mgmt.unlocked = (if good = true then s.mgmt.unlocked ||| bits (leNat (slice token 0 8)) 1 0 else s.mgmt.unlocked) ∧
          t.mgmt.authFails = (if good = true then s.mgmt.authFails else s.mgmt.authFails + 1) ∧ t.mgmt.challenge = [] ∧
          t = ({ s with mgmt := t.mgmt, cores := { s.cores with authPos := 0 } } : State).reported t) ∧
        (token.length ≠ 104 → ∃ t, exec (.debugAuth token) s = .next t ∧
          t = ({ s with
            mgmt := { s.mgmt with authFails := s.mgmt.authFails + 1, challenge := [] }
            cores := { s.cores with authPos := 0 } } : State).reported t))) ∧
    (∀ op a v, s.mainRails = false → exec (.dmiAccess op a v) s = .next s) ∧
    (s.mainRails = true → ∀ u, u = s.sbGo s.sbPending → u.dmOpen = false → ∀ a v, a ≠ 0x30 →
      exec (.dmiAccess 1 a v) s = .next { u with
        out := u.out ++ [.debug (if a = 0x11 then 3 else if a = 0x10 then mget 0 u.cores.dmi 0x10 % 2 else 0)] } ∧
      (a ≠ 0x10 → exec (.dmiAccess 2 a v) s = .next u)) ∧
    (s.sbPending = 0 → s.sbGo s.sbPending = s) ∧
    (s.mainRails = true → ∀ u, u = s.sbGo s.sbPending → u.dmOpen = true → ∀ v, ∃ t, exec (.dmiAccess 2 0x04 v) s = .next t ∧
      t = { u with cores := { u.cores with dmi := t.cores.dmi } } ∧ mget 0 t.cores.dmi 0x04 = v % 2 ^ 32 ∧
      ∀ a, a ≠ 0x04 → mget 0 t.cores.dmi a = mget 0 u.cores.dmi a) ∧
    (∀ ir drive,
      (s.rst.vaux = false → exec (.tapInstruction ir drive) s = .next s) ∧
      (s.rst.vaux = true →
        (ir < 32 → ir ∉ [0x00, 0x01, 0x02, 0x03, 0x04, 0x05, 0x06, 0x10, 0x11, 0x18, 0x19] →
          exec (.tapInstruction ir drive) s = .next
            { s with out := s.out ++ [.debug 0], cores := { s.cores with tapIr := 0x1F } }) ∧
        (s.rst.testMode = false → ir ∈ [0x00, 0x03, 0x04, 0x05, 0x06] → exec (.tapInstruction ir drive) s = .next
          { s with out := s.out ++ [.debug 0], cores := { s.cores with tapIr := ir } }) ∧
        exec (.tapInstruction 0x19 drive) s = .next
          { s with out := s.out ++ [.debug Config.serial.toNat], cores := { s.cores with tapIr := 0x19 } }))

/-- Without VAUX no MCTP request does anything. With it, an endpoint ID set, no BOOT_FAIL and fewer than eight requests
outstanding, each request is counted and answered with one message on the MCTP interface. The reads and the SPDM requests
(endpoint ID, UUID, versions, types, vendor support, sensors, effecter, PDR, SPDM version, capabilities, algorithms,
digests, certificates, challenge, measurements, black box, last gasp, domain, boot, an unsupported command) change nothing
else but reports and the count of open values taken. SET_ENDPOINT_ID stores an ID other than 0 and 0xFF;
SET_NUMERIC_EFFECTER_VALUE of effecter 1 makes MGMT_CAP the value within 600 to 2 400; SET_EVENT_RECEIVER stores or takes
away the receiver; SET_DOMAIN of a domain stores MV below 3; REQUEST_FATAL with its word enters FATAL where cores run. A
firmware update of a component below 4 stores the image in the slot that did not boot; ACTIVATE_FIRMWARE with something
written makes its slot first choice. Of the reads and sets the statement gives each answer's code and data (digests,
certificates, challenge and measurements: their fixed bytes and their length); where the spec leaves the codes open they are
log entry 30's. Completion (the conclusion is exec c s = next t, under conditions on state and operands alone): with VAUX:
getEndpointId, setEndpointId, getEndpointUuid, getMctpVersionSupport, getMessageTypeSupport, getVendorDefinedMsgSupport,
getSensorReading, getStateSensorReadings, setNumericEffecterValue, getNumericEffecterValue, getPdr, setEventReceiver,
pldmFirmwareUpdate, activateFirmware, getVersion, getCapabilities, negotiateAlgorithms, getDigests, getCertificate,
challenge, getMeasurements, readBlackbox, readLastgasp, getDomain, setDomain, requestFatal, getBoot, unsupportedCommand and
dynamicAddressAssignment. The choices of the model that it rests on: log entries 30 and 32. (R754, R755, R756, R757, R758,
R759, R760, R763, R766, R767, 21_management_security_black_box.md) -/
def Obligations.ManagementIsAnswered : Prop :=
  ∀ s : State,
    (s.rst.vaux = false → ∀ c ∈ [Instr.getEndpointId, .setEndpointId 9, .getEndpointUuid, .getMctpVersionSupport 0,
        .getMessageTypeSupport, .getVendorDefinedMsgSupport 0, .getSensorReading 1, .getStateSensorReadings 43,
        .setNumericEffecterValue 1 700, .getNumericEffecterValue 1, .getPdr 1, .setEventReceiver 8 1,
        .pldmFirmwareUpdate 0 1 1 [] true, .activateFirmware false, .getVersion, .getCapabilities, .negotiateAlgorithms 0 0,
        .getDigests, .getCertificate 0 0 9, .challenge 0 [], .getMeasurements 0 false [], .readBlackbox 0 1, .readLastgasp,
        .getDomain 1, .setDomain 1 0 false, .requestFatal 0, .getBoot, .unsupportedCommand 1 9, .dynamicAddressAssignment 8],
      exec c s = .next s) ∧
    (s.rst.vaux = true → s.mgmt.eidSet = true → s.mgmt.bootFail = 0 → s.mgmt.outstanding < 8 →
      (∀ (a b : Nat) (f : Bool) (bs : List Byte),
        (∀ c ∈ [Instr.getEndpointId, .getEndpointUuid, .getMctpVersionSupport a, .getMessageTypeSupport,
            .getVendorDefinedMsgSupport a, .getSensorReading a, .getStateSensorReadings a, .getNumericEffecterValue a, .getPdr a,
            .getVersion, .getCapabilities, .negotiateAlgorithms a b, .getDigests, .getCertificate a b b, .challenge a bs,
            .getMeasurements a f bs, .readBlackbox a b, .readLastgasp, .getDomain a, .getBoot, .unsupportedCommand a b],
          ∃ t code data, exec c s = .next t ∧ t = ({ s with taken := t.taken } : State).reported t ∧
            t.out = s.out ++ [.mctp code data] ∧ t.host.events = s.host.events) ∧
        (∀ c ∈ [(Instr.getEndpointId, 0, natLe 1 s.mgmt.eid ++ [0, 0]),
            (.getEndpointUuid, 0, (List.range 16).map Config.uuid),
            (.getMctpVersionSupport 1, 0, natLe 1 1 ++ natLe 4 0xF1F1FF00),
            (.getMctpVersionSupport 5, 0, natLe 1 2 ++ natLe 4 0xF1F2FF00 ++ natLe 4 0xF1F3FF00),
            (.getMessageTypeSupport, 0, [4, 0x00, 0x01, 0x05, 0x7E]),
            (.getVendorDefinedMsgSupport 0, 0, [0xFF, 0] ++ natLe 2 Config.vendorId.toNat),
            (.getNumericEffecterValue 1, 0, natLe 2 s.mgmt.mgmtCap),
            (.getVersion, 0x04, natLe 1 2 ++ natLe 2 0x1200 ++ natLe 2 0x1300), (.getCapabilities, 0x61, natLe 4 0x16),
            (.negotiateAlgorithms 0x80 2, 0x63, natLe 4 0x80 ++ natLe 4 2), (.readLastgasp, 0, s.mgmt.lastGasp),
            (.getBoot, 0, s.mgmt.booted.flatMap (natLe 1) ++ s.bootedVersions ++ natLe 1 s.mgmt.svn ++ natLe 1 s.mgmt.bootFail),
            (.unsupportedCommand 1 b, 0x05, natLe 1 b), (.unsupportedCommand 5 b, 0x07, natLe 1 b)],
          ∃ t, exec c.1 s = .next t ∧ t.out = s.out ++ [.mctp c.2.1 c.2.2] ∧ t = s.reported t) ∧
        (∀ v, s.sensor a = some v → ∃ t, exec (.getSensorReading a) s = .next t ∧
          t.out = s.out ++ [.mctp 0 (natLe 4 v)] ∧ t = s.reported t) ∧
        (∀ v, s.stateSensor a = some v → ∃ t, exec (.getStateSensorReadings a) s = .next t ∧
          t.out = s.out ++ [.mctp 0 (natLe 1 v)] ∧ t = s.reported t) ∧
        (a ≤ 49 → ∃ t data, exec (.getPdr a) s = .next t ∧ t.out = s.out ++ [.mctp 0 data] ∧ t = s.reported t ∧
          field data 0 4 = (if a = 49 then 0 else max 1 a + 1) ∧ data.length = 6 + field data 4 2 ∧
          field data 6 2 = (if a = 49 then 1 else max 1 a)) ∧
        (isDomain a = true → ∃ t, exec (.getDomain a) s = .next t ∧ t = s.reported t ∧ t.out = s.out ++
          [.mctp 0 (natLe 1 (s.shownState a).code ++ natLe 1 (s.domain a).mv ++ natLe 1 (s.originOf a))]) ∧
        (0 < b → b ≤ 60 → ∃ t, exec (.readBlackbox a b) s = .next t ∧ t = s.reported t ∧ t.out = s.out ++
          [.mctp 0 (((s.validRecords.filter (fun r => a ≤ recordSeq r)).take b).flatten)]) ∧
        (∀ c ∈ [(Instr.getDigests, 0x01, natLe 1 3, 96)]
            ++ (if a < 2 then [(.getCertificate a b b, 0x02, natLe 1 a ++ natLe 2 b, min (b % 65536) 4096)] else [])
            ++ (if a < 2 ∧ bs.length = 32 then [(.challenge a bs, 0x03, natLe 1 a, 224)] else [])
            ++ (if 0 < a ∧ a < 8 ∧ (f = true → bs.length = 32) then
              [(.getMeasurements a f bs, 0x60, s.measurement a, if f then 128 else 32)] else []),
          ∃ t bytes, exec c.1 s = .next t ∧ bytes.length = c.2.2.2 ∧ t.out = s.out ++ [.mctp c.2.1 (c.2.2.1 ++ bytes)] ∧
            t = ({ s with taken := t.taken } : State).reported t) ∧
        (∃ t, exec (.setEndpointId a) s = .next t ∧
          t = ({ s with mgmt := { s.mgmt with
            eid := if a = 0 ∨ 255 ≤ a then s.mgmt.eid else a } } : State).reported t ∧
          t.out = s.out ++ [if a = 0 ∨ 255 ≤ a then .mctp 2 [] else .mctp 0 ([0] ++ natLe 1 a ++ [0])]) ∧
        (∃ t, exec (.setNumericEffecterValue a b) s = .next t ∧
          t.mgmt.mgmtCap = (if a = 1 then max 600 (min 2400 b) else s.mgmt.mgmtCap) ∧
          t.out = s.out ++ [.mctp (if a = 1 then 0 else 0x80) []] ∧
          t = ({ s with mgmt := { s.mgmt with
            mgmtCap := t.mgmt.mgmtCap, queue := t.mgmt.queue, nextSeq := t.mgmt.nextSeq, lostNext := t.mgmt.lostNext } }
            : State).reported t) ∧
        (∃ t, exec (.setEventReceiver a b) s = .next t ∧ t.out = s.out ++ [.mctp 0 []] ∧
          t = ({ s with mgmt := { s.mgmt with receiver := if b = 0 then none else some (a % 256) } } : State).reported t) ∧
        (∃ t, exec (.setDomain a b false) s = .next t ∧
          t.out = s.out ++ [.mctp (if isDomain a = true ∧ b < 3 then 0 else 2) []] ∧
          t = ({ s with mgmt := { s.mgmt with domains := t.mgmt.domains } } : State).reported t ∧
          (∀ d, d ≠ a → t.domain d = s.domain d) ∧
          t.domain a = (if isDomain a = true ∧ b < 3 then { s.domain a with mv := b } else s.domain a)) ∧
        (∃ t, exec (.requestFatal a) s = .next t ∧ t.out = s.out ++ [.mctp (if a = 0x46415441 then 0 else 2) []] ∧
          (a ≠ 0x46415441 → t = s.reported t) ∧
          (a = 0x46415441 → s.coresRun = true → s.cores.fatal = false → t.cores.fatal = true ∧ t.cores.cause = 7)) ∧
        (∃ t, exec (.pldmFirmwareUpdate a b b bs f) s = .next t ∧ t.out = s.out ++ [.mctp (if a < 4 then 0 else 2) []] ∧
          t = ({ s with mgmt := { s.mgmt with images := t.mgmt.images, written := t.mgmt.written } } : State).reported t ∧
          (4 ≤ a → t.mgmt.images = s.mgmt.images) ∧
          (a < 4 → t.image (s.updateSlot a) a = (b, b, f, bs) ∧ (a, s.updateSlot a) ∈ t.mgmt.written)) ∧
        (∃ t, exec (.activateFirmware f) s = .next t ∧
          t.out = s.out ++ [.mctp (if s.mgmt.written = [] then 0x84 else 0) []] ∧
          (∀ c slot rest, s.mgmt.written = (c, slot) :: rest →
            t.mgmt.firstSlot = slot ∧ t.mgmt.activate = f ∧ t.mgmt.written = []) ∧
          (s.mgmt.written = [] → t = s.reported t)))) ∧
    (∀ a, s.rst.vaux = true → exec (.dynamicAddressAssignment a) s =
      .next { s with mgmt := { s.mgmt with i3cAddr := a % 128 } })

/-- BLACKBOX_RECORD_WRITE, with VAUX or at a power loss: with nothing queued, or both partitions failed, it changes nothing;
a good write puts the oldest queued record into the partition whose turn its SEQ is (or the one that works), leaves the rest
of the queue, and changes nothing else but reports; a failed write of any record but LAST_GASP while both partitions work
fails that partition. CENSUS_NOW, where BAR0 takes writes, is ignored with a clamp while a STEP runs; otherwise no domain
keeps an unfence request, a usable domain whose management state alone is not ON, with no unfence request elsewhere, is
Fenced with origin CENSUS, and the queue, registers, memory, slots and time stay. CONFIGURATION_REQUEST without VAUX, in
DOWN_READY or at a power loss does nothing; before BAR0 is readable it is answered Request Retry Status; a read is answered
and changes nothing else; a write changes the stored bits of one register as ConfigRow.write says (BAR0 shows 64 MiB, BAR2 1
MiB), but that no power state D1 or D2 is entered; a write of register 44 that opens MSI-X sends the pending vectors that
are not masked, and only MSI-X messages. Completion (the conclusion is exec c s = next t, under conditions on state and
operands alone): blackboxRecordWrite, of a queued record; censusNow, outside a STEP; configurationRequest, with BAR0
readable. The choices of the model that it rests on: log entries 29, 35 and 39. (R768, R769, R770, R771, R773, R774, R776,
R789, 21_management_security_black_box.md, 15_host_rings_and_flow_control.md) -/
def Obligations.RecordsCensusAndConfiguration : Prop :=
  ∀ s : State,
    (∀ good, (s.rst.vaux = false ∧ s.rst.state ≠ 4) ∨ s.mgmt.queue = [] ∨ s.mgmt.bbAvoid % 4 = 3 →
      exec (.blackboxRecordWrite good) s = .next s) ∧
    (∀ r rest p, s.rst.vaux = true → s.mgmt.queue = r :: rest → s.mgmt.partition (recordSeq r) = some p →
      (∃ t, exec (.blackboxRecordWrite true) s = .next t ∧ (p, r) ∈ t.mgmt.records ∧
        t = ({ s with mgmt := { s.mgmt with records := t.mgmt.records, bbUsed := t.mgmt.bbUsed, queue := rest } }
          : State).reported t) ∧
      (field r 0 2 ≠ 2 → s.mgmt.bbAvoid % 4 = 0 → ∃ t, exec (.blackboxRecordWrite false) s = .next t ∧
        t.mgmt.bbFailed = s.mgmt.bbFailed ||| (p + 1) ∧ t.mgmt.bbAvoid = p + 1 ∧ r ∈ t.mgmt.queue ∧
        t.mgmt.lastGasp = s.mgmt.lastGasp)) ∧
    (s.takesWrites = true →
      (s.tf.run.isSome = true → ∃ t, exec .censusNow s = .next t ∧ t = s.reported t ∧
        t.host.clampCount = min (s.host.clampCount + 1) (2 ^ 32 - 1)) ∧
      (s.tf.run = none → ∃ t, exec .censusNow s = .next t ∧ (∀ d ∈ domainIds, (t.domain d).unfence = false) ∧
        (∀ d ∈ domainIds, (s.domain d).mv ≠ 0 → (s.unit d).usable = true →
          (∀ e ∈ domainIds, e ≠ d → (s.domain e).mv = 0 ∧ (s.domain e).unfence = false) →
          (t.unit d).state = .fenced ∧ (t.domain d).origin = 1 ∧ (t.domain d).mv = (s.domain d).mv) ∧
        t.pending = s.pending ∧ t.regs = s.regs ∧ t.mem = s.mem ∧ t.host.slots = s.host.slots ∧ t.time = s.time)) ∧
    (∀ w n v,
      (s.rst.vaux = false ∨ s.rst.state = 3 ∨ s.rst.state = 4 → exec (.configurationRequest w n v) s = .next s) ∧
      (s.rst.vaux = true → s.rst.state ≠ 3 → s.rst.state ≠ 4 →
        (s.rst.bar0 = false → exec (.configurationRequest w n v) s = .next { s with out := s.out ++ [.config true 0] }) ∧
        (s.rst.bar0 = true → ∃ x, exec (.configurationRequest false n v) s = .next { s with out := s.out ++ [.config false x] }) ∧
        (s.rst.bar0 = true → ∃ t, exec (.configurationRequest true n v) s = .next t ∧
          (∀ m, m ≠ n → t.configAt m = s.configAt m) ∧
          t.configAt n = (if n = 17 ∧ (v % 4 = 1 ∨ v % 4 = 2) then s.configAt 17
            else (configRow s.mgmt.bar4 n).write (s.configAt n) (v % 2 ^ 32)) ∧
          (n ≠ 44 → t = { s with out := s.out ++ [.config false 0], rst := { s.rst with config := t.rst.config } }) ∧
          (n = 44 → t = ({ s with
            rst := { s.rst with config := t.rst.config }, host := { s.host with msix := t.host.msix } } : State).reported t ∧
            (∃ sent, t.out = s.out ++ sent ++ [.config false 0] ∧ ∀ o ∈ sent, ∃ k, o = Output.msix k) ∧
            (s.d3hot = false → v % 2 ^ 32 / 2 ^ 30 = 2 → ∀ kv ∈ s.host.msix,
              (mget MsixEntry.reset t.host.msix kv.1).pending = true → (mget MsixEntry.reset t.host.msix kv.1).masked = true))))) ∧
    (∀ bar4, (configRow bar4 4).write 4 0xFFFFFFFF = 0xFC000004 ∧ (configRow bar4 6).write 4 0xFFFFFFFF = 0xFFF00004)

/-- While the rails are down, after a thermal trip or a power loss the loop ticks do nothing. While they run,
FAST_SAFETY_TICK takes the power of 1 us: above 3 000 W T_fast rises by 4, up to 15; at 2 400 W or below it falls by 1 once
100 periods have passed. SLOW_SAFETY_JUNCTION_TICK of a hot die lowers U_junction by one step above code 4 and raises T_slow
by one at it, up to 15; of a cool die it recovers one step in ten periods, T_slow first, U up to code 36. COOLANT_LOOP_TICK
does the same against P_cool each period. POLICY_CAP_TICK with no commit waiting does it against the lower of PWR_CAP and
MGMT_CAP, down above the cap, up below 98 % of it. VOP_STEP moves V_op of a die one code toward its target and sets VCORE 30
mV above the highest regulator output. A tick changes nothing else but the withheld steps, the LIMITER report and reports.
Completion (the conclusion is exec c s = next t, under conditions on state and operands alone): fastSafetyTick,
slowSafetyJunctionTick, coolantLoopTick, policyCapTick and vopStep, while the rails run. The choices of the model that it
rests on: log entry 44. (R721, R722, R728, R732, R733, R734, R738, R739, R740, R743, R751,
20_power_thermal_and_adaptive_loops.md) -/
def Obligations.LoopsMoveTheLevers : Prop :=
  ∀ s : State,
    (s.loopsRun = false → ∀ w d, ∀ c ∈ [Instr.fastSafetyTick w, .slowSafetyJunctionTick d, .coolantLoopTick,
        .policyCapTick, .vopStep d], exec c s = .next s) ∧
    (s.loopsRun = true →
      (∀ w, ∃ t, exec (.fastSafetyTick w) s = .next t ∧
        s.judged { s.pwr with
          tFast := t.pwr.tFast, fastDown := t.pwr.fastDown, ticks := s.pwr.ticks + 1, p1us := w, p1ms := t.pwr.p1ms,
          acc := t.pwr.acc, above := t.pwr.above, limit2 := t.pwr.limit2, highFast := t.pwr.highFast, high := t.pwr.high,
          uFast := t.pwr.uFast } t ∧
        (3000 < w → t.pwr.tFast = min 15 (s.pwr.tFast + 4)) ∧
        (w ≤ 2400 → t.pwr.tFast = if 100 ≤ s.pwr.fastDown + 1 then s.pwr.tFast - 1 else s.pwr.tFast)) ∧
      (∀ d, 2 ≤ d → exec (.slowSafetyJunctionTick d) s = .next s ∧ exec (.vopStep d) s = .next s) ∧
      (∀ d < 2, ∃ t, exec (.slowSafetyJunctionTick d) s = .next t ∧
        s.judged { s.pwr with uJunction := t.pwr.uJunction, tSlow := t.pwr.tSlow, slowTicks := t.pwr.slowTicks } t ∧
        ofDie t.pwr.uJunction (1 - d) = ofDie s.pwr.uJunction (1 - d) ∧ ofDie t.pwr.tSlow (1 - d) = ofDie s.pwr.tSlow (1 - d) ∧
        ∀ u x, u = ofDie s.pwr.uJunction d → x = ofDie s.pwr.tSlow d →
        (ofDie s.pwr.hot d = true → 4 < u → ofDie t.pwr.uJunction d = u - 1 ∧ ofDie t.pwr.tSlow d = x) ∧
        (ofDie s.pwr.hot d = true → u ≤ 4 → ofDie t.pwr.uJunction d = u ∧ ofDie t.pwr.tSlow d = min 15 (x + 1)) ∧
        (ofDie s.pwr.hot d = false → ofDie s.pwr.slowTicks d < 9 →
          ofDie t.pwr.uJunction d = u ∧ ofDie t.pwr.tSlow d = x ∧ ofDie t.pwr.slowTicks d = ofDie s.pwr.slowTicks d + 1) ∧
        (ofDie s.pwr.hot d = false → 9 ≤ ofDie s.pwr.slowTicks d →
          ofDie t.pwr.uJunction d = (if x = 0 then min 36 (u + 1) else u) ∧ ofDie t.pwr.tSlow d = x - 1 ∧
          ofDie t.pwr.slowTicks d = 0)) ∧
      (∃ t, exec .coolantLoopTick s = .next t ∧
        s.judged { s.pwr with uCool := t.pwr.uCool, tCool := t.pwr.tCool } t ∧
        (s.pwr.pCool < s.pwr.p1ms → t.pwr.uCool = (if 4 < s.pwr.uCool then s.pwr.uCool - 1 else s.pwr.uCool) ∧
          t.pwr.tCool = (if 4 < s.pwr.uCool then s.pwr.tCool else min 15 (s.pwr.tCool + 1))) ∧
        (s.pwr.p1ms ≤ s.pwr.pCool → t.pwr.uCool = (if s.pwr.tCool = 0 then min 36 (s.pwr.uCool + 1) else s.pwr.uCool) ∧
          t.pwr.tCool = s.pwr.tCool - 1)) ∧
      (s.noneWaits 5 → ∃ t, exec .policyCapTick s = .next t ∧
        s.judged { s.pwr with uCap := t.pwr.uCap, tCap := t.pwr.tCap } t ∧
        ∀ cap, cap = min (bits (s.regs.eff regPwrCtl 0) 27 16) s.mgmt.mgmtCap →
        (cap < s.pwr.p1ms → t.pwr.uCap = (if 4 < s.pwr.uCap then s.pwr.uCap - 1 else s.pwr.uCap) ∧
          t.pwr.tCap = (if 4 < s.pwr.uCap then s.pwr.tCap else min 15 (s.pwr.tCap + 1))) ∧
        (s.pwr.p1ms ≤ cap → 98 * cap ≤ 100 * s.pwr.p1ms → t.pwr.uCap = s.pwr.uCap ∧ t.pwr.tCap = s.pwr.tCap) ∧
        (100 * s.pwr.p1ms < 98 * cap → t.pwr.uCap = (if s.pwr.tCap = 0 then min 36 (s.pwr.uCap + 1) else s.pwr.uCap) ∧
          t.pwr.tCap = s.pwr.tCap - 1)) ∧
      (∀ d < 2, (ofDie s.pwr.vop d = s.vTarget d → exec (.vopStep d) s = .next s) ∧
        (ofDie s.pwr.vop d ≠ s.vTarget d → ∃ t mv more, exec (.vopStep d) s = .next t ∧
          s.judged { s.pwr with vop := t.pwr.vop } t ∧ ofDie t.pwr.vop (1 - d) = ofDie s.pwr.vop (1 - d) ∧
          ofDie t.pwr.vop d = (if ofDie s.pwr.vop d < s.vTarget d then ofDie s.pwr.vop d + 1 else ofDie s.pwr.vop d - 1) ∧
          t.out = s.out ++ Output.setpoint d mv :: more ∧
          (mv = ofDie t.pwr.vop d + 6 ∨ mv = ofDie t.pwr.vop d + 11))))

/-- PWR_ALERT sets the alert, which keeps both dies at throttle level 8 or above, and its release timer ends it. THERMTRIP,
of a sensor that exists at 110 C or above on a powered package not yet tripped, asserts THERMTRIP#, stops every node and
writes one record; otherwise it does nothing. JUNCTION_SENSOR_READ below 110 C stores both dies' readings; a die is hot from
95 C and no longer at 93 C or below; at 110 C it trips. COOLANT_REPORT stores inlet, outlet and flow, saturated.
COOLANT_STATE_CHANGE takes the state whose condition the readings meet, and in TRIP both dies are at level 15 and target
code 4. PMBUS_READ stores what each rail reports, and without a fault leaves the domains. SUPPLY_HOLD_START of a rail below
its threshold makes it hold, and SUPPLY_HOLD_END above its release level ends that hold alone; no other case does anything.
Nothing else changes but reports. Completion (the conclusion is exec c s = next t, under conditions on state and operands
alone): pwrAlert and pwrAlertReleaseTimer, in every powered state; thermtrip, at 110 C or above; junctionSensorRead below
it; coolantReport, coolantStateChange and pmbusRead; supplyHoldStart of a rail below its threshold, supplyHoldEnd of one
above its release level. (R720, R726, R727, R728, R731, R733, R740, R745, R746, R801,
20_power_thermal_and_adaptive_loops.md) -/
def Obligations.AlertsReadingsAndHolds : Prop :=
  ∀ s : State,
    (s.loopsRun = false → ∀ x y z rails l0 l1, ∀ c ∈ [Instr.pwrAlert, .junctionSensorRead l0 l1, .coolantReport x y z,
        .coolantStateChange, .pmbusRead rails, .supplyHoldStart x y], exec c s = .next s) ∧
    (s.loopsRun = true → ∃ t, exec .pwrAlert s = .next t ∧ s.judged { s.pwr with alert := true } t ∧
      ∀ d, 8 ≤ t.throttleOf d) ∧
    (s.pwr.alert = true → ∃ t, exec .pwrAlertReleaseTimer s = .next t ∧ s.judged { s.pwr with alert := false } t) ∧
    (s.pwr.alert = false → exec .pwrAlertReleaseTimer s = .next s) ∧
    (∀ d k x,
      (110 ≤ x → d < 2 → k < 16 → s.rst.vaux = true → s.rst.thermtrip = false →
        ∃ t, exec (.thermtrip d k x) s = .next t ∧ Output.pin "THERMTRIP#" false ∈ t.out ∧
          t = ({ s with
            rst := { s.rst with thermtrip := true, stoppedAll := true }
            mgmt := { s.mgmt with queue := t.mgmt.queue, nextSeq := t.mgmt.nextSeq, lostNext := t.mgmt.lostNext } }
            : State).reported t) ∧
      (x < 110 ∨ 2 ≤ d ∨ 16 ≤ k ∨ s.rst.vaux = false ∨ s.rst.thermtrip = true → exec (.thermtrip d k x) s = .next s)) ∧
    (s.loopsRun = true →
      (∀ l0 l1 : List Nat,
        ((∀ x ∈ l0.take 16 ++ l1.take 16, x < 110) → ∃ t, exec (.junctionSensorRead l0 l1) s = .next t ∧
          s.judged { s.pwr with temps0 := l0.take 16, temps1 := l1.take 16, hot := t.pwr.hot } t ∧
          ∀ d < 2, ∀ l, l = (if d = 0 then l0 else l1).take 16 →
            ((∃ x ∈ l, 95 ≤ x) → ofDie t.pwr.hot d = true) ∧ ((∀ x ∈ l, x ≤ 93) → ofDie t.pwr.hot d = false) ∧
            ((∃ x ∈ l, x = 94) → (∀ x ∈ l, x ≤ 94) → ofDie t.pwr.hot d = ofDie s.pwr.hot d)) ∧
        ((∃ x ∈ l0.take 16 ++ l1.take 16, 110 ≤ x) → ∃ t, exec (.junctionSensorRead l0 l1) s = .next t ∧
          t.rst.thermtrip = true ∧ t.pwr.temps0 = l0.take 16 ∧ t.pwr.temps1 = l1.take 16 ∧
          (s.rst.thermtrip = false → t.rst.stoppedAll = true ∧ Output.pin "THERMTRIP#" false ∈ t.out))) ∧
      (∀ inlet outlet flow, ∃ t, exec (.coolantReport inlet outlet flow) s = .next t ∧
        t = ({ s with pwr := { s.pwr with
          inlet := min inlet 255, outlet := min outlet 255, flow := min flow 65535, pCool := t.pwr.pCool } }
          : State).reported t ∧
        (s.pwr.coolant = 0 → t.pwr.pCool = 2400) ∧ (s.pwr.coolant = 2 → t.pwr.pCool = 0)) ∧
      (∀ c, c = (if 2500 ≤ s.pwr.flow ∧ s.pwr.inlet ≤ 40 then 0
          else if 1500 ≤ s.pwr.flow ∧ s.pwr.inlet ≤ 45 ∧ s.pwr.outlet ≤ 65 then 1 else 2) →
        (c = s.pwr.coolant → exec .coolantStateChange s = .next s) ∧
        (c ≠ s.pwr.coolant → ∃ t, exec .coolantStateChange s = .next t ∧
          ({ s with mgmt := { s.mgmt with queue := t.mgmt.queue, nextSeq := t.mgmt.nextSeq, lostNext := t.mgmt.lostNext } }
            : State).judged { s.pwr with coolant := c, pCool := t.pwr.pCool } t ∧
          (c = 2 → ∀ d < 2, t.throttleOf d = 15 ∧ t.vTarget d = 4))) ∧
      (∀ rails : List (Nat × Nat × Nat), ∃ t, exec (.pmbusRead rails) s = .next t ∧
        t = ({ s with pwr := { s.pwr with rails := t.pwr.rails }, mgmt := { s.mgmt with domains := t.mgmt.domains } }
          : State).reported t ∧
        (∀ i < 14, ∀ v, rails[i]? = some v → mget (0, 0, 0) t.pwr.rails i = v) ∧
        (∀ i, 14 ≤ i → mget (0, 0, 0) t.pwr.rails i = mget (0, 0, 0) s.pwr.rails i) ∧
        ((∀ v ∈ rails.take 14, pmbusFault v.2.2 = false) → t.mgmt.domains = s.mgmt.domains))) ∧
    (∀ rail mv,
      (rail ∉ [2, 3, 6, 7, 8, 9, 10, 11] → exec (.supplyHoldStart rail mv) s = .next s ∧
        exec (.supplyHoldEnd rail mv) s = .next s) ∧
      (∀ low high, (rail, low, high) ∈ [(2, 700, 720), (3, 700, 720), (6, 1000, 1020), (7, 1000, 1020), (8, s.vddqMv 0 - 40, s.vddqMv 0 - 20),
          (9, s.vddqMv 1 - 40, s.vddqMv 1 - 20), (10, 1700, 1740), (11, 1700, 1740)] →
        (low ≤ mv ∨ s.railHolds rail = true → exec (.supplyHoldStart rail mv) s = .next s) ∧
        (mv < low → s.loopsRun = true → s.railHolds rail = false → ∃ t, exec (.supplyHoldStart rail mv) s = .next t ∧
          t = ({ s with pwr := { s.pwr with holds := s.pwr.holds ++ [(rail, s.time.beats)] } } : State).reported t ∧
          t.railHolds rail = true) ∧
        (mv ≤ high ∨ s.railHolds rail = false → exec (.supplyHoldEnd rail mv) s = .next s) ∧
        (high < mv → s.railHolds rail = true → ∃ t, exec (.supplyHoldEnd rail mv) s = .next t ∧
          t = ({ s with pwr := { s.pwr with holds := t.pwr.holds } } : State).reported t ∧
          t.railHolds rail = false ∧ ∀ r ≠ rail, t.railHolds r = s.railHolds r)))

/-- VAUX_POWER_ON, and MAIN_POWER_ON where VAUX is up, give power, keep the queue and what no command takes back, and leave
time, power loops, rings and slots as at reset. With TEST_MODE high the sequence ends before BAR0. Otherwise BAR0 is
readable; where the boot failed READY stays 0, as with both flash dies unreadable; where it did not, READY is 1, the
counters read zero, and every register but FAB_CTL has its reset value. A FUNCTION_LEVEL_RESET and a WARM_RESET, with
trigger 1 or 2 and no firmware to activate, on a powered package that is booted: STATE reads RUN, KIND, TRIGGER and COUNT
are set, READY is 1, HOLD is entered for cause RESET, slots, collectives (but for the COLL_IDs whose late messages are
stale) and STEPs are gone, counters read zero, registers outside the kept set have their reset value and kept ones their
effective value; with no copy running, no engine write waiting in a buffer and no stack in TEST, memory is untouched, but
UE_LIVE and the walks' passes count afresh; no such write waits after it, and DISC_STACK is at most their number; time, the
loops' terms, MGMT_CAP and the management's states stay. A package that cannot reset ignores both. Completion (the
conclusion is exec c s = next t, under conditions on state and operands alone): vauxPowerOn; mainPowerOn, with VAUX;
functionLevelReset and warmReset, of a powered package that is booted. The choices of the model that it rests on: log
entries 9, 10, 37, 52 and 56. (R268, R762, R763, R764, R783, R787, R790, R791, R795, R820, R846, 22_start_up_and_reset.md)
-/
def Obligations.PowerOnsAndResets : Prop :=
  ∀ s : State,
    (∀ flash failed training,
      (s.rst.vaux = false → exec (.mainPowerOn flash failed training) s = .next s) ∧
      ∀ c, (c = Instr.mainPowerOn flash failed training ∧ s.rst.vaux = true ∨
          ∃ high, c = .vauxPowerOn high flash failed training) →
        ∃ t, exec c s = .next t ∧ t.rst.vaux = true ∧ t.rst.pkgRun = true ∧ t.rst.state = 0 ∧ t.pending = s.pending ∧
          Kept s t ∧ t.time = State.reset.time ∧ t.pwr = State.reset.pwr ∧ t.coll = State.reset.coll ∧
          t.host.slots = [] ∧ t.host.sq = State.reset.host.sq ∧ t.cores.fatal = false ∧ t.res.liveValid = false ∧
          (∀ high, c = .vauxPowerOn high flash failed training → t.rst.testMode = high) ∧
          (t.rst.testMode = true → t.rst.bar0 = false ∧ t.tree.ready = false ∧ t.regs = State.reset.regs) ∧
          (t.rst.testMode = false → t.rst.bar0 = true ∧
            (flash % 4 = 3 → t.mgmt.bootFail = 1) ∧ (t.mgmt.bootFail ≠ 0 → t.tree.ready = false) ∧
            (t.mgmt.bootFail = 0 → t.tree.ready = true ∧ t.obs.live = [] ∧ t.obs.latched = [] ∧
              ∀ off inst, off ≠ regFabCtl → inst < 65536 → t.regs.get off inst = State.reset.regs.get off inst))) ∧
    (∀ n failed, s.canReset = false ∨ n ∉ [1, 2, 4] → exec (.warmReset n failed) s = .next s) ∧
    (∀ failed, s.canReset = false → exec (.functionLevelReset failed) s = .next s) ∧
    (∀ failed, s.canReset = true → ∃ t, exec (.warmReset 4 failed) s = .next t ∧ t.rst.kind = 2 ∧ t.rst.trigger = 4 ∧
      t.rst.count = min (s.rst.count + 1) 65535 ∧ t.pending = s.pending ∧ Kept s t) ∧
    (∀ c failed kind trigger, s.canReset = true → s.mgmt.bootFail = 0 →
      (c = Instr.functionLevelReset failed ∧ kind = 3 ∧ trigger = 5 ∨
        c = .warmReset trigger failed ∧ kind = 2 ∧ trigger ∈ [1, 2] ∧ s.mgmt.activate = false) →
      ∃ t, exec c s = .next t ∧ t.rst.state = 0 ∧ t.rst.kind = kind ∧ t.rst.trigger = trigger ∧
        t.rst.count = min (s.rst.count + 1) 65535 ∧ t.rst.config = [] ∧ t.tree.ready = true ∧
        t.res.hold = true ∧ t.res.cause = 2 ∧ t.res.copy = none ∧
        t.host.slots = [] ∧ t.host.sq = State.reset.host.sq ∧ t.host.cq = State.reset.host.cq ∧
        t.coll = s.coll.discarded ∧ t.tf = State.reset.tf ∧ t.cores.fatal = false ∧
        t.obs.live = [] ∧ t.obs.latched = [] ∧ t.time = s.time ∧ t.pwr = s.pwr ∧ t.mgmt.mgmtCap = s.mgmt.mgmtCap ∧
        (∀ d, (t.domain d).mv = (s.domain d).mv) ∧ t.pending = s.pending ∧ Kept s t ∧
        (s.res.copy = none → s.mem.buffered = [] → (∀ k < 8, (s.stack k).inTest = false) →
          t.mem = { s.mem with ueLive := [], slicePass := [] }) ∧ t.mem.buffered = [] ∧
        (∃ n ≤ s.mem.buffered.length, t.rst.disc[2]? = some n) ∧ t.regs.captures = [] ∧
        ∀ off inst, inst < 65536 → t.regs.get off inst =
          if regKept off = true then ⟨(s.regs.get off inst).eff, (s.regs.get off inst).eff⟩
          else State.reset.regs.get off inst)

/-- A write of RST_CTL where BAR0 takes no write does nothing; without the KEY it only counts a clamp; with the KEY and
neither bit it does nothing; with WARM on a package that can reset it is a warm reset with trigger 3. With POWERDOWN alone,
in a STATE other than RUN it does nothing; in RUN it sets STATE POWERING_DOWN, KIND 4 and TRIGGER 6, leaves no accepted
descriptor undispatched unless in HOLD, and in FATAL posts POWERDOWN_READY at once; registers, bytes of memory, time and
power loops stay. POWERDOWN_LIMIT_EXPIRY, where a power-down drains descriptors that run, leaves none running and nothing in
the base dies' write buffers; where it waits for the rings it empties those buffers and posts POWERDOWN_READY with the slots
still held; otherwise it does nothing. POWERDOWN_READY_TIMEOUT, once that is posted, drives PKG_RUN low and sets DOWN_READY.
SUDDEN_POWER_LOSS, of SYS_PWROK or a rail with a fail threshold and of no other, in RUN or a power-down stops everything,
drives PKG_RUN low, sets POWER_LOST and leaves one LAST_GASP record to write; in DOWN_READY and POWER_LOST only VAUX can
fall. Completion (the conclusion is exec c s = next t, under conditions on state and operands alone): rstCtlWarm, with the
KEY on a package that can reset; rstCtlPowerdown, with the KEY in RUN; powerdownLimitExpiry, in a power-down that drains;
powerdownReadyTimeout, once POWERDOWN_READY is posted; suddenPowerLoss, in RUN. The choices of the model that it rests on:
log entries 8, 38 and 56. (R772, R791, R797, R798, R799, R800, R804, R710, 22_start_up_and_reset.md) -/
def Obligations.PowerDownAndPowerLoss : Prop :=
  ∀ s : State,
    (∀ v failed, ∀ c ∈ [Instr.rstCtlWarm v failed, .rstCtlPowerdown v],
      (s.takesWrites = false → exec c s = .next s) ∧
      (s.takesWrites = true → bits v 31 16 ≠ 0x5A3C → ∃ t, exec c s = .next t ∧ t = s.reported t ∧
        t.host.clampCount = min (s.host.clampCount + 1) (2 ^ 32 - 1)) ∧
      (bits v 31 16 = 0x5A3C → bit v 0 = false → bit v 1 = false → exec c s = .next s) ∧
      (s.takesWrites = true → bits v 31 16 = 0x5A3C → bit v 0 = true → s.canReset = true →
        ∃ t, exec c s = .next t ∧ t.rst.kind = 2 ∧ t.rst.trigger = 3 ∧ t.rst.count = min (s.rst.count + 1) 65535 ∧
          t.rst.state = 0 ∧ t.host.slots = [] ∧ t.pending = s.pending ∧ t.time = s.time ∧ Kept s t) ∧
      (s.takesWrites = true → bits v 31 16 = 0x5A3C → bit v 0 = false → bit v 1 = true →
        (s.rst.state ≠ 0 → exec c s = .next s) ∧
        (s.rst.state = 0 → ∃ t, exec c s = .next t ∧ t.rst.state = 2 ∧ t.rst.kind = 4 ∧ t.rst.trigger = 6 ∧
          (s.res.hold = false → ∀ k sl, t.slot k = some sl → sl.phase ≠ .waiting) ∧
          (s.cores.fatal = true → t.rst.readyPosted = true) ∧
          t.regs = s.regs ∧ t.mem = { s.mem with buffered := t.mem.buffered } ∧ t.time = s.time ∧ t.pwr = s.pwr ∧
          t.fab = s.fab ∧ t.pending = s.pending))) ∧
    (s.rst.state ≠ 2 ∨ s.rst.readyPosted = true → exec .powerdownLimitExpiry s = .next s) ∧
    (s.rst.state = 2 → s.rst.readyPosted = false →
      (s.rst.draining = true → s.anySlot .running = true → ∃ t, exec .powerdownLimitExpiry s = .next t ∧
        t.rst.draining = false ∧ t.rst.state = 2 ∧ (∀ k sl, t.slot k = some sl → sl.phase ≠ .running) ∧
        t.regs = s.regs ∧ t.mem = { s.mem with buffered := [] } ∧ t.time = s.time) ∧
      (s.rst.draining = false ∨ s.anySlot .running = false → ∃ t, exec .powerdownLimitExpiry s = .next t ∧
        t.rst.readyPosted = true ∧ t.rst.disc[5]? = some s.occupied ∧ t.aec.stored = s.aec.boundaries ∧
        t = ({ s with
          mem := { s.mem with buffered := [] }
          rst := { s.rst with disc := t.rst.disc, draining := false, readyPosted := true }
          aec := { s.aec with stored := t.aec.stored }
          mgmt := { s.mgmt with queue := t.mgmt.queue, nextSeq := t.mgmt.nextSeq, lostNext := t.mgmt.lostNext } }
          : State).reported t)) ∧
    (s.rst.state ≠ 2 ∨ s.rst.readyPosted = false → exec .powerdownReadyTimeout s = .next s) ∧
    (s.rst.state = 2 → s.rst.readyPosted = true → exec .powerdownReadyTimeout s = .next { s with
      rst := { s.rst with state := 3, pkgRun := false, readyPosted := false }, out := s.out ++ [.pin "PKG_RUN" false] }) ∧
    (∀ cause, cause ∉ [0, 1, 2, 3, 6, 7, 8, 9, 10, 11, 13, 14] → exec (.suddenPowerLoss cause) s = .next s) ∧
    (∀ cause ∈ [0, 1, 2, 3, 6, 7, 8, 9, 10, 11, 13, 14],
      (s.rst.vaux = false → exec (.suddenPowerLoss cause) s = .next s) ∧
      (s.rst.vaux = true → s.rst.state = 3 → exec (.suddenPowerLoss cause) s = .next (if cause = 13 then
        { s with rst := { s.rst with vaux := false, bar0 := false } } else s)) ∧
      (s.rst.vaux = true → s.rst.state = 4 → exec (.suddenPowerLoss cause) s = .next (if cause = 13 then
        { s with rst := { s.rst with vaux := false } } else s)) ∧
      (s.rst.vaux = true → s.rst.state ≠ 3 → s.rst.state ≠ 4 → ∃ t, exec (.suddenPowerLoss cause) s = .next t ∧
        t.rst = { s.rst with state := 4, stoppedAll := true, pkgRun := false, bar0 := false, vaux := decide (cause ≠ 13) } ∧
        t = ({ s with
          rst := t.rst
          mgmt := { s.mgmt with queue := t.mgmt.queue, nextSeq := t.mgmt.nextSeq, lostNext := t.mgmt.lostNext } }
          : State).reported t ∧
        t.out = s.out ++ [.pin "PKG_RUN" false] ∧
        (s.mgmt.bbAvoid % 4 ≠ 3 → ∃ r, t.mgmt.queue = [r] ∧ field r 0 2 = 2)))

/-- For every 64-bit key and any two 128-bit counters: if Squall gives one output for both, the counters are equal. (R304)
-/
def Obligations.SquallIsOneToOne : Prop :=
  ∀ (k : Word64) (c d : Word128), c ≠ d → squall k c ≠ squall k d

/-- For each protected unit (a tier granule or half of a Sealed sector, an Open sector, an accumulator word and a half-row
slot) with k data bits and r Hamming bits: flipping any one stored bit is classed correctable; for data bit i the position
found is that of data bit i, and for a check bit it is the position of no data bit. Flipping any two different stored bits
is classed uncorrectable or poisoned. Inverting what the poison mark inverts is classed poisoned, and a unit as it was
written is clean. (R326, R327, R328, R329, R330, R331, 10_tier_memory_and_protection.md) -/
def Obligations.CodesCorrectOneAndSeeTwo : Prop :=
  ∀ kr ∈ [(128, 8), (256, 9), (98, 7), (7, 4)],
    ∀ flipped : Nat → Nat, (∀ i, flipped i = if i < kr.1 then hamming kr.1 kr.2 (2 ^ i) else 2 ^ (i - kr.1)) →
    classify kr.1 kr.2 0 = .clean ∧ classify kr.1 kr.2 (poisonMask kr.2) = .poisoned ∧
    ∀ i, i < kr.1 + kr.2 + 1 →
      (∃ pos, classify kr.1 kr.2 (flipped i) = .correctable pos ∧
        (i < kr.1 → posData pos = i ∧ pos ≠ 0 ∧ pos ≠ 2 ^ pos.log2) ∧
        (kr.1 ≤ i → pos = 0 ∨ pos = 2 ^ pos.log2)) ∧
      ∀ j, j < kr.1 + kr.2 + 1 → j ≠ i →
        classify kr.1 kr.2 (flipped i ^^^ flipped j) = .uncorrectable ∨
        classify kr.1 kr.2 (flipped i ^^^ flipped j) = .poisoned

/-- Where no flip is armed and no seal is to be made invalid, a write of whole granules of tier memory stores its bytes and
nothing else, meets no poison, and a read of the same range then returns those bytes: with every granule unpoisoned after a
plain write, with every granule poisoned after a write with the poison mark. A plain write after a poisoned one clears the
poison. A read of unmarked granules changes nothing at all. The choices of the model that it rests on: log entries 6 and 53.
(R333, R335, R336, R338, 10_tier_memory_and_protection.md) -/
def Obligations.ReadsReturnWhatWasWritten : Prop :=
  ∀ (s : State) (a : Nat) (bs : List Byte), s.plainTier a bs.length →
    (∀ x, (s.memWrite a bs false).2.byte x = if a ≤ x ∧ x < a + bs.length then (bs[x - a]?).getD 0 else s.byte x) ∧
    (∀ p, (s.memWrite a bs p).1 = false ∧
      ((s.memWrite a bs p).2.memRead a bs.length).1 = bs ∧
      ((s.memWrite a bs p).2.memRead a bs.length).2.1 = List.replicate (bs.length / 16) p) ∧
    (∀ t, t = (s.memWrite a bs true).2 →
      ((t.memWrite a bs false).2.memRead a bs.length).2.1 = List.replicate (bs.length / 16) false) ∧
    ((∀ g, a ≤ g → g < a + bs.length → mget 0 s.mem.marks g = 0) →
      s.memRead a bs.length = (s.rawBytes a bs.length, List.replicate (bs.length / 16) false, s))
end

