-- ==== Sys2Proof/Laws/Codes.lean ====
section
/-! SUPPORT. What digits, lane products, scramblers, stack addresses and Sealed keys do: the lane products of two elements sum to the
product of what their digits stand for, a scrambler undoes itself, a stack address is that of its place, and a read that meets another
sector's key is never taken as a single-bit error. -/

namespace Sys2Proof.Machine

/-! ### Digits and lane products (R102 to R106) -/

theorem digitSum_foldl (ds : List Digit) (r : Rat) : ds.foldl (fun r d => r + d.rat) r = r + digitSum ds := by
  induction ds generalizing r with
  | nil => simp [digitSum]
  | cons d ds ih => rw [digitSum, List.foldl_cons, List.foldl_cons, ih, ih (0 + d.rat)]; ring

@[simp] theorem digitSum_nil : digitSum [] = 0 := rfl

theorem digitSum_cons (d : Digit) (ds : List Digit) : digitSum (d :: ds) = d.rat + digitSum ds := by
  rw [digitSum, List.foldl_cons, digitSum_foldl]; ring

theorem pow2_eq (e : Int) : pow2 e = (2 : Rat) ^ e := by
  unfold pow2
  split
  · next h =>
    obtain ⟨n, rfl⟩ := Int.eq_ofNat_of_zero_le h
    simp
  · next h =>
    obtain ⟨n, hn⟩ := Int.eq_ofNat_of_zero_le (show 0 ≤ -e by omega)
    rw [hn, show e = -(n : Int) by omega]
    simp

theorem pow2_add (a b : Int) : pow2 (a + b) = pow2 a * pow2 b := by
  simp only [pow2_eq]; exact zpow_add₀ (by norm_num) a b

/-- A lane product is exact (R105). -/
theorem digit_mul_rat (a w : Digit) : (a.mul w).rat = a.rat * w.rat := by
  cases ha : a.neg <;> cases hw : w.neg <;>
    simp [Digit.mul, LaneProduct.rat, Digit.rat, ha, hw, pow2_add, Nat.cast_mul] <;> ring

theorem laneRow_foldl (a : Digit) (ws : List Digit) (r : Rat) :
    ws.foldl (fun r w => r + (a.mul w).rat) r = r + a.rat * digitSum ws := by
  induction ws generalizing r with
  | nil => simp
  | cons w ws ih => rw [List.foldl_cons, ih, digit_mul_rat, digitSum_cons]; ring

/-- Over all passes the lane products of two elements sum to the product of what their digits stand for (R106). -/
theorem laneSum_eq (as ws : List Digit) : laneSum as ws = digitSum as * digitSum ws := by
  have h : ∀ r : Rat, as.foldl (fun r a => ws.foldl (fun r w => r + (a.mul w).rat) r) r = r + digitSum as * digitSum ws := by
    induction as with
    | nil => simp
    | cons a as ih => intro r; rw [List.foldl_cons, laneRow_foldl, ih, digitSum_cons]; ring
  rw [laneSum, h]; ring

/-! ### Scramblers (R450) -/

/-- What a scrambler has xored, the same scrambler gives back. -/
theorem scramble_scramble (st : Nat) (bs : List Bool) : scramble st (scramble st bs).1 = (bs, (scramble st bs).2) := by
  induction bs generalizing st with
  | nil => rfl
  | cons b bs ih =>
    simp only [scramble, scramblerStep]
    rw [ih]
    cases b <;> cases bit st 38 <;> rfl

@[simp] theorem scramble_length (st : Nat) (bs : List Bool) : (scramble st bs).1.length = bs.length := by
  induction bs generalizing st with
  | nil => rfl
  | cons b bs ih => simp [scramble, scramblerStep, ih]

/-! ### Stack addresses (R361) -/

/-- The place of a stack address has that address. -/
theorem stackPlace_addr (a : Nat) (h : inStack a 1 = true) : (stackPlace a).addr = a := by
  simp only [inStack, Bool.and_eq_true, decide_eq_true_eq] at h
  simp only [stackPlace, StackPlace.addr, stackOffset, stackOf, bits, stackBase, stackSize, stackEnd] at *
  omega

/-! ### Sealed keys (R369) -/

/-- Check bits that were stored under a key that differs in `d` are uncorrectable, or poisoned where all eight bits differ. -/
theorem keyMask_classify (d : Nat) (h : d < 256) (h0 : d ≠ 0) :
    classify 128 8 (keyMask d) = if d = 255 then .poisoned else .uncorrectable := by
  have h1 : ∀ d < 256, d ≠ 0 → classify 128 8 (keyMask d) = if d = 255 then .poisoned else .uncorrectable := by decide +kernel
  exact h1 d h h0

/-- A key is never 0xFF, so the poison mark of a half stays apart from a key (R369). -/
theorem sealedKey_ne (a : Nat) : sealedKey a ≠ 0xFF := by
  simp only [sealedKey]
  split <;> simp_all

end Sys2Proof.Machine
end

