-- ==== Sys2Proof/Laws/Map.lean ====
section
/-! SUPPORT. Laws of sparse maps: a read after a write, other keys unchanged, and the canonical form kept. -/

namespace Sys2Proof.Machine

variable {α : Type}

/-! ### Reads after writes -/

@[simp] theorem mget_mins_self (d v : α) (m : List (Nat × α)) (k : Nat) : mget d (mins k v m) k = v := by
  induction m with
  | nil => simp [mins, mget]
  | cons x t ih =>
    obtain ⟨k', v'⟩ := x
    simp only [mins]
    split
    · simp [mget]
    · split
      · simp [mget]
      · simp only [mget]
        rw [if_neg (by omega)]
        exact ih

theorem mget_mins_other (d v : α) (m : List (Nat × α)) {k j : Nat} (h : j ≠ k) :
    mget d (mins k v m) j = mget d m j := by
  induction m with
  | nil => simp only [mins, mget]; rw [if_neg (by omega)]
  | cons x t ih =>
    obtain ⟨k', v'⟩ := x
    simp only [mins]
    split
    · simp only [mget]; rw [if_neg (by omega)]
    · split
      · rename_i h1; subst h1; simp only [mget]; rw [if_neg (by omega), if_neg (by omega)]
      · simp only [mget, ih]

@[simp] theorem mget_mdel_self (d : α) (m : List (Nat × α)) (k : Nat) : mget d (mdel k m) k = d := by
  induction m with
  | nil => rfl
  | cons x t ih =>
    obtain ⟨k', v'⟩ := x
    simp only [mdel]
    split
    · exact ih
    · simp only [mget]; rw [if_neg (by assumption)]; exact ih

theorem mget_mdel_other (d : α) (m : List (Nat × α)) {k j : Nat} (h : j ≠ k) : mget d (mdel k m) j = mget d m j := by
  induction m with
  | nil => rfl
  | cons x t ih =>
    obtain ⟨k', v'⟩ := x
    simp only [mdel]
    split
    · simp only [mget, ih]; rw [if_neg (by omega)]
    · simp only [mget, ih]

/-- A write is read back. -/
@[simp] theorem mget_mput_self [DecidableEq α] (d v : α) (m : List (Nat × α)) (k : Nat) : mget d (mput d m k v) k = v := by
  unfold mput
  split
  · rename_i h; rw [h]; exact mget_mdel_self d m k
  · exact mget_mins_self d v m k

/-- A write leaves every other key alone. -/
theorem mget_mput_other [DecidableEq α] (d v : α) (m : List (Nat × α)) {k j : Nat} (h : j ≠ k) :
    mget d (mput d m k v) j = mget d m j := by
  unfold mput
  split
  · exact mget_mdel_other d m h
  · exact mget_mins_other d v m h

theorem mget_mput [DecidableEq α] (d v : α) (m : List (Nat × α)) (k j : Nat) :
    mget d (mput d m k v) j = if j = k then v else mget d m j := by
  split
  · rename_i h; rw [h]; exact mget_mput_self d v m k
  · rename_i h; exact mget_mput_other d v m h

@[simp] theorem mget_mmod_self [DecidableEq α] (d : α) (m : List (Nat × α)) (k : Nat) (f : α → α) :
    mget d (mmod d m k f) k = f (mget d m k) := mget_mput_self ..

theorem mget_mmod_other [DecidableEq α] (d : α) (m : List (Nat × α)) {k j : Nat} (f : α → α) (h : j ≠ k) :
    mget d (mmod d m k f) j = mget d m j := mget_mput_other _ _ _ h

/-! ### The canonical form -/

/-- Every key of a list is above k. -/
def above (k : Nat) (m : List (Nat × α)) : Prop := ∀ x ∈ m, k < x.1

theorem mwf_cons [DecidableEq α] (d : α) (k : Nat) (v : α) (t : List (Nat × α)) :
    mwf d ((k, v) :: t) = true ↔ v ≠ d ∧ above k t ∧ mwf d t = true := by
  induction t generalizing k v with
  | nil => simp [mwf, above]
  | cons x t ih =>
    obtain ⟨k', v'⟩ := x
    rw [mwf]
    simp only [Bool.and_eq_true, decide_eq_true_eq, ih]
    constructor
    · rintro ⟨⟨h1, h2⟩, h3, h4, h5⟩
      refine ⟨h1, ?_, h3, h4, h5⟩
      intro y hy
      rcases List.mem_cons.mp hy with rfl | hy
      · exact h2
      · exact Nat.lt_trans h2 (h4 y hy)
    · rintro ⟨h1, h2, h3, h4, h5⟩
      exact ⟨⟨h1, h2 _ (List.mem_cons_self ..)⟩, h3, h4, h5⟩

theorem above_mins {k j : Nat} {v : α} {m : List (Nat × α)} (hj : j < k) (h : above j m) : above j (mins k v m) := by
  induction m with
  | nil => intro y hy; simp [mins] at hy; subst hy; exact hj
  | cons x t ih =>
    obtain ⟨k', v'⟩ := x
    have h1 : j < k' := h _ (List.mem_cons_self ..)
    have h2 : above j t := fun y hy => h y (List.mem_cons_of_mem _ hy)
    intro y hy
    simp only [mins] at hy
    split at hy
    · rcases List.mem_cons.mp hy with rfl | hy
      · exact hj
      · exact h y hy
    · split at hy
      · rcases List.mem_cons.mp hy with rfl | hy
        · exact hj
        · exact h2 y hy
      · rcases List.mem_cons.mp hy with rfl | hy
        · exact h1
        · exact ih h2 y hy

theorem mwf_mins [DecidableEq α] (d : α) {k : Nat} {v : α} {m : List (Nat × α)} (hv : v ≠ d) (h : mwf d m = true) :
    mwf d (mins k v m) = true := by
  induction m with
  | nil => simp [mins, mwf, hv]
  | cons x t ih =>
    obtain ⟨k', v'⟩ := x
    have hw := (mwf_cons d k' v' t).mp h
    simp only [mins]
    split
    · rename_i hk
      refine (mwf_cons ..).mpr ⟨hv, ?_, h⟩
      intro y hy
      rcases List.mem_cons.mp hy with rfl | hy
      · exact hk
      · exact Nat.lt_trans hk (hw.2.1 y hy)
    · split
      · rename_i hk; subst hk
        exact (mwf_cons ..).mpr ⟨hv, hw.2.1, hw.2.2⟩
      · exact (mwf_cons ..).mpr ⟨hw.1, above_mins (by omega) hw.2.1, ih hw.2.2⟩

theorem mdel_sublist (k : Nat) (m : List (Nat × α)) : (mdel k m).Sublist m := by
  induction m with
  | nil => exact .slnil
  | cons x t ih =>
    obtain ⟨k', v'⟩ := x
    simp only [mdel]
    split
    · exact ih.cons _
    · exact ih.cons_cons _

theorem mwf_sublist [DecidableEq α] (d : α) {m m' : List (Nat × α)} (hs : m'.Sublist m) (h : mwf d m = true) :
    mwf d m' = true := by
  induction hs with
  | slnil => exact h
  | cons x _ ih => obtain ⟨k, v⟩ := x; exact ih ((mwf_cons ..).mp h).2.2
  | @cons_cons l1 l2 x hs ih =>
    obtain ⟨k, v⟩ := x
    have hw := (mwf_cons ..).mp h
    exact (mwf_cons ..).mpr ⟨hw.1, fun y hy => hw.2.1 y (hs.subset hy), ih hw.2.2⟩

/-- A write keeps the canonical form. -/
theorem mwf_mput [DecidableEq α] (d v : α) (m : List (Nat × α)) (k : Nat) (h : mwf d m = true) :
    mwf d (mput d m k v) = true := by
  unfold mput
  split
  · exact mwf_sublist d (mdel_sublist k m) h
  · exact mwf_mins d (by assumption) h

theorem mwf_mmod [DecidableEq α] (d : α) (m : List (Nat × α)) (k : Nat) (f : α → α) (h : mwf d m = true) :
    mwf d (mmod d m k f) = true := mwf_mput _ _ _ _ h

/-- Clearing a range keeps the canonical form. -/
theorem mwf_mclear [DecidableEq α] (d : α) (a n : Nat) (m : List (Nat × α)) (h : mwf d m = true) :
    mwf d (mclear a n m) = true := mwf_sublist d List.filter_sublist h

theorem mget_mclear (d : α) (a n : Nat) (m : List (Nat × α)) (k : Nat) :
    mget d (mclear a n m) k = if a ≤ k ∧ k < a + n then d else mget d m k := by
  induction m with
  | nil => simp [mclear, mget]
  | cons x t ih =>
    obtain ⟨k', v'⟩ := x
    unfold mclear at ih ⊢
    by_cases hk : a ≤ k' ∧ k' < a + n
    · rw [List.filter_cons_of_neg (by simp [hk.1, hk.2])]
      rw [ih]
      simp only [mget]
      by_cases he : k' = k
      · subst he; rw [if_pos hk, if_pos hk]
      · rw [if_neg he]
    · rw [List.filter_cons_of_pos (by simp only [Bool.not_eq_true', Bool.and_eq_false_iff, decide_eq_false_iff_not]; omega)]
      simp only [mget]
      by_cases he : k' = k
      · subst he; rw [if_pos rfl, if_neg hk, if_pos rfl]
      · rw [if_neg he, if_neg he]; exact ih

end Sys2Proof.Machine
end

