-- ==== Sys2Proof/Laws/Keeps.lean ====
section
/-! SUPPORT. What every operation of the machine keeps, as one relation between the state before and after: the queue, the
canonical form of memory, and what no command takes back. It composes, so that one lemma for each operation gives it for
every command. -/

namespace Sys2Proof.Machine

/-- The state t comes from s by operations that leave the queue alone, keep memory canonical and take nothing back. -/
structure Keeps (s t : State) : Prop where
  pending : t.pending = s.pending
  kept : Kept s t
  cells : mwf 0 s.mem.cells = true → mwf 0 t.mem.cells = true
  marks : mwf 0 s.mem.marks = true → mwf 0 t.mem.marks = true

theorem Keeps.refl (s : State) : Keeps s s :=
  ⟨rfl, ⟨List.prefix_rfl, le_rfl, le_rfl, fun _ h => h, fun _ h => h⟩, id, id⟩

theorem Keeps.trans {r s t : State} (a : Keeps r s) (b : Keeps s t) : Keeps r t :=
  ⟨b.pending.trans a.pending,
    ⟨a.kept.out.trans b.kept.out, a.kept.taken.trans b.kept.taken, a.kept.svn.trans b.kept.svn,
      fun k h => b.kept.revoked k (a.kept.revoked k h), fun u h => b.kept.retired u (a.kept.retired u h)⟩,
    fun h => b.cells (a.cells h), fun h => b.marks (a.marks h)⟩

/-- The form of a state after a record update: what it kept of t decides. -/
theorem Keeps.upd {s t : State} (h : Keeps s t) {pending out taken time regs tree mem stk cells host obs fab coll ue aec tf
    res cores pwr mgmt rst} (h1 : pending = t.pending) (h2 : out = t.out) (h3 : taken = t.taken)
    (h4 : tree.history = t.tree.history) (h5 : mem.cells = t.mem.cells) (h6 : mem.marks = t.mem.marks)
    (h7 : mgmt.svn = t.mgmt.svn) (h8 : mgmt.revoked = t.mgmt.revoked) :
    Keeps s (State.mk pending out taken time regs tree mem stk cells host obs fab coll ue aec tf res cores pwr mgmt rst) := by
  refine h.trans ⟨h1, ⟨?_, ?_, ?_, ?_, ?_⟩, ?_, ?_⟩
  · exact h2 ▸ List.prefix_rfl
  · exact h3 ▸ le_rfl
  · exact h7 ▸ le_rfl
  · intro k hk; show mgmt.revoked.testBit k = true; rw [h8]; exact hk
  · intro u hu; show (mget History.reset tree.history u).retired = true; rw [h4]; exact hu
  · intro h; show mwf 0 mem.cells = true; rw [h5]; exact h
  · intro h; show mwf 0 mem.marks = true; rw [h6]; exact h

/-- A record update that only takes more open values. -/
theorem Keeps.take {s t : State} (h : Keeps s t) (n : Nat) : Keeps s { t with taken := t.taken + n } :=
  h.trans ⟨rfl, ⟨List.prefix_rfl, Nat.le_add_right .., le_rfl, fun _ h => h, fun _ h => h⟩, id, id⟩

/-- A record update of memory that keeps it canonical. -/
theorem Keeps.mem {s t : State} (h : Keeps s t) (m : MemState) (hc : mwf 0 t.mem.cells = true → mwf 0 m.cells = true)
    (hk : mwf 0 t.mem.marks = true → mwf 0 m.marks = true) : Keeps s { t with mem := m } :=
  h.trans ⟨rfl, ⟨List.prefix_rfl, le_rfl, le_rfl, fun _ h => h, fun _ h => h⟩, hc, hk⟩

/-- An intermediate state. -/
theorem Keeps.cut {s x : State} {P : Prop} (hx : Keeps s x) (hp : Keeps s x → P) : P := hp hx

/-- The state beside what an operation answers. -/
theorem Keeps.pair {s t : State} {α : Type} (a : α) (h : Keeps s t) : Keeps s (a, t).2 := h

theorem Keeps.pair2 {s t : State} {α β : Type} (a : α) (b : β) (h : Keeps s t) : Keeps s (a, b, t).2.2 := h

theorem Keeps.of_snd {s t : State} {α : Type} {p : α × State} {a : α} (e : p = (a, t)) (h : Keeps s p.2) : Keeps s t := by
  rw [e] at h; exact h

theorem Keeps.of_snd2 {s t : State} {α β : Type} {p : α × β × State} {a : α} {b : β} (e : p = (a, b, t))
    (h : Keeps s p.2.2) : Keeps s t := by
  rw [e] at h; exact h

theorem Keeps.of_snd3 {s t : State} {α β γ : Type} {p : α × β × γ × State} {a : α} {b : β} {c : γ} (e : p = (a, b, c, t))
    (h : Keeps s p.2.2.2) : Keeps s t := by
  rw [e] at h; exact h

theorem Keeps.of_snd4 {s t : State} {α β γ δ : Type} {p : α × β × γ × δ × State} {a : α} {b : β} {c : γ} {d : δ}
    (e : p = (a, b, c, d, t)) (h : Keeps s p.2.2.2.2) : Keeps s t := by
  rw [e] at h; exact h

theorem Keeps.foldl {s : State} {β : Type} (f : State → β → State) (hf : ∀ t x, Keeps s t → Keeps s (f t x)) :
    ∀ (l : List β) (t : State), Keeps s t → Keeps s (l.foldl f t)
  | [], _, h => h
  | x :: l, t, h => Keeps.foldl f hf l (f t x) (hf t x h)

theorem Keeps.foldl2 {s : State} {α β : Type} (f : α × State → β → α × State)
    (hf : ∀ p x, Keeps s p.2 → Keeps s (f p x).2) :
    ∀ (l : List β) (p : α × State), Keeps s p.2 → Keeps s (l.foldl f p).2
  | [], _, h => h
  | x :: l, p, h => Keeps.foldl2 f hf l (f p x) (hf p x h)

theorem Keeps.foldl3 {s : State} {α β γ : Type} (f : α × γ × State → β → α × γ × State)
    (hf : ∀ p x, Keeps s p.2.2 → Keeps s (f p x).2.2) :
    ∀ (l : List β) (p : α × γ × State), Keeps s p.2.2 → Keeps s (l.foldl f p).2.2
  | [], _, h => h
  | x :: l, p, h => Keeps.foldl3 f hf l (f p x) (hf p x h)

theorem Keeps.foldl4 {s : State} {α β γ δ : Type} (f : α × γ × δ × State → β → α × γ × δ × State)
    (hf : ∀ p x, Keeps s p.2.2.2 → Keeps s (f p x).2.2.2) :
    ∀ (l : List β) (p : α × γ × δ × State), Keeps s p.2.2.2 → Keeps s (l.foldl f p).2.2.2
  | [], _, h => h
  | x :: l, p, h => Keeps.foldl4 f hf l (f p x) (hf p x h)

theorem Keeps.foldl5 {s : State} {α β γ δ ε : Type} (f : α × γ × δ × ε × State → β → α × γ × δ × ε × State)
    (hf : ∀ p x, Keeps s p.2.2.2.2 → Keeps s (f p x).2.2.2.2) :
    ∀ (l : List β) (p : α × γ × δ × ε × State), Keeps s p.2.2.2.2 → Keeps s (l.foldl f p).2.2.2.2
  | [], _, h => h
  | x :: l, p, h => Keeps.foldl5 f hf l (f p x) (hf p x h)

theorem Keeps.ite {s a b : State} {c : Prop} [Decidable c] (ha : Keeps s a) (hb : Keeps s b) : Keeps s (if c then a else b) := by
  split
  · exact ha
  · exact hb

theorem Keeps.ite1 {s : State} {α : Type} {a b : α × State} {c : Prop} [Decidable c] (ha : Keeps s a.2) (hb : Keeps s b.2) :
    Keeps s (if c then a else b).2 := by
  split
  · exact ha
  · exact hb

theorem Keeps.ite2 {s : State} {α β : Type} {a b : α × β × State} {c : Prop} [Decidable c] (ha : Keeps s a.2.2) (hb : Keeps s b.2.2) :
    Keeps s (if c then a else b).2.2 := by
  split
  · exact ha
  · exact hb

theorem Keeps.ite3 {s : State} {α β γ : Type} {a b : α × β × γ × State} {c : Prop} [Decidable c] (ha : Keeps s a.2.2.2) (hb : Keeps s b.2.2.2) :
    Keeps s (if c then a else b).2.2.2 := by
  split
  · exact ha
  · exact hb

theorem Keeps.ite4 {s : State} {α β γ δ : Type} {a b : α × β × γ × δ × State} {c : Prop} [Decidable c] (ha : Keeps s a.2.2.2.2) (hb : Keeps s b.2.2.2.2) :
    Keeps s (if c then a else b).2.2.2.2 := by
  split
  · exact ha
  · exact hb

end Sys2Proof.Machine
end

