-- ==== Sys2Proof/Laws/KeepsEndpoint.lean ====
section
/-! SUPPORT. What the operations of Machine/Endpoint.lean keep (Laws/Keeps.lean), one lemma for each. -/

namespace Sys2Proof.Machine

theorem State.setConfig_keeps {s0 : State} (s : State) (n : Nat) (v : Nat) (hs0 : Keeps s0 s) : Keeps s0 (State.setConfig s n v) := by
  unfold State.setConfig
  repeat' (first
      | (intro (x : State); refine Keeps.cut (s := s0) (x := x) ?_ ?_ <;> [(subst x); (clear_value x; intro _)])
      | intro (x : MemState)
      | intro (x : TreeState)
      | intro (x : MgmtState)
      | (intro (x : State → State); subst x)
      | (intro (x : State → _ × State); subst x)
      | (intro (x : _ → State); subst x)
      | (intro (x : _ → _ → State); subst x)
      | (intro x; clear_value x)
      | intro _
      | with_reducible assumption
      | fail_if_no_progress (with_reducible refine Keeps.upd ?_ rfl rfl rfl rfl rfl rfl rfl rfl)
      | exact le_rfl
      | rfl
      | dsimp -zeta only)

theorem State.configWrite_keeps {s0 : State} (s : State) (n : Nat) (v : Nat) (hs0 : Keeps s0 s) : Keeps s0 (State.configWrite s n v) := by
  unfold State.configWrite
  repeat' (first
      | (intro (x : State); refine Keeps.cut (s := s0) (x := x) ?_ ?_ <;> [(subst x); (clear_value x; intro _)])
      | intro (x : MemState)
      | intro (x : TreeState)
      | intro (x : MgmtState)
      | (intro (x : State → State); subst x)
      | (intro (x : State → _ × State); subst x)
      | (intro (x : _ → State); subst x)
      | (intro (x : _ → _ → State); subst x)
      | (intro x; clear_value x)
      | intro _
      | with_reducible assumption
      | with_reducible apply State.setConfig_keeps
      | with_reducible refine Keeps.ite ?_ ?_
      | with_reducible refine Keeps.ite1 ?_ ?_
      | with_reducible refine Keeps.ite2 ?_ ?_
      | with_reducible refine Keeps.ite3 ?_ ?_
      | with_reducible refine Keeps.ite4 ?_ ?_
      | fail_if_no_progress (with_reducible refine Keeps.upd ?_ rfl rfl rfl rfl rfl rfl rfl rfl)
      | split
      | exact le_rfl
      | rfl
      | dsimp -zeta only)

theorem State.aer_keeps {s0 : State} (s : State) (b : Nat) (hs0 : Keeps s0 s) : Keeps s0 (State.aer s b) := by
  unfold State.aer
  repeat' (first
      | (intro (x : State); refine Keeps.cut (s := s0) (x := x) ?_ ?_ <;> [(subst x); (clear_value x; intro _)])
      | intro (x : MemState)
      | intro (x : TreeState)
      | intro (x : MgmtState)
      | (intro (x : State → State); subst x)
      | (intro (x : State → _ × State); subst x)
      | (intro (x : _ → State); subst x)
      | (intro (x : _ → _ → State); subst x)
      | (intro x; clear_value x)
      | intro _
      | with_reducible assumption
      | with_reducible apply State.setConfig_keeps
      | fail_if_no_progress (with_reducible refine Keeps.upd ?_ rfl rfl rfl rfl rfl rfl rfl rfl)
      | exact le_rfl
      | rfl
      | dsimp -zeta only)

end Sys2Proof.Machine
end

