-- ==== Sys2Proof/Laws/KeepsOps.lean ====
section
/-! SUPPORT. What the operations of Machine/Ops.lean keep (Laws/Keeps.lean), one lemma for each. -/

namespace Sys2Proof.Machine

theorem State.free_keeps {s0 : State} (s : State) (h : Keeps s0 s) : Keeps s0 (s.free).2 := h.take 1

theorem State.freeBytes_keeps {s0 : State} (s : State) (n : Nat) (h : Keeps s0 s) : Keeps s0 (s.freeBytes n).2 := h.take 1

theorem State.onWrite_keeps {s0 : State} (s : State) (f : State → State) (hk_f : ∀ t, Keeps s0 t → Keeps s0 (f t)) (hs0 : Keeps s0 s) : Keeps s0 (State.onWrite s f) := by
  unfold State.onWrite
  repeat' (first
      | (intro (x : State); refine Keeps.cut (s := s0) (x := x) ?_ ?_ <;> [(subst x); (clear_value x; intro _)])
      | intro (x : MemState)
      | intro (x : TreeState)
      | intro (x : MgmtState)
      | (intro (x : State → State); subst x)
      | (intro (x : State → _ × State); subst x)
      | (intro (x : _ → State); subst x)
      | (intro (x : _ → _ → State); subst x)
      | (intro x; clear_value x)
      | intro _
      | with_reducible assumption
      | with_reducible apply hk_f
      | with_reducible refine Keeps.ite ?_ ?_
      | with_reducible refine Keeps.ite1 ?_ ?_
      | with_reducible refine Keeps.ite2 ?_ ?_
      | with_reducible refine Keeps.ite3 ?_ ?_
      | with_reducible refine Keeps.ite4 ?_ ?_
      | fail_if_no_progress (with_reducible refine Keeps.upd ?_ rfl rfl rfl rfl rfl rfl rfl rfl)
      | split
      | exact le_rfl
      | rfl
      | dsimp -zeta only)

theorem State.emit_keeps {s0 : State} (s : State) (o : Output) (h : Keeps s0 s) : Keeps s0 (s.emit o) :=
  h.trans ⟨rfl, ⟨List.prefix_append .., le_rfl, le_rfl, fun _ h => h, fun _ h => h⟩, id, id⟩

theorem State.onRead_keeps {s0 : State} (s : State) (v : Nat) (f : State → State) (hk_f : ∀ t, Keeps s0 t → Keeps s0 (f t)) (hs0 : Keeps s0 s) : Keeps s0 (State.onRead s v f) := by
  unfold State.onRead
  repeat' (first
      | (intro (x : State); refine Keeps.cut (s := s0) (x := x) ?_ ?_ <;> [(subst x); (clear_value x; intro _)])
      | intro (x : MemState)
      | intro (x : TreeState)
      | intro (x : MgmtState)
      | (intro (x : State → State); subst x)
      | (intro (x : State → _ × State); subst x)
      | (intro (x : _ → State); subst x)
      | (intro (x : _ → _ → State); subst x)
      | (intro x; clear_value x)
      | intro _
      | with_reducible assumption
      | with_reducible apply State.emit_keeps
      | with_reducible apply hk_f
      | with_reducible refine Keeps.ite ?_ ?_
      | with_reducible refine Keeps.ite1 ?_ ?_
      | with_reducible refine Keeps.ite2 ?_ ?_
      | with_reducible refine Keeps.ite3 ?_ ?_
      | with_reducible refine Keeps.ite4 ?_ ?_
      | fail_if_no_progress (with_reducible refine Keeps.upd ?_ rfl rfl rfl rfl rfl rfl rfl rfl)
      | split
      | exact le_rfl
      | rfl
      | dsimp -zeta only)

theorem State.platform_keeps {s0 : State} (s : State) (sensor : Nat) (value : Nat) (hs0 : Keeps s0 s) : Keeps s0 (State.platform s sensor value) := by
  unfold State.platform
  repeat' (first
      | (intro (x : State); refine Keeps.cut (s := s0) (x := x) ?_ ?_ <;> [(subst x); (clear_value x; intro _)])
      | intro (x : MemState)
      | intro (x : TreeState)
      | intro (x : MgmtState)
      | (intro (x : State → State); subst x)
      | (intro (x : State → _ × State); subst x)
      | (intro (x : _ → State); subst x)
      | (intro (x : _ → _ → State); subst x)
      | (intro x; clear_value x)
      | intro _
      | with_reducible assumption
      | with_reducible apply State.emit_keeps
      | with_reducible refine Keeps.ite ?_ ?_
      | with_reducible refine Keeps.ite1 ?_ ?_
      | with_reducible refine Keeps.ite2 ?_ ?_
      | with_reducible refine Keeps.ite3 ?_ ?_
      | with_reducible refine Keeps.ite4 ?_ ?_
      | fail_if_no_progress (with_reducible refine Keeps.upd ?_ rfl rfl rfl rfl rfl rfl rfl rfl)
      | split
      | exact le_rfl
      | rfl
      | dsimp -zeta only)

theorem State.tellState_keeps {s0 : State} (s : State) (old : State) (hs0 : Keeps s0 s) : Keeps s0 (State.tellState s old) := by
  unfold State.tellState
  repeat' (first
      | (intro (x : State); refine Keeps.cut (s := s0) (x := x) ?_ ?_ <;> [(subst x); (clear_value x; intro _)])
      | intro (x : MemState)
      | intro (x : TreeState)
      | intro (x : MgmtState)
      | (intro (x : State → State); subst x)
      | (intro (x : State → _ × State); subst x)
      | (intro (x : _ → State); subst x)
      | (intro (x : _ → _ → State); subst x)
      | (intro x; clear_value x)
      | intro _
      | with_reducible assumption
      | with_reducible apply State.platform_keeps
      | with_reducible refine Keeps.ite ?_ ?_
      | with_reducible refine Keeps.ite1 ?_ ?_
      | with_reducible refine Keeps.ite2 ?_ ?_
      | with_reducible refine Keeps.ite3 ?_ ?_
      | with_reducible refine Keeps.ite4 ?_ ?_
      | fail_if_no_progress (with_reducible refine Keeps.upd ?_ rfl rfl rfl rfl rfl rfl rfl rfl)
      | split
      | exact le_rfl
      | rfl
      | dsimp -zeta only)

theorem State.tellQuality_keeps {s0 : State} (s : State) (old : State) (hs0 : Keeps s0 s) : Keeps s0 (State.tellQuality s old) := by
  unfold State.tellQuality
  repeat' (first
      | (intro (x : State); refine Keeps.cut (s := s0) (x := x) ?_ ?_ <;> [(subst x); (clear_value x; intro _)])
      | intro (x : MemState)
      | intro (x : TreeState)
      | intro (x : MgmtState)
      | (intro (x : State → State); subst x)
      | (intro (x : State → _ × State); subst x)
      | (intro (x : _ → State); subst x)
      | (intro (x : _ → _ → State); subst x)
      | (intro x; clear_value x)
      | intro _
      | with_reducible assumption
      | with_reducible apply State.platform_keeps
      | with_reducible refine Keeps.ite ?_ ?_
      | with_reducible refine Keeps.ite1 ?_ ?_
      | with_reducible refine Keeps.ite2 ?_ ?_
      | with_reducible refine Keeps.ite3 ?_ ?_
      | with_reducible refine Keeps.ite4 ?_ ?_
      | (with_reducible refine Keeps.of_snd (by assumption) ?_)
      | (with_reducible refine Keeps.of_snd2 (by assumption) ?_)
      | (with_reducible refine Keeps.of_snd3 (by assumption) ?_)
      | (with_reducible refine Keeps.of_snd4 (by assumption) ?_)
      | fail_if_no_progress (with_reducible refine Keeps.upd ?_ rfl rfl rfl rfl rfl rfl rfl rfl)
      | split
      | exact le_rfl
      | rfl
      | dsimp -zeta only)

theorem State.modUnit_keeps {s0 : State} (s : State) (u : Nat) (f : UnitState → UnitState) (hs0 : Keeps s0 s) : Keeps s0 (State.modUnit s u f) := by
  unfold State.modUnit
  repeat' (first
      | (intro (x : State); refine Keeps.cut (s := s0) (x := x) ?_ ?_ <;> [(subst x); (clear_value x; intro _)])
      | intro (x : MemState)
      | intro (x : TreeState)
      | intro (x : MgmtState)
      | (intro (x : State → State); subst x)
      | (intro (x : State → _ × State); subst x)
      | (intro (x : _ → State); subst x)
      | (intro (x : _ → _ → State); subst x)
      | (intro x; clear_value x)
      | intro _
      | with_reducible assumption
      | fail_if_no_progress (with_reducible refine Keeps.upd ?_ rfl rfl rfl rfl rfl rfl rfl rfl)
      | exact le_rfl
      | rfl
      | dsimp -zeta only)

theorem State.modCell_keeps {s0 : State} (s : State) (u : Nat) (f : CellState → CellState) (hs0 : Keeps s0 s) : Keeps s0 (State.modCell s u f) := by
  unfold State.modCell
  repeat' (first
      | (intro (x : State); refine Keeps.cut (s := s0) (x := x) ?_ ?_ <;> [(subst x); (clear_value x; intro _)])
      | intro (x : MemState)
      | intro (x : TreeState)
      | intro (x : MgmtState)
      | (intro (x : State → State); subst x)
      | (intro (x : State → _ × State); subst x)
      | (intro (x : _ → State); subst x)
      | (intro (x : _ → _ → State); subst x)
      | (intro x; clear_value x)
      | intro _
      | with_reducible assumption
      | fail_if_no_progress (with_reducible refine Keeps.upd ?_ rfl rfl rfl rfl rfl rfl rfl rfl)
      | exact le_rfl
      | rfl
      | dsimp -zeta only)

theorem State.modStack_keeps {s0 : State} (s : State) (k : Nat) (f : StackState → StackState) (hs0 : Keeps s0 s) : Keeps s0 (State.modStack s k f) := by
  unfold State.modStack
  repeat' (first
      | (intro (x : State); refine Keeps.cut (s := s0) (x := x) ?_ ?_ <;> [(subst x); (clear_value x; intro _)])
      | intro (x : MemState)
      | intro (x : TreeState)
      | intro (x : MgmtState)
      | (intro (x : State → State); subst x)
      | (intro (x : State → _ × State); subst x)
      | (intro (x : _ → State); subst x)
      | (intro (x : _ → _ → State); subst x)
      | (intro x; clear_value x)
      | intro _
      | with_reducible assumption
      | fail_if_no_progress (with_reducible refine Keeps.upd ?_ rfl rfl rfl rfl rfl rfl rfl rfl)
      | exact le_rfl
      | rfl
      | dsimp -zeta only)

theorem State.putSlot_keeps {s0 : State} (s : State) (k : Nat) (v : Option Slot) (hs0 : Keeps s0 s) : Keeps s0 (State.putSlot s k v) := by
  unfold State.putSlot
  repeat' (first
      | (intro (x : State); refine Keeps.cut (s := s0) (x := x) ?_ ?_ <;> [(subst x); (clear_value x; intro _)])
      | intro (x : MemState)
      | intro (x : TreeState)
      | intro (x : MgmtState)
      | (intro (x : State → State); subst x)
      | (intro (x : State → _ × State); subst x)
      | (intro (x : _ → State); subst x)
      | (intro (x : _ → _ → State); subst x)
      | (intro x; clear_value x)
      | intro _
      | with_reducible assumption
      | fail_if_no_progress (with_reducible refine Keeps.upd ?_ rfl rfl rfl rfl rfl rfl rfl rfl)
      | exact le_rfl
      | rfl
      | dsimp -zeta only)

theorem State.count_keeps {s0 : State} (s : State) (u : Nat) (id : Nat) (n : Nat) (hs0 : Keeps s0 s) : Keeps s0 (State.count s u id n) := by
  unfold State.count
  repeat' (first
      | (intro (x : State); refine Keeps.cut (s := s0) (x := x) ?_ ?_ <;> [(subst x); (clear_value x; intro _)])
      | intro (x : MemState)
      | intro (x : TreeState)
      | intro (x : MgmtState)
      | (intro (x : State → State); subst x)
      | (intro (x : State → _ × State); subst x)
      | (intro (x : _ → State); subst x)
      | (intro (x : _ → _ → State); subst x)
      | (intro x; clear_value x)
      | intro _
      | with_reducible assumption
      | with_reducible refine Keeps.ite ?_ ?_
      | with_reducible refine Keeps.ite1 ?_ ?_
      | with_reducible refine Keeps.ite2 ?_ ?_
      | with_reducible refine Keeps.ite3 ?_ ?_
      | with_reducible refine Keeps.ite4 ?_ ?_
      | fail_if_no_progress (with_reducible refine Keeps.upd ?_ rfl rfl rfl rfl rfl rfl rfl rfl)
      | split
      | exact le_rfl
      | rfl
      | dsimp -zeta only)

theorem State.clamp_keeps {s0 : State} (s : State) (src : ClampSource) (n : Nat) (hs0 : Keeps s0 s) : Keeps s0 (State.clamp s src n) := by
  unfold State.clamp
  repeat' (first
      | (intro (x : State); refine Keeps.cut (s := s0) (x := x) ?_ ?_ <;> [(subst x); (clear_value x; intro _)])
      | intro (x : MemState)
      | intro (x : TreeState)
      | intro (x : MgmtState)
      | (intro (x : State → State); subst x)
      | (intro (x : State → _ × State); subst x)
      | (intro (x : _ → State); subst x)
      | (intro (x : _ → _ → State); subst x)
      | (intro x; clear_value x)
      | intro _
      | with_reducible assumption
      | with_reducible apply State.count_keeps
      | lift_lets -underBinder
      | with_reducible refine Keeps.ite ?_ ?_
      | with_reducible refine Keeps.ite1 ?_ ?_
      | with_reducible refine Keeps.ite2 ?_ ?_
      | with_reducible refine Keeps.ite3 ?_ ?_
      | with_reducible refine Keeps.ite4 ?_ ?_
      | fail_if_no_progress (with_reducible refine Keeps.upd ?_ rfl rfl rfl rfl rfl rfl rfl rfl)
      | split
      | exact le_rfl
      | rfl
      | dsimp -zeta only)

theorem State.sig_keeps {s0 : State} (s : State) (u : Nat) (kind : Nat) (arg : Nat) (hs0 : Keeps s0 s) : Keeps s0 (State.sig s u kind arg) := by
  unfold State.sig
  repeat' (first
      | (intro (x : State); refine Keeps.cut (s := s0) (x := x) ?_ ?_ <;> [(subst x); (clear_value x; intro _)])
      | intro (x : MemState)
      | intro (x : TreeState)
      | intro (x : MgmtState)
      | (intro (x : State → State); subst x)
      | (intro (x : State → _ × State); subst x)
      | (intro (x : _ → State); subst x)
      | (intro (x : _ → _ → State); subst x)
      | (intro x; clear_value x)
      | intro _
      | with_reducible assumption
      | with_reducible apply State.count_keeps
      | with_reducible refine Keeps.ite ?_ ?_
      | with_reducible refine Keeps.ite1 ?_ ?_
      | with_reducible refine Keeps.ite2 ?_ ?_
      | with_reducible refine Keeps.ite3 ?_ ?_
      | with_reducible refine Keeps.ite4 ?_ ?_
      | fail_if_no_progress (with_reducible refine Keeps.upd ?_ rfl rfl rfl rfl rfl rfl rfl rfl)
      | split
      | exact le_rfl
      | rfl
      | dsimp -zeta only)

theorem State.bufferEvent_keeps {s0 : State} (s : State) (rec : List Byte) (hs0 : Keeps s0 s) : Keeps s0 (State.bufferEvent s rec) := by
  unfold State.bufferEvent
  repeat' (first
      | (intro (x : State); refine Keeps.cut (s := s0) (x := x) ?_ ?_ <;> [(subst x); (clear_value x; intro _)])
      | intro (x : MemState)
      | intro (x : TreeState)
      | intro (x : MgmtState)
      | (intro (x : State → State); subst x)
      | (intro (x : State → _ × State); subst x)
      | (intro (x : _ → State); subst x)
      | (intro (x : _ → _ → State); subst x)
      | (intro x; clear_value x)
      | intro _
      | with_reducible assumption
      | with_reducible apply State.count_keeps
      | lift_lets -underBinder
      | with_reducible refine Keeps.ite ?_ ?_
      | with_reducible refine Keeps.ite1 ?_ ?_
      | with_reducible refine Keeps.ite2 ?_ ?_
      | with_reducible refine Keeps.ite3 ?_ ?_
      | with_reducible refine Keeps.ite4 ?_ ?_
      | fail_if_no_progress (with_reducible refine Keeps.upd ?_ rfl rfl rfl rfl rfl rfl rfl rfl)
      | split
      | exact le_rfl
      | rfl
      | dsimp -zeta only)

theorem State.event_keeps {s0 : State} (s : State) (code : Nat) (arg : Nat) (urgent : Bool) (hs0 : Keeps s0 s) : Keeps s0 (State.event s code arg urgent) := by
  unfold State.event
  repeat' (first
      | (intro (x : State); refine Keeps.cut (s := s0) (x := x) ?_ ?_ <;> [(subst x); (clear_value x; intro _)])
      | intro (x : MemState)
      | intro (x : TreeState)
      | intro (x : MgmtState)
      | (intro (x : State → State); subst x)
      | (intro (x : State → _ × State); subst x)
      | (intro (x : _ → State); subst x)
      | (intro (x : _ → _ → State); subst x)
      | (intro x; clear_value x)
      | intro _
      | with_reducible assumption
      | with_reducible apply State.bufferEvent_keeps
      | fail_if_no_progress (with_reducible refine Keeps.upd ?_ rfl rfl rfl rfl rfl rfl rfl rfl)
      | exact le_rfl
      | rfl
      | dsimp -zeta only)

theorem State.treeChanged_keeps {s0 : State} (s : State) (hs0 : Keeps s0 s) : Keeps s0 (State.treeChanged s) := by
  unfold State.treeChanged
  repeat' (first
      | (intro (x : State); refine Keeps.cut (s := s0) (x := x) ?_ ?_ <;> [(subst x); (clear_value x; intro _)])
      | intro (x : MemState)
      | intro (x : TreeState)
      | intro (x : MgmtState)
      | (intro (x : State → State); subst x)
      | (intro (x : State → _ × State); subst x)
      | (intro (x : _ → State); subst x)
      | (intro (x : _ → _ → State); subst x)
      | (intro x; clear_value x)
      | intro _
      | with_reducible assumption
      | with_reducible apply State.event_keeps
      | lift_lets -underBinder
      | fail_if_no_progress (with_reducible refine Keeps.upd ?_ rfl rfl rfl rfl rfl rfl rfl rfl)
      | exact le_rfl
      | rfl
      | dsimp -zeta only)

theorem State.setState_keeps {s0 : State} (s : State) (u : Nat) (st : NodeState) (hs0 : Keeps s0 s) : Keeps s0 (State.setState s u st) := by
  unfold State.setState
  repeat' (first
      | (intro (x : State); refine Keeps.cut (s := s0) (x := x) ?_ ?_ <;> [(subst x); (clear_value x; intro _)])
      | intro (x : MemState)
      | intro (x : TreeState)
      | intro (x : MgmtState)
      | (intro (x : State → State); subst x)
      | (intro (x : State → _ × State); subst x)
      | (intro (x : _ → State); subst x)
      | (intro (x : _ → _ → State); subst x)
      | (intro x; clear_value x)
      | intro _
      | with_reducible assumption
      | with_reducible apply State.treeChanged_keeps
      | with_reducible apply State.sig_keeps
      | with_reducible apply State.modUnit_keeps
      | lift_lets -underBinder
      | with_reducible refine Keeps.ite ?_ ?_
      | with_reducible refine Keeps.ite1 ?_ ?_
      | with_reducible refine Keeps.ite2 ?_ ?_
      | with_reducible refine Keeps.ite3 ?_ ?_
      | with_reducible refine Keeps.ite4 ?_ ?_
      | fail_if_no_progress (with_reducible refine Keeps.upd ?_ rfl rfl rfl rfl rfl rfl rfl rfl)
      | split
      | exact le_rfl
      | rfl
      | dsimp -zeta only)

end Sys2Proof.Machine
end

