-- ==== Sys2Proof/Laws/KeepsMemory.lean ====
section
/-! SUPPORT. What the operations of Machine/Memory.lean keep (Laws/Keeps.lean), one lemma for each. -/

namespace Sys2Proof.Machine

theorem State.setMark_keeps {s0 : State} (s : State) (base m : Nat) (h : Keeps s0 s) : Keeps s0 (s.setMark base m) :=
  h.mem _ id (fun hm => mwf_mput 0 m _ base hm)

theorem mwf_store (a : Nat) : ∀ (l : List (Byte × Nat)) (m : List Host.Cell), mwf 0 m = true →
    mwf 0 (l.foldl (fun m bi => mput 0 m (a + bi.2) bi.1) m) = true
  | [], _, h => h
  | x :: l, m, h => mwf_store a l _ (mwf_mput 0 x.1 m (a + x.2) h)

theorem State.rawStore_keeps {s0 : State} (s : State) (a : Nat) (bs : List Byte) (h : Keeps s0 s) : Keeps s0 (s.rawStore a bs) :=
  h.mem _ (fun hm => mwf_store a _ _ hm) id

theorem State.modLogs_keeps {s0 : State} (s : State) (key : Nat) (f : ErrLogs → ErrLogs) (hs0 : Keeps s0 s) : Keeps s0 (State.modLogs s key f) := by
  unfold State.modLogs
  repeat' (first
      | (intro (x : State); refine Keeps.cut (s := s0) (x := x) ?_ ?_ <;> [(subst x); (clear_value x; intro _)])
      | intro (x : MemState)
      | intro (x : TreeState)
      | intro (x : MgmtState)
      | (intro (x : State → State); subst x)
      | (intro (x : State → _ × State); subst x)
      | (intro (x : _ → State); subst x)
      | (intro (x : _ → _ → State); subst x)
      | (intro x; clear_value x)
      | intro _
      | with_reducible assumption
      | fail_if_no_progress (with_reducible refine Keeps.upd ?_ rfl rfl rfl rfl rfl rfl rfl rfl)
      | exact le_rfl
      | rfl
      | dsimp -zeta only)

theorem State.reportCe_keeps {s0 : State} (s : State) (base : Nat) (syn : Nat) (finder : Nat) (hs0 : Keeps s0 s) : Keeps s0 (State.reportCe s base syn finder) := by
  unfold State.reportCe
  repeat' (first
      | (intro (x : State); refine Keeps.cut (s := s0) (x := x) ?_ ?_ <;> [(subst x); (clear_value x; intro _)])
      | intro (x : MemState)
      | intro (x : TreeState)
      | intro (x : MgmtState)
      | (intro (x : State → State); subst x)
      | (intro (x : State → _ × State); subst x)
      | (intro (x : _ → State); subst x)
      | (intro (x : _ → _ → State); subst x)
      | (intro x; clear_value x)
      | intro _
      | with_reducible assumption
      | with_reducible apply State.modLogs_keeps
      | with_reducible apply State.count_keeps
      | lift_lets -underBinder
      | (with_reducible refine Keeps.of_snd (by assumption) ?_)
      | (with_reducible refine Keeps.of_snd2 (by assumption) ?_)
      | (with_reducible refine Keeps.of_snd3 (by assumption) ?_)
      | (with_reducible refine Keeps.of_snd4 (by assumption) ?_)
      | fail_if_no_progress (with_reducible refine Keeps.upd ?_ rfl rfl rfl rfl rfl rfl rfl rfl)
      | split
      | exact le_rfl
      | rfl
      | dsimp -zeta only)

theorem State.reportUe_keeps {s0 : State} (s : State) (base : Nat) (syn : Nat) (finder : Nat) (hs0 : Keeps s0 s) : Keeps s0 (State.reportUe s base syn finder) := by
  unfold State.reportUe
  repeat' (first
      | (intro (x : State); refine Keeps.cut (s := s0) (x := x) ?_ ?_ <;> [(subst x); (clear_value x; intro _)])
      | intro (x : MemState)
      | intro (x : TreeState)
      | intro (x : MgmtState)
      | (intro (x : State → State); subst x)
      | (intro (x : State → _ × State); subst x)
      | (intro (x : _ → State); subst x)
      | (intro (x : _ → _ → State); subst x)
      | (intro x; clear_value x)
      | intro _
      | with_reducible assumption
      | with_reducible apply State.modLogs_keeps
      | with_reducible apply State.event_keeps
      | with_reducible apply State.sig_keeps
      | with_reducible apply State.count_keeps
      | lift_lets -underBinder
      | (with_reducible refine Keeps.of_snd (by assumption) ?_)
      | (with_reducible refine Keeps.of_snd2 (by assumption) ?_)
      | (with_reducible refine Keeps.of_snd3 (by assumption) ?_)
      | (with_reducible refine Keeps.of_snd4 (by assumption) ?_)
      | fail_if_no_progress (with_reducible refine Keeps.upd ?_ rfl rfl rfl rfl rfl rfl rfl rfl)
      | split
      | exact le_rfl
      | rfl
      | dsimp -zeta only)

theorem State.correctPart_keeps {s0 : State} (s : State) (base : Nat) (p : CheckPart) (pos : Nat) (finder : Nat) (hs0 : Keeps s0 s) : Keeps s0 (State.correctPart s base p pos finder) := by
  unfold State.correctPart
  repeat' (first
      | (intro (x : State); refine Keeps.cut (s := s0) (x := x) ?_ ?_ <;> [(subst x); (clear_value x; intro _)])
      | intro (x : MemState)
      | intro (x : TreeState)
      | intro (x : MgmtState)
      | (intro (x : State → State); subst x)
      | (intro (x : State → _ × State); subst x)
      | (intro (x : _ → State); subst x)
      | (intro (x : _ → _ → State); subst x)
      | (intro x; clear_value x)
      | intro _
      | with_reducible assumption
      | with_reducible apply State.reportCe_keeps
      | with_reducible apply State.rawStore_keeps
      | with_reducible apply State.setMark_keeps
      | lift_lets -underBinder
      | with_reducible refine Keeps.ite ?_ ?_
      | with_reducible refine Keeps.ite1 ?_ ?_
      | with_reducible refine Keeps.ite2 ?_ ?_
      | with_reducible refine Keeps.ite3 ?_ ?_
      | with_reducible refine Keeps.ite4 ?_ ?_
      | fail_if_no_progress (with_reducible refine Keeps.upd ?_ rfl rfl rfl rfl rfl rfl rfl rfl)
      | split
      | exact le_rfl
      | rfl
      | dsimp -zeta only)

theorem State.checkUnit_keeps {s0 : State} (s : State) (base : Nat) (finder : Nat) (fix : Bool) (hs0 : Keeps s0 s) : Keeps s0 (State.checkUnit s base finder fix).2 := by
  unfold State.checkUnit
  repeat' (first
      | (intro (x : State); refine Keeps.cut (s := s0) (x := x) ?_ ?_ <;> [(subst x); (clear_value x; intro _)])
      | intro (x : MemState)
      | intro (x : TreeState)
      | intro (x : MgmtState)
      | (intro (x : State → State); subst x)
      | (intro (x : State → _ × State); subst x)
      | (intro (x : _ → State); subst x)
      | (intro (x : _ → _ → State); subst x)
      | (intro x; clear_value x)
      | intro _
      | with_reducible assumption
      | with_reducible apply State.correctPart_keeps
      | with_reducible apply State.reportUe_keeps
      | with_reducible apply State.reportCe_keeps
      | with_reducible apply State.setMark_keeps
      | lift_lets -underBinder
      | with_reducible refine Keeps.foldl _ ?_ _ _ ?_
      | with_reducible refine Keeps.foldl2 _ ?_ _ _ ?_
      | with_reducible refine Keeps.foldl3 _ ?_ _ _ ?_
      | with_reducible refine Keeps.foldl4 _ ?_ _ _ ?_
      | with_reducible refine Keeps.foldl5 _ ?_ _ _ ?_
      | with_reducible refine Keeps.ite ?_ ?_
      | with_reducible refine Keeps.ite1 ?_ ?_
      | with_reducible refine Keeps.ite2 ?_ ?_
      | with_reducible refine Keeps.ite3 ?_ ?_
      | with_reducible refine Keeps.ite4 ?_ ?_
      | (with_reducible refine Keeps.of_snd (by assumption) ?_)
      | (with_reducible refine Keeps.of_snd2 (by assumption) ?_)
      | (with_reducible refine Keeps.of_snd3 (by assumption) ?_)
      | (with_reducible refine Keeps.of_snd4 (by assumption) ?_)
      | fail_if_no_progress (with_reducible refine Keeps.upd ?_ rfl rfl rfl rfl rfl rfl rfl rfl)
      | split
      | exact le_rfl
      | rfl
      | dsimp -zeta only)

theorem State.readUnit_keeps {s0 : State} (s : State) (base : Nat) (finder : Nat) (hs0 : Keeps s0 s) : Keeps s0 (State.readUnit s base finder).2 := by
  unfold State.readUnit
  repeat' (first
      | (intro (x : State); refine Keeps.cut (s := s0) (x := x) ?_ ?_ <;> [(subst x); (clear_value x; intro _)])
      | intro (x : MemState)
      | intro (x : TreeState)
      | intro (x : MgmtState)
      | (intro (x : State → State); subst x)
      | (intro (x : State → _ × State); subst x)
      | (intro (x : _ → State); subst x)
      | (intro (x : _ → _ → State); subst x)
      | (intro x; clear_value x)
      | intro _
      | with_reducible assumption
      | with_reducible apply State.checkUnit_keeps
      | with_reducible apply State.modLogs_keeps
      | with_reducible apply State.count_keeps
      | lift_lets -underBinder
      | with_reducible refine Keeps.ite ?_ ?_
      | with_reducible refine Keeps.ite1 ?_ ?_
      | with_reducible refine Keeps.ite2 ?_ ?_
      | with_reducible refine Keeps.ite3 ?_ ?_
      | with_reducible refine Keeps.ite4 ?_ ?_
      | (with_reducible refine Keeps.of_snd (by assumption) ?_)
      | (with_reducible refine Keeps.of_snd2 (by assumption) ?_)
      | (with_reducible refine Keeps.of_snd3 (by assumption) ?_)
      | (with_reducible refine Keeps.of_snd4 (by assumption) ?_)
      | fail_if_no_progress (with_reducible refine Keeps.upd ?_ rfl rfl rfl rfl rfl rfl rfl rfl)
      | split
      | exact le_rfl
      | rfl
      | dsimp -zeta only)

theorem State.memRead_keeps {s0 : State} (s : State) (a : Nat) (n : Nat) (hs0 : Keeps s0 s) : Keeps s0 (State.memRead s a n).2.2 := by
  unfold State.memRead
  repeat' (first
      | (intro (x : State); refine Keeps.cut (s := s0) (x := x) ?_ ?_ <;> [(subst x); (clear_value x; intro _)])
      | intro (x : MemState)
      | intro (x : TreeState)
      | intro (x : MgmtState)
      | (intro (x : State → State); subst x)
      | (intro (x : State → _ × State); subst x)
      | (intro (x : _ → State); subst x)
      | (intro (x : _ → _ → State); subst x)
      | (intro x; clear_value x)
      | intro _
      | with_reducible assumption
      | with_reducible apply State.readUnit_keeps
      | lift_lets -underBinder
      | with_reducible refine Keeps.foldl _ ?_ _ _ ?_
      | with_reducible refine Keeps.foldl2 _ ?_ _ _ ?_
      | with_reducible refine Keeps.foldl3 _ ?_ _ _ ?_
      | with_reducible refine Keeps.foldl4 _ ?_ _ _ ?_
      | with_reducible refine Keeps.foldl5 _ ?_ _ _ ?_
      | (with_reducible refine Keeps.of_snd (by assumption) ?_)
      | (with_reducible refine Keeps.of_snd2 (by assumption) ?_)
      | (with_reducible refine Keeps.of_snd3 (by assumption) ?_)
      | (with_reducible refine Keeps.of_snd4 (by assumption) ?_)
      | fail_if_no_progress (with_reducible refine Keeps.upd ?_ rfl rfl rfl rfl rfl rfl rfl rfl)
      | split
      | exact le_rfl
      | rfl
      | dsimp -zeta only)

theorem State.fire_keeps {s0 : State} (s : State) (reg : Nat) (arm : Nat) (hs0 : Keeps s0 s) : Keeps s0 (State.fire s reg arm) := by
  unfold State.fire
  repeat' (first
      | (intro (x : State); refine Keeps.cut (s := s0) (x := x) ?_ ?_ <;> [(subst x); (clear_value x; intro _)])
      | intro (x : MemState)
      | intro (x : TreeState)
      | intro (x : MgmtState)
      | (intro (x : State → State); subst x)
      | (intro (x : State → _ × State); subst x)
      | (intro (x : _ → State); subst x)
      | (intro (x : _ → _ → State); subst x)
      | (intro x; clear_value x)
      | intro _
      | with_reducible assumption
      | with_reducible refine Keeps.ite ?_ ?_
      | with_reducible refine Keeps.ite1 ?_ ?_
      | with_reducible refine Keeps.ite2 ?_ ?_
      | with_reducible refine Keeps.ite3 ?_ ?_
      | with_reducible refine Keeps.ite4 ?_ ?_
      | fail_if_no_progress (with_reducible refine Keeps.upd ?_ rfl rfl rfl rfl rfl rfl rfl rfl)
      | split
      | exact le_rfl
      | rfl
      | dsimp -zeta only)

theorem State.xorData_keeps {s0 : State} (s : State) (base : Nat) (n : Nat) (mask : Nat) (hs0 : Keeps s0 s) : Keeps s0 (State.xorData s base n mask) := by
  unfold State.xorData
  repeat' (first
      | (intro (x : State); refine Keeps.cut (s := s0) (x := x) ?_ ?_ <;> [(subst x); (clear_value x; intro _)])
      | intro (x : MemState)
      | intro (x : TreeState)
      | intro (x : MgmtState)
      | (intro (x : State → State); subst x)
      | (intro (x : State → _ × State); subst x)
      | (intro (x : _ → State); subst x)
      | (intro (x : _ → _ → State); subst x)
      | (intro x; clear_value x)
      | intro _
      | with_reducible assumption
      | with_reducible apply State.rawStore_keeps
      | with_reducible refine Keeps.ite ?_ ?_
      | with_reducible refine Keeps.ite1 ?_ ?_
      | with_reducible refine Keeps.ite2 ?_ ?_
      | with_reducible refine Keeps.ite3 ?_ ?_
      | with_reducible refine Keeps.ite4 ?_ ?_
      | fail_if_no_progress (with_reducible refine Keeps.upd ?_ rfl rfl rfl rfl rfl rfl rfl rfl)
      | split
      | exact le_rfl
      | rfl
      | dsimp -zeta only)

theorem State.applyFlips_keeps {s0 : State} (s : State) (base : Nat) (hs0 : Keeps s0 s) : Keeps s0 (State.applyFlips s base) := by
  unfold State.applyFlips
  repeat' (first
      | (intro (x : State); refine Keeps.cut (s := s0) (x := x) ?_ ?_ <;> [(subst x); (clear_value x; intro _)])
      | intro (x : MemState)
      | intro (x : TreeState)
      | intro (x : MgmtState)
      | (intro (x : State → State); subst x)
      | (intro (x : State → _ × State); subst x)
      | (intro (x : _ → State); subst x)
      | (intro (x : _ → _ → State); subst x)
      | (intro x; clear_value x)
      | intro _
      | with_reducible assumption
      | with_reducible apply State.xorData_keeps
      | with_reducible apply State.fire_keeps
      | with_reducible apply State.setMark_keeps
      | lift_lets -underBinder
      | with_reducible refine Keeps.foldl _ ?_ _ _ ?_
      | with_reducible refine Keeps.foldl2 _ ?_ _ _ ?_
      | with_reducible refine Keeps.foldl3 _ ?_ _ _ ?_
      | with_reducible refine Keeps.foldl4 _ ?_ _ _ ?_
      | with_reducible refine Keeps.foldl5 _ ?_ _ _ ?_
      | with_reducible refine Keeps.ite ?_ ?_
      | with_reducible refine Keeps.ite1 ?_ ?_
      | with_reducible refine Keeps.ite2 ?_ ?_
      | with_reducible refine Keeps.ite3 ?_ ?_
      | with_reducible refine Keeps.ite4 ?_ ?_
      | (with_reducible refine Keeps.of_snd (by assumption) ?_)
      | (with_reducible refine Keeps.of_snd2 (by assumption) ?_)
      | (with_reducible refine Keeps.of_snd3 (by assumption) ?_)
      | (with_reducible refine Keeps.of_snd4 (by assumption) ?_)
      | fail_if_no_progress (with_reducible refine Keeps.upd ?_ rfl rfl rfl rfl rfl rfl rfl rfl)
      | split
      | exact le_rfl
      | rfl
      | dsimp -zeta only)

theorem State.poisonCleared_keeps {s0 : State} (s : State) (base : Nat) (hs0 : Keeps s0 s) : Keeps s0 (State.poisonCleared s base) := by
  unfold State.poisonCleared
  repeat' (first
      | (intro (x : State); refine Keeps.cut (s := s0) (x := x) ?_ ?_ <;> [(subst x); (clear_value x; intro _)])
      | intro (x : MemState)
      | intro (x : TreeState)
      | intro (x : MgmtState)
      | (intro (x : State → State); subst x)
      | (intro (x : State → _ × State); subst x)
      | (intro (x : _ → State); subst x)
      | (intro (x : _ → _ → State); subst x)
      | (intro x; clear_value x)
      | intro _
      | with_reducible assumption
      | with_reducible apply State.modLogs_keeps
      | with_reducible apply State.count_keeps
      | lift_lets -underBinder
      | (with_reducible refine Keeps.of_snd (by assumption) ?_)
      | (with_reducible refine Keeps.of_snd2 (by assumption) ?_)
      | (with_reducible refine Keeps.of_snd3 (by assumption) ?_)
      | (with_reducible refine Keeps.of_snd4 (by assumption) ?_)
      | fail_if_no_progress (with_reducible refine Keeps.upd ?_ rfl rfl rfl rfl rfl rfl rfl rfl)
      | split
      | exact le_rfl
      | rfl
      | dsimp -zeta only)

theorem State.putUnit_keeps {s0 : State} (s : State) (base : Nat) (bs : List Byte) (poison : Bool) (hs0 : Keeps s0 s) : Keeps s0 (State.putUnit s base bs poison) := by
  unfold State.putUnit
  repeat' (first
      | (intro (x : State); refine Keeps.cut (s := s0) (x := x) ?_ ?_ <;> [(subst x); (clear_value x; intro _)])
      | intro (x : MemState)
      | intro (x : TreeState)
      | intro (x : MgmtState)
      | (intro (x : State → State); subst x)
      | (intro (x : State → _ × State); subst x)
      | (intro (x : _ → State); subst x)
      | (intro (x : _ → _ → State); subst x)
      | (intro x; clear_value x)
      | intro _
      | with_reducible assumption
      | with_reducible apply State.poisonCleared_keeps
      | with_reducible apply State.applyFlips_keeps
      | with_reducible apply State.rawStore_keeps
      | with_reducible apply State.setMark_keeps
      | with_reducible apply State.count_keeps
      | lift_lets -underBinder
      | with_reducible refine Keeps.ite ?_ ?_
      | with_reducible refine Keeps.ite1 ?_ ?_
      | with_reducible refine Keeps.ite2 ?_ ?_
      | with_reducible refine Keeps.ite3 ?_ ?_
      | with_reducible refine Keeps.ite4 ?_ ?_
      | fail_if_no_progress (with_reducible refine Keeps.upd ?_ rfl rfl rfl rfl rfl rfl rfl rfl)
      | split
      | exact le_rfl
      | rfl
      | dsimp -zeta only)

theorem State.writeSeal_keeps {s0 : State} (s : State) (hs0 : Keeps s0 s) : Keeps s0 (State.writeSeal s) := by
  unfold State.writeSeal
  repeat' (first
      | (intro (x : State); refine Keeps.cut (s := s0) (x := x) ?_ ?_ <;> [(subst x); (clear_value x; intro _)])
      | intro (x : MemState)
      | intro (x : TreeState)
      | intro (x : MgmtState)
      | (intro (x : State → State); subst x)
      | (intro (x : State → _ × State); subst x)
      | (intro (x : _ → State); subst x)
      | (intro (x : _ → _ → State); subst x)
      | (intro x; clear_value x)
      | intro _
      | with_reducible assumption
      | with_reducible apply State.putUnit_keeps
      | with_reducible refine Keeps.ite ?_ ?_
      | with_reducible refine Keeps.ite1 ?_ ?_
      | with_reducible refine Keeps.ite2 ?_ ?_
      | with_reducible refine Keeps.ite3 ?_ ?_
      | with_reducible refine Keeps.ite4 ?_ ?_
      | fail_if_no_progress (with_reducible refine Keeps.upd ?_ rfl rfl rfl rfl rfl rfl rfl rfl)
      | split
      | exact le_rfl
      | rfl
      | dsimp -zeta only)

theorem State.afterRead_keeps {s0 : State} (s : State) (a n : Nat) (hs0 : Keeps s0 s) : Keeps s0 (s.afterRead a n) :=
  State.memRead_keeps s a n hs0

theorem State.readLists_keeps {s0 : State} (s : State) (hs0 : Keeps s0 s) : Keeps s0 (State.readLists s) :=
  State.afterRead_keeps _ _ _ (State.afterRead_keeps _ _ _ hs0)

theorem State.unseal_keeps {s0 : State} (s : State) (a : Nat) (n : Nat) (hs0 : Keeps s0 s) : Keeps s0 (State.unseal s a n) := by
  unfold State.unseal
  repeat' (first
      | (intro (x : State); refine Keeps.cut (s := s0) (x := x) ?_ ?_ <;> [(subst x); (clear_value x; intro _)])
      | intro (x : MemState)
      | intro (x : TreeState)
      | intro (x : MgmtState)
      | (intro (x : State → State); subst x)
      | (intro (x : State → _ × State); subst x)
      | (intro (x : _ → State); subst x)
      | (intro (x : _ → _ → State); subst x)
      | (intro x; clear_value x)
      | intro _
      | with_reducible assumption
      | with_reducible apply State.writeSeal_keeps
      | with_reducible refine Keeps.ite ?_ ?_
      | with_reducible refine Keeps.ite1 ?_ ?_
      | with_reducible refine Keeps.ite2 ?_ ?_
      | with_reducible refine Keeps.ite3 ?_ ?_
      | with_reducible refine Keeps.ite4 ?_ ?_
      | fail_if_no_progress (with_reducible refine Keeps.upd ?_ rfl rfl rfl rfl rfl rfl rfl rfl)
      | split
      | exact le_rfl
      | rfl
      | dsimp -zeta only)

theorem State.touch_keeps {s0 : State} (s : State) (a : Nat) (n : Nat) (hs0 : Keeps s0 s) : Keeps s0 (State.touch s a n) := by
  unfold State.touch
  repeat' (first
      | (intro (x : State); refine Keeps.cut (s := s0) (x := x) ?_ ?_ <;> [(subst x); (clear_value x; intro _)])
      | intro (x : MemState)
      | intro (x : TreeState)
      | intro (x : MgmtState)
      | (intro (x : State → State); subst x)
      | (intro (x : State → _ × State); subst x)
      | (intro (x : _ → State); subst x)
      | (intro (x : _ → _ → State); subst x)
      | (intro x; clear_value x)
      | intro _
      | with_reducible assumption
      | with_reducible apply State.unseal_keeps
      | with_reducible apply State.readLists_keeps
      | with_reducible refine Keeps.ite ?_ ?_
      | with_reducible refine Keeps.ite1 ?_ ?_
      | with_reducible refine Keeps.ite2 ?_ ?_
      | with_reducible refine Keeps.ite3 ?_ ?_
      | with_reducible refine Keeps.ite4 ?_ ?_
      | fail_if_no_progress (with_reducible refine Keeps.upd ?_ rfl rfl rfl rfl rfl rfl rfl rfl)
      | split
      | exact le_rfl
      | rfl
      | dsimp -zeta only)

theorem State.drained_keeps {s0 : State} (s : State) (f : Nat → Bool) (hs0 : Keeps s0 s) : Keeps s0 (State.drained s f) := by
  unfold State.drained
  repeat' (first
      | (intro (x : State); refine Keeps.cut (s := s0) (x := x) ?_ ?_ <;> [(subst x); (clear_value x; intro _)])
      | intro (x : MemState)
      | intro (x : TreeState)
      | intro (x : MgmtState)
      | (intro (x : State → State); subst x)
      | (intro (x : State → _ × State); subst x)
      | (intro (x : _ → State); subst x)
      | (intro (x : _ → _ → State); subst x)
      | (intro x; clear_value x)
      | intro _
      | with_reducible assumption
      | fail_if_no_progress (with_reducible refine Keeps.upd ?_ rfl rfl rfl rfl rfl rfl rfl rfl)
      | exact le_rfl
      | rfl
      | dsimp -zeta only)

theorem State.allDrained_keeps {s0 : State} (s : State) (hs0 : Keeps s0 s) : Keeps s0 (State.allDrained s) := by
  unfold State.allDrained
  repeat' (first
      | (intro (x : State); refine Keeps.cut (s := s0) (x := x) ?_ ?_ <;> [(subst x); (clear_value x; intro _)])
      | intro (x : MemState)
      | intro (x : TreeState)
      | intro (x : MgmtState)
      | (intro (x : State → State); subst x)
      | (intro (x : State → _ × State); subst x)
      | (intro (x : _ → State); subst x)
      | (intro (x : _ → _ → State); subst x)
      | (intro x; clear_value x)
      | intro _
      | with_reducible assumption
      | fail_if_no_progress (with_reducible refine Keeps.upd ?_ rfl rfl rfl rfl rfl rfl rfl rfl)
      | exact le_rfl
      | rfl
      | dsimp -zeta only)

theorem State.drainSector_keeps {s0 : State} (s : State) (base : Nat) (hs0 : Keeps s0 s) : Keeps s0 (State.drainSector s base) := by
  unfold State.drainSector
  repeat' (first
      | (intro (x : State); refine Keeps.cut (s := s0) (x := x) ?_ ?_ <;> [(subst x); (clear_value x; intro _)])
      | intro (x : MemState)
      | intro (x : TreeState)
      | intro (x : MgmtState)
      | (intro (x : State → State); subst x)
      | (intro (x : State → _ × State); subst x)
      | (intro (x : _ → State); subst x)
      | (intro (x : _ → _ → State); subst x)
      | (intro x; clear_value x)
      | intro _
      | with_reducible assumption
      | with_reducible apply State.drained_keeps
      | with_reducible refine Keeps.ite ?_ ?_
      | with_reducible refine Keeps.ite1 ?_ ?_
      | with_reducible refine Keeps.ite2 ?_ ?_
      | with_reducible refine Keeps.ite3 ?_ ?_
      | with_reducible refine Keeps.ite4 ?_ ?_
      | fail_if_no_progress (with_reducible refine Keeps.upd ?_ rfl rfl rfl rfl rfl rfl rfl rfl)
      | split
      | exact le_rfl
      | rfl
      | dsimp -zeta only)

theorem State.putSector_keeps {s0 : State} (s : State) (e : OldSector) (hs0 : Keeps s0 s) : Keeps s0 (State.putSector s e) := by
  unfold State.putSector
  repeat' (first
      | (intro (x : State); refine Keeps.cut (s := s0) (x := x) ?_ ?_ <;> [(subst x); (clear_value x; intro _)])
      | intro (x : MemState)
      | intro (x : TreeState)
      | intro (x : MgmtState)
      | (intro (x : State → State); subst x)
      | (intro (x : State → _ × State); subst x)
      | (intro (x : _ → State); subst x)
      | (intro (x : _ → _ → State); subst x)
      | (intro x; clear_value x)
      | intro _
      | with_reducible assumption
      | with_reducible apply State.rawStore_keeps
      | with_reducible apply State.setMark_keeps
      | fail_if_no_progress (with_reducible refine Keeps.upd ?_ rfl rfl rfl rfl rfl rfl rfl rfl)
      | exact le_rfl
      | rfl
      | dsimp -zeta only)

theorem State.buffer_keeps {s0 : State} (s : State) (k : Nat) (kept : List OldSector) (olds : List OldSector) (hs0 : Keeps s0 s) : Keeps s0 (State.buffer s k kept olds) := by
  unfold State.buffer
  repeat' (first
      | (intro (x : State); refine Keeps.cut (s := s0) (x := x) ?_ ?_ <;> [(subst x); (clear_value x; intro _)])
      | intro (x : MemState)
      | intro (x : TreeState)
      | intro (x : MgmtState)
      | (intro (x : State → State); subst x)
      | (intro (x : State → _ × State); subst x)
      | (intro (x : _ → State); subst x)
      | (intro (x : _ → _ → State); subst x)
      | (intro x; clear_value x)
      | intro _
      | with_reducible assumption
      | lift_lets -underBinder
      | fail_if_no_progress (with_reducible refine Keeps.upd ?_ rfl rfl rfl rfl rfl rfl rfl rfl)
      | exact le_rfl
      | rfl
      | dsimp -zeta only)

theorem State.pinView_keeps {s0 : State} (s : State) (a : Nat) (n : Nat) (hs0 : Keeps s0 s) : Keeps s0 (State.pinView s a n).2 := by
  unfold State.pinView
  repeat' (first
      | (intro (x : State); refine Keeps.cut (s := s0) (x := x) ?_ ?_ <;> [(subst x); (clear_value x; intro _)])
      | intro (x : MemState)
      | intro (x : TreeState)
      | intro (x : MgmtState)
      | (intro (x : State → State); subst x)
      | (intro (x : State → _ × State); subst x)
      | (intro (x : _ → State); subst x)
      | (intro (x : _ → _ → State); subst x)
      | (intro x; clear_value x)
      | intro _
      | with_reducible assumption
      | with_reducible apply State.putSector_keeps
      | with_reducible apply State.free_keeps
      | lift_lets -underBinder
      | with_reducible refine Keeps.foldl _ ?_ _ _ ?_
      | with_reducible refine Keeps.foldl2 _ ?_ _ _ ?_
      | with_reducible refine Keeps.foldl3 _ ?_ _ _ ?_
      | with_reducible refine Keeps.foldl4 _ ?_ _ _ ?_
      | with_reducible refine Keeps.foldl5 _ ?_ _ _ ?_
      | with_reducible refine Keeps.ite ?_ ?_
      | with_reducible refine Keeps.ite1 ?_ ?_
      | with_reducible refine Keeps.ite2 ?_ ?_
      | with_reducible refine Keeps.ite3 ?_ ?_
      | with_reducible refine Keeps.ite4 ?_ ?_
      | (with_reducible refine Keeps.of_snd (by assumption) ?_)
      | (with_reducible refine Keeps.of_snd2 (by assumption) ?_)
      | (with_reducible refine Keeps.of_snd3 (by assumption) ?_)
      | (with_reducible refine Keeps.of_snd4 (by assumption) ?_)
      | fail_if_no_progress (with_reducible refine Keeps.upd ?_ rfl rfl rfl rfl rfl rfl rfl rfl)
      | split
      | exact le_rfl
      | rfl
      | dsimp -zeta only)

theorem State.discardBuffers_keeps {s0 : State} (s : State) (hs0 : Keeps s0 s) : Keeps s0 (State.discardBuffers s).2 := by
  unfold State.discardBuffers
  repeat' (first
      | (intro (x : State); refine Keeps.cut (s := s0) (x := x) ?_ ?_ <;> [(subst x); (clear_value x; intro _)])
      | intro (x : MemState)
      | intro (x : TreeState)
      | intro (x : MgmtState)
      | (intro (x : State → State); subst x)
      | (intro (x : State → _ × State); subst x)
      | (intro (x : _ → State); subst x)
      | (intro (x : _ → _ → State); subst x)
      | (intro x; clear_value x)
      | intro _
      | with_reducible assumption
      | with_reducible apply State.putSector_keeps
      | with_reducible apply State.allDrained_keeps
      | with_reducible apply State.free_keeps
      | lift_lets -underBinder
      | with_reducible refine Keeps.foldl _ ?_ _ _ ?_
      | with_reducible refine Keeps.foldl2 _ ?_ _ _ ?_
      | with_reducible refine Keeps.foldl3 _ ?_ _ _ ?_
      | with_reducible refine Keeps.foldl4 _ ?_ _ _ ?_
      | with_reducible refine Keeps.foldl5 _ ?_ _ _ ?_
      | with_reducible refine Keeps.ite ?_ ?_
      | with_reducible refine Keeps.ite1 ?_ ?_
      | with_reducible refine Keeps.ite2 ?_ ?_
      | with_reducible refine Keeps.ite3 ?_ ?_
      | with_reducible refine Keeps.ite4 ?_ ?_
      | (with_reducible refine Keeps.of_snd (by assumption) ?_)
      | (with_reducible refine Keeps.of_snd2 (by assumption) ?_)
      | (with_reducible refine Keeps.of_snd3 (by assumption) ?_)
      | (with_reducible refine Keeps.of_snd4 (by assumption) ?_)
      | fail_if_no_progress (with_reducible refine Keeps.upd ?_ rfl rfl rfl rfl rfl rfl rfl rfl)
      | split
      | exact le_rfl
      | rfl
      | dsimp -zeta only)

theorem State.flushBuffers_keeps {s0 : State} (s : State) (hs0 : Keeps s0 s) : Keeps s0 (State.flushBuffers s) := by
  unfold State.flushBuffers
  repeat' (first
      | (intro (x : State); refine Keeps.cut (s := s0) (x := x) ?_ ?_ <;> [(subst x); (clear_value x; intro _)])
      | intro (x : MemState)
      | intro (x : TreeState)
      | intro (x : MgmtState)
      | (intro (x : State → State); subst x)
      | (intro (x : State → _ × State); subst x)
      | (intro (x : _ → State); subst x)
      | (intro (x : _ → _ → State); subst x)
      | (intro x; clear_value x)
      | intro _
      | with_reducible assumption
      | with_reducible apply State.allDrained_keeps
      | lift_lets -underBinder
      | with_reducible refine Keeps.ite ?_ ?_
      | with_reducible refine Keeps.ite1 ?_ ?_
      | with_reducible refine Keeps.ite2 ?_ ?_
      | with_reducible refine Keeps.ite3 ?_ ?_
      | with_reducible refine Keeps.ite4 ?_ ?_
      | fail_if_no_progress (with_reducible refine Keeps.upd ?_ rfl rfl rfl rfl rfl rfl rfl rfl)
      | split
      | exact le_rfl
      | rfl
      | dsimp -zeta only)

theorem State.writeUnit_keeps {s0 : State} (s : State) (base : Nat) (off : Nat) (bs : List Byte) (poison : Bool) (hs0 : Keeps s0 s) : Keeps s0 (State.writeUnit s base off bs poison).2 := by
  unfold State.writeUnit
  repeat' (first
      | (intro (x : State); refine Keeps.cut (s := s0) (x := x) ?_ ?_ <;> [(subst x); (clear_value x; intro _)])
      | intro (x : MemState)
      | intro (x : TreeState)
      | intro (x : MgmtState)
      | (intro (x : State → State); subst x)
      | (intro (x : State → _ × State); subst x)
      | (intro (x : _ → State); subst x)
      | (intro (x : _ → _ → State); subst x)
      | (intro x; clear_value x)
      | intro _
      | with_reducible assumption
      | with_reducible apply State.drainSector_keeps
      | with_reducible apply State.touch_keeps
      | with_reducible apply State.putUnit_keeps
      | with_reducible apply State.applyFlips_keeps
      | with_reducible apply State.checkUnit_keeps
      | with_reducible apply State.rawStore_keeps
      | with_reducible apply State.setMark_keeps
      | with_reducible apply State.count_keeps
      | lift_lets -underBinder
      | with_reducible refine Keeps.ite ?_ ?_
      | with_reducible refine Keeps.ite1 ?_ ?_
      | with_reducible refine Keeps.ite2 ?_ ?_
      | with_reducible refine Keeps.ite3 ?_ ?_
      | with_reducible refine Keeps.ite4 ?_ ?_
      | (with_reducible refine Keeps.of_snd (by assumption) ?_)
      | (with_reducible refine Keeps.of_snd2 (by assumption) ?_)
      | (with_reducible refine Keeps.of_snd3 (by assumption) ?_)
      | (with_reducible refine Keeps.of_snd4 (by assumption) ?_)
      | fail_if_no_progress (with_reducible refine Keeps.upd ?_ rfl rfl rfl rfl rfl rfl rfl rfl)
      | split
      | exact le_rfl
      | rfl
      | dsimp -zeta only)

theorem State.memWrite_keeps {s0 : State} (s : State) (a : Nat) (bs : List Byte) (poison : Bool) (hs0 : Keeps s0 s) : Keeps s0 (State.memWrite s a bs poison).2 := by
  unfold State.memWrite
  repeat' (first
      | (intro (x : State); refine Keeps.cut (s := s0) (x := x) ?_ ?_ <;> [(subst x); (clear_value x; intro _)])
      | intro (x : MemState)
      | intro (x : TreeState)
      | intro (x : MgmtState)
      | (intro (x : State → State); subst x)
      | (intro (x : State → _ × State); subst x)
      | (intro (x : _ → State); subst x)
      | (intro (x : _ → _ → State); subst x)
      | (intro x; clear_value x)
      | intro _
      | with_reducible assumption
      | with_reducible apply State.writeUnit_keeps
      | lift_lets -underBinder
      | with_reducible refine Keeps.foldl _ ?_ _ _ ?_
      | with_reducible refine Keeps.foldl2 _ ?_ _ _ ?_
      | with_reducible refine Keeps.foldl3 _ ?_ _ _ ?_
      | with_reducible refine Keeps.foldl4 _ ?_ _ _ ?_
      | with_reducible refine Keeps.foldl5 _ ?_ _ _ ?_
      | (with_reducible refine Keeps.of_snd (by assumption) ?_)
      | (with_reducible refine Keeps.of_snd2 (by assumption) ?_)
      | (with_reducible refine Keeps.of_snd3 (by assumption) ?_)
      | (with_reducible refine Keeps.of_snd4 (by assumption) ?_)
      | fail_if_no_progress (with_reducible refine Keeps.upd ?_ rfl rfl rfl rfl rfl rfl rfl rfl)
      | split
      | exact le_rfl
      | rfl
      | dsimp -zeta only)

theorem State.zeroAs_keeps {s0 : State} (s : State) (opened : Nat → Bool) (a n : Nat) (h : Keeps s0 s) :
    Keeps s0 (s.zeroAs opened a n) := by
  unfold State.zeroAs
  exact Keeps.foldl _ (fun t _ ht => State.applyFlips_keeps t _ ht) _ _ (Keeps.foldl _ (fun t _ ht => State.poisonCleared_keeps t _ ht) _ _
    ((State.drained_keeps _ _ (State.touch_keeps s a n h)).mem _ (fun hm => mwf_mclear 0 a n _ hm) (fun hm => mwf_mclear 0 a n _ hm)))

theorem State.zeroRange_keeps {s0 : State} (s : State) (a n : Nat) (h : Keeps s0 s) : Keeps s0 (s.zeroRange a n) :=
  State.zeroAs_keeps _ _ _ _ h

end Sys2Proof.Machine
end

