-- ==== Sys2Proof/Laws/KeepsSlots.lean ====
section
/-! SUPPORT. What the operations of Machine/Slots.lean keep (Laws/Keeps.lean), one lemma for each. -/

namespace Sys2Proof.Machine

theorem State.tellStates_keeps {s0 : State} (was : State) (s : State) (id : Nat) (hs0 : Keeps s0 s) : Keeps s0 (State.tellStates was s id) := by
  unfold State.tellStates
  repeat' (first
      | (intro (x : State); refine Keeps.cut (s := s0) (x := x) ?_ ?_ <;> [(subst x); (clear_value x; intro _)])
      | intro (x : MemState)
      | intro (x : TreeState)
      | intro (x : MgmtState)
      | (intro (x : State → State); subst x)
      | (intro (x : State → _ × State); subst x)
      | (intro (x : _ → State); subst x)
      | (intro (x : _ → _ → State); subst x)
      | (intro x; clear_value x)
      | intro _
      | with_reducible assumption
      | with_reducible apply State.sig_keeps
      | lift_lets -underBinder
      | with_reducible refine Keeps.foldl _ ?_ _ _ ?_
      | with_reducible refine Keeps.foldl2 _ ?_ _ _ ?_
      | with_reducible refine Keeps.foldl3 _ ?_ _ _ ?_
      | with_reducible refine Keeps.foldl4 _ ?_ _ _ ?_
      | with_reducible refine Keeps.foldl5 _ ?_ _ _ ?_
      | with_reducible refine Keeps.ite ?_ ?_
      | with_reducible refine Keeps.ite1 ?_ ?_
      | with_reducible refine Keeps.ite2 ?_ ?_
      | with_reducible refine Keeps.ite3 ?_ ?_
      | with_reducible refine Keeps.ite4 ?_ ?_
      | fail_if_no_progress (with_reducible refine Keeps.upd ?_ rfl rfl rfl rfl rfl rfl rfl rfl)
      | split
      | exact le_rfl
      | rfl
      | dsimp -zeta only)

theorem State.settle_keeps {s0 : State} (s : State) (id : Nat) (k : Nat) (hs0 : Keeps s0 s) : Keeps s0 (State.settle s id k) := by
  unfold State.settle
  repeat' (first
      | (intro (x : State); refine Keeps.cut (s := s0) (x := x) ?_ ?_ <;> [(subst x); (clear_value x; intro _)])
      | intro (x : MemState)
      | intro (x : TreeState)
      | intro (x : MgmtState)
      | (intro (x : State → State); subst x)
      | (intro (x : State → _ × State); subst x)
      | (intro (x : _ → State); subst x)
      | (intro (x : _ → _ → State); subst x)
      | (intro x; clear_value x)
      | intro _
      | with_reducible assumption
      | with_reducible apply State.modUnit_keeps
      | lift_lets -underBinder
      | with_reducible refine Keeps.ite ?_ ?_
      | with_reducible refine Keeps.ite1 ?_ ?_
      | with_reducible refine Keeps.ite2 ?_ ?_
      | with_reducible refine Keeps.ite3 ?_ ?_
      | with_reducible refine Keeps.ite4 ?_ ?_
      | (with_reducible refine Keeps.of_snd (by assumption) ?_)
      | (with_reducible refine Keeps.of_snd2 (by assumption) ?_)
      | (with_reducible refine Keeps.of_snd3 (by assumption) ?_)
      | (with_reducible refine Keeps.of_snd4 (by assumption) ?_)
      | fail_if_no_progress (with_reducible refine Keeps.upd ?_ rfl rfl rfl rfl rfl rfl rfl rfl)
      | split
      | exact le_rfl
      | rfl
      | dsimp -zeta only)

theorem State.notePlanned_keeps {s0 : State} (s : State) (sl : Slot) (due : Nat) (hs0 : Keeps s0 s) : Keeps s0 (State.notePlanned s sl due) := by
  unfold State.notePlanned
  repeat' (first
      | (intro (x : State); refine Keeps.cut (s := s0) (x := x) ?_ ?_ <;> [(subst x); (clear_value x; intro _)])
      | intro (x : MemState)
      | intro (x : TreeState)
      | intro (x : MgmtState)
      | (intro (x : State → State); subst x)
      | (intro (x : State → _ × State); subst x)
      | (intro (x : _ → State); subst x)
      | (intro (x : _ → _ → State); subst x)
      | (intro x; clear_value x)
      | intro _
      | with_reducible assumption
      | fail_if_no_progress (with_reducible refine Keeps.upd ?_ rfl rfl rfl rfl rfl rfl rfl rfl)
      | exact le_rfl
      | rfl
      | dsimp -zeta only)

theorem State.plan_keeps {s0 : State} (s : State) (k : Nat) (sl : Slot) (hs0 : Keeps s0 s) : Keeps s0 (State.plan s k sl) := by
  unfold State.plan
  repeat' (first
      | (intro (x : State); refine Keeps.cut (s := s0) (x := x) ?_ ?_ <;> [(subst x); (clear_value x; intro _)])
      | intro (x : MemState)
      | intro (x : TreeState)
      | intro (x : MgmtState)
      | (intro (x : State → State); subst x)
      | (intro (x : State → _ × State); subst x)
      | (intro (x : _ → State); subst x)
      | (intro (x : _ → _ → State); subst x)
      | (intro x; clear_value x)
      | intro _
      | with_reducible assumption
      | with_reducible apply State.notePlanned_keeps
      | with_reducible apply State.event_keeps
      | with_reducible apply State.sig_keeps
      | with_reducible apply State.count_keeps
      | lift_lets -underBinder
      | with_reducible refine Keeps.ite ?_ ?_
      | with_reducible refine Keeps.ite1 ?_ ?_
      | with_reducible refine Keeps.ite2 ?_ ?_
      | with_reducible refine Keeps.ite3 ?_ ?_
      | with_reducible refine Keeps.ite4 ?_ ?_
      | (with_reducible refine Keeps.of_snd (by assumption) ?_)
      | (with_reducible refine Keeps.of_snd2 (by assumption) ?_)
      | (with_reducible refine Keeps.of_snd3 (by assumption) ?_)
      | (with_reducible refine Keeps.of_snd4 (by assumption) ?_)
      | fail_if_no_progress (with_reducible refine Keeps.upd ?_ rfl rfl rfl rfl rfl rfl rfl rfl)
      | split
      | exact le_rfl
      | rfl
      | dsimp -zeta only)

theorem State.complete_keeps {s0 : State} (s : State) (k : Nat) (st : Status) (node : Nat) (value : Nat) (hs0 : Keeps s0 s) : Keeps s0 (State.complete s k st node value) := by
  unfold State.complete
  repeat' (first
      | (intro (x : State); refine Keeps.cut (s := s0) (x := x) ?_ ?_ <;> [(subst x); (clear_value x; intro _)])
      | intro (x : MemState)
      | intro (x : TreeState)
      | intro (x : MgmtState)
      | (intro (x : State → State); subst x)
      | (intro (x : State → _ × State); subst x)
      | (intro (x : _ → State); subst x)
      | (intro (x : _ → _ → State); subst x)
      | (intro x; clear_value x)
      | intro _
      | with_reducible assumption
      | with_reducible apply State.plan_keeps
      | with_reducible apply State.settle_keeps
      | with_reducible apply State.tellStates_keeps
      | with_reducible apply State.sig_keeps
      | with_reducible apply State.putSlot_keeps
      | with_reducible apply State.modUnit_keeps
      | lift_lets -underBinder
      | with_reducible refine Keeps.ite ?_ ?_
      | with_reducible refine Keeps.ite1 ?_ ?_
      | with_reducible refine Keeps.ite2 ?_ ?_
      | with_reducible refine Keeps.ite3 ?_ ?_
      | with_reducible refine Keeps.ite4 ?_ ?_
      | (with_reducible refine Keeps.of_snd (by assumption) ?_)
      | (with_reducible refine Keeps.of_snd2 (by assumption) ?_)
      | (with_reducible refine Keeps.of_snd3 (by assumption) ?_)
      | (with_reducible refine Keeps.of_snd4 (by assumption) ?_)
      | fail_if_no_progress (with_reducible refine Keeps.upd ?_ rfl rfl rfl rfl rfl rfl rfl rfl)
      | split
      | exact le_rfl
      | rfl
      | dsimp -zeta only)

theorem State.reject_keeps {s0 : State} (s : State) (k : Nat) (st : Status) (hs0 : Keeps s0 s) : Keeps s0 (State.reject s k st) := by
  unfold State.reject
  repeat' (first
      | (intro (x : State); refine Keeps.cut (s := s0) (x := x) ?_ ?_ <;> [(subst x); (clear_value x; intro _)])
      | intro (x : MemState)
      | intro (x : TreeState)
      | intro (x : MgmtState)
      | (intro (x : State → State); subst x)
      | (intro (x : State → _ × State); subst x)
      | (intro (x : _ → State); subst x)
      | (intro (x : _ → _ → State); subst x)
      | (intro x; clear_value x)
      | intro _
      | with_reducible assumption
      | with_reducible apply State.complete_keeps
      | fail_if_no_progress (with_reducible refine Keeps.upd ?_ rfl rfl rfl rfl rfl rfl rfl rfl)
      | exact le_rfl
      | rfl
      | dsimp -zeta only)

theorem State.childrenEnd_keeps {s0 : State} (s : State) (top : Nat) (r : Report) (hs0 : Keeps s0 s) : Keeps s0 (State.childrenEnd s top r) := by
  unfold State.childrenEnd
  repeat' (first
      | (intro (x : State); refine Keeps.cut (s := s0) (x := x) ?_ ?_ <;> [(subst x); (clear_value x; intro _)])
      | intro (x : MemState)
      | intro (x : TreeState)
      | intro (x : MgmtState)
      | (intro (x : State → State); subst x)
      | (intro (x : State → _ × State); subst x)
      | (intro (x : _ → State); subst x)
      | (intro (x : _ → _ → State); subst x)
      | (intro x; clear_value x)
      | intro _
      | with_reducible assumption
      | with_reducible apply State.modUnit_keeps
      | with_reducible refine Keeps.foldl _ ?_ _ _ ?_
      | with_reducible refine Keeps.foldl2 _ ?_ _ _ ?_
      | with_reducible refine Keeps.foldl3 _ ?_ _ _ ?_
      | with_reducible refine Keeps.foldl4 _ ?_ _ _ ?_
      | with_reducible refine Keeps.foldl5 _ ?_ _ _ ?_
      | fail_if_no_progress (with_reducible refine Keeps.upd ?_ rfl rfl rfl rfl rfl rfl rfl rfl)
      | exact le_rfl
      | rfl
      | dsimp -zeta only)

theorem State.finish_keeps {s0 : State} (s : State) (k : Nat) (cls : Nat) (st : Status) (value : Nat) (hs0 : Keeps s0 s) : Keeps s0 (State.finish s k cls st value) := by
  unfold State.finish
  repeat' (first
      | (intro (x : State); refine Keeps.cut (s := s0) (x := x) ?_ ?_ <;> [(subst x); (clear_value x; intro _)])
      | intro (x : MemState)
      | intro (x : TreeState)
      | intro (x : MgmtState)
      | (intro (x : State → State); subst x)
      | (intro (x : State → _ × State); subst x)
      | (intro (x : _ → State); subst x)
      | (intro (x : _ → _ → State); subst x)
      | (intro x; clear_value x)
      | intro _
      | with_reducible assumption
      | with_reducible apply State.complete_keeps
      | with_reducible refine Keeps.ite ?_ ?_
      | with_reducible refine Keeps.ite1 ?_ ?_
      | with_reducible refine Keeps.ite2 ?_ ?_
      | with_reducible refine Keeps.ite3 ?_ ?_
      | with_reducible refine Keeps.ite4 ?_ ?_
      | (with_reducible refine Keeps.of_snd (by assumption) ?_)
      | (with_reducible refine Keeps.of_snd2 (by assumption) ?_)
      | (with_reducible refine Keeps.of_snd3 (by assumption) ?_)
      | (with_reducible refine Keeps.of_snd4 (by assumption) ?_)
      | fail_if_no_progress (with_reducible refine Keeps.upd ?_ rfl rfl rfl rfl rfl rfl rfl rfl)
      | split
      | exact le_rfl
      | rfl
      | dsimp -zeta only)

theorem State.finishReport_keeps {s0 : State} (s : State) (k : Nat) (cls : Nat) (r : Report) (value : Status → Nat) (hs0 : Keeps s0 s) : Keeps s0 (State.finishReport s k cls r value) := by
  unfold State.finishReport
  repeat' (first
      | (intro (x : State); refine Keeps.cut (s := s0) (x := x) ?_ ?_ <;> [(subst x); (clear_value x; intro _)])
      | intro (x : MemState)
      | intro (x : TreeState)
      | intro (x : MgmtState)
      | (intro (x : State → State); subst x)
      | (intro (x : State → _ × State); subst x)
      | (intro (x : _ → State); subst x)
      | (intro (x : _ → _ → State); subst x)
      | (intro x; clear_value x)
      | intro _
      | with_reducible assumption
      | with_reducible apply State.finish_keeps
      | with_reducible apply State.childrenEnd_keeps
      | with_reducible apply State.complete_keeps
      | lift_lets -underBinder
      | with_reducible refine Keeps.foldl _ ?_ _ _ ?_
      | with_reducible refine Keeps.foldl2 _ ?_ _ _ ?_
      | with_reducible refine Keeps.foldl3 _ ?_ _ _ ?_
      | with_reducible refine Keeps.foldl4 _ ?_ _ _ ?_
      | with_reducible refine Keeps.foldl5 _ ?_ _ _ ?_
      | with_reducible refine Keeps.ite ?_ ?_
      | with_reducible refine Keeps.ite1 ?_ ?_
      | with_reducible refine Keeps.ite2 ?_ ?_
      | with_reducible refine Keeps.ite3 ?_ ?_
      | with_reducible refine Keeps.ite4 ?_ ?_
      | (with_reducible refine Keeps.of_snd (by assumption) ?_)
      | (with_reducible refine Keeps.of_snd2 (by assumption) ?_)
      | (with_reducible refine Keeps.of_snd3 (by assumption) ?_)
      | (with_reducible refine Keeps.of_snd4 (by assumption) ?_)
      | fail_if_no_progress (with_reducible refine Keeps.upd ?_ rfl rfl rfl rfl rfl rfl rfl rfl)
      | split
      | exact le_rfl
      | rfl
      | dsimp -zeta only)

theorem State.freeze_keeps {s0 : State} (s : State) (k : Nat) (leaves : List Nat) (hs0 : Keeps s0 s) : Keeps s0 (State.freeze s k leaves) := by
  unfold State.freeze
  repeat' (first
      | (intro (x : State); refine Keeps.cut (s := s0) (x := x) ?_ ?_ <;> [(subst x); (clear_value x; intro _)])
      | intro (x : MemState)
      | intro (x : TreeState)
      | intro (x : MgmtState)
      | (intro (x : State → State); subst x)
      | (intro (x : State → _ × State); subst x)
      | (intro (x : _ → State); subst x)
      | (intro (x : _ → _ → State); subst x)
      | (intro x; clear_value x)
      | intro _
      | with_reducible assumption
      | with_reducible apply State.tellStates_keeps
      | with_reducible apply State.count_keeps
      | with_reducible apply State.modUnit_keeps
      | lift_lets -underBinder
      | with_reducible refine Keeps.foldl _ ?_ _ _ ?_
      | with_reducible refine Keeps.foldl2 _ ?_ _ _ ?_
      | with_reducible refine Keeps.foldl3 _ ?_ _ _ ?_
      | with_reducible refine Keeps.foldl4 _ ?_ _ _ ?_
      | with_reducible refine Keeps.foldl5 _ ?_ _ _ ?_
      | with_reducible refine Keeps.ite ?_ ?_
      | with_reducible refine Keeps.ite1 ?_ ?_
      | with_reducible refine Keeps.ite2 ?_ ?_
      | with_reducible refine Keeps.ite3 ?_ ?_
      | with_reducible refine Keeps.ite4 ?_ ?_
      | (with_reducible refine Keeps.of_snd (by assumption) ?_)
      | (with_reducible refine Keeps.of_snd2 (by assumption) ?_)
      | (with_reducible refine Keeps.of_snd3 (by assumption) ?_)
      | (with_reducible refine Keeps.of_snd4 (by assumption) ?_)
      | fail_if_no_progress (with_reducible refine Keeps.upd ?_ rfl rfl rfl rfl rfl rfl rfl rfl)
      | split
      | exact le_rfl
      | rfl
      | dsimp -zeta only)

theorem State.thaw_keeps {s0 : State} (s : State) (k : Nat) (hs0 : Keeps s0 s) : Keeps s0 (State.thaw s k) := by
  unfold State.thaw
  repeat' (first
      | (intro (x : State); refine Keeps.cut (s := s0) (x := x) ?_ ?_ <;> [(subst x); (clear_value x; intro _)])
      | intro (x : MemState)
      | intro (x : TreeState)
      | intro (x : MgmtState)
      | (intro (x : State → State); subst x)
      | (intro (x : State → _ × State); subst x)
      | (intro (x : _ → State); subst x)
      | (intro (x : _ → _ → State); subst x)
      | (intro x; clear_value x)
      | intro _
      | with_reducible assumption
      | with_reducible apply State.tellStates_keeps
      | with_reducible refine Keeps.ite ?_ ?_
      | with_reducible refine Keeps.ite1 ?_ ?_
      | with_reducible refine Keeps.ite2 ?_ ?_
      | with_reducible refine Keeps.ite3 ?_ ?_
      | with_reducible refine Keeps.ite4 ?_ ?_
      | (with_reducible refine Keeps.of_snd (by assumption) ?_)
      | (with_reducible refine Keeps.of_snd2 (by assumption) ?_)
      | (with_reducible refine Keeps.of_snd3 (by assumption) ?_)
      | (with_reducible refine Keeps.of_snd4 (by assumption) ?_)
      | fail_if_no_progress (with_reducible refine Keeps.upd ?_ rfl rfl rfl rfl rfl rfl rfl rfl)
      | split
      | exact le_rfl
      | rfl
      | dsimp -zeta only)

theorem State.idleGaps_keeps {s0 : State} (s : State) (u : Nat) (hs0 : Keeps s0 s) : Keeps s0 (State.idleGaps s u) := by
  unfold State.idleGaps
  repeat' (first
      | (intro (x : State); refine Keeps.cut (s := s0) (x := x) ?_ ?_ <;> [(subst x); (clear_value x; intro _)])
      | intro (x : MemState)
      | intro (x : TreeState)
      | intro (x : MgmtState)
      | (intro (x : State → State); subst x)
      | (intro (x : State → _ × State); subst x)
      | (intro (x : _ → State); subst x)
      | (intro (x : _ → _ → State); subst x)
      | (intro x; clear_value x)
      | intro _
      | with_reducible assumption
      | with_reducible apply State.count_keeps
      | with_reducible apply State.modUnit_keeps
      | with_reducible apply State.free_keeps
      | lift_lets -underBinder
      | with_reducible refine Keeps.ite ?_ ?_
      | with_reducible refine Keeps.ite1 ?_ ?_
      | with_reducible refine Keeps.ite2 ?_ ?_
      | with_reducible refine Keeps.ite3 ?_ ?_
      | with_reducible refine Keeps.ite4 ?_ ?_
      | (with_reducible refine Keeps.of_snd (by assumption) ?_)
      | (with_reducible refine Keeps.of_snd2 (by assumption) ?_)
      | (with_reducible refine Keeps.of_snd3 (by assumption) ?_)
      | (with_reducible refine Keeps.of_snd4 (by assumption) ?_)
      | fail_if_no_progress (with_reducible refine Keeps.upd ?_ rfl rfl rfl rfl rfl rfl rfl rfl)
      | split
      | exact le_rfl
      | rfl
      | dsimp -zeta only)

theorem State.withDesc_keeps {s0 : State} (s : State) (k : Nat) (opcodes : List Nat) (f : Slot → State → State) (hk_f : ∀ x0 t, Keeps s0 t → Keeps s0 (f x0 t)) (hs0 : Keeps s0 s) : Keeps s0 (State.withDesc s k opcodes f) := by
  unfold State.withDesc
  repeat' (first
      | (intro (x : State); refine Keeps.cut (s := s0) (x := x) ?_ ?_ <;> [(subst x); (clear_value x; intro _)])
      | intro (x : MemState)
      | intro (x : TreeState)
      | intro (x : MgmtState)
      | (intro (x : State → State); subst x)
      | (intro (x : State → _ × State); subst x)
      | (intro (x : _ → State); subst x)
      | (intro (x : _ → _ → State); subst x)
      | (intro x; clear_value x)
      | intro _
      | with_reducible assumption
      | with_reducible apply State.freeze_keeps
      | with_reducible apply hk_f
      | with_reducible refine Keeps.ite ?_ ?_
      | with_reducible refine Keeps.ite1 ?_ ?_
      | with_reducible refine Keeps.ite2 ?_ ?_
      | with_reducible refine Keeps.ite3 ?_ ?_
      | with_reducible refine Keeps.ite4 ?_ ?_
      | (with_reducible refine Keeps.of_snd (by assumption) ?_)
      | (with_reducible refine Keeps.of_snd2 (by assumption) ?_)
      | (with_reducible refine Keeps.of_snd3 (by assumption) ?_)
      | (with_reducible refine Keeps.of_snd4 (by assumption) ?_)
      | fail_if_no_progress (with_reducible refine Keeps.upd ?_ rfl rfl rfl rfl rfl rfl rfl rfl)
      | split
      | exact le_rfl
      | rfl
      | dsimp -zeta only)

end Sys2Proof.Machine
end

