-- ==== Sys2Proof/Laws/KeepsAccum.lean ====
section
/-! SUPPORT. What the operations of Machine/Accum.lean keep (Laws/Keeps.lean), one lemma for each. -/

namespace Sys2Proof.Machine

theorem State.putHalf_keeps {s0 : State} (s : State) (u : Nat) (r : Nat) (h : Nat) (v : HalfSlot) (hs0 : Keeps s0 s) : Keeps s0 (State.putHalf s u r h v) := by
  unfold State.putHalf
  repeat' (first
      | (intro (x : State); refine Keeps.cut (s := s0) (x := x) ?_ ?_ <;> [(subst x); (clear_value x; intro _)])
      | intro (x : MemState)
      | intro (x : TreeState)
      | intro (x : MgmtState)
      | (intro (x : State → State); subst x)
      | (intro (x : State → _ × State); subst x)
      | (intro (x : _ → State); subst x)
      | (intro (x : _ → _ → State); subst x)
      | (intro x; clear_value x)
      | intro _
      | with_reducible assumption
      | with_reducible apply State.modCell_keeps
      | fail_if_no_progress (with_reducible refine Keeps.upd ?_ rfl rfl rfl rfl rfl rfl rfl rfl)
      | exact le_rfl
      | rfl
      | dsimp -zeta only)

theorem State.putWord_keeps {s0 : State} (s : State) (u : Nat) (r : Nat) (j : Nat) (v : AccWord) (hs0 : Keeps s0 s) : Keeps s0 (State.putWord s u r j v) := by
  unfold State.putWord
  repeat' (first
      | (intro (x : State); refine Keeps.cut (s := s0) (x := x) ?_ ?_ <;> [(subst x); (clear_value x; intro _)])
      | intro (x : MemState)
      | intro (x : TreeState)
      | intro (x : MgmtState)
      | (intro (x : State → State); subst x)
      | (intro (x : State → _ × State); subst x)
      | (intro (x : _ → State); subst x)
      | (intro (x : _ → _ → State); subst x)
      | (intro x; clear_value x)
      | intro _
      | with_reducible assumption
      | with_reducible apply State.modCell_keeps
      | fail_if_no_progress (with_reducible refine Keeps.upd ?_ rfl rfl rfl rfl rfl rfl rfl rfl)
      | exact le_rfl
      | rfl
      | dsimp -zeta only)

theorem State.reportAccCe_keeps {s0 : State} (s : State) (u : Nat) (addr : Nat) (syn : Nat) (finder : Nat) (hs0 : Keeps s0 s) : Keeps s0 (State.reportAccCe s u addr syn finder) := by
  unfold State.reportAccCe
  repeat' (first
      | (intro (x : State); refine Keeps.cut (s := s0) (x := x) ?_ ?_ <;> [(subst x); (clear_value x; intro _)])
      | intro (x : MemState)
      | intro (x : TreeState)
      | intro (x : MgmtState)
      | (intro (x : State → State); subst x)
      | (intro (x : State → _ × State); subst x)
      | (intro (x : _ → State); subst x)
      | (intro (x : _ → _ → State); subst x)
      | (intro x; clear_value x)
      | intro _
      | with_reducible assumption
      | with_reducible apply State.modLogs_keeps
      | with_reducible apply State.count_keeps
      | lift_lets -underBinder
      | (with_reducible refine Keeps.of_snd (by assumption) ?_)
      | (with_reducible refine Keeps.of_snd2 (by assumption) ?_)
      | (with_reducible refine Keeps.of_snd3 (by assumption) ?_)
      | (with_reducible refine Keeps.of_snd4 (by assumption) ?_)
      | fail_if_no_progress (with_reducible refine Keeps.upd ?_ rfl rfl rfl rfl rfl rfl rfl rfl)
      | split
      | exact le_rfl
      | rfl
      | dsimp -zeta only)

theorem State.reportAccUe_keeps {s0 : State} (s : State) (u : Nat) (addr : Nat) (syn : Nat) (finder : Nat) (hs0 : Keeps s0 s) : Keeps s0 (State.reportAccUe s u addr syn finder) := by
  unfold State.reportAccUe
  repeat' (first
      | (intro (x : State); refine Keeps.cut (s := s0) (x := x) ?_ ?_ <;> [(subst x); (clear_value x; intro _)])
      | intro (x : MemState)
      | intro (x : TreeState)
      | intro (x : MgmtState)
      | (intro (x : State → State); subst x)
      | (intro (x : State → _ × State); subst x)
      | (intro (x : _ → State); subst x)
      | (intro (x : _ → _ → State); subst x)
      | (intro x; clear_value x)
      | intro _
      | with_reducible assumption
      | with_reducible apply State.modLogs_keeps
      | with_reducible apply State.event_keeps
      | with_reducible apply State.sig_keeps
      | with_reducible apply State.count_keeps
      | lift_lets -underBinder
      | (with_reducible refine Keeps.of_snd (by assumption) ?_)
      | (with_reducible refine Keeps.of_snd2 (by assumption) ?_)
      | (with_reducible refine Keeps.of_snd3 (by assumption) ?_)
      | (with_reducible refine Keeps.of_snd4 (by assumption) ?_)
      | fail_if_no_progress (with_reducible refine Keeps.upd ?_ rfl rfl rfl rfl rfl rfl rfl rfl)
      | split
      | exact le_rfl
      | rfl
      | dsimp -zeta only)

theorem State.checkWord_keeps {s0 : State} (s : State) (u : Nat) (r : Nat) (j : Nat) (finder : Nat) (fix : Bool) (hs0 : Keeps s0 s) : Keeps s0 (State.checkWord s u r j finder fix).2 := by
  unfold State.checkWord
  repeat' (first
      | (intro (x : State); refine Keeps.cut (s := s0) (x := x) ?_ ?_ <;> [(subst x); (clear_value x; intro _)])
      | intro (x : MemState)
      | intro (x : TreeState)
      | intro (x : MgmtState)
      | (intro (x : State → State); subst x)
      | (intro (x : State → _ × State); subst x)
      | (intro (x : _ → State); subst x)
      | (intro (x : _ → _ → State); subst x)
      | (intro x; clear_value x)
      | intro _
      | with_reducible assumption
      | with_reducible apply State.reportAccUe_keeps
      | with_reducible apply State.reportAccCe_keeps
      | with_reducible apply State.putWord_keeps
      | lift_lets -underBinder
      | with_reducible refine Keeps.ite ?_ ?_
      | with_reducible refine Keeps.ite1 ?_ ?_
      | with_reducible refine Keeps.ite2 ?_ ?_
      | with_reducible refine Keeps.ite3 ?_ ?_
      | with_reducible refine Keeps.ite4 ?_ ?_
      | (with_reducible refine Keeps.of_snd (by assumption) ?_)
      | (with_reducible refine Keeps.of_snd2 (by assumption) ?_)
      | (with_reducible refine Keeps.of_snd3 (by assumption) ?_)
      | (with_reducible refine Keeps.of_snd4 (by assumption) ?_)
      | fail_if_no_progress (with_reducible refine Keeps.upd ?_ rfl rfl rfl rfl rfl rfl rfl rfl)
      | split
      | exact le_rfl
      | rfl
      | dsimp -zeta only)

theorem State.checkHalf_keeps {s0 : State} (s : State) (u : Nat) (r : Nat) (h : Nat) (finder : Nat) (fix : Bool) (hs0 : Keeps s0 s) : Keeps s0 (State.checkHalf s u r h finder fix).2 := by
  unfold State.checkHalf
  repeat' (first
      | (intro (x : State); refine Keeps.cut (s := s0) (x := x) ?_ ?_ <;> [(subst x); (clear_value x; intro _)])
      | intro (x : MemState)
      | intro (x : TreeState)
      | intro (x : MgmtState)
      | (intro (x : State → State); subst x)
      | (intro (x : State → _ × State); subst x)
      | (intro (x : _ → State); subst x)
      | (intro (x : _ → _ → State); subst x)
      | (intro x; clear_value x)
      | intro _
      | with_reducible assumption
      | with_reducible apply State.reportAccUe_keeps
      | with_reducible apply State.reportAccCe_keeps
      | with_reducible apply State.putHalf_keeps
      | lift_lets -underBinder
      | with_reducible refine Keeps.ite ?_ ?_
      | with_reducible refine Keeps.ite1 ?_ ?_
      | with_reducible refine Keeps.ite2 ?_ ?_
      | with_reducible refine Keeps.ite3 ?_ ?_
      | with_reducible refine Keeps.ite4 ?_ ?_
      | (with_reducible refine Keeps.of_snd (by assumption) ?_)
      | (with_reducible refine Keeps.of_snd2 (by assumption) ?_)
      | (with_reducible refine Keeps.of_snd3 (by assumption) ?_)
      | (with_reducible refine Keeps.of_snd4 (by assumption) ?_)
      | fail_if_no_progress (with_reducible refine Keeps.upd ?_ rfl rfl rfl rfl rfl rfl rfl rfl)
      | split
      | exact le_rfl
      | rfl
      | dsimp -zeta only)

theorem State.readWord_keeps {s0 : State} (s : State) (u : Nat) (r : Nat) (j : Nat) (hs0 : Keeps s0 s) : Keeps s0 (State.readWord s u r j).2.2.2 := by
  unfold State.readWord
  repeat' (first
      | (intro (x : State); refine Keeps.cut (s := s0) (x := x) ?_ ?_ <;> [(subst x); (clear_value x; intro _)])
      | intro (x : MemState)
      | intro (x : TreeState)
      | intro (x : MgmtState)
      | (intro (x : State → State); subst x)
      | (intro (x : State → _ × State); subst x)
      | (intro (x : _ → State); subst x)
      | (intro (x : _ → _ → State); subst x)
      | (intro x; clear_value x)
      | intro _
      | with_reducible assumption
      | with_reducible apply State.checkHalf_keeps
      | with_reducible apply State.checkWord_keeps
      | with_reducible apply State.modLogs_keeps
      | lift_lets -underBinder
      | with_reducible refine Keeps.ite ?_ ?_
      | with_reducible refine Keeps.ite1 ?_ ?_
      | with_reducible refine Keeps.ite2 ?_ ?_
      | with_reducible refine Keeps.ite3 ?_ ?_
      | with_reducible refine Keeps.ite4 ?_ ?_
      | (with_reducible refine Keeps.of_snd (by assumption) ?_)
      | (with_reducible refine Keeps.of_snd2 (by assumption) ?_)
      | (with_reducible refine Keeps.of_snd3 (by assumption) ?_)
      | (with_reducible refine Keeps.of_snd4 (by assumption) ?_)
      | fail_if_no_progress (with_reducible refine Keeps.upd ?_ rfl rfl rfl rfl rfl rfl rfl rfl)
      | split
      | exact le_rfl
      | rfl
      | dsimp -zeta only)

theorem State.fireAcc_keeps {s0 : State} (s : State) (u : Nat) (r : Nat) (j : Nat) (hs0 : Keeps s0 s) : Keeps s0 (State.fireAcc s u r j) := by
  unfold State.fireAcc
  repeat' (first
      | (intro (x : State); refine Keeps.cut (s := s0) (x := x) ?_ ?_ <;> [(subst x); (clear_value x; intro _)])
      | intro (x : MemState)
      | intro (x : TreeState)
      | intro (x : MgmtState)
      | (intro (x : State → State); subst x)
      | (intro (x : State → _ × State); subst x)
      | (intro (x : _ → State); subst x)
      | (intro (x : _ → _ → State); subst x)
      | (intro x; clear_value x)
      | intro _
      | with_reducible assumption
      | with_reducible apply State.putWord_keeps
      | with_reducible apply State.fire_keeps
      | lift_lets -underBinder
      | with_reducible refine Keeps.foldl _ ?_ _ _ ?_
      | with_reducible refine Keeps.foldl2 _ ?_ _ _ ?_
      | with_reducible refine Keeps.foldl3 _ ?_ _ _ ?_
      | with_reducible refine Keeps.foldl4 _ ?_ _ _ ?_
      | with_reducible refine Keeps.foldl5 _ ?_ _ _ ?_
      | with_reducible refine Keeps.ite ?_ ?_
      | with_reducible refine Keeps.ite1 ?_ ?_
      | with_reducible refine Keeps.ite2 ?_ ?_
      | with_reducible refine Keeps.ite3 ?_ ?_
      | with_reducible refine Keeps.ite4 ?_ ?_
      | (with_reducible refine Keeps.of_snd (by assumption) ?_)
      | (with_reducible refine Keeps.of_snd2 (by assumption) ?_)
      | (with_reducible refine Keeps.of_snd3 (by assumption) ?_)
      | (with_reducible refine Keeps.of_snd4 (by assumption) ?_)
      | fail_if_no_progress (with_reducible refine Keeps.upd ?_ rfl rfl rfl rfl rfl rfl rfl rfl)
      | split
      | exact le_rfl
      | rfl
      | dsimp -zeta only)

theorem State.rewriteWord_keeps {s0 : State} (s : State) (u : Nat) (r : Nat) (j : Nat) (x : Int) (shift : Int) (hs0 : Keeps s0 s) : Keeps s0 (State.rewriteWord s u r j x shift) := by
  unfold State.rewriteWord
  repeat' (first
      | (intro (x : State); refine Keeps.cut (s := s0) (x := x) ?_ ?_ <;> [(subst x); (clear_value x; intro _)])
      | intro (x : MemState)
      | intro (x : TreeState)
      | intro (x : MgmtState)
      | (intro (x : State → State); subst x)
      | (intro (x : State → _ × State); subst x)
      | (intro (x : _ → State); subst x)
      | (intro (x : _ → _ → State); subst x)
      | (intro x; clear_value x)
      | intro _
      | with_reducible assumption
      | with_reducible apply State.fireAcc_keeps
      | with_reducible apply State.putWord_keeps
      | lift_lets -underBinder
      | with_reducible refine Keeps.ite ?_ ?_
      | with_reducible refine Keeps.ite1 ?_ ?_
      | with_reducible refine Keeps.ite2 ?_ ?_
      | with_reducible refine Keeps.ite3 ?_ ?_
      | with_reducible refine Keeps.ite4 ?_ ?_
      | fail_if_no_progress (with_reducible refine Keeps.upd ?_ rfl rfl rfl rfl rfl rfl rfl rfl)
      | split
      | exact le_rfl
      | rfl
      | dsimp -zeta only)

theorem State.writeWord_keeps {s0 : State} (s : State) (u : Nat) (w : Nat) (r : Nat) (j : Nat) (x : Int) (tag : Tag) (poison : Bool) (hs0 : Keeps s0 s) : Keeps s0 (State.writeWord s u w r j x tag poison) := by
  unfold State.writeWord
  repeat' (first
      | (intro (x : State); refine Keeps.cut (s := s0) (x := x) ?_ ?_ <;> [(subst x); (clear_value x; intro _)])
      | intro (x : MemState)
      | intro (x : TreeState)
      | intro (x : MgmtState)
      | (intro (x : State → State); subst x)
      | (intro (x : State → _ × State); subst x)
      | (intro (x : _ → State); subst x)
      | (intro (x : _ → _ → State); subst x)
      | (intro x; clear_value x)
      | intro _
      | with_reducible assumption
      | with_reducible apply State.fireAcc_keeps
      | with_reducible apply State.putWord_keeps
      | with_reducible apply State.modLogs_keeps
      | with_reducible apply State.count_keeps
      | lift_lets -underBinder
      | with_reducible refine Keeps.ite ?_ ?_
      | with_reducible refine Keeps.ite1 ?_ ?_
      | with_reducible refine Keeps.ite2 ?_ ?_
      | with_reducible refine Keeps.ite3 ?_ ?_
      | with_reducible refine Keeps.ite4 ?_ ?_
      | fail_if_no_progress (with_reducible refine Keeps.upd ?_ rfl rfl rfl rfl rfl rfl rfl rfl)
      | split
      | exact le_rfl
      | rfl
      | dsimp -zeta only)

theorem State.readMasked_keeps {s0 : State} (s : State) (u : Nat) (r : Nat) (masked : List Nat) (hs0 : Keeps s0 s) : Keeps s0 (State.readMasked s u r masked).2 := by
  unfold State.readMasked
  repeat' (first
      | (intro (x : State); refine Keeps.cut (s := s0) (x := x) ?_ ?_ <;> [(subst x); (clear_value x; intro _)])
      | intro (x : MemState)
      | intro (x : TreeState)
      | intro (x : MgmtState)
      | (intro (x : State → State); subst x)
      | (intro (x : State → _ × State); subst x)
      | (intro (x : _ → State); subst x)
      | (intro (x : _ → _ → State); subst x)
      | (intro x; clear_value x)
      | intro _
      | with_reducible assumption
      | with_reducible apply State.readWord_keeps
      | lift_lets -underBinder
      | with_reducible refine Keeps.foldl _ ?_ _ _ ?_
      | with_reducible refine Keeps.foldl2 _ ?_ _ _ ?_
      | with_reducible refine Keeps.foldl3 _ ?_ _ _ ?_
      | with_reducible refine Keeps.foldl4 _ ?_ _ _ ?_
      | with_reducible refine Keeps.foldl5 _ ?_ _ _ ?_
      | (with_reducible refine Keeps.of_snd (by assumption) ?_)
      | (with_reducible refine Keeps.of_snd2 (by assumption) ?_)
      | (with_reducible refine Keeps.of_snd3 (by assumption) ?_)
      | (with_reducible refine Keeps.of_snd4 (by assumption) ?_)
      | fail_if_no_progress (with_reducible refine Keeps.upd ?_ rfl rfl rfl rfl rfl rfl rfl rfl)
      | split
      | exact le_rfl
      | rfl
      | dsimp -zeta only)

theorem State.rewriteMasked_keeps {s0 : State} (s : State) (u : Nat) (r : Nat) (masked : List Nat) (old : Int) (fin : Int) (hs0 : Keeps s0 s) : Keeps s0 (State.rewriteMasked s u r masked old fin).2 := by
  unfold State.rewriteMasked
  repeat' (first
      | (intro (x : State); refine Keeps.cut (s := s0) (x := x) ?_ ?_ <;> [(subst x); (clear_value x; intro _)])
      | intro (x : MemState)
      | intro (x : TreeState)
      | intro (x : MgmtState)
      | (intro (x : State → State); subst x)
      | (intro (x : State → _ × State); subst x)
      | (intro (x : _ → State); subst x)
      | (intro (x : _ → _ → State); subst x)
      | (intro x; clear_value x)
      | intro _
      | with_reducible assumption
      | with_reducible apply State.rewriteWord_keeps
      | lift_lets -underBinder
      | with_reducible refine Keeps.foldl _ ?_ _ _ ?_
      | with_reducible refine Keeps.foldl2 _ ?_ _ _ ?_
      | with_reducible refine Keeps.foldl3 _ ?_ _ _ ?_
      | with_reducible refine Keeps.foldl4 _ ?_ _ _ ?_
      | with_reducible refine Keeps.foldl5 _ ?_ _ _ ?_
      | fail_if_no_progress (with_reducible refine Keeps.upd ?_ rfl rfl rfl rfl rfl rfl rfl rfl)
      | exact le_rfl
      | rfl
      | dsimp -zeta only)

theorem State.writeHalf_keeps {s0 : State} (s : State) (u : Nat) (who : Nat) (r : Nat) (h : Nat) (cs : List ColumnOut) (old : HalfSlot) (start : Int) (fin : Int) (keepMark : Bool) (hs0 : Keeps s0 s) : Keeps s0 (State.writeHalf s u who r h cs old start fin keepMark).2 := by
  unfold State.writeHalf
  repeat' (first
      | (intro (x : State); refine Keeps.cut (s := s0) (x := x) ?_ ?_ <;> [(subst x); (clear_value x; intro _)])
      | intro (x : MemState)
      | intro (x : TreeState)
      | intro (x : MgmtState)
      | (intro (x : State → State); subst x)
      | (intro (x : State → _ × State); subst x)
      | (intro (x : _ → State); subst x)
      | (intro (x : _ → _ → State); subst x)
      | (intro x; clear_value x)
      | intro _
      | with_reducible assumption
      | with_reducible apply State.rewriteMasked_keeps
      | with_reducible apply State.writeWord_keeps
      | with_reducible apply State.putHalf_keeps
      | with_reducible apply State.count_keeps
      | lift_lets -underBinder
      | with_reducible refine Keeps.foldl _ ?_ _ _ ?_
      | with_reducible refine Keeps.foldl2 _ ?_ _ _ ?_
      | with_reducible refine Keeps.foldl3 _ ?_ _ _ ?_
      | with_reducible refine Keeps.foldl4 _ ?_ _ _ ?_
      | with_reducible refine Keeps.foldl5 _ ?_ _ _ ?_
      | with_reducible refine Keeps.ite ?_ ?_
      | with_reducible refine Keeps.ite1 ?_ ?_
      | with_reducible refine Keeps.ite2 ?_ ?_
      | with_reducible refine Keeps.ite3 ?_ ?_
      | with_reducible refine Keeps.ite4 ?_ ?_
      | (with_reducible refine Keeps.of_snd (by assumption) ?_)
      | (with_reducible refine Keeps.of_snd2 (by assumption) ?_)
      | (with_reducible refine Keeps.of_snd3 (by assumption) ?_)
      | (with_reducible refine Keeps.of_snd4 (by assumption) ?_)
      | fail_if_no_progress (with_reducible refine Keeps.upd ?_ rfl rfl rfl rfl rfl rfl rfl rfl)
      | split
      | exact le_rfl
      | rfl
      | dsimp -zeta only)

theorem State.readSlot_keeps {s0 : State} (s : State) (u : Nat) (r : Nat) (h : Nat) (cols : List Nat) (base : Int) (add : Bool) (hs0 : Keeps s0 s) : Keeps s0 (State.readSlot s u r h cols base add).2 := by
  unfold State.readSlot
  repeat' (first
      | (intro (x : State); refine Keeps.cut (s := s0) (x := x) ?_ ?_ <;> [(subst x); (clear_value x; intro _)])
      | intro (x : MemState)
      | intro (x : TreeState)
      | intro (x : MgmtState)
      | (intro (x : State → State); subst x)
      | (intro (x : State → _ × State); subst x)
      | (intro (x : _ → State); subst x)
      | (intro (x : _ → _ → State); subst x)
      | (intro x; clear_value x)
      | intro _
      | with_reducible assumption
      | with_reducible apply State.readMasked_keeps
      | with_reducible apply State.checkHalf_keeps
      | lift_lets -underBinder
      | with_reducible refine Keeps.ite ?_ ?_
      | with_reducible refine Keeps.ite1 ?_ ?_
      | with_reducible refine Keeps.ite2 ?_ ?_
      | with_reducible refine Keeps.ite3 ?_ ?_
      | with_reducible refine Keeps.ite4 ?_ ?_
      | (with_reducible refine Keeps.of_snd (by assumption) ?_)
      | (with_reducible refine Keeps.of_snd2 (by assumption) ?_)
      | (with_reducible refine Keeps.of_snd3 (by assumption) ?_)
      | (with_reducible refine Keeps.of_snd4 (by assumption) ?_)
      | fail_if_no_progress (with_reducible refine Keeps.upd ?_ rfl rfl rfl rfl rfl rfl rfl rfl)
      | split
      | exact le_rfl
      | rfl
      | dsimp -zeta only)

theorem State.addRow_keeps {s0 : State} (s : State) (u : Nat) (who : Nat) (r : Nat) (ins : List (Nat × ColumnIn × Bool)) (base : Int) (add : Bool) (error : Nat → Nat → Rat) (entry : Nat → Bool) (hs0 : Keeps s0 s) : Keeps s0 (State.addRow s u who r ins base add error entry).2 := by
  unfold State.addRow
  repeat' (first
      | (intro (x : State); refine Keeps.cut (s := s0) (x := x) ?_ ?_ <;> [(subst x); (clear_value x; intro _)])
      | intro (x : MemState)
      | intro (x : TreeState)
      | intro (x : MgmtState)
      | (intro (x : State → State); subst x)
      | (intro (x : State → _ × State); subst x)
      | (intro (x : _ → State); subst x)
      | (intro (x : _ → _ → State); subst x)
      | (intro x; clear_value x)
      | intro _
      | with_reducible assumption
      | with_reducible apply State.readSlot_keeps
      | with_reducible apply State.writeHalf_keeps
      | with_reducible apply State.readMasked_keeps
      | with_reducible apply State.readWord_keeps
      | with_reducible apply State.count_keeps
      | lift_lets -underBinder
      | with_reducible refine Keeps.foldl _ ?_ _ _ ?_
      | with_reducible refine Keeps.foldl2 _ ?_ _ _ ?_
      | with_reducible refine Keeps.foldl3 _ ?_ _ _ ?_
      | with_reducible refine Keeps.foldl4 _ ?_ _ _ ?_
      | with_reducible refine Keeps.foldl5 _ ?_ _ _ ?_
      | with_reducible refine Keeps.ite ?_ ?_
      | with_reducible refine Keeps.ite1 ?_ ?_
      | with_reducible refine Keeps.ite2 ?_ ?_
      | with_reducible refine Keeps.ite3 ?_ ?_
      | with_reducible refine Keeps.ite4 ?_ ?_
      | (with_reducible refine Keeps.of_snd (by assumption) ?_)
      | (with_reducible refine Keeps.of_snd2 (by assumption) ?_)
      | (with_reducible refine Keeps.of_snd3 (by assumption) ?_)
      | (with_reducible refine Keeps.of_snd4 (by assumption) ?_)
      | fail_if_no_progress (with_reducible refine Keeps.upd ?_ rfl rfl rfl rfl rfl rfl rfl rfl)
      | split
      | exact le_rfl
      | rfl
      | dsimp -zeta only)

theorem State.accReadRecord_keeps {s0 : State} (s : State) (addr : Nat) (hs0 : Keeps s0 s) : Keeps s0 (State.accReadRecord s addr).2.2 := by
  unfold State.accReadRecord
  repeat' (first
      | (intro (x : State); refine Keeps.cut (s := s0) (x := x) ?_ ?_ <;> [(subst x); (clear_value x; intro _)])
      | intro (x : MemState)
      | intro (x : TreeState)
      | intro (x : MgmtState)
      | (intro (x : State → State); subst x)
      | (intro (x : State → _ × State); subst x)
      | (intro (x : _ → State); subst x)
      | (intro (x : _ → _ → State); subst x)
      | (intro x; clear_value x)
      | intro _
      | with_reducible assumption
      | with_reducible apply State.readWord_keeps
      | lift_lets -underBinder
      | with_reducible refine Keeps.ite ?_ ?_
      | with_reducible refine Keeps.ite1 ?_ ?_
      | with_reducible refine Keeps.ite2 ?_ ?_
      | with_reducible refine Keeps.ite3 ?_ ?_
      | with_reducible refine Keeps.ite4 ?_ ?_
      | (with_reducible refine Keeps.of_snd (by assumption) ?_)
      | (with_reducible refine Keeps.of_snd2 (by assumption) ?_)
      | (with_reducible refine Keeps.of_snd3 (by assumption) ?_)
      | (with_reducible refine Keeps.of_snd4 (by assumption) ?_)
      | fail_if_no_progress (with_reducible refine Keeps.upd ?_ rfl rfl rfl rfl rfl rfl rfl rfl)
      | split
      | exact le_rfl
      | rfl
      | dsimp -zeta only)

theorem State.accRead_keeps {s0 : State} (s : State) (a : Nat) (n : Nat) (hs0 : Keeps s0 s) : Keeps s0 (State.accRead s a n).2.2 := by
  unfold State.accRead
  repeat' (first
      | (intro (x : State); refine Keeps.cut (s := s0) (x := x) ?_ ?_ <;> [(subst x); (clear_value x; intro _)])
      | intro (x : MemState)
      | intro (x : TreeState)
      | intro (x : MgmtState)
      | (intro (x : State → State); subst x)
      | (intro (x : State → _ × State); subst x)
      | (intro (x : _ → State); subst x)
      | (intro (x : _ → _ → State); subst x)
      | (intro x; clear_value x)
      | intro _
      | with_reducible assumption
      | with_reducible apply State.accReadRecord_keeps
      | lift_lets -underBinder
      | with_reducible refine Keeps.foldl _ ?_ _ _ ?_
      | with_reducible refine Keeps.foldl2 _ ?_ _ _ ?_
      | with_reducible refine Keeps.foldl3 _ ?_ _ _ ?_
      | with_reducible refine Keeps.foldl4 _ ?_ _ _ ?_
      | with_reducible refine Keeps.foldl5 _ ?_ _ _ ?_
      | (with_reducible refine Keeps.of_snd (by assumption) ?_)
      | (with_reducible refine Keeps.of_snd2 (by assumption) ?_)
      | (with_reducible refine Keeps.of_snd3 (by assumption) ?_)
      | (with_reducible refine Keeps.of_snd4 (by assumption) ?_)
      | fail_if_no_progress (with_reducible refine Keeps.upd ?_ rfl rfl rfl rfl rfl rfl rfl rfl)
      | split
      | exact le_rfl
      | rfl
      | dsimp -zeta only)

theorem State.accWriteHalf_keeps {s0 : State} (s : State) (u : Nat) (r : Nat) (h : Nat) (recs : List (Nat × Partial × Bool)) (hs0 : Keeps s0 s) : Keeps s0 (State.accWriteHalf s u r h recs) := by
  unfold State.accWriteHalf
  repeat' (first
      | (intro (x : State); refine Keeps.cut (s := s0) (x := x) ?_ ?_ <;> [(subst x); (clear_value x; intro _)])
      | intro (x : MemState)
      | intro (x : TreeState)
      | intro (x : MgmtState)
      | (intro (x : State → State); subst x)
      | (intro (x : State → _ × State); subst x)
      | (intro (x : _ → State); subst x)
      | (intro (x : _ → _ → State); subst x)
      | (intro x; clear_value x)
      | intro _
      | with_reducible assumption
      | with_reducible apply State.writeWord_keeps
      | with_reducible apply State.putHalf_keeps
      | with_reducible apply State.count_keeps
      | lift_lets -underBinder
      | with_reducible refine Keeps.foldl _ ?_ _ _ ?_
      | with_reducible refine Keeps.foldl2 _ ?_ _ _ ?_
      | with_reducible refine Keeps.foldl3 _ ?_ _ _ ?_
      | with_reducible refine Keeps.foldl4 _ ?_ _ _ ?_
      | with_reducible refine Keeps.foldl5 _ ?_ _ _ ?_
      | with_reducible refine Keeps.ite ?_ ?_
      | with_reducible refine Keeps.ite1 ?_ ?_
      | with_reducible refine Keeps.ite2 ?_ ?_
      | with_reducible refine Keeps.ite3 ?_ ?_
      | with_reducible refine Keeps.ite4 ?_ ?_
      | (with_reducible refine Keeps.of_snd (by assumption) ?_)
      | (with_reducible refine Keeps.of_snd2 (by assumption) ?_)
      | (with_reducible refine Keeps.of_snd3 (by assumption) ?_)
      | (with_reducible refine Keeps.of_snd4 (by assumption) ?_)
      | fail_if_no_progress (with_reducible refine Keeps.upd ?_ rfl rfl rfl rfl rfl rfl rfl rfl)
      | split
      | exact le_rfl
      | rfl
      | dsimp -zeta only)

theorem State.accWrite_keeps {s0 : State} (s : State) (a : Nat) (bs : List Byte) (poison : Nat → Bool) (hs0 : Keeps s0 s) : Keeps s0 (State.accWrite s a bs poison).2 := by
  unfold State.accWrite
  repeat' (first
      | (intro (x : State); refine Keeps.cut (s := s0) (x := x) ?_ ?_ <;> [(subst x); (clear_value x; intro _)])
      | intro (x : MemState)
      | intro (x : TreeState)
      | intro (x : MgmtState)
      | (intro (x : State → State); subst x)
      | (intro (x : State → _ × State); subst x)
      | (intro (x : _ → State); subst x)
      | (intro (x : _ → _ → State); subst x)
      | (intro x; clear_value x)
      | intro _
      | with_reducible assumption
      | with_reducible apply State.accWriteHalf_keeps
      | lift_lets -underBinder
      | with_reducible refine Keeps.foldl _ ?_ _ _ ?_
      | with_reducible refine Keeps.foldl2 _ ?_ _ _ ?_
      | with_reducible refine Keeps.foldl3 _ ?_ _ _ ?_
      | with_reducible refine Keeps.foldl4 _ ?_ _ _ ?_
      | with_reducible refine Keeps.foldl5 _ ?_ _ _ ?_
      | fail_if_no_progress (with_reducible refine Keeps.upd ?_ rfl rfl rfl rfl rfl rfl rfl rfl)
      | exact le_rfl
      | rfl
      | dsimp -zeta only)

end Sys2Proof.Machine
end

