-- ==== Sys2Proof/Laws/KeepsOperands.lean ====
section
/-! SUPPORT. What the operations of Machine/Operands.lean keep (Laws/Keeps.lean), one lemma for each. -/

namespace Sys2Proof.Machine

theorem State.memWriteP_keeps {s0 : State} (s : State) (a : Nat) (bs : List Byte) (ps : List Bool) (hs0 : Keeps s0 s) : Keeps s0 (State.memWriteP s a bs ps).2 := by
  unfold State.memWriteP
  repeat' (first
      | (intro (x : State); refine Keeps.cut (s := s0) (x := x) ?_ ?_ <;> [(subst x); (clear_value x; intro _)])
      | intro (x : MemState)
      | intro (x : TreeState)
      | intro (x : MgmtState)
      | (intro (x : State → State); subst x)
      | (intro (x : State → _ × State); subst x)
      | (intro (x : _ → State); subst x)
      | (intro (x : _ → _ → State); subst x)
      | (intro x; clear_value x)
      | intro _
      | with_reducible assumption
      | with_reducible apply State.writeUnit_keeps
      | lift_lets -underBinder
      | with_reducible refine Keeps.foldl _ ?_ _ _ ?_
      | with_reducible refine Keeps.foldl2 _ ?_ _ _ ?_
      | with_reducible refine Keeps.foldl3 _ ?_ _ _ ?_
      | with_reducible refine Keeps.foldl4 _ ?_ _ _ ?_
      | with_reducible refine Keeps.foldl5 _ ?_ _ _ ?_
      | (with_reducible refine Keeps.of_snd (by assumption) ?_)
      | (with_reducible refine Keeps.of_snd2 (by assumption) ?_)
      | (with_reducible refine Keeps.of_snd3 (by assumption) ?_)
      | (with_reducible refine Keeps.of_snd4 (by assumption) ?_)
      | fail_if_no_progress (with_reducible refine Keeps.upd ?_ rfl rfl rfl rfl rfl rfl rfl rfl)
      | split
      | exact le_rfl
      | rfl
      | dsimp -zeta only)

theorem State.readElem_keeps {s0 : State} (s : State) (f : Fmt) (a : Nat) (hs0 : Keeps s0 s) : Keeps s0 (State.readElem s f a).2.2 := by
  unfold State.readElem
  repeat' (first
      | (intro (x : State); refine Keeps.cut (s := s0) (x := x) ?_ ?_ <;> [(subst x); (clear_value x; intro _)])
      | intro (x : MemState)
      | intro (x : TreeState)
      | intro (x : MgmtState)
      | (intro (x : State → State); subst x)
      | (intro (x : State → _ × State); subst x)
      | (intro (x : _ → State); subst x)
      | (intro (x : _ → _ → State); subst x)
      | (intro x; clear_value x)
      | intro _
      | with_reducible assumption
      | with_reducible apply State.memRead_keeps
      | lift_lets -underBinder
      | (with_reducible refine Keeps.of_snd (by assumption) ?_)
      | (with_reducible refine Keeps.of_snd2 (by assumption) ?_)
      | (with_reducible refine Keeps.of_snd3 (by assumption) ?_)
      | (with_reducible refine Keeps.of_snd4 (by assumption) ?_)
      | fail_if_no_progress (with_reducible refine Keeps.upd ?_ rfl rfl rfl rfl rfl rfl rfl rfl)
      | split
      | exact le_rfl
      | rfl
      | dsimp -zeta only)

theorem State.readElems_keeps {s0 : State} (s : State) (f : Fmt) (a : Nat) (n : Nat) (hs0 : Keeps s0 s) : Keeps s0 (State.readElems s f a n).2 := by
  unfold State.readElems
  repeat' (first
      | (intro (x : State); refine Keeps.cut (s := s0) (x := x) ?_ ?_ <;> [(subst x); (clear_value x; intro _)])
      | intro (x : MemState)
      | intro (x : TreeState)
      | intro (x : MgmtState)
      | (intro (x : State → State); subst x)
      | (intro (x : State → _ × State); subst x)
      | (intro (x : _ → State); subst x)
      | (intro (x : _ → _ → State); subst x)
      | (intro x; clear_value x)
      | intro _
      | with_reducible assumption
      | with_reducible apply State.readElem_keeps
      | lift_lets -underBinder
      | with_reducible refine Keeps.foldl _ ?_ _ _ ?_
      | with_reducible refine Keeps.foldl2 _ ?_ _ _ ?_
      | with_reducible refine Keeps.foldl3 _ ?_ _ _ ?_
      | with_reducible refine Keeps.foldl4 _ ?_ _ _ ?_
      | with_reducible refine Keeps.foldl5 _ ?_ _ _ ?_
      | (with_reducible refine Keeps.of_snd (by assumption) ?_)
      | (with_reducible refine Keeps.of_snd2 (by assumption) ?_)
      | (with_reducible refine Keeps.of_snd3 (by assumption) ?_)
      | (with_reducible refine Keeps.of_snd4 (by assumption) ?_)
      | fail_if_no_progress (with_reducible refine Keeps.upd ?_ rfl rfl rfl rfl rfl rfl rfl rfl)
      | split
      | exact le_rfl
      | rfl
      | dsimp -zeta only)

theorem State.blockFmt_keeps {s0 : State} (s : State) (t : Tref) (fixed : Fmt) (row : Nat) (col : Nat) (hs0 : Keeps s0 s) : Keeps s0 (State.blockFmt s t fixed row col).2.2 := by
  unfold State.blockFmt
  repeat' (first
      | (intro (x : State); refine Keeps.cut (s := s0) (x := x) ?_ ?_ <;> [(subst x); (clear_value x; intro _)])
      | intro (x : MemState)
      | intro (x : TreeState)
      | intro (x : MgmtState)
      | (intro (x : State → State); subst x)
      | (intro (x : State → _ × State); subst x)
      | (intro (x : _ → State); subst x)
      | (intro (x : _ → _ → State); subst x)
      | (intro x; clear_value x)
      | intro _
      | with_reducible assumption
      | with_reducible apply State.memRead_keeps
      | with_reducible apply State.clamp_keeps
      | lift_lets -underBinder
      | with_reducible refine Keeps.ite ?_ ?_
      | with_reducible refine Keeps.ite1 ?_ ?_
      | with_reducible refine Keeps.ite2 ?_ ?_
      | with_reducible refine Keeps.ite3 ?_ ?_
      | with_reducible refine Keeps.ite4 ?_ ?_
      | (with_reducible refine Keeps.of_snd (by assumption) ?_)
      | (with_reducible refine Keeps.of_snd2 (by assumption) ?_)
      | (with_reducible refine Keeps.of_snd3 (by assumption) ?_)
      | (with_reducible refine Keeps.of_snd4 (by assumption) ?_)
      | fail_if_no_progress (with_reducible refine Keeps.upd ?_ rfl rfl rfl rfl rfl rfl rfl rfl)
      | split
      | exact le_rfl
      | rfl
      | dsimp -zeta only)

theorem State.blockFmts_keeps {s0 : State} (s : State) (t : Tref) (fixed : Fmt) (blocks : List (Nat × Nat)) (hs0 : Keeps s0 s) : Keeps s0 (State.blockFmts s t fixed blocks).2 := by
  unfold State.blockFmts
  repeat' (first
      | (intro (x : State); refine Keeps.cut (s := s0) (x := x) ?_ ?_ <;> [(subst x); (clear_value x; intro _)])
      | intro (x : MemState)
      | intro (x : TreeState)
      | intro (x : MgmtState)
      | (intro (x : State → State); subst x)
      | (intro (x : State → _ × State); subst x)
      | (intro (x : _ → State); subst x)
      | (intro (x : _ → _ → State); subst x)
      | (intro x; clear_value x)
      | intro _
      | with_reducible assumption
      | with_reducible apply State.blockFmt_keeps
      | lift_lets -underBinder
      | with_reducible refine Keeps.foldl _ ?_ _ _ ?_
      | with_reducible refine Keeps.foldl2 _ ?_ _ _ ?_
      | with_reducible refine Keeps.foldl3 _ ?_ _ _ ?_
      | with_reducible refine Keeps.foldl4 _ ?_ _ _ ?_
      | with_reducible refine Keeps.foldl5 _ ?_ _ _ ?_
      | with_reducible refine Keeps.ite ?_ ?_
      | with_reducible refine Keeps.ite1 ?_ ?_
      | with_reducible refine Keeps.ite2 ?_ ?_
      | with_reducible refine Keeps.ite3 ?_ ?_
      | with_reducible refine Keeps.ite4 ?_ ?_
      | (with_reducible refine Keeps.of_snd (by assumption) ?_)
      | (with_reducible refine Keeps.of_snd2 (by assumption) ?_)
      | (with_reducible refine Keeps.of_snd3 (by assumption) ?_)
      | (with_reducible refine Keeps.of_snd4 (by assumption) ?_)
      | fail_if_no_progress (with_reducible refine Keeps.upd ?_ rfl rfl rfl rfl rfl rfl rfl rfl)
      | split
      | exact le_rfl
      | rfl
      | dsimp -zeta only)

theorem State.nanRow_keeps {s0 : State} (s : State) (t : Tref) (row : Nat) (u : Nat) (hs0 : Keeps s0 s) : Keeps s0 (State.nanRow s t row u).2.2 := by
  unfold State.nanRow
  repeat' (first
      | (intro (x : State); refine Keeps.cut (s := s0) (x := x) ?_ ?_ <;> [(subst x); (clear_value x; intro _)])
      | intro (x : MemState)
      | intro (x : TreeState)
      | intro (x : MgmtState)
      | (intro (x : State → State); subst x)
      | (intro (x : State → _ × State); subst x)
      | (intro (x : _ → State); subst x)
      | (intro (x : _ → _ → State); subst x)
      | (intro x; clear_value x)
      | intro _
      | with_reducible assumption
      | with_reducible apply State.memRead_keeps
      | with_reducible apply State.count_keeps
      | lift_lets -underBinder
      | (with_reducible refine Keeps.of_snd (by assumption) ?_)
      | (with_reducible refine Keeps.of_snd2 (by assumption) ?_)
      | (with_reducible refine Keeps.of_snd3 (by assumption) ?_)
      | (with_reducible refine Keeps.of_snd4 (by assumption) ?_)
      | fail_if_no_progress (with_reducible refine Keeps.upd ?_ rfl rfl rfl rfl rfl rfl rfl rfl)
      | split
      | exact le_rfl
      | rfl
      | dsimp -zeta only)

theorem State.fetchSlice_keeps {s0 : State} (s : State) (t : Tref) (f : Fmt) (row : Nat) (col : Nat) (n : Nat) (limit : Nat) (u : Nat) (nan : Bool) (hs0 : Keeps s0 s) : Keeps s0 (State.fetchSlice s t f row col n limit u nan).2.2.2 := by
  unfold State.fetchSlice
  repeat' (first
      | (intro (x : State); refine Keeps.cut (s := s0) (x := x) ?_ ?_ <;> [(subst x); (clear_value x; intro _)])
      | intro (x : MemState)
      | intro (x : TreeState)
      | intro (x : MgmtState)
      | (intro (x : State → State); subst x)
      | (intro (x : State → _ × State); subst x)
      | (intro (x : _ → State); subst x)
      | (intro (x : _ → _ → State); subst x)
      | (intro x; clear_value x)
      | intro _
      | with_reducible assumption
      | with_reducible apply State.memRead_keeps
      | with_reducible apply State.count_keeps
      | lift_lets -underBinder
      | with_reducible refine Keeps.ite ?_ ?_
      | with_reducible refine Keeps.ite1 ?_ ?_
      | with_reducible refine Keeps.ite2 ?_ ?_
      | with_reducible refine Keeps.ite3 ?_ ?_
      | with_reducible refine Keeps.ite4 ?_ ?_
      | (with_reducible refine Keeps.of_snd (by assumption) ?_)
      | (with_reducible refine Keeps.of_snd2 (by assumption) ?_)
      | (with_reducible refine Keeps.of_snd3 (by assumption) ?_)
      | (with_reducible refine Keeps.of_snd4 (by assumption) ?_)
      | fail_if_no_progress (with_reducible refine Keeps.upd ?_ rfl rfl rfl rfl rfl rfl rfl rfl)
      | split
      | exact le_rfl
      | rfl
      | dsimp -zeta only)

theorem State.readLocal_keeps {s0 : State} (s : State) (a : Nat) (n : Nat) (hs0 : Keeps s0 s) : Keeps s0 (State.readLocal s a n).2.2 := by
  unfold State.readLocal
  repeat' (first
      | (intro (x : State); refine Keeps.cut (s := s0) (x := x) ?_ ?_ <;> [(subst x); (clear_value x; intro _)])
      | intro (x : MemState)
      | intro (x : TreeState)
      | intro (x : MgmtState)
      | (intro (x : State → State); subst x)
      | (intro (x : State → _ × State); subst x)
      | (intro (x : _ → State); subst x)
      | (intro (x : _ → _ → State); subst x)
      | (intro x; clear_value x)
      | intro _
      | with_reducible assumption
      | with_reducible apply State.accRead_keeps
      | with_reducible apply State.pinView_keeps
      | with_reducible apply State.putSector_keeps
      | with_reducible apply State.memRead_keeps
      | lift_lets -underBinder
      | with_reducible refine Keeps.foldl _ ?_ _ _ ?_
      | with_reducible refine Keeps.foldl2 _ ?_ _ _ ?_
      | with_reducible refine Keeps.foldl3 _ ?_ _ _ ?_
      | with_reducible refine Keeps.foldl4 _ ?_ _ _ ?_
      | with_reducible refine Keeps.foldl5 _ ?_ _ _ ?_
      | with_reducible refine Keeps.ite ?_ ?_
      | with_reducible refine Keeps.ite1 ?_ ?_
      | with_reducible refine Keeps.ite2 ?_ ?_
      | with_reducible refine Keeps.ite3 ?_ ?_
      | with_reducible refine Keeps.ite4 ?_ ?_
      | (with_reducible refine Keeps.of_snd (by assumption) ?_)
      | (with_reducible refine Keeps.of_snd2 (by assumption) ?_)
      | (with_reducible refine Keeps.of_snd3 (by assumption) ?_)
      | (with_reducible refine Keeps.of_snd4 (by assumption) ?_)
      | fail_if_no_progress (with_reducible refine Keeps.upd ?_ rfl rfl rfl rfl rfl rfl rfl rfl)
      | split
      | exact le_rfl
      | rfl
      | dsimp -zeta only)

theorem State.writeLocal_keeps {s0 : State} (s : State) (a : Nat) (bs : List Byte) (ps : List Bool) (hs0 : Keeps s0 s) : Keeps s0 (State.writeLocal s a bs ps).2.2 := by
  unfold State.writeLocal
  repeat' (first
      | (intro (x : State); refine Keeps.cut (s := s0) (x := x) ?_ ?_ <;> [(subst x); (clear_value x; intro _)])
      | intro (x : MemState)
      | intro (x : TreeState)
      | intro (x : MgmtState)
      | (intro (x : State → State); subst x)
      | (intro (x : State → _ × State); subst x)
      | (intro (x : _ → State); subst x)
      | (intro (x : _ → _ → State); subst x)
      | (intro x; clear_value x)
      | intro _
      | with_reducible assumption
      | with_reducible apply State.memWriteP_keeps
      | with_reducible apply State.accWrite_keeps
      | lift_lets -underBinder
      | with_reducible refine Keeps.ite ?_ ?_
      | with_reducible refine Keeps.ite1 ?_ ?_
      | with_reducible refine Keeps.ite2 ?_ ?_
      | with_reducible refine Keeps.ite3 ?_ ?_
      | with_reducible refine Keeps.ite4 ?_ ?_
      | (with_reducible refine Keeps.of_snd (by assumption) ?_)
      | (with_reducible refine Keeps.of_snd2 (by assumption) ?_)
      | (with_reducible refine Keeps.of_snd3 (by assumption) ?_)
      | (with_reducible refine Keeps.of_snd4 (by assumption) ?_)
      | fail_if_no_progress (with_reducible refine Keeps.upd ?_ rfl rfl rfl rfl rfl rfl rfl rfl)
      | split
      | exact le_rfl
      | rfl
      | dsimp -zeta only)

end Sys2Proof.Machine
end

