-- ==== Sys2Proof/Laws/KeepsFlags.lean ====
section
/-! SUPPORT. What the operations of Machine/Flags.lean keep (Laws/Keeps.lean), one lemma for each. -/

namespace Sys2Proof.Machine

theorem State.countFindings_keeps {s0 : State} (s : State) (u : Nat) (f : Findings) (hs0 : Keeps s0 s) : Keeps s0 (State.countFindings s u f) := by
  unfold State.countFindings
  repeat' (first
      | (intro (x : State); refine Keeps.cut (s := s0) (x := x) ?_ ?_ <;> [(subst x); (clear_value x; intro _)])
      | intro (x : MemState)
      | intro (x : TreeState)
      | intro (x : MgmtState)
      | (intro (x : State → State); subst x)
      | (intro (x : State → _ × State); subst x)
      | (intro (x : _ → State); subst x)
      | (intro (x : _ → _ → State); subst x)
      | (intro x; clear_value x)
      | intro _
      | with_reducible assumption
      | with_reducible apply State.count_keeps
      | fail_if_no_progress (with_reducible refine Keeps.upd ?_ rfl rfl rfl rfl rfl rfl rfl rfl)
      | exact le_rfl
      | rfl
      | dsimp -zeta only)

theorem State.orRowFlags_keeps {s0 : State} (s : State) (a : Nat) (f : Findings) (hs0 : Keeps s0 s) : Keeps s0 (State.orRowFlags s a f) := by
  unfold State.orRowFlags
  repeat' (first
      | (intro (x : State); refine Keeps.cut (s := s0) (x := x) ?_ ?_ <;> [(subst x); (clear_value x; intro _)])
      | intro (x : MemState)
      | intro (x : TreeState)
      | intro (x : MgmtState)
      | (intro (x : State → State); subst x)
      | (intro (x : State → _ × State); subst x)
      | (intro (x : _ → State); subst x)
      | (intro (x : _ → _ → State); subst x)
      | (intro x; clear_value x)
      | intro _
      | with_reducible assumption
      | with_reducible apply State.memWrite_keeps
      | with_reducible refine Keeps.ite ?_ ?_
      | with_reducible refine Keeps.ite1 ?_ ?_
      | with_reducible refine Keeps.ite2 ?_ ?_
      | with_reducible refine Keeps.ite3 ?_ ?_
      | with_reducible refine Keeps.ite4 ?_ ?_
      | fail_if_no_progress (with_reducible refine Keeps.upd ?_ rfl rfl rfl rfl rfl rfl rfl rfl)
      | split
      | exact le_rfl
      | rfl
      | dsimp -zeta only)

theorem PieceDone.add_keeps {s0 : State} (acc : PieceDone × State) (f : State → PieceDone × State)
    (hf : ∀ t, Keeps s0 t → Keeps s0 (f t).2) (h : Keeps s0 acc.2) : Keeps s0 (PieceDone.add acc f).2 := hf _ h

theorem State.runPieces_keeps {s0 : State} (s : State) (k : Nat) (cls : Nat) (kind : NodeKind) (sl : Slot) (n : Nat) (f : Nat → Nat → Nat → State → PieceDone × State) (hk_f : ∀ x0 x1 x2 t, Keeps s0 t → Keeps s0 (f x0 x1 x2 t).2) (hs0 : Keeps s0 s) : Keeps s0 (State.runPieces s k cls kind sl n f) := by
  unfold State.runPieces
  repeat' (first
      | (intro (x : State); refine Keeps.cut (s := s0) (x := x) ?_ ?_ <;> [(subst x); (clear_value x; intro _)])
      | intro (x : MemState)
      | intro (x : TreeState)
      | intro (x : MgmtState)
      | (intro (x : State → State); subst x)
      | (intro (x : State → _ × State); subst x)
      | (intro (x : _ → State); subst x)
      | (intro (x : _ → _ → State); subst x)
      | (intro x; clear_value x)
      | intro _
      | with_reducible assumption
      | with_reducible apply PieceDone.add_keeps
      | with_reducible apply State.finishReport_keeps
      | with_reducible apply hk_f
      | lift_lets -underBinder
      | with_reducible refine Keeps.foldl _ ?_ _ _ ?_
      | with_reducible refine Keeps.foldl2 _ ?_ _ _ ?_
      | with_reducible refine Keeps.foldl3 _ ?_ _ _ ?_
      | with_reducible refine Keeps.foldl4 _ ?_ _ _ ?_
      | with_reducible refine Keeps.foldl5 _ ?_ _ _ ?_
      | (with_reducible refine Keeps.of_snd (by assumption) ?_)
      | (with_reducible refine Keeps.of_snd2 (by assumption) ?_)
      | (with_reducible refine Keeps.of_snd3 (by assumption) ?_)
      | (with_reducible refine Keeps.of_snd4 (by assumption) ?_)
      | fail_if_no_progress (with_reducible refine Keeps.upd ?_ rfl rfl rfl rfl rfl rfl rfl rfl)
      | split
      | exact le_rfl
      | rfl
      | dsimp -zeta only)

end Sys2Proof.Machine
end

