-- ==== Sys2Proof/Laws/Regs.lean ====
section
/-! SUPPORT. The set-up registers: what a register holds after each operation of Machine/Regs.lean. -/

namespace Sys2Proof.Machine

/-- Another key of a map is left alone, whatever an unlisted key reads as. -/
theorem mget_mput_ne {α : Type} [DecidableEq α] (d d' v : α) (m : List (Nat × α)) {k j : Nat} (h : j ≠ k) :
    mget d' (mput d m k v) j = mget d' m j := by
  unfold mput; split
  · exact mget_mdel_other d' m h
  · exact mget_mins_other d' v m h

theorem regKey_inj {o i o' i' : Nat} (h : i < 65536) (h' : i' < 65536) (e : regKey o i = regKey o' i') : o = o' ∧ i = i' := by
  unfold regKey at e; omega

theorem regKey_div {o i : Nat} (h : i < 65536) : regKey o i / 65536 = o := by unfold regKey; omega

theorem regKey_mod {o i : Nat} (h : i < 65536) : regKey o i % 65536 = i := by unfold regKey; omega

@[simp] theorem RegFile.get_put (rf : RegFile) (o i : Nat) (c : RegCell) : (rf.put o i c).get o i = c := by
  unfold RegFile.get RegFile.put; rw [mget_mput, if_pos rfl]

theorem RegFile.get_put_ne (rf : RegFile) {o i o' i' : Nat} (c : RegCell) (h' : i' < 65536) (h : i < 65536)
    (hn : (o', i') ≠ (o, i)) : (rf.put o i c).get o' i' = rf.get o' i' := by
  unfold RegFile.get RegFile.put
  refine mget_mput_ne _ _ _ _ fun e => hn ?_
  obtain ⟨rfl, rfl⟩ := regKey_inj h' h e
  rfl

@[simp] theorem RegFile.put_captures (rf : RegFile) (o i : Nat) (c : RegCell) : (rf.put o i c).captures = rf.captures := rfl

/-- A register that is put is the only one that changes. -/
theorem RegFile.only_put (rf : RegFile) {o i : Nat} (c : RegCell) (h : i < 65536) : rf.only (rf.put o i c) o i :=
  ⟨rfl, fun _ _ h' hn => RegFile.get_put_ne rf c h' h hn⟩

/-- A host write of a register that stores. -/
theorem RegFile.write_eq (rf : RegFile) {o : Nat} (i : Nat) (v : Word32) {r : RegRow} (hr : regRow o = some r) :
    rf.write o i v = rf.put o i
      ⟨mergeBits (rf.get o i).shadow v (BitVec.ofNat 32 r.rw) &&& ~~~(v &&& BitVec.ofNat 32 r.w1c),
        mergeBits (rf.get o i).eff v (BitVec.ofNat 32 (r.rw - r.sh)) &&& ~~~(v &&& BitVec.ofNat 32 r.w1c)⟩ := by
  unfold RegFile.write; rw [hr]

/-- A host write of an unshadowed register. -/
theorem RegFile.stores_write (rf : RegFile) {o i : Nat} (v : Word32) {m : Nat} (hr : regRow o = some (.plain o m))
    (h : i < 65536) : rf.stores (rf.write o i v) o i v (BitVec.ofNat 32 m) := by
  rw [RegFile.write_eq rf i v hr]
  refine ⟨RegFile.only_put rf _ h, ?_⟩
  simp only [RegFile.get_put, RegRow.plain, Nat.sub_zero, BitVec.and_zero, BitVec.not_zero,
    BitVec.and_allOnes]

/-- What a register holds after its effective value is set. -/
@[simp] theorem RegFile.get_setEff (rf : RegFile) (o i v : Nat) :
    (rf.setEff o i v).get o i = ⟨(rf.get o i).shadow, BitVec.ofNat 32 v⟩ := by
  unfold RegFile.setEff; rw [RegFile.get_put]

theorem RegFile.get_setEff_ne (rf : RegFile) {o i o' i' : Nat} (v : Nat) (h' : i' < 65536) (h : i < 65536)
    (hn : (o', i') ≠ (o, i)) : (rf.setEff o i v).get o' i' = rf.get o' i' :=
  RegFile.get_put_ne rf _ h' h hn

/-- Setting effective values changes no shadow. -/
theorem RegFile.shadow_setEff (rf : RegFile) {o i o' i' : Nat} (v : Nat) (h' : i' < 65536) (h : i < 65536) :
    (rf.setEff o i v).shadow o' i' = rf.shadow o' i' := by
  unfold RegFile.shadow
  by_cases hn : (o', i') = (o, i)
  · obtain ⟨rfl, rfl⟩ := Prod.mk.inj hn
    rw [RegFile.get_setEff]
  · rw [RegFile.get_setEff_ne rf v h' h hn]

/-- One captured field made effective. -/
theorem RegFile.get_apply_one (rf : RegFile) (key : Nat) (v : Word32) {o i : Nat} (h : i < 65536) :
    (rf.apply [(key, v)]).get o i =
      if key = regKey o i then
        match regRow o with
        | some r => ⟨(rf.get o i).shadow, mergeBits (rf.get o i).eff v (BitVec.ofNat 32 r.sh)⟩
        | none => rf.get o i
      else rf.get o i := by
  have hk : key / 65536 * 65536 + key % 65536 = key := by omega
  simp only [RegFile.apply, List.foldl_cons, List.foldl_nil]
  by_cases e : key = regKey o i
  · rw [if_pos e, e, regKey_div h, regKey_mod h]
    cases regRow o with
    | none => rfl
    | some r => simp only [RegFile.get_put]
  · rw [if_neg e]
    split
    · rfl
    · refine RegFile.get_put_ne rf _ h (by omega) fun e' => e ?_
      obtain ⟨e1, e2⟩ := Prod.mk.inj e'
      rw [e1, e2]; exact hk.symm

theorem RegFile.apply_cons (rf : RegFile) (kv : Nat × Word32) (vals : List (Nat × Word32)) :
    rf.apply (kv :: vals) = (rf.apply [kv]).apply vals := rfl

theorem RegFile.apply_captures (vals : List (Nat × Word32)) :
    ∀ rf : RegFile, (rf.apply vals).captures = rf.captures := by
  induction vals with
  | nil => intro _; rfl
  | cons kv vals ih =>
    intro rf
    rw [RegFile.apply_cons, ih]
    simp only [RegFile.apply, List.foldl_cons, List.foldl_nil]
    split <;> rfl

/-- Making captured fields effective changes no shadow. -/
theorem RegFile.shadow_apply {o i : Nat} (h : i < 65536) (vals : List (Nat × Word32)) :
    ∀ rf : RegFile, (rf.apply vals).shadow o i = rf.shadow o i := by
  induction vals with
  | nil => intro _; rfl
  | cons kv vals ih =>
    intro rf
    rw [RegFile.apply_cons, ih, RegFile.shadow, RegFile.get_apply_one rf kv.1 kv.2 h, RegFile.shadow]
    split
    · split <;> rfl
    · rfl

/-- A register that no captured field names keeps its effective value. -/
theorem RegFile.get_apply_other {o i : Nat} (h : i < 65536) (vals : List (Nat × Word32)) :
    ∀ rf : RegFile, (∀ kv ∈ vals, kv.1 ≠ regKey o i) → (rf.apply vals).get o i = rf.get o i := by
  induction vals with
  | nil => intro _ _; rfl
  | cons kv vals ih =>
    intro rf hn
    rw [RegFile.apply_cons, ih _ fun x hx => hn x (List.mem_cons_of_mem _ hx), RegFile.get_apply_one rf kv.1 kv.2 h,
      if_neg (hn kv List.mem_cons_self)]

/-- Merging the same bits twice is merging them once. -/
theorem mergeBits_twice (e v m : Word32) : mergeBits (mergeBits e v m) v m = mergeBits e v m := by
  apply BitVec.eq_of_getLsbD_eq
  intro i hi
  simp only [mergeBits, BitVec.getLsbD_or, BitVec.getLsbD_and, BitVec.getLsbD_not]
  cases e.getLsbD i <;> cases v.getLsbD i <;> cases m.getLsbD i <;> simp [hi]

theorem mergeBits_self (v m : Word32) : mergeBits v v m = v := by
  apply BitVec.eq_of_getLsbD_eq
  intro i hi
  simp only [mergeBits, BitVec.getLsbD_or, BitVec.getLsbD_and, BitVec.getLsbD_not]
  cases v.getLsbD i <;> cases m.getLsbD i <;> simp [hi]

/-- A register whose captured fields all hold v takes v in its shadowed bits. -/
theorem RegFile.get_apply {o i : Nat} (h : i < 65536) {r : RegRow} (hr : regRow o = some r) (v : Word32)
    (vals : List (Nat × Word32)) : ∀ rf : RegFile, (∀ kv ∈ vals, kv.1 = regKey o i → kv.2 = v) →
      ((∃ kv ∈ vals, kv.1 = regKey o i) ∨ (rf.get o i).eff = mergeBits (rf.get o i).eff v (BitVec.ofNat 32 r.sh)) →
      (rf.apply vals).get o i = ⟨(rf.get o i).shadow, mergeBits (rf.get o i).eff v (BitVec.ofNat 32 r.sh)⟩ := by
  induction vals with
  | nil =>
    intro rf _ hv
    rcases hv with ⟨_, hm, _⟩ | hv
    · exact absurd hm List.not_mem_nil
    · show rf.get o i = _
      rw [← hv]
  | cons kv vals ih =>
    intro rf hall hv
    rw [RegFile.apply_cons]
    have hall' : ∀ x ∈ vals, x.1 = regKey o i → x.2 = v := fun x hx => hall x (List.mem_cons_of_mem _ hx)
    have h1 := RegFile.get_apply_one rf kv.1 kv.2 (o := o) h
    by_cases e : kv.1 = regKey o i
    · rw [if_pos e, hr] at h1
      have h1' : (rf.apply [kv]).get o i = ⟨(rf.get o i).shadow, mergeBits (rf.get o i).eff v (BitVec.ofNat 32 r.sh)⟩ := by
        rw [← hall kv List.mem_cons_self e]; exact h1
      rw [ih _ hall' (.inr (by rw [h1', mergeBits_twice])), h1', mergeBits_twice]
    · rw [if_neg e] at h1
      have h1' : (rf.apply [kv]).get o i = rf.get o i := h1
      rw [ih _ hall' ?_, h1']
      rw [h1']
      rcases hv with ⟨x, hx, hx'⟩ | hv
      · rcases List.mem_cons.mp hx with rfl | hx
        · exact absurd hx' e
        · exact .inl ⟨x, hx, hx'⟩
      · exact .inr hv

/-- A key that a map does not list reads as the default. -/
theorem mget_unlisted {α : Type} (d : α) (m : List (Nat × α)) (k : Nat) (h : ∀ kv ∈ m, kv.1 ≠ k) : mget d m k = d := by
  induction m with
  | nil => rfl
  | cons kv m ih =>
    rw [mget, if_neg (h kv List.mem_cons_self), ih fun x hx => h x (List.mem_cons_of_mem _ hx)]

/-- Captured shadows made effective: every register of the block holds what its shadow gives, and no other changes (R813). -/
theorem RegFile.apply_capture (rf : RegFile) (b : Nat) {o i : Nat} (h : i < 65536) :
    (rf.apply (rf.capture b)).get o i =
      match regRow o with
      | some r => if blockOf o = some b then
          ⟨(rf.get o i).shadow, mergeBits (rf.get o i).eff (rf.get o i).shadow (BitVec.ofNat 32 r.sh)⟩ else rf.get o i
      | none => rf.get o i := by
  by_cases hb : blockOf o = some b
  · cases hr : regRow o with
    | none =>
      suffices hh : ∀ (vals : List (Nat × Word32)) (rf : RegFile), (rf.apply vals).get o i = rf.get o i from hh _ _
      intro vals
      induction vals with
      | nil => intro _; rfl
      | cons kv vals ih =>
        intro rf
        rw [RegFile.apply_cons, ih, RegFile.get_apply_one rf kv.1 kv.2 h, hr]
        split <;> rfl
    | some r =>
      simp only [hb, if_true]
      refine RegFile.get_apply h hr _ _ rf ?_ ?_
      · intro kv hm e
        simp only [RegFile.capture, List.mem_map, List.mem_filter] at hm
        obtain ⟨x, _, rfl⟩ := hm
        have e' : x.1 = regKey o i := e
        show (rf.get (x.1 / 65536) (x.1 % 65536)).shadow = _
        rw [e', regKey_div h, regKey_mod h]
      · by_cases hl : ∃ kv ∈ rf.vals, kv.1 = regKey o i
        · obtain ⟨kv, hm, e⟩ := hl
          refine .inl ⟨(kv.1, (rf.get (kv.1 / 65536) (kv.1 % 65536)).shadow), ?_, e⟩
          simp only [RegFile.capture, List.mem_map, List.mem_filter]
          exact ⟨kv, ⟨hm, by rw [e, regKey_div h, hb]; exact beq_self_eq_true _⟩, rfl⟩
        · have hd : rf.get o i = ⟨regResetValue o, regResetValue o⟩ :=
            mget_unlisted _ _ _ fun kv hm e => hl ⟨kv, hm, e⟩
          rw [hd]; exact .inr (mergeBits_self _ _).symm
  · have hn : (rf.apply (rf.capture b)).get o i = rf.get o i := by
      refine RegFile.get_apply_other h _ rf fun kv hm e => hb ?_
      simp only [RegFile.capture, List.mem_map, List.mem_filter] at hm
      obtain ⟨x, ⟨_, hx⟩, rfl⟩ := hm
      have e' : x.1 = regKey o i := e
      rw [e', regKey_div h] at hx
      exact eq_of_beq hx
    rw [hn]
    cases regRow o with
    | none => rfl
    | some r => simp only [hb, if_false]

end Sys2Proof.Machine
end

