-- ==== Sys2Proof/Laws/Reports.lean ====
section
/-! SUPPORT. What the reports of a command change (Safety.lean, State.reported): outputs, live counters, signal logs, the event
buffer and the record of clamps, and nothing else. -/

namespace Sys2Proof.Machine

theorem State.reported_self (s : State) : s = s.reported s := rfl

theorem State.reported_trans {s t u : State} (h : t = s.reported t) (h' : u = t.reported u) : u = s.reported u := by
  rw [h', h]; rfl

theorem State.count_reported (s : State) (u id n : Nat) : s.count u id n = s.reported (s.count u id n) := by
  unfold State.count; split <;> rfl

theorem State.emit_reported (s : State) (o : Output) : s.emit o = s.reported (s.emit o) := rfl

theorem State.platform_reported (s : State) (n v : Nat) : s.platform n v = s.reported (s.platform n v) := by
  unfold State.platform; split <;> rfl

theorem State.sig_reported (s : State) (u k a : Nat) : s.sig u k a = s.reported (s.sig u k a) := by
  unfold State.sig; split
  · rfl
  · split <;> rfl

theorem State.clamp_reported (s : State) (c : ClampSource) (n : Nat) : s.clamp c n = s.reported (s.clamp c n) := by
  unfold State.clamp; split
  · rfl
  · exact State.reported_trans (State.count_reported s 0 ctrClamps n) rfl

theorem State.bufferEvent_reported (s : State) (r : List Byte) : s.bufferEvent r = s.reported (s.bufferEvent r) := by
  unfold State.bufferEvent; split
  · rfl
  · exact State.reported_trans (State.count_reported s 0 _ 1) rfl

theorem State.event_reported (s : State) (c a : Nat) (u : Bool) : s.event c a u = s.reported (s.event c a u) :=
  State.bufferEvent_reported s _

theorem State.tellState_reported (s o : State) : s.tellState o = s.reported (s.tellState o) := by
  unfold State.tellState; split
  · rfl
  · exact State.platform_reported ..

theorem State.tellQuality_reported (s o : State) : s.tellQuality o = s.reported (s.tellQuality o) := by
  unfold State.tellQuality; split
  · rfl
  · exact State.platform_reported ..

/-- Reports of a state that is X apart from reports. -/
theorem State.reported_then {x s t : State} (h : s = x.reported s) (h' : t = s.reported t) : t = x.reported t :=
  State.reported_trans h h'

theorem State.reported_foldl {x : State} {β : Type} (f : State → β → State) (hf : ∀ s b, f s b = s.reported (f s b)) :
    ∀ (l : List β) (s : State), s = x.reported s → l.foldl f s = x.reported (l.foldl f s)
  | [], _, h => h
  | b :: l, s, h => State.reported_foldl f hf l (f s b) (State.reported_trans h (hf s b))

/-! ### Stamps -/

/-- A stamp lags its moment by 0 to 3 beats (R61). -/
theorem stampTime_lags (n : Nat) : n - 3 ≤ stampTime n ∧ stampTime n ≤ n := by
  have h := (Config.stampLag n).isLt
  simp only [stampTime, List.range_succ, List.range_zero, List.nil_append, List.map_cons, List.map_nil,
    List.cons_append, List.foldl_cons, List.foldl_nil, Nat.sub_zero]
  omega

/-- A later stamp never shows less (R61). -/
theorem stampTime_mono (n : Nat) : stampTime n ≤ stampTime (n + 1) := by
  have h := (Config.stampLag (n + 1)).isLt
  have e1 : n + 1 - 1 = n := rfl
  have e2 : n + 1 - 2 = n - 1 := rfl
  have e3 : n + 1 - 3 = n - 2 := rfl
  simp only [stampTime, List.range_succ, List.range_zero, List.nil_append, List.map_cons, List.map_nil,
    List.cons_append, List.foldl_cons, List.foldl_nil, Nat.sub_zero, e1, e2, e3]
  omega

end Sys2Proof.Machine
end

