-- ==== Sys2Proof/Laws/State.lean ====
section
/-! SUPPORT. What each update of the state leaves of each of its fields: one lemma for each field and update. With them no proof
unfolds a record update. -/

namespace Sys2Proof.Machine

variable (s : State)

/-! ### emit -/

@[simp] theorem State.emit_pending (o : Output) : (s.emit o).pending = s.pending := rfl
@[simp] theorem State.emit_out (o : Output) : (s.emit o).out = s.out ++ [o] := rfl
@[simp] theorem State.emit_taken (o : Output) : (s.emit o).taken = s.taken := rfl
@[simp] theorem State.emit_time (o : Output) : (s.emit o).time = s.time := rfl
@[simp] theorem State.emit_regs (o : Output) : (s.emit o).regs = s.regs := rfl
@[simp] theorem State.emit_tree (o : Output) : (s.emit o).tree = s.tree := rfl
@[simp] theorem State.emit_mem (o : Output) : (s.emit o).mem = s.mem := rfl
@[simp] theorem State.emit_stk (o : Output) : (s.emit o).stk = s.stk := rfl
@[simp] theorem State.emit_cells (o : Output) : (s.emit o).cells = s.cells := rfl
@[simp] theorem State.emit_host (o : Output) : (s.emit o).host = s.host := rfl
@[simp] theorem State.emit_obs (o : Output) : (s.emit o).obs = s.obs := rfl
@[simp] theorem State.emit_fab (o : Output) : (s.emit o).fab = s.fab := rfl
@[simp] theorem State.emit_coll (o : Output) : (s.emit o).coll = s.coll := rfl
@[simp] theorem State.emit_ue (o : Output) : (s.emit o).ue = s.ue := rfl
@[simp] theorem State.emit_aec (o : Output) : (s.emit o).aec = s.aec := rfl
@[simp] theorem State.emit_tf (o : Output) : (s.emit o).tf = s.tf := rfl
@[simp] theorem State.emit_res (o : Output) : (s.emit o).res = s.res := rfl
@[simp] theorem State.emit_cores (o : Output) : (s.emit o).cores = s.cores := rfl
@[simp] theorem State.emit_pwr (o : Output) : (s.emit o).pwr = s.pwr := rfl
@[simp] theorem State.emit_mgmt (o : Output) : (s.emit o).mgmt = s.mgmt := rfl
@[simp] theorem State.emit_rst (o : Output) : (s.emit o).rst = s.rst := rfl

/-! ### modUnit -/

@[simp] theorem State.modUnit_pending (u : Nat) (f : UnitState → UnitState) : (s.modUnit u f).pending = s.pending := rfl
@[simp] theorem State.modUnit_out (u : Nat) (f : UnitState → UnitState) : (s.modUnit u f).out = s.out := rfl
@[simp] theorem State.modUnit_taken (u : Nat) (f : UnitState → UnitState) : (s.modUnit u f).taken = s.taken := rfl
@[simp] theorem State.modUnit_time (u : Nat) (f : UnitState → UnitState) : (s.modUnit u f).time = s.time := rfl
@[simp] theorem State.modUnit_regs (u : Nat) (f : UnitState → UnitState) : (s.modUnit u f).regs = s.regs := rfl
@[simp] theorem State.modUnit_mem (u : Nat) (f : UnitState → UnitState) : (s.modUnit u f).mem = s.mem := rfl
@[simp] theorem State.modUnit_stk (u : Nat) (f : UnitState → UnitState) : (s.modUnit u f).stk = s.stk := rfl
@[simp] theorem State.modUnit_cells (u : Nat) (f : UnitState → UnitState) : (s.modUnit u f).cells = s.cells := rfl
@[simp] theorem State.modUnit_host (u : Nat) (f : UnitState → UnitState) : (s.modUnit u f).host = s.host := rfl
@[simp] theorem State.modUnit_obs (u : Nat) (f : UnitState → UnitState) : (s.modUnit u f).obs = s.obs := rfl
@[simp] theorem State.modUnit_fab (u : Nat) (f : UnitState → UnitState) : (s.modUnit u f).fab = s.fab := rfl
@[simp] theorem State.modUnit_coll (u : Nat) (f : UnitState → UnitState) : (s.modUnit u f).coll = s.coll := rfl
@[simp] theorem State.modUnit_ue (u : Nat) (f : UnitState → UnitState) : (s.modUnit u f).ue = s.ue := rfl
@[simp] theorem State.modUnit_aec (u : Nat) (f : UnitState → UnitState) : (s.modUnit u f).aec = s.aec := rfl
@[simp] theorem State.modUnit_tf (u : Nat) (f : UnitState → UnitState) : (s.modUnit u f).tf = s.tf := rfl
@[simp] theorem State.modUnit_res (u : Nat) (f : UnitState → UnitState) : (s.modUnit u f).res = s.res := rfl
@[simp] theorem State.modUnit_cores (u : Nat) (f : UnitState → UnitState) : (s.modUnit u f).cores = s.cores := rfl
@[simp] theorem State.modUnit_pwr (u : Nat) (f : UnitState → UnitState) : (s.modUnit u f).pwr = s.pwr := rfl
@[simp] theorem State.modUnit_mgmt (u : Nat) (f : UnitState → UnitState) : (s.modUnit u f).mgmt = s.mgmt := rfl
@[simp] theorem State.modUnit_rst (u : Nat) (f : UnitState → UnitState) : (s.modUnit u f).rst = s.rst := rfl

/-! ### modHistory -/

@[simp] theorem State.modHistory_pending (u : Nat) (f : History → History) : (s.modHistory u f).pending = s.pending := rfl
@[simp] theorem State.modHistory_out (u : Nat) (f : History → History) : (s.modHistory u f).out = s.out := rfl
@[simp] theorem State.modHistory_taken (u : Nat) (f : History → History) : (s.modHistory u f).taken = s.taken := rfl
@[simp] theorem State.modHistory_time (u : Nat) (f : History → History) : (s.modHistory u f).time = s.time := rfl
@[simp] theorem State.modHistory_regs (u : Nat) (f : History → History) : (s.modHistory u f).regs = s.regs := rfl
@[simp] theorem State.modHistory_mem (u : Nat) (f : History → History) : (s.modHistory u f).mem = s.mem := rfl
@[simp] theorem State.modHistory_stk (u : Nat) (f : History → History) : (s.modHistory u f).stk = s.stk := rfl
@[simp] theorem State.modHistory_cells (u : Nat) (f : History → History) : (s.modHistory u f).cells = s.cells := rfl
@[simp] theorem State.modHistory_host (u : Nat) (f : History → History) : (s.modHistory u f).host = s.host := rfl
@[simp] theorem State.modHistory_obs (u : Nat) (f : History → History) : (s.modHistory u f).obs = s.obs := rfl
@[simp] theorem State.modHistory_fab (u : Nat) (f : History → History) : (s.modHistory u f).fab = s.fab := rfl
@[simp] theorem State.modHistory_coll (u : Nat) (f : History → History) : (s.modHistory u f).coll = s.coll := rfl
@[simp] theorem State.modHistory_ue (u : Nat) (f : History → History) : (s.modHistory u f).ue = s.ue := rfl
@[simp] theorem State.modHistory_aec (u : Nat) (f : History → History) : (s.modHistory u f).aec = s.aec := rfl
@[simp] theorem State.modHistory_tf (u : Nat) (f : History → History) : (s.modHistory u f).tf = s.tf := rfl
@[simp] theorem State.modHistory_res (u : Nat) (f : History → History) : (s.modHistory u f).res = s.res := rfl
@[simp] theorem State.modHistory_cores (u : Nat) (f : History → History) : (s.modHistory u f).cores = s.cores := rfl
@[simp] theorem State.modHistory_pwr (u : Nat) (f : History → History) : (s.modHistory u f).pwr = s.pwr := rfl
@[simp] theorem State.modHistory_mgmt (u : Nat) (f : History → History) : (s.modHistory u f).mgmt = s.mgmt := rfl
@[simp] theorem State.modHistory_rst (u : Nat) (f : History → History) : (s.modHistory u f).rst = s.rst := rfl

/-! ### modCell -/

@[simp] theorem State.modCell_pending (u : Nat) (f : CellState → CellState) : (s.modCell u f).pending = s.pending := rfl
@[simp] theorem State.modCell_out (u : Nat) (f : CellState → CellState) : (s.modCell u f).out = s.out := rfl
@[simp] theorem State.modCell_taken (u : Nat) (f : CellState → CellState) : (s.modCell u f).taken = s.taken := rfl
@[simp] theorem State.modCell_time (u : Nat) (f : CellState → CellState) : (s.modCell u f).time = s.time := rfl
@[simp] theorem State.modCell_regs (u : Nat) (f : CellState → CellState) : (s.modCell u f).regs = s.regs := rfl
@[simp] theorem State.modCell_tree (u : Nat) (f : CellState → CellState) : (s.modCell u f).tree = s.tree := rfl
@[simp] theorem State.modCell_mem (u : Nat) (f : CellState → CellState) : (s.modCell u f).mem = s.mem := rfl
@[simp] theorem State.modCell_stk (u : Nat) (f : CellState → CellState) : (s.modCell u f).stk = s.stk := rfl
@[simp] theorem State.modCell_cells (u : Nat) (f : CellState → CellState) : (s.modCell u f).cells = mmod CellState.reset s.cells u f := rfl
@[simp] theorem State.modCell_host (u : Nat) (f : CellState → CellState) : (s.modCell u f).host = s.host := rfl
@[simp] theorem State.modCell_obs (u : Nat) (f : CellState → CellState) : (s.modCell u f).obs = s.obs := rfl
@[simp] theorem State.modCell_fab (u : Nat) (f : CellState → CellState) : (s.modCell u f).fab = s.fab := rfl
@[simp] theorem State.modCell_coll (u : Nat) (f : CellState → CellState) : (s.modCell u f).coll = s.coll := rfl
@[simp] theorem State.modCell_ue (u : Nat) (f : CellState → CellState) : (s.modCell u f).ue = s.ue := rfl
@[simp] theorem State.modCell_aec (u : Nat) (f : CellState → CellState) : (s.modCell u f).aec = s.aec := rfl
@[simp] theorem State.modCell_tf (u : Nat) (f : CellState → CellState) : (s.modCell u f).tf = s.tf := rfl
@[simp] theorem State.modCell_res (u : Nat) (f : CellState → CellState) : (s.modCell u f).res = s.res := rfl
@[simp] theorem State.modCell_cores (u : Nat) (f : CellState → CellState) : (s.modCell u f).cores = s.cores := rfl
@[simp] theorem State.modCell_pwr (u : Nat) (f : CellState → CellState) : (s.modCell u f).pwr = s.pwr := rfl
@[simp] theorem State.modCell_mgmt (u : Nat) (f : CellState → CellState) : (s.modCell u f).mgmt = s.mgmt := rfl
@[simp] theorem State.modCell_rst (u : Nat) (f : CellState → CellState) : (s.modCell u f).rst = s.rst := rfl

/-! ### modStack -/

@[simp] theorem State.modStack_pending (k : Nat) (f : StackState → StackState) : (s.modStack k f).pending = s.pending := rfl
@[simp] theorem State.modStack_out (k : Nat) (f : StackState → StackState) : (s.modStack k f).out = s.out := rfl
@[simp] theorem State.modStack_taken (k : Nat) (f : StackState → StackState) : (s.modStack k f).taken = s.taken := rfl
@[simp] theorem State.modStack_time (k : Nat) (f : StackState → StackState) : (s.modStack k f).time = s.time := rfl
@[simp] theorem State.modStack_regs (k : Nat) (f : StackState → StackState) : (s.modStack k f).regs = s.regs := rfl
@[simp] theorem State.modStack_tree (k : Nat) (f : StackState → StackState) : (s.modStack k f).tree = s.tree := rfl
@[simp] theorem State.modStack_mem (k : Nat) (f : StackState → StackState) : (s.modStack k f).mem = s.mem := rfl
@[simp] theorem State.modStack_stk (k : Nat) (f : StackState → StackState) : (s.modStack k f).stk = mmod StackState.reset s.stk k f := rfl
@[simp] theorem State.modStack_cells (k : Nat) (f : StackState → StackState) : (s.modStack k f).cells = s.cells := rfl
@[simp] theorem State.modStack_host (k : Nat) (f : StackState → StackState) : (s.modStack k f).host = s.host := rfl
@[simp] theorem State.modStack_obs (k : Nat) (f : StackState → StackState) : (s.modStack k f).obs = s.obs := rfl
@[simp] theorem State.modStack_fab (k : Nat) (f : StackState → StackState) : (s.modStack k f).fab = s.fab := rfl
@[simp] theorem State.modStack_coll (k : Nat) (f : StackState → StackState) : (s.modStack k f).coll = s.coll := rfl
@[simp] theorem State.modStack_ue (k : Nat) (f : StackState → StackState) : (s.modStack k f).ue = s.ue := rfl
@[simp] theorem State.modStack_aec (k : Nat) (f : StackState → StackState) : (s.modStack k f).aec = s.aec := rfl
@[simp] theorem State.modStack_tf (k : Nat) (f : StackState → StackState) : (s.modStack k f).tf = s.tf := rfl
@[simp] theorem State.modStack_res (k : Nat) (f : StackState → StackState) : (s.modStack k f).res = s.res := rfl
@[simp] theorem State.modStack_cores (k : Nat) (f : StackState → StackState) : (s.modStack k f).cores = s.cores := rfl
@[simp] theorem State.modStack_pwr (k : Nat) (f : StackState → StackState) : (s.modStack k f).pwr = s.pwr := rfl
@[simp] theorem State.modStack_mgmt (k : Nat) (f : StackState → StackState) : (s.modStack k f).mgmt = s.mgmt := rfl
@[simp] theorem State.modStack_rst (k : Nat) (f : StackState → StackState) : (s.modStack k f).rst = s.rst := rfl

/-! ### putSlot -/

@[simp] theorem State.putSlot_pending (k : Nat) (v : Option Slot) : (s.putSlot k v).pending = s.pending := rfl
@[simp] theorem State.putSlot_out (k : Nat) (v : Option Slot) : (s.putSlot k v).out = s.out := rfl
@[simp] theorem State.putSlot_taken (k : Nat) (v : Option Slot) : (s.putSlot k v).taken = s.taken := rfl
@[simp] theorem State.putSlot_time (k : Nat) (v : Option Slot) : (s.putSlot k v).time = s.time := rfl
@[simp] theorem State.putSlot_regs (k : Nat) (v : Option Slot) : (s.putSlot k v).regs = s.regs := rfl
@[simp] theorem State.putSlot_tree (k : Nat) (v : Option Slot) : (s.putSlot k v).tree = s.tree := rfl
@[simp] theorem State.putSlot_mem (k : Nat) (v : Option Slot) : (s.putSlot k v).mem = s.mem := rfl
@[simp] theorem State.putSlot_stk (k : Nat) (v : Option Slot) : (s.putSlot k v).stk = s.stk := rfl
@[simp] theorem State.putSlot_cells (k : Nat) (v : Option Slot) : (s.putSlot k v).cells = s.cells := rfl
@[simp] theorem State.putSlot_obs (k : Nat) (v : Option Slot) : (s.putSlot k v).obs = s.obs := rfl
@[simp] theorem State.putSlot_fab (k : Nat) (v : Option Slot) : (s.putSlot k v).fab = s.fab := rfl
@[simp] theorem State.putSlot_coll (k : Nat) (v : Option Slot) : (s.putSlot k v).coll = s.coll := rfl
@[simp] theorem State.putSlot_ue (k : Nat) (v : Option Slot) : (s.putSlot k v).ue = s.ue := rfl
@[simp] theorem State.putSlot_aec (k : Nat) (v : Option Slot) : (s.putSlot k v).aec = s.aec := rfl
@[simp] theorem State.putSlot_tf (k : Nat) (v : Option Slot) : (s.putSlot k v).tf = s.tf := rfl
@[simp] theorem State.putSlot_res (k : Nat) (v : Option Slot) : (s.putSlot k v).res = s.res := rfl
@[simp] theorem State.putSlot_cores (k : Nat) (v : Option Slot) : (s.putSlot k v).cores = s.cores := rfl
@[simp] theorem State.putSlot_pwr (k : Nat) (v : Option Slot) : (s.putSlot k v).pwr = s.pwr := rfl
@[simp] theorem State.putSlot_mgmt (k : Nat) (v : Option Slot) : (s.putSlot k v).mgmt = s.mgmt := rfl
@[simp] theorem State.putSlot_rst (k : Nat) (v : Option Slot) : (s.putSlot k v).rst = s.rst := rfl

/-! ### modSlot -/

@[simp] theorem State.modSlot_pending (k : Nat) (f : Slot → Slot) : (s.modSlot k f).pending = s.pending := rfl
@[simp] theorem State.modSlot_out (k : Nat) (f : Slot → Slot) : (s.modSlot k f).out = s.out := rfl
@[simp] theorem State.modSlot_taken (k : Nat) (f : Slot → Slot) : (s.modSlot k f).taken = s.taken := rfl
@[simp] theorem State.modSlot_time (k : Nat) (f : Slot → Slot) : (s.modSlot k f).time = s.time := rfl
@[simp] theorem State.modSlot_regs (k : Nat) (f : Slot → Slot) : (s.modSlot k f).regs = s.regs := rfl
@[simp] theorem State.modSlot_tree (k : Nat) (f : Slot → Slot) : (s.modSlot k f).tree = s.tree := rfl
@[simp] theorem State.modSlot_mem (k : Nat) (f : Slot → Slot) : (s.modSlot k f).mem = s.mem := rfl
@[simp] theorem State.modSlot_stk (k : Nat) (f : Slot → Slot) : (s.modSlot k f).stk = s.stk := rfl
@[simp] theorem State.modSlot_cells (k : Nat) (f : Slot → Slot) : (s.modSlot k f).cells = s.cells := rfl
@[simp] theorem State.modSlot_obs (k : Nat) (f : Slot → Slot) : (s.modSlot k f).obs = s.obs := rfl
@[simp] theorem State.modSlot_fab (k : Nat) (f : Slot → Slot) : (s.modSlot k f).fab = s.fab := rfl
@[simp] theorem State.modSlot_coll (k : Nat) (f : Slot → Slot) : (s.modSlot k f).coll = s.coll := rfl
@[simp] theorem State.modSlot_ue (k : Nat) (f : Slot → Slot) : (s.modSlot k f).ue = s.ue := rfl
@[simp] theorem State.modSlot_aec (k : Nat) (f : Slot → Slot) : (s.modSlot k f).aec = s.aec := rfl
@[simp] theorem State.modSlot_tf (k : Nat) (f : Slot → Slot) : (s.modSlot k f).tf = s.tf := rfl
@[simp] theorem State.modSlot_res (k : Nat) (f : Slot → Slot) : (s.modSlot k f).res = s.res := rfl
@[simp] theorem State.modSlot_cores (k : Nat) (f : Slot → Slot) : (s.modSlot k f).cores = s.cores := rfl
@[simp] theorem State.modSlot_pwr (k : Nat) (f : Slot → Slot) : (s.modSlot k f).pwr = s.pwr := rfl
@[simp] theorem State.modSlot_mgmt (k : Nat) (f : Slot → Slot) : (s.modSlot k f).mgmt = s.mgmt := rfl
@[simp] theorem State.modSlot_rst (k : Nat) (f : Slot → Slot) : (s.modSlot k f).rst = s.rst := rfl

/-! ### modSq -/

@[simp] theorem State.modSq_pending (r : Nat) (f : SqRing → SqRing) : (s.modSq r f).pending = s.pending := rfl
@[simp] theorem State.modSq_out (r : Nat) (f : SqRing → SqRing) : (s.modSq r f).out = s.out := rfl
@[simp] theorem State.modSq_taken (r : Nat) (f : SqRing → SqRing) : (s.modSq r f).taken = s.taken := rfl
@[simp] theorem State.modSq_time (r : Nat) (f : SqRing → SqRing) : (s.modSq r f).time = s.time := rfl
@[simp] theorem State.modSq_regs (r : Nat) (f : SqRing → SqRing) : (s.modSq r f).regs = s.regs := rfl
@[simp] theorem State.modSq_tree (r : Nat) (f : SqRing → SqRing) : (s.modSq r f).tree = s.tree := rfl
@[simp] theorem State.modSq_mem (r : Nat) (f : SqRing → SqRing) : (s.modSq r f).mem = s.mem := rfl
@[simp] theorem State.modSq_stk (r : Nat) (f : SqRing → SqRing) : (s.modSq r f).stk = s.stk := rfl
@[simp] theorem State.modSq_cells (r : Nat) (f : SqRing → SqRing) : (s.modSq r f).cells = s.cells := rfl
@[simp] theorem State.modSq_obs (r : Nat) (f : SqRing → SqRing) : (s.modSq r f).obs = s.obs := rfl
@[simp] theorem State.modSq_fab (r : Nat) (f : SqRing → SqRing) : (s.modSq r f).fab = s.fab := rfl
@[simp] theorem State.modSq_coll (r : Nat) (f : SqRing → SqRing) : (s.modSq r f).coll = s.coll := rfl
@[simp] theorem State.modSq_ue (r : Nat) (f : SqRing → SqRing) : (s.modSq r f).ue = s.ue := rfl
@[simp] theorem State.modSq_aec (r : Nat) (f : SqRing → SqRing) : (s.modSq r f).aec = s.aec := rfl
@[simp] theorem State.modSq_tf (r : Nat) (f : SqRing → SqRing) : (s.modSq r f).tf = s.tf := rfl
@[simp] theorem State.modSq_res (r : Nat) (f : SqRing → SqRing) : (s.modSq r f).res = s.res := rfl
@[simp] theorem State.modSq_cores (r : Nat) (f : SqRing → SqRing) : (s.modSq r f).cores = s.cores := rfl
@[simp] theorem State.modSq_pwr (r : Nat) (f : SqRing → SqRing) : (s.modSq r f).pwr = s.pwr := rfl
@[simp] theorem State.modSq_mgmt (r : Nat) (f : SqRing → SqRing) : (s.modSq r f).mgmt = s.mgmt := rfl
@[simp] theorem State.modSq_rst (r : Nat) (f : SqRing → SqRing) : (s.modSq r f).rst = s.rst := rfl

/-! ### modCq -/

@[simp] theorem State.modCq_pending (r : Nat) (f : CqRing → CqRing) : (s.modCq r f).pending = s.pending := rfl
@[simp] theorem State.modCq_out (r : Nat) (f : CqRing → CqRing) : (s.modCq r f).out = s.out := rfl
@[simp] theorem State.modCq_taken (r : Nat) (f : CqRing → CqRing) : (s.modCq r f).taken = s.taken := rfl
@[simp] theorem State.modCq_time (r : Nat) (f : CqRing → CqRing) : (s.modCq r f).time = s.time := rfl
@[simp] theorem State.modCq_regs (r : Nat) (f : CqRing → CqRing) : (s.modCq r f).regs = s.regs := rfl
@[simp] theorem State.modCq_tree (r : Nat) (f : CqRing → CqRing) : (s.modCq r f).tree = s.tree := rfl
@[simp] theorem State.modCq_mem (r : Nat) (f : CqRing → CqRing) : (s.modCq r f).mem = s.mem := rfl
@[simp] theorem State.modCq_stk (r : Nat) (f : CqRing → CqRing) : (s.modCq r f).stk = s.stk := rfl
@[simp] theorem State.modCq_cells (r : Nat) (f : CqRing → CqRing) : (s.modCq r f).cells = s.cells := rfl
@[simp] theorem State.modCq_obs (r : Nat) (f : CqRing → CqRing) : (s.modCq r f).obs = s.obs := rfl
@[simp] theorem State.modCq_fab (r : Nat) (f : CqRing → CqRing) : (s.modCq r f).fab = s.fab := rfl
@[simp] theorem State.modCq_coll (r : Nat) (f : CqRing → CqRing) : (s.modCq r f).coll = s.coll := rfl
@[simp] theorem State.modCq_ue (r : Nat) (f : CqRing → CqRing) : (s.modCq r f).ue = s.ue := rfl
@[simp] theorem State.modCq_aec (r : Nat) (f : CqRing → CqRing) : (s.modCq r f).aec = s.aec := rfl
@[simp] theorem State.modCq_tf (r : Nat) (f : CqRing → CqRing) : (s.modCq r f).tf = s.tf := rfl
@[simp] theorem State.modCq_res (r : Nat) (f : CqRing → CqRing) : (s.modCq r f).res = s.res := rfl
@[simp] theorem State.modCq_cores (r : Nat) (f : CqRing → CqRing) : (s.modCq r f).cores = s.cores := rfl
@[simp] theorem State.modCq_pwr (r : Nat) (f : CqRing → CqRing) : (s.modCq r f).pwr = s.pwr := rfl
@[simp] theorem State.modCq_mgmt (r : Nat) (f : CqRing → CqRing) : (s.modCq r f).mgmt = s.mgmt := rfl
@[simp] theorem State.modCq_rst (r : Nat) (f : CqRing → CqRing) : (s.modCq r f).rst = s.rst := rfl

/-! ### modPort -/

@[simp] theorem State.modPort_pending (p : Nat) (f : PortState → PortState) : (s.modPort p f).pending = s.pending := rfl
@[simp] theorem State.modPort_out (p : Nat) (f : PortState → PortState) : (s.modPort p f).out = s.out := rfl
@[simp] theorem State.modPort_taken (p : Nat) (f : PortState → PortState) : (s.modPort p f).taken = s.taken := rfl
@[simp] theorem State.modPort_time (p : Nat) (f : PortState → PortState) : (s.modPort p f).time = s.time := rfl
@[simp] theorem State.modPort_regs (p : Nat) (f : PortState → PortState) : (s.modPort p f).regs = s.regs := rfl
@[simp] theorem State.modPort_tree (p : Nat) (f : PortState → PortState) : (s.modPort p f).tree = s.tree := rfl
@[simp] theorem State.modPort_mem (p : Nat) (f : PortState → PortState) : (s.modPort p f).mem = s.mem := rfl
@[simp] theorem State.modPort_stk (p : Nat) (f : PortState → PortState) : (s.modPort p f).stk = s.stk := rfl
@[simp] theorem State.modPort_cells (p : Nat) (f : PortState → PortState) : (s.modPort p f).cells = s.cells := rfl
@[simp] theorem State.modPort_host (p : Nat) (f : PortState → PortState) : (s.modPort p f).host = s.host := rfl
@[simp] theorem State.modPort_obs (p : Nat) (f : PortState → PortState) : (s.modPort p f).obs = s.obs := rfl
@[simp] theorem State.modPort_coll (p : Nat) (f : PortState → PortState) : (s.modPort p f).coll = s.coll := rfl
@[simp] theorem State.modPort_ue (p : Nat) (f : PortState → PortState) : (s.modPort p f).ue = s.ue := rfl
@[simp] theorem State.modPort_aec (p : Nat) (f : PortState → PortState) : (s.modPort p f).aec = s.aec := rfl
@[simp] theorem State.modPort_tf (p : Nat) (f : PortState → PortState) : (s.modPort p f).tf = s.tf := rfl
@[simp] theorem State.modPort_res (p : Nat) (f : PortState → PortState) : (s.modPort p f).res = s.res := rfl
@[simp] theorem State.modPort_cores (p : Nat) (f : PortState → PortState) : (s.modPort p f).cores = s.cores := rfl
@[simp] theorem State.modPort_pwr (p : Nat) (f : PortState → PortState) : (s.modPort p f).pwr = s.pwr := rfl
@[simp] theorem State.modPort_mgmt (p : Nat) (f : PortState → PortState) : (s.modPort p f).mgmt = s.mgmt := rfl
@[simp] theorem State.modPort_rst (p : Nat) (f : PortState → PortState) : (s.modPort p f).rst = s.rst := rfl

/-! ### putReq -/

@[simp] theorem State.putReq_pending (n : Nat) (r : Option Request) : (s.putReq n r).pending = s.pending := rfl
@[simp] theorem State.putReq_out (n : Nat) (r : Option Request) : (s.putReq n r).out = s.out := rfl
@[simp] theorem State.putReq_taken (n : Nat) (r : Option Request) : (s.putReq n r).taken = s.taken := rfl
@[simp] theorem State.putReq_time (n : Nat) (r : Option Request) : (s.putReq n r).time = s.time := rfl
@[simp] theorem State.putReq_regs (n : Nat) (r : Option Request) : (s.putReq n r).regs = s.regs := rfl
@[simp] theorem State.putReq_tree (n : Nat) (r : Option Request) : (s.putReq n r).tree = s.tree := rfl
@[simp] theorem State.putReq_mem (n : Nat) (r : Option Request) : (s.putReq n r).mem = s.mem := rfl
@[simp] theorem State.putReq_stk (n : Nat) (r : Option Request) : (s.putReq n r).stk = s.stk := rfl
@[simp] theorem State.putReq_cells (n : Nat) (r : Option Request) : (s.putReq n r).cells = s.cells := rfl
@[simp] theorem State.putReq_host (n : Nat) (r : Option Request) : (s.putReq n r).host = s.host := rfl
@[simp] theorem State.putReq_obs (n : Nat) (r : Option Request) : (s.putReq n r).obs = s.obs := rfl
@[simp] theorem State.putReq_coll (n : Nat) (r : Option Request) : (s.putReq n r).coll = s.coll := rfl
@[simp] theorem State.putReq_ue (n : Nat) (r : Option Request) : (s.putReq n r).ue = s.ue := rfl
@[simp] theorem State.putReq_aec (n : Nat) (r : Option Request) : (s.putReq n r).aec = s.aec := rfl
@[simp] theorem State.putReq_tf (n : Nat) (r : Option Request) : (s.putReq n r).tf = s.tf := rfl
@[simp] theorem State.putReq_res (n : Nat) (r : Option Request) : (s.putReq n r).res = s.res := rfl
@[simp] theorem State.putReq_cores (n : Nat) (r : Option Request) : (s.putReq n r).cores = s.cores := rfl
@[simp] theorem State.putReq_pwr (n : Nat) (r : Option Request) : (s.putReq n r).pwr = s.pwr := rfl
@[simp] theorem State.putReq_mgmt (n : Nat) (r : Option Request) : (s.putReq n r).mgmt = s.mgmt := rfl
@[simp] theorem State.putReq_rst (n : Nat) (r : Option Request) : (s.putReq n r).rst = s.rst := rfl

/-! ### putCtx -/

@[simp] theorem State.putCtx_pending (c : Nat) (e : List Byte) : (s.putCtx c e).pending = s.pending := rfl
@[simp] theorem State.putCtx_out (c : Nat) (e : List Byte) : (s.putCtx c e).out = s.out := rfl
@[simp] theorem State.putCtx_taken (c : Nat) (e : List Byte) : (s.putCtx c e).taken = s.taken := rfl
@[simp] theorem State.putCtx_time (c : Nat) (e : List Byte) : (s.putCtx c e).time = s.time := rfl
@[simp] theorem State.putCtx_regs (c : Nat) (e : List Byte) : (s.putCtx c e).regs = s.regs := rfl
@[simp] theorem State.putCtx_tree (c : Nat) (e : List Byte) : (s.putCtx c e).tree = s.tree := rfl
@[simp] theorem State.putCtx_mem (c : Nat) (e : List Byte) : (s.putCtx c e).mem = s.mem := rfl
@[simp] theorem State.putCtx_stk (c : Nat) (e : List Byte) : (s.putCtx c e).stk = s.stk := rfl
@[simp] theorem State.putCtx_cells (c : Nat) (e : List Byte) : (s.putCtx c e).cells = s.cells := rfl
@[simp] theorem State.putCtx_host (c : Nat) (e : List Byte) : (s.putCtx c e).host = s.host := rfl
@[simp] theorem State.putCtx_obs (c : Nat) (e : List Byte) : (s.putCtx c e).obs = s.obs := rfl
@[simp] theorem State.putCtx_coll (c : Nat) (e : List Byte) : (s.putCtx c e).coll = s.coll := rfl
@[simp] theorem State.putCtx_ue (c : Nat) (e : List Byte) : (s.putCtx c e).ue = s.ue := rfl
@[simp] theorem State.putCtx_aec (c : Nat) (e : List Byte) : (s.putCtx c e).aec = s.aec := rfl
@[simp] theorem State.putCtx_tf (c : Nat) (e : List Byte) : (s.putCtx c e).tf = s.tf := rfl
@[simp] theorem State.putCtx_res (c : Nat) (e : List Byte) : (s.putCtx c e).res = s.res := rfl
@[simp] theorem State.putCtx_cores (c : Nat) (e : List Byte) : (s.putCtx c e).cores = s.cores := rfl
@[simp] theorem State.putCtx_pwr (c : Nat) (e : List Byte) : (s.putCtx c e).pwr = s.pwr := rfl
@[simp] theorem State.putCtx_mgmt (c : Nat) (e : List Byte) : (s.putCtx c e).mgmt = s.mgmt := rfl
@[simp] theorem State.putCtx_rst (c : Nat) (e : List Byte) : (s.putCtx c e).rst = s.rst := rfl

/-! ### putInst -/

@[simp] theorem State.putInst_pending (c : CollInst) : (s.putInst c).pending = s.pending := rfl
@[simp] theorem State.putInst_out (c : CollInst) : (s.putInst c).out = s.out := rfl
@[simp] theorem State.putInst_taken (c : CollInst) : (s.putInst c).taken = s.taken := rfl
@[simp] theorem State.putInst_time (c : CollInst) : (s.putInst c).time = s.time := rfl
@[simp] theorem State.putInst_regs (c : CollInst) : (s.putInst c).regs = s.regs := rfl
@[simp] theorem State.putInst_tree (c : CollInst) : (s.putInst c).tree = s.tree := rfl
@[simp] theorem State.putInst_mem (c : CollInst) : (s.putInst c).mem = s.mem := rfl
@[simp] theorem State.putInst_stk (c : CollInst) : (s.putInst c).stk = s.stk := rfl
@[simp] theorem State.putInst_cells (c : CollInst) : (s.putInst c).cells = s.cells := rfl
@[simp] theorem State.putInst_host (c : CollInst) : (s.putInst c).host = s.host := rfl
@[simp] theorem State.putInst_obs (c : CollInst) : (s.putInst c).obs = s.obs := rfl
@[simp] theorem State.putInst_fab (c : CollInst) : (s.putInst c).fab = s.fab := rfl
@[simp] theorem State.putInst_ue (c : CollInst) : (s.putInst c).ue = s.ue := rfl
@[simp] theorem State.putInst_aec (c : CollInst) : (s.putInst c).aec = s.aec := rfl
@[simp] theorem State.putInst_tf (c : CollInst) : (s.putInst c).tf = s.tf := rfl
@[simp] theorem State.putInst_res (c : CollInst) : (s.putInst c).res = s.res := rfl
@[simp] theorem State.putInst_cores (c : CollInst) : (s.putInst c).cores = s.cores := rfl
@[simp] theorem State.putInst_pwr (c : CollInst) : (s.putInst c).pwr = s.pwr := rfl
@[simp] theorem State.putInst_mgmt (c : CollInst) : (s.putInst c).mgmt = s.mgmt := rfl
@[simp] theorem State.putInst_rst (c : CollInst) : (s.putInst c).rst = s.rst := rfl

/-! ### modUe -/

@[simp] theorem State.modUe_pending (k : Nat) (f : UeState → UeState) : (s.modUe k f).pending = s.pending := rfl
@[simp] theorem State.modUe_out (k : Nat) (f : UeState → UeState) : (s.modUe k f).out = s.out := rfl
@[simp] theorem State.modUe_taken (k : Nat) (f : UeState → UeState) : (s.modUe k f).taken = s.taken := rfl
@[simp] theorem State.modUe_time (k : Nat) (f : UeState → UeState) : (s.modUe k f).time = s.time := rfl
@[simp] theorem State.modUe_regs (k : Nat) (f : UeState → UeState) : (s.modUe k f).regs = s.regs := rfl
@[simp] theorem State.modUe_tree (k : Nat) (f : UeState → UeState) : (s.modUe k f).tree = s.tree := rfl
@[simp] theorem State.modUe_mem (k : Nat) (f : UeState → UeState) : (s.modUe k f).mem = s.mem := rfl
@[simp] theorem State.modUe_stk (k : Nat) (f : UeState → UeState) : (s.modUe k f).stk = s.stk := rfl
@[simp] theorem State.modUe_cells (k : Nat) (f : UeState → UeState) : (s.modUe k f).cells = s.cells := rfl
@[simp] theorem State.modUe_host (k : Nat) (f : UeState → UeState) : (s.modUe k f).host = s.host := rfl
@[simp] theorem State.modUe_obs (k : Nat) (f : UeState → UeState) : (s.modUe k f).obs = s.obs := rfl
@[simp] theorem State.modUe_fab (k : Nat) (f : UeState → UeState) : (s.modUe k f).fab = s.fab := rfl
@[simp] theorem State.modUe_coll (k : Nat) (f : UeState → UeState) : (s.modUe k f).coll = s.coll := rfl
@[simp] theorem State.modUe_ue (k : Nat) (f : UeState → UeState) : (s.modUe k f).ue = mmod UeState.reset s.ue k f := rfl
@[simp] theorem State.modUe_aec (k : Nat) (f : UeState → UeState) : (s.modUe k f).aec = s.aec := rfl
@[simp] theorem State.modUe_tf (k : Nat) (f : UeState → UeState) : (s.modUe k f).tf = s.tf := rfl
@[simp] theorem State.modUe_res (k : Nat) (f : UeState → UeState) : (s.modUe k f).res = s.res := rfl
@[simp] theorem State.modUe_cores (k : Nat) (f : UeState → UeState) : (s.modUe k f).cores = s.cores := rfl
@[simp] theorem State.modUe_pwr (k : Nat) (f : UeState → UeState) : (s.modUe k f).pwr = s.pwr := rfl
@[simp] theorem State.modUe_mgmt (k : Nat) (f : UeState → UeState) : (s.modUe k f).mgmt = s.mgmt := rfl
@[simp] theorem State.modUe_rst (k : Nat) (f : UeState → UeState) : (s.modUe k f).rst = s.rst := rfl

/-! ### modRun -/

@[simp] theorem State.modRun_pending (f : StepRun → StepRun) : (s.modRun f).pending = s.pending := rfl
@[simp] theorem State.modRun_out (f : StepRun → StepRun) : (s.modRun f).out = s.out := rfl
@[simp] theorem State.modRun_taken (f : StepRun → StepRun) : (s.modRun f).taken = s.taken := rfl
@[simp] theorem State.modRun_time (f : StepRun → StepRun) : (s.modRun f).time = s.time := rfl
@[simp] theorem State.modRun_regs (f : StepRun → StepRun) : (s.modRun f).regs = s.regs := rfl
@[simp] theorem State.modRun_tree (f : StepRun → StepRun) : (s.modRun f).tree = s.tree := rfl
@[simp] theorem State.modRun_mem (f : StepRun → StepRun) : (s.modRun f).mem = s.mem := rfl
@[simp] theorem State.modRun_stk (f : StepRun → StepRun) : (s.modRun f).stk = s.stk := rfl
@[simp] theorem State.modRun_cells (f : StepRun → StepRun) : (s.modRun f).cells = s.cells := rfl
@[simp] theorem State.modRun_host (f : StepRun → StepRun) : (s.modRun f).host = s.host := rfl
@[simp] theorem State.modRun_obs (f : StepRun → StepRun) : (s.modRun f).obs = s.obs := rfl
@[simp] theorem State.modRun_fab (f : StepRun → StepRun) : (s.modRun f).fab = s.fab := rfl
@[simp] theorem State.modRun_coll (f : StepRun → StepRun) : (s.modRun f).coll = s.coll := rfl
@[simp] theorem State.modRun_ue (f : StepRun → StepRun) : (s.modRun f).ue = s.ue := rfl
@[simp] theorem State.modRun_aec (f : StepRun → StepRun) : (s.modRun f).aec = s.aec := rfl
@[simp] theorem State.modRun_res (f : StepRun → StepRun) : (s.modRun f).res = s.res := rfl
@[simp] theorem State.modRun_cores (f : StepRun → StepRun) : (s.modRun f).cores = s.cores := rfl
@[simp] theorem State.modRun_pwr (f : StepRun → StepRun) : (s.modRun f).pwr = s.pwr := rfl
@[simp] theorem State.modRun_mgmt (f : StepRun → StepRun) : (s.modRun f).mgmt = s.mgmt := rfl
@[simp] theorem State.modRun_rst (f : StepRun → StepRun) : (s.modRun f).rst = s.rst := rfl

/-! ### modCopy -/

@[simp] theorem State.modCopy_pending (f : Copy → Copy) : (s.modCopy f).pending = s.pending := rfl
@[simp] theorem State.modCopy_out (f : Copy → Copy) : (s.modCopy f).out = s.out := rfl
@[simp] theorem State.modCopy_taken (f : Copy → Copy) : (s.modCopy f).taken = s.taken := rfl
@[simp] theorem State.modCopy_time (f : Copy → Copy) : (s.modCopy f).time = s.time := rfl
@[simp] theorem State.modCopy_regs (f : Copy → Copy) : (s.modCopy f).regs = s.regs := rfl
@[simp] theorem State.modCopy_tree (f : Copy → Copy) : (s.modCopy f).tree = s.tree := rfl
@[simp] theorem State.modCopy_mem (f : Copy → Copy) : (s.modCopy f).mem = s.mem := rfl
@[simp] theorem State.modCopy_stk (f : Copy → Copy) : (s.modCopy f).stk = s.stk := rfl
@[simp] theorem State.modCopy_cells (f : Copy → Copy) : (s.modCopy f).cells = s.cells := rfl
@[simp] theorem State.modCopy_host (f : Copy → Copy) : (s.modCopy f).host = s.host := rfl
@[simp] theorem State.modCopy_obs (f : Copy → Copy) : (s.modCopy f).obs = s.obs := rfl
@[simp] theorem State.modCopy_fab (f : Copy → Copy) : (s.modCopy f).fab = s.fab := rfl
@[simp] theorem State.modCopy_coll (f : Copy → Copy) : (s.modCopy f).coll = s.coll := rfl
@[simp] theorem State.modCopy_ue (f : Copy → Copy) : (s.modCopy f).ue = s.ue := rfl
@[simp] theorem State.modCopy_aec (f : Copy → Copy) : (s.modCopy f).aec = s.aec := rfl
@[simp] theorem State.modCopy_tf (f : Copy → Copy) : (s.modCopy f).tf = s.tf := rfl
@[simp] theorem State.modCopy_cores (f : Copy → Copy) : (s.modCopy f).cores = s.cores := rfl
@[simp] theorem State.modCopy_pwr (f : Copy → Copy) : (s.modCopy f).pwr = s.pwr := rfl
@[simp] theorem State.modCopy_mgmt (f : Copy → Copy) : (s.modCopy f).mgmt = s.mgmt := rfl
@[simp] theorem State.modCopy_rst (f : Copy → Copy) : (s.modCopy f).rst = s.rst := rfl

/-! ### modDomain -/

@[simp] theorem State.modDomain_pending (d : Nat) (f : Domain → Domain) : (s.modDomain d f).pending = s.pending := rfl
@[simp] theorem State.modDomain_out (d : Nat) (f : Domain → Domain) : (s.modDomain d f).out = s.out := rfl
@[simp] theorem State.modDomain_taken (d : Nat) (f : Domain → Domain) : (s.modDomain d f).taken = s.taken := rfl
@[simp] theorem State.modDomain_time (d : Nat) (f : Domain → Domain) : (s.modDomain d f).time = s.time := rfl
@[simp] theorem State.modDomain_regs (d : Nat) (f : Domain → Domain) : (s.modDomain d f).regs = s.regs := rfl
@[simp] theorem State.modDomain_tree (d : Nat) (f : Domain → Domain) : (s.modDomain d f).tree = s.tree := rfl
@[simp] theorem State.modDomain_mem (d : Nat) (f : Domain → Domain) : (s.modDomain d f).mem = s.mem := rfl
@[simp] theorem State.modDomain_stk (d : Nat) (f : Domain → Domain) : (s.modDomain d f).stk = s.stk := rfl
@[simp] theorem State.modDomain_cells (d : Nat) (f : Domain → Domain) : (s.modDomain d f).cells = s.cells := rfl
@[simp] theorem State.modDomain_host (d : Nat) (f : Domain → Domain) : (s.modDomain d f).host = s.host := rfl
@[simp] theorem State.modDomain_obs (d : Nat) (f : Domain → Domain) : (s.modDomain d f).obs = s.obs := rfl
@[simp] theorem State.modDomain_fab (d : Nat) (f : Domain → Domain) : (s.modDomain d f).fab = s.fab := rfl
@[simp] theorem State.modDomain_coll (d : Nat) (f : Domain → Domain) : (s.modDomain d f).coll = s.coll := rfl
@[simp] theorem State.modDomain_ue (d : Nat) (f : Domain → Domain) : (s.modDomain d f).ue = s.ue := rfl
@[simp] theorem State.modDomain_aec (d : Nat) (f : Domain → Domain) : (s.modDomain d f).aec = s.aec := rfl
@[simp] theorem State.modDomain_tf (d : Nat) (f : Domain → Domain) : (s.modDomain d f).tf = s.tf := rfl
@[simp] theorem State.modDomain_res (d : Nat) (f : Domain → Domain) : (s.modDomain d f).res = s.res := rfl
@[simp] theorem State.modDomain_cores (d : Nat) (f : Domain → Domain) : (s.modDomain d f).cores = s.cores := rfl
@[simp] theorem State.modDomain_pwr (d : Nat) (f : Domain → Domain) : (s.modDomain d f).pwr = s.pwr := rfl
@[simp] theorem State.modDomain_rst (d : Nat) (f : Domain → Domain) : (s.modDomain d f).rst = s.rst := rfl

/-! ### modMgmt -/

@[simp] theorem State.modMgmt_pending (f : MgmtState → MgmtState) : (s.modMgmt f).pending = s.pending := rfl
@[simp] theorem State.modMgmt_out (f : MgmtState → MgmtState) : (s.modMgmt f).out = s.out := rfl
@[simp] theorem State.modMgmt_taken (f : MgmtState → MgmtState) : (s.modMgmt f).taken = s.taken := rfl
@[simp] theorem State.modMgmt_time (f : MgmtState → MgmtState) : (s.modMgmt f).time = s.time := rfl
@[simp] theorem State.modMgmt_regs (f : MgmtState → MgmtState) : (s.modMgmt f).regs = s.regs := rfl
@[simp] theorem State.modMgmt_tree (f : MgmtState → MgmtState) : (s.modMgmt f).tree = s.tree := rfl
@[simp] theorem State.modMgmt_mem (f : MgmtState → MgmtState) : (s.modMgmt f).mem = s.mem := rfl
@[simp] theorem State.modMgmt_stk (f : MgmtState → MgmtState) : (s.modMgmt f).stk = s.stk := rfl
@[simp] theorem State.modMgmt_cells (f : MgmtState → MgmtState) : (s.modMgmt f).cells = s.cells := rfl
@[simp] theorem State.modMgmt_host (f : MgmtState → MgmtState) : (s.modMgmt f).host = s.host := rfl
@[simp] theorem State.modMgmt_obs (f : MgmtState → MgmtState) : (s.modMgmt f).obs = s.obs := rfl
@[simp] theorem State.modMgmt_fab (f : MgmtState → MgmtState) : (s.modMgmt f).fab = s.fab := rfl
@[simp] theorem State.modMgmt_coll (f : MgmtState → MgmtState) : (s.modMgmt f).coll = s.coll := rfl
@[simp] theorem State.modMgmt_ue (f : MgmtState → MgmtState) : (s.modMgmt f).ue = s.ue := rfl
@[simp] theorem State.modMgmt_aec (f : MgmtState → MgmtState) : (s.modMgmt f).aec = s.aec := rfl
@[simp] theorem State.modMgmt_tf (f : MgmtState → MgmtState) : (s.modMgmt f).tf = s.tf := rfl
@[simp] theorem State.modMgmt_res (f : MgmtState → MgmtState) : (s.modMgmt f).res = s.res := rfl
@[simp] theorem State.modMgmt_cores (f : MgmtState → MgmtState) : (s.modMgmt f).cores = s.cores := rfl
@[simp] theorem State.modMgmt_pwr (f : MgmtState → MgmtState) : (s.modMgmt f).pwr = s.pwr := rfl
@[simp] theorem State.modMgmt_mgmt (f : MgmtState → MgmtState) : (s.modMgmt f).mgmt = f s.mgmt := rfl
@[simp] theorem State.modMgmt_rst (f : MgmtState → MgmtState) : (s.modMgmt f).rst = s.rst := rfl

/-! ### modPwr -/

@[simp] theorem State.modPwr_pending (f : PwrState → PwrState) : (s.modPwr f).pending = s.pending := rfl
@[simp] theorem State.modPwr_out (f : PwrState → PwrState) : (s.modPwr f).out = s.out := rfl
@[simp] theorem State.modPwr_taken (f : PwrState → PwrState) : (s.modPwr f).taken = s.taken := rfl
@[simp] theorem State.modPwr_time (f : PwrState → PwrState) : (s.modPwr f).time = s.time := rfl
@[simp] theorem State.modPwr_regs (f : PwrState → PwrState) : (s.modPwr f).regs = s.regs := rfl
@[simp] theorem State.modPwr_tree (f : PwrState → PwrState) : (s.modPwr f).tree = s.tree := rfl
@[simp] theorem State.modPwr_mem (f : PwrState → PwrState) : (s.modPwr f).mem = s.mem := rfl
@[simp] theorem State.modPwr_stk (f : PwrState → PwrState) : (s.modPwr f).stk = s.stk := rfl
@[simp] theorem State.modPwr_cells (f : PwrState → PwrState) : (s.modPwr f).cells = s.cells := rfl
@[simp] theorem State.modPwr_host (f : PwrState → PwrState) : (s.modPwr f).host = s.host := rfl
@[simp] theorem State.modPwr_obs (f : PwrState → PwrState) : (s.modPwr f).obs = s.obs := rfl
@[simp] theorem State.modPwr_fab (f : PwrState → PwrState) : (s.modPwr f).fab = s.fab := rfl
@[simp] theorem State.modPwr_coll (f : PwrState → PwrState) : (s.modPwr f).coll = s.coll := rfl
@[simp] theorem State.modPwr_ue (f : PwrState → PwrState) : (s.modPwr f).ue = s.ue := rfl
@[simp] theorem State.modPwr_aec (f : PwrState → PwrState) : (s.modPwr f).aec = s.aec := rfl
@[simp] theorem State.modPwr_tf (f : PwrState → PwrState) : (s.modPwr f).tf = s.tf := rfl
@[simp] theorem State.modPwr_res (f : PwrState → PwrState) : (s.modPwr f).res = s.res := rfl
@[simp] theorem State.modPwr_cores (f : PwrState → PwrState) : (s.modPwr f).cores = s.cores := rfl
@[simp] theorem State.modPwr_pwr (f : PwrState → PwrState) : (s.modPwr f).pwr = f s.pwr := rfl
@[simp] theorem State.modPwr_mgmt (f : PwrState → PwrState) : (s.modPwr f).mgmt = s.mgmt := rfl
@[simp] theorem State.modPwr_rst (f : PwrState → PwrState) : (s.modPwr f).rst = s.rst := rfl

/-! ### setMark -/

@[simp] theorem State.setMark_pending (a m : Nat) : (s.setMark a m).pending = s.pending := rfl
@[simp] theorem State.setMark_out (a m : Nat) : (s.setMark a m).out = s.out := rfl
@[simp] theorem State.setMark_taken (a m : Nat) : (s.setMark a m).taken = s.taken := rfl
@[simp] theorem State.setMark_time (a m : Nat) : (s.setMark a m).time = s.time := rfl
@[simp] theorem State.setMark_regs (a m : Nat) : (s.setMark a m).regs = s.regs := rfl
@[simp] theorem State.setMark_tree (a m : Nat) : (s.setMark a m).tree = s.tree := rfl
@[simp] theorem State.setMark_stk (a m : Nat) : (s.setMark a m).stk = s.stk := rfl
@[simp] theorem State.setMark_cells (a m : Nat) : (s.setMark a m).cells = s.cells := rfl
@[simp] theorem State.setMark_host (a m : Nat) : (s.setMark a m).host = s.host := rfl
@[simp] theorem State.setMark_obs (a m : Nat) : (s.setMark a m).obs = s.obs := rfl
@[simp] theorem State.setMark_fab (a m : Nat) : (s.setMark a m).fab = s.fab := rfl
@[simp] theorem State.setMark_coll (a m : Nat) : (s.setMark a m).coll = s.coll := rfl
@[simp] theorem State.setMark_ue (a m : Nat) : (s.setMark a m).ue = s.ue := rfl
@[simp] theorem State.setMark_aec (a m : Nat) : (s.setMark a m).aec = s.aec := rfl
@[simp] theorem State.setMark_tf (a m : Nat) : (s.setMark a m).tf = s.tf := rfl
@[simp] theorem State.setMark_res (a m : Nat) : (s.setMark a m).res = s.res := rfl
@[simp] theorem State.setMark_cores (a m : Nat) : (s.setMark a m).cores = s.cores := rfl
@[simp] theorem State.setMark_pwr (a m : Nat) : (s.setMark a m).pwr = s.pwr := rfl
@[simp] theorem State.setMark_mgmt (a m : Nat) : (s.setMark a m).mgmt = s.mgmt := rfl
@[simp] theorem State.setMark_rst (a m : Nat) : (s.setMark a m).rst = s.rst := rfl

/-! ### rawStore -/

@[simp] theorem State.rawStore_pending (a : Nat) (bs : List Byte) : (s.rawStore a bs).pending = s.pending := rfl
@[simp] theorem State.rawStore_out (a : Nat) (bs : List Byte) : (s.rawStore a bs).out = s.out := rfl
@[simp] theorem State.rawStore_taken (a : Nat) (bs : List Byte) : (s.rawStore a bs).taken = s.taken := rfl
@[simp] theorem State.rawStore_time (a : Nat) (bs : List Byte) : (s.rawStore a bs).time = s.time := rfl
@[simp] theorem State.rawStore_regs (a : Nat) (bs : List Byte) : (s.rawStore a bs).regs = s.regs := rfl
@[simp] theorem State.rawStore_tree (a : Nat) (bs : List Byte) : (s.rawStore a bs).tree = s.tree := rfl
@[simp] theorem State.rawStore_stk (a : Nat) (bs : List Byte) : (s.rawStore a bs).stk = s.stk := rfl
@[simp] theorem State.rawStore_cells (a : Nat) (bs : List Byte) : (s.rawStore a bs).cells = s.cells := rfl
@[simp] theorem State.rawStore_host (a : Nat) (bs : List Byte) : (s.rawStore a bs).host = s.host := rfl
@[simp] theorem State.rawStore_obs (a : Nat) (bs : List Byte) : (s.rawStore a bs).obs = s.obs := rfl
@[simp] theorem State.rawStore_fab (a : Nat) (bs : List Byte) : (s.rawStore a bs).fab = s.fab := rfl
@[simp] theorem State.rawStore_coll (a : Nat) (bs : List Byte) : (s.rawStore a bs).coll = s.coll := rfl
@[simp] theorem State.rawStore_ue (a : Nat) (bs : List Byte) : (s.rawStore a bs).ue = s.ue := rfl
@[simp] theorem State.rawStore_aec (a : Nat) (bs : List Byte) : (s.rawStore a bs).aec = s.aec := rfl
@[simp] theorem State.rawStore_tf (a : Nat) (bs : List Byte) : (s.rawStore a bs).tf = s.tf := rfl
@[simp] theorem State.rawStore_res (a : Nat) (bs : List Byte) : (s.rawStore a bs).res = s.res := rfl
@[simp] theorem State.rawStore_cores (a : Nat) (bs : List Byte) : (s.rawStore a bs).cores = s.cores := rfl
@[simp] theorem State.rawStore_pwr (a : Nat) (bs : List Byte) : (s.rawStore a bs).pwr = s.pwr := rfl
@[simp] theorem State.rawStore_mgmt (a : Nat) (bs : List Byte) : (s.rawStore a bs).mgmt = s.mgmt := rfl
@[simp] theorem State.rawStore_rst (a : Nat) (bs : List Byte) : (s.rawStore a bs).rst = s.rst := rfl

/-! ### modLogs -/

@[simp] theorem State.modLogs_pending (k : Nat) (f : ErrLogs → ErrLogs) : (s.modLogs k f).pending = s.pending := rfl
@[simp] theorem State.modLogs_out (k : Nat) (f : ErrLogs → ErrLogs) : (s.modLogs k f).out = s.out := rfl
@[simp] theorem State.modLogs_taken (k : Nat) (f : ErrLogs → ErrLogs) : (s.modLogs k f).taken = s.taken := rfl
@[simp] theorem State.modLogs_time (k : Nat) (f : ErrLogs → ErrLogs) : (s.modLogs k f).time = s.time := rfl
@[simp] theorem State.modLogs_regs (k : Nat) (f : ErrLogs → ErrLogs) : (s.modLogs k f).regs = s.regs := rfl
@[simp] theorem State.modLogs_tree (k : Nat) (f : ErrLogs → ErrLogs) : (s.modLogs k f).tree = s.tree := rfl
@[simp] theorem State.modLogs_stk (k : Nat) (f : ErrLogs → ErrLogs) : (s.modLogs k f).stk = s.stk := rfl
@[simp] theorem State.modLogs_cells (k : Nat) (f : ErrLogs → ErrLogs) : (s.modLogs k f).cells = s.cells := rfl
@[simp] theorem State.modLogs_host (k : Nat) (f : ErrLogs → ErrLogs) : (s.modLogs k f).host = s.host := rfl
@[simp] theorem State.modLogs_obs (k : Nat) (f : ErrLogs → ErrLogs) : (s.modLogs k f).obs = s.obs := rfl
@[simp] theorem State.modLogs_fab (k : Nat) (f : ErrLogs → ErrLogs) : (s.modLogs k f).fab = s.fab := rfl
@[simp] theorem State.modLogs_coll (k : Nat) (f : ErrLogs → ErrLogs) : (s.modLogs k f).coll = s.coll := rfl
@[simp] theorem State.modLogs_ue (k : Nat) (f : ErrLogs → ErrLogs) : (s.modLogs k f).ue = s.ue := rfl
@[simp] theorem State.modLogs_aec (k : Nat) (f : ErrLogs → ErrLogs) : (s.modLogs k f).aec = s.aec := rfl
@[simp] theorem State.modLogs_tf (k : Nat) (f : ErrLogs → ErrLogs) : (s.modLogs k f).tf = s.tf := rfl
@[simp] theorem State.modLogs_res (k : Nat) (f : ErrLogs → ErrLogs) : (s.modLogs k f).res = s.res := rfl
@[simp] theorem State.modLogs_cores (k : Nat) (f : ErrLogs → ErrLogs) : (s.modLogs k f).cores = s.cores := rfl
@[simp] theorem State.modLogs_pwr (k : Nat) (f : ErrLogs → ErrLogs) : (s.modLogs k f).pwr = s.pwr := rfl
@[simp] theorem State.modLogs_mgmt (k : Nat) (f : ErrLogs → ErrLogs) : (s.modLogs k f).mgmt = s.mgmt := rfl
@[simp] theorem State.modLogs_rst (k : Nat) (f : ErrLogs → ErrLogs) : (s.modLogs k f).rst = s.rst := rfl

/-! ### setDm -/

@[simp] theorem State.setDm_pending (a v : Nat) : (s.setDm a v).pending = s.pending := rfl
@[simp] theorem State.setDm_out (a v : Nat) : (s.setDm a v).out = s.out := rfl
@[simp] theorem State.setDm_taken (a v : Nat) : (s.setDm a v).taken = s.taken := rfl
@[simp] theorem State.setDm_time (a v : Nat) : (s.setDm a v).time = s.time := rfl
@[simp] theorem State.setDm_regs (a v : Nat) : (s.setDm a v).regs = s.regs := rfl
@[simp] theorem State.setDm_tree (a v : Nat) : (s.setDm a v).tree = s.tree := rfl
@[simp] theorem State.setDm_mem (a v : Nat) : (s.setDm a v).mem = s.mem := rfl
@[simp] theorem State.setDm_stk (a v : Nat) : (s.setDm a v).stk = s.stk := rfl
@[simp] theorem State.setDm_cells (a v : Nat) : (s.setDm a v).cells = s.cells := rfl
@[simp] theorem State.setDm_host (a v : Nat) : (s.setDm a v).host = s.host := rfl
@[simp] theorem State.setDm_obs (a v : Nat) : (s.setDm a v).obs = s.obs := rfl
@[simp] theorem State.setDm_fab (a v : Nat) : (s.setDm a v).fab = s.fab := rfl
@[simp] theorem State.setDm_coll (a v : Nat) : (s.setDm a v).coll = s.coll := rfl
@[simp] theorem State.setDm_ue (a v : Nat) : (s.setDm a v).ue = s.ue := rfl
@[simp] theorem State.setDm_aec (a v : Nat) : (s.setDm a v).aec = s.aec := rfl
@[simp] theorem State.setDm_tf (a v : Nat) : (s.setDm a v).tf = s.tf := rfl
@[simp] theorem State.setDm_res (a v : Nat) : (s.setDm a v).res = s.res := rfl
@[simp] theorem State.setDm_pwr (a v : Nat) : (s.setDm a v).pwr = s.pwr := rfl
@[simp] theorem State.setDm_mgmt (a v : Nat) : (s.setDm a v).mgmt = s.mgmt := rfl
@[simp] theorem State.setDm_rst (a v : Nat) : (s.setDm a v).rst = s.rst := rfl

/-! ### Rings and slots -/

@[simp] theorem State.putSlot_host_sq (k : Nat) (v : Option Slot) : (s.putSlot k v).host.sq = s.host.sq := rfl
@[simp] theorem State.putSlot_host_cq (k : Nat) (v : Option Slot) : (s.putSlot k v).host.cq = s.host.cq := rfl
@[simp] theorem State.putSlot_host_msix (k : Nat) (v : Option Slot) : (s.putSlot k v).host.msix = s.host.msix := rfl
@[simp] theorem State.putSlot_host_lastServed (k : Nat) (v : Option Slot) : (s.putSlot k v).host.lastServed = s.host.lastServed := rfl
@[simp] theorem State.putSlot_host_completions (k : Nat) (v : Option Slot) : (s.putSlot k v).host.completions = s.host.completions := rfl
@[simp] theorem State.putSlot_host_accepted (k : Nat) (v : Option Slot) : (s.putSlot k v).host.accepted = s.host.accepted := rfl
@[simp] theorem State.modSlot_host_sq (k : Nat) (f : Slot → Slot) : (s.modSlot k f).host.sq = s.host.sq := rfl
@[simp] theorem State.modSlot_host_cq (k : Nat) (f : Slot → Slot) : (s.modSlot k f).host.cq = s.host.cq := rfl
@[simp] theorem State.modSlot_host_msix (k : Nat) (f : Slot → Slot) : (s.modSlot k f).host.msix = s.host.msix := rfl
@[simp] theorem State.modSlot_host_lastServed (k : Nat) (f : Slot → Slot) : (s.modSlot k f).host.lastServed = s.host.lastServed := rfl
@[simp] theorem State.modSlot_host_completions (k : Nat) (f : Slot → Slot) : (s.modSlot k f).host.completions = s.host.completions := rfl
@[simp] theorem State.modSlot_host_accepted (k : Nat) (f : Slot → Slot) : (s.modSlot k f).host.accepted = s.host.accepted := rfl
@[simp] theorem State.modSq_host_cq (r : Nat) (f : SqRing → SqRing) : (s.modSq r f).host.cq = s.host.cq := rfl
@[simp] theorem State.modSq_host_slots (r : Nat) (f : SqRing → SqRing) : (s.modSq r f).host.slots = s.host.slots := rfl
@[simp] theorem State.modSq_host_msix (r : Nat) (f : SqRing → SqRing) : (s.modSq r f).host.msix = s.host.msix := rfl
@[simp] theorem State.modSq_host_lastServed (r : Nat) (f : SqRing → SqRing) : (s.modSq r f).host.lastServed = s.host.lastServed := rfl
@[simp] theorem State.modSq_host_completions (r : Nat) (f : SqRing → SqRing) : (s.modSq r f).host.completions = s.host.completions := rfl
@[simp] theorem State.modSq_host_accepted (r : Nat) (f : SqRing → SqRing) : (s.modSq r f).host.accepted = s.host.accepted := rfl
@[simp] theorem State.modCq_host_sq (r : Nat) (f : CqRing → CqRing) : (s.modCq r f).host.sq = s.host.sq := rfl
@[simp] theorem State.modCq_host_slots (r : Nat) (f : CqRing → CqRing) : (s.modCq r f).host.slots = s.host.slots := rfl
@[simp] theorem State.modCq_host_msix (r : Nat) (f : CqRing → CqRing) : (s.modCq r f).host.msix = s.host.msix := rfl
@[simp] theorem State.modCq_host_lastServed (r : Nat) (f : CqRing → CqRing) : (s.modCq r f).host.lastServed = s.host.lastServed := rfl
@[simp] theorem State.modCq_host_completions (r : Nat) (f : CqRing → CqRing) : (s.modCq r f).host.completions = s.host.completions := rfl
@[simp] theorem State.modCq_host_accepted (r : Nat) (f : CqRing → CqRing) : (s.modCq r f).host.accepted = s.host.accepted := rfl

/-! ### What one update puts where -/

theorem State.mget_mmod_ite {α : Type} [DecidableEq α] (d : α) (m : List (Nat × α)) (k j : Nat) (f : α → α) :
    mget d (mmod d m k f) j = if j = k then f (mget d m k) else mget d m j := by
  by_cases h : j = k
  · subst h; simp
  · simp [h, mget_mmod_other]

@[simp] theorem State.slot_putSlot (k j : Nat) (v : Option Slot) : (s.putSlot k v).slot j = if j = k then v else s.slot j := by
  simp [State.slot, State.putSlot, mget_mput]

@[simp] theorem State.unit_modUnit (u v : Nat) (f : UnitState → UnitState) :
    (s.modUnit u f).unit v = if v = u then f (s.unit u) else s.unit v := by
  simp only [State.unit, State.modUnit, State.mget_mmod_ite]

@[simp] theorem State.stack_modStack (k j : Nat) (f : StackState → StackState) :
    (s.modStack k f).stack j = if j = k then f (s.stack k) else s.stack j := by
  simp only [State.stack, State.modStack, State.mget_mmod_ite]

@[simp] theorem State.cell_modCell (u v : Nat) (f : CellState → CellState) :
    (s.modCell u f).cell v = if v = u then f (s.cell u) else s.cell v := by
  simp only [State.cell, State.modCell, State.mget_mmod_ite]

@[simp] theorem State.portAt_modPort (p q : Nat) (f : PortState → PortState) :
    (s.modPort p f).portAt q = if q = p then f (s.portAt p) else s.portAt q := by
  simp only [State.portAt, State.modPort, State.mget_mmod_ite]

@[simp] theorem State.domain_modDomain (d e : Nat) (f : Domain → Domain) :
    (s.modDomain d f).domain e = if e = d then f (s.domain d) else s.domain e := by
  simp only [State.domain, State.modDomain, State.mget_mmod_ite]

@[simp] theorem State.req_putReq (n m : Nat) (r : Option Request) :
    (s.putReq n r).req m = if m = n then r else s.req m := by
  simp only [State.req, State.putReq, mget_mput]

/-! ### Reports -/

@[simp] theorem State.count_pending (u i n : Nat) : (s.count u i n).pending = s.pending := by
  rw [State.count_reported]; rfl
@[simp] theorem State.count_out (u i n : Nat) : (s.count u i n).out = s.out := by
  unfold State.count; split <;> rfl
@[simp] theorem State.count_taken (u i n : Nat) : (s.count u i n).taken = s.taken := by
  rw [State.count_reported]; rfl
@[simp] theorem State.count_time (u i n : Nat) : (s.count u i n).time = s.time := by
  rw [State.count_reported]; rfl
@[simp] theorem State.count_regs (u i n : Nat) : (s.count u i n).regs = s.regs := by
  rw [State.count_reported]; rfl
@[simp] theorem State.count_tree (u i n : Nat) : (s.count u i n).tree = s.tree := by
  rw [State.count_reported]; rfl
@[simp] theorem State.count_mem (u i n : Nat) : (s.count u i n).mem = s.mem := by
  rw [State.count_reported]; rfl
@[simp] theorem State.count_stk (u i n : Nat) : (s.count u i n).stk = s.stk := by
  rw [State.count_reported]; rfl
@[simp] theorem State.count_cells (u i n : Nat) : (s.count u i n).cells = s.cells := by
  rw [State.count_reported]; rfl
@[simp] theorem State.count_host (u i n : Nat) : (s.count u i n).host = s.host := by
  unfold State.count; split <;> rfl
@[simp] theorem State.count_fab (u i n : Nat) : (s.count u i n).fab = s.fab := by
  rw [State.count_reported]; rfl
@[simp] theorem State.count_coll (u i n : Nat) : (s.count u i n).coll = s.coll := by
  rw [State.count_reported]; rfl
@[simp] theorem State.count_ue (u i n : Nat) : (s.count u i n).ue = s.ue := by
  rw [State.count_reported]; rfl
@[simp] theorem State.count_aec (u i n : Nat) : (s.count u i n).aec = s.aec := by
  rw [State.count_reported]; rfl
@[simp] theorem State.count_tf (u i n : Nat) : (s.count u i n).tf = s.tf := by
  rw [State.count_reported]; rfl
@[simp] theorem State.count_res (u i n : Nat) : (s.count u i n).res = s.res := by
  rw [State.count_reported]; rfl
@[simp] theorem State.count_cores (u i n : Nat) : (s.count u i n).cores = s.cores := by
  rw [State.count_reported]; rfl
@[simp] theorem State.count_pwr (u i n : Nat) : (s.count u i n).pwr = s.pwr := by
  rw [State.count_reported]; rfl
@[simp] theorem State.count_mgmt (u i n : Nat) : (s.count u i n).mgmt = s.mgmt := by
  rw [State.count_reported]; rfl
@[simp] theorem State.count_rst (u i n : Nat) : (s.count u i n).rst = s.rst := by
  rw [State.count_reported]; rfl

@[simp] theorem State.sig_pending (u k a : Nat) : (s.sig u k a).pending = s.pending := by
  rw [State.sig_reported]; rfl
@[simp] theorem State.sig_out (u k a : Nat) : (s.sig u k a).out = s.out := by
  unfold State.sig; split <;> [rfl; (split <;> rfl)]
@[simp] theorem State.sig_taken (u k a : Nat) : (s.sig u k a).taken = s.taken := by
  rw [State.sig_reported]; rfl
@[simp] theorem State.sig_time (u k a : Nat) : (s.sig u k a).time = s.time := by
  rw [State.sig_reported]; rfl
@[simp] theorem State.sig_regs (u k a : Nat) : (s.sig u k a).regs = s.regs := by
  rw [State.sig_reported]; rfl
@[simp] theorem State.sig_tree (u k a : Nat) : (s.sig u k a).tree = s.tree := by
  rw [State.sig_reported]; rfl
@[simp] theorem State.sig_mem (u k a : Nat) : (s.sig u k a).mem = s.mem := by
  rw [State.sig_reported]; rfl
@[simp] theorem State.sig_stk (u k a : Nat) : (s.sig u k a).stk = s.stk := by
  rw [State.sig_reported]; rfl
@[simp] theorem State.sig_cells (u k a : Nat) : (s.sig u k a).cells = s.cells := by
  rw [State.sig_reported]; rfl
@[simp] theorem State.sig_host (u k a : Nat) : (s.sig u k a).host = s.host := by
  unfold State.sig; split <;> [rfl; (split <;> rfl)]
@[simp] theorem State.sig_fab (u k a : Nat) : (s.sig u k a).fab = s.fab := by
  rw [State.sig_reported]; rfl
@[simp] theorem State.sig_coll (u k a : Nat) : (s.sig u k a).coll = s.coll := by
  rw [State.sig_reported]; rfl
@[simp] theorem State.sig_ue (u k a : Nat) : (s.sig u k a).ue = s.ue := by
  rw [State.sig_reported]; rfl
@[simp] theorem State.sig_aec (u k a : Nat) : (s.sig u k a).aec = s.aec := by
  rw [State.sig_reported]; rfl
@[simp] theorem State.sig_tf (u k a : Nat) : (s.sig u k a).tf = s.tf := by
  rw [State.sig_reported]; rfl
@[simp] theorem State.sig_res (u k a : Nat) : (s.sig u k a).res = s.res := by
  rw [State.sig_reported]; rfl
@[simp] theorem State.sig_cores (u k a : Nat) : (s.sig u k a).cores = s.cores := by
  rw [State.sig_reported]; rfl
@[simp] theorem State.sig_pwr (u k a : Nat) : (s.sig u k a).pwr = s.pwr := by
  rw [State.sig_reported]; rfl
@[simp] theorem State.sig_mgmt (u k a : Nat) : (s.sig u k a).mgmt = s.mgmt := by
  rw [State.sig_reported]; rfl
@[simp] theorem State.sig_rst (u k a : Nat) : (s.sig u k a).rst = s.rst := by
  rw [State.sig_reported]; rfl

@[simp] theorem State.clamp_pending (c : ClampSource) (n : Nat) : (s.clamp c n).pending = s.pending := by
  rw [State.clamp_reported]; rfl
@[simp] theorem State.clamp_taken (c : ClampSource) (n : Nat) : (s.clamp c n).taken = s.taken := by
  rw [State.clamp_reported]; rfl
@[simp] theorem State.clamp_time (c : ClampSource) (n : Nat) : (s.clamp c n).time = s.time := by
  rw [State.clamp_reported]; rfl
@[simp] theorem State.clamp_regs (c : ClampSource) (n : Nat) : (s.clamp c n).regs = s.regs := by
  rw [State.clamp_reported]; rfl
@[simp] theorem State.clamp_tree (c : ClampSource) (n : Nat) : (s.clamp c n).tree = s.tree := by
  rw [State.clamp_reported]; rfl
@[simp] theorem State.clamp_mem (c : ClampSource) (n : Nat) : (s.clamp c n).mem = s.mem := by
  rw [State.clamp_reported]; rfl
@[simp] theorem State.clamp_stk (c : ClampSource) (n : Nat) : (s.clamp c n).stk = s.stk := by
  rw [State.clamp_reported]; rfl
@[simp] theorem State.clamp_cells (c : ClampSource) (n : Nat) : (s.clamp c n).cells = s.cells := by
  rw [State.clamp_reported]; rfl
@[simp] theorem State.clamp_fab (c : ClampSource) (n : Nat) : (s.clamp c n).fab = s.fab := by
  rw [State.clamp_reported]; rfl
@[simp] theorem State.clamp_coll (c : ClampSource) (n : Nat) : (s.clamp c n).coll = s.coll := by
  rw [State.clamp_reported]; rfl
@[simp] theorem State.clamp_ue (c : ClampSource) (n : Nat) : (s.clamp c n).ue = s.ue := by
  rw [State.clamp_reported]; rfl
@[simp] theorem State.clamp_aec (c : ClampSource) (n : Nat) : (s.clamp c n).aec = s.aec := by
  rw [State.clamp_reported]; rfl
@[simp] theorem State.clamp_tf (c : ClampSource) (n : Nat) : (s.clamp c n).tf = s.tf := by
  rw [State.clamp_reported]; rfl
@[simp] theorem State.clamp_res (c : ClampSource) (n : Nat) : (s.clamp c n).res = s.res := by
  rw [State.clamp_reported]; rfl
@[simp] theorem State.clamp_cores (c : ClampSource) (n : Nat) : (s.clamp c n).cores = s.cores := by
  rw [State.clamp_reported]; rfl
@[simp] theorem State.clamp_pwr (c : ClampSource) (n : Nat) : (s.clamp c n).pwr = s.pwr := by
  rw [State.clamp_reported]; rfl
@[simp] theorem State.clamp_mgmt (c : ClampSource) (n : Nat) : (s.clamp c n).mgmt = s.mgmt := by
  rw [State.clamp_reported]; rfl
@[simp] theorem State.clamp_rst (c : ClampSource) (n : Nat) : (s.clamp c n).rst = s.rst := by
  rw [State.clamp_reported]; rfl
@[simp] theorem State.clamp_host_sq (c : ClampSource) (n : Nat) : (s.clamp c n).host.sq = s.host.sq := by
  rw [State.clamp_reported]; rfl
@[simp] theorem State.clamp_host_cq (c : ClampSource) (n : Nat) : (s.clamp c n).host.cq = s.host.cq := by
  rw [State.clamp_reported]; rfl
@[simp] theorem State.clamp_host_slots (c : ClampSource) (n : Nat) : (s.clamp c n).host.slots = s.host.slots := by
  rw [State.clamp_reported]; rfl
@[simp] theorem State.clamp_host_msix (c : ClampSource) (n : Nat) : (s.clamp c n).host.msix = s.host.msix := by
  rw [State.clamp_reported]; rfl
@[simp] theorem State.clamp_host_lastServed (c : ClampSource) (n : Nat) : (s.clamp c n).host.lastServed = s.host.lastServed := by
  rw [State.clamp_reported]; rfl
@[simp] theorem State.clamp_host_completions (c : ClampSource) (n : Nat) : (s.clamp c n).host.completions = s.host.completions := by
  rw [State.clamp_reported]; rfl
@[simp] theorem State.clamp_host_accepted (c : ClampSource) (n : Nat) : (s.clamp c n).host.accepted = s.host.accepted := by
  rw [State.clamp_reported]; rfl

@[simp] theorem State.event_pending (c a : Nat) (g : Bool) : (s.event c a g).pending = s.pending := by
  rw [State.event_reported]; rfl
@[simp] theorem State.event_taken (c a : Nat) (g : Bool) : (s.event c a g).taken = s.taken := by
  rw [State.event_reported]; rfl
@[simp] theorem State.event_time (c a : Nat) (g : Bool) : (s.event c a g).time = s.time := by
  rw [State.event_reported]; rfl
@[simp] theorem State.event_regs (c a : Nat) (g : Bool) : (s.event c a g).regs = s.regs := by
  rw [State.event_reported]; rfl
@[simp] theorem State.event_tree (c a : Nat) (g : Bool) : (s.event c a g).tree = s.tree := by
  rw [State.event_reported]; rfl
@[simp] theorem State.event_mem (c a : Nat) (g : Bool) : (s.event c a g).mem = s.mem := by
  rw [State.event_reported]; rfl
@[simp] theorem State.event_stk (c a : Nat) (g : Bool) : (s.event c a g).stk = s.stk := by
  rw [State.event_reported]; rfl
@[simp] theorem State.event_cells (c a : Nat) (g : Bool) : (s.event c a g).cells = s.cells := by
  rw [State.event_reported]; rfl
@[simp] theorem State.event_fab (c a : Nat) (g : Bool) : (s.event c a g).fab = s.fab := by
  rw [State.event_reported]; rfl
@[simp] theorem State.event_coll (c a : Nat) (g : Bool) : (s.event c a g).coll = s.coll := by
  rw [State.event_reported]; rfl
@[simp] theorem State.event_ue (c a : Nat) (g : Bool) : (s.event c a g).ue = s.ue := by
  rw [State.event_reported]; rfl
@[simp] theorem State.event_aec (c a : Nat) (g : Bool) : (s.event c a g).aec = s.aec := by
  rw [State.event_reported]; rfl
@[simp] theorem State.event_tf (c a : Nat) (g : Bool) : (s.event c a g).tf = s.tf := by
  rw [State.event_reported]; rfl
@[simp] theorem State.event_res (c a : Nat) (g : Bool) : (s.event c a g).res = s.res := by
  rw [State.event_reported]; rfl
@[simp] theorem State.event_cores (c a : Nat) (g : Bool) : (s.event c a g).cores = s.cores := by
  rw [State.event_reported]; rfl
@[simp] theorem State.event_pwr (c a : Nat) (g : Bool) : (s.event c a g).pwr = s.pwr := by
  rw [State.event_reported]; rfl
@[simp] theorem State.event_mgmt (c a : Nat) (g : Bool) : (s.event c a g).mgmt = s.mgmt := by
  rw [State.event_reported]; rfl
@[simp] theorem State.event_rst (c a : Nat) (g : Bool) : (s.event c a g).rst = s.rst := by
  rw [State.event_reported]; rfl
@[simp] theorem State.event_host_sq (c a : Nat) (g : Bool) : (s.event c a g).host.sq = s.host.sq := by
  rw [State.event_reported]; rfl
@[simp] theorem State.event_host_cq (c a : Nat) (g : Bool) : (s.event c a g).host.cq = s.host.cq := by
  rw [State.event_reported]; rfl
@[simp] theorem State.event_host_slots (c a : Nat) (g : Bool) : (s.event c a g).host.slots = s.host.slots := by
  rw [State.event_reported]; rfl
@[simp] theorem State.event_host_msix (c a : Nat) (g : Bool) : (s.event c a g).host.msix = s.host.msix := by
  rw [State.event_reported]; rfl
@[simp] theorem State.event_host_lastServed (c a : Nat) (g : Bool) : (s.event c a g).host.lastServed = s.host.lastServed := by
  rw [State.event_reported]; rfl
@[simp] theorem State.event_host_completions (c a : Nat) (g : Bool) : (s.event c a g).host.completions = s.host.completions := by
  rw [State.event_reported]; rfl
@[simp] theorem State.event_host_accepted (c a : Nat) (g : Bool) : (s.event c a g).host.accepted = s.host.accepted := by
  rw [State.event_reported]; rfl

@[simp] theorem State.platform_pending (n v : Nat) : (s.platform n v).pending = s.pending := by
  rw [State.platform_reported]; rfl
@[simp] theorem State.platform_taken (n v : Nat) : (s.platform n v).taken = s.taken := by
  rw [State.platform_reported]; rfl
@[simp] theorem State.platform_time (n v : Nat) : (s.platform n v).time = s.time := by
  rw [State.platform_reported]; rfl
@[simp] theorem State.platform_regs (n v : Nat) : (s.platform n v).regs = s.regs := by
  rw [State.platform_reported]; rfl
@[simp] theorem State.platform_tree (n v : Nat) : (s.platform n v).tree = s.tree := by
  rw [State.platform_reported]; rfl
@[simp] theorem State.platform_mem (n v : Nat) : (s.platform n v).mem = s.mem := by
  rw [State.platform_reported]; rfl
@[simp] theorem State.platform_stk (n v : Nat) : (s.platform n v).stk = s.stk := by
  rw [State.platform_reported]; rfl
@[simp] theorem State.platform_cells (n v : Nat) : (s.platform n v).cells = s.cells := by
  rw [State.platform_reported]; rfl
@[simp] theorem State.platform_host (n v : Nat) : (s.platform n v).host = s.host := by
  unfold State.platform; split <;> rfl
@[simp] theorem State.platform_obs (n v : Nat) : (s.platform n v).obs = s.obs := by
  unfold State.platform; split <;> rfl
@[simp] theorem State.platform_fab (n v : Nat) : (s.platform n v).fab = s.fab := by
  rw [State.platform_reported]; rfl
@[simp] theorem State.platform_coll (n v : Nat) : (s.platform n v).coll = s.coll := by
  rw [State.platform_reported]; rfl
@[simp] theorem State.platform_ue (n v : Nat) : (s.platform n v).ue = s.ue := by
  rw [State.platform_reported]; rfl
@[simp] theorem State.platform_aec (n v : Nat) : (s.platform n v).aec = s.aec := by
  rw [State.platform_reported]; rfl
@[simp] theorem State.platform_tf (n v : Nat) : (s.platform n v).tf = s.tf := by
  rw [State.platform_reported]; rfl
@[simp] theorem State.platform_res (n v : Nat) : (s.platform n v).res = s.res := by
  rw [State.platform_reported]; rfl
@[simp] theorem State.platform_cores (n v : Nat) : (s.platform n v).cores = s.cores := by
  rw [State.platform_reported]; rfl
@[simp] theorem State.platform_pwr (n v : Nat) : (s.platform n v).pwr = s.pwr := by
  rw [State.platform_reported]; rfl
@[simp] theorem State.platform_mgmt (n v : Nat) : (s.platform n v).mgmt = s.mgmt := by
  rw [State.platform_reported]; rfl
@[simp] theorem State.platform_rst (n v : Nat) : (s.platform n v).rst = s.rst := by
  rw [State.platform_reported]; rfl

end Sys2Proof.Machine
end

