-- ==== Sys2Proof/Laws/Works.lean ====
section
/-! SUPPORT. What the work of a descriptor leaves alone while it runs in holding slot k, as one relation between the state
before and after: every other slot, the clocks, registers, rings, ports and stacks. It composes, so that one lemma for each
operation gives the frame of a whole command. -/

namespace Sys2Proof.Machine

theorem Works.refl (k : Nat) (s : State) : Works k s s :=
  ⟨⟨rfl, fun _ _ _ _ => rfl⟩, ⟨rfl, rfl, rfl, rfl, rfl, rfl, rfl, rfl, rfl⟩, ⟨rfl, rfl, rfl, rfl⟩, fun _ _ => rfl, .inl rfl⟩

theorem Works.stamp {k : Nat} {s t : State} (h : Works k s t) : t.stamp = s.stamp := by
  unfold State.stamp; rw [h.same.2.1]

theorem Works.trans {k : Nat} {r s t : State} (a : Works k r s) (b : Works k s t) : Works k r t := by
  obtain ⟨a1, a2, a4, a5, a6, a7, a8, a9, a10⟩ := a.same
  obtain ⟨b1, b2, b4, b5, b6, b7, b8, b9, b10⟩ := b.same
  obtain ⟨c1, c2, c3, c4⟩ := a.rings
  obtain ⟨d1, d2, d3, d4⟩ := b.rings
  refine ⟨⟨b.regs.1.trans a.regs.1, fun o i h1 h2 => (b.regs.2 o i h1 h2).trans (a.regs.2 o i h1 h2)⟩,
    ⟨b1.trans a1, b2.trans a2, b4.trans a4, b5.trans a5, b6.trans a6, b7.trans a7, b8.trans a8,
    b9.trans a9, b10.trans a10⟩, ⟨d1.trans c1, d2.trans c2, d3.trans c3, d4.trans c4⟩,
    fun j hj => (b.others j hj).trans (a.others j hj), ?_⟩
  rcases b.own with hb | ⟨sl, sl', st, n, v, h1, h2, h3, h4, h5⟩
  · rcases a.own with ha | ⟨sl, sl', st, n, v, h1, h2, h3, h4, h5⟩
    · exact .inl (hb.trans ha)
    · exact .inr ⟨sl, sl', st, n, v, h1, hb.trans h2, h3, h4, h5⟩
  · rcases a.own with ha | ⟨tl, tl', st', n', v', g1, g2, g3, g4, g5⟩
    · exact .inr ⟨sl, sl', st, n, v, ha ▸ h1, h2, h3, h4, a.stamp ▸ h5⟩
    · have : tl' = sl := by rw [g2] at h1; exact Option.some.inj h1
      subst this
      exact .inr ⟨tl, sl', st, n, v, g1, h2, h3, h4.trans g4, by rw [h5, g4, a.stamp]⟩

/-- The form of a state after a record update. -/
theorem Works.upd {k : Nat} {s t : State} (h : Works k s t) {pending out taken time regs tree mem stk cells host obs fab coll ue
    aec tf res cores pwr mgmt rst} (h1 : pending = t.pending) (h2 : time = t.time) (h3 : regs = t.regs) (h4 : stk = t.stk)
    (h5 : fab = t.fab) (h6 : coll = t.coll) (h7 : cores = t.cores) (h8 : pwr = t.pwr) (h9 : mgmt = t.mgmt) (h10 : rst = t.rst)
    (h11 : host.sq = t.host.sq) (h12 : host.cq = t.host.cq) (h13 : host.msix = t.host.msix)
    (h14 : host.lastServed = t.host.lastServed) (h15 : host.slots = t.host.slots) :
    Works k s (State.mk pending out taken time regs tree mem stk cells host obs fab coll ue aec tf res cores pwr mgmt rst) := by
  refine h.trans ⟨h3 ▸ ⟨rfl, fun _ _ _ _ => rfl⟩, ⟨h1, h2, h4, h5, h6, h7, h8, h9, h10⟩, ⟨h11, h12, h13, h14⟩, fun j _ => ?_, .inl ?_⟩
  · show mget none host.slots j = _; rw [h15]; rfl
  · show mget none host.slots k = _; rw [h15]; rfl

/-- An intermediate state. -/
theorem Works.cut {k : Nat} {s x : State} {P : Prop} (hx : Works k s x) (hp : Works k s x → P) : P := hp hx

theorem Works.pair {k : Nat} {s t : State} {α : Type} (a : α) (h : Works k s t) : Works k s (a, t).2 := h

theorem Works.pair2 {k : Nat} {s t : State} {α β : Type} (a : α) (b : β) (h : Works k s t) : Works k s (a, b, t).2.2 := h

theorem Works.of_snd {k : Nat} {s t : State} {α : Type} {p : α × State} {a : α} (e : p = (a, t)) (h : Works k s p.2) :
    Works k s t := by
  rw [e] at h; exact h

theorem Works.of_snd2 {k : Nat} {s t : State} {α β : Type} {p : α × β × State} {a : α} {b : β} (e : p = (a, b, t))
    (h : Works k s p.2.2) : Works k s t := by
  rw [e] at h; exact h

theorem Works.of_snd3 {k : Nat} {s t : State} {α β γ : Type} {p : α × β × γ × State} {a : α} {b : β} {c : γ}
    (e : p = (a, b, c, t)) (h : Works k s p.2.2.2) : Works k s t := by
  rw [e] at h; exact h

theorem Works.of_snd4 {k : Nat} {s t : State} {α β γ δ : Type} {p : α × β × γ × δ × State} {a : α} {b : β} {c : γ} {d : δ}
    (e : p = (a, b, c, d, t)) (h : Works k s p.2.2.2.2) : Works k s t := by
  rw [e] at h; exact h

theorem Works.foldl {k : Nat} {s : State} {β : Type} (f : State → β → State) (hf : ∀ t x, Works k s t → Works k s (f t x)) :
    ∀ (l : List β) (t : State), Works k s t → Works k s (l.foldl f t)
  | [], _, h => h
  | x :: l, t, h => Works.foldl f hf l (f t x) (hf t x h)

theorem Works.foldl_mem {k : Nat} {s : State} {β : Type} (f : State → β → State) :
    ∀ (l : List β) (t : State), (∀ t x, x ∈ l → Works k s t → Works k s (f t x)) → Works k s t → Works k s (l.foldl f t)
  | [], _, _, h => h
  | x :: l, t, hf, h => Works.foldl_mem f l (f t x) (fun t y hy ht => hf t y (List.mem_cons_of_mem _ hy) ht)
      (hf t x List.mem_cons_self h)

theorem Works.foldl2 {k : Nat} {s : State} {α β : Type} (f : α × State → β → α × State)
    (hf : ∀ p x, Works k s p.2 → Works k s (f p x).2) :
    ∀ (l : List β) (p : α × State), Works k s p.2 → Works k s (l.foldl f p).2
  | [], _, h => h
  | x :: l, p, h => Works.foldl2 f hf l (f p x) (hf p x h)

theorem Works.foldl3 {k : Nat} {s : State} {α β γ : Type} (f : α × γ × State → β → α × γ × State)
    (hf : ∀ p x, Works k s p.2.2 → Works k s (f p x).2.2) :
    ∀ (l : List β) (p : α × γ × State), Works k s p.2.2 → Works k s (l.foldl f p).2.2
  | [], _, h => h
  | x :: l, p, h => Works.foldl3 f hf l (f p x) (hf p x h)

theorem Works.foldl4 {k : Nat} {s : State} {α β γ δ : Type} (f : α × γ × δ × State → β → α × γ × δ × State)
    (hf : ∀ p x, Works k s p.2.2.2 → Works k s (f p x).2.2.2) :
    ∀ (l : List β) (p : α × γ × δ × State), Works k s p.2.2.2 → Works k s (l.foldl f p).2.2.2
  | [], _, h => h
  | x :: l, p, h => Works.foldl4 f hf l (f p x) (hf p x h)

theorem Works.foldl5 {k : Nat} {s : State} {α β γ δ ε : Type} (f : α × γ × δ × ε × State → β → α × γ × δ × ε × State)
    (hf : ∀ p x, Works k s p.2.2.2.2 → Works k s (f p x).2.2.2.2) :
    ∀ (l : List β) (p : α × γ × δ × ε × State), Works k s p.2.2.2.2 → Works k s (l.foldl f p).2.2.2.2
  | [], _, h => h
  | x :: l, p, h => Works.foldl5 f hf l (f p x) (hf p x h)

theorem Works.ite {k : Nat} {s a b : State} {c : Prop} [Decidable c] (ha : Works k s a) (hb : Works k s b) :
    Works k s (if c then a else b) := by
  split
  · exact ha
  · exact hb

theorem Works.ite1 {k : Nat} {s : State} {α : Type} {a b : α × State} {c : Prop} [Decidable c] (ha : Works k s a.2)
    (hb : Works k s b.2) : Works k s (if c then a else b).2 := by
  split
  · exact ha
  · exact hb

theorem Works.ite2 {k : Nat} {s : State} {α β : Type} {a b : α × β × State} {c : Prop} [Decidable c] (ha : Works k s a.2.2)
    (hb : Works k s b.2.2) : Works k s (if c then a else b).2.2 := by
  split
  · exact ha
  · exact hb

theorem Works.ite3 {k : Nat} {s : State} {α β γ : Type} {a b : α × β × γ × State} {c : Prop} [Decidable c]
    (ha : Works k s a.2.2.2) (hb : Works k s b.2.2.2) : Works k s (if c then a else b).2.2.2 := by
  split
  · exact ha
  · exact hb

theorem Works.ite4 {k : Nat} {s : State} {α β γ δ : Type} {a b : α × β × γ × δ × State} {c : Prop} [Decidable c]
    (ha : Works k s a.2.2.2.2) (hb : Works k s b.2.2.2.2) : Works k s (if c then a else b).2.2.2.2 := by
  split
  · exact ha
  · exact hb

end Sys2Proof.Machine
end

