-- ==== Sys2Proof/Laws/WorksOps.lean ====
section
/-! SUPPORT. What the operations of Machine/Ops.lean leave alone (Laws/Works.lean), one lemma for each. -/

namespace Sys2Proof.Machine

theorem State.free_works {k0 : Nat} {s0 : State} (s : State) (h : Works k0 s0 s) : Works k0 s0 (s.free).2 :=
  Works.upd h rfl rfl rfl rfl rfl rfl rfl rfl rfl rfl rfl rfl rfl rfl rfl

theorem State.freeBytes_works {k0 : Nat} {s0 : State} (s : State) (n : Nat) (h : Works k0 s0 s) : Works k0 s0 (s.freeBytes n).2 :=
  Works.upd h rfl rfl rfl rfl rfl rfl rfl rfl rfl rfl rfl rfl rfl rfl rfl

theorem State.onWrite_works {k0 : Nat} {s0 : State} (s : State) (f : State → State) (hk_f : ∀ t, Works k0 s0 t → Works k0 s0 (f t)) (hs0 : Works k0 s0 s) : Works k0 s0 (State.onWrite s f) := by
  unfold State.onWrite
  repeat' (first
      | (intro (x : State); refine Works.cut (k := k0) (s := s0) (x := x) ?_ ?_ <;> [(subst x); (clear_value x; intro _)])
      | intro (x : MemState)
      | intro (x : TreeState)
      | intro (x : MgmtState)
      | (intro (x : State → State); subst x)
      | (intro (x : State → _ × State); subst x)
      | (intro (x : _ → State); subst x)
      | (intro (x : _ → _ → State); subst x)
      | intro (x : HostState)
      | (intro x; clear_value x)
      | intro _
      | with_reducible assumption
      | with_reducible apply hk_f
      | with_reducible refine Works.ite ?_ ?_
      | with_reducible refine Works.ite1 ?_ ?_
      | with_reducible refine Works.ite2 ?_ ?_
      | with_reducible refine Works.ite3 ?_ ?_
      | with_reducible refine Works.ite4 ?_ ?_
      | fail_if_no_progress (with_reducible refine Works.upd ?_ rfl rfl rfl rfl rfl rfl rfl rfl rfl rfl rfl rfl rfl rfl rfl)
      | split
      | exact le_rfl
      | rfl
      | dsimp -zeta only)

theorem State.emit_works {k0 : Nat} {s0 : State} (s : State) (o : Output) (h : Works k0 s0 s) : Works k0 s0 (s.emit o) :=
  Works.upd h rfl rfl rfl rfl rfl rfl rfl rfl rfl rfl rfl rfl rfl rfl rfl

theorem State.onRead_works {k0 : Nat} {s0 : State} (s : State) (v : Nat) (f : State → State) (hk_f : ∀ t, Works k0 s0 t → Works k0 s0 (f t)) (hs0 : Works k0 s0 s) : Works k0 s0 (State.onRead s v f) := by
  unfold State.onRead
  repeat' (first
      | (intro (x : State); refine Works.cut (k := k0) (s := s0) (x := x) ?_ ?_ <;> [(subst x); (clear_value x; intro _)])
      | intro (x : MemState)
      | intro (x : TreeState)
      | intro (x : MgmtState)
      | (intro (x : State → State); subst x)
      | (intro (x : State → _ × State); subst x)
      | (intro (x : _ → State); subst x)
      | (intro (x : _ → _ → State); subst x)
      | intro (x : HostState)
      | (intro x; clear_value x)
      | intro _
      | with_reducible assumption
      | with_reducible apply State.emit_works
      | with_reducible apply hk_f
      | with_reducible refine Works.ite ?_ ?_
      | with_reducible refine Works.ite1 ?_ ?_
      | with_reducible refine Works.ite2 ?_ ?_
      | with_reducible refine Works.ite3 ?_ ?_
      | with_reducible refine Works.ite4 ?_ ?_
      | fail_if_no_progress (with_reducible refine Works.upd ?_ rfl rfl rfl rfl rfl rfl rfl rfl rfl rfl rfl rfl rfl rfl rfl)
      | split
      | exact le_rfl
      | rfl
      | dsimp -zeta only)

theorem State.platform_works {k0 : Nat} {s0 : State} (s : State) (sensor : Nat) (value : Nat) (hs0 : Works k0 s0 s) : Works k0 s0 (State.platform s sensor value) := by
  unfold State.platform
  repeat' (first
      | (intro (x : State); refine Works.cut (k := k0) (s := s0) (x := x) ?_ ?_ <;> [(subst x); (clear_value x; intro _)])
      | intro (x : MemState)
      | intro (x : TreeState)
      | intro (x : MgmtState)
      | (intro (x : State → State); subst x)
      | (intro (x : State → _ × State); subst x)
      | (intro (x : _ → State); subst x)
      | (intro (x : _ → _ → State); subst x)
      | intro (x : HostState)
      | (intro x; clear_value x)
      | intro _
      | with_reducible assumption
      | with_reducible apply State.emit_works
      | with_reducible refine Works.ite ?_ ?_
      | with_reducible refine Works.ite1 ?_ ?_
      | with_reducible refine Works.ite2 ?_ ?_
      | with_reducible refine Works.ite3 ?_ ?_
      | with_reducible refine Works.ite4 ?_ ?_
      | fail_if_no_progress (with_reducible refine Works.upd ?_ rfl rfl rfl rfl rfl rfl rfl rfl rfl rfl rfl rfl rfl rfl rfl)
      | split
      | exact le_rfl
      | rfl
      | dsimp -zeta only)

theorem State.tellState_works {k0 : Nat} {s0 : State} (s : State) (old : State) (hs0 : Works k0 s0 s) : Works k0 s0 (State.tellState s old) := by
  unfold State.tellState
  repeat' (first
      | (intro (x : State); refine Works.cut (k := k0) (s := s0) (x := x) ?_ ?_ <;> [(subst x); (clear_value x; intro _)])
      | intro (x : MemState)
      | intro (x : TreeState)
      | intro (x : MgmtState)
      | (intro (x : State → State); subst x)
      | (intro (x : State → _ × State); subst x)
      | (intro (x : _ → State); subst x)
      | (intro (x : _ → _ → State); subst x)
      | intro (x : HostState)
      | (intro x; clear_value x)
      | intro _
      | with_reducible assumption
      | with_reducible apply State.platform_works
      | with_reducible refine Works.ite ?_ ?_
      | with_reducible refine Works.ite1 ?_ ?_
      | with_reducible refine Works.ite2 ?_ ?_
      | with_reducible refine Works.ite3 ?_ ?_
      | with_reducible refine Works.ite4 ?_ ?_
      | fail_if_no_progress (with_reducible refine Works.upd ?_ rfl rfl rfl rfl rfl rfl rfl rfl rfl rfl rfl rfl rfl rfl rfl)
      | split
      | exact le_rfl
      | rfl
      | dsimp -zeta only)

theorem State.tellQuality_works {k0 : Nat} {s0 : State} (s : State) (old : State) (hs0 : Works k0 s0 s) : Works k0 s0 (State.tellQuality s old) := by
  unfold State.tellQuality
  repeat' (first
      | (intro (x : State); refine Works.cut (k := k0) (s := s0) (x := x) ?_ ?_ <;> [(subst x); (clear_value x; intro _)])
      | intro (x : MemState)
      | intro (x : TreeState)
      | intro (x : MgmtState)
      | (intro (x : State → State); subst x)
      | (intro (x : State → _ × State); subst x)
      | (intro (x : _ → State); subst x)
      | (intro (x : _ → _ → State); subst x)
      | intro (x : HostState)
      | (intro x; clear_value x)
      | intro _
      | with_reducible assumption
      | with_reducible apply State.platform_works
      | with_reducible refine Works.ite ?_ ?_
      | with_reducible refine Works.ite1 ?_ ?_
      | with_reducible refine Works.ite2 ?_ ?_
      | with_reducible refine Works.ite3 ?_ ?_
      | with_reducible refine Works.ite4 ?_ ?_
      | (with_reducible refine Works.of_snd (by assumption) ?_)
      | (with_reducible refine Works.of_snd2 (by assumption) ?_)
      | (with_reducible refine Works.of_snd3 (by assumption) ?_)
      | (with_reducible refine Works.of_snd4 (by assumption) ?_)
      | fail_if_no_progress (with_reducible refine Works.upd ?_ rfl rfl rfl rfl rfl rfl rfl rfl rfl rfl rfl rfl rfl rfl rfl)
      | split
      | exact le_rfl
      | rfl
      | dsimp -zeta only)

theorem State.modUnit_works {k0 : Nat} {s0 : State} (s : State) (u : Nat) (f : UnitState → UnitState) (hs0 : Works k0 s0 s) : Works k0 s0 (State.modUnit s u f) := by
  unfold State.modUnit
  repeat' (first
      | (intro (x : State); refine Works.cut (k := k0) (s := s0) (x := x) ?_ ?_ <;> [(subst x); (clear_value x; intro _)])
      | intro (x : MemState)
      | intro (x : TreeState)
      | intro (x : MgmtState)
      | (intro (x : State → State); subst x)
      | (intro (x : State → _ × State); subst x)
      | (intro (x : _ → State); subst x)
      | (intro (x : _ → _ → State); subst x)
      | intro (x : HostState)
      | (intro x; clear_value x)
      | intro _
      | with_reducible assumption
      | fail_if_no_progress (with_reducible refine Works.upd ?_ rfl rfl rfl rfl rfl rfl rfl rfl rfl rfl rfl rfl rfl rfl rfl)
      | exact le_rfl
      | rfl
      | dsimp -zeta only)

theorem State.modCell_works {k0 : Nat} {s0 : State} (s : State) (u : Nat) (f : CellState → CellState) (hs0 : Works k0 s0 s) : Works k0 s0 (State.modCell s u f) := by
  unfold State.modCell
  repeat' (first
      | (intro (x : State); refine Works.cut (k := k0) (s := s0) (x := x) ?_ ?_ <;> [(subst x); (clear_value x; intro _)])
      | intro (x : MemState)
      | intro (x : TreeState)
      | intro (x : MgmtState)
      | (intro (x : State → State); subst x)
      | (intro (x : State → _ × State); subst x)
      | (intro (x : _ → State); subst x)
      | (intro (x : _ → _ → State); subst x)
      | intro (x : HostState)
      | (intro x; clear_value x)
      | intro _
      | with_reducible assumption
      | fail_if_no_progress (with_reducible refine Works.upd ?_ rfl rfl rfl rfl rfl rfl rfl rfl rfl rfl rfl rfl rfl rfl rfl)
      | exact le_rfl
      | rfl
      | dsimp -zeta only)

theorem State.count_works {k0 : Nat} {s0 : State} (s : State) (u : Nat) (id : Nat) (n : Nat) (hs0 : Works k0 s0 s) : Works k0 s0 (State.count s u id n) := by
  unfold State.count
  repeat' (first
      | (intro (x : State); refine Works.cut (k := k0) (s := s0) (x := x) ?_ ?_ <;> [(subst x); (clear_value x; intro _)])
      | intro (x : MemState)
      | intro (x : TreeState)
      | intro (x : MgmtState)
      | (intro (x : State → State); subst x)
      | (intro (x : State → _ × State); subst x)
      | (intro (x : _ → State); subst x)
      | (intro (x : _ → _ → State); subst x)
      | intro (x : HostState)
      | (intro x; clear_value x)
      | intro _
      | with_reducible assumption
      | with_reducible refine Works.ite ?_ ?_
      | with_reducible refine Works.ite1 ?_ ?_
      | with_reducible refine Works.ite2 ?_ ?_
      | with_reducible refine Works.ite3 ?_ ?_
      | with_reducible refine Works.ite4 ?_ ?_
      | fail_if_no_progress (with_reducible refine Works.upd ?_ rfl rfl rfl rfl rfl rfl rfl rfl rfl rfl rfl rfl rfl rfl rfl)
      | split
      | exact le_rfl
      | rfl
      | dsimp -zeta only)

theorem State.clamp_works {k0 : Nat} {s0 : State} (s : State) (src : ClampSource) (n : Nat) (hs0 : Works k0 s0 s) : Works k0 s0 (State.clamp s src n) := by
  unfold State.clamp
  repeat' (first
      | (intro (x : State); refine Works.cut (k := k0) (s := s0) (x := x) ?_ ?_ <;> [(subst x); (clear_value x; intro _)])
      | intro (x : MemState)
      | intro (x : TreeState)
      | intro (x : MgmtState)
      | (intro (x : State → State); subst x)
      | (intro (x : State → _ × State); subst x)
      | (intro (x : _ → State); subst x)
      | (intro (x : _ → _ → State); subst x)
      | intro (x : HostState)
      | (intro x; clear_value x)
      | intro _
      | with_reducible assumption
      | with_reducible apply State.count_works
      | lift_lets -underBinder
      | with_reducible refine Works.ite ?_ ?_
      | with_reducible refine Works.ite1 ?_ ?_
      | with_reducible refine Works.ite2 ?_ ?_
      | with_reducible refine Works.ite3 ?_ ?_
      | with_reducible refine Works.ite4 ?_ ?_
      | fail_if_no_progress (with_reducible refine Works.upd ?_ rfl rfl rfl rfl rfl rfl rfl rfl rfl rfl rfl rfl rfl rfl rfl)
      | split
      | exact le_rfl
      | rfl
      | dsimp -zeta only)

theorem State.sig_works {k0 : Nat} {s0 : State} (s : State) (u : Nat) (kind : Nat) (arg : Nat) (hs0 : Works k0 s0 s) : Works k0 s0 (State.sig s u kind arg) := by
  unfold State.sig
  repeat' (first
      | (intro (x : State); refine Works.cut (k := k0) (s := s0) (x := x) ?_ ?_ <;> [(subst x); (clear_value x; intro _)])
      | intro (x : MemState)
      | intro (x : TreeState)
      | intro (x : MgmtState)
      | (intro (x : State → State); subst x)
      | (intro (x : State → _ × State); subst x)
      | (intro (x : _ → State); subst x)
      | (intro (x : _ → _ → State); subst x)
      | intro (x : HostState)
      | (intro x; clear_value x)
      | intro _
      | with_reducible assumption
      | with_reducible apply State.count_works
      | with_reducible refine Works.ite ?_ ?_
      | with_reducible refine Works.ite1 ?_ ?_
      | with_reducible refine Works.ite2 ?_ ?_
      | with_reducible refine Works.ite3 ?_ ?_
      | with_reducible refine Works.ite4 ?_ ?_
      | fail_if_no_progress (with_reducible refine Works.upd ?_ rfl rfl rfl rfl rfl rfl rfl rfl rfl rfl rfl rfl rfl rfl rfl)
      | split
      | exact le_rfl
      | rfl
      | dsimp -zeta only)

theorem State.bufferEvent_works {k0 : Nat} {s0 : State} (s : State) (rec : List Byte) (hs0 : Works k0 s0 s) : Works k0 s0 (State.bufferEvent s rec) := by
  unfold State.bufferEvent
  repeat' (first
      | (intro (x : State); refine Works.cut (k := k0) (s := s0) (x := x) ?_ ?_ <;> [(subst x); (clear_value x; intro _)])
      | intro (x : MemState)
      | intro (x : TreeState)
      | intro (x : MgmtState)
      | (intro (x : State → State); subst x)
      | (intro (x : State → _ × State); subst x)
      | (intro (x : _ → State); subst x)
      | (intro (x : _ → _ → State); subst x)
      | intro (x : HostState)
      | (intro x; clear_value x)
      | intro _
      | with_reducible assumption
      | with_reducible apply State.count_works
      | lift_lets -underBinder
      | with_reducible refine Works.ite ?_ ?_
      | with_reducible refine Works.ite1 ?_ ?_
      | with_reducible refine Works.ite2 ?_ ?_
      | with_reducible refine Works.ite3 ?_ ?_
      | with_reducible refine Works.ite4 ?_ ?_
      | fail_if_no_progress (with_reducible refine Works.upd ?_ rfl rfl rfl rfl rfl rfl rfl rfl rfl rfl rfl rfl rfl rfl rfl)
      | split
      | exact le_rfl
      | rfl
      | dsimp -zeta only)

theorem State.event_works {k0 : Nat} {s0 : State} (s : State) (code : Nat) (arg : Nat) (urgent : Bool) (hs0 : Works k0 s0 s) : Works k0 s0 (State.event s code arg urgent) := by
  unfold State.event
  repeat' (first
      | (intro (x : State); refine Works.cut (k := k0) (s := s0) (x := x) ?_ ?_ <;> [(subst x); (clear_value x; intro _)])
      | intro (x : MemState)
      | intro (x : TreeState)
      | intro (x : MgmtState)
      | (intro (x : State → State); subst x)
      | (intro (x : State → _ × State); subst x)
      | (intro (x : _ → State); subst x)
      | (intro (x : _ → _ → State); subst x)
      | intro (x : HostState)
      | (intro x; clear_value x)
      | intro _
      | with_reducible assumption
      | with_reducible apply State.bufferEvent_works
      | fail_if_no_progress (with_reducible refine Works.upd ?_ rfl rfl rfl rfl rfl rfl rfl rfl rfl rfl rfl rfl rfl rfl rfl)
      | exact le_rfl
      | rfl
      | dsimp -zeta only)

theorem State.treeChanged_works {k0 : Nat} {s0 : State} (s : State) (hs0 : Works k0 s0 s) : Works k0 s0 (State.treeChanged s) := by
  unfold State.treeChanged
  repeat' (first
      | (intro (x : State); refine Works.cut (k := k0) (s := s0) (x := x) ?_ ?_ <;> [(subst x); (clear_value x; intro _)])
      | intro (x : MemState)
      | intro (x : TreeState)
      | intro (x : MgmtState)
      | (intro (x : State → State); subst x)
      | (intro (x : State → _ × State); subst x)
      | (intro (x : _ → State); subst x)
      | (intro (x : _ → _ → State); subst x)
      | intro (x : HostState)
      | (intro x; clear_value x)
      | intro _
      | with_reducible assumption
      | with_reducible apply State.event_works
      | lift_lets -underBinder
      | fail_if_no_progress (with_reducible refine Works.upd ?_ rfl rfl rfl rfl rfl rfl rfl rfl rfl rfl rfl rfl rfl rfl rfl)
      | exact le_rfl
      | rfl
      | dsimp -zeta only)

theorem State.setState_works {k0 : Nat} {s0 : State} (s : State) (u : Nat) (st : NodeState) (hs0 : Works k0 s0 s) : Works k0 s0 (State.setState s u st) := by
  unfold State.setState
  repeat' (first
      | (intro (x : State); refine Works.cut (k := k0) (s := s0) (x := x) ?_ ?_ <;> [(subst x); (clear_value x; intro _)])
      | intro (x : MemState)
      | intro (x : TreeState)
      | intro (x : MgmtState)
      | (intro (x : State → State); subst x)
      | (intro (x : State → _ × State); subst x)
      | (intro (x : _ → State); subst x)
      | (intro (x : _ → _ → State); subst x)
      | intro (x : HostState)
      | (intro x; clear_value x)
      | intro _
      | with_reducible assumption
      | with_reducible apply State.treeChanged_works
      | with_reducible apply State.sig_works
      | with_reducible apply State.modUnit_works
      | lift_lets -underBinder
      | with_reducible refine Works.ite ?_ ?_
      | with_reducible refine Works.ite1 ?_ ?_
      | with_reducible refine Works.ite2 ?_ ?_
      | with_reducible refine Works.ite3 ?_ ?_
      | with_reducible refine Works.ite4 ?_ ?_
      | fail_if_no_progress (with_reducible refine Works.upd ?_ rfl rfl rfl rfl rfl rfl rfl rfl rfl rfl rfl rfl rfl rfl rfl)
      | split
      | exact le_rfl
      | rfl
      | dsimp -zeta only)

end Sys2Proof.Machine
end

