-- ==== Sys2Proof/Laws/WorksMemory.lean ====
section
/-! SUPPORT. What the operations of Machine/Memory.lean leave alone (Laws/Works.lean), one lemma for each. -/

namespace Sys2Proof.Machine

theorem State.setMark_works {k0 : Nat} {s0 : State} (s : State) (base m : Nat) (h : Works k0 s0 s) : Works k0 s0 (s.setMark base m) :=
  Works.upd h rfl rfl rfl rfl rfl rfl rfl rfl rfl rfl rfl rfl rfl rfl rfl

theorem State.rawStore_works {k0 : Nat} {s0 : State} (s : State) (a : Nat) (bs : List Byte) (h : Works k0 s0 s) :
    Works k0 s0 (s.rawStore a bs) :=
  Works.upd h rfl rfl rfl rfl rfl rfl rfl rfl rfl rfl rfl rfl rfl rfl rfl

theorem State.modLogs_works {k0 : Nat} {s0 : State} (s : State) (key : Nat) (f : ErrLogs → ErrLogs) (hs0 : Works k0 s0 s) : Works k0 s0 (State.modLogs s key f) := by
  unfold State.modLogs
  repeat' (first
      | (intro (x : State); refine Works.cut (k := k0) (s := s0) (x := x) ?_ ?_ <;> [(subst x); (clear_value x; intro _)])
      | intro (x : MemState)
      | intro (x : TreeState)
      | intro (x : MgmtState)
      | (intro (x : State → State); subst x)
      | (intro (x : State → _ × State); subst x)
      | (intro (x : _ → State); subst x)
      | (intro (x : _ → _ → State); subst x)
      | intro (x : HostState)
      | (intro x; clear_value x)
      | intro _
      | with_reducible assumption
      | fail_if_no_progress (with_reducible refine Works.upd ?_ rfl rfl rfl rfl rfl rfl rfl rfl rfl rfl rfl rfl rfl rfl rfl)
      | exact le_rfl
      | rfl
      | dsimp -zeta only)

theorem State.reportCe_works {k0 : Nat} {s0 : State} (s : State) (base : Nat) (syn : Nat) (finder : Nat) (hs0 : Works k0 s0 s) : Works k0 s0 (State.reportCe s base syn finder) := by
  unfold State.reportCe
  repeat' (first
      | (intro (x : State); refine Works.cut (k := k0) (s := s0) (x := x) ?_ ?_ <;> [(subst x); (clear_value x; intro _)])
      | intro (x : MemState)
      | intro (x : TreeState)
      | intro (x : MgmtState)
      | (intro (x : State → State); subst x)
      | (intro (x : State → _ × State); subst x)
      | (intro (x : _ → State); subst x)
      | (intro (x : _ → _ → State); subst x)
      | intro (x : HostState)
      | (intro x; clear_value x)
      | intro _
      | with_reducible assumption
      | with_reducible apply State.modLogs_works
      | with_reducible apply State.count_works
      | lift_lets -underBinder
      | (with_reducible refine Works.of_snd (by assumption) ?_)
      | (with_reducible refine Works.of_snd2 (by assumption) ?_)
      | (with_reducible refine Works.of_snd3 (by assumption) ?_)
      | (with_reducible refine Works.of_snd4 (by assumption) ?_)
      | fail_if_no_progress (with_reducible refine Works.upd ?_ rfl rfl rfl rfl rfl rfl rfl rfl rfl rfl rfl rfl rfl rfl rfl)
      | split
      | exact le_rfl
      | rfl
      | dsimp -zeta only)

theorem State.reportUe_works {k0 : Nat} {s0 : State} (s : State) (base : Nat) (syn : Nat) (finder : Nat) (hs0 : Works k0 s0 s) : Works k0 s0 (State.reportUe s base syn finder) := by
  unfold State.reportUe
  repeat' (first
      | (intro (x : State); refine Works.cut (k := k0) (s := s0) (x := x) ?_ ?_ <;> [(subst x); (clear_value x; intro _)])
      | intro (x : MemState)
      | intro (x : TreeState)
      | intro (x : MgmtState)
      | (intro (x : State → State); subst x)
      | (intro (x : State → _ × State); subst x)
      | (intro (x : _ → State); subst x)
      | (intro (x : _ → _ → State); subst x)
      | intro (x : HostState)
      | (intro x; clear_value x)
      | intro _
      | with_reducible assumption
      | with_reducible apply State.modLogs_works
      | with_reducible apply State.event_works
      | with_reducible apply State.sig_works
      | with_reducible apply State.count_works
      | lift_lets -underBinder
      | (with_reducible refine Works.of_snd (by assumption) ?_)
      | (with_reducible refine Works.of_snd2 (by assumption) ?_)
      | (with_reducible refine Works.of_snd3 (by assumption) ?_)
      | (with_reducible refine Works.of_snd4 (by assumption) ?_)
      | fail_if_no_progress (with_reducible refine Works.upd ?_ rfl rfl rfl rfl rfl rfl rfl rfl rfl rfl rfl rfl rfl rfl rfl)
      | split
      | exact le_rfl
      | rfl
      | dsimp -zeta only)

theorem State.correctPart_works {k0 : Nat} {s0 : State} (s : State) (base : Nat) (p : CheckPart) (pos : Nat) (finder : Nat) (hs0 : Works k0 s0 s) : Works k0 s0 (State.correctPart s base p pos finder) := by
  unfold State.correctPart
  repeat' (first
      | (intro (x : State); refine Works.cut (k := k0) (s := s0) (x := x) ?_ ?_ <;> [(subst x); (clear_value x; intro _)])
      | intro (x : MemState)
      | intro (x : TreeState)
      | intro (x : MgmtState)
      | (intro (x : State → State); subst x)
      | (intro (x : State → _ × State); subst x)
      | (intro (x : _ → State); subst x)
      | (intro (x : _ → _ → State); subst x)
      | intro (x : HostState)
      | (intro x; clear_value x)
      | intro _
      | with_reducible assumption
      | with_reducible apply State.reportCe_works
      | with_reducible apply State.rawStore_works
      | with_reducible apply State.setMark_works
      | lift_lets -underBinder
      | with_reducible refine Works.ite ?_ ?_
      | with_reducible refine Works.ite1 ?_ ?_
      | with_reducible refine Works.ite2 ?_ ?_
      | with_reducible refine Works.ite3 ?_ ?_
      | with_reducible refine Works.ite4 ?_ ?_
      | fail_if_no_progress (with_reducible refine Works.upd ?_ rfl rfl rfl rfl rfl rfl rfl rfl rfl rfl rfl rfl rfl rfl rfl)
      | split
      | exact le_rfl
      | rfl
      | dsimp -zeta only)

theorem State.checkUnit_works {k0 : Nat} {s0 : State} (s : State) (base : Nat) (finder : Nat) (fix : Bool) (hs0 : Works k0 s0 s) : Works k0 s0 (State.checkUnit s base finder fix).2 := by
  unfold State.checkUnit
  repeat' (first
      | (intro (x : State); refine Works.cut (k := k0) (s := s0) (x := x) ?_ ?_ <;> [(subst x); (clear_value x; intro _)])
      | intro (x : MemState)
      | intro (x : TreeState)
      | intro (x : MgmtState)
      | (intro (x : State → State); subst x)
      | (intro (x : State → _ × State); subst x)
      | (intro (x : _ → State); subst x)
      | (intro (x : _ → _ → State); subst x)
      | intro (x : HostState)
      | (intro x; clear_value x)
      | intro _
      | with_reducible assumption
      | with_reducible apply State.correctPart_works
      | with_reducible apply State.reportUe_works
      | with_reducible apply State.reportCe_works
      | with_reducible apply State.setMark_works
      | lift_lets -underBinder
      | with_reducible refine Works.foldl _ ?_ _ _ ?_
      | with_reducible refine Works.foldl2 _ ?_ _ _ ?_
      | with_reducible refine Works.foldl3 _ ?_ _ _ ?_
      | with_reducible refine Works.foldl4 _ ?_ _ _ ?_
      | with_reducible refine Works.foldl5 _ ?_ _ _ ?_
      | with_reducible refine Works.ite ?_ ?_
      | with_reducible refine Works.ite1 ?_ ?_
      | with_reducible refine Works.ite2 ?_ ?_
      | with_reducible refine Works.ite3 ?_ ?_
      | with_reducible refine Works.ite4 ?_ ?_
      | (with_reducible refine Works.of_snd (by assumption) ?_)
      | (with_reducible refine Works.of_snd2 (by assumption) ?_)
      | (with_reducible refine Works.of_snd3 (by assumption) ?_)
      | (with_reducible refine Works.of_snd4 (by assumption) ?_)
      | fail_if_no_progress (with_reducible refine Works.upd ?_ rfl rfl rfl rfl rfl rfl rfl rfl rfl rfl rfl rfl rfl rfl rfl)
      | split
      | exact le_rfl
      | rfl
      | dsimp -zeta only)

theorem State.readUnit_works {k0 : Nat} {s0 : State} (s : State) (base : Nat) (finder : Nat) (hs0 : Works k0 s0 s) : Works k0 s0 (State.readUnit s base finder).2 := by
  unfold State.readUnit
  repeat' (first
      | (intro (x : State); refine Works.cut (k := k0) (s := s0) (x := x) ?_ ?_ <;> [(subst x); (clear_value x; intro _)])
      | intro (x : MemState)
      | intro (x : TreeState)
      | intro (x : MgmtState)
      | (intro (x : State → State); subst x)
      | (intro (x : State → _ × State); subst x)
      | (intro (x : _ → State); subst x)
      | (intro (x : _ → _ → State); subst x)
      | intro (x : HostState)
      | (intro x; clear_value x)
      | intro _
      | with_reducible assumption
      | with_reducible apply State.checkUnit_works
      | with_reducible apply State.modLogs_works
      | with_reducible apply State.count_works
      | lift_lets -underBinder
      | with_reducible refine Works.ite ?_ ?_
      | with_reducible refine Works.ite1 ?_ ?_
      | with_reducible refine Works.ite2 ?_ ?_
      | with_reducible refine Works.ite3 ?_ ?_
      | with_reducible refine Works.ite4 ?_ ?_
      | (with_reducible refine Works.of_snd (by assumption) ?_)
      | (with_reducible refine Works.of_snd2 (by assumption) ?_)
      | (with_reducible refine Works.of_snd3 (by assumption) ?_)
      | (with_reducible refine Works.of_snd4 (by assumption) ?_)
      | fail_if_no_progress (with_reducible refine Works.upd ?_ rfl rfl rfl rfl rfl rfl rfl rfl rfl rfl rfl rfl rfl rfl rfl)
      | split
      | exact le_rfl
      | rfl
      | dsimp -zeta only)

theorem State.memRead_works {k0 : Nat} {s0 : State} (s : State) (a : Nat) (n : Nat) (hs0 : Works k0 s0 s) : Works k0 s0 (State.memRead s a n).2.2 := by
  unfold State.memRead
  repeat' (first
      | (intro (x : State); refine Works.cut (k := k0) (s := s0) (x := x) ?_ ?_ <;> [(subst x); (clear_value x; intro _)])
      | intro (x : MemState)
      | intro (x : TreeState)
      | intro (x : MgmtState)
      | (intro (x : State → State); subst x)
      | (intro (x : State → _ × State); subst x)
      | (intro (x : _ → State); subst x)
      | (intro (x : _ → _ → State); subst x)
      | intro (x : HostState)
      | (intro x; clear_value x)
      | intro _
      | with_reducible assumption
      | with_reducible apply State.readUnit_works
      | lift_lets -underBinder
      | with_reducible refine Works.foldl _ ?_ _ _ ?_
      | with_reducible refine Works.foldl2 _ ?_ _ _ ?_
      | with_reducible refine Works.foldl3 _ ?_ _ _ ?_
      | with_reducible refine Works.foldl4 _ ?_ _ _ ?_
      | with_reducible refine Works.foldl5 _ ?_ _ _ ?_
      | (with_reducible refine Works.of_snd (by assumption) ?_)
      | (with_reducible refine Works.of_snd2 (by assumption) ?_)
      | (with_reducible refine Works.of_snd3 (by assumption) ?_)
      | (with_reducible refine Works.of_snd4 (by assumption) ?_)
      | fail_if_no_progress (with_reducible refine Works.upd ?_ rfl rfl rfl rfl rfl rfl rfl rfl rfl rfl rfl rfl rfl rfl rfl)
      | split
      | exact le_rfl
      | rfl
      | dsimp -zeta only)

theorem RegFile.get_put_other (rf : RegFile) (c : RegCell) {off inst off' inst' : Nat} (h : off' ≠ off) (hi : inst < 65536)
    (hi' : inst' < 65536) : (rf.put off inst c).get off' inst' = rf.get off' inst' := by
  have hk : regKey off' inst' ≠ regKey off inst := by
    unfold regKey
    omega
  unfold RegFile.get RegFile.put
  by_cases he : (⟨regResetValue off, regResetValue off⟩ : RegCell) = ⟨regResetValue off', regResetValue off'⟩
  · rw [← he]
    exact mget_mput_other _ _ _ hk
  · unfold mput
    dsimp only
    split
    · exact mget_mdel_other _ _ hk
    · exact mget_mins_other _ _ _ hk

theorem RegFile.device_captures (rf : RegFile) (off inst : Nat) (f : Nat → Nat) :
    (rf.device off inst f).captures = rf.captures := rfl

theorem RegFile.get_device_other (rf : RegFile) (f : Nat → Nat) {off inst off' inst' : Nat} (h : off' ≠ off) (hi : inst < 65536)
    (hi' : inst' < 65536) : (rf.device off inst f).get off' inst' = rf.get off' inst' :=
  RegFile.get_put_other _ _ h hi hi'

theorem RegFile.agree_device (rf : RegFile) (reg : Nat) (f : Nat → Nat) (hr : reg ∈ flipRegs) : rf.agree (rf.device reg 0 f) :=
  ⟨RegFile.device_captures _ _ _ _, fun off inst ho hi =>
    RegFile.get_device_other _ _ (fun he => ho (he ▸ hr)) (by decide) hi⟩

theorem Works.regs_upd {k0 : Nat} {s0 s : State} (h : Works k0 s0 s) (r : RegFile) (ha : s.regs.agree r) :
    Works k0 s0 { s with regs := r } :=
  h.trans ⟨ha, ⟨rfl, rfl, rfl, rfl, rfl, rfl, rfl, rfl, rfl⟩, ⟨rfl, rfl, rfl, rfl⟩, fun _ _ => rfl, .inl rfl⟩

theorem State.fire_works {k0 : Nat} {s0 : State} (s : State) (reg arm : Nat) (hr : reg ∈ flipRegs) (h : Works k0 s0 s) :
    Works k0 s0 (s.fire reg arm) := by
  unfold State.fire
  exact h.regs_upd _ (RegFile.agree_device _ _ _ hr)

theorem State.xorData_works {k0 : Nat} {s0 : State} (s : State) (base : Nat) (n : Nat) (mask : Nat) (hs0 : Works k0 s0 s) : Works k0 s0 (State.xorData s base n mask) := by
  unfold State.xorData
  repeat' (first
      | (intro (x : State); refine Works.cut (k := k0) (s := s0) (x := x) ?_ ?_ <;> [(subst x); (clear_value x; intro _)])
      | intro (x : MemState)
      | intro (x : TreeState)
      | intro (x : MgmtState)
      | (intro (x : State → State); subst x)
      | (intro (x : State → _ × State); subst x)
      | (intro (x : _ → State); subst x)
      | (intro (x : _ → _ → State); subst x)
      | intro (x : HostState)
      | (intro x; clear_value x)
      | intro _
      | with_reducible assumption
      | with_reducible apply State.rawStore_works
      | with_reducible refine Works.ite ?_ ?_
      | with_reducible refine Works.ite1 ?_ ?_
      | with_reducible refine Works.ite2 ?_ ?_
      | with_reducible refine Works.ite3 ?_ ?_
      | with_reducible refine Works.ite4 ?_ ?_
      | fail_if_no_progress (with_reducible refine Works.upd ?_ rfl rfl rfl rfl rfl rfl rfl rfl rfl rfl rfl rfl rfl rfl rfl)
      | split
      | exact le_rfl
      | rfl
      | dsimp -zeta only)

theorem State.applyFlips_works {k0 : Nat} {s0 : State} (s : State) (base : Nat) (h : Works k0 s0 s) :
    Works k0 s0 (s.applyFlips base) := by
  unfold State.applyFlips
  split
  · refine Works.foldl_mem _ _ _ (fun t d hd ht => ?_) h
    have hr : regFlipCtl d ∈ flipRegs := by
      rcases List.mem_cons.mp hd with rfl | hd
      · decide
      · rcases List.mem_cons.mp hd with rfl | hd
        · decide
        · cases hd
    split
    · exact State.setMark_works _ _ _ (State.xorData_works _ _ _ _ (State.fire_works _ _ _ hr ht))
    · exact ht
  · refine Works.foldl_mem _ _ _ (fun t k hk ht => ?_) h
    have hr : regInjCtl k ∈ flipRegs := List.mem_append_right _ (List.mem_map_of_mem hk)
    extract_lets ctl addr flip t2
    split
    · exact State.setMark_works _ _ _ (State.xorData_works _ _ _ _ (State.fire_works _ _ _ hr ht))
    · exact ht

theorem State.poisonCleared_works {k0 : Nat} {s0 : State} (s : State) (base : Nat) (hs0 : Works k0 s0 s) : Works k0 s0 (State.poisonCleared s base) := by
  unfold State.poisonCleared
  repeat' (first
      | (intro (x : State); refine Works.cut (k := k0) (s := s0) (x := x) ?_ ?_ <;> [(subst x); (clear_value x; intro _)])
      | intro (x : MemState)
      | intro (x : TreeState)
      | intro (x : MgmtState)
      | (intro (x : State → State); subst x)
      | (intro (x : State → _ × State); subst x)
      | (intro (x : _ → State); subst x)
      | (intro (x : _ → _ → State); subst x)
      | intro (x : HostState)
      | (intro x; clear_value x)
      | intro _
      | with_reducible assumption
      | with_reducible apply State.modLogs_works
      | with_reducible apply State.count_works
      | lift_lets -underBinder
      | (with_reducible refine Works.of_snd (by assumption) ?_)
      | (with_reducible refine Works.of_snd2 (by assumption) ?_)
      | (with_reducible refine Works.of_snd3 (by assumption) ?_)
      | (with_reducible refine Works.of_snd4 (by assumption) ?_)
      | fail_if_no_progress (with_reducible refine Works.upd ?_ rfl rfl rfl rfl rfl rfl rfl rfl rfl rfl rfl rfl rfl rfl rfl)
      | split
      | exact le_rfl
      | rfl
      | dsimp -zeta only)

theorem State.putUnit_works {k0 : Nat} {s0 : State} (s : State) (base : Nat) (bs : List Byte) (poison : Bool) (hs0 : Works k0 s0 s) : Works k0 s0 (State.putUnit s base bs poison) := by
  unfold State.putUnit
  repeat' (first
      | (intro (x : State); refine Works.cut (k := k0) (s := s0) (x := x) ?_ ?_ <;> [(subst x); (clear_value x; intro _)])
      | intro (x : MemState)
      | intro (x : TreeState)
      | intro (x : MgmtState)
      | (intro (x : State → State); subst x)
      | (intro (x : State → _ × State); subst x)
      | (intro (x : _ → State); subst x)
      | (intro (x : _ → _ → State); subst x)
      | intro (x : HostState)
      | (intro x; clear_value x)
      | intro _
      | with_reducible assumption
      | with_reducible apply State.poisonCleared_works
      | with_reducible apply State.applyFlips_works
      | with_reducible apply State.rawStore_works
      | with_reducible apply State.setMark_works
      | with_reducible apply State.count_works
      | lift_lets -underBinder
      | with_reducible refine Works.ite ?_ ?_
      | with_reducible refine Works.ite1 ?_ ?_
      | with_reducible refine Works.ite2 ?_ ?_
      | with_reducible refine Works.ite3 ?_ ?_
      | with_reducible refine Works.ite4 ?_ ?_
      | fail_if_no_progress (with_reducible refine Works.upd ?_ rfl rfl rfl rfl rfl rfl rfl rfl rfl rfl rfl rfl rfl rfl rfl)
      | split
      | exact le_rfl
      | rfl
      | dsimp -zeta only)

theorem State.writeSeal_works {k0 : Nat} {s0 : State} (s : State) (hs0 : Works k0 s0 s) : Works k0 s0 (State.writeSeal s) := by
  unfold State.writeSeal
  repeat' (first
      | (intro (x : State); refine Works.cut (k := k0) (s := s0) (x := x) ?_ ?_ <;> [(subst x); (clear_value x; intro _)])
      | intro (x : MemState)
      | intro (x : TreeState)
      | intro (x : MgmtState)
      | (intro (x : State → State); subst x)
      | (intro (x : State → _ × State); subst x)
      | (intro (x : _ → State); subst x)
      | (intro (x : _ → _ → State); subst x)
      | intro (x : HostState)
      | (intro x; clear_value x)
      | intro _
      | with_reducible assumption
      | with_reducible apply State.putUnit_works
      | with_reducible refine Works.ite ?_ ?_
      | with_reducible refine Works.ite1 ?_ ?_
      | with_reducible refine Works.ite2 ?_ ?_
      | with_reducible refine Works.ite3 ?_ ?_
      | with_reducible refine Works.ite4 ?_ ?_
      | fail_if_no_progress (with_reducible refine Works.upd ?_ rfl rfl rfl rfl rfl rfl rfl rfl rfl rfl rfl rfl rfl rfl rfl)
      | split
      | exact le_rfl
      | rfl
      | dsimp -zeta only)

theorem State.afterRead_works {k0 : Nat} {s0 : State} (s : State) (a n : Nat) (hs0 : Works k0 s0 s) : Works k0 s0 (s.afterRead a n) :=
  State.memRead_works s a n hs0

theorem State.readLists_works {k0 : Nat} {s0 : State} (s : State) (hs0 : Works k0 s0 s) : Works k0 s0 (State.readLists s) :=
  State.afterRead_works _ _ _ (State.afterRead_works _ _ _ hs0)

theorem State.unseal_works {k0 : Nat} {s0 : State} (s : State) (a : Nat) (n : Nat) (hs0 : Works k0 s0 s) : Works k0 s0 (State.unseal s a n) := by
  unfold State.unseal
  repeat' (first
      | (intro (x : State); refine Works.cut (k := k0) (s := s0) (x := x) ?_ ?_ <;> [(subst x); (clear_value x; intro _)])
      | intro (x : MemState)
      | intro (x : TreeState)
      | intro (x : MgmtState)
      | (intro (x : State → State); subst x)
      | (intro (x : State → _ × State); subst x)
      | (intro (x : _ → State); subst x)
      | (intro (x : _ → _ → State); subst x)
      | intro (x : HostState)
      | (intro x; clear_value x)
      | intro _
      | with_reducible assumption
      | with_reducible apply State.writeSeal_works
      | with_reducible refine Works.ite ?_ ?_
      | with_reducible refine Works.ite1 ?_ ?_
      | with_reducible refine Works.ite2 ?_ ?_
      | with_reducible refine Works.ite3 ?_ ?_
      | with_reducible refine Works.ite4 ?_ ?_
      | fail_if_no_progress (with_reducible refine Works.upd ?_ rfl rfl rfl rfl rfl rfl rfl rfl rfl rfl rfl rfl rfl rfl rfl)
      | split
      | exact le_rfl
      | rfl
      | dsimp -zeta only)

theorem State.touch_works {k0 : Nat} {s0 : State} (s : State) (a : Nat) (n : Nat) (hs0 : Works k0 s0 s) : Works k0 s0 (State.touch s a n) := by
  unfold State.touch
  repeat' (first
      | (intro (x : State); refine Works.cut (k := k0) (s := s0) (x := x) ?_ ?_ <;> [(subst x); (clear_value x; intro _)])
      | intro (x : MemState)
      | intro (x : TreeState)
      | intro (x : MgmtState)
      | (intro (x : State → State); subst x)
      | (intro (x : State → _ × State); subst x)
      | (intro (x : _ → State); subst x)
      | (intro (x : _ → _ → State); subst x)
      | intro (x : HostState)
      | (intro x; clear_value x)
      | intro _
      | with_reducible assumption
      | with_reducible apply State.unseal_works
      | with_reducible apply State.readLists_works
      | with_reducible refine Works.ite ?_ ?_
      | with_reducible refine Works.ite1 ?_ ?_
      | with_reducible refine Works.ite2 ?_ ?_
      | with_reducible refine Works.ite3 ?_ ?_
      | with_reducible refine Works.ite4 ?_ ?_
      | fail_if_no_progress (with_reducible refine Works.upd ?_ rfl rfl rfl rfl rfl rfl rfl rfl rfl rfl rfl rfl rfl rfl rfl)
      | split
      | exact le_rfl
      | rfl
      | dsimp -zeta only)

theorem State.drained_works {k0 : Nat} {s0 : State} (s : State) (f : Nat → Bool) (hs0 : Works k0 s0 s) : Works k0 s0 (State.drained s f) := by
  unfold State.drained
  repeat' (first
      | (intro (x : State); refine Works.cut (k := k0) (s := s0) (x := x) ?_ ?_ <;> [(subst x); (clear_value x; intro _)])
      | intro (x : MemState)
      | intro (x : TreeState)
      | intro (x : MgmtState)
      | (intro (x : State → State); subst x)
      | (intro (x : State → _ × State); subst x)
      | (intro (x : _ → State); subst x)
      | (intro (x : _ → _ → State); subst x)
      | intro (x : HostState)
      | (intro x; clear_value x)
      | intro _
      | with_reducible assumption
      | fail_if_no_progress (with_reducible refine Works.upd ?_ rfl rfl rfl rfl rfl rfl rfl rfl rfl rfl rfl rfl rfl rfl rfl)
      | exact le_rfl
      | rfl
      | dsimp -zeta only)

theorem State.allDrained_works {k0 : Nat} {s0 : State} (s : State) (hs0 : Works k0 s0 s) : Works k0 s0 (State.allDrained s) := by
  unfold State.allDrained
  repeat' (first
      | (intro (x : State); refine Works.cut (k := k0) (s := s0) (x := x) ?_ ?_ <;> [(subst x); (clear_value x; intro _)])
      | intro (x : MemState)
      | intro (x : TreeState)
      | intro (x : MgmtState)
      | (intro (x : State → State); subst x)
      | (intro (x : State → _ × State); subst x)
      | (intro (x : _ → State); subst x)
      | (intro (x : _ → _ → State); subst x)
      | intro (x : HostState)
      | (intro x; clear_value x)
      | intro _
      | with_reducible assumption
      | fail_if_no_progress (with_reducible refine Works.upd ?_ rfl rfl rfl rfl rfl rfl rfl rfl rfl rfl rfl rfl rfl rfl rfl)
      | exact le_rfl
      | rfl
      | dsimp -zeta only)

theorem State.drainSector_works {k0 : Nat} {s0 : State} (s : State) (base : Nat) (hs0 : Works k0 s0 s) : Works k0 s0 (State.drainSector s base) := by
  unfold State.drainSector
  repeat' (first
      | (intro (x : State); refine Works.cut (k := k0) (s := s0) (x := x) ?_ ?_ <;> [(subst x); (clear_value x; intro _)])
      | intro (x : MemState)
      | intro (x : TreeState)
      | intro (x : MgmtState)
      | (intro (x : State → State); subst x)
      | (intro (x : State → _ × State); subst x)
      | (intro (x : _ → State); subst x)
      | (intro (x : _ → _ → State); subst x)
      | intro (x : HostState)
      | (intro x; clear_value x)
      | intro _
      | with_reducible assumption
      | with_reducible apply State.drained_works
      | with_reducible refine Works.ite ?_ ?_
      | with_reducible refine Works.ite1 ?_ ?_
      | with_reducible refine Works.ite2 ?_ ?_
      | with_reducible refine Works.ite3 ?_ ?_
      | with_reducible refine Works.ite4 ?_ ?_
      | fail_if_no_progress (with_reducible refine Works.upd ?_ rfl rfl rfl rfl rfl rfl rfl rfl rfl rfl rfl rfl rfl rfl rfl)
      | split
      | exact le_rfl
      | rfl
      | dsimp -zeta only)

theorem State.putSector_works {k0 : Nat} {s0 : State} (s : State) (e : OldSector) (hs0 : Works k0 s0 s) : Works k0 s0 (State.putSector s e) := by
  unfold State.putSector
  repeat' (first
      | (intro (x : State); refine Works.cut (k := k0) (s := s0) (x := x) ?_ ?_ <;> [(subst x); (clear_value x; intro _)])
      | intro (x : MemState)
      | intro (x : TreeState)
      | intro (x : MgmtState)
      | (intro (x : State → State); subst x)
      | (intro (x : State → _ × State); subst x)
      | (intro (x : _ → State); subst x)
      | (intro (x : _ → _ → State); subst x)
      | intro (x : HostState)
      | (intro x; clear_value x)
      | intro _
      | with_reducible assumption
      | with_reducible apply State.rawStore_works
      | with_reducible apply State.setMark_works
      | fail_if_no_progress (with_reducible refine Works.upd ?_ rfl rfl rfl rfl rfl rfl rfl rfl rfl rfl rfl rfl rfl rfl rfl)
      | exact le_rfl
      | rfl
      | dsimp -zeta only)

theorem State.buffer_works {k0 : Nat} {s0 : State} (s : State) (k : Nat) (kept : List OldSector) (olds : List OldSector) (hs0 : Works k0 s0 s) : Works k0 s0 (State.buffer s k kept olds) := by
  unfold State.buffer
  repeat' (first
      | (intro (x : State); refine Works.cut (k := k0) (s := s0) (x := x) ?_ ?_ <;> [(subst x); (clear_value x; intro _)])
      | intro (x : MemState)
      | intro (x : TreeState)
      | intro (x : MgmtState)
      | (intro (x : State → State); subst x)
      | (intro (x : State → _ × State); subst x)
      | (intro (x : _ → State); subst x)
      | (intro (x : _ → _ → State); subst x)
      | intro (x : HostState)
      | (intro x; clear_value x)
      | intro _
      | with_reducible assumption
      | lift_lets -underBinder
      | fail_if_no_progress (with_reducible refine Works.upd ?_ rfl rfl rfl rfl rfl rfl rfl rfl rfl rfl rfl rfl rfl rfl rfl)
      | exact le_rfl
      | rfl
      | dsimp -zeta only)

theorem State.pinView_works {k0 : Nat} {s0 : State} (s : State) (a : Nat) (n : Nat) (hs0 : Works k0 s0 s) : Works k0 s0 (State.pinView s a n).2 := by
  unfold State.pinView
  repeat' (first
      | (intro (x : State); refine Works.cut (k := k0) (s := s0) (x := x) ?_ ?_ <;> [(subst x); (clear_value x; intro _)])
      | intro (x : MemState)
      | intro (x : TreeState)
      | intro (x : MgmtState)
      | (intro (x : State → State); subst x)
      | (intro (x : State → _ × State); subst x)
      | (intro (x : _ → State); subst x)
      | (intro (x : _ → _ → State); subst x)
      | intro (x : HostState)
      | (intro x; clear_value x)
      | intro _
      | with_reducible assumption
      | with_reducible apply State.putSector_works
      | with_reducible apply State.free_works
      | lift_lets -underBinder
      | with_reducible refine Works.foldl _ ?_ _ _ ?_
      | with_reducible refine Works.foldl2 _ ?_ _ _ ?_
      | with_reducible refine Works.foldl3 _ ?_ _ _ ?_
      | with_reducible refine Works.foldl4 _ ?_ _ _ ?_
      | with_reducible refine Works.foldl5 _ ?_ _ _ ?_
      | with_reducible refine Works.ite ?_ ?_
      | with_reducible refine Works.ite1 ?_ ?_
      | with_reducible refine Works.ite2 ?_ ?_
      | with_reducible refine Works.ite3 ?_ ?_
      | with_reducible refine Works.ite4 ?_ ?_
      | (with_reducible refine Works.of_snd (by assumption) ?_)
      | (with_reducible refine Works.of_snd2 (by assumption) ?_)
      | (with_reducible refine Works.of_snd3 (by assumption) ?_)
      | (with_reducible refine Works.of_snd4 (by assumption) ?_)
      | fail_if_no_progress (with_reducible refine Works.upd ?_ rfl rfl rfl rfl rfl rfl rfl rfl rfl rfl rfl rfl rfl rfl rfl)
      | split
      | exact le_rfl
      | rfl
      | dsimp -zeta only)

theorem State.discardBuffers_works {k0 : Nat} {s0 : State} (s : State) (hs0 : Works k0 s0 s) : Works k0 s0 (State.discardBuffers s).2 := by
  unfold State.discardBuffers
  repeat' (first
      | (intro (x : State); refine Works.cut (k := k0) (s := s0) (x := x) ?_ ?_ <;> [(subst x); (clear_value x; intro _)])
      | intro (x : MemState)
      | intro (x : TreeState)
      | intro (x : MgmtState)
      | (intro (x : State → State); subst x)
      | (intro (x : State → _ × State); subst x)
      | (intro (x : _ → State); subst x)
      | (intro (x : _ → _ → State); subst x)
      | intro (x : HostState)
      | (intro x; clear_value x)
      | intro _
      | with_reducible assumption
      | with_reducible apply State.putSector_works
      | with_reducible apply State.allDrained_works
      | with_reducible apply State.free_works
      | lift_lets -underBinder
      | with_reducible refine Works.foldl _ ?_ _ _ ?_
      | with_reducible refine Works.foldl2 _ ?_ _ _ ?_
      | with_reducible refine Works.foldl3 _ ?_ _ _ ?_
      | with_reducible refine Works.foldl4 _ ?_ _ _ ?_
      | with_reducible refine Works.foldl5 _ ?_ _ _ ?_
      | with_reducible refine Works.ite ?_ ?_
      | with_reducible refine Works.ite1 ?_ ?_
      | with_reducible refine Works.ite2 ?_ ?_
      | with_reducible refine Works.ite3 ?_ ?_
      | with_reducible refine Works.ite4 ?_ ?_
      | (with_reducible refine Works.of_snd (by assumption) ?_)
      | (with_reducible refine Works.of_snd2 (by assumption) ?_)
      | (with_reducible refine Works.of_snd3 (by assumption) ?_)
      | (with_reducible refine Works.of_snd4 (by assumption) ?_)
      | fail_if_no_progress (with_reducible refine Works.upd ?_ rfl rfl rfl rfl rfl rfl rfl rfl rfl rfl rfl rfl rfl rfl rfl)
      | split
      | exact le_rfl
      | rfl
      | dsimp -zeta only)

theorem State.writeUnit_works {k0 : Nat} {s0 : State} (s : State) (base : Nat) (off : Nat) (bs : List Byte) (poison : Bool) (hs0 : Works k0 s0 s) : Works k0 s0 (State.writeUnit s base off bs poison).2 := by
  unfold State.writeUnit
  repeat' (first
      | (intro (x : State); refine Works.cut (k := k0) (s := s0) (x := x) ?_ ?_ <;> [(subst x); (clear_value x; intro _)])
      | intro (x : MemState)
      | intro (x : TreeState)
      | intro (x : MgmtState)
      | (intro (x : State → State); subst x)
      | (intro (x : State → _ × State); subst x)
      | (intro (x : _ → State); subst x)
      | (intro (x : _ → _ → State); subst x)
      | intro (x : HostState)
      | (intro x; clear_value x)
      | intro _
      | with_reducible assumption
      | with_reducible apply State.drainSector_works
      | with_reducible apply State.touch_works
      | with_reducible apply State.putUnit_works
      | with_reducible apply State.applyFlips_works
      | with_reducible apply State.checkUnit_works
      | with_reducible apply State.rawStore_works
      | with_reducible apply State.setMark_works
      | with_reducible apply State.count_works
      | lift_lets -underBinder
      | with_reducible refine Works.ite ?_ ?_
      | with_reducible refine Works.ite1 ?_ ?_
      | with_reducible refine Works.ite2 ?_ ?_
      | with_reducible refine Works.ite3 ?_ ?_
      | with_reducible refine Works.ite4 ?_ ?_
      | (with_reducible refine Works.of_snd (by assumption) ?_)
      | (with_reducible refine Works.of_snd2 (by assumption) ?_)
      | (with_reducible refine Works.of_snd3 (by assumption) ?_)
      | (with_reducible refine Works.of_snd4 (by assumption) ?_)
      | fail_if_no_progress (with_reducible refine Works.upd ?_ rfl rfl rfl rfl rfl rfl rfl rfl rfl rfl rfl rfl rfl rfl rfl)
      | split
      | exact le_rfl
      | rfl
      | dsimp -zeta only)

theorem State.memWrite_works {k0 : Nat} {s0 : State} (s : State) (a : Nat) (bs : List Byte) (poison : Bool) (hs0 : Works k0 s0 s) : Works k0 s0 (State.memWrite s a bs poison).2 := by
  unfold State.memWrite
  repeat' (first
      | (intro (x : State); refine Works.cut (k := k0) (s := s0) (x := x) ?_ ?_ <;> [(subst x); (clear_value x; intro _)])
      | intro (x : MemState)
      | intro (x : TreeState)
      | intro (x : MgmtState)
      | (intro (x : State → State); subst x)
      | (intro (x : State → _ × State); subst x)
      | (intro (x : _ → State); subst x)
      | (intro (x : _ → _ → State); subst x)
      | intro (x : HostState)
      | (intro x; clear_value x)
      | intro _
      | with_reducible assumption
      | with_reducible apply State.writeUnit_works
      | lift_lets -underBinder
      | with_reducible refine Works.foldl _ ?_ _ _ ?_
      | with_reducible refine Works.foldl2 _ ?_ _ _ ?_
      | with_reducible refine Works.foldl3 _ ?_ _ _ ?_
      | with_reducible refine Works.foldl4 _ ?_ _ _ ?_
      | with_reducible refine Works.foldl5 _ ?_ _ _ ?_
      | (with_reducible refine Works.of_snd (by assumption) ?_)
      | (with_reducible refine Works.of_snd2 (by assumption) ?_)
      | (with_reducible refine Works.of_snd3 (by assumption) ?_)
      | (with_reducible refine Works.of_snd4 (by assumption) ?_)
      | fail_if_no_progress (with_reducible refine Works.upd ?_ rfl rfl rfl rfl rfl rfl rfl rfl rfl rfl rfl rfl rfl rfl rfl)
      | split
      | exact le_rfl
      | rfl
      | dsimp -zeta only)

theorem State.zeroAs_works {k0 : Nat} {s0 : State} (s : State) (opened : Nat → Bool) (a n : Nat) (h : Works k0 s0 s) :
    Works k0 s0 (s.zeroAs opened a n) := by
  unfold State.zeroAs
  exact Works.foldl _ (fun t _ ht => State.applyFlips_works t _ ht) _ _ (Works.foldl _ (fun t _ ht => State.poisonCleared_works t _ ht) _ _
    (Works.upd (State.drained_works _ _ (State.touch_works s a n h)) rfl rfl rfl rfl rfl rfl rfl rfl rfl rfl rfl rfl rfl rfl rfl))

theorem State.zeroRange_works {k0 : Nat} {s0 : State} (s : State) (a n : Nat) (h : Works k0 s0 s) : Works k0 s0 (s.zeroRange a n) :=
  State.zeroAs_works _ _ _ _ h

end Sys2Proof.Machine
end

