-- ==== Sys2Proof/Laws/WorksSlots.lean ====
section
/-! SUPPORT. What the operations of Machine/Slots.lean leave alone (Laws/Works.lean), one lemma for each. -/

namespace Sys2Proof.Machine

theorem State.tellStates_works {k0 : Nat} {s0 : State} (was : State) (s : State) (id : Nat) (hs0 : Works k0 s0 s) : Works k0 s0 (State.tellStates was s id) := by
  unfold State.tellStates
  repeat' (first
      | (intro (x : State); refine Works.cut (k := k0) (s := s0) (x := x) ?_ ?_ <;> [(subst x); (clear_value x; intro _)])
      | intro (x : MemState)
      | intro (x : TreeState)
      | intro (x : MgmtState)
      | (intro (x : State → State); subst x)
      | (intro (x : State → _ × State); subst x)
      | (intro (x : _ → State); subst x)
      | (intro (x : _ → _ → State); subst x)
      | intro (x : HostState)
      | (intro x; clear_value x)
      | intro _
      | with_reducible assumption
      | with_reducible apply State.sig_works
      | lift_lets -underBinder
      | with_reducible refine Works.foldl _ ?_ _ _ ?_
      | with_reducible refine Works.foldl2 _ ?_ _ _ ?_
      | with_reducible refine Works.foldl3 _ ?_ _ _ ?_
      | with_reducible refine Works.foldl4 _ ?_ _ _ ?_
      | with_reducible refine Works.foldl5 _ ?_ _ _ ?_
      | with_reducible refine Works.ite ?_ ?_
      | with_reducible refine Works.ite1 ?_ ?_
      | with_reducible refine Works.ite2 ?_ ?_
      | with_reducible refine Works.ite3 ?_ ?_
      | with_reducible refine Works.ite4 ?_ ?_
      | fail_if_no_progress (with_reducible refine Works.upd ?_ rfl rfl rfl rfl rfl rfl rfl rfl rfl rfl rfl rfl rfl rfl rfl)
      | split
      | exact le_rfl
      | rfl
      | dsimp -zeta only)

theorem State.settle_works {k0 : Nat} {s0 : State} (s : State) (id : Nat) (k : Nat) (hs0 : Works k0 s0 s) : Works k0 s0 (State.settle s id k) := by
  unfold State.settle
  repeat' (first
      | (intro (x : State); refine Works.cut (k := k0) (s := s0) (x := x) ?_ ?_ <;> [(subst x); (clear_value x; intro _)])
      | intro (x : MemState)
      | intro (x : TreeState)
      | intro (x : MgmtState)
      | (intro (x : State → State); subst x)
      | (intro (x : State → _ × State); subst x)
      | (intro (x : _ → State); subst x)
      | (intro (x : _ → _ → State); subst x)
      | intro (x : HostState)
      | (intro x; clear_value x)
      | intro _
      | with_reducible assumption
      | with_reducible apply State.modUnit_works
      | lift_lets -underBinder
      | with_reducible refine Works.ite ?_ ?_
      | with_reducible refine Works.ite1 ?_ ?_
      | with_reducible refine Works.ite2 ?_ ?_
      | with_reducible refine Works.ite3 ?_ ?_
      | with_reducible refine Works.ite4 ?_ ?_
      | (with_reducible refine Works.of_snd (by assumption) ?_)
      | (with_reducible refine Works.of_snd2 (by assumption) ?_)
      | (with_reducible refine Works.of_snd3 (by assumption) ?_)
      | (with_reducible refine Works.of_snd4 (by assumption) ?_)
      | fail_if_no_progress (with_reducible refine Works.upd ?_ rfl rfl rfl rfl rfl rfl rfl rfl rfl rfl rfl rfl rfl rfl rfl)
      | split
      | exact le_rfl
      | rfl
      | dsimp -zeta only)

theorem State.notePlanned_works {k0 : Nat} {s0 : State} (s : State) (sl : Slot) (due : Nat) (hs0 : Works k0 s0 s) : Works k0 s0 (State.notePlanned s sl due) := by
  unfold State.notePlanned
  repeat' (first
      | (intro (x : State); refine Works.cut (k := k0) (s := s0) (x := x) ?_ ?_ <;> [(subst x); (clear_value x; intro _)])
      | intro (x : MemState)
      | intro (x : TreeState)
      | intro (x : MgmtState)
      | (intro (x : State → State); subst x)
      | (intro (x : State → _ × State); subst x)
      | (intro (x : _ → State); subst x)
      | (intro (x : _ → _ → State); subst x)
      | intro (x : HostState)
      | (intro x; clear_value x)
      | intro _
      | with_reducible assumption
      | fail_if_no_progress (with_reducible refine Works.upd ?_ rfl rfl rfl rfl rfl rfl rfl rfl rfl rfl rfl rfl rfl rfl rfl)
      | exact le_rfl
      | rfl
      | dsimp -zeta only)

theorem State.plan_works {k0 : Nat} {s0 : State} (s : State) (k : Nat) (sl : Slot) (hs0 : Works k0 s0 s) : Works k0 s0 (State.plan s k sl) := by
  unfold State.plan
  repeat' (first
      | (intro (x : State); refine Works.cut (k := k0) (s := s0) (x := x) ?_ ?_ <;> [(subst x); (clear_value x; intro _)])
      | intro (x : MemState)
      | intro (x : TreeState)
      | intro (x : MgmtState)
      | (intro (x : State → State); subst x)
      | (intro (x : State → _ × State); subst x)
      | (intro (x : _ → State); subst x)
      | (intro (x : _ → _ → State); subst x)
      | intro (x : HostState)
      | (intro x; clear_value x)
      | intro _
      | with_reducible assumption
      | with_reducible apply State.notePlanned_works
      | with_reducible apply State.event_works
      | with_reducible apply State.sig_works
      | with_reducible apply State.count_works
      | lift_lets -underBinder
      | with_reducible refine Works.ite ?_ ?_
      | with_reducible refine Works.ite1 ?_ ?_
      | with_reducible refine Works.ite2 ?_ ?_
      | with_reducible refine Works.ite3 ?_ ?_
      | with_reducible refine Works.ite4 ?_ ?_
      | (with_reducible refine Works.of_snd (by assumption) ?_)
      | (with_reducible refine Works.of_snd2 (by assumption) ?_)
      | (with_reducible refine Works.of_snd3 (by assumption) ?_)
      | (with_reducible refine Works.of_snd4 (by assumption) ?_)
      | fail_if_no_progress (with_reducible refine Works.upd ?_ rfl rfl rfl rfl rfl rfl rfl rfl rfl rfl rfl rfl rfl rfl rfl)
      | split
      | exact le_rfl
      | rfl
      | dsimp -zeta only)

theorem State.putDone_works {k : Nat} {s0 : State} (s : State) (sl sl' : Slot) (st : Status) (node value : Nat)
    (hs : s.slot k = some sl) (h1 : sl'.phase = .done) (h2 : sl'.desc = sl.desc)
    (h3 : sl'.record = completionRecord sl.desc st node value s.stamp) (h : Works k s0 s) :
    Works k s0 (s.putSlot k (some sl')) := by
  refine h.trans ⟨⟨rfl, fun _ _ _ _ => rfl⟩, ⟨rfl, rfl, rfl, rfl, rfl, rfl, rfl, rfl, rfl⟩, ⟨rfl, rfl, rfl, rfl⟩, fun j hj => ?_,
    .inr ⟨sl, sl', st, node, value, hs, ?_, h1, h2, h3⟩⟩
  · exact mget_mput_other (none : Option Slot) (some sl') s.host.slots hj
  · exact mget_mput_self (none : Option Slot) (some sl') s.host.slots k

theorem State.complete_works {k : Nat} {s0 : State} (s : State) (st : Status) (node value : Nat) (h : Works k s0 s) :
    Works k s0 (s.complete k st node value) := by
  unfold State.complete
  split
  · exact h
  · rename_i sl hs
    extract_lets was v sl' t1 _ t1' _ _ t2 id ends t3 u t4 t5
    have h1 : Works k s0 t1 := State.putDone_works s sl sl' st node v hs rfl rfl rfl h
    have h1' : Works k s0 t1' := Works.upd h1 rfl rfl rfl rfl rfl rfl rfl rfl rfl rfl rfl rfl rfl rfl rfl
    have h2 : Works k s0 t2 := Works.upd h1' rfl rfl rfl rfl rfl rfl rfl rfl rfl rfl rfl rfl rfl rfl rfl
    have he : Works k s0 ends := Works.ite (State.tellStates_works _ _ _ (State.settle_works _ _ _ h2)) h2
    have h3 : Works k s0 t3 := Works.ite he (State.plan_works _ _ _ he)
    have h4 : Works k s0 t4 := State.modUnit_works _ _ _ h3
    have h5 : Works k s0 t5 := Works.ite h4 (State.sig_works _ _ _ _ h4)
    split
    · exact h3
    · exact State.sig_works _ _ _ _ h5

theorem State.reject_works {k : Nat} {s0 : State} (s : State) (st : Status) (h : Works k s0 s) : Works k s0 (s.reject k st) :=
  State.complete_works s st 0xFFFF 0 h

theorem State.childrenEnd_works {k0 : Nat} {s0 : State} (s : State) (top : Nat) (r : Report) (hs0 : Works k0 s0 s) : Works k0 s0 (State.childrenEnd s top r) := by
  unfold State.childrenEnd
  repeat' (first
      | (intro (x : State); refine Works.cut (k := k0) (s := s0) (x := x) ?_ ?_ <;> [(subst x); (clear_value x; intro _)])
      | intro (x : MemState)
      | intro (x : TreeState)
      | intro (x : MgmtState)
      | (intro (x : State → State); subst x)
      | (intro (x : State → _ × State); subst x)
      | (intro (x : _ → State); subst x)
      | (intro (x : _ → _ → State); subst x)
      | intro (x : HostState)
      | (intro x; clear_value x)
      | intro _
      | with_reducible assumption
      | with_reducible apply State.modUnit_works
      | with_reducible refine Works.foldl _ ?_ _ _ ?_
      | with_reducible refine Works.foldl2 _ ?_ _ _ ?_
      | with_reducible refine Works.foldl3 _ ?_ _ _ ?_
      | with_reducible refine Works.foldl4 _ ?_ _ _ ?_
      | with_reducible refine Works.foldl5 _ ?_ _ _ ?_
      | fail_if_no_progress (with_reducible refine Works.upd ?_ rfl rfl rfl rfl rfl rfl rfl rfl rfl rfl rfl rfl rfl rfl rfl)
      | exact le_rfl
      | rfl
      | dsimp -zeta only)

theorem State.finish_works {k : Nat} {s0 : State} (s : State) (cls : Nat) (st : Status) (value : Nat) (h : Works k s0 s) :
    Works k s0 (s.finish k cls st value) := by
  unfold State.finish
  split
  · exact h
  · exact State.complete_works _ _ _ _ h

theorem State.finishReport_works {k : Nat} {s0 : State} (s : State) (cls : Nat) (r : Report) (value : Status → Nat)
    (h : Works k s0 s) : Works k s0 (s.finishReport k cls r value) := by
  unfold State.finishReport
  split
  · exact h
  · extract_lets id st
    split
    · exact State.finish_works _ _ _ _ h
    · exact State.complete_works _ _ _ _ (State.childrenEnd_works _ _ _ h)

theorem State.freeze_works {k0 : Nat} {s0 : State} (s : State) (k : Nat) (leaves : List Nat) (hs0 : Works k0 s0 s) : Works k0 s0 (State.freeze s k leaves) := by
  unfold State.freeze
  repeat' (first
      | (intro (x : State); refine Works.cut (k := k0) (s := s0) (x := x) ?_ ?_ <;> [(subst x); (clear_value x; intro _)])
      | intro (x : MemState)
      | intro (x : TreeState)
      | intro (x : MgmtState)
      | (intro (x : State → State); subst x)
      | (intro (x : State → _ × State); subst x)
      | (intro (x : _ → State); subst x)
      | (intro (x : _ → _ → State); subst x)
      | intro (x : HostState)
      | (intro x; clear_value x)
      | intro _
      | with_reducible assumption
      | with_reducible apply State.tellStates_works
      | with_reducible apply State.count_works
      | with_reducible apply State.modUnit_works
      | lift_lets -underBinder
      | with_reducible refine Works.foldl _ ?_ _ _ ?_
      | with_reducible refine Works.foldl2 _ ?_ _ _ ?_
      | with_reducible refine Works.foldl3 _ ?_ _ _ ?_
      | with_reducible refine Works.foldl4 _ ?_ _ _ ?_
      | with_reducible refine Works.foldl5 _ ?_ _ _ ?_
      | with_reducible refine Works.ite ?_ ?_
      | with_reducible refine Works.ite1 ?_ ?_
      | with_reducible refine Works.ite2 ?_ ?_
      | with_reducible refine Works.ite3 ?_ ?_
      | with_reducible refine Works.ite4 ?_ ?_
      | (with_reducible refine Works.of_snd (by assumption) ?_)
      | (with_reducible refine Works.of_snd2 (by assumption) ?_)
      | (with_reducible refine Works.of_snd3 (by assumption) ?_)
      | (with_reducible refine Works.of_snd4 (by assumption) ?_)
      | fail_if_no_progress (with_reducible refine Works.upd ?_ rfl rfl rfl rfl rfl rfl rfl rfl rfl rfl rfl rfl rfl rfl rfl)
      | split
      | exact le_rfl
      | rfl
      | dsimp -zeta only)

theorem State.thaw_works {k0 : Nat} {s0 : State} (s : State) (k : Nat) (hs0 : Works k0 s0 s) : Works k0 s0 (State.thaw s k) := by
  unfold State.thaw
  repeat' (first
      | (intro (x : State); refine Works.cut (k := k0) (s := s0) (x := x) ?_ ?_ <;> [(subst x); (clear_value x; intro _)])
      | intro (x : MemState)
      | intro (x : TreeState)
      | intro (x : MgmtState)
      | (intro (x : State → State); subst x)
      | (intro (x : State → _ × State); subst x)
      | (intro (x : _ → State); subst x)
      | (intro (x : _ → _ → State); subst x)
      | intro (x : HostState)
      | (intro x; clear_value x)
      | intro _
      | with_reducible assumption
      | with_reducible apply State.tellStates_works
      | with_reducible refine Works.ite ?_ ?_
      | with_reducible refine Works.ite1 ?_ ?_
      | with_reducible refine Works.ite2 ?_ ?_
      | with_reducible refine Works.ite3 ?_ ?_
      | with_reducible refine Works.ite4 ?_ ?_
      | (with_reducible refine Works.of_snd (by assumption) ?_)
      | (with_reducible refine Works.of_snd2 (by assumption) ?_)
      | (with_reducible refine Works.of_snd3 (by assumption) ?_)
      | (with_reducible refine Works.of_snd4 (by assumption) ?_)
      | fail_if_no_progress (with_reducible refine Works.upd ?_ rfl rfl rfl rfl rfl rfl rfl rfl rfl rfl rfl rfl rfl rfl rfl)
      | split
      | exact le_rfl
      | rfl
      | dsimp -zeta only)

theorem State.idleGaps_works {k0 : Nat} {s0 : State} (s : State) (u : Nat) (hs0 : Works k0 s0 s) : Works k0 s0 (State.idleGaps s u) := by
  unfold State.idleGaps
  repeat' (first
      | (intro (x : State); refine Works.cut (k := k0) (s := s0) (x := x) ?_ ?_ <;> [(subst x); (clear_value x; intro _)])
      | intro (x : MemState)
      | intro (x : TreeState)
      | intro (x : MgmtState)
      | (intro (x : State → State); subst x)
      | (intro (x : State → _ × State); subst x)
      | (intro (x : _ → State); subst x)
      | (intro (x : _ → _ → State); subst x)
      | intro (x : HostState)
      | (intro x; clear_value x)
      | intro _
      | with_reducible assumption
      | with_reducible apply State.count_works
      | with_reducible apply State.modUnit_works
      | with_reducible apply State.free_works
      | lift_lets -underBinder
      | with_reducible refine Works.ite ?_ ?_
      | with_reducible refine Works.ite1 ?_ ?_
      | with_reducible refine Works.ite2 ?_ ?_
      | with_reducible refine Works.ite3 ?_ ?_
      | with_reducible refine Works.ite4 ?_ ?_
      | (with_reducible refine Works.of_snd (by assumption) ?_)
      | (with_reducible refine Works.of_snd2 (by assumption) ?_)
      | (with_reducible refine Works.of_snd3 (by assumption) ?_)
      | (with_reducible refine Works.of_snd4 (by assumption) ?_)
      | fail_if_no_progress (with_reducible refine Works.upd ?_ rfl rfl rfl rfl rfl rfl rfl rfl rfl rfl rfl rfl rfl rfl rfl)
      | split
      | exact le_rfl
      | rfl
      | dsimp -zeta only)

theorem State.withDesc_works {k0 : Nat} {s0 : State} (s : State) (k : Nat) (opcodes : List Nat) (f : Slot → State → State) (hk_f : ∀ x0 t, Works k0 s0 t → Works k0 s0 (f x0 t)) (hs0 : Works k0 s0 s) : Works k0 s0 (State.withDesc s k opcodes f) := by
  unfold State.withDesc
  repeat' (first
      | (intro (x : State); refine Works.cut (k := k0) (s := s0) (x := x) ?_ ?_ <;> [(subst x); (clear_value x; intro _)])
      | intro (x : MemState)
      | intro (x : TreeState)
      | intro (x : MgmtState)
      | (intro (x : State → State); subst x)
      | (intro (x : State → _ × State); subst x)
      | (intro (x : _ → State); subst x)
      | (intro (x : _ → _ → State); subst x)
      | intro (x : HostState)
      | (intro x; clear_value x)
      | intro _
      | with_reducible assumption
      | with_reducible apply State.freeze_works
      | with_reducible apply hk_f
      | with_reducible refine Works.ite ?_ ?_
      | with_reducible refine Works.ite1 ?_ ?_
      | with_reducible refine Works.ite2 ?_ ?_
      | with_reducible refine Works.ite3 ?_ ?_
      | with_reducible refine Works.ite4 ?_ ?_
      | (with_reducible refine Works.of_snd (by assumption) ?_)
      | (with_reducible refine Works.of_snd2 (by assumption) ?_)
      | (with_reducible refine Works.of_snd3 (by assumption) ?_)
      | (with_reducible refine Works.of_snd4 (by assumption) ?_)
      | fail_if_no_progress (with_reducible refine Works.upd ?_ rfl rfl rfl rfl rfl rfl rfl rfl rfl rfl rfl rfl rfl rfl rfl)
      | split
      | exact le_rfl
      | rfl
      | dsimp -zeta only)

end Sys2Proof.Machine
end

