-- ==== Sys2Proof/Laws/WorksAccum.lean ====
section
/-! SUPPORT. What the operations of Machine/Accum.lean leave alone (Laws/Works.lean), one lemma for each. -/

namespace Sys2Proof.Machine

theorem State.putHalf_works {k0 : Nat} {s0 : State} (s : State) (u : Nat) (r : Nat) (h : Nat) (v : HalfSlot) (hs0 : Works k0 s0 s) : Works k0 s0 (State.putHalf s u r h v) := by
  unfold State.putHalf
  repeat' (first
      | (intro (x : State); refine Works.cut (k := k0) (s := s0) (x := x) ?_ ?_ <;> [(subst x); (clear_value x; intro _)])
      | intro (x : MemState)
      | intro (x : TreeState)
      | intro (x : MgmtState)
      | (intro (x : State → State); subst x)
      | (intro (x : State → _ × State); subst x)
      | (intro (x : _ → State); subst x)
      | (intro (x : _ → _ → State); subst x)
      | intro (x : HostState)
      | (intro x; clear_value x)
      | intro _
      | with_reducible assumption
      | with_reducible apply State.modCell_works
      | fail_if_no_progress (with_reducible refine Works.upd ?_ rfl rfl rfl rfl rfl rfl rfl rfl rfl rfl rfl rfl rfl rfl rfl)
      | exact le_rfl
      | rfl
      | dsimp -zeta only)

theorem State.putWord_works {k0 : Nat} {s0 : State} (s : State) (u : Nat) (r : Nat) (j : Nat) (v : AccWord) (hs0 : Works k0 s0 s) : Works k0 s0 (State.putWord s u r j v) := by
  unfold State.putWord
  repeat' (first
      | (intro (x : State); refine Works.cut (k := k0) (s := s0) (x := x) ?_ ?_ <;> [(subst x); (clear_value x; intro _)])
      | intro (x : MemState)
      | intro (x : TreeState)
      | intro (x : MgmtState)
      | (intro (x : State → State); subst x)
      | (intro (x : State → _ × State); subst x)
      | (intro (x : _ → State); subst x)
      | (intro (x : _ → _ → State); subst x)
      | intro (x : HostState)
      | (intro x; clear_value x)
      | intro _
      | with_reducible assumption
      | with_reducible apply State.modCell_works
      | fail_if_no_progress (with_reducible refine Works.upd ?_ rfl rfl rfl rfl rfl rfl rfl rfl rfl rfl rfl rfl rfl rfl rfl)
      | exact le_rfl
      | rfl
      | dsimp -zeta only)

theorem State.reportAccCe_works {k0 : Nat} {s0 : State} (s : State) (u : Nat) (addr : Nat) (syn : Nat) (finder : Nat) (hs0 : Works k0 s0 s) : Works k0 s0 (State.reportAccCe s u addr syn finder) := by
  unfold State.reportAccCe
  repeat' (first
      | (intro (x : State); refine Works.cut (k := k0) (s := s0) (x := x) ?_ ?_ <;> [(subst x); (clear_value x; intro _)])
      | intro (x : MemState)
      | intro (x : TreeState)
      | intro (x : MgmtState)
      | (intro (x : State → State); subst x)
      | (intro (x : State → _ × State); subst x)
      | (intro (x : _ → State); subst x)
      | (intro (x : _ → _ → State); subst x)
      | intro (x : HostState)
      | (intro x; clear_value x)
      | intro _
      | with_reducible assumption
      | with_reducible apply State.modLogs_works
      | with_reducible apply State.count_works
      | lift_lets -underBinder
      | (with_reducible refine Works.of_snd (by assumption) ?_)
      | (with_reducible refine Works.of_snd2 (by assumption) ?_)
      | (with_reducible refine Works.of_snd3 (by assumption) ?_)
      | (with_reducible refine Works.of_snd4 (by assumption) ?_)
      | fail_if_no_progress (with_reducible refine Works.upd ?_ rfl rfl rfl rfl rfl rfl rfl rfl rfl rfl rfl rfl rfl rfl rfl)
      | split
      | exact le_rfl
      | rfl
      | dsimp -zeta only)

theorem State.reportAccUe_works {k0 : Nat} {s0 : State} (s : State) (u : Nat) (addr : Nat) (syn : Nat) (finder : Nat) (hs0 : Works k0 s0 s) : Works k0 s0 (State.reportAccUe s u addr syn finder) := by
  unfold State.reportAccUe
  repeat' (first
      | (intro (x : State); refine Works.cut (k := k0) (s := s0) (x := x) ?_ ?_ <;> [(subst x); (clear_value x; intro _)])
      | intro (x : MemState)
      | intro (x : TreeState)
      | intro (x : MgmtState)
      | (intro (x : State → State); subst x)
      | (intro (x : State → _ × State); subst x)
      | (intro (x : _ → State); subst x)
      | (intro (x : _ → _ → State); subst x)
      | intro (x : HostState)
      | (intro x; clear_value x)
      | intro _
      | with_reducible assumption
      | with_reducible apply State.modLogs_works
      | with_reducible apply State.event_works
      | with_reducible apply State.sig_works
      | with_reducible apply State.count_works
      | lift_lets -underBinder
      | (with_reducible refine Works.of_snd (by assumption) ?_)
      | (with_reducible refine Works.of_snd2 (by assumption) ?_)
      | (with_reducible refine Works.of_snd3 (by assumption) ?_)
      | (with_reducible refine Works.of_snd4 (by assumption) ?_)
      | fail_if_no_progress (with_reducible refine Works.upd ?_ rfl rfl rfl rfl rfl rfl rfl rfl rfl rfl rfl rfl rfl rfl rfl)
      | split
      | exact le_rfl
      | rfl
      | dsimp -zeta only)

theorem State.checkWord_works {k0 : Nat} {s0 : State} (s : State) (u : Nat) (r : Nat) (j : Nat) (finder : Nat) (fix : Bool) (hs0 : Works k0 s0 s) : Works k0 s0 (State.checkWord s u r j finder fix).2 := by
  unfold State.checkWord
  repeat' (first
      | (intro (x : State); refine Works.cut (k := k0) (s := s0) (x := x) ?_ ?_ <;> [(subst x); (clear_value x; intro _)])
      | intro (x : MemState)
      | intro (x : TreeState)
      | intro (x : MgmtState)
      | (intro (x : State → State); subst x)
      | (intro (x : State → _ × State); subst x)
      | (intro (x : _ → State); subst x)
      | (intro (x : _ → _ → State); subst x)
      | intro (x : HostState)
      | (intro x; clear_value x)
      | intro _
      | with_reducible assumption
      | with_reducible apply State.reportAccUe_works
      | with_reducible apply State.reportAccCe_works
      | with_reducible apply State.putWord_works
      | lift_lets -underBinder
      | with_reducible refine Works.ite ?_ ?_
      | with_reducible refine Works.ite1 ?_ ?_
      | with_reducible refine Works.ite2 ?_ ?_
      | with_reducible refine Works.ite3 ?_ ?_
      | with_reducible refine Works.ite4 ?_ ?_
      | (with_reducible refine Works.of_snd (by assumption) ?_)
      | (with_reducible refine Works.of_snd2 (by assumption) ?_)
      | (with_reducible refine Works.of_snd3 (by assumption) ?_)
      | (with_reducible refine Works.of_snd4 (by assumption) ?_)
      | fail_if_no_progress (with_reducible refine Works.upd ?_ rfl rfl rfl rfl rfl rfl rfl rfl rfl rfl rfl rfl rfl rfl rfl)
      | split
      | exact le_rfl
      | rfl
      | dsimp -zeta only)

theorem State.checkHalf_works {k0 : Nat} {s0 : State} (s : State) (u : Nat) (r : Nat) (h : Nat) (finder : Nat) (fix : Bool) (hs0 : Works k0 s0 s) : Works k0 s0 (State.checkHalf s u r h finder fix).2 := by
  unfold State.checkHalf
  repeat' (first
      | (intro (x : State); refine Works.cut (k := k0) (s := s0) (x := x) ?_ ?_ <;> [(subst x); (clear_value x; intro _)])
      | intro (x : MemState)
      | intro (x : TreeState)
      | intro (x : MgmtState)
      | (intro (x : State → State); subst x)
      | (intro (x : State → _ × State); subst x)
      | (intro (x : _ → State); subst x)
      | (intro (x : _ → _ → State); subst x)
      | intro (x : HostState)
      | (intro x; clear_value x)
      | intro _
      | with_reducible assumption
      | with_reducible apply State.reportAccUe_works
      | with_reducible apply State.reportAccCe_works
      | with_reducible apply State.putHalf_works
      | lift_lets -underBinder
      | with_reducible refine Works.ite ?_ ?_
      | with_reducible refine Works.ite1 ?_ ?_
      | with_reducible refine Works.ite2 ?_ ?_
      | with_reducible refine Works.ite3 ?_ ?_
      | with_reducible refine Works.ite4 ?_ ?_
      | (with_reducible refine Works.of_snd (by assumption) ?_)
      | (with_reducible refine Works.of_snd2 (by assumption) ?_)
      | (with_reducible refine Works.of_snd3 (by assumption) ?_)
      | (with_reducible refine Works.of_snd4 (by assumption) ?_)
      | fail_if_no_progress (with_reducible refine Works.upd ?_ rfl rfl rfl rfl rfl rfl rfl rfl rfl rfl rfl rfl rfl rfl rfl)
      | split
      | exact le_rfl
      | rfl
      | dsimp -zeta only)

theorem State.readWord_works {k0 : Nat} {s0 : State} (s : State) (u : Nat) (r : Nat) (j : Nat) (hs0 : Works k0 s0 s) : Works k0 s0 (State.readWord s u r j).2.2.2 := by
  unfold State.readWord
  repeat' (first
      | (intro (x : State); refine Works.cut (k := k0) (s := s0) (x := x) ?_ ?_ <;> [(subst x); (clear_value x; intro _)])
      | intro (x : MemState)
      | intro (x : TreeState)
      | intro (x : MgmtState)
      | (intro (x : State → State); subst x)
      | (intro (x : State → _ × State); subst x)
      | (intro (x : _ → State); subst x)
      | (intro (x : _ → _ → State); subst x)
      | intro (x : HostState)
      | (intro x; clear_value x)
      | intro _
      | with_reducible assumption
      | with_reducible apply State.checkHalf_works
      | with_reducible apply State.checkWord_works
      | with_reducible apply State.modLogs_works
      | lift_lets -underBinder
      | with_reducible refine Works.ite ?_ ?_
      | with_reducible refine Works.ite1 ?_ ?_
      | with_reducible refine Works.ite2 ?_ ?_
      | with_reducible refine Works.ite3 ?_ ?_
      | with_reducible refine Works.ite4 ?_ ?_
      | (with_reducible refine Works.of_snd (by assumption) ?_)
      | (with_reducible refine Works.of_snd2 (by assumption) ?_)
      | (with_reducible refine Works.of_snd3 (by assumption) ?_)
      | (with_reducible refine Works.of_snd4 (by assumption) ?_)
      | fail_if_no_progress (with_reducible refine Works.upd ?_ rfl rfl rfl rfl rfl rfl rfl rfl rfl rfl rfl rfl rfl rfl rfl)
      | split
      | exact le_rfl
      | rfl
      | dsimp -zeta only)

theorem State.fireAcc_works {k0 : Nat} {s0 : State} (s : State) (u r j : Nat) (hs0 : Works k0 s0 s) : Works k0 s0 (s.fireAcc u r j) := by
  unfold State.fireAcc
  refine Works.foldl_mem _ _ _ (fun t d hd ht => ?_) hs0
  have hr : regFlipCtl d ∈ flipRegs := by
    rcases List.mem_cons.mp hd with rfl | hd
    · decide
    · rcases List.mem_cons.mp hd with rfl | hd
      · decide
      · cases hd
  split
  · exact State.putWord_works _ _ _ _ _ (State.fire_works _ _ _ hr ht)
  · exact ht

theorem State.rewriteWord_works {k0 : Nat} {s0 : State} (s : State) (u : Nat) (r : Nat) (j : Nat) (x : Int) (shift : Int) (hs0 : Works k0 s0 s) : Works k0 s0 (State.rewriteWord s u r j x shift) := by
  unfold State.rewriteWord
  repeat' (first
      | (intro (x : State); refine Works.cut (k := k0) (s := s0) (x := x) ?_ ?_ <;> [(subst x); (clear_value x; intro _)])
      | intro (x : MemState)
      | intro (x : TreeState)
      | intro (x : MgmtState)
      | (intro (x : State → State); subst x)
      | (intro (x : State → _ × State); subst x)
      | (intro (x : _ → State); subst x)
      | (intro (x : _ → _ → State); subst x)
      | intro (x : HostState)
      | (intro x; clear_value x)
      | intro _
      | with_reducible assumption
      | with_reducible apply State.fireAcc_works
      | with_reducible apply State.putWord_works
      | lift_lets -underBinder
      | with_reducible refine Works.ite ?_ ?_
      | with_reducible refine Works.ite1 ?_ ?_
      | with_reducible refine Works.ite2 ?_ ?_
      | with_reducible refine Works.ite3 ?_ ?_
      | with_reducible refine Works.ite4 ?_ ?_
      | fail_if_no_progress (with_reducible refine Works.upd ?_ rfl rfl rfl rfl rfl rfl rfl rfl rfl rfl rfl rfl rfl rfl rfl)
      | split
      | exact le_rfl
      | rfl
      | dsimp -zeta only)

theorem State.writeWord_works {k0 : Nat} {s0 : State} (s : State) (u : Nat) (w : Nat) (r : Nat) (j : Nat) (x : Int) (tag : Tag) (poison : Bool) (hs0 : Works k0 s0 s) : Works k0 s0 (State.writeWord s u w r j x tag poison) := by
  unfold State.writeWord
  repeat' (first
      | (intro (x : State); refine Works.cut (k := k0) (s := s0) (x := x) ?_ ?_ <;> [(subst x); (clear_value x; intro _)])
      | intro (x : MemState)
      | intro (x : TreeState)
      | intro (x : MgmtState)
      | (intro (x : State → State); subst x)
      | (intro (x : State → _ × State); subst x)
      | (intro (x : _ → State); subst x)
      | (intro (x : _ → _ → State); subst x)
      | intro (x : HostState)
      | (intro x; clear_value x)
      | intro _
      | with_reducible assumption
      | with_reducible apply State.fireAcc_works
      | with_reducible apply State.putWord_works
      | with_reducible apply State.modLogs_works
      | with_reducible apply State.count_works
      | lift_lets -underBinder
      | with_reducible refine Works.ite ?_ ?_
      | with_reducible refine Works.ite1 ?_ ?_
      | with_reducible refine Works.ite2 ?_ ?_
      | with_reducible refine Works.ite3 ?_ ?_
      | with_reducible refine Works.ite4 ?_ ?_
      | fail_if_no_progress (with_reducible refine Works.upd ?_ rfl rfl rfl rfl rfl rfl rfl rfl rfl rfl rfl rfl rfl rfl rfl)
      | split
      | exact le_rfl
      | rfl
      | dsimp -zeta only)

theorem State.readMasked_works {k0 : Nat} {s0 : State} (s : State) (u : Nat) (r : Nat) (masked : List Nat) (hs0 : Works k0 s0 s) : Works k0 s0 (State.readMasked s u r masked).2 := by
  unfold State.readMasked
  repeat' (first
      | (intro (x : State); refine Works.cut (k := k0) (s := s0) (x := x) ?_ ?_ <;> [(subst x); (clear_value x; intro _)])
      | intro (x : MemState)
      | intro (x : TreeState)
      | intro (x : MgmtState)
      | (intro (x : State → State); subst x)
      | (intro (x : State → _ × State); subst x)
      | (intro (x : _ → State); subst x)
      | (intro (x : _ → _ → State); subst x)
      | intro (x : HostState)
      | (intro x; clear_value x)
      | intro _
      | with_reducible assumption
      | with_reducible apply State.readWord_works
      | lift_lets -underBinder
      | with_reducible refine Works.foldl _ ?_ _ _ ?_
      | with_reducible refine Works.foldl2 _ ?_ _ _ ?_
      | with_reducible refine Works.foldl3 _ ?_ _ _ ?_
      | with_reducible refine Works.foldl4 _ ?_ _ _ ?_
      | with_reducible refine Works.foldl5 _ ?_ _ _ ?_
      | (with_reducible refine Works.of_snd (by assumption) ?_)
      | (with_reducible refine Works.of_snd2 (by assumption) ?_)
      | (with_reducible refine Works.of_snd3 (by assumption) ?_)
      | (with_reducible refine Works.of_snd4 (by assumption) ?_)
      | fail_if_no_progress (with_reducible refine Works.upd ?_ rfl rfl rfl rfl rfl rfl rfl rfl rfl rfl rfl rfl rfl rfl rfl)
      | split
      | exact le_rfl
      | rfl
      | dsimp -zeta only)

theorem State.rewriteMasked_works {k0 : Nat} {s0 : State} (s : State) (u : Nat) (r : Nat) (masked : List Nat) (old : Int) (fin : Int) (hs0 : Works k0 s0 s) : Works k0 s0 (State.rewriteMasked s u r masked old fin).2 := by
  unfold State.rewriteMasked
  repeat' (first
      | (intro (x : State); refine Works.cut (k := k0) (s := s0) (x := x) ?_ ?_ <;> [(subst x); (clear_value x; intro _)])
      | intro (x : MemState)
      | intro (x : TreeState)
      | intro (x : MgmtState)
      | (intro (x : State → State); subst x)
      | (intro (x : State → _ × State); subst x)
      | (intro (x : _ → State); subst x)
      | (intro (x : _ → _ → State); subst x)
      | intro (x : HostState)
      | (intro x; clear_value x)
      | intro _
      | with_reducible assumption
      | with_reducible apply State.rewriteWord_works
      | lift_lets -underBinder
      | with_reducible refine Works.foldl _ ?_ _ _ ?_
      | with_reducible refine Works.foldl2 _ ?_ _ _ ?_
      | with_reducible refine Works.foldl3 _ ?_ _ _ ?_
      | with_reducible refine Works.foldl4 _ ?_ _ _ ?_
      | with_reducible refine Works.foldl5 _ ?_ _ _ ?_
      | fail_if_no_progress (with_reducible refine Works.upd ?_ rfl rfl rfl rfl rfl rfl rfl rfl rfl rfl rfl rfl rfl rfl rfl)
      | exact le_rfl
      | rfl
      | dsimp -zeta only)

theorem State.writeHalf_works {k0 : Nat} {s0 : State} (s : State) (u : Nat) (who : Nat) (r : Nat) (h : Nat) (cs : List ColumnOut) (old : HalfSlot) (start : Int) (fin : Int) (keepMark : Bool) (hs0 : Works k0 s0 s) : Works k0 s0 (State.writeHalf s u who r h cs old start fin keepMark).2 := by
  unfold State.writeHalf
  repeat' (first
      | (intro (x : State); refine Works.cut (k := k0) (s := s0) (x := x) ?_ ?_ <;> [(subst x); (clear_value x; intro _)])
      | intro (x : MemState)
      | intro (x : TreeState)
      | intro (x : MgmtState)
      | (intro (x : State → State); subst x)
      | (intro (x : State → _ × State); subst x)
      | (intro (x : _ → State); subst x)
      | (intro (x : _ → _ → State); subst x)
      | intro (x : HostState)
      | (intro x; clear_value x)
      | intro _
      | with_reducible assumption
      | with_reducible apply State.rewriteMasked_works
      | with_reducible apply State.writeWord_works
      | with_reducible apply State.putHalf_works
      | with_reducible apply State.count_works
      | lift_lets -underBinder
      | with_reducible refine Works.foldl _ ?_ _ _ ?_
      | with_reducible refine Works.foldl2 _ ?_ _ _ ?_
      | with_reducible refine Works.foldl3 _ ?_ _ _ ?_
      | with_reducible refine Works.foldl4 _ ?_ _ _ ?_
      | with_reducible refine Works.foldl5 _ ?_ _ _ ?_
      | with_reducible refine Works.ite ?_ ?_
      | with_reducible refine Works.ite1 ?_ ?_
      | with_reducible refine Works.ite2 ?_ ?_
      | with_reducible refine Works.ite3 ?_ ?_
      | with_reducible refine Works.ite4 ?_ ?_
      | (with_reducible refine Works.of_snd (by assumption) ?_)
      | (with_reducible refine Works.of_snd2 (by assumption) ?_)
      | (with_reducible refine Works.of_snd3 (by assumption) ?_)
      | (with_reducible refine Works.of_snd4 (by assumption) ?_)
      | fail_if_no_progress (with_reducible refine Works.upd ?_ rfl rfl rfl rfl rfl rfl rfl rfl rfl rfl rfl rfl rfl rfl rfl)
      | split
      | exact le_rfl
      | rfl
      | dsimp -zeta only)

theorem State.readSlot_works {k0 : Nat} {s0 : State} (s : State) (u : Nat) (r : Nat) (h : Nat) (cols : List Nat) (base : Int) (add : Bool) (hs0 : Works k0 s0 s) : Works k0 s0 (State.readSlot s u r h cols base add).2 := by
  unfold State.readSlot
  repeat' (first
      | (intro (x : State); refine Works.cut (k := k0) (s := s0) (x := x) ?_ ?_ <;> [(subst x); (clear_value x; intro _)])
      | intro (x : MemState)
      | intro (x : TreeState)
      | intro (x : MgmtState)
      | (intro (x : State → State); subst x)
      | (intro (x : State → _ × State); subst x)
      | (intro (x : _ → State); subst x)
      | (intro (x : _ → _ → State); subst x)
      | intro (x : HostState)
      | (intro x; clear_value x)
      | intro _
      | with_reducible assumption
      | with_reducible apply State.readMasked_works
      | with_reducible apply State.checkHalf_works
      | lift_lets -underBinder
      | with_reducible refine Works.ite ?_ ?_
      | with_reducible refine Works.ite1 ?_ ?_
      | with_reducible refine Works.ite2 ?_ ?_
      | with_reducible refine Works.ite3 ?_ ?_
      | with_reducible refine Works.ite4 ?_ ?_
      | (with_reducible refine Works.of_snd (by assumption) ?_)
      | (with_reducible refine Works.of_snd2 (by assumption) ?_)
      | (with_reducible refine Works.of_snd3 (by assumption) ?_)
      | (with_reducible refine Works.of_snd4 (by assumption) ?_)
      | fail_if_no_progress (with_reducible refine Works.upd ?_ rfl rfl rfl rfl rfl rfl rfl rfl rfl rfl rfl rfl rfl rfl rfl)
      | split
      | exact le_rfl
      | rfl
      | dsimp -zeta only)

theorem State.addRow_works {k0 : Nat} {s0 : State} (s : State) (u : Nat) (who : Nat) (r : Nat) (ins : List (Nat × ColumnIn × Bool)) (base : Int) (add : Bool) (error : Nat → Nat → Rat) (entry : Nat → Bool) (hs0 : Works k0 s0 s) : Works k0 s0 (State.addRow s u who r ins base add error entry).2 := by
  unfold State.addRow
  repeat' (first
      | (intro (x : State); refine Works.cut (k := k0) (s := s0) (x := x) ?_ ?_ <;> [(subst x); (clear_value x; intro _)])
      | intro (x : MemState)
      | intro (x : TreeState)
      | intro (x : MgmtState)
      | (intro (x : State → State); subst x)
      | (intro (x : State → _ × State); subst x)
      | (intro (x : _ → State); subst x)
      | (intro (x : _ → _ → State); subst x)
      | intro (x : HostState)
      | (intro x; clear_value x)
      | intro _
      | with_reducible assumption
      | with_reducible apply State.readSlot_works
      | with_reducible apply State.writeHalf_works
      | with_reducible apply State.readMasked_works
      | with_reducible apply State.readWord_works
      | with_reducible apply State.count_works
      | lift_lets -underBinder
      | with_reducible refine Works.foldl _ ?_ _ _ ?_
      | with_reducible refine Works.foldl2 _ ?_ _ _ ?_
      | with_reducible refine Works.foldl3 _ ?_ _ _ ?_
      | with_reducible refine Works.foldl4 _ ?_ _ _ ?_
      | with_reducible refine Works.foldl5 _ ?_ _ _ ?_
      | with_reducible refine Works.ite ?_ ?_
      | with_reducible refine Works.ite1 ?_ ?_
      | with_reducible refine Works.ite2 ?_ ?_
      | with_reducible refine Works.ite3 ?_ ?_
      | with_reducible refine Works.ite4 ?_ ?_
      | (with_reducible refine Works.of_snd (by assumption) ?_)
      | (with_reducible refine Works.of_snd2 (by assumption) ?_)
      | (with_reducible refine Works.of_snd3 (by assumption) ?_)
      | (with_reducible refine Works.of_snd4 (by assumption) ?_)
      | fail_if_no_progress (with_reducible refine Works.upd ?_ rfl rfl rfl rfl rfl rfl rfl rfl rfl rfl rfl rfl rfl rfl rfl)
      | split
      | exact le_rfl
      | rfl
      | dsimp -zeta only)

theorem State.accReadRecord_works {k0 : Nat} {s0 : State} (s : State) (addr : Nat) (hs0 : Works k0 s0 s) : Works k0 s0 (State.accReadRecord s addr).2.2 := by
  unfold State.accReadRecord
  repeat' (first
      | (intro (x : State); refine Works.cut (k := k0) (s := s0) (x := x) ?_ ?_ <;> [(subst x); (clear_value x; intro _)])
      | intro (x : MemState)
      | intro (x : TreeState)
      | intro (x : MgmtState)
      | (intro (x : State → State); subst x)
      | (intro (x : State → _ × State); subst x)
      | (intro (x : _ → State); subst x)
      | (intro (x : _ → _ → State); subst x)
      | intro (x : HostState)
      | (intro x; clear_value x)
      | intro _
      | with_reducible assumption
      | with_reducible apply State.readWord_works
      | lift_lets -underBinder
      | with_reducible refine Works.ite ?_ ?_
      | with_reducible refine Works.ite1 ?_ ?_
      | with_reducible refine Works.ite2 ?_ ?_
      | with_reducible refine Works.ite3 ?_ ?_
      | with_reducible refine Works.ite4 ?_ ?_
      | (with_reducible refine Works.of_snd (by assumption) ?_)
      | (with_reducible refine Works.of_snd2 (by assumption) ?_)
      | (with_reducible refine Works.of_snd3 (by assumption) ?_)
      | (with_reducible refine Works.of_snd4 (by assumption) ?_)
      | fail_if_no_progress (with_reducible refine Works.upd ?_ rfl rfl rfl rfl rfl rfl rfl rfl rfl rfl rfl rfl rfl rfl rfl)
      | split
      | exact le_rfl
      | rfl
      | dsimp -zeta only)

theorem State.accRead_works {k0 : Nat} {s0 : State} (s : State) (a : Nat) (n : Nat) (hs0 : Works k0 s0 s) : Works k0 s0 (State.accRead s a n).2.2 := by
  unfold State.accRead
  repeat' (first
      | (intro (x : State); refine Works.cut (k := k0) (s := s0) (x := x) ?_ ?_ <;> [(subst x); (clear_value x; intro _)])
      | intro (x : MemState)
      | intro (x : TreeState)
      | intro (x : MgmtState)
      | (intro (x : State → State); subst x)
      | (intro (x : State → _ × State); subst x)
      | (intro (x : _ → State); subst x)
      | (intro (x : _ → _ → State); subst x)
      | intro (x : HostState)
      | (intro x; clear_value x)
      | intro _
      | with_reducible assumption
      | with_reducible apply State.accReadRecord_works
      | lift_lets -underBinder
      | with_reducible refine Works.foldl _ ?_ _ _ ?_
      | with_reducible refine Works.foldl2 _ ?_ _ _ ?_
      | with_reducible refine Works.foldl3 _ ?_ _ _ ?_
      | with_reducible refine Works.foldl4 _ ?_ _ _ ?_
      | with_reducible refine Works.foldl5 _ ?_ _ _ ?_
      | (with_reducible refine Works.of_snd (by assumption) ?_)
      | (with_reducible refine Works.of_snd2 (by assumption) ?_)
      | (with_reducible refine Works.of_snd3 (by assumption) ?_)
      | (with_reducible refine Works.of_snd4 (by assumption) ?_)
      | fail_if_no_progress (with_reducible refine Works.upd ?_ rfl rfl rfl rfl rfl rfl rfl rfl rfl rfl rfl rfl rfl rfl rfl)
      | split
      | exact le_rfl
      | rfl
      | dsimp -zeta only)

theorem State.accWriteHalf_works {k0 : Nat} {s0 : State} (s : State) (u : Nat) (r : Nat) (h : Nat) (recs : List (Nat × Partial × Bool)) (hs0 : Works k0 s0 s) : Works k0 s0 (State.accWriteHalf s u r h recs) := by
  unfold State.accWriteHalf
  repeat' (first
      | (intro (x : State); refine Works.cut (k := k0) (s := s0) (x := x) ?_ ?_ <;> [(subst x); (clear_value x; intro _)])
      | intro (x : MemState)
      | intro (x : TreeState)
      | intro (x : MgmtState)
      | (intro (x : State → State); subst x)
      | (intro (x : State → _ × State); subst x)
      | (intro (x : _ → State); subst x)
      | (intro (x : _ → _ → State); subst x)
      | intro (x : HostState)
      | (intro x; clear_value x)
      | intro _
      | with_reducible assumption
      | with_reducible apply State.writeWord_works
      | with_reducible apply State.putHalf_works
      | with_reducible apply State.count_works
      | lift_lets -underBinder
      | with_reducible refine Works.foldl _ ?_ _ _ ?_
      | with_reducible refine Works.foldl2 _ ?_ _ _ ?_
      | with_reducible refine Works.foldl3 _ ?_ _ _ ?_
      | with_reducible refine Works.foldl4 _ ?_ _ _ ?_
      | with_reducible refine Works.foldl5 _ ?_ _ _ ?_
      | with_reducible refine Works.ite ?_ ?_
      | with_reducible refine Works.ite1 ?_ ?_
      | with_reducible refine Works.ite2 ?_ ?_
      | with_reducible refine Works.ite3 ?_ ?_
      | with_reducible refine Works.ite4 ?_ ?_
      | (with_reducible refine Works.of_snd (by assumption) ?_)
      | (with_reducible refine Works.of_snd2 (by assumption) ?_)
      | (with_reducible refine Works.of_snd3 (by assumption) ?_)
      | (with_reducible refine Works.of_snd4 (by assumption) ?_)
      | fail_if_no_progress (with_reducible refine Works.upd ?_ rfl rfl rfl rfl rfl rfl rfl rfl rfl rfl rfl rfl rfl rfl rfl)
      | split
      | exact le_rfl
      | rfl
      | dsimp -zeta only)

theorem State.accWrite_works {k0 : Nat} {s0 : State} (s : State) (a : Nat) (bs : List Byte) (poison : Nat → Bool) (hs0 : Works k0 s0 s) : Works k0 s0 (State.accWrite s a bs poison).2 := by
  unfold State.accWrite
  repeat' (first
      | (intro (x : State); refine Works.cut (k := k0) (s := s0) (x := x) ?_ ?_ <;> [(subst x); (clear_value x; intro _)])
      | intro (x : MemState)
      | intro (x : TreeState)
      | intro (x : MgmtState)
      | (intro (x : State → State); subst x)
      | (intro (x : State → _ × State); subst x)
      | (intro (x : _ → State); subst x)
      | (intro (x : _ → _ → State); subst x)
      | intro (x : HostState)
      | (intro x; clear_value x)
      | intro _
      | with_reducible assumption
      | with_reducible apply State.accWriteHalf_works
      | lift_lets -underBinder
      | with_reducible refine Works.foldl _ ?_ _ _ ?_
      | with_reducible refine Works.foldl2 _ ?_ _ _ ?_
      | with_reducible refine Works.foldl3 _ ?_ _ _ ?_
      | with_reducible refine Works.foldl4 _ ?_ _ _ ?_
      | with_reducible refine Works.foldl5 _ ?_ _ _ ?_
      | fail_if_no_progress (with_reducible refine Works.upd ?_ rfl rfl rfl rfl rfl rfl rfl rfl rfl rfl rfl rfl rfl rfl rfl)
      | exact le_rfl
      | rfl
      | dsimp -zeta only)

end Sys2Proof.Machine
end

