-- ==== Sys2Proof/Laws/WorksFlags.lean ====
section
/-! SUPPORT. What the operations of Machine/Flags.lean leave alone (Laws/Works.lean), one lemma for each. -/

namespace Sys2Proof.Machine

theorem State.countFindings_works {k0 : Nat} {s0 : State} (s : State) (u : Nat) (f : Findings) (hs0 : Works k0 s0 s) : Works k0 s0 (State.countFindings s u f) := by
  unfold State.countFindings
  repeat' (first
      | (intro (x : State); refine Works.cut (k := k0) (s := s0) (x := x) ?_ ?_ <;> [(subst x); (clear_value x; intro _)])
      | intro (x : MemState)
      | intro (x : TreeState)
      | intro (x : MgmtState)
      | (intro (x : State → State); subst x)
      | (intro (x : State → _ × State); subst x)
      | (intro (x : _ → State); subst x)
      | (intro (x : _ → _ → State); subst x)
      | intro (x : HostState)
      | (intro x; clear_value x)
      | intro _
      | with_reducible assumption
      | with_reducible apply State.count_works
      | fail_if_no_progress (with_reducible refine Works.upd ?_ rfl rfl rfl rfl rfl rfl rfl rfl rfl rfl rfl rfl rfl rfl rfl)
      | exact le_rfl
      | rfl
      | dsimp -zeta only)

theorem State.orRowFlags_works {k0 : Nat} {s0 : State} (s : State) (a : Nat) (f : Findings) (hs0 : Works k0 s0 s) : Works k0 s0 (State.orRowFlags s a f) := by
  unfold State.orRowFlags
  repeat' (first
      | (intro (x : State); refine Works.cut (k := k0) (s := s0) (x := x) ?_ ?_ <;> [(subst x); (clear_value x; intro _)])
      | intro (x : MemState)
      | intro (x : TreeState)
      | intro (x : MgmtState)
      | (intro (x : State → State); subst x)
      | (intro (x : State → _ × State); subst x)
      | (intro (x : _ → State); subst x)
      | (intro (x : _ → _ → State); subst x)
      | intro (x : HostState)
      | (intro x; clear_value x)
      | intro _
      | with_reducible assumption
      | with_reducible apply State.memWrite_works
      | with_reducible refine Works.ite ?_ ?_
      | with_reducible refine Works.ite1 ?_ ?_
      | with_reducible refine Works.ite2 ?_ ?_
      | with_reducible refine Works.ite3 ?_ ?_
      | with_reducible refine Works.ite4 ?_ ?_
      | fail_if_no_progress (with_reducible refine Works.upd ?_ rfl rfl rfl rfl rfl rfl rfl rfl rfl rfl rfl rfl rfl rfl rfl)
      | split
      | exact le_rfl
      | rfl
      | dsimp -zeta only)

theorem PieceDone.add_works {k0 : Nat} {s0 : State} (acc : PieceDone × State) (f : State → PieceDone × State)
    (hf : ∀ t, Works k0 s0 t → Works k0 s0 (f t).2) (h : Works k0 s0 acc.2) : Works k0 s0 (PieceDone.add acc f).2 := hf _ h

theorem State.runPieces_works {s0 : State} (s : State) (k : Nat) (cls : Nat) (kind : NodeKind) (sl : Slot) (n : Nat) (f : Nat → Nat → Nat → State → PieceDone × State) (hk_f : ∀ x0 x1 x2 t, Works k s0 t → Works k s0 (f x0 x1 x2 t).2) (hs0 : Works k s0 s) : Works k s0 (State.runPieces s k cls kind sl n f) := by
  unfold State.runPieces
  repeat' (first
      | (intro (x : State); refine Works.cut (k := k) (s := s0) (x := x) ?_ ?_ <;> [(subst x); (clear_value x; intro _)])
      | intro (x : MemState)
      | intro (x : TreeState)
      | intro (x : MgmtState)
      | (intro (x : State → State); subst x)
      | (intro (x : State → _ × State); subst x)
      | (intro (x : _ → State); subst x)
      | (intro (x : _ → _ → State); subst x)
      | intro (x : HostState)
      | (intro x; clear_value x)
      | intro _
      | with_reducible assumption
      | with_reducible apply PieceDone.add_works
      | with_reducible apply State.finishReport_works
      | with_reducible apply hk_f
      | lift_lets -underBinder
      | with_reducible refine Works.foldl _ ?_ _ _ ?_
      | with_reducible refine Works.foldl2 _ ?_ _ _ ?_
      | with_reducible refine Works.foldl3 _ ?_ _ _ ?_
      | with_reducible refine Works.foldl4 _ ?_ _ _ ?_
      | with_reducible refine Works.foldl5 _ ?_ _ _ ?_
      | (with_reducible refine Works.of_snd (by assumption) ?_)
      | (with_reducible refine Works.of_snd2 (by assumption) ?_)
      | (with_reducible refine Works.of_snd3 (by assumption) ?_)
      | (with_reducible refine Works.of_snd4 (by assumption) ?_)
      | fail_if_no_progress (with_reducible refine Works.upd ?_ rfl rfl rfl rfl rfl rfl rfl rfl rfl rfl rfl rfl rfl rfl rfl)
      | split
      | exact le_rfl
      | rfl
      | dsimp -zeta only)

end Sys2Proof.Machine
end

