-- ==== Sys2Proof/Laws/WorksEnds.lean ====
section
/-! SUPPORT. Where a descriptor command ends its descriptor: its slot then holds the record (Laws/Works.lean says the rest). -/

namespace Sys2Proof.Machine

/-- The descriptor in slot k has completed. -/
def Done (k : Nat) (t : State) : Prop := ∃ sl, t.slot k = some sl ∧ sl.phase = .done

theorem Works.some {k : Nat} {s t : State} (h : Works k s t) (h0 : (s.slot k).isSome = true) : (t.slot k).isSome = true := by
  rcases h.own with e | ⟨_, _, _, _, _, _, e, _⟩
  · rw [e]; exact h0
  · rw [e]; rfl

theorem Works.done {k : Nat} {s t : State} (h : Works k s t) (h0 : Done k s) : Done k t := by
  obtain ⟨sl, e, hd⟩ := h0
  rcases h.own with e' | ⟨_, sl', _, _, _, _, e', hd', _⟩
  · exact ⟨sl, e'.trans e, hd⟩
  · exact ⟨sl', e', hd'⟩

theorem State.complete_done (s : State) (k : Nat) (st : Status) (node value : Nat) (h0 : (s.slot k).isSome = true) :
    Done k (s.complete k st node value) := by
  unfold State.complete
  split
  · next e => rw [e] at h0; exact absurd h0 (by decide)
  · rename_i sl e
    extract_lets was v sl' t1 _ t1' _ _ t2 id ends t3 u t4 t5
    have d1 : Done k t1 := ⟨sl', by show mget none (mput none s.host.slots k (Option.some sl')) k = _; rw [mget_mput, if_pos rfl], rfl⟩
    have w1 : Works k t1 t1' := Works.upd (Works.refl k t1) rfl rfl rfl rfl rfl rfl rfl rfl rfl rfl rfl rfl rfl rfl rfl
    have w2 : Works k t1 t2 := Works.upd w1 rfl rfl rfl rfl rfl rfl rfl rfl rfl rfl rfl rfl rfl rfl rfl
    have we : Works k t1 ends := Works.ite (State.tellStates_works _ _ _ (State.settle_works _ _ _ w2)) w2
    have w3 : Works k t1 t3 := Works.ite we (State.plan_works _ _ _ we)
    have w4 : Works k t1 t4 := State.modUnit_works _ _ _ w3
    have w5 : Works k t1 t5 := Works.ite w4 (State.sig_works _ _ _ _ w4)
    split
    · exact w3.done d1
    · exact (State.sig_works _ _ _ _ w5).done d1

theorem State.finish_done {k : Nat} {s0 : State} (s : State) (cls : Nat) (st : Status) (value : Nat)
    (h0 : (s0.slot k).isSome = true) (h : Works k s0 s) : Done k (s.finish k cls st value) := by
  unfold State.finish
  have h1 := h.some h0
  split
  · next e => rw [e] at h1; exact absurd h1 (by decide)
  · exact State.complete_done _ _ _ _ _ h1

theorem State.finishReport_done {k : Nat} {s0 : State} (s : State) (cls : Nat) (r : Report) (value : Status → Nat)
    (h0 : (s0.slot k).isSome = true) (h : Works k s0 s) : Done k (s.finishReport k cls r value) := by
  unfold State.finishReport
  split
  · next e => have h1 := h.some h0; rw [e] at h1; exact absurd h1 (by decide)
  · extract_lets id st
    split
    · exact State.finish_done _ _ _ _ h0 h
    · exact State.complete_done _ _ _ _ _ ((State.childrenEnd_works _ _ _ h).some h0)

theorem Done.ite {k : Nat} {a b : State} {c : Prop} [Decidable c] (ha : Done k a) (hb : Done k b) : Done k (if c then a else b) := by
  split
  · exact ha
  · exact hb

end Sys2Proof.Machine
end

