-- ==== Sys2Proof/WellFormed.lean ====
section
/-! DEFINITION. Well-formed commands: every operand fits what carries it (a ring number of 8 bits, a holding slot of 4 096, a
16-byte message header, a 156-byte flit). A meaning is defined on every command, well-formed or not; an operand that does not fit names
nothing, and the command then has no effect. -/

namespace Sys2Proof

/-- An error names a tile, an element and a row that work can have (R594, Table 4.5). -/
def DatapathError.fits (e : DatapathError) : Bool :=
  decide (e.kt < 64) && decide (e.nt < 64) && decide (e.row < 2 ^ 20) && decide (e.index < 128)

/-- The reads of a command ended in one of the three ways of R547. -/
def HostEnd.fits (e : HostEnd) : Bool := decide (e.kind < 3)

/-- Every operand of a command fits the field, the count or the length that the spec gives what carries it. -/
def Instr.wellFormed : Instr → Bool
  | .vauxPowerOn _ flash _ training => decide (flash < 4) && decide (training.length ≤ 8)
  | .mainPowerOn flash _ training => decide (flash < 4) && decide (training.length ≤ 8)
  | .warmReset trigger _ => decide (trigger < 16)
  | .functionLevelReset _ => true
  | .rstCtlWarm value _ => decide (value < 2 ^ 32)
  | .rstCtlPowerdown value => decide (value < 2 ^ 32)
  | .powerdownLimitExpiry => true
  | .suddenPowerLoss _ => true
  | .thermtrip die sensor temp => decide (die < 2) && decide (sensor < 65536) && decide (temp < 256)
  | .supplyHoldStart rail mv => decide (rail < 14) && decide (mv < 65536)
  | .supplyHoldEnd rail mv => decide (rail < 14) && decide (mv < 65536)
  | .pwrAlert => true
  | .pwrAlertReleaseTimer => true
  | .fastSafetyTick watts => decide (watts < 65536)
  | .slowSafetyJunctionTick die => decide (die < 2)
  | .coolantLoopTick => true
  | .policyCapTick => true
  | .vopStep die => decide (die < 2)
  | .junctionSensorRead _ _ => true
  | .coolantReport _ _ _ => true
  | .coolantStateChange => true
  | .pmbusRead _ => true
  | .sqTail ring value => decide (ring < 256) && decide (value < 2 ^ 32)
  | .cqHead ring value => decide (ring < 256) && decide (value < 2 ^ 32)
  | .cqArm ring value => decide (ring < 256) && decide (value < 2 ^ 32)
  | .submissionReadComplete ring index data _ => decide (ring < 256) && decide (index < 65536) && decide (data.length ≤ 1024)
  | .sqRefetchTimer ring => decide (ring < 256)
  | .descriptorAccept => true
  | .descriptorDispatch slot => decide (slot < 4096)
  | .completionRecordWrite ring => decide (ring < 256)
  | .msixTimer ring => decide (ring < 256)
  | .eventRecordWrite => true
  | .bar4Read addr len => decide (addr < 2 ^ 34) && decide (len < 65536)
  | .bar4Write addr data => decide (addr < 2 ^ 34) && decide (data.bytes.length ≤ 4096)
  | .matmul work => decide (work.slot < 4096) && work.errors.all DatapathError.fits
  | .loadw work => decide (work.slot < 4096) && work.errors.all DatapathError.fits
  | .drain slot => decide (slot < 4096)
  | .freezeResume node => decide (node < 65536)
  | .stats slot => decide (slot < 4096)
  | .quant slot => decide (slot < 4096)
  | .rotate slot => decide (slot < 4096)
  | .vec slot => decide (slot < 4096)
  | .reduce slot => decide (slot < 4096)
  | .check slot => decide (slot < 4096)
  | .digest slot => decide (slot < 4096)
  | .move slot _ ends => decide (slot < 4096) && ends.fits
  | .streamSend slot _ ends => decide (slot < 4096) && ends.fits
  | .streamWait slot => decide (slot < 4096)
  | .streamRelease slot => decide (slot < 4096)
  | .streamTimeout slot => decide (slot < 4096)
  | .responseTimeout tag => decide (tag < 65536)
  | .coll slot => decide (slot < 4096)
  | .collSegmentSend slot => decide (slot < 4096)
  | .collTimeout slot => decide (slot < 4096)
  | .counts slot => decide (slot < 4096)
  | .barrier slot => decide (slot < 4096)
  | .barrierRelease slot => decide (slot < 4096)
  | .update work => decide (work.slot < 4096)
  | .nearvec work => decide (work.slot < 4096)
  | .fence slot => decide (slot < 4096)
  | .scrub slot => decide (slot < 4096)
  | .snapshot slot => decide (slot < 4096)
  | .nop slot => decide (slot < 4096)
  | .step slot => decide (slot < 4096)
  | .blockCopyComplete => true
  | .copySealWait => true
  | .imagePassComplete => true
  | .heldRelease slot => decide (slot < 4096)
  | .gridCompletion slot => decide (slot < 4096)
  | .stallLimitExpiry node => decide (node < 65536)
  | .cadenceWindow _ => true
  | .tierWalkTick die => decide (die < 2)
  | .stackWalkTick stack => decide (stack < 8)
  | .stackRefresh work => decide (work.stack < 8)
  | .stackTempRead stack temp => decide (stack < 8) && decide (temp < 256)
  | .regionConversionDone stack => decide (stack < 8)
  | .testEntry stack _ => decide (stack < 8)
  | .marginStart stack => decide (stack < 8)
  | .marginTestDone stack _ => decide (stack < 8)
  | .dataFlit port bytes => decide (port < 12) && bytes.length == 156
  | .controlFlit port bytes => decide (port < 12) && bytes.length == 156
  | .idleFlit port bytes => decide (port < 12) && bytes.length == 156
  | .controlFlitTimer port => decide (port < 12)
  | .replayTimeout port => decide (port < 12)
  | .partnerDetected port chip partnerPort serial => decide (port < 12) && decide (chip < 32768) && decide (partnerPort < 16) && decide (serial < 2 ^ 64)
  | .trainingStepDone work => decide (work.port < 12) && decide (work.capabilities.length ≤ 144) && decide (work.delayOut < 2 ^ 24)
      && decide (work.delayIn < 2 ^ 24)
  | .trainingStepTimeout port => decide (port < 12)
  | .lockAchieved port => decide (port < 12)
  | .lockSearchTimeout port => decide (port < 12)
  | .headerMismatch port => decide (port < 12)
  | .retrainTimeout port => decide (port < 12)
  | .portDisableTimeout port => decide (port < 12)
  | .messageForward port header payload _ => decide (port < 12) && header.length == 16 && decide (payload.length ≤ 4096)
  | .write header payload _ => header.length == 16 && decide (payload.length ≤ 4096)
  | .read header => header.length == 16
  | .readData header payload _ => header.length == 16 && decide (payload.length ≤ 4096)
  | .writeAck header => header.length == 16
  | .streamData header payload _ => header.length == 16 && decide (payload.length ≤ 4096)
  | .streamCredit header => header.length == 16
  | .collReduce header payload _ => header.length == 16 && decide (payload.length ≤ 4096)
  | .collGather header payload _ => header.length == 16 && decide (payload.length ≤ 4096)
  | .collAbort header payload => header.length == 16 && decide (payload.length ≤ 4096)
  | .collBarrier header payload => header.length == 16 && decide (payload.length ≤ 4096)
  | .collCredit header payload => header.length == 16 && decide (payload.length ≤ 4096)
  | .event header payload => header.length == 16 && decide (payload.length ≤ 4096)
  | .unreachable header => header.length == 16
  | .doorbell header => header.length == 16
  | .routeSwitch => true
  | .unsetRootTimer => true
  | .timeRefPulse _ => true
  | .timeRefLost => true
  | .recover => true
  | .rebuild => true
  | .adopt => true
  | .resume => true
  | .hold => true
  | .debugHalt hart pc _ => decide (hart < 64) && decide (pc < 2 ^ 64)
  | .dbgCtlHalt => true
  | .haltDrainComplete => true
  | .drainLimitExpiry => true
  | .hartResume hart => decide (hart < 64)
  | .dbgCtlResume => true
  | .dbgCtlForceFatal => true
  | .coreTrap hart => decide (hart < 64)
  | .watchdog hart => decide (hart < 64)
  | .queueUe => true
  | .coupling => true
  | .dumpDone => true
  | .hostDumpDone => true
  | .debugAuth token => token.length == 104
  | .ctrCmdLatch => true
  | .censusNow => true
  | .censusUnfence node => decide (node < 65536)
  | .stormHaltClear => true
  | .logClearUe block => decide (block < 10)
  | .logClearCe block => decide (block < 10)
  | .rangeClear stack => decide (stack < 8)
  | .ctxCmdWrite => true
  | .ctxCmdRead => true
  | .enumSel value => decide (value < 2 ^ 32)
  | .logSel block value => decide (block < 10) && decide (value < 2 ^ 32)
  | .sigSel value => decide (value < 2 ^ 32)
  | .ctrSel value => decide (value < 2 ^ 32)
  | .rangeSel stack value => decide (stack < 8) && decide (value < 2 ^ 32)
  | .railSel value => decide (value < 2 ^ 32)
  | .coreSel value => decide (value < 2 ^ 32)
  | .mnodeSel value => decide (value < 2 ^ 32)
  | .bbSel value => decide (value < 2 ^ 32)
  | .timeNowLoRead => true
  | .freezeCountRead => true
  | .clampCountRead => true
  | .unitTreeCommit => true
  | .aecCommit => true
  | .tfCommit => true
  | .rsCommit => true
  | .obsCommit => true
  | .pwrCommit => true
  | .rstCommit => true
  | .hostCommit => true
  | .fabCommit => true
  | .tmCommit die => decide (die < 2)
  | .stkCommit stack => decide (stack < 8)
  | .commitPoint block => decide (block < 24)
  | .registerWrite offset value enables => decide (offset < 2 ^ 26) && decide (value < 2 ^ 32) && decide (enables < 16)
  | .setEndpointId eid => decide (eid < 256)
  | .getEndpointId => true
  | .getEndpointUuid => true
  | .getMctpVersionSupport msgType => decide (msgType < 256)
  | .getMessageTypeSupport => true
  | .getVendorDefinedMsgSupport selector => decide (selector < 256)
  | .getSensorReading sensor => decide (sensor < 65536)
  | .getStateSensorReadings sensor => decide (sensor < 65536)
  | .setNumericEffecterValue effecter value => decide (effecter < 65536) && decide (value < 2 ^ 32)
  | .getNumericEffecterValue effecter => decide (effecter < 65536)
  | .getPdr handle => decide (handle < 2 ^ 32)
  | .setEventReceiver eid enable => decide (eid < 256) && decide (enable < 256)
  | .pldmFirmwareUpdate component version svn _ _ => decide (component < 256) && decide (version < 2 ^ 32) && decide (svn < 65)
  | .activateFirmware _ => true
  | .getVersion => true
  | .getCapabilities => true
  | .negotiateAlgorithms asym hash => decide (asym < 2 ^ 32) && decide (hash < 2 ^ 32)
  | .getDigests => true
  | .getCertificate slot offset len => decide (slot < 4096) && decide (offset < 65536) && decide (len < 65536)
  | .challenge slot nonce => decide (slot < 4096) && decide (nonce.length ≤ 32)
  | .getMeasurements operation _ nonce => decide (operation < 256) && decide (nonce.length ≤ 32)
  | .readBlackbox start count => decide (start < 2 ^ 32) && decide (count < 65536)
  | .readLastgasp => true
  | .getDomain node => decide (node < 65536)
  | .setDomain node mv _ => decide (node < 65536) && decide (mv < 65536)
  | .requestFatal word => decide (word < 2 ^ 32)
  | .getBoot => true
  | .blackboxRecordWrite _ => true
  | .plannedCompletion slot => decide (slot < 4096)
  | .fatalDrainLimitExpiry => true
  | .powerdownReadyTimeout => true
  | .dmiAccess op address data => decide (op < 3) && decide (address < 128) && decide (data < 2 ^ 32)
  | .tapInstruction ir _ => decide (ir < 32)
  | .configurationRequest _ register value => decide (register < 1024) && decide (value < 2 ^ 32)
  | .dynamicAddressAssignment address => decide (address < 128)
  | .unsupportedCommand msgType command => decide (msgType < 256) && decide (command < 256)

end Sys2Proof
end

