-- ==== Sys2Proof/Tests/Slice0.lean ====
section
/-! SUPPORT. Tests: an ill-formed command for each check of WellFormed, words that spell no command, single steps against the
spec's own examples, and for every statement states and operands that meet its hypotheses, each clause at a boundary. -/

namespace Sys2Proof.Tests

open Sys2Proof.Machine

set_option Elab.async false

/-! ### Small states -/

/-- A package that is up: power, READY, nothing in flight. -/
def up : State :=
  { State.reset with
    tree := { TreeState.reset with ready := true }
    rst := { RstState.reset with vaux := true, pkgRun := true, bar0 := true }
    stk := (List.range 8).map (fun k => (k, { StackState.reset with mode := .run, trained := true })) }

/-- A state with the shadow of a register changed, the effective value as it was. -/
def shadowed (s : State) (off inst v : Nat) : State :=
  { s with regs := s.regs.put off inst ⟨BitVec.ofNat 32 v, (s.regs.get off inst).eff⟩ }

/-- A state with a register set. -/
def withReg (s : State) (off inst v : Nat) : State :=
  { s with regs := s.regs.put off inst ⟨BitVec.ofNat 32 v, BitVec.ofNat 32 v⟩ }

/-- A state with a capture of a block waiting. -/
def captured (s : State) (b : Nat) : State := { s with regs := { s.regs with captures := [⟨b, []⟩] } }

/-- A slot with a descriptor. -/
def slotOf (ph : SlotPhase) (desc : List Byte) : Slot :=
  ⟨ph, desc, 0, 0, 0, [], 0, false, 0, List.replicate 64 0, [], none, 0, 0, 0, false, 0, none, [], [], [], [], none⟩

/-- A descriptor of an opcode for a node, with bytes from offset 16 on. -/
def descOf (op node : Nat) (rest : List Byte) : List Byte :=
  ([BitVec.ofNat 8 op, 0, 0, 0] ++ natLe 2 node ++ List.replicate 10 0 ++ rest ++ List.replicate 48 0).take 64

/-- No COMMIT waits where nothing is captured. -/
theorem noneWaits_of (s : State) (b : Nat) (h : s.regs.captures = []) : s.noneWaits b := by
  intro c hc; rw [h] at hc; cases hc

/-- A STEP in part 1. -/
def runSmall : StepRun := ⟨0, 1, [], [], 0, 0, false, 0, [], 0, [], none, none, [], false, false, false, false, false⟩

/-- A valid black-box record with SEQ 0. -/
def bbRecord0 : List Byte :=
  let body := natLe 2 1 ++ natLe 2 0 ++ List.replicate 56 0
  body ++ natLe 4 (crc32 body)

/-- A package with that record. -/
def bbUp : State := { up with mgmt := { up.mgmt with records := [(0, bbRecord0)] } }

/-- A package whose slot 0 holds one descriptor. -/
def held (sl : Slot) : State := { up with host := { up.host with slots := [(0, some sl)] } }

/-- A package with completion ring 0 of 16 entries enabled, and submission ring 0 too. -/
def ringed : State := withReg (withReg up regSqCfg 0 0x84000000) regCqCfg 0 0x84000000

/-- A port in a mode, with a message in its replay buffer. -/
def ported (m : PortMode) : PortState := { PortState.reset with mode := m, replay := [(0, [])] }

/-- A package with that port. -/
def onPort (p : Nat) (x : PortState) : State := { up with fab := { up.fab with ports := [(p, x)] } }

/-- A package with one entry of submission ring 0 ready for acceptance. -/
def fed : State := ringed.modSq 0 (fun q => { q with tail := 1, copies := [(0, [0, 0x80] ++ List.replicate 62 0)] })

/-- A package with a halt of the whole package and TIMER_PAUSE. -/
def haltPaused : State :=
  let s := withReg up regObsCfg 0 0x04000001
  { s with cores := { s.cores with halts := [⟨0, 0, false, 0⟩] } }

/-- A header's length of bytes, and a payload that no message carries. -/
def h16 : List Byte := List.replicate 16 0
def big : List Byte := List.replicate 4097 0

/-! ### Well-formed commands: an ill-formed one for each check -/

/-- Every check of WellFormed refuses a command that fails it and nothing else. -/
theorem test_ill_formed_are_refused :
    ([.vauxPowerOn false 4 [] [], .vauxPowerOn false 3 [] (List.replicate 9 none), .mainPowerOn 4 [] [],
      .mainPowerOn 0 [] (List.replicate 9 none), .warmReset 16 [], .rstCtlWarm (2 ^ 32) [], .rstCtlPowerdown (2 ^ 32),
      .thermtrip 2 0 0, .thermtrip 0 65536 0, .thermtrip 0 0 256, .supplyHoldStart 14 0, .supplyHoldStart 0 65536,
      .supplyHoldEnd 14 0, .supplyHoldEnd 0 65536, .fastSafetyTick 65536, .slowSafetyJunctionTick 2, .vopStep 2] : List Instr).all
      (fun c => !c.wellFormed) = true := by decide

theorem test_ill_formed_rings_are_refused :
    ([.sqTail 256 0, .sqTail 0 (2 ^ 32), .cqHead 256 0, .cqHead 0 (2 ^ 32), .cqArm 256 0, .cqArm 0 (2 ^ 32),
      .submissionReadComplete 256 0 [] 0, .submissionReadComplete 0 65536 [] 0, .sqRefetchTimer 256, .descriptorDispatch 4096,
      .completionRecordWrite 256, .msixTimer 256, .bar4Read (2 ^ 34) 0, .bar4Read 0 65536, .bar4Write (2 ^ 34) ⟨[], false⟩]
      : List Instr).all (fun c => !c.wellFormed) = true := by decide

theorem test_ill_formed_slots_are_refused :
    ([.matmul ⟨4096, []⟩, .loadw ⟨4096, []⟩, .matmul ⟨0, [⟨64, 0, 0, 0, false, 0, 1, 0, false⟩]⟩, .matmul ⟨0, [⟨0, 64, 0, 0, false, 0, 1, 0, false⟩]⟩,
      .loadw ⟨0, [⟨0, 0, 2 ^ 20, 0, true, 0, 1, 0, false⟩]⟩, .loadw ⟨0, [⟨0, 0, 0, 0, true, 128, 1, 0, true⟩]⟩, .drain 4096, .freezeResume 65536, .stats 4096, .quant 4096, .rotate 4096, .vec 4096,
      .reduce 4096, .check 4096, .digest 4096, .streamWait 4096, .streamRelease 4096, .streamTimeout 4096,
      .responseTimeout 65536, .coll 4096, .collSegmentSend 4096, .collTimeout 4096, .counts 4096, .barrier 4096,
      .barrierRelease 4096, .update ⟨4096, 0⟩, .nearvec ⟨4096, 1⟩, .fence 4096, .scrub 4096, .snapshot 4096, .nop 4096, .step 4096,
      .heldRelease 4096, .gridCompletion 4096, .stallLimitExpiry 65536] : List Instr).all
      (fun c => !c.wellFormed) = true := by decide

theorem test_ill_formed_memory_and_ports_are_refused :
    ([.tierWalkTick 2, .stackWalkTick 8, .stackRefresh ⟨8, 0⟩, .stackTempRead 8 0, .stackTempRead 0 256, .regionConversionDone 8,
      .testEntry 8 none, .marginStart 8, .marginTestDone 8 0, .dataFlit 12 (List.replicate 156 0), .dataFlit 0 [],
      .controlFlit 12 (List.replicate 156 0), .controlFlit 0 [], .idleFlit 12 (List.replicate 156 0), .idleFlit 0 [],
      .controlFlitTimer 12, .replayTimeout 12, .partnerDetected 12 0 0 0, .partnerDetected 0 32768 0 0,
      .partnerDetected 0 0 16 0, .partnerDetected 0 0 0 (2 ^ 64), .trainingStepDone ⟨12, [], 0, 0⟩, .trainingStepDone ⟨0, List.replicate 145 0, 0, 0⟩, .trainingStepDone ⟨0, [], 2 ^ 24, 0⟩, .trainingStepTimeout 12,
      .lockAchieved 12, .lockSearchTimeout 12, .headerMismatch 12, .retrainTimeout 12, .portDisableTimeout 12,
      .read [], .writeAck [], .streamCredit [], .unreachable [], .doorbell []] : List Instr).all
      (fun c => !c.wellFormed) = true := by decide +kernel

theorem test_ill_formed_registers_and_management_are_refused :
    ([.hartResume 64, .coreTrap 64, .watchdog 64, .debugAuth [], .censusUnfence 65536, .logClearUe 10, .logClearCe 10,
      .rangeClear 8, .enumSel (2 ^ 32), .logSel 10 0, .logSel 0 (2 ^ 32), .sigSel (2 ^ 32), .ctrSel (2 ^ 32), .rangeSel 8 0,
      .rangeSel 0 (2 ^ 32), .railSel (2 ^ 32), .coreSel (2 ^ 32), .mnodeSel (2 ^ 32), .bbSel (2 ^ 32), .tmCommit 2, .stkCommit 8,
      .commitPoint 24, .registerWrite (2 ^ 26) 0 15, .registerWrite 0 (2 ^ 32) 15, .registerWrite 0 0 16, .setEndpointId 256,
      .getSensorReading 65536, .setEventReceiver 256 0] : List Instr).all (fun c => !c.wellFormed) = true := by decide

theorem test_ill_formed_messages_are_refused :
    ([.submissionReadComplete 0 0 (List.replicate 1025 0) 0, .bar4Write 0 ⟨List.replicate 4097 0, false⟩, .move 4096 [] HostEnd.good,
      .move 0 [] ⟨3, 0, []⟩, .streamSend 4096 [] HostEnd.good, .streamSend 0 [] ⟨3, 0, []⟩, .messageForward 12 h16 [] [], .messageForward 0 [] [] [], .messageForward 0 h16 big [], .write [] [] [],
      .write h16 big [], .readData [] [] [], .readData h16 big [], .streamData [] [] [], .streamData h16 big [],
      .collReduce [] [] [], .collReduce h16 big [], .collGather [] [] [], .collGather h16 big [], .collAbort [] [],
      .collAbort h16 big, .collBarrier [] [], .collBarrier h16 big, .collCredit [] [], .collCredit h16 big, .event [] [],
      .event h16 big] : List Instr).all (fun c => !c.wellFormed) = true := by decide +kernel

theorem test_ill_formed_requests_are_refused :
    ([.debugHalt 64 0 0, .debugHalt 0 (2 ^ 64) 0, .getMctpVersionSupport 256, .getVendorDefinedMsgSupport 256,
      .getStateSensorReadings 65536, .setNumericEffecterValue 65536 0, .setNumericEffecterValue 0 (2 ^ 32),
      .getNumericEffecterValue 65536, .getPdr (2 ^ 32), .setEventReceiver 0 256, .pldmFirmwareUpdate 256 0 0 [] true,
      .pldmFirmwareUpdate 0 (2 ^ 32) 0 [] true, .pldmFirmwareUpdate 0 0 65 [] true, .negotiateAlgorithms (2 ^ 32) 0,
      .negotiateAlgorithms 0 (2 ^ 32), .getCertificate 4096 0 0, .getCertificate 0 65536 0, .getCertificate 0 0 65536,
      .challenge 4096 [], .challenge 0 (List.replicate 33 0), .getMeasurements 256 false [],
      .getMeasurements 0 false (List.replicate 33 0), .readBlackbox (2 ^ 32) 0, .readBlackbox 0 65536, .getDomain 65536,
      .setDomain 65536 0 false, .setDomain 0 65536 false, .requestFatal (2 ^ 32), .plannedCompletion 4096, .dmiAccess 3 0 0,
      .dmiAccess 0 128 0, .dmiAccess 0 0 (2 ^ 32), .tapInstruction 32 0, .configurationRequest false 1024 0,
      .configurationRequest false 0 (2 ^ 32), .dynamicAddressAssignment 128, .unsupportedCommand 256 0,
      .unsupportedCommand 0 256] : List Instr).all (fun c => !c.wellFormed) = true := by decide +kernel

theorem test_well_formed_are_taken :
    ([.vauxPowerOn true 3 [] (List.replicate 8 none), .thermtrip 1 65535 255, .sqTail 255 (2 ^ 32 - 1), .matmul ⟨4095, []⟩,
      .stackTempRead 7 255, .dataFlit 11 (List.replicate 156 0), .registerWrite (2 ^ 26 - 1) (2 ^ 32 - 1) 15,
      .commitPoint 23] : List Instr).all Instr.wellFormed = true := by decide +kernel

/-- No word spells a command, and a word placed in front changes nothing. -/
theorem test_no_word_spells_a_command :
    decodeTableWord 0 0 = none ∧ decodeTableWord 64 0x123456789ABCDEF0 = none ∧ up.withFetchWord 32 7 = up := by decide

/-! ### Hypotheses that are met -/

theorem test_hyps_StepRunsTheFrontCommand :
    step { up with pending := [.timeNowLoRead, .nop 0] } = exec .timeNowLoRead { up with pending := [.nop 0] } := rfl

theorem test_hyps_IdleStepIsOneBeat :
    up.pending = [] ∧ State.reset.mainRails = false ∧ up.mainRails = true ∧ up.time.quality = .unset ∧
    [0, 5, -5].all (fun x => ({ up.time with quality := .referenced, slew := x } : TimeState).slew == x) = true := by decide

theorem test_hyps_StepKeepsMemoryCanonical : up.Inv ∧ step State.reset = .next State.reset := ⟨rfl, rfl⟩

theorem test_hyps_StepTakesNothingBack : step State.reset = .next State.reset := rfl

theorem test_hyps_EnumSelLatchesTheRecord :
    up.takesWrites = true ∧ up.mgmt.bootFail = 0 ∧ up.placeOf (0xFFFF % 65536) = none ∧
    (up.placeOf 0).isSome = true ∧ (Machine.placeOf 0).isSome = true ∧
    Machine.placeOf (groupNode 255) = some (.cellGroup 255) ∧ up.placeOf (groupNode 255) = some (.cellGroup 255) := by
  decide +kernel

theorem test_hyps_SigSelLatchesTheEntry :
    up.takesWrites = true ∧ up.placeOf (bits 0xFFFF0000 31 16) = none ∧ (up.placeOf (bits 63 31 16)).isSome = true ∧
    (mget SigLog.reset ({ up with obs := { up.obs with logs := [(0, ⟨1, [(5, 6)]⟩)] } } : State).obs.logs
      (up.unitOf (bits 0 31 16))).entries[0 % 64]? = some (5, 6) ∧
    (mget SigLog.reset up.obs.logs (up.unitOf (bits 63 31 16))).entries.length ≤ 63 % 64 := by decide +kernel

theorem test_hyps_CountersAreReadAndLatched :
    up.takesWrites = true ∧ up.keepers 0xFFFF (ctrId 15 11 0) = [] ∧ up.keepers 1 (ctrId 10 12 0) ≠ [] ∧
    up.tf.run = none ∧ ({ up with tf := { up.tf with run := some runSmall } } : State).tf.run ≠ none := by decide +kernel

theorem test_hyps_OtherSelectorsLatch :
    up.takesWrites = true ∧ 14 ≤ 15 % 16 ∧ 13 % 16 < 14 ∧ mget (0, 0, 0) up.pwr.rails (13 % 16) = (0, 0, 0) ∧
    up.validRecords.length ≤ 0 % 65536 ∧ bbUp.validRecords.reverse[0 % 65536]? = some bbRecord0 ∧ bbRecord0.length = 64 := by
  decide +kernel

theorem test_hyps_ReadsWithAnEffect :
    up.rst.bar0 = true ∧ up.rst.state ≠ 1 ∧ up.rst.state ≠ 4 ∧ up.mgmt.bootFail = 0 ∧ State.reset.rst.bar0 = false ∧
    ({ up with mgmt := { up.mgmt with bootFail := 1 } } : State).mgmt.bootFail ≠ 0 := by decide

/-! #### Commits -/

theorem test_hyps_CommitsThatActAtOnce :
    up.takesWrites = true ∧ (∀ b, up.noneWaits b) ∧ (withReg up regNodeSel 0 (groupNode 0)).takesWrites = true ∧
    groupNode 0 + 1 ∈ (withReg up regNodeSel 0 (groupNode 0)).leavesOf .cell
      ((withReg up regNodeSel 0 (groupNode 0)).regs.shadow regNodeSel 0 % 65536) ∧
    (withReg up regSlackCtl 0 0x100).regs.due regSlackCtl 0 = 0x100 ∧ (∀ b, ¬ (captured up b).noneWaits b) ∧
    (∀ b, (captured up b).takesWrites = true) :=
  ⟨by decide, fun b => noneWaits_of _ _ rfl, by decide, by decide +kernel, by decide +kernel,
    fun _ h => h _ (List.mem_singleton.2 rfl) rfl, fun _ => show up.takesWrites = true by decide⟩

theorem test_hyps_HostCommitStartsRings :
    up.takesWrites = true ∧ up.noneWaits 7 ∧ bit (up.sqCfg 255) 31 = false ∧ bit (up.cqCfg 255) 31 = false ∧
    bit ((shadowed up regSqCfg 255 0x84000000).regs.due regSqCfg 255) 31 = true ∧
    bit ((shadowed up regCqCfg 255 0x84000000).regs.due regCqCfg 255) 31 = true ∧
    bit (ringed.sqCfg 0) 31 = true ∧ bit (ringed.regs.due regSqCfg 0) 31 = true ∧ bit (ringed.cqCfg 0) 31 = true ∧
    bit (ringed.regs.due regCqCfg 0) 31 = true ∧ bit ((shadowed ringed regSqCfg 0 0x04000000).regs.due regSqCfg 0) 31 = false ∧
    bit ((shadowed ringed regCqCfg 0 0x04000000).regs.due regCqCfg 0) 31 = false :=
  ⟨by decide, noneWaits_of _ _ rfl, by decide +kernel⟩

theorem test_hyps_FabCommitActsOnPorts :
    up.takesWrites = true ∧ up.noneWaits 8 ∧ bit (up.regs.due regPortCtl 11) 0 = true ∧ ((onPort 11 (ported .off)).portAt 11).mode = .off ∧
    bit ((shadowed up regPortCtl 11 0).regs.due regPortCtl 11) 0 = false ∧
    bit ((shadowed up regPortCtl 11 3).regs.due regPortCtl 11) 1 = true ∧ bit (up.regs.due regPortCtl 11) 1 = false ∧
    (ported .up).replay ≠ [] ∧ ((onPort 11 (ported .up)).portAt 11).mode = .up ∧
    ((onPort 11 (ported .seek)).portAt 11).mode ≠ .off :=
  ⟨by decide, noneWaits_of _ _ rfl, by decide +kernel⟩

theorem test_hyps_CommitsThatWait :
    up.takesWrites = true ∧ ({ up with res := { up.res with imaging := true } } : State).rsWaits = true ∧
    ¬ (captured up 3).noneWaits 3 ∧ up.rsWaits = false ∧ up.noneWaits 3 ∧ bit (up.regs.due regRsCtl 0) 0 = false ∧
    bit ((shadowed up regRsCtl 0 0x10001).regs.due regRsCtl 0) 0 = true :=
  ⟨by decide, by decide, fun h => h _ (List.mem_singleton.2 rfl) rfl, by decide, noneWaits_of _ _ rfl, by decide +kernel⟩

theorem test_hyps_StackCommitsWaitInOrder :
    up.takesWrites = true ∧
    (shadowed up (regStkCtl 7) 0 0x01280100).stkWaits 7 ((shadowed up (regStkCtl 7) 0 0x01280100).regs.capture 23) = true ∧
    ¬ (captured up 16).noneWaits 16 ∧ up.stkWaits 7 (up.regs.capture 23) = false ∧ up.noneWaits 23 ∧
    ((up.modStack 7 (fun x => { x with mode := .test })).stack 7).mode = .test ∧ (up.stack 7).mode ≠ .test ∧
    bit (up.regs.due (regStkCtl 7) 0) 24 = false ∧ (captured up 5).regs.captures = [⟨5, []⟩] ∧
    ([] : List (Nat × Word32)).Nodup :=
  ⟨by decide, by decide +kernel, fun h => h _ (List.mem_singleton.2 rfl) rfl, by decide +kernel, noneWaits_of _ _ rfl,
    by decide +kernel⟩

/-! #### Writes and rings -/

theorem test_hyps_WritesThatClearAndMove :
    up.takesWrites = true ∧ isDomain (stackNode 7) = true ∧ (up.unit (stackNode 7)).state ≠ .failed ∧ isDomain 0xFFFF = false ∧
    ((up.modUnit 1 (fun x => { x with state := .failed })).unit 1).state = .failed := by decide +kernel

theorem test_hyps_RegisterWriteStores :
    up.takesWrites = true ∧ 3 % 4 ≠ 0 ∧ 4 % 4 = 0 ∧ 14 % 16 ≠ 15 ∧ isRegister 0x3FFFFFC = false ∧ 15 % 16 = 15 ∧
    (regRow regPdCfg).isSome = true ∧ (regRow regPortCtl).isSome = true ∧
    (withReg up regPortSel 0 12).regs.shadow regPortSel 0 % 16 = 12 ∧ (withReg up regPortSel 0 11).regs.shadow regPortSel 0 % 16 < 12 ∧
    ([regPdCfg, regPortCtl, regSqCfg].all (fun off => !(([regEnumSel, regCoreSel, regSigSel, regCtrSel, regRailSel, regMnodeSel,
      regBbSel, regTmLogSel 0, regStkLogSel 0, regRangeSel 0, regMarginCtl 0] : List Nat).contains (regNormal off)))) = true := by
  decide +kernel

theorem test_hyps_RegisterWriteIsTheCommand : up.takesWrites = true ∧ 2 ^ 32 - 1 < 2 ^ 32 := by decide

theorem test_hyps_WritesIgnoredUntilReady :
    State.reset.takesWrites = false ∧ ({ up with rst := { up.rst with state := 1 } } : State).takesWrites = false ∧
    ({ up with rst := { up.rst with state := 4 } } : State).takesWrites = false := by decide

theorem test_hyps_DoorbellsMoveRings :
    ringed.hostOpen = true ∧ bit (ringed.sqCfg 0) 31 = true ∧ (ringed.sqRing 0).error = false ∧
    0 < min 16 ((ringed.modSq 0 (fun q => { q with tail := 1 })).covered 0) ∧ ringed.currentCopy 0 0 = none ∧
    ringSize (ringed.sqCfg 0) ≤ 16 % 65536 ∧ 15 % 65536 < ringSize (ringed.cqCfg 0) ∧
    bits ((withReg ringed regCqMod 0 0).regs.eff regCqMod 0) 31 24 = 0 ∧ bits (ringed.regs.eff regCqMod 0) 31 24 ≠ 0 ∧
    ringed.unconsumed 0 < bits (ringed.regs.eff regCqMod 0) 31 24 ∧
    bits ((ringed.modCq 0 (fun c => { c with tail := 1 })).regs.eff regCqMod 0) 31 24 ≤
      (ringed.modCq 0 (fun c => { c with tail := 1 })).unconsumed 0 ∧
    (mget MsixEntry.reset ringed.host.msix (ringed.cqCfg 0 % 2048)).masked = true ∧
    (mget MsixEntry.reset [(0, ⟨0, 0, false, false⟩)] (ringed.cqCfg 0 % 2048)).masked = false ∧ (ringed.cqRing 0).urgent = false ∧
    ((ringed.modCq 0 (fun c => { c with urgent := true })).cqRing 0).urgent = true := by decide +kernel

theorem test_hyps_EntriesAreHeldAndAccepted :
    ringed.hostOpen = true ∧ (List.replicate 64 (0 : Byte)).length = 64 * 1 ∧ 1 ≤ ringSize (ringed.sqCfg 0) ∧
    (0 + 0 + ringSize (ringed.sqCfg 0) - (ringed.sqRing 0).head) % ringSize (ringed.sqCfg 0) < 16 ∧
    fed.acceptsWork = true ∧ fed.mayAccept 0 = true ∧ fed.slot 4095 = none ∧ State.reset.acceptsWork = false ∧
    ringed.mayAccept 0 = false ∧
    (∃ j < max 1 ((List.replicate 64 (0 : Byte)).length / 64),
      (0 + j) % ringSize ((ringed.modSq 0 (fun q => { q with reading := [0] })).sqCfg 0) ∈
        ((ringed.modSq 0 (fun q => { q with reading := [0] })).sqRing 0).reading) ∧ (ringed.sqRing 0).reading = [] := by decide +kernel

theorem test_hyps_RecordsGoToRings :
    ringed.rst.bar0 = true ∧ ringed.cores.fatal = false ∧ ringed.nodesStopped = false ∧ ringed.memHeld = false ∧
    ringed.cqHasRoom 0 = true ∧ up.cqHasRoom 255 = false ∧ ringed.rst.stoppedAll = false ∧ ringed.rst.state ≠ 4 ∧
    (ringed.event 1 2 false).host.events.length = 1 ∧
    (let t := withReg (ringed.modCq 0 (fun c => { c with armed := true, since := some 0 })) regCqMod 0 0x01000001
     (t.cqRing 0).since = some 0 ∧ (t.cqRing 0).armed = true ∧ t.regs.eff regCqMod 0 % 65536 ≠ 0 ∧
      t.time.beats < 0 + t.regs.eff regCqMod 0 % 65536 * 1024 ∧
      0 + t.regs.eff regCqMod 0 % 65536 * 1024 ≤ ({ t with time := { t.time with beats := 1024 } } : State).time.beats) := by
  decide +kernel

theorem test_hyps_RecordsGoToRings_waiting :
    (held (slotOf .done [])).waitingRecords 0 = [(0, slotOf .done [])] ∧ ringed.waitingRecords 0 = [] := by decide +kernel

theorem test_hyps_Bar4ReadsAndWrites :
    bar4Ok (tierEnd - 1) 1 = true ∧ tierEnd - 1 < tierEnd ∧ bar4Ok tierEnd 4096 = true ∧ tierEnd ≤ tierEnd ∧
    ({ up with mgmt := { up.mgmt with bar4 := true } } : State).mgmt.bar4 = true ∧ up.mgmt.bar4 = false ∧
    (∀ u ∈ unitsOf (tierEnd - 1) 1, mget 0 up.mem.marks u.1 = 0) ∧
    (∃ u ∈ unitsOf 16 1, mget 0 ({ up with mem := { up.mem with marks := [(16, 255)] } } : State).mem.marks u.1 = 255) ∧
    up.sramHeld (dieOfAddr (tierEnd - 1)) = false ∧
    ({ up with pwr := { up.pwr with holds := [(3, 0)] } } : State).sramHeld (dieOfAddr (tierEnd - 1)) = true ∧
    up.res.liveValid = false ∧ (∀ d < 2, bit (up.regs.eff (regFlipCtl d) 0) 16 = false) := by decide +kernel

/-! #### Dispatch -/

theorem test_hyps_DispatchGoesToTheNode :
    up.slot 0 = none ∧ (held (slotOf .waiting (descOf 0x7F 0 []))).mayDispatch 0 (slotOf .waiting (descOf 0x7F 0 [])) = true ∧
    (held (slotOf .running (descOf 0x7F 0 []))).mayDispatch 0 (slotOf .running (descOf 0x7F 0 [])) = false ∧
    up.tf.timetable = false ∧ up.tree.ready = true ∧ opClass 0xFF = none ∧ up.placeOf 0xFFFF = none ∧
    (opClass 0x7F).isSome = true ∧ (up.placeOf 0).isSome = true ∧ (up.unit (up.unitOf 0)).usable = true ∧
    ((up.modUnit 0 (fun x => { x with state := .fenced })).unit 0).usable = false ∧
    up.heldClass (descOf 0x01 0 []) = true ∧ needsExt (descOf 0x7F 0 []) = false := by decide +kernel

theorem test_hyps_DispatchGoesToTheNode_tree :
    ((opClass 0x7F).bind (fun cls => (up.placeOf 0).map (fun p => bit p.classes cls && up.canTake (up.barredNow.filter (· != up.unitOf 0)) treeFuel cls 0))) = some true ∧
    ((opClass 0x01).bind (fun cls => (up.placeOf (stackNode 0)).map (fun p => bit p.classes cls))) = some false := by
  decide +kernel

/-- A Timetable step that begins at time 5, at a time, with a NOP that waits for a cell. -/
def planned (now : Nat) : State :=
  let s := held (slotOf .waiting (descOf 0x7F (groupNode 0 + 1) []))
  { s with
    tf := { s.tf with timetable := true, stepStart := 5 }
    time := { s.time with now := now } }

theorem test_hyps_DispatchGoesToTheNode_planned :
    (planned 5).mayDispatch 0 (slotOf .waiting (descOf 0x7F (groupNode 0 + 1) [])) = true ∧ (planned 5).tree.ready = true ∧
    (planned 5).tf.timetable = true ∧ (planned 5).heldClass (descOf 0x7F (groupNode 0 + 1) []) = true ∧
    (planned 5).plannedStart (slotOf .waiting (descOf 0x7F (groupNode 0 + 1) [])) = 5 ∧ (planned 4).time.now < 5 ∧
    (planned 4).plannedStart (slotOf .waiting (descOf 0x7F (groupNode 0 + 1) [])) = 5 ∧
    targetOf (descOf 0x7F (groupNode 0 + 1) []) < 0xF000 ∧
    ((opClass 0x7F).bind (fun cls => ((planned 5).placeOf (groupNode 0 + 1)).map (fun p =>
      bit p.classes cls && (planned 5).canTake ((planned 5).barredNow.filter (· != (planned 5).unitOf (groupNode 0 + 1))) treeFuel cls
        (groupNode 0 + 1)))) = some true ∧
    ((planned 5).unit ((planned 5).unitOf (groupNode 0 + 1))).usable = true ∧ needsExt (descOf 0x7F (groupNode 0 + 1) []) = false ∧
    ((planned 5).unit ((planned 5).unitOf (groupNode 0 + 1))).state = .idle := by decide +kernel

theorem test_hyps_CompletionsAreReportedInTime :
    (0, 0, 5, 0, true) ∈ ({ up with tf := { up.tf with unreported := [(0, 0, 5, 0, true)] } } : State).tf.unreported ∧
    up.seqDone 0 0 = true := by decide +kernel

/-! #### Descriptors of leaves and movers -/

/-- A running descriptor of an opcode for a node, alone in slot 0, and the package that holds it. -/
def running (op node : Nat) (rest : List Byte) : Slot := slotOf .running (descOf op node rest)

/-- A running descriptor that is alone works. -/
theorem works_alone (sl : Slot) (h : sl.phase = .running) : (held sl).works 0 sl :=
  ⟨rfl, h, rfl, rfl, rfl, by simp [State.piecesHeld, show (held sl).cores.halts = [] from rfl]⟩

theorem works_held (op node : Nat) (rest : List Byte) :
    (held (running op node rest)).works 0 (running op node rest) := works_alone _ rfl

/-- A FENCE at a cell with a scope and stacks. -/
def fenceDesc (scope stks : Nat) : List Byte :=
  (([0x50, 0, 0, 0] ++ natLe 2 (groupNode 0 + 1) ++ [0, 0] ++ natLe 1 scope ++ natLe 1 stks : List Byte) ++ List.replicate 64 0).take 64

/-- For each opcode of a leaf a slot that runs it. -/
theorem test_hyps_LeafDescriptorsComplete :
    (∀ op node rest, (held (running op node rest)).works 0 (running op node rest)) ∧
    [0x01, 0x02, 0x03, 0x04, 0x05, 0x06, 0x10, 0x11, 0x50, 0x60, 0x61, 0x70, 0x7F].all (fun op =>
      opcodeOf (running op 0 []).desc == op && (up.placeOf (targetOf (running op 0 []).desc)).isSome) = true ∧
    bit (field (running 0x01 0 []).desc 45 1) 1 = false ∧
    bit (field (running 0x01 0 (List.replicate 29 0 ++ [2])).desc 45 1) 1 = true ∧
    (held (running 0x01 0 (List.replicate 29 0 ++ [2]))).chainNext (running 0x01 0 (List.replicate 29 0 ++ [2])) = .notYet ∧
    field (running 0x50 0 []).desc 8 1 % 4 = 0 ∧ field (fenceDesc 1 1) 8 1 % 4 ≠ 0 ∧ opcodeOf (fenceDesc 1 1) = 0x50 ∧
    ((up.placeOf (groupNode 0 + 1)).map (fun p => p.kind != .group)) = some true ∧ up.slot 4095 = none ∧
    (∀ j < 8, up.stackGoes j = true) :=
  ⟨works_held, by decide +kernel⟩

theorem test_hyps_UpdatesComplete :
    (held (running 0x40 (stackNode 7) [])).works 0 (running 0x40 (stackNode 7) []) ∧
    (held (running 0x41 0 [])).works 0 (running 0x41 0 []) ∧ (up.placeOf (stackNode 7)).isSome = true ∧
    (∀ j < 8, up.stackGoes j = true) ∧ opcodeOf (running 0x40 (stackNode 7) []).desc = 0x40 ∧
    opcodeOf (running 0x41 0 []).desc = 0x41 :=
  ⟨works_held .., works_held .., by decide +kernel⟩

theorem test_hyps_NodesFreezeStallAndPace :
    ((up.modUnit 2 (fun x => { x with state := .frozen })).unit (up.unitOf 2)).state = .frozen ∧
    (up.unit (up.unitOf 2)).state ≠ .frozen ∧ (up.placeOf (groupNode 0 + 1)) = some (.cell 0 0) ∧
    Place.kind (.cell 0 0) ≠ .group ∧ Place.kind .root = .group ∧ bits (up.regs.eff regStallLimit 0) 23 0 ≠ 0 ∧
    bits ((withReg up regStallLimit 0 0).regs.eff regStallLimit 0) 23 0 = 0 ∧
    (held (running 0x02 (groupNode 0 + 1) [])).hasWork (groupNode 0 + 1) = true ∧ up.hasWork (groupNode 0 + 1) = false ∧
    up.timersPaused = false ∧ (haltPaused).timersPaused = true := by decide +kernel

/-- A MOVE of one row of 16 bytes: kinds of source and destination, and their addresses. -/
def moveDesc (kinds src dst len : Nat) : List Byte :=
  (([0x20, 0, 0, 0] ++ natLe 4 0 ++ natLe 8 src ++ natLe 8 dst ++ natLe 4 kinds ++ natLe 4 len : List Byte)
    ++ List.replicate 64 0).take 64

theorem test_hyps_MovesComplete :
    (∀ kinds a b n, (held (slotOf .running (moveDesc kinds a b n))).works 0 (slotOf .running (moveDesc kinds a b n))) ∧
    opcodeOf (moveDesc 0 16 32 16) = 0x20 ∧ targetOf (moveDesc 0 16 32 16) = 0 ∧ (up.placeOf 0).isSome = true ∧
    up.endpoint (field (moveDesc 0 16 32 16) 8 8) (field (moveDesc 0 16 32 16) 24 1) = some (.local 16) ∧
    up.endpoint (field (moveDesc 0 16 32 16) 16 8) (field (moveDesc 0 16 32 16) 24 1 / 4) = some (.local 32) ∧
    up.endpoint 64 2 = some (.host 64) ∧ up.endpoint (5 * 2 ^ 48 + 16) 1 = some (.remote 5 16) ∧
    Endpoint.isLocal (.host 64) = false ∧ Endpoint.isLocal (.local 16) = true ∧
    field (moveDesc 0 16 32 0) 28 4 = 0 ∧ field (moveDesc 0 16 32 16) 28 4 ≠ 0 ∧ up.slotReqs 0 = [] ∧
    (slotOf .running (moveDesc 0 16 32 16)).unread = [] ∧ (slotOf .running (moveDesc 0 16 32 16)).report = none ∧
    (∀ f ∈ [fun x m => !oneRegion x m, up.stackFenced, up.stackWaits],
      Endpoint.rowsAny (.local 16) 1 0 16 f = false ∧ Endpoint.rowsAny (.local 32) 1 0 16 f = false) ∧
    opcodeOf (running 0x71 0 []).desc = 0x71 ∧
    inTier (addr48 (running 0x71 0 (List.replicate 7 255)).desc 17 / 16 * 16) 16 = false :=
  ⟨fun _ _ _ _ => works_alone _ rfl, by decide +kernel⟩

/-- A STREAM of an action on context 3. -/
def streamDesc (action len : Nat) (until_ : Nat) : List Byte :=
  (([0x21, 0, 0, 0] ++ natLe 4 0 ++ natLe 8 16 ++ natLe 4 (4 * action) ++ natLe 4 3 ++ natLe 8 len ++ natLe 8 until_ : List Byte)
    ++ List.replicate 64 0).take 64

/-- A context entry: mode, head, limit and timeout; ring of 4 KiB at 0. -/
def ctxOf (mode head limit timeout : Nat) : List Byte :=
  natLe 1 mode ++ natLe 1 12 ++ natLe 2 5 ++ natLe 4 3 ++ natLe 8 0 ++ natLe 8 head ++ natLe 8 limit ++ natLe 4 timeout
    ++ List.replicate 28 0

/-- The package that runs a STREAM beside its context. -/
def streaming (desc e : List Byte) : State := (held (slotOf .running desc)).putCtx 3 e

theorem test_hyps_StreamsRun :
    (∀ d e, (streaming d e).works 0 (slotOf .running d)) ∧ opcodeOf (streamDesc 0 0 0) = 0x21 ∧ targetOf (streamDesc 0 0 0) = 0 ∧
    streamCtx (streamDesc 0 0 0) = 3 ∧ [0, 1, 2].all (fun a => streamAction (streamDesc a 0 0) == a) = true ∧
    (streaming (streamDesc 0 0 0) (ctxOf 1 0 0 0)).streamBehind (slotOf .running (streamDesc 0 0 0)) = false ∧
    (streaming (streamDesc 0 0 0) (ctxOf 1 0 0 0)).streamBehind { slotOf .running (streamDesc 0 0 0) with born := 1 } = true ∧
    [1, 2, 3].all (fun m => ctxMode ((streaming (streamDesc 0 0 0) (ctxOf m 0 0 0)).ctx 3) == m) = true ∧
    field (streamDesc 0 0 0) 16 1 % 4 = 0 ∧ field (streamDesc 0 15 0) 24 4 < 16 ∧ oneRegion (addr48 (streamDesc 0 0 0) 8) 0 = true ∧
    field (streamDesc 1 0 64) 32 8 ≤ ctxHead (ctxOf 2 64 0 0) ∧ ctxHead (ctxOf 2 63 0 0) < field (streamDesc 1 0 64) 32 8 ∧
    (ctxOf 2 64 0 0).length = 64 ∧ ctxTimeout (ctxOf 1 0 0 1) ≠ 0 ∧ ctxTimeout (ctxOf 1 0 0 0) = 0 ∧
    0 + 1024 * ctxTimeout (ctxOf 1 0 0 1) ≤ ({ up with time := { up.time with timer := 1024 } } : State).time.timer ∧
    up.time.timer < 0 + 1024 * ctxTimeout (ctxOf 1 0 0 1) :=
  ⟨fun d _ => works_alone (slotOf .running d) rfl, by decide +kernel⟩

/-! #### Messages and collectives -/

/-- A message of a type for this package, which is chip 0. -/
def msgOf (type target tag len : Nat) (payload : List Byte) : Msg :=
  ⟨natLe 1 type ++ [0] ++ natLe 2 0 ++ natLe 2 5 ++ natLe 2 len ++ natLe 6 target ++ natLe 2 tag, payload,
    List.replicate (payload.length / 16) false⟩

/-- This package hears each type of message. -/
theorem test_hears :
    ([(0x01, 32, 16), (0x02, 32, 16), (0x03, 32, 16), (0x04, 0, 0), (0x05, 3, 16), (0x06, 3, 0), (0x07, 9, 16), (0x08, 9, 8),
      (0x09, 0, 16), (0x0A, 5, 0), (0x0B, 0, 0)] : List (Nat × Nat × Nat)).all (fun x =>
        let m := msgOf x.1 x.2.1 7 x.2.2 []
        up.powered && !up.cores.fatal && up.rst.state != 1 && up.tf.run.isNone && !up.messageWaits m && m.header.length == 16
          && m.type == x.1 && m.dst == up.chipId) = true := by decide +kernel

theorem hears_up (s : State) (m : Msg) (h : (s.powered && !s.cores.fatal && s.rst.state != 1 && s.tf.run.isNone &&
    !s.messageWaits m && s.fab.arrived.isEmpty && m.header.length == 16 && m.dst == s.chipId) = true) : s.hears m m.type := by
  simp only [Bool.and_eq_true, Bool.not_eq_true', bne_iff_ne, ne_eq, Option.isNone_iff_eq_none, beq_iff_eq, List.isEmpty_iff] at h
  refine ⟨h.1.1.1.1.1.1.1, h.1.1.1.1.1.1.2, h.1.1.1.1.1.2, h.1.1.1.1.2, h.1.1.1.2, fun x hx => ?_, h.1.2, rfl, h.2⟩
  rw [h.1.1.2] at hx; cases hx

/-- 16 bytes at address 32 are plain tier memory. -/
theorem test_plainTier : up.plainTier 32 16 := by
  refine ⟨?_, ?_, ?_, ?_, ?_, ?_⟩ <;> decide +kernel

theorem test_hyps_MessagesToMemoryAndRings :
    up.hears (msgOf 0x01 32 7 16 (List.replicate 16 1)) 0x01 ∧
    up.plainTier (msgOf 0x01 32 7 16 (List.replicate 16 1)).target (msgOf 0x01 32 7 16 (List.replicate 16 1)).len ∧
    up.hears (msgOf 0x01 tierEnd 7 16 []) 0x01 ∧ oneRegion (msgOf 0x01 tierEnd 7 16 []).target (msgOf 0x01 tierEnd 7 16 []).len = false ∧
    up.hears (msgOf 0x02 32 7 16 []) 0x02 ∧ inTier (msgOf 0x02 32 7 16 []).target (msgOf 0x02 32 7 16 []).len = true ∧
    up.mem.marks = [] ∧ up.hears (msgOf 0x09 0 0 0 []) 0x09 ∧ up.hears (msgOf 0x0B 0 0 0 []) 0x0B ∧
    bit (up.sqCfg 0) 15 = false ∧ bit ((withReg up regSqCfg 0 0x84008000).sqCfg 0) 15 = true ∧ up.host.events.length < 512 := by
  refine ⟨hears_up _ _ ?_, test_plainTier, hears_up _ _ ?_, ?_, hears_up _ _ ?_, ?_, rfl, hears_up _ _ ?_, hears_up _ _ ?_, ?_⟩
    <;> decide +kernel

/-- A package whose slot 0 waits for a response under TAG 7. -/
def asking (read : Bool) : State := (held (running 0x20 0 [])).putReq 7 (some ⟨.slot 0, read, 5, 32, 16, 0, 0, 0⟩)

/-- The same slot waits under TAG 8 too. -/
def asking2 : State := (asking true).putReq 8 (some ⟨.slot 0, true, 5, 48, 16, 0, 0, 0⟩)

theorem test_hyps_ResponsesEndRequests :
    up.req 7 = none ∧ (∀ r, (asking r).asks 7 0 ⟨.slot 0, r, 5, 32, 16, 0, 0, 0⟩ ∧ (asking r).lastAsk 0 7) ∧
    (asking true).slot 0 = some (running 0x20 0 []) ∧ (running 0x20 0 []).poisoned = 0 ∧
    (running 0x20 0 []).unread = [] ∧ (running 0x20 0 []).report = none ∧
    (asking false).hears (msgOf 0x04 0 7 0 []) 0x04 ∧ (asking true).hears (msgOf 0x03 0 7 16 (List.replicate 16 1)) 0x03 ∧
    (asking true).hears (msgOf 0x0A 5 7 0 []) 0x0A ∧ (msgOf 0x0A 5 7 0 []).tag < 0x8000 ∧ (asking true).plainTier 32 16 ∧
    haltPaused.timersPaused = true ∧ (asking true).timersPaused = false ∧ (asking true).tf.run = none := by
  refine ⟨rfl, fun r => ⟨⟨?_, rfl⟩, ?_⟩, rfl, rfl, rfl, rfl, hears_up _ _ ?_, hears_up _ _ ?_, hears_up _ _ ?_, ?_, test_plainTier, ?_, ?_, rfl⟩
  · cases r <;> decide +kernel
  · have h : (asking r).slotReqs 0 = [7] := by cases r <;> decide +kernel
    intro x hx; rw [h] at hx; exact List.mem_singleton.1 hx
  all_goals decide +kernel

/-- A request fails at once where it is the slot's last, of a SNAPSHOT, and at a mover; with another one outstanding the rest goes
on. Its time is STALL_LIMIT beats of 1 024 by default. -/
theorem test_hyps_ResponsesEndRequests_ends :
    (asking true).failsAtOnce 0 7 (running 0x20 0 []) ∧ ¬ asking2.failsAtOnce 0 7 (running 0x20 0 []) ∧
    asking2.asks 7 0 ⟨.slot 0, true, 5, 32, 16, 0, 0, 0⟩ ∧ asking2.failsAtOnce 0 7 (running 0x71 0 []) ∧
    ((up.placeOf (clusterNode 0 0 0 + 2)).map (fun p => p.kind)) = some .mover ∧
    asking2.slot 0 = some (running 0x20 0 []) ∧ asking2.timersPaused = false ∧ asking2.tf.run = none ∧
    0 + asking2.responseBeats ⟨.slot 0, true, 5, 32, 16, 0, 0, 0⟩ = 2 ^ 27 ∧ asking2.time.timer < 2 ^ 27 ∧
    2 ^ 27 ≤ ({ asking2 with time := { asking2.time with timer := 2 ^ 27 } } : State).time.timer := by
  refine ⟨.inr (.inr ⟨?_, rfl⟩), ?_, ⟨by decide +kernel, rfl⟩, .inl (by decide +kernel), ?_⟩
  · have h : (asking true).slotReqs 0 = [7] := by decide +kernel
    intro x hx; rw [h] at hx; exact List.mem_singleton.1 hx
  · have h : asking2.slotReqs 0 = [7, 8] := by decide +kernel
    rintro (h1 | ⟨d, q, c, m, h2⟩ | ⟨h3, -⟩)
    · revert h1; decide +kernel
    · rw [show asking2.placeOf (targetOf (running 0x20 0 []).desc) = some .root from by decide +kernel] at h2; cases h2
    · have := h3 8 (by rw [h]; simp); omega
  · decide +kernel

theorem test_hyps_StreamMessages :
    (up.putCtx 3 (ctxOf 2 0 0 0)).ctx (3 % 2 ^ 18) = ctxOf 2 0 0 0 ∧ (ctxOf 2 0 0 0).length = 64 ∧
    (up.putCtx 3 (ctxOf 2 0 0 0)).hears (msgOf 0x05 3 7 16 (List.replicate 16 1)) 0x05 ∧
    (up.putCtx 3 (ctxOf 2 0 0 0)).hears (msgOf 0x06 3 7 0 []) 0x06 ∧ [0, 1, 2, 3].all (fun m => ctxMode (ctxOf m 0 0 0) == m) = true ∧
    3 / 2 ^ 18 * 16 = ctxHead (ctxOf 2 0 0 0) % 2 ^ 34 ∧ 0 + 4096 ≤ ctxLimit (ctxOf 2 0 0 0) + ctxSize (ctxOf 2 0 0 0) ∧
    ctxLimit (ctxOf 2 0 0 0) + ctxSize (ctxOf 2 0 0 0) < 4096 + 16 ∧ 3 / 2 ^ 18 * 16 ≠ ctxHead (ctxOf 2 16 0 0) % 2 ^ 34 ∧
    ctxHead (ctxOf 2 0 0 0) % ctxSize (ctxOf 2 0 0 0) + 16 ≤ ctxSize (ctxOf 2 0 0 0) ∧
    (up.putCtx 3 (ctxOf 2 0 0 0)).streamSlots 3 = [] ∧ ctxBase (ctxOf 2 0 0 0) + ctxHead (ctxOf 2 0 0 0) % 4096 = 0 ∧
    up.plainTier 0 16 ∧ streamCount (ctxLimit (ctxOf 1 0 0 0)) (3 / 2 ^ 18) < 2 ^ 64 := by
  refine ⟨by decide +kernel, by decide +kernel, hears_up _ _ ?_, hears_up _ _ ?_, by decide +kernel, by decide +kernel,
    by decide +kernel, by decide +kernel, by decide +kernel, by decide +kernel, by decide +kernel, by decide +kernel,
    ⟨?_, ?_, ?_, ?_, ?_, ?_⟩, ?_⟩ <;> decide +kernel

/-- A package that is chip 0, with port 0 up and a route for chip 5 over it. -/
def routed (limit : Nat) : State :=
  { up with fab := { up.fab with
      ports := [(0, { PortState.reset with mode := .up, limits := List.replicate 8 limit })], routes := [(5, 2 ^ 31)] } }

/-- A message for chip 5. -/
def away (hops : Nat) (type : Nat) : Msg := ⟨natLe 1 type ++ natLe 1 (2 * hops) ++ natLe 2 5 ++ List.replicate 12 0, [], []⟩

theorem test_hyps_MessagesAreForwarded :
    (away 0 1).header.length = 16 ∧ (away 0 1).dst ≠ up.chipId ∧ (msgOf 1 0 0 0 []).dst = up.chipId ∧ State.reset.powered = false ∧
    (routed 64).powered = true ∧ (away 126 1).hops ≠ 127 ∧ (away 127 1).hops = 127 ∧ (routed 64).egress (away 0 1) = some (0, false) ∧
    up.egress (away 0 1) = none ∧ ((routed 64).portAt 0).queue = [] ∧ ((routed 64).portAt 0).canSend ⟨0, 0, none, away 1 1⟩ = true ∧
    ((routed 0).portAt 0).canSend ⟨0, 0, none, away 1 1⟩ = false ∧ msgClass (away 0 3) < 2 := by decide +kernel

/-- An active instance of slot 0 with COLL_ID 9 on one order of two chips. -/
def instOf (kind : CollKind) (release : Option Nat) : CollInst :=
  ⟨kind, 0, 9, [[0, 5]], 0, 0, 0, 0, .fp32, none, .nearest, 1, 0, 0, [(0, 0, 1, 1)], [], [], none, [], none, 0, 0, 0, [], [], [],
    [⟨0, 0, false, 0, ⟨[], [], 0, 0⟩, none⟩, ⟨0, 1, false, 0, ⟨[], [], 0, 0⟩, none⟩], [(0, 1)], [], [], [], 0, [], 10, 0, 0, 0, 0,
    0, [], release, false, none, 0, none, [], false⟩

/-- A package that runs that instance. -/
def collecting (op : Nat) (i : CollInst) : State :=
  let s := { routed 64 with host := { up.host with slots := [(0, some (running op 0 []))] } }
  { s with coll := { s.coll with active := [i] } }

theorem test_hyps_CollectivesStart :
    [0x30, 0x31, 0x51].all (fun op => opcodeOf (running op 0 []).desc == op) = true ∧
    (∀ op, (held (running op 0 [])).works 0 (running op 0 [])) ∧ (up.placeOf 0).isSome = true ∧
    16 ≤ (({ up with coll := { up.coll with active := List.replicate 16 (instOf .coll none) } } : State).coll.active.filter
      (fun i => i.ended.isNone)).length ∧
    ([1] : List Nat) ≠ [] ∧ ([1] : List Nat).head? ≠ some 0 ∧ up.coll.waiting = [] ∧
    up.readGroup (addr48 (running 0x30 0 (List.replicate 40 255)).desc 8 / 16 * 16) ≠ none ∧
    up.readGroup (tierEnd / 16 * 16) = none ∧
    (held { running 0x30 0 [] with begun := true }).works 0 { running 0x30 0 [] with begun := true } :=
  ⟨by decide +kernel, fun op => works_held op 0 [], by decide +kernel, by decide +kernel, by decide, by decide, rfl,
    by decide +kernel, by decide +kernel, works_alone _ rfl⟩

theorem test_hyps_CollectiveMessages :
    up.inst 9 = none ∧ [0, 1, 2, 3].all (fun k => bits (msgOf 7 (9 + k * 2 ^ 22) 0 0 []).target 23 22 == k
      && collId (msgOf 7 (9 + k * 2 ^ 22) 0 0 []) == 9) = true ∧ up.coll.finished.contains 9 = false ∧
    ({ up with coll := { up.coll with finished := [9] } } : State).coll.finished.contains 9 = true ∧ up.coll.early.length < 1024 ∧
    (collecting 0x30 (instOf .coll none)).inst 9 = some (instOf .coll none) ∧
    (collecting 0x30 (instOf .coll none)).slot 0 = some (running 0x30 0 []) ∧ (instOf .coll none).gathers = true ∧
    field (natLe 4 0 ++ natLe 4 0 : List Byte) 0 4 < (instOf .coll none).segs.length ∧
    (instOf .coll none).offset up.chipId 0 ≠ 0 ∧ (instOf .coll none).lost = none ∧ (instOf .coll none).done.contains 0 = false ∧
    (instOf .barrier none).release = none ∧ (collecting 0x51 (instOf .barrier none)).inst 9 = some (instOf .barrier none) ∧
    (collecting 0x30 (instOf .coll none)).hears (msgOf 7 9 0 16 (List.replicate 16 0)) 7 ∧
    (collecting 0x30 (instOf .coll none)).hears (msgOf 8 9 0 8 []) 8 ∧ up.hears (msgOf 7 9 0 16 (List.replicate 16 0)) 7 := by
  refine ⟨rfl, by decide +kernel, rfl, by decide, by decide, by decide +kernel, by decide +kernel, by decide +kernel,
    by decide +kernel, by decide +kernel, rfl, by decide +kernel, rfl, by decide +kernel, hears_up _ _ ?_, hears_up _ _ ?_,
    hears_up _ _ ?_⟩ <;> decide +kernel

theorem test_hyps_CollectivesGoOn :
    up.nodesStopped = false ∧ up.tf.run = none ∧ (∀ c ∈ up.coll.active, c.slot ≠ 4095) ∧
    (collecting 0x30 (instOf .coll none)).coll.active = [instOf .coll none] ∧ (instOf .coll none).ended = none ∧
    (instOf .coll none).kind ≠ .barrier ∧ (instOf .barrier (some 0)).release = some 0 ∧
    0 ≤ (collecting 0x51 (instOf .barrier (some 0))).time.now ∧ (collecting 0x51 (instOf .barrier (some 1))).time.now < 1 ∧
    (instOf .coll none).since + (instOf .coll none).timeout ≤ 10 ∧ up.time.timer < (instOf .coll none).since + (instOf .coll none).timeout ∧
    (instOf .coll none).credit 0 = 1 ∧ (instOf .coll none).credit 1 = 0 ∧
    (instOf .coll none).neighbour 0 0 0 = 5 ∧ ((routed 64).egress (away 0 7)).isSome = true := by
  refine ⟨rfl, rfl, fun c hc => ?_, ?_⟩
  · cases hc
  · decide +kernel

/-- A package whose slot 0 runs a STEP: both groups are the table at 0, which holds one order of this chip alone. -/
def stepping : State := { held (running 0x52 0 []) with mem := { up.mem with cells := [(2, 1)] } }

theorem test_hyps_StepBegins :
    stepping.works 0 (running 0x52 0 []) ∧ opcodeOf (running 0x52 0 []).desc = 0x52 ∧
    stepping.readGroup (addr48 (running 0x52 0 []).desc 16 / 16 * 16) = some ([[0]], 0) ∧ up.onceIn [0] = true ∧ up.onceIn [5] = false ∧
    inTier (addr48 (running 0x52 0 []).desc 40) (8 * (field (running 0x52 0 []).desc 46 2 % 4096 + 1)) = true ∧
    inTier tierEnd 8 = false ∧ field (running 0x52 0 []).desc 30 1 % 4 ≠ 3 ∧ addr48 (running 0x52 0 []).desc 22 % 16 = 0 ∧
    up.readGroup tierEnd = none ∧
    (held { running 0x52 0 [] with begun := true }).works 0 { running 0x52 0 [] with begun := true } :=
  ⟨⟨rfl, rfl, rfl, rfl, rfl, by decide +kernel⟩, by decide +kernel, by decide +kernel, by decide +kernel, by decide +kernel, by decide +kernel,
    by decide +kernel, by decide +kernel, by decide +kernel, by decide +kernel, works_alone _ rfl⟩

/-! #### Resilience, memory, ports and time -/

/-- A copy in a phase, for a block at address 0 or a rebuild. -/
def copyOf (w : CopyFor) (phase : Nat) : Copy := ⟨w, 0, [5], 0, phase, 0, false, [], [], false, none, []⟩

/-- A package with changes of its resilience state. -/
def resUp (f : ResState → ResState) : State := { up with res := f up.res }

theorem test_hyps_ResilienceCommands :
    up.takesWrites = true ∧ (resUp (fun r => { r with copy := some (copyOf .rebuild 0) })).cmdBusy = true ∧ up.cmdBusy = false ∧
    up.res.hold = false ∧ (resUp (fun r => { r with hold := true })).res.hold = true ∧ up.res.liveValid = false ∧
    up.res.pending = false ∧ up.res.imageValid = false ∧
    (resUp (fun r => { r with hold := true, pending := true })).res.cut = (resUp (fun r => { r with hold := true })).rsStep ∧
    up.rsArg 2 % 32768 = up.chipId ∧ up.res.copy = none ∧ up.res.blocks = [] ∧
    ((List.range 4).all (fun n => !bit (up.rsArg (2 + n / 2) / 2 ^ (16 * (n % 2)) % 65536) 15)) = true ∧
    bit ((withReg (routed 64) (regRsArg 2) 0 0x8005).rsArg 2) 15 = true ∧
    (withReg (routed 64) (regRsArg 2) 0 0x8005).rsArg 2 % 32768 = 5 ∧ ((routed 64).egress (away 0 2)).isSome = true ∧
    (withReg up (regRsArg 2) 0 1).rsArg 2 + up.rsArg 3 * 2 ^ 32 ≠ 0 ∧ (withReg up (regRsArg 2) 0 1).rsArg 2 ≠ up.res.shape ∧
    up.rsArg 2 + up.rsArg 3 * 2 ^ 32 = 0 ∧ (resUp (fun r => { r with liveValid := true })).res.liveValid = true ∧
    bit ((withReg up (regRsArg 2) 0 1).rsArg 2) 0 = true ∧ bit (up.rsArg 2) 0 = false ∧
    (held (slotOf .waiting [])).slot 0 = some (slotOf .waiting []) ∧ up.host.events.length < 512 := by decide +kernel

/-- An image pass over one range of stack 0, with that stack at a throttle level. -/
def imaged (level : Nat) : State :=
  let s := (resUp (fun r => { r with imaging := true })).modStack 0 (fun x => { x with throttle := level })
  { s with mem := { s.mem with cells := [(5, 0x10), (8, 16)] } }

theorem test_hyps_CopiesAndImagesGoOn_waits :
    (imaged 2).imagedRanges = [(stackBase, 16, stackBase)] ∧ (imaged 2).stackWaits stackBase 16 = false ∧
    (imaged 3).imagedRanges = [(stackBase, 16, stackBase)] ∧ (imaged 3).stackWaits stackBase 16 = true ∧
    (imaged 2).nodesStopped = false ∧ (imaged 2).res.due = false ∧ (imaged 2).res.imaging = true ∧ (imaged 2).res.blocks = [] := by
  decide +kernel

theorem test_hyps_CopiesAndImagesGoOn :
    up.nodesStopped = false ∧ up.res.due = false ∧ up.res.imaging = false ∧
    (resUp (fun r => { r with imaging := true, blocks := [(0, 0)] })).res.blocks ≠ [] ∧
    (resUp (fun r => { r with imaging := true })).res.imaging = true ∧ up.res.copy = none ∧
    (copyOf (.block 0) 4).what = .block 0 ∧ (copyOf (.block 0) 3).phase ≠ 4 ∧
    (resUp (fun r => { r with copy := some (copyOf (.block 0) 4), blocks := [(0, 0)] })).res.blocks = [(0, 0)] ∧
    haltPaused.timersPaused = true ∧ up.timersPaused = false ∧ (copyOf .rebuild 3).sources = 5 :: [] ∧
    (copyOf .rebuild 3).waited + 65536 < 4096 * max 1 (bits ((routed 64).regs.eff regRsCtl 0) 31 16) ∧
    ((routed 64).egress (away 0 2)).isSome = true := by decide +kernel

theorem test_hyps_MemoryIsWalkedAndKept :
    up.powered = true ∧ State.reset.powered = false ∧ (∀ d < 2, bit (up.regs.eff (regTmCtl d) 0) 16 = true ∧ up.sramHeld d = false) ∧
    bit ((withReg up (regTmCtl 1) 0 0).regs.eff (regTmCtl 1) 0) 16 = false ∧
    ({ up with pwr := { up.pwr with holds := [(3, 0)] } } : State).sramHeld 1 = true ∧ up.mem.marks = [] ∧
    bit (up.regs.eff (regStkCtl 7) 0) 19 = true ∧ bit ((withReg up (regStkCtl 7) 0 0).regs.eff (regStkCtl 7) 0) 19 = false ∧
    (up.stack 7).mode = .run ∧ (State.reset.stack 7).mode ≠ .run ∧ (up.stack 7).throttle ≠ 3 ∧ up.stackHeld 7 = false ∧
    ((up.modStack 7 (fun x => { x with throttle := 3 })).stack 7).throttle = 3 ∧
    ({ up with pwr := { up.pwr with holds := [(7, 0)] } } : State).stackHeld 7 = true ∧ (up.stack 7).converting = [] ∧
    ((up.modStack 7 (fun x => { x with converting := [47] })).stack 7).converting = 47 :: [] ∧ up.res.liveValid = false ∧
    up.cores.stopped = false ∧ up.selfRefresh 7 = false ∧ ((up.modStack 7 (fun x => { x with throttle := 3 })).selfRefresh 7) = true ∧
    (up.stack 7).throttle ≤ 3 ∧ stackBase ∉ up.armedUnits ∧ up.armedUnits = [0] ∧
    up.stackWaits (rowPlace 7 0 0 0).addr 32 = false ∧
    (up.modStack 7 (fun x => { x with converting := [0] })).stackWaits (rowPlace 7 0 0 0).addr 32 = true := by
  decide +kernel

/-- A package with a capture that asks for TEST state of stack 7, in a bin. -/
def testAsked (bin : Nat) : State :=
  { up with regs := { up.regs with captures := [⟨23, [(regKey (regStkCtl 7) 0, BitVec.ofNat 32 (0x01280100 + bin * 2 ^ 26))]⟩] } }

theorem test_hyps_StacksAreTested :
    (∀ c ∈ up.regs.captures, c.block ≠ 23) ∧
    [0, 1].all (fun b => match (testAsked b).regs.captures.find? (fun c => c.block == 16 + 7) with
      | some c => wantsTest 7 c.vals && bit ((({ (testAsked b).regs with captures := (testAsked b).regs.captures.erase c }
          : RegFile).apply c.vals).eff (regStkCtl 7) 0) 24
      | none => false) = true ∧
    (up.stack 7).mode = .run ∧ (up.stack 7).converting = [] ∧ (up.stack 7).margin = none ∧ up.takesWrites = true ∧
    (up.stack 7).mode ≠ .test ∧ (up.stack 7).bin = 0 ∧
    ((testAsked 1).regs.captures.find? (fun c => c.block == 16 + 7)).map (fun c => wantsBin 7 c.vals) = some 1 ∧
    ((up.modStack 7 (fun x => { x with mode := .test })).stack 7).margin = none ∧
    ((up.modStack 7 (fun x => { x with mode := .test, margin := some (3, 1, none, 1) })).stack 7).margin = some (3, 1, none, 1) ∧
    bits ((withReg up (regMarginCtl 7) 0 (3 * 2 ^ 28)).regs.eff (regMarginCtl 7) 0) 29 28 = 3 ∧
    bits (up.regs.eff (regMarginCtl 7) 0) 29 28 ≠ 3 ∧ (up.stack (7 / 4 * 4 + 3)).mode ≠ .test ∧
    (∀ j < 4, (([4, 5, 6, 7].foldl (fun s k => s.modStack k (fun x => { x with mode := .test })) up).stack (7 / 4 * 4 + j)).mode
      = .test) := by
  refine ⟨fun c hc => ?_, ?_⟩
  · cases hc
  · decide +kernel

theorem test_hyps_PortsTrainAndFail :
    (onPort 11 (ported .up)).powered = true ∧
    [PortMode.off, .seek, .train, .align, .up, .retrain, .failed].all (fun m =>
      ((onPort 11 (ported m)).portAt 11).mode == m) = true ∧
    ({ ported .train with step := 4 } : PortState).step = 4 ∧ ({ ported .train with step := 3 } : PortState).step < 4 ∧
    ({ ported .train with fails := 1 } : PortState).fails < 2 ∧ 2 ≤ ({ ported .train with fails := 2 } : PortState).fails ∧
    ({ ported .up with closing := true } : PortState).closing = true ∧ (ported .up).closing = false ∧ (ported .up).replay ≠ [] ∧
    ({ ported .up with replay := [] } : PortState).replay = [] ∧ ({ ported .up with resends := 15 } : PortState).resends < 16 ∧
    16 ≤ ({ ported .up with resends := 16 } : PortState).resends ∧ up.host.events.length < 500 := by decide +kernel

/-- A flit of a kind with a SEQ, whose CRC holds. -/
def flitOf (kind seq : Nat) : List Byte := mkFlit kind 0 0 true false seq 0 (List.replicate 144 0)

theorem test_hyps_FlitsArriveAndLeave :
    goodFlit (flitOf 1 0) = true ∧ goodFlit (flitOf 2 0) = true ∧ goodFlit (List.replicate 156 0) = false ∧
    bits (field (flitOf 1 0) 0 4) 31 30 = 1 ∧ bits (field (flitOf 2 0) 0 4) 31 30 = 2 ∧
    bits (field (flitOf 1 0) 0 4) 24 13 = (ported .up).rxSeq ∧ bits (field (flitOf 1 1) 0 4) 24 13 ≠ (ported .up).rxSeq ∧
    bit (field (flitOf 1 0) 0 4) 25 = false ∧ (ported .up).returned.length = 8 ∧ bit (field (flitOf 2 0) 4 2) 12 = false ∧
    (0 + 1) % 4096 ≠ 0 ∧ (({ ported .up with flitsSent := 4095 } : PortState).flitsSent + 1) % 4096 = 0 ∧
    (ported .up).closing = false ∧ (ported .up).queue = [] ∧ ((onPort 11 (ported .up)).portAt 11).mode = .up ∧
    ((onPort 11 (ported .off)).portAt 11).mode ≠ .up := by decide +kernel

/-- A package with a quality of Station Time. -/
def timed (q : Quality) (now : Nat) : State := { up with time := { up.time with quality := q, now := now } }

theorem test_hyps_TimeAndRoutesChange :
    State.reset.powered = false ∧ (routed 64).powered = true ∧ (∀ p < 12, (routed 64).portOffer p = none) ∧
    (routed 64).rootEn = true ∧ (routed 64).upPorts ≠ [] ∧ (timed .holdover 5).time.quality ≠ .unset ∧ up.time.quality = .unset ∧
    up.fab.trefValid = false ∧ up.trefEn = false ∧ (withReg up regTimeCtl 0 7).trefEn = true ∧
    bit ((withReg up regTimeCtl 0 7).regs.eff regTimeCtl 0) 2 = true ∧
    ({ up with fab := { up.fab with trefValid := true } } : State).fab.trefValid = true ∧ (routed 64).bestOffer = some (1, 0, 0, 0) ∧
    (routed 64).chipId = 0 ∧ bit ((withReg up regRouteSwitchHi 0 (2 ^ 31)).regs.eff regRouteSwitchHi 0) 31 = true ∧
    bit (up.regs.eff regRouteSwitchHi 0) 31 = false ∧
    (withReg up regRouteSwitchLo 0 5).regs.eff regRouteSwitchLo 0 ≤ (timed .fabric 5).time.now ∧
    (timed .fabric 4).time.now < (withReg up regRouteSwitchLo 0 5).regs.eff regRouteSwitchLo 0 := by decide +kernel

/-! #### Cores, debug, management -/

theorem test_hyps_HaltsBeginAndEnd :
    State.reset.coresRun = false ∧ up.coresRun = true ∧ up.hartHalted 63 = false ∧ haltPaused.hartHalted 0 = true ∧
    up.takesWrites = true ∧ up.placeOf (0xFFFF) = none ∧ (up.placeOf 0).isSome = true ∧ up.regs.shadow regHaltNode 0 % 65536 < 0xF000 ∧
    haltPaused.draining ⟨0, 0, false, 1⟩ = false ∧ ({ haltPaused with host := (held (running 2 0 [])).host } : State).draining ⟨0, 0, false, 1⟩ = true ∧
    haltPaused.cores.halts.find? (fun x => !x.reported) = some ⟨0, 0, false, 0⟩ ∧
    ({ up with cores := { up.cores with halts := [⟨0, 0, true, 0⟩] } } : State).cores.halts.find? (fun x => !x.reported) = none := by
  decide +kernel

/-- A package with changes of its cores. -/
def coreUp (f : CoreState → CoreState) : State := { up with cores := f up.cores }

theorem test_hyps_FatalIsEnteredOnceAndDumped :
    up.coresRun = true ∧ up.cores.fatal = false ∧ State.reset.coresRun = false ∧
    (coreUp (fun c => { c with fatal := true, dumpState := 1 })).cores.fatal = true ∧ up.cores.stopped = false ∧ up.dumpRoom = 0 ∧
    (withReg up regDumpLen 0 1).dumpRoom ≠ 0 ∧ up.dumpBlocked = false ∧
    ({ withReg (withReg up regDumpLen 0 1) regDumpBaseHi 0 0x1000 with
      stk := [(0, { StackState.reset with mode := .failed })] } : State).dumpBlocked = true ∧
    up.dumpWriter.isSome = true ∧ (coreUp (fun c => { c with dead := [0, 32] })).dumpWriter = none ∧
    up.cores.dumpState ≠ 1 ∧ (coreUp (fun c => { c with fatal := true, dumpState := 2 })).cores.hostDone = false ∧
    bit (up.regs.eff regDumpCtl 0) 2 = false ∧ bit ((withReg up regDumpCtl 0 4).regs.eff regDumpCtl 0) 2 = true ∧
    (coreUp (fun c => { c with hostDone := true })).cores.hostDone = true ∧ hartRole 63 ≠ 0 ∧ up.hartHalted 63 = false := by
  decide +kernel

theorem test_hyps_TapReadsIdcode : up.rst.vaux = true := rfl

theorem test_hyps_DebugIsLocked :
    State.reset.rst.vaux = false ∧ up.mgmt.challenge = [] ∧
    ({ up with mgmt := { up.mgmt with challenge := [1] } } : State).mgmt.challenge ≠ [] ∧ (List.replicate 104 (0 : Byte)).length = 104 ∧
    (List.replicate 103 (0 : Byte)).length ≠ 104 ∧ State.reset.mainRails = false ∧ up.mainRails = true ∧ up.dmOpen = false ∧
    ({ up with mgmt := { up.mgmt with unlocked := 1 } } : State).dmOpen = true ∧ 0x10 ≠ 0x30 ∧ 0x02 ≠ 0x10 ∧ up.rst.testMode = false ∧
    0x1F < 32 ∧ 0x1F ∉ [0x00, 0x01, 0x02, 0x03, 0x04, 0x05, 0x06, 0x10, 0x11, 0x18, 0x19] := by decide +kernel

/-- A package with changes of its management. -/
def mgmtUp (f : MgmtState → MgmtState) : State := { up with mgmt := f up.mgmt }

theorem test_hyps_ManagementIsAnswered :
    State.reset.rst.vaux = false ∧ (mgmtUp (fun m => { m with eidSet := true })).mgmt.eidSet = true ∧ up.rst.vaux = true ∧
    up.mgmt.bootFail = 0 ∧ up.mgmt.outstanding < 8 ∧ up.coresRun = true ∧ up.cores.fatal = false ∧ up.mgmt.written = [] ∧
    (mgmtUp (fun m => { m with written := [(1, 1)] })).mgmt.written = (1, 1) :: [] := by decide +kernel

/-- A FATAL record. -/
def fatalRecord : List Byte := natLe 2 5 ++ List.replicate 62 0

theorem test_hyps_RecordsCensusAndConfiguration :
    State.reset.rst.vaux = false ∧ up.mgmt.queue = [] ∧ (mgmtUp (fun m => { m with bbAvoid := 3 })).mgmt.bbAvoid % 4 = 3 ∧
    (mgmtUp (fun m => { m with queue := [fatalRecord] })).mgmt.queue = fatalRecord :: [] ∧
    ((mgmtUp (fun m => { m with queue := [fatalRecord] })).mgmt.partition (recordSeq fatalRecord)).isSome = true ∧
    field fatalRecord 0 2 ≠ 2 ∧ up.mgmt.bbAvoid % 4 = 0 ∧ up.takesWrites = true ∧
    ({ up with tf := { up.tf with run := some runSmall } } : State).tf.run.isSome = true ∧ up.tf.run = none ∧
    ((up.modDomain (stackNode 7) (fun d => { d with mv := 2 })).domain (stackNode 7)).mv ≠ 0 ∧
    (up.unit (stackNode 7)).usable = true ∧ up.rst.state ≠ 3 ∧ up.rst.bar0 = true ∧
    ({ up with rst := { up.rst with state := 3 } } : State).rst.state = 3 ∧ State.reset.rst.bar0 = false := by decide +kernel

theorem test_hyps_RecordsCensusAndConfiguration_domains :
    stackNode 7 ∈ domainIds ∧ (∀ d ∈ domainIds, (up.domain d).mv = 0 ∧ (up.domain d).unfence = false) := by
  refine ⟨?_, fun d _ => ?_⟩
  · unfold domainIds; rw [List.mem_mergeSort]; decide +kernel
  · exact ⟨rfl, rfl⟩

/-! #### Power and resets -/

/-- A package with changes of its power state. -/
def pwrUp (f : PwrState → PwrState) : State := { up with pwr := f up.pwr }

theorem test_hyps_LoopsMoveTheLevers :
    State.reset.loopsRun = false ∧ up.loopsRun = true ∧ 3000 < 3001 ∧ 2400 ≤ 2400 ∧ 2 ≤ 2 ∧
    ofDie (pwrUp (fun p => { p with hot := (false, true) })).pwr.hot 1 = true ∧ ofDie up.pwr.hot 1 = false ∧ 4 < ofDie up.pwr.uJunction 1 ∧
    ofDie (pwrUp (fun p => { p with uJunction := (36, 4) })).pwr.uJunction 1 ≤ 4 ∧
    ofDie (pwrUp (fun p => { p with slowTicks := (0, 8) })).pwr.slowTicks 1 < 9 ∧
    9 ≤ ofDie (pwrUp (fun p => { p with slowTicks := (0, 9) })).pwr.slowTicks 1 ∧
    (pwrUp (fun p => { p with pCool := 1, p1ms := 2 })).pwr.pCool < (pwrUp (fun p => { p with p1ms := 2 })).pwr.p1ms ∧
    up.pwr.p1ms ≤ up.pwr.pCool ∧ up.noneWaits 5 ∧ min (bits (up.regs.eff regPwrCtl 0) 27 16) up.mgmt.mgmtCap = 2400 ∧
    2400 < 2401 ∧ 98 * 2400 ≤ 100 * 2352 ∧ 100 * 2351 < 98 * 2400 ∧ ofDie up.pwr.vop 1 = up.vTarget 1 ∧
    ofDie (pwrUp (fun p => { p with vop := (20, 19) })).pwr.vop 1 ≠ (pwrUp (fun p => { p with vop := (20, 19) })).vTarget 1 := by
  refine ⟨by decide, by decide, by decide, by decide, by decide, by decide, by decide, by decide, by decide, by decide, by decide,
    by decide, by decide, noneWaits_of _ _ rfl, ?_⟩
  decide +kernel

theorem test_hyps_AlertsReadingsAndHolds :
    State.reset.loopsRun = false ∧ up.loopsRun = true ∧ (pwrUp (fun p => { p with alert := true })).pwr.alert = true ∧
    up.pwr.alert = false ∧ up.rst.vaux = true ∧ up.rst.thermtrip = false ∧ 110 ≤ 110 ∧ 109 < 110 ∧
    (∀ x ∈ [94, 93].take 16 ++ ([] : List Nat).take 16, x < 110) ∧ (∃ x ∈ [94].take 16, x = 94) ∧ (∃ x ∈ [95].take 16, 95 ≤ x) ∧
    (∃ x ∈ [110].take 16 ++ ([] : List Nat).take 16, 110 ≤ x) ∧ up.pwr.coolant = 0 ∧
    (pwrUp (fun p => { p with coolant := 2 })).pwr.coolant = 2 ∧
    (2 : Nat) ≠ up.pwr.coolant ∧ (∀ v ∈ [(750, 1, 0)].take 14, pmbusFault v.2.2 = false) ∧ up.railHolds 11 = false ∧
    (pwrUp (fun p => { p with holds := [(11, 0)] })).railHolds 11 = true ∧ 12 ∉ [2, 3, 6, 7, 8, 9, 10, 11] := by decide +kernel

/-- A package whose reset block has a state. -/
def rstUp (f : RstState → RstState) : State := { up with rst := f up.rst }

theorem test_hyps_PowerOnsAndResets :
    State.reset.rst.vaux = false ∧ up.rst.vaux = true ∧ 3 % 4 = 3 ∧ State.reset.canReset = false ∧ up.canReset = true ∧ 3 ∉ [1, 2, 4] ∧
    up.mgmt.bootFail = 0 ∧ 2 ∈ [1, 2] ∧ up.mgmt.activate = false ∧ up.res.copy = none ∧
    up.mem.buffered = [] ∧ (∀ k < 8, (up.stack k).mode ≠ .test) ∧
    ({ up with rst := { up.rst with testMode := true } } : State).rst.testMode = true ∧ up.rst.testMode = false := by decide +kernel

theorem test_hyps_PowerDownAndPowerLoss :
    State.reset.takesWrites = false ∧ up.takesWrites = true ∧ bits 0 31 16 ≠ 0x5A3C ∧ bits 0x5A3C0000 31 16 = 0x5A3C ∧
    bit 0x5A3C0000 0 = false ∧ bit 0x5A3C0000 1 = false ∧ bit 0x5A3C0001 0 = true ∧ bit 0x5A3C0002 1 = true ∧ up.canReset = true ∧
    up.rst.state = 0 ∧ (rstUp (fun r => { r with state := 2 })).rst.state ≠ 0 ∧ up.res.hold = false ∧
    (coreUp (fun c => { c with fatal := true })).cores.fatal = true ∧
    (rstUp (fun r => { r with state := 2, readyPosted := true })).rst.readyPosted = true ∧
    (rstUp (fun r => { r with state := 2, draining := true })).rst.draining = true ∧
    (held (running 2 0 [])).anySlot .running = true ∧ up.anySlot .running = false ∧
    (rstUp (fun r => { r with state := 4 })).rst.state = 4 ∧ up.mgmt.bbAvoid % 4 ≠ 3 ∧
    14 ∈ [0, 1, 2, 3, 6, 7, 8, 9, 10, 11, 13, 14] ∧ 12 ∉ [0, 1, 2, 3, 6, 7, 8, 9, 10, 11, 13, 14] := by decide +kernel

/-! #### Codes and memory -/

theorem test_hyps_SquallIsOneToOne : (0 : Word128) ≠ 1 := by decide

theorem test_hyps_CodesCorrectOneAndSeeTwo :
    (7, 4) ∈ [(128, 8), (256, 9), (98, 7), (7, 4)] ∧ 0 < 7 + 4 + 1 ∧ 11 < 7 + 4 + 1 ∧ 6 < 7 ∧ 7 ≤ 7 := by decide

theorem test_hyps_ReadsReturnWhatWasWritten : up.plainTier 32 (List.replicate 16 (1 : Byte)).length ∧
    (∀ g, 32 ≤ g → g < 48 → mget 0 up.mem.marks g = 0) := ⟨test_plainTier, fun _ _ _ => rfl⟩

/-! ### The spec's own examples -/

/-- Table 9.4: outputs of Squall (R318). -/
theorem test_squall_vectors :
    squall 0 0 = 0x1BB0059E57AB85BC7EC24C6F343D64B2 ∧
    squall 0x0123456789ABCDEF (squallCounter 7 5) = 0xAE02C34822BC87AEC6919724CE690131 := by decide +kernel

/-- R308 and R309: the element draws are the low 24 bits of the words of an output. -/
theorem test_squall_draw :
    squallDraw 7 3 5 = squallWord 7 3 1 / 2 ^ 32 % 2 ^ 24 := by decide +kernel

/-- A command ends in a next state with a property. -/
def after (c : Instr) (s : State) (p : State → Bool) : Bool :=
  match exec c s with
  | .next t => p t
  | .fault _ => false
  | .refused _ => false

/-- The uses of vector 1: draws 0 to 3 and the word output (after Table 9.6). -/
theorem test_squall_uses :
    [0, 1, 2, 3].map (squallDraw 0 0) = [0x3D64B2, 0xC24C6F, 0xAB85BC, 0xB0059E] ∧ squallWord 0 0 0 % 256 = 0xB2 := by
  decide +kernel

/-- The identifiers of the example after R31. -/
theorem test_identifiers :
    dieNode 0 = 1 ∧ quadrantNode 0 1 = 611 ∧ clusterNode 0 1 3 = 726 ∧ groupNode (32 + 2 * 3 + 1) = 747 ∧
    cellUnit (32 + 2 * 3 + 1) 5 = 0x02F1 ∧ dieNode 1 = 0x0A8A ∧ Machine.placeOf 0x1513 = none ∧
    (Machine.placeOf 0x1512).isSome = true := by decide +kernel

/-- The I3 codes of the example after R71. -/
theorem test_i3_codes :
    [1, 6, 3].map (Fmt.decode .i3) = [.val (.ofRat 1), .val (.ofRat (-2)), .val (.ofRat 3)] ∧ Fmt.decode .i3 4 = .escape := by
  decide +kernel

/-- Quantising to I4 at scale 0.5: the example after R96, by t, both roundings, and stochastic rounding of element 6. -/
theorem test_i4_rounding :
    ([1.5, -0.5, 7, 2.5, -2.2] : List Rat).map (fun t => (encode .i4 .nearest false 0 0 (.ofRat t)).code) = [2, 0, 7, 2, 0xE] ∧
    ([1.5, -0.5, 7, 2.5, -2.2] : List Rat).map (fun t => (encode .i4 .towardZero false 0 0 (.ofRat t)).code) = [1, 0, 7, 2, 0xE] ∧
    (encode .i4 .stochastic false 0 0x5A3C00 (.ofRat (-4 - 5033164 / 8388608))).code = 0xB ∧
    (encode .i4 .stochastic false 0 0xC00000 (.ofRat (-4 - 5033164 / 8388608))).code = 0xC := by decide +kernel

/-- The F8M element 0x5D and the I8 weight 0xA3 of the example in chapter 04. -/
theorem test_f8m_and_i8 : Fmt.decode .f8m 0x5D = .val (.ofRat 26) ∧ Fmt.decode .i8 0xA3 = .val (.ofRat (-93)) := by
  decide +kernel

/-- The accumulator address of the example after R162. -/
theorem test_accumulator_address : accAddr 0x02F1 3 5 = 0x40BC40650 := by decide

/-- The tree sum of the example after Table 8.6. -/
theorem test_tree_sum : treeSum ([16777216, 1, 1, -16777216, 1, 0.5].map Value.ofRat) = .ofRat 2.5 := by decide +kernel

/-- The digests of the example after R624. -/
theorem test_digest :
    digestRow 0 (List.replicate 16 0 ++ [1] ++ List.replicate 7 0) = 0x0000007700000E11 ∧
    digestRow 0 (List.replicate 8 0 ++ [1] ++ List.replicate 15 0) = 0x0000007800000E4B := by decide +kernel

/-- The counter identifiers of the example after R703. -/
theorem test_counter_identifiers : ctrId 7 14 0 = 0x1DC0 ∧ ctrId 17 9 0 = 0x4520 ∧ ctrId 13 19 1 = 0x3661 := by decide

/-- P_cool of the example after R726: 2.0 L/min at 38 °C. -/
theorem test_cool_limit : coolState 38 40 2000 = 1 ∧ coolLimit 1 38 2000 = 1920 := by decide

/-- The stack address of the example after R361. -/
theorem test_stack_address :
    stackPlace 0x101812345678 = ⟨2, 0x78, 22, 1, 0, 1, 0, 97, 0⟩ ∧ dieOfAddr 0x101812345678 = 0 := by decide

/-- A flip mask armed for one granule, the granule then written. -/
def flipped (data1 chk : Nat) : State :=
  let s := withReg (withReg up (regFlipAddrLo 0) 0 0x12345670) (regFlipData 0 1) 0 data1
  ((withReg s (regFlipCtl 0) 0 (0x10000 + chk)).memWrite 0x12345670 (List.replicate 16 0xA5) false).2

/-- The first read class of the example after R355: corrected, written back, logged with S 0x2C. -/
theorem test_flip_is_corrected :
    ((flipped 0x20 0).memRead 0x12345670 16).1 = List.replicate 16 0xA5 ∧ ((flipped 0x20 0).memRead 0x12345670 16).2.1 = [false] ∧
    ((((flipped 0x20 0).memRead 0x12345670 16).2.2.errLogs 0).ce.map (fun e => (e.addr, e.syndrome, e.finder))) =
      [(0x12345670, 0x2C, 0)] := by decide +kernel

/-- Its second and third: uncorrectable with S 0x01, and poisoned with no entry. -/
theorem test_flips_poison :
    ((flipped 0x60 0).memRead 0x12345670 16).2.1 = [true] ∧
    ((((flipped 0x60 0).memRead 0x12345670 16).2.2.errLogs 0).ue.map (·.syndrome)) = [1] ∧
    ((flipped 0 0xFF).memRead 0x12345670 16).2.1 = [true] ∧
    (((flipped 0 0xFF).memRead 0x12345670 16).2.2.errLogs 0).ue = [] := by decide +kernel

/-- The example after R12: an RC counter that holds 41 reads 41, then what came since. -/
theorem test_rc_counter :
    after .clampCountRead { up with host := { up.host with clampCount := 41 } } (fun t =>
      decide ((t.out, t.host.clampCount) = ([.readData [41, 0, 0, 0] false], 0))) = true := by decide +kernel

/-- R845: the IDCODE of stepping B0. -/
theorem test_idcode :
    after (.tapInstruction 1 0) up (fun t => decide (t.out = [.debug 0x124009A7])) = true := by decide +kernel

/-- R733: above 3 000 W T_fast rises by 4 at once. -/
theorem test_fast_loop :
    after (.fastSafetyTick 3001) up (fun t => decide (t.pwr.tFast = 4)) = true := by decide +kernel

/-- R799: a fall of SYS_PWROK leaves POWER_LOST with VAUX up, PKG_RUN low and one LAST_GASP record. -/
theorem test_power_loss :
    after (.suddenPowerLoss 14) up (fun t =>
      decide (t.rst.state = 4 ∧ t.rst.vaux = true ∧ t.out = [.pin "PKG_RUN" false] ∧ t.mgmt.queue.length = 1)) = true := by
  decide +kernel

/-- R351, Table 10.8: LOG_CLEAR empties one log and leaves the other. -/
theorem test_log_clear :
    after (.logClearUe 0) ((flipped 0x60 0).memRead 0x12345670 16).2.2 (fun t =>
      decide ((t.errLogs 0).ue = [])) = true := by decide +kernel

/-- R569, R585: a NOP that waits is dispatched, runs and leaves its record, and the slot holds it until the ring takes it. -/
theorem test_nop_runs :
    after (.descriptorDispatch 0) (held (slotOf .waiting (descOf 0x7F (groupNode 0 + 1) []))) (fun t =>
      decide ((t.slot 0).map (·.phase) = some .running) && after (.nop 0) t (fun u =>
        decide ((u.slot 0).map (fun sl => (sl.phase, sl.record)) =
          some (.done, completionRecord (descOf 0x7F (groupNode 0 + 1) []) .ok (groupNode 0 + 1) 0 u.stamp)))) = true := by decide +kernel

/-- R585: an opcode that Table 16.4 does not hold completes ABORTED with NODE 0xFFFF. -/
theorem test_unknown_opcode :
    after (.descriptorDispatch 0) (held (slotOf .waiting (descOf 0x33 (groupNode 0 + 1) []))) (fun t =>
      decide ((t.slot 0).map (·.record) = some (completionRecord (descOf 0x33 (groupNode 0 + 1) []) .aborted 0xFFFF 0 t.stamp))) = true := by
  decide +kernel

/-- An engine of stack 0 has written the sector at its base, with slot 0 running a FENCE (R424, R425). -/
def wrote (scope stks : Nat) : State :=
  ((held (slotOf .running (fenceDesc scope stks))).ueWrite (.start 3) stackBase (List.replicate 32 7) (List.replicate 32 false)).2

/-- An engine's write waits with what the sector held; a FENCE of its stack publishes it, one of another stack, or with
SCOPE NONE, does not, and the pins then find what was written (R424 to R426, R616). -/
theorem test_write_buffer :
    (wrote 1 1).mem.buffered = [⟨stackBase, List.replicate 32 0, 0, 3⟩] ∧
    [(1, 1), (1, 2), (0, 1)].map (fun p => after (.fence 0) (wrote p.1 p.2) (fun t => t.mem.buffered == [])) = [true, false, false] ∧
    after (.fence 0) (wrote 1 1) (fun t => (t.readLocal stackBase 32).1 == List.replicate 32 7) = true := by decide +kernel

/-- The digits and the six lane products of the example after R106. -/
theorem test_lane_products :
    Fmt.digitsOf .f8m false 0x5D = [⟨.finite, false, 5, 1⟩, ⟨.finite, false, 1, 4⟩] ∧
    Fmt.digitsOf .i8 false 0xA3 = [⟨.finite, true, 5, 0⟩, ⟨.finite, true, 3, 3⟩, ⟨.finite, true, 1, 6⟩] ∧
    (Fmt.digitsOf .f8m false 0x5D).flatMap (fun a => (Fmt.digitsOf .i8 false 0xA3).map (fun w => (a.mul w).rat)) =
      [-50, -240, -640, -80, -384, -1024] ∧
    laneSum (Fmt.digitsOf .f8m false 0x5D) (Fmt.digitsOf .i8 false 0xA3) = -2418 := by decide +kernel

/-- A MATMUL of one row of zeros at cell 0 of group 0: K 4, N 4. -/
def zeroMatmul : State := held (slotOf .running (descOf 0x01 (groupNode 0 + 1) (List.replicate 30 0 ++ natLe 2 4 ++ natLe 2 3)))

/-- What residue events have counted at the cell that runs it. -/
def residueCounts (es : List DatapathError) : Bool × List Nat :=
  match exec (.matmul ⟨0, es⟩) zeroMatmul with
  | .next t => ((t.unit (groupNode 0 + 1)).suspended, [0, 1, 2].map (fun n => t.ctr (groupNode 0 + 1) (ctrId 7 14 n)))
  | .fault _ => (false, [])
  | .refused _ => (false, [])

/-- A column sum off by 5 is replayed; off in the replay too, the cell is suspended; off by 31 it is not seen (R229 to R237). -/
theorem test_residue_replay :
    residueCounts [⟨0, 0, 0, 0, false, 3, 5, 0, false⟩] = (false, [1, 1, 0]) ∧
    residueCounts [⟨0, 0, 0, 0, false, 3, 5, 0, false⟩, ⟨0, 0, 0, 1, false, 3, 5, 0, false⟩] = (true, [1, 0, 1]) ∧
    residueCounts [⟨0, 0, 0, 0, false, 3, 31, 0, false⟩] = (false, [0, 0, 0]) := by decide +kernel
/-! ### Hypotheses of later clauses, each met -/

theorem test_hyps_IdleStepIsOneBeat_quiet : (∀ p, (up.portAt p).inbox = []) ∧ up.fab.arrived = [] := ⟨fun _ => rfl, rfl⟩

/-- A package whose function is in D0 with MSI-X enabled and vector 0 not masked, and rings 0. -/
def msixed : State :=
  let s := ringed.setConfig 44 0x87FF0011
  { s with host := { s.host with msix := [(0, ⟨0, 0, false, false⟩)] } }

theorem test_hyps_DoorbellsMoveRings_masks :
    ringed.vectorMasked (ringed.cqCfg 0 % 2048) = true ∧ msixed.vectorMasked (msixed.cqCfg 0 % 2048) = false ∧
    (msixed.setConfig 44 0xC7FF0011).vectorMasked 0 = true ∧ (msixed.setConfig 17 0xB).vectorMasked 0 = true := by decide +kernel

theorem test_hyps_EntriesAreHeldAndAccepted_d0 :
    ringed.d3hot = false ∧ (ringed.setConfig 17 0xB).d3hot = true ∧ (ringed.setConfig 17 0xB).hostOpen = false ∧
    fed.currentCopy 0 0 = some ([0, 0x80] ++ List.replicate 62 0) := by decide +kernel

/-- An UPDATE of stack 0 aimed at the root, that waits. -/
def updWaiting : Slot :=
  slotOf .waiting (([0x40] ++ List.replicate 7 0 ++ natLe 6 stackBase ++ List.replicate 64 0 : List Byte).take 64)

theorem test_hyps_DispatchGoesToTheNode_engines :
    (held updWaiting).enginesFenced ((held updWaiting).barredNow.filter (· != (held updWaiting).unitOf 0)) updWaiting.desc = false ∧
    (let s := (held updWaiting).modUnit (stackNode 0) (fun x => { x with state := .fenced })
     s.enginesFenced (s.barredNow.filter (· != s.unitOf 0)) updWaiting.desc = true ∧ (s.unit (s.unitOf 0)).usable = true ∧
      s.mayDispatch 0 updWaiting = true ∧ s.canTake (s.barredNow.filter (· != s.unitOf 0)) treeFuel 5 0 = true) ∧
    (planned 5).enginesFenced ((planned 5).barredNow.filter (· != (planned 5).unitOf (groupNode 0 + 1)))
      (descOf 0x7F (groupNode 0 + 1) []) = false ∧
    ((planned 5).handshakeCount (slotOf .waiting (descOf 0x01 (groupNode 0 + 1) []))).isSome = true ∧
    (planned 5).handshakeCount (slotOf .waiting (descOf 0x7F (groupNode 0 + 1) [])) = none ∧
    ({ up with res := { up.res with imaging := true } } : State).readLists.slot 0 = none := by decide +kernel

/-- For each opcode of a leaf but UPDATE and NEARVEC a descriptor of zeros names ranges that are legal. -/
theorem test_hyps_LeafDescriptorsComplete_ranges :
    up.placeOf 0 = some .root ∧
    [0x01, 0x02, 0x03, 0x04, 0x05, 0x06, 0x10, 0x11, 0x60, 0x61, 0x70].all (fun op =>
      (held (running op 0 [])).rangesLegal .root (running op 0 [])) = true := by decide +kernel

/-- A descriptor of an opcode for the root with bytes from offset 8 on. -/
def rootDesc (op : Nat) (rest : List Byte) : List Byte :=
  ([BitVec.ofNat 8 op] ++ List.replicate 7 0 ++ rest ++ List.replicate 64 0).take 64

/-- An UPDATE of one element, whose record lies at the base of stack 0, and a NEARVEC of one element there. -/
def updDesc : List Byte := rootDesc 0x40 (natLe 6 stackBase)
def nearDesc : List Byte := rootDesc 0x41 (natLe 6 stackBase ++ natLe 6 stackBase ++ natLe 6 (stackBase + 64))

/-- A package that runs one of them, unit 0 of stack 0 Open, and the record naming arrays there. -/
def updating (d : List Byte) : State :=
  let s := withReg (held (slotOf .running d)) (regRegionLo 0) 0 1
  { s with mem := { s.mem with cells := (List.range 4).map (fun n => (stackBase + 6 * n + 5, 16)) } }

theorem test_hyps_UpdatesComplete_ranges :
    (updating updDesc).rangesLegal .root (slotOf .running updDesc) = true ∧
    (updating nearDesc).rangesLegal .root (slotOf .running nearDesc) = true ∧ (slotOf .running updDesc).engines = none ∧
    (slotOf .running updDesc).pieces = [] ∧ (∀ j < 8, (updating updDesc).stackGoes j = true) := by decide +kernel

theorem test_hyps_NodesFreezeStallAndPace_frozen :
    ({ up with tree := { up.tree with frozen := [(0, [groupNode 0 + 1])] } } : State).frozenLeaves 0 = [groupNode 0 + 1] ∧
    up.frozenLeaves 0 = [] := by decide +kernel

/-- A SNAPSHOT of one empty range at 0, with its list at 0, to local address 0. -/
def snapDesc : List Byte := rootDesc 0x71 []

theorem test_hyps_MovesComplete_snapshot :
    (held (slotOf .running snapDesc)).works 0 (slotOf .running snapDesc) ∧
    up.endpoint (field snapDesc 8 8) (field snapDesc 16 1) = some (.local 0) ∧ addr48 snapDesc 17 / 16 * 16 = 0 ∧
    field snapDesc 24 4 % 65536 + 1 = 1 ∧ inTier 0 (16 * 1) = true ∧ anyP (up.memRead 0 (16 * 1)).2.1 = false ∧
    inTier (field (up.memRead 0 (16 * 1)).1 0 6) (field (up.memRead 0 (16 * 1)).1 8 8) = true ∧
    (slotOf .running snapDesc).fails = [] ∧ HostEnd.good.kind = 0 ∧ up.d3hot = false :=
  ⟨works_alone _ rfl, by decide +kernel⟩

theorem test_hyps_MessagesToMemoryAndRings_waits :
    (up.modStack 0 (fun x => { x with throttle := 3 })).messageWaits (msgOf 0x01 stackBase 7 16 (List.replicate 16 1)) = true ∧
    (msgOf 0x01 stackBase 7 16 (List.replicate 16 1)).dst = up.chipId ∧
    512 + up.cqRoom 0 ≤ ({ up with host := { up.host with events := List.replicate 512 [] } } : State).host.events.length := by
  decide +kernel

theorem test_hyps_ResponsesEndRequests_queue : (asking true).queuing = [] ∧ (running 0x20 0 []).fails = [] :=
  ⟨by unfold State.queuing; decide +kernel, rfl⟩

theorem test_hyps_MessagesAreForwarded_types : knownType (away 0 1).type = true ∧ knownType (away 0 0x0C).type = false ∧
    (routed 64).fab.arrived = [] ∧ ((routed 64).portAt 0).replay.length + (away 0 1).flits ≤ 512 := by decide +kernel

/-- A collective of one chip, whose table at 0 holds one order of this chip alone. -/
def collAlone (op : Nat) : State := { held (slotOf .running (rootDesc op [])) with mem := { up.mem with cells := [(2, 1)] } }

theorem test_hyps_CollectivesStart_legal :
    [0x30, 0x31, 0x51].all (fun op => (collAlone op).collLegal (slotOf .running (rootDesc op []))) = true ∧
    (collAlone 0x30).readGroup (addr48 (rootDesc 0x30 []) 8 / 16 * 16) = some ([[0]], 0) ∧ (collAlone 0x30).chipId = 0 ∧
    (collAlone 0x30).collAhead (slotOf .running (rootDesc 0x30 [])) = 0 := by decide +kernel

theorem test_hyps_CollectivesStart_reachable : (collAlone 0x30).membersReachable (slotOf .running (rootDesc 0x30 [])) := by
  intro orders c h m hm _
  have h0 := test_hyps_CollectivesStart_legal.2.1
  have : (slotOf .running (rootDesc 0x30 [])).desc = rootDesc 0x30 [] := rfl
  rw [this, h0] at h
  cases h
  rw [show (collAlone 0x30).chipId = 0 from test_hyps_CollectivesStart_legal.2.2.1]
  exact .inl (by simpa using hm)

theorem test_hyps_CollectiveMessages_stale :
    ({ up with coll := { up.coll with stale := [9] } } : State).coll.stale.contains 9 = true ∧ up.coll.stale.contains 9 = false ∧
    up.inst 9 = none := ⟨by decide, by decide, rfl⟩

theorem test_hyps_CollectivesGoOn_segment :
    (((List.range (instOf .coll none).orders.length).flatMap (fun o => [(o, 0), (o, 1)])).findSome? (fun od =>
      if 0 < (instOf .coll none).credit (2 * od.1 + od.2) then (instOf .coll none).nextReady od.1 od.2 else none)).isSome = true ∧
    ((instOf .coll none).ready.head?.map (fun r => (r.back, (instOf .coll none).ready.erase r == []))) = some (none, false) := by
  unfold CollInst.nextReady; decide +kernel

theorem test_hyps_CopiesAndImagesGoOn_lists :
    (imaged 2).res.restoring = none ∧ (imaged 2).readLists.imagesFenced = false ∧ (imaged 2).readLists.imagesWait = false ∧
    (imaged 3).readLists.imagesWait = true ∧ (imaged 3).readLists.imagesFenced = false ∧
    ((imaged 2).modStack 0 (fun x => { x with mode := .failed })).readLists.imagesFenced = true := by decide +kernel

theorem test_hyps_StacksAreTested_engines :
    (testAsked 0).engineWork 7 = false ∧ (up.modStack 7 (fun x => { x with mode := .training })).engineWork 7 = false ∧
    ((up.modStack 7 (fun x => { x with mode := .training })).stack 7).retraining = true ∧
    (held { slotOf .running updDesc with engines := some ⟨[], [], false, [], 1, 0, [], 0, 0⟩ }).engineWork 0 = true := by
  decide +kernel

theorem test_hyps_PortsTrainAndFail_links :
    (ported .up).linked = true ∧ (ported .seek).linked = false ∧ ({ ported .align with known := true } : PortState).linked = true ∧
    (ported .seek).known = false ∧ ({ ported .train with step := 2 } : PortState).step = 2 := by decide

theorem test_hyps_FlitsArriveAndLeave_buffers :
    (ported .up).got.length = 8 ∧ (ported .up).buffered 0 < classBuffer 0 ∧ ¬ 3 ≤ (ported .align).lockGood ∧
    3 ≤ ({ ported .align with lockGood := 3 } : PortState).lockGood ∧ bit (field (flitOf 1 0) 0 4) 26 = true ∧
    bit (field (mkFlit 1 0 0 true true 0 0 (List.replicate 144 0)) 0 4) 25 = true ∧
    2 * bits (field (flitOf 1 0) 0 4) 29 28 + bits (field (flitOf 1 0) 0 4) 27 27 = 0 ∧
    (onPort 11 (ported .up)).tf.timetable = false := by decide +kernel

theorem test_hyps_FatalIsEnteredOnceAndDumped_waits :
    (withReg (withReg up regDumpLen 0 1) regDumpBaseHi 0 0x1000).stackWaits
      (withReg (withReg up regDumpLen 0 1) regDumpBaseHi 0 0x1000).dumpBase 1 = false ∧
    ((withReg (withReg up regDumpLen 0 1) regDumpBaseHi 0 0x1000).modStack 0 (fun x => { x with throttle := 3 })).stackWaits
      (withReg (withReg up regDumpLen 0 1) regDumpBaseHi 0 0x1000).dumpBase 1 = true := by decide +kernel

theorem test_hyps_DebugIsLocked_bus : up.sbPending = 0 ∧ up.sbGo 0 = up ∧ (up.setDm 0x138 1).sbPending = 1 := by decide +kernel

theorem test_hyps_ManagementIsAnswered_kinds :
    up.sensor 1 = some 0 ∧ up.sensor 0 = none ∧ up.stateSensor 43 = some 0 ∧ up.stateSensor 42 = none ∧ isDomain 1 = true ∧
    isDomain 0xFFFF = false ∧ (List.replicate 32 (0 : Byte)).length = 32 := by decide +kernel

theorem test_hyps_RecordsCensusAndConfiguration_msix :
    msixed.d3hot = false ∧ 0x80000000 % 2 ^ 32 / 2 ^ 30 = 2 ∧ (0, ⟨0, 0, false, false⟩) ∈ msixed.host.msix ∧
    (44 : Nat) ≠ 17 ∧ 3 % 4 ≠ 1 := by decide +kernel

theorem test_hyps_PowerOnsAndResets_tests :
    (∀ k < 8, (up.stack k).inTest = false) ∧ ((up.modStack 7 (fun x => { x with mode := .test })).stack 7).inTest = true := by
  decide

/-- R548: a read of BAR2 returns zero, whatever the doorbell registers hold. -/
theorem test_bar2_reads_zero : (ringed.bar2View 0, ringed.bar2View 0xFFF) = (0, 0) := by decide
end Sys2Proof.Tests
end

section
/-! PROOFS. The statements of the scope family: every command answers, a step runs the front command, the reads with a side
effect, and the writes of registers. -/

namespace Sys2Proof.Machine

/-! ### Every command answers -/

/-- Every command answers a next state that keeps what every operation keeps: one arm for each command. -/
theorem exec_keeps (c : Instr) (s : State) : ∃ t, exec c s = .next t ∧ Keeps s t := by
  cases c with
  | vauxPowerOn testMode flash selfTestFail training => exact execVauxPowerOn_keeps testMode flash selfTestFail training s
  | mainPowerOn flash selfTestFail training => exact execMainPowerOn_keeps flash selfTestFail training s
  | warmReset trigger squallFail => exact execWarmReset_keeps trigger squallFail s
  | functionLevelReset squallFail => exact execFunctionLevelReset_keeps squallFail s
  | rstCtlWarm value squallFail => exact execRstCtlWarm_keeps value squallFail s
  | rstCtlPowerdown value => exact execRstCtlPowerdown_keeps value s
  | powerdownLimitExpiry => exact execPowerdownLimitExpiry_keeps s
  | suddenPowerLoss cause => exact execSuddenPowerLoss_keeps cause s
  | thermtrip die sensor temp => exact execThermtrip_keeps die sensor temp s
  | supplyHoldStart rail mv => exact execSupplyHoldStart_keeps rail mv s
  | supplyHoldEnd rail mv => exact execSupplyHoldEnd_keeps rail mv s
  | pwrAlert => exact execPwrAlert_keeps s
  | pwrAlertReleaseTimer => exact execPwrAlertReleaseTimer_keeps s
  | fastSafetyTick watts => exact execFastSafetyTick_keeps watts s
  | slowSafetyJunctionTick die => exact execSlowSafetyJunctionTick_keeps die s
  | coolantLoopTick => exact execCoolantLoopTick_keeps s
  | policyCapTick => exact execPolicyCapTick_keeps s
  | vopStep die => exact execVopStep_keeps die s
  | junctionSensorRead temps0 temps1 => exact execJunctionSensorRead_keeps temps0 temps1 s
  | coolantReport inlet outlet flow => exact execCoolantReport_keeps inlet outlet flow s
  | coolantStateChange => exact execCoolantStateChange_keeps s
  | pmbusRead rails => exact execPmbusRead_keeps rails s
  | sqTail ring value => exact execSqTail_keeps ring value s
  | cqHead ring value => exact execCqHead_keeps ring value s
  | cqArm ring value => exact execCqArm_keeps ring value s
  | submissionReadComplete ring index data error => exact execSubmissionReadComplete_keeps ring index data error s
  | sqRefetchTimer ring => exact execSqRefetchTimer_keeps ring s
  | descriptorAccept => exact execDescriptorAccept_keeps s
  | descriptorDispatch slot => exact execDescriptorDispatch_keeps slot s
  | completionRecordWrite ring => exact execCompletionRecordWrite_keeps ring s
  | msixTimer ring => exact execMsixTimer_keeps ring s
  | eventRecordWrite => exact execEventRecordWrite_keeps s
  | bar4Read addr len => exact execBar4Read_keeps addr len s
  | bar4Write addr data => exact execBar4Write_keeps addr data s
  | matmul work => exact execMatmul_keeps work s
  | loadw work => exact execLoadw_keeps work s
  | drain slot => exact execDrain_keeps slot s
  | freezeResume node => exact execFreezeResume_keeps node s
  | stats slot => exact execStats_keeps slot s
  | quant slot => exact execQuant_keeps slot s
  | rotate slot => exact execRotate_keeps slot s
  | vec slot => exact execVec_keeps slot s
  | reduce slot => exact execReduce_keeps slot s
  | check slot => exact execCheck_keeps slot s
  | digest slot => exact execDigest_keeps slot s
  | move slot host error => exact execMove_keeps slot host error s
  | streamSend slot host error => exact execStreamSend_keeps slot host error s
  | streamWait slot => exact execStreamWait_keeps slot s
  | streamRelease slot => exact execStreamRelease_keeps slot s
  | streamTimeout slot => exact execStreamTimeout_keeps slot s
  | responseTimeout tag => exact execResponseTimeout_keeps tag s
  | coll slot => exact execColl_keeps slot s
  | collSegmentSend slot => exact execCollSegmentSend_keeps slot s
  | collTimeout slot => exact execCollTimeout_keeps slot s
  | counts slot => exact execCounts_keeps slot s
  | barrier slot => exact execBarrier_keeps slot s
  | barrierRelease slot => exact execBarrierRelease_keeps slot s
  | update work => exact execUpdate_keeps work s
  | nearvec work => exact execNearvec_keeps work s
  | fence slot => exact execFence_keeps slot s
  | scrub slot => exact execScrub_keeps slot s
  | snapshot slot => exact execSnapshot_keeps slot s
  | nop slot => exact execNop_keeps slot s
  | step slot => exact execStep_keeps slot s
  | blockCopyComplete => exact execBlockCopyComplete_keeps s
  | copySealWait => exact execCopySealWait_keeps s
  | imagePassComplete => exact execImagePassComplete_keeps s
  | heldRelease slot => exact execHeldRelease_keeps slot s
  | gridCompletion slot => exact execGridCompletion_keeps slot s
  | stallLimitExpiry node => exact execStallLimitExpiry_keeps node s
  | cadenceWindow counts => exact execCadenceWindow_keeps counts s
  | tierWalkTick die => exact execTierWalkTick_keeps die s
  | stackWalkTick stack => exact execStackWalkTick_keeps stack s
  | stackRefresh work => exact execStackRefresh_keeps work s
  | stackTempRead stack temp => exact execStackTempRead_keeps stack temp s
  | regionConversionDone stack => exact execRegionConversionDone_keeps stack s
  | testEntry stack lanes => exact execTestEntry_keeps stack lanes s
  | marginStart stack => exact execMarginStart_keeps stack s
  | marginTestDone stack errors => exact execMarginTestDone_keeps stack errors s
  | dataFlit port bytes => exact execDataFlit_keeps port bytes s
  | controlFlit port bytes => exact execControlFlit_keeps port bytes s
  | idleFlit port bytes => exact execIdleFlit_keeps port bytes s
  | controlFlitTimer port => exact execControlFlitTimer_keeps port s
  | replayTimeout port => exact execReplayTimeout_keeps port s
  | partnerDetected port chip partnerPort serial => exact execPartnerDetected_keeps port chip partnerPort serial s
  | trainingStepDone step => exact execTrainingStepDone_keeps step s
  | trainingStepTimeout port => exact execTrainingStepTimeout_keeps port s
  | lockAchieved port => exact execLockAchieved_keeps port s
  | lockSearchTimeout port => exact execLockSearchTimeout_keeps port s
  | headerMismatch port => exact execHeaderMismatch_keeps port s
  | retrainTimeout port => exact execRetrainTimeout_keeps port s
  | portDisableTimeout port => exact execPortDisableTimeout_keeps port s
  | messageForward port header payload poison => exact execMessageForward_keeps port header payload poison s
  | write header payload poison => exact execWrite_keeps header payload poison s
  | read header => exact execRead_keeps header s
  | readData header payload poison => exact execReadData_keeps header payload poison s
  | writeAck header => exact execWriteAck_keeps header s
  | streamData header payload poison => exact execStreamData_keeps header payload poison s
  | streamCredit header => exact execStreamCredit_keeps header s
  | collReduce header payload poison => exact execCollReduce_keeps header payload poison s
  | collGather header payload poison => exact execCollGather_keeps header payload poison s
  | collAbort header payload => exact execCollAbort_keeps header payload s
  | collBarrier header payload => exact execCollBarrier_keeps header payload s
  | collCredit header payload => exact execCollCredit_keeps header payload s
  | event header payload => exact execEvent_keeps header payload s
  | unreachable header => exact execUnreachable_keeps header s
  | doorbell header => exact execDoorbell_keeps header s
  | routeSwitch => exact execRouteSwitch_keeps s
  | unsetRootTimer => exact execUnsetRootTimer_keeps s
  | timeRefPulse interval => exact execTimeRefPulse_keeps interval s
  | timeRefLost => exact execTimeRefLost_keeps s
  | recover => exact execRecover_keeps s
  | rebuild => exact execRebuild_keeps s
  | adopt => exact execAdopt_keeps s
  | resume => exact execResume_keeps s
  | hold => exact execHold_keeps s
  | debugHalt hart pc cause => exact execDebugHalt_keeps hart pc cause s
  | dbgCtlHalt => exact execDbgCtlHalt_keeps s
  | haltDrainComplete => exact execHaltDrainComplete_keeps s
  | drainLimitExpiry => exact execDrainLimitExpiry_keeps s
  | hartResume hart => exact execHartResume_keeps hart s
  | dbgCtlResume => exact execDbgCtlResume_keeps s
  | dbgCtlForceFatal => exact execDbgCtlForceFatal_keeps s
  | coreTrap hart => exact execCoreTrap_keeps hart s
  | watchdog hart => exact execWatchdog_keeps hart s
  | queueUe => exact execQueueUe_keeps s
  | coupling => exact execCoupling_keeps s
  | dumpDone => exact execDumpDone_keeps s
  | hostDumpDone => exact execHostDumpDone_keeps s
  | debugAuth token => exact execDebugAuth_keeps token s
  | ctrCmdLatch => exact execCtrCmdLatch_keeps s
  | censusNow => exact execCensusNow_keeps s
  | censusUnfence node => exact execCensusUnfence_keeps node s
  | stormHaltClear => exact execStormHaltClear_keeps s
  | logClearUe block => exact execLogClearUe_keeps block s
  | logClearCe block => exact execLogClearCe_keeps block s
  | rangeClear stack => exact execRangeClear_keeps stack s
  | ctxCmdWrite => exact execCtxCmdWrite_keeps s
  | ctxCmdRead => exact execCtxCmdRead_keeps s
  | enumSel value => exact execEnumSel_keeps value s
  | logSel block value => exact execLogSel_keeps block value s
  | sigSel value => exact execSigSel_keeps value s
  | ctrSel value => exact execCtrSel_keeps value s
  | rangeSel stack value => exact execRangeSel_keeps stack value s
  | railSel value => exact execRailSel_keeps value s
  | coreSel value => exact execCoreSel_keeps value s
  | mnodeSel value => exact execMnodeSel_keeps value s
  | bbSel value => exact execBbSel_keeps value s
  | timeNowLoRead => exact execTimeNowLoRead_keeps s
  | freezeCountRead => exact execFreezeCountRead_keeps s
  | clampCountRead => exact execClampCountRead_keeps s
  | unitTreeCommit => exact execUnitTreeCommit_keeps s
  | aecCommit => exact execAecCommit_keeps s
  | tfCommit => exact execTfCommit_keeps s
  | rsCommit => exact execRsCommit_keeps s
  | obsCommit => exact execObsCommit_keeps s
  | pwrCommit => exact execPwrCommit_keeps s
  | rstCommit => exact execRstCommit_keeps s
  | hostCommit => exact execHostCommit_keeps s
  | fabCommit => exact execFabCommit_keeps s
  | tmCommit die => exact execTmCommit_keeps die s
  | stkCommit stack => exact execStkCommit_keeps stack s
  | commitPoint block => exact execCommitPoint_keeps block s
  | registerWrite offset value enables => exact execRegisterWrite_keeps offset value enables s
  | setEndpointId eid => exact execSetEndpointId_keeps eid s
  | getEndpointId => exact execGetEndpointId_keeps s
  | getEndpointUuid => exact execGetEndpointUuid_keeps s
  | getMctpVersionSupport msgType => exact execGetMctpVersionSupport_keeps msgType s
  | getMessageTypeSupport => exact execGetMessageTypeSupport_keeps s
  | getVendorDefinedMsgSupport selector => exact execGetVendorDefinedMsgSupport_keeps selector s
  | getSensorReading sensor => exact execGetSensorReading_keeps sensor s
  | getStateSensorReadings sensor => exact execGetStateSensorReadings_keeps sensor s
  | setNumericEffecterValue effecter value => exact execSetNumericEffecterValue_keeps effecter value s
  | getNumericEffecterValue effecter => exact execGetNumericEffecterValue_keeps effecter s
  | getPdr handle => exact execGetPdr_keeps handle s
  | setEventReceiver eid enable => exact execSetEventReceiver_keeps eid enable s
  | pldmFirmwareUpdate component version svn image good => exact execPldmFirmwareUpdate_keeps component version svn image good s
  | activateFirmware warm => exact execActivateFirmware_keeps warm s
  | getVersion => exact execGetVersion_keeps s
  | getCapabilities => exact execGetCapabilities_keeps s
  | negotiateAlgorithms asym hash => exact execNegotiateAlgorithms_keeps asym hash s
  | getDigests => exact execGetDigests_keeps s
  | getCertificate slot offset len => exact execGetCertificate_keeps slot offset len s
  | challenge slot nonce => exact execChallenge_keeps slot nonce s
  | getMeasurements operation sign nonce => exact execGetMeasurements_keeps operation sign nonce s
  | readBlackbox start count => exact execReadBlackbox_keeps start count s
  | readLastgasp => exact execReadLastgasp_keeps s
  | getDomain node => exact execGetDomain_keeps node s
  | setDomain node mv unfence => exact execSetDomain_keeps node mv unfence s
  | requestFatal word => exact execRequestFatal_keeps word s
  | getBoot => exact execGetBoot_keeps s
  | blackboxRecordWrite good => exact execBlackboxRecordWrite_keeps good s
  | plannedCompletion slot => exact execPlannedCompletion_keeps slot s
  | fatalDrainLimitExpiry => exact execFatalDrainLimitExpiry_keeps s
  | powerdownReadyTimeout => exact execPowerdownReadyTimeout_keeps s
  | dmiAccess op address data => exact execDmiAccess_keeps op address data s
  | tapInstruction ir drive => exact execTapInstruction_keeps ir drive s
  | configurationRequest write register value => exact execConfigurationRequest_keeps write register value s
  | dynamicAddressAssignment address => exact execDynamicAddressAssignment_keeps address s
  | unsupportedCommand msgType command => exact execUnsupportedCommand_keeps msgType command s

/-- Settles O6: every command answers (`exec_keeps`), and what it answers keeps the queue and only adds to the outputs. -/
theorem everyCommandAnswers : Obligations.EveryCommandAnswers := by
  intro c s
  obtain ⟨t, ht, hk⟩ := exec_keeps c s
  exact ⟨t, ht, hk.pending, hk.kept.out⟩

/-- Settles O1: `step` takes the command off the front of the queue before it runs it. -/
theorem stepRunsTheFrontCommand : Obligations.StepRunsTheFrontCommand := by
  intro c rest s
  rfl

/-! ### Reads with a side effect (R15, R498) -/

theorem State.onRead_open {s : State} (v : Nat) (f : State → State) (hb : s.bar0Open = true) (hf : s.mgmt.bootFail = 0) :
    s.onRead v f = (f s).emit (.readData (natLe 4 v) false) := by
  simp [State.onRead, hb, hf]

theorem State.onRead_closed {s : State} (v : Nat) (f : State → State) (hb : s.bar0Open = false) :
    s.onRead v f = s.emit .unsupported := by
  simp [State.onRead, hb]

theorem State.onRead_bootFail {s : State} (v : Nat) (f : State → State) (hb : s.bar0Open = true)
    (hf : s.mgmt.bootFail ≠ 0) : s.onRead v f = s.emit (.readData (natLe 4 0) false) := by
  simp [State.onRead, hb, hf]

/-- Each of the three reads is a read of BAR0 with some value and some effect. -/
theorem effectRead_is_onRead (s : State) : ∀ c ∈ [Instr.timeNowLoRead, .clampCountRead, .freezeCountRead],
    ∃ v f, exec c s = .next (s.onRead v f) := by
  simp only [List.forall_mem_cons]
  exact ⟨⟨_, _, rfl⟩, ⟨_, _, rfl⟩, ⟨_, _, rfl⟩, fun _ h => absurd h List.not_mem_nil⟩

/-- Setting one unit's freeze count to zero. -/
def State.zeroFreezes (s : State) (u : Nat) : State := s.modUnit u (fun x => { x with freezes := 0 })

theorem State.zeroFreezes_unit (s : State) (u v : Nat) :
    (s.zeroFreezes u).unit v = if v = u then { s.unit v with freezes := 0 } else s.unit v := by
  rw [State.zeroFreezes, State.unit_modUnit]
  split
  case isTrue h => rw [h]
  case isFalse => rfl

/-- Zeroing the freeze counts of the units that some identifiers reach. -/
theorem State.zeroFreezes_foldl (ids : List Nat) : ∀ s : State,
    ids.foldl (fun t i => t.zeroFreezes (t.unitOf i)) s = (ids.map s.unitOf).foldl State.zeroFreezes s := by
  induction ids with
  | nil => intro _; rfl
  | cons i ids ih => intro s; exact ih _

/-- Only the tree's unit states change. -/
theorem State.zeroFreezes_foldl_frame (us : List Nat) : ∀ s : State,
    us.foldl State.zeroFreezes s = { s with tree := { s.tree with units := (us.foldl State.zeroFreezes s).tree.units } } := by
  induction us with
  | nil => intro _; rfl
  | cons u us ih => intro s; rw [List.foldl_cons, ih]; rfl

theorem State.zeroFreezes_foldl_unit (us : List Nat) (v : Nat) : ∀ s : State,
    (us.foldl State.zeroFreezes s).unit v = if v ∈ us then { s.unit v with freezes := 0 } else s.unit v := by
  induction us with
  | nil => intro s; rw [if_neg List.not_mem_nil]; rfl
  | cons u us ih =>
    intro s
    rw [List.foldl_cons, ih, State.zeroFreezes_unit]
    by_cases hu : v = u <;> by_cases hus : v ∈ us <;> simp [hu, hus]

/-- The units whose freeze counts FREEZE_COUNT of a node adds up (R847). -/
def State.freezeUnits (s : State) (id : Nat) : List Nat :=
  (s.leavesOf .cell id ++ s.leavesOf .vectorEngine id).map s.unitOf

theorem State.freezeRead_eq (s : State) (id : Nat) :
    s.freezeRead id = (s.freezeUnits id).foldl State.zeroFreezes s :=
  State.zeroFreezes_foldl _ s

theorem State.freezeRead_frame (s : State) (id : Nat) :
    s.freezeRead id = { s with tree := { s.tree with units := (s.freezeRead id).tree.units } } := by
  rw [State.freezeRead_eq]; exact State.zeroFreezes_foldl_frame _ s

theorem State.freezeRead_unit (s : State) (id v : Nat) :
    (s.freezeRead id).unit v = if v ∈ s.freezeUnits id then { s.unit v with freezes := 0 } else s.unit v := by
  rw [State.freezeRead_eq]; exact State.zeroFreezes_foldl_unit _ v s

theorem foldl_add_eq_zero (xs : List Nat) (h : ∀ x ∈ xs, x = 0) : xs.foldl (· + ·) 0 = 0 := by
  rw [← List.sum_eq_foldl_nat]; exact List.sum_eq_zero h

/-- A node all of whose leaves have no freezes reads zero. -/
theorem State.freezeCount_eq_zero (s : State) (id : Nat) (h : ∀ u ∈ s.freezeUnits id, (s.unit u).freezes = 0) :
    s.freezeCount id = 0 := by
  have hsum : ((s.leavesOf .cell id ++ s.leavesOf .vectorEngine id).map
      (fun i => (s.unit (s.unitOf i)).freezes)).foldl (· + ·) 0 = 0 := by
    refine foldl_add_eq_zero _ fun x hx => ?_
    obtain ⟨i, hi, rfl⟩ := List.mem_map.mp hx
    exact h _ (List.mem_map_of_mem hi)
  rw [State.freezeCount, hsum]; rfl

/-- The identifiers below a node, and the units they reach, do not depend on what the tree keeps for its units. -/
theorem State.freezeUnits_of_names {s t : State} (h : t.tree.names = s.tree.names) (id : Nat) :
    t.freezeUnits id = s.freezeUnits id := by
  have hunit : t.unitOf = s.unitOf := funext fun i => by rw [State.unitOf, State.unitOf, h]
  have hplace : t.placeOf = s.placeOf := funext fun i => by rw [State.placeOf, State.placeOf, hunit]
  simp only [State.freezeUnits, State.leavesOf, hplace, hunit]

theorem execFreezeCountRead_open {s : State} (hb : s.bar0Open = true) (hf : s.mgmt.bootFail = 0) :
    execFreezeCountRead s = .next ((s.freezeRead (s.regs.shadow regNodeSel 0 % 65536)).emit
      (.readData (natLe 4 (s.freezeCount (s.regs.shadow regNodeSel 0 % 65536))) false)) :=
  congrArg _ (State.onRead_open _ _ hb hf)

/-- Settles O12: where BAR0 answers the effect of the read happens and its value is sent (`onRead_open`), else neither. -/
theorem readsWithAnEffect : Obligations.ReadsWithAnEffect := by
  intro s
  refine ⟨fun hb hf => ⟨?timeNowLo, ?clampCount, ?freezeCount⟩, fun c hc => ?noEffect⟩
  case timeNowLo =>
    refine (congrArg _ (State.onRead_open _ _ hb hf)).trans ?_
    simp only [bits, pow_zero, Nat.div_one]
    rfl
  case clampCount => exact congrArg _ (State.onRead_open _ _ hb hf)
  case freezeCount =>
    generalize hid : s.regs.shadow regNodeSel 0 % 65536 = id
    have hrun := execFreezeCountRead_open hb hf
    rw [hid] at hrun
    refine ⟨_, hrun, ?_, ?_, fun u => ?_, fun u hu => ?_⟩
    · rw [State.freezeRead_frame]; rfl
    · refine State.freezeCount_eq_zero _ _ fun u hu => ?_
      have hu' : u ∈ s.freezeUnits id := by
        rwa [State.freezeUnits_of_names (s := s) (by rw [State.freezeRead_frame]; rfl)] at hu
      show ((s.freezeRead id).unit u).freezes = 0
      rw [State.freezeRead_unit, if_pos hu']
    · show (s.freezeRead id).unit u = { s.unit u with freezes := ((s.freezeRead id).unit u).freezes }
      rw [State.freezeRead_unit]
      split <;> rfl
    · exact (State.freezeRead_unit s id u).trans (if_neg hu)
  case noEffect =>
    obtain ⟨v, f, hrun⟩ := effectRead_is_onRead s c hc
    rw [hrun]
    exact ⟨fun hb => congrArg _ (State.onRead_closed v f hb), fun hb hf => congrArg _ (State.onRead_bootFail v f hb hf)⟩

/-! ### REGISTER_WRITE -/

theorem State.onWrite_taken {s : State} (hw : s.takesWrites = true) (f : State → State) : s.onWrite f = f s := by
  rw [State.onWrite, if_pos hw]

theorem execRegisterWrite_misaligned {s : State} (hw : s.takesWrites = true) {off : Nat} (v en : Nat) (ho : off % 4 ≠ 0) :
    execRegisterWrite off v en s = .next (s.emit .unsupported) := by
  rw [execRegisterWrite, State.onWrite_taken hw, if_pos ho]

theorem execRegisterWrite_partial {s : State} (hw : s.takesWrites = true) {off en : Nat} (v : Nat) (ho : off % 4 = 0)
    (he : en % 16 ≠ 15) : execRegisterWrite off v en s = .next (s.clamp (.register off) 1) := by
  rw [execRegisterWrite, State.onWrite_taken hw, if_neg (not_not.mpr ho), if_pos he]

theorem execRegisterWrite_whole {s : State} (hw : s.takesWrites = true) {off en : Nat} (v : Nat) (ho : off % 4 = 0)
    (he : en % 16 = 15) : execRegisterWrite off v en s = .next (s.regWrite off (v % 2 ^ 32)) := by
  rw [execRegisterWrite, State.onWrite_taken hw, if_neg (not_not.mpr ho), if_neg (not_not.mpr he)]

/-! ### The block that a register write goes to -/

theorem State.regWrite_unmapped (s : State) {off : Nat} (v : Nat) (hr : isRegister off = false) :
    s.regWrite off v = s.clamp (.register off) 1 := by
  rw [State.regWrite, hr]; rfl

/-- What a whole write does at an offset that holds a register below the MSI-X table: the write of its block. -/
def State.blockWrite (s : State) (off v : Nat) : State :=
  if off / 0x1000 < 0x10 then s.writeLow off v
  else if off / 0x1000 < 0x30 then s.writeHigh off v
  else if off / 0x1000 < 0x32 then s.writeTm (off / 0x1000 - 0x30) (off % 0x1000) v
  else if off / 0x1000 < 0x48 then s.writeStk (off / 0x1000 - 0x40) (off % 0x1000) v
  else s.writeUe (off / 0x1000 - 0x50) (off % 0x1000) v

theorem State.regWrite_eq_blockWrite (s : State) {off : Nat} (v : Nat) (hr : isRegister off = true)
    (h : off < 0x1000000) : s.regWrite off v = s.blockWrite off v := by
  rw [State.regWrite, hr, Bool.not_true, if_neg Bool.false_ne_true, if_neg (Nat.not_le.mpr h)]; rfl

/-! ### A register write that is a command -/

/-- A whole write of a register, where its block's write is f, is the write command f. -/
theorem execRegisterWrite_is {s : State} (hw : s.takesWrites = true) {off v : Nat} {f : State → State} (hv : v < 2 ^ 32)
    (h : s.blockWrite off v = f s) (hr : isRegister off = true := by decide) (ho : off % 4 = 0 := by decide)
    (hb : off < 0x1000000 := by decide) : execRegisterWrite off v 15 s = .next (s.onWrite f) := by
  rw [execRegisterWrite_whole hw v ho rfl, Nat.mod_eq_of_lt hv, s.regWrite_eq_blockWrite v hr hb, h, State.onWrite_taken hw]

/-! ### What a value written to a command register asks for

The `blockWrite` lemmas are stated for every value, so that checking one does not evaluate the command itself. -/

theorem State.ifCommit_one (s : State) (f : State → State) : s.ifCommit 1 f = f s := rfl

theorem State.blockWrite_rsCommit (s : State) (v : Nat) :
    s.blockWrite 0x4058 v = s.ifCommit v (fun s => s.commitWrite 3 s.rsWaits State.legalRs) := rfl

theorem State.blockWrite_obsCommit (s : State) (v : Nat) :
    s.blockWrite 0x507C v = s.ifCommit v (fun s => s.commitWrite 4 false State.legalObs) := rfl

theorem State.blockWrite_rsCmd (s : State) (v : Nat) : s.blockWrite 0x4040 v = s.rsCmd v := rfl

theorem State.blockWrite_dbgCtl (s : State) (v : Nat) : s.blockWrite 0x5000 v = s.dbgCtl v := rfl

theorem State.blockWrite_censusCtl (s : State) (v : Nat) : s.blockWrite 0x7004 v = s.censusCtl v := rfl

theorem State.blockWrite_ctxCmd (s : State) (v : Nat) : s.blockWrite 0x20034 v = s.ctxCmd v := rfl

theorem State.rsCmd_recover (s : State) : s.rsCmd 1 = s.rsCommand true State.recover := rfl

theorem State.rsCmd_rebuild (s : State) : s.rsCmd 2 = s.rsCommand true State.rebuild := rfl

theorem State.rsCmd_adopt (s : State) : s.rsCmd 3 = s.rsCommand true State.adopt := rfl

theorem State.rsCmd_resume (s : State) : s.rsCmd 4 = s.rsCommand false State.resume := rfl

theorem State.rsCmd_hold (s : State) : s.rsCmd 5 = s.rsCommand false (fun s => s.enterHold 7 none) := rfl

theorem State.dbgCtl_halt (s : State) : s.dbgCtl 1 = s.hostHalt := by
  simp [State.dbgCtl, bit, Nat.testBit]

theorem State.dbgCtl_resume (s : State) : s.dbgCtl 2 = s.endHalts (fun h => h.source == 64) := by
  simp [State.dbgCtl, bit, Nat.testBit]

theorem State.dbgCtl_forceFatal (s : State) : s.dbgCtl 4 = s.forceFatal := by
  simp [State.dbgCtl, bit, Nat.testBit]

theorem State.censusCtl_now (s : State) : s.censusCtl (2 ^ 31) = s.censusNow := by
  simp [State.censusCtl, bit, Nat.testBit]

theorem State.ctxCmd_write (s : State) : s.ctxCmd 2 = s.ctxWrite := by
  simp [State.ctxCmd, bit, Nat.testBit]

theorem State.ctxCmd_read (s : State) : s.ctxCmd 1 = s.ctxRead := by
  simp [State.ctxCmd, bit, Nat.testBit]

theorem State.logClear_ce (s : State) (b : Nat) : s.logClear b 1 = s.modLogs b (fun l => { l with ce := [] }) := by
  simp [State.logClear, bit, Nat.testBit]

theorem State.logClear_ue (s : State) (b : Nat) : s.logClear b 2 = s.modLogs b (fun l => { l with ue := [] }) := by
  simp [State.logClear, bit, Nat.testBit]

/-- Settles O20: the offset and the value decide which operation `blockWrite` calls, and it is the one that the command calls
(`execRegisterWrite_is`). -/
theorem registerWriteIsTheCommand : Obligations.RegisterWriteIsTheCommand := by
  refine fun s hw => ⟨fun v hv => ?selectors, ?commands⟩
  case selectors =>
    simp only [List.forall_mem_cons]
    exact ⟨
      execRegisterWrite_is hw hv rfl, -- ENUM_SEL
      execRegisterWrite_is hw hv rfl, -- CORE_SEL
      execRegisterWrite_is hw hv rfl, -- SIG_SEL
      execRegisterWrite_is hw hv rfl, -- CTR_SEL
      execRegisterWrite_is hw hv rfl, -- RAIL_SEL
      execRegisterWrite_is hw hv rfl, -- MNODE_SEL
      execRegisterWrite_is hw hv rfl, -- BB_SEL
      execRegisterWrite_is hw hv rfl, -- LOG_SEL of die 0
      execRegisterWrite_is hw hv rfl, -- LOG_SEL of die 1
      execRegisterWrite_is hw hv rfl, -- LOG_SEL of stack 0
      execRegisterWrite_is hw hv rfl, -- LOG_SEL of stack 7
      execRegisterWrite_is hw hv rfl, -- RANGE_SEL of stack 0
      execRegisterWrite_is hw hv rfl, -- RANGE_SEL of stack 7
      fun _ h => absurd h List.not_mem_nil⟩
  case commands =>
    simp only [List.forall_mem_cons]
    exact ⟨
      execRegisterWrite_is hw (by decide) rfl, -- UNIT_TREE_COMMIT
      execRegisterWrite_is hw (by decide) rfl, -- AEC_STATUS.STORM_HALT
      execRegisterWrite_is hw (by decide) rfl, -- AEC_COMMIT
      execRegisterWrite_is hw (by decide) rfl, -- TF_COMMIT
      execRegisterWrite_is hw (by decide) ((s.blockWrite_rsCmd 1).trans s.rsCmd_recover), -- RS_CMD: RECOVER
      execRegisterWrite_is hw (by decide) ((s.blockWrite_rsCmd 2).trans s.rsCmd_rebuild), -- RS_CMD: REBUILD
      execRegisterWrite_is hw (by decide) ((s.blockWrite_rsCmd 3).trans s.rsCmd_adopt), -- RS_CMD: ADOPT
      execRegisterWrite_is hw (by decide) ((s.blockWrite_rsCmd 4).trans s.rsCmd_resume), -- RS_CMD: RESUME
      execRegisterWrite_is hw (by decide) ((s.blockWrite_rsCmd 5).trans s.rsCmd_hold), -- RS_CMD: HOLD
      execRegisterWrite_is hw (by decide) ((s.blockWrite_rsCommit 1).trans (s.ifCommit_one _)), -- RS_COMMIT
      execRegisterWrite_is hw (by decide) ((s.blockWrite_dbgCtl 1).trans s.dbgCtl_halt), -- DBG_CTL.HALT
      execRegisterWrite_is hw (by decide) ((s.blockWrite_dbgCtl 2).trans s.dbgCtl_resume), -- DBG_CTL.RESUME
      execRegisterWrite_is hw (by decide) ((s.blockWrite_dbgCtl 4).trans s.dbgCtl_forceFatal), -- DBG_CTL.FORCE_FATAL
      execRegisterWrite_is hw (by decide) rfl, -- CTR_CMD.LATCH
      execRegisterWrite_is hw (by decide) ((s.blockWrite_obsCommit 1).trans (s.ifCommit_one _)), -- OBS_COMMIT
      execRegisterWrite_is hw (by decide) rfl, -- PWR_COMMIT
      execRegisterWrite_is hw (by decide) ((s.blockWrite_censusCtl (2 ^ 31)).trans s.censusCtl_now), -- CENSUS_CTL.NOW
      execRegisterWrite_is hw (by decide) rfl, -- RST_COMMIT
      execRegisterWrite_is hw (by decide) rfl, -- HOST_COMMIT
      execRegisterWrite_is hw (by decide) ((s.blockWrite_ctxCmd 2).trans s.ctxCmd_write), -- CTX_CMD.WRITE
      execRegisterWrite_is hw (by decide) ((s.blockWrite_ctxCmd 1).trans s.ctxCmd_read), -- CTX_CMD.READ
      execRegisterWrite_is hw (by decide) rfl, -- FAB_COMMIT
      execRegisterWrite_is hw (by decide) (s.logClear_ce 0), -- LOG_CLEAR.CE of die 0
      execRegisterWrite_is hw (by decide) (s.logClear_ue 1), -- LOG_CLEAR.UE of die 1
      execRegisterWrite_is hw (by decide) rfl, -- TM_COMMIT of die 0
      execRegisterWrite_is hw (by decide) rfl, -- TM_COMMIT of die 1
      execRegisterWrite_is hw (by decide) rfl, -- STK_COMMIT of stack 0
      execRegisterWrite_is hw (by decide) rfl, -- STK_COMMIT of stack 7
      execRegisterWrite_is hw (by decide) (s.logClear_ce 2), -- LOG_CLEAR.CE of stack 0
      execRegisterWrite_is hw (by decide) (s.logClear_ue 9), -- LOG_CLEAR.UE of stack 7
      execRegisterWrite_is hw (by decide) rfl, -- RANGE_CLEAR of stack 0
      execRegisterWrite_is hw (by decide) rfl, -- RANGE_CLEAR of stack 7
      fun _ h => absurd h List.not_mem_nil⟩

/-! ### A register write that only stores -/

/-- Offsets below 0x1_0000 whose write does more than store. -/
def lowActs : List Nat :=
  [0x1004, 0x1050, 0x105C, 0x200C, 0x2014, 0x3010, 0x4040, 0x4058, 0x5000, 0x5010, 0x5018, 0x5034, 0x504C, 0x5078, 0x507C,
    0x601C, 0x6024, 0x7004, 0x700C, 0x7018, 0x8000, 0x8028]

/-- Offsets of the host and fabric blocks whose write does more than store. -/
def highActs : List Nat := [0x10034, 0x10044, 0x20010, 0x20024, 0x20034, 0x2009C]

/-- Offsets within a tier-memory block whose write does more than store. -/
def tmActs : List Nat := [0x008, 0x00C, 0x03C]

/-- Offsets within a stack block whose write does more than store. -/
def stkActs : List Nat := [0x010, 0x024, 0x028, 0x02C]

theorem State.writeLow_store (s : State) {off : Nat} (v : Nat) (h : off ∉ lowActs) : s.writeLow off v = s.store off v := by
  simp only [lowActs, List.mem_cons, List.not_mem_nil, not_or] at h
  simp [State.writeLow, h]

theorem State.writeHigh_store (s : State) {off : Nat} (v : Nat) (h : off ∉ highActs) :
    s.writeHigh off v = s.store off v := by
  simp only [highActs, List.mem_cons, List.not_mem_nil, not_or] at h
  simp [State.writeHigh, h]

theorem State.writeTm_store (s : State) (d : Nat) {r : Nat} (v : Nat) (h : r ∉ tmActs) :
    s.writeTm d r v = s.store (tierBlock d + r) v := by
  simp only [tmActs, List.mem_cons, List.not_mem_nil, not_or] at h
  simp [State.writeTm, h]

theorem State.writeStk_store (s : State) (k : Nat) {r : Nat} (v : Nat) (h : r ∉ stkActs) :
    s.writeStk k r v = s.store (stackBlock k + r) v := by
  simp only [stkActs, List.mem_cons, List.not_mem_nil, not_or] at h
  simp [State.writeStk, h]

/-- A register that only stores, in one of the four kinds of block that have such registers. -/
def onlyStores (off : Nat) : Bool :=
  (off < 0x10000 && !lowActs.contains off)
    || (0x10000 ≤ off && off < 0x30000 && !highActs.contains off)
    || (0x30000 ≤ off && off < 0x32000 && off % 0x1000 ≤ 0x3C && !tmActs.contains (off % 0x1000))
    || (0x40000 ≤ off && off < 0x48000 && off % 0x1000 ≤ 0x3C && !stkActs.contains (off % 0x1000))

theorem onlyStores_iff (off : Nat) : onlyStores off = true ↔
    (off < 0x10000 ∧ off ∉ lowActs) ∨ (0x10000 ≤ off ∧ off < 0x30000 ∧ off ∉ highActs) ∨
    (0x30000 ≤ off ∧ off < 0x32000 ∧ off % 0x1000 ≤ 0x3C ∧ off % 0x1000 ∉ tmActs) ∨
    (0x40000 ≤ off ∧ off < 0x48000 ∧ off % 0x1000 ≤ 0x3C ∧ off % 0x1000 ∉ stkActs) := by
  simp [onlyStores, and_assoc, or_assoc]

theorem State.blockWrite_store (s : State) {off : Nat} (v : Nat) (h : onlyStores off = true) :
    s.blockWrite off v = s.store off v := by
  rw [State.blockWrite]
  rcases (onlyStores_iff off).mp h with ⟨hb, ha⟩ | ⟨h1, h2, ha⟩ | ⟨h1, h2, -, ha⟩ | ⟨h1, h2, -, ha⟩
  · rw [if_pos (by omega), s.writeLow_store v ha]
  · rw [if_neg (by omega), if_pos (by omega), s.writeHigh_store v ha]
  · rw [if_neg (by omega), if_neg (by omega), if_pos (by omega), s.writeTm_store _ v ha]
    congr 1; unfold tierBlock; omega
  · rw [if_neg (by omega), if_neg (by omega), if_neg (by omega), if_pos (by omega), s.writeStk_store _ v ha]
    congr 1; unfold stackBlock; omega

/-- The registers that have a command of their own and store too. -/
def selectorRegs : List Nat :=
  [regEnumSel, regCoreSel, regSigSel, regCtrSel, regRailSel, regMnodeSel, regBbSel, regTmLogSel 0, regStkLogSel 0,
    regRangeSel 0, regMarginCtl 0]

/-- Every row of the register map but those is of a register that only stores, at a multiple of 4. -/
theorem regRows_onlyStore : ∀ r ∈ regRows, r.off ∉ selectorRegs →
    onlyStores r.off = true ∧ isRegister r.off = true ∧ r.off % 4 = 0 := by
  decide

theorem regRow_some {off : Nat} {r : RegRow} (h : regRow off = some r) : r ∈ regRows ∧ r.off = regNormal off :=
  ⟨List.mem_of_find?_eq_some h, eq_of_beq (List.find?_some (p := fun r : RegRow => r.off == regNormal off) h)⟩

/-- An offset and that of the same register in copy 0 of its block differ only by whole pages of a block with several copies. -/
theorem regNormal_cases (off : Nat) : regNormal off = off ∨
    (0x30000 ≤ off ∧ off < 0x32000 ∧ regNormal off = 0x30000 + off % 0x1000) ∨
    (0x40000 ≤ off ∧ off < 0x48000 ∧ regNormal off = 0x40000 + off % 0x1000) ∨
    (0x50000 ≤ off ∧ off < 0x58000 ∧ regNormal off = 0x50000 + off % 0x1000) := by
  simp only [regNormal, Bool.and_eq_true, decide_eq_true_eq]
  split_ifs <;> omega

theorem isRegister_of_mem {p lo hi off : Nat} (hm : (p, lo, hi) ∈ regRanges) (hp : off / 0x1000 = p)
    (hlo : lo ≤ off % 0x1000) (hhi : off % 0x1000 ≤ hi) : isRegister off = true := by
  rw [isRegister, Bool.or_eq_true, List.any_eq_true]
  exact .inr ⟨_, hm, by simp [hp, hlo, hhi]⟩

theorem regRanges_tm : ∀ p < 0x32, 0x30 ≤ p → (p, 0x00, 0x3C) ∈ regRanges := by decide

theorem regRanges_stk : ∀ p < 0x48, 0x40 ≤ p → (p, 0x00, 0x3C) ∈ regRanges := by decide

/-- What `regRows_onlyStore` says of a register in copy 0 of its block holds in every copy. -/
theorem onlyStores_of_regNormal {off : Nat} (h : onlyStores (regNormal off) = true)
    (hr : isRegister (regNormal off) = true) (h4 : regNormal off % 4 = 0) :
    onlyStores off = true ∧ isRegister off = true ∧ off % 4 = 0 := by
  rcases regNormal_cases off with e | ⟨h1, h2, e⟩ | ⟨h1, h2, e⟩ | ⟨h1, h2, e⟩
  · rw [e] at h hr h4
    exact ⟨h, hr, h4⟩
  · have hb := (onlyStores_iff _).mp h
    rw [show regNormal off % 0x1000 = off % 0x1000 by omega] at hb
    obtain ⟨-, -, hr, ha⟩ :=
      ((hb.resolve_left fun h => by omega).resolve_left fun h => by omega).resolve_right fun h => by omega
    exact ⟨(onlyStores_iff off).mpr (.inr (.inr (.inl ⟨h1, h2, hr, ha⟩))),
      isRegister_of_mem (regRanges_tm _ (by omega) (by omega)) rfl (Nat.zero_le _) hr, by omega⟩
  · have hb := (onlyStores_iff _).mp h
    rw [show regNormal off % 0x1000 = off % 0x1000 by omega] at hb
    obtain ⟨-, -, hr, ha⟩ :=
      ((hb.resolve_left fun h => by omega).resolve_left fun h => by omega).resolve_left fun h => by omega
    exact ⟨(onlyStores_iff off).mpr (.inr (.inr (.inr ⟨h1, h2, hr, ha⟩))),
      isRegister_of_mem (regRanges_stk _ (by omega) (by omega)) rfl (Nat.zero_le _) hr, by omega⟩
  · rcases (onlyStores_iff _).mp h with ⟨hb, -⟩ | ⟨-, hb, -⟩ | ⟨-, hb, -⟩ | ⟨-, hb, -⟩ <;> omega

/-- Which copy of a register a write reaches: that of the ring or port selected, where the register has several. -/
def State.storeInst (s : State) (off : Nat) : Nat :=
  if off / 0x1000 = 0x10 ∧ off ≠ regRingSel then s.regs.shadow regRingSel 0 % 256
  else if off = regPortCtl then s.regs.shadow regPortSel 0 % 16 else 0

theorem State.storeInst_lt (s : State) (off : Nat) : s.storeInst off < 65536 := by
  unfold State.storeInst; split_ifs <;> omega

theorem State.store_eq (s : State) (off v : Nat) : s.store off v =
    if off = regPortCtl ∧ 12 ≤ s.storeInst off then s
    else { s with regs := s.regs.write off (s.storeInst off) (BitVec.ofNat 32 v) } := by
  have hi : s.storeInst off = (if off / 0x1000 = 0x10 && off ≠ regRingSel then s.stored regRingSel 0 % 256
      else if off = regPortCtl then s.stored regPortSel 0 % 16 else 0) := by
    simp [State.storeInst, State.stored]
  rw [State.store, hi]
  simp only [Bool.and_eq_true, decide_eq_true_eq]

theorem ofNat_word (v : Nat) : BitVec.ofNat 32 (v % 2 ^ 32) = BitVec.ofNat 32 v :=
  BitVec.eq_of_toNat_eq (by rw [BitVec.toNat_ofNat, BitVec.toNat_ofNat, Nat.mod_mod])

/-- A whole write of a register that only stores. -/
theorem execRegisterWrite_store {s : State} (hw : s.takesWrites = true) {off en : Nat} (v : Nat) (he : en % 16 = 15)
    {r : RegRow} (hr : regRow off = some r) (hx : regNormal off ∉ selectorRegs) :
    execRegisterWrite off v en s = .next (s.store off (v % 2 ^ 32)) := by
  obtain ⟨hmem, hoff⟩ := regRow_some hr
  obtain ⟨h1, h2, h3⟩ := regRows_onlyStore r hmem (hoff ▸ hx)
  rw [hoff] at h1 h2 h3
  obtain ⟨hs, hreg, h4⟩ := onlyStores_of_regNormal h1 h2 h3
  have hb : off < 0x1000000 := by
    rcases (onlyStores_iff off).mp hs with ⟨h, -⟩ | ⟨-, h, -⟩ | ⟨-, h, -⟩ | ⟨-, h, -⟩ <;> omega
  rw [execRegisterWrite_whole hw v h4 he, s.regWrite_eq_blockWrite _ hreg hb, s.blockWrite_store _ hs]

/-! ### Clamps of register writes -/

theorem State.clamp_one_frame (s : State) (c : ClampSource) :
    (s.clamp c 1).out = s.out ∧ (s.clamp c 1).host.events = s.host.events ∧
    (s.clamp c 1).host.clampCount = min (s.host.clampCount + 1) (2 ^ 32 - 1) := by
  simp [State.clamp, sat]

/-- A write with partial enables, or at an offset that holds no register, is one clamp. -/
theorem execRegisterWrite_ignored {s : State} (hw : s.takesWrites = true) {off en : Nat} (v : Nat) (ho : off % 4 = 0)
    (h : en % 16 ≠ 15 ∨ isRegister off = false) : execRegisterWrite off v en s = .next (s.clamp (.register off) 1) := by
  by_cases he : en % 16 = 15
  · have hr : isRegister off = false := h.resolve_left (not_not.mpr he)
    rw [execRegisterWrite_whole hw v ho he, s.regWrite_unmapped _ hr]
  · exact execRegisterWrite_partial hw v ho he

/-- Settles O19: a misaligned write is unsupported, an ignored one is a clamp, and a register that only stores takes the value
as `RegFile.write` puts it. -/
theorem registerWriteStores : Obligations.RegisterWriteStores := by
  refine fun s hw off v en => ⟨fun ho => ?misaligned, fun ho h => ?ignored,
    fun he r hr hx inst hi => ⟨fun hp h12 => ?noPort, fun hp => ?stored⟩⟩
  case misaligned => exact execRegisterWrite_misaligned hw v en ho
  case ignored =>
    obtain ⟨hout, hev, hcount⟩ := s.clamp_one_frame (.register off)
    exact ⟨_, execRegisterWrite_ignored hw v ho h, s.clamp_reported _ _, hout, hev, hcount⟩
  case noPort =>
    obtain rfl : inst = s.storeInst off := hi
    refine (execRegisterWrite_store hw v he hr hx).trans ?_
    rw [State.store_eq, if_pos ⟨hp, h12⟩]
  case stored =>
    obtain rfl : inst = s.storeInst off := hi
    have hrun : execRegisterWrite off v en s =
        .next { s with regs := s.regs.write off (s.storeInst off) (BitVec.ofNat 32 v) } := by
      rw [execRegisterWrite_store hw v he hr hx, State.store_eq, if_neg (fun h => Nat.not_le.mpr (hp h.1) h.2),
        ofNat_word]
    rw [RegFile.write_eq _ _ _ hr] at hrun
    refine ⟨_, hrun, rfl, RegFile.only_put _ _ (s.storeInst_lt off), ?_, ?_⟩
    · exact congrArg RegCell.shadow (RegFile.get_put ..)
    · exact congrArg RegCell.eff (RegFile.get_put ..)

end Sys2Proof.Machine
end

section
/-! PROOFS. Writes that clear logs, the range list and STORM_HALT, ask for an unfence, and move a context entry. -/

namespace Sys2Proof.Machine

/-! ### Writes that clear (R260, R351, R437) -/

theorem execLogClearUe_taken {s : State} (hw : s.takesWrites = true) (b : Nat) :
    exec (.logClearUe b) s = .next (s.modLogs b (fun l => { l with ue := [] })) :=
  congrArg _ (State.onWrite_taken hw _)

theorem execLogClearCe_taken {s : State} (hw : s.takesWrites = true) (b : Nat) :
    exec (.logClearCe b) s = .next (s.modLogs b (fun l => { l with ce := [] })) :=
  congrArg _ (State.onWrite_taken hw _)

theorem State.errLogs_modLogs (s : State) (b j : Nat) (f : ErrLogs → ErrLogs) :
    (s.modLogs b f).errLogs j = if j = b then f (s.errLogs b) else s.errLogs j := by
  simp only [State.errLogs, State.modLogs, State.mget_mmod_ite]

theorem execRangeClear_taken {s : State} (hw : s.takesWrites = true) {k : Nat} (hk : k < 8) :
    exec (.rangeClear k) s = .next (s.rangeClear k) := by
  refine (congrArg _ (State.onWrite_taken hw _)).trans ?_
  rw [Nat.mod_eq_of_lt hk]

theorem State.ueOf_modUe (s : State) (k j : Nat) (f : UeState → UeState) :
    (s.modUe k f).ueOf j = if j = k then f (s.ueOf k) else s.ueOf j := by
  simp only [State.ueOf, State.modUe, State.mget_mmod_ite]

/-! ### An unfence request (R774, R775, R777) -/

theorem execCensusUnfence_taken {s : State} (hw : s.takesWrites = true) {n : Nat} (hn : n < 65536) :
    exec (.censusUnfence n) s = .next (if isDomain n then s.requestUnfence n else s.clamp (.register regCensusCtl) 1) := by
  refine (congrArg _ (State.onWrite_taken hw _)).trans ?_
  rw [State.censusUnfence, Nat.mod_eq_of_lt hn]

theorem State.requestUnfence_failed {s : State} {n : Nat} (hf : (s.unit n).state = .failed) :
    s.requestUnfence n = s.refuseUnfence n := by
  rw [State.requestUnfence, hf]; rfl

theorem State.requestUnfence_of_ne {s : State} {n : Nat} (hf : (s.unit n).state ≠ .failed) :
    s.requestUnfence n = s.modDomain n (fun d => { d with unfence := true }) := by
  rw [State.requestUnfence, if_neg (by simpa using hf)]

theorem State.refuseUnfence_reported (s : State) (n : Nat) : s.refuseUnfence n = s.reported (s.refuseUnfence n) :=
  State.reported_trans (s.count_reported 0 _ 1) (State.event_reported _ _ _ _)

/-! ### Context entries (R498) -/

theorem natLe_succ (n x : Nat) : natLe (n + 1) x = BitVec.ofNat 8 x :: natLe n (x / 256) := rfl

@[simp] theorem natLe_length (n x : Nat) : (natLe n x).length = n := by
  induction n generalizing x with
  | zero => rfl
  | succ n ih => rw [natLe_succ, List.length_cons, ih]

/-- A number comes back from its little-endian bytes (R9). -/
theorem leNat_natLe (n x : Nat) : leNat (natLe n x) = x % 256 ^ n := by
  induction n generalizing x with
  | zero => rw [pow_zero, Nat.mod_one]; rfl
  | succ n ih =>
    rw [natLe_succ, leNat, ih, BitVec.toNat_ofNat, show 2 ^ 8 = 256 from rfl, pow_succ', Nat.mod_mul]

theorem natLe_mod (n x : Nat) : natLe n (x % 256 ^ n) = natLe n x := by
  induction n generalizing x with
  | zero => rfl
  | succ n ih =>
    rw [natLe_succ, natLe_succ, pow_succ', Nat.mod_mul_right_div_self, ih]
    congr 1
    exact BitVec.eq_of_toNat_eq (by rw [BitVec.toNat_ofNat, BitVec.toNat_ofNat, Nat.mod_mul_right_mod])

theorem leNat_lt : ∀ bs : List Byte, leNat bs < 256 ^ bs.length
  | [] => Nat.one_pos
  | b :: bs => by
    have hb := b.isLt
    have := leNat_lt bs
    rw [leNat, List.length_cons, pow_succ]
    omega

theorem slice_length (bs : List Byte) (off n : Nat) : (slice bs off n).length = n := by
  simp only [slice, List.length_append, List.length_replicate, List.length_take]
  omega

/-- A field of n bytes is below 256^n. -/
theorem field_lt (bs : List Byte) (off n : Nat) : field bs off n < 256 ^ n := by
  have h := leNat_lt (slice bs off n)
  rwa [slice_length] at h

theorem natLe_add (m n x : Nat) : natLe (m + n) x = natLe m x ++ natLe n (x / 256 ^ m) := by
  induction m generalizing x with
  | zero => rw [Nat.zero_add, pow_zero, Nat.div_one]; rfl
  | succ m ih =>
    rw [Nat.succ_add_eq_add_succ, Nat.add_succ, natLe_succ, ih, natLe_succ, pow_succ', Nat.div_div_eq_div_mul]; rfl

/-- The 64 bytes of CTX_DATA, word by word. -/
def ctxWords (w : Nat → Nat) : List Byte := (List.range 16).flatMap (fun n => natLe 4 (w n))

/-- The context entry that `ctxWrite` stores, from the words of CTX_DATA. -/
def ctxEntryOf (w : Nat → Nat) : List Byte :=
  let raw := ctxWords w
  natLe 1 (field raw 0 1 % 8) ++ slice raw 1 1 ++ natLe 2 (field raw 2 2 % 32768) ++ natLe 4 (field raw 4 4 % 2 ^ 18)
    ++ slice raw 8 6 ++ natLe 2 0 ++ slice raw 16 20 ++ natLe 4 0 ++ slice raw 40 8 ++ List.replicate 16 0

/-- Its fields word by word, as Table 13.13 lays them out. -/
theorem ctxEntryOf_eq (w : Nat → Nat) : ctxEntryOf w =
      natLe 1 (w 0 % 8) ++ natLe 1 (bits (w 0) 15 8) ++ natLe 2 (bits (w 0) 30 16) ++ natLe 4 (w 1 % 2 ^ 18)
        ++ natLe 4 (w 2) ++ natLe 4 (w 3 % 65536) ++ natLe 4 (w 4) ++ natLe 4 (w 5) ++ natLe 4 (w 6) ++ natLe 4 (w 7)
        ++ natLe 4 (w 8) ++ natLe 4 0 ++ natLe 4 (w 10) ++ natLe 4 (w 11) ++ List.replicate 16 0 := by
  have state : field (ctxWords w) 0 1 % 8 = w 0 % 8 := by
    rw [show field (ctxWords w) 0 1 = leNat (natLe 1 (w 0)) from rfl, leNat_natLe]; omega
  have ring : slice (ctxWords w) 1 1 = natLe 1 (bits (w 0) 15 8) := by
    rw [show slice (ctxWords w) 1 1 = natLe 1 (w 0 / 256) from rfl]; exact (natLe_mod 1 _).symm
  have peer : field (ctxWords w) 2 2 % 32768 = bits (w 0) 30 16 := by
    rw [show field (ctxWords w) 2 2 = leNat (natLe 2 (w 0 / 256 / 256)) from rfl, leNat_natLe, bits]; omega
  have peerCtx : field (ctxWords w) 4 4 % 2 ^ 18 = w 1 % 2 ^ 18 := by
    rw [show field (ctxWords w) 4 4 = leNat (natLe 4 (w 1)) from rfl, leNat_natLe]; omega
  have base : slice (ctxWords w) 8 6 ++ natLe 2 0 = natLe 4 (w 2) ++ natLe 4 (w 3 % 65536) := by
    rw [show slice (ctxWords w) 8 6 = natLe 4 (w 2) ++ natLe 2 (w 3) from rfl, natLe_add 2 2 (w 3 % 65536),
      show w 3 % 65536 / 256 ^ 2 = 0 by omega, show natLe 2 (w 3 % 65536) = natLe 2 (w 3) from natLe_mod 2 _, List.append_assoc]
  have counts : slice (ctxWords w) 16 20 =
      natLe 4 (w 4) ++ natLe 4 (w 5) ++ natLe 4 (w 6) ++ natLe 4 (w 7) ++ natLe 4 (w 8) := rfl
  have last : slice (ctxWords w) 40 8 = natLe 4 (w 10) ++ natLe 4 (w 11) := rfl
  rw [ctxEntryOf, state, ring, peer, peerCtx, counts, last, List.append_assoc _ _ (natLe 2 0), base]
  simp only [List.append_assoc]

theorem execCtxCmdWrite_taken {s : State} (hw : s.takesWrites = true) : exec .ctxCmdWrite s = .next s.ctxWrite :=
  congrArg Host.Outcome.next (State.onWrite_taken hw State.ctxWrite)

theorem execCtxCmdRead_taken {s : State} (hw : s.takesWrites = true) : exec .ctxCmdRead s = .next s.ctxRead :=
  congrArg Host.Outcome.next (State.onWrite_taken hw State.ctxRead)

theorem State.ctxWrite_frame (s : State) : s.ctxWrite =
    ({ s with fab := { s.fab with ctxs := s.ctxWrite.fab.ctxs, credited := s.ctxWrite.fab.credited } } : State).reported
      s.ctxWrite := by
  refine State.reported_then ?_ (State.clamp_reported _ _ _)
  rw [State.ctxWrite, State.clamp_fab]; rfl

theorem State.ctxWrite_ctx (s : State) (c : Nat) : s.ctxWrite.ctx c =
    if c = s.ctxSel then ctxEntryOf (fun n => s.regs.eff (regCtxData n) 0) else s.ctx c := by
  rw [State.ctx, State.ctxWrite, State.clamp_fab]
  exact mget_mput _ _ _ _ _

theorem regCtxData_inj {m n : Nat} (h : regCtxData m = regCtxData n) : m = n := by
  unfold regCtxData at h; omega

/-- Latching words into CTX_DATA leaves every other register. -/
theorem RegFile.get_latch_other (g : Nat → Nat) {o i : Nat} (hi : i < 65536) (l : List Nat) : ∀ rf : RegFile,
    (∀ n ∈ l, (o, i) ≠ (regCtxData n, 0)) →
    (l.foldl (fun rf n => rf.device (regCtxData n) 0 (fun _ => g n)) rf).get o i = rf.get o i := by
  induction l with
  | nil => intro _ _; rfl
  | cons n l ih =>
    intro rf h
    rw [List.foldl_cons, ih _ fun m hm => h m (List.mem_cons_of_mem _ hm)]
    exact RegFile.get_put_ne _ _ hi (by decide) (h n List.mem_cons_self)

/-- Each word latched into CTX_DATA is read back. -/
theorem RegFile.get_latch (g : Nat → Nat) {n : Nat} (l : List Nat) : ∀ rf : RegFile, n ∈ l →
    (l.foldl (fun rf n => rf.device (regCtxData n) 0 (fun _ => g n)) rf).get (regCtxData n) 0 =
      ⟨BitVec.ofNat 32 (g n), BitVec.ofNat 32 (g n)⟩ := by
  induction l with
  | nil => intro _ h; exact absurd h List.not_mem_nil
  | cons m l ih =>
    intro rf h
    rw [List.foldl_cons]
    by_cases hl : n ∈ l
    · exact ih _ hl
    · obtain rfl : n = m := (List.mem_cons.mp h).resolve_right hl
      have hn : ∀ m ∈ l, (regCtxData n, 0) ≠ (regCtxData m, 0) := fun m hm e =>
        hl ((regCtxData_inj (Prod.mk.inj e).1) ▸ hm)
      rw [RegFile.get_latch_other g (by decide) l _ hn]
      exact RegFile.get_put ..

/-- Settles O18: each write runs its operation, whose effect and frame the lemmas above give. -/
theorem writesThatClearAndMove : Obligations.WritesThatClearAndMove := by
  refine fun s hw => ⟨fun b _ => ?logUe, fun b _ => ?logCe, fun k hk => ?range, ?storm, fun n hn => ?unfence, ?write, ?read⟩
  case logUe =>
    exact ⟨_, execLogClearUe_taken hw b, rfl, by rw [State.errLogs_modLogs, if_pos rfl],
      fun j hj => by rw [State.errLogs_modLogs, if_neg hj]⟩
  case logCe =>
    exact ⟨_, execLogClearCe_taken hw b, rfl, by rw [State.errLogs_modLogs, if_pos rfl],
      fun j hj => by rw [State.errLogs_modLogs, if_neg hj]⟩
  case range =>
    exact ⟨_, execRangeClear_taken hw hk, rfl, by rw [State.rangeClear, State.ueOf_modUe, if_pos rfl],
      fun j hj => by rw [State.rangeClear, State.ueOf_modUe, if_neg hj]⟩
  case storm => exact congrArg _ (State.onWrite_taken hw _)
  case unfence =>
    refine ⟨_, execCensusUnfence_taken hw hn, fun hd hf => ?_, fun h => ?_⟩
    · rw [if_pos hd, State.requestUnfence_of_ne hf]
      exact ⟨rfl, by rw [State.domain_modDomain, if_pos rfl], fun j hj => by rw [State.domain_modDomain, if_neg hj]⟩
    · split
      · next hd => rw [State.requestUnfence_failed (h.resolve_left (by simp [hd]))]; exact s.refuseUnfence_reported n
      · exact s.clamp_reported _ _
  case write =>
    refine ⟨_, execCtxCmdWrite_taken hw, s.ctxWrite_frame, fun c hc => ?_, ?_⟩
    · rw [State.ctxWrite_ctx, if_neg hc]
    · rw [State.ctxWrite_ctx, if_pos rfl]
      exact ctxEntryOf_eq fun n => s.regs.eff (regCtxData n) 0
  case read =>
    refine ⟨_, execCtxCmdRead_taken hw, rfl, fun n hn => ?_, fun o i hi h => ?_⟩
    · have hget := RegFile.get_latch (fun n => field (s.ctx s.ctxSel) (4 * n) 4) _ s.regs (List.mem_range.mpr hn)
      refine (congrArg (fun c => c.shadow.toNat) hget).trans ?_
      exact Nat.mod_eq_of_lt (field_lt _ _ 4)
    · exact RegFile.get_latch_other _ hi _ _ fun n hn => h n (List.mem_range.mp hn)

end Sys2Proof.Machine
end

section
/-! PROOFS. What a read or a write of memory changes: a frame that composes, and the COMMITs that wait. -/

namespace Sys2Proof.Machine

/-! ### Frames

A frame is given by what is erased: two states with the same `except…` differ in what it erases alone. -/

theorem foldl_same {β γ : Type} (π : State → γ) {f : State → β → State} (h : ∀ s x, π (f s x) = π s) :
    ∀ (l : List β) (s : State), π (l.foldl f s) = π s
  | [], _ => rfl
  | x :: l, s => (foldl_same π h l (f s x)).trans (h s x)

/-- The reports erased: those of `State.reported`. -/
def State.exceptReports (s : State) : State :=
  { s with
    out := []
    obs := { s.obs with live := [], logs := [] }
    host := { s.host with
      events := [], evtLost := false, lostNext := false, clampCount := 0, clampLastLo := 0, clampLastHi := 0 } }

/-- The bytes, check bits and logs of memory erased, and reports. -/
def State.exceptBytes (s : State) : State :=
  { s.exceptReports with mem := { s.mem with cells := [], marks := [], logs := [] } }

theorem exceptBytes_of {s t : State} (h : t = s.reported t) : t.exceptBytes = s.exceptBytes := by
  rw [h]; rfl

@[simp] theorem State.count_exceptBytes (s : State) (u i n : Nat) : (s.count u i n).exceptBytes = s.exceptBytes :=
  exceptBytes_of (s.count_reported u i n)

@[simp] theorem State.sig_exceptBytes (s : State) (u k a : Nat) : (s.sig u k a).exceptBytes = s.exceptBytes :=
  exceptBytes_of (s.sig_reported u k a)

@[simp] theorem State.event_exceptBytes (s : State) (c a : Nat) (u : Bool) : (s.event c a u).exceptBytes = s.exceptBytes :=
  exceptBytes_of (s.event_reported c a u)

@[simp] theorem State.modLogs_exceptBytes (s : State) (key : Nat) (f : ErrLogs → ErrLogs) :
    (s.modLogs key f).exceptBytes = s.exceptBytes := rfl

@[simp] theorem State.setMark_exceptBytes (s : State) (base m : Nat) : (s.setMark base m).exceptBytes = s.exceptBytes := rfl

@[simp] theorem State.rawStore_exceptBytes (s : State) (a : Nat) (bs : List Byte) :
    (s.rawStore a bs).exceptBytes = s.exceptBytes := rfl

/-! ### Reads (R331, R332) -/

@[simp] theorem State.reportCe_exceptBytes (s : State) (base syn finder : Nat) :
    (s.reportCe base syn finder).exceptBytes = s.exceptBytes := by
  simp only [State.reportCe, State.count_exceptBytes, State.modLogs_exceptBytes]

@[simp] theorem State.reportUe_exceptBytes (s : State) (base syn finder : Nat) :
    (s.reportUe base syn finder).exceptBytes = s.exceptBytes := by
  simp only [State.reportUe, State.event_exceptBytes, State.sig_exceptBytes, State.count_exceptBytes,
    State.modLogs_exceptBytes]

theorem State.correctPart_exceptBytes (s : State) (base : Nat) (p : CheckPart) (pos finder : Nat) :
    (s.correctPart base p pos finder).exceptBytes = s.exceptBytes := by
  rw [State.correctPart, State.reportCe_exceptBytes, State.setMark_exceptBytes]
  split
  · rfl
  · exact s.rawStore_exceptBytes _ _

theorem State.checkUnit_exceptBytes (s : State) (base finder : Nat) (fix : Bool) :
    (s.checkUnit base finder fix).2.exceptBytes = s.exceptBytes := by
  unfold State.checkUnit
  extract_lets ps cs
  split
  · rfl
  split
  · rw [State.reportUe_exceptBytes, State.setMark_exceptBytes]
  split
  · rfl
  refine foldl_same State.exceptBytes (fun t pc => ?_) _ s
  split
  · split
    · exact t.correctPart_exceptBytes _ _ _ _
    · exact t.reportCe_exceptBytes _ _ _
  all_goals rfl

theorem State.readUnit_exceptBytes (s : State) (base finder : Nat) : (s.readUnit base finder).2.exceptBytes = s.exceptBytes := by
  have h := s.checkUnit_exceptBytes base finder true
  unfold State.readUnit
  split
  case h_1 t he | h_2 t he => rwa [he] at h
  case h_3 t he | h_4 t he =>
    rw [he] at h
    rw [State.count_exceptBytes, State.modLogs_exceptBytes, h]

theorem State.afterRead_exceptBytes (s : State) (a n : Nat) : (s.afterRead a n).exceptBytes = s.exceptBytes := by
  have h : ∀ (us : List (Nat × Nat × Nat)) (p : List Bool × State),
      (us.foldl (fun acc u => let (q, t) := acc.2.readUnit u.1 0; (acc.1 ++ [q], t)) p).2.exceptBytes = p.2.exceptBytes := by
    intro us
    induction us with
    | nil => exact fun _ => rfl
    | cons u us ih => exact fun p => (ih _).trans (p.2.readUnit_exceptBytes u.1 0)
  exact h (unitsOf a n) ([], s)

theorem State.readLists_exceptBytes (s : State) : s.readLists.exceptBytes = s.exceptBytes :=
  (State.afterRead_exceptBytes _ _ _).trans (s.afterRead_exceptBytes _ _)

/-! ### Work on memory -/

/-- From s to t only bytes, check bits and logs of memory and the registers that arm a flip have changed, beside reports, and bytes and
check bits only at the addresses that P names. -/
structure MemWork (P : Nat → Prop) (s t : State) : Prop where
  regs : s.regs.agree t.regs
  same : t = ({ s with
    regs := t.regs
    mem := { s.mem with cells := t.mem.cells, marks := t.mem.marks, logs := t.mem.logs } } : State).reported t
  outside : ∀ a, ¬ P a → mget 0 t.mem.cells a = mget 0 s.mem.cells a ∧ mget 0 t.mem.marks a = mget 0 s.mem.marks a

/-- Every address. -/
def anywhere (_ : Nat) : Prop := True

theorem RegFile.agree_refl (r : RegFile) : r.agree r := ⟨rfl, fun _ _ _ _ => rfl⟩

theorem RegFile.agree_trans {a b c : RegFile} (h : a.agree b) (h' : b.agree c) : a.agree c :=
  ⟨h'.1.trans h.1, fun o i ho hi => (h'.2 o i ho hi).trans (h.2 o i ho hi)⟩

theorem RegFile.agree_eff {a b : RegFile} (h : a.agree b) {o : Nat} (ho : o ∉ flipRegs) : b.eff o 0 = a.eff o 0 := by
  rw [RegFile.eff, h.2 o 0 ho (by decide)]; rfl

theorem MemWork.refl (P : Nat → Prop) (s : State) : MemWork P s s :=
  ⟨RegFile.agree_refl _, rfl, fun _ _ => ⟨rfl, rfl⟩⟩

theorem MemWork.trans {P : Nat → Prop} {s t u : State} (h : MemWork P s t) (h' : MemWork P t u) : MemWork P s u := by
  refine ⟨RegFile.agree_trans h.regs h'.regs, ?_, fun a ha => ?_⟩
  · rw [h'.same, h.same]; rfl
  · exact ⟨(h'.outside a ha).1.trans (h.outside a ha).1, (h'.outside a ha).2.trans (h.outside a ha).2⟩

theorem MemWork.of_reported (P : Nat → Prop) {s t : State} (h : t = s.reported t) : MemWork P s t := by
  rw [h]
  exact ⟨RegFile.agree_refl _, rfl, fun _ _ => ⟨rfl, rfl⟩⟩

theorem MemWork.foldl {P : Nat → Prop} {β : Type} {f : State → β → State} :
    ∀ (l : List β) (s : State), (∀ s, ∀ x ∈ l, MemWork P s (f s x)) → MemWork P s (l.foldl f s)
  | [], s, _ => MemWork.refl P s
  | x :: l, s, h => (h s x List.mem_cons_self).trans
      (MemWork.foldl l _ fun s y hy => h s y (List.mem_cons_of_mem _ hy))

theorem State.rawStore_outside (l : List (Byte × Nat)) (a : Nat) {x : Nat} (h : ∀ bi ∈ l, a + bi.2 ≠ x) :
    ∀ m : List Host.Cell, mget 0 (l.foldl (fun m bi => mput 0 m (a + bi.2) bi.1) m) x = mget 0 m x := by
  induction l with
  | nil => intro _; rfl
  | cons b l ih =>
    intro m
    rw [List.foldl_cons, ih (fun y hy => h y (List.mem_cons_of_mem _ hy)), mget_mput,
      if_neg (h b List.mem_cons_self).symm]

theorem State.rawStore_work {P : Nat → Prop} (s : State) (a : Nat) (bs : List Byte) (h : ∀ i < bs.length, P (a + i)) :
    MemWork P s (s.rawStore a bs) := by
  refine ⟨RegFile.agree_refl _, rfl, fun x hx => ⟨State.rawStore_outside _ a (fun bi hbi e => hx ?_) _, rfl⟩⟩
  rw [← e]
  exact h _ (List.mem_range.mp (List.of_mem_zip hbi).2)

theorem State.setMark_work {P : Nat → Prop} (s : State) {base : Nat} (m : Nat) (h : P base) :
    MemWork P s (s.setMark base m) := by
  refine ⟨RegFile.agree_refl _, rfl, fun x hx => ⟨rfl, ?_⟩⟩
  refine (mget_mput _ _ _ _ _).trans (if_neg fun e => hx ?_)
  rw [e]; exact h

theorem State.modLogs_work (P : Nat → Prop) (s : State) (key : Nat) (f : ErrLogs → ErrLogs) : MemWork P s (s.modLogs key f) :=
  ⟨RegFile.agree_refl _, rfl, fun _ _ => ⟨rfl, rfl⟩⟩

theorem State.count_work (P : Nat → Prop) (s : State) (u i n : Nat) : MemWork P s (s.count u i n) :=
  MemWork.of_reported P (s.count_reported u i n)

/-- What changes nothing but bytes, check bits and logs of memory. -/
theorem MemWork.of_exceptBytes {s t : State} (h : t.exceptBytes = s.exceptBytes) : MemWork anywhere s t := by
  have hr : t.regs = s.regs := (congrArg State.regs h :)
  refine ⟨hr ▸ RegFile.agree_refl _, ?_, fun _ ha => absurd trivial ha⟩
  exact (congrArg (fun x : State => ({ x with
    regs := t.regs
    mem := { x.mem with cells := t.mem.cells, marks := t.mem.marks, logs := t.mem.logs } } : State).reported t) h :)

/-! ### Writes (R333, R353, R393, R653) -/

theorem MemWork.of_regs (P : Nat → Prop) (s : State) {r : RegFile} (h : s.regs.agree r) :
    MemWork P s { s with regs := r } :=
  ⟨h, rfl, fun _ _ => ⟨rfl, rfl⟩⟩

theorem State.fire_work (P : Nat → Prop) (s : State) {reg : Nat} (arm : Nat) (hr : reg ∈ flipRegs) :
    MemWork P s (s.fire reg arm) := by
  unfold State.fire
  exact MemWork.of_regs P s (RegFile.agree_device _ _ _ hr)

theorem State.xorData_work {P : Nat → Prop} (s : State) (base n mask : Nat) (h : ∀ i < n, P (base + i)) :
    MemWork P s (s.xorData base n mask) := by
  unfold State.xorData
  split
  · exact MemWork.refl P s
  · exact s.rawStore_work _ _ (by rwa [natLe_length])

theorem regFlipCtl_mem {d : Nat} (hd : d ∈ [0, 1]) : regFlipCtl d ∈ flipRegs := by
  simp only [List.mem_cons, List.not_mem_nil, or_false] at hd
  rcases hd with rfl | rfl <;> decide

theorem regInjCtl_mem {k : Nat} (hk : k ∈ List.range 8) : regInjCtl k ∈ flipRegs :=
  List.mem_append_right _ (List.mem_map_of_mem hk)

/-- The flips that wait for a unit change that unit alone. -/
theorem State.applyFlips_work {P : Nat → Prop} (s : State) (base : Nat) (h : ∀ i < unitSize base, P (base + i)) :
    MemWork P s (s.applyFlips base) := by
  have h0 : P base := h 0 (by unfold unitSize; split <;> decide)
  unfold State.applyFlips
  unfold unitSize at h
  split
  case isTrue ht =>
    rw [if_pos ht] at h
    refine MemWork.foldl _ _ fun t d hd => ?_
    split
    · exact ((t.fire_work P _ (regFlipCtl_mem hd)).trans (State.xorData_work _ _ _ _ h)).trans (State.setMark_work _ _ h0)
    · exact MemWork.refl P t
  case isFalse ht =>
    rw [if_neg ht] at h
    refine MemWork.foldl _ _ fun t k hk => ?_
    extract_lets ctl addr flip u
    split
    · exact ((t.fire_work P _ (regInjCtl_mem hk)).trans (State.xorData_work _ _ _ _ h)).trans (State.setMark_work _ _ h0)
    · exact MemWork.refl P t

theorem State.poisonCleared_work (P : Nat → Prop) (s : State) (base : Nat) : MemWork P s (s.poisonCleared base) :=
  (s.modLogs_work P _ _).trans (State.count_work P _ _ _ _)

/-- A whole unit that is stored changes that unit alone. -/
theorem State.putUnit_work {P : Nat → Prop} (s : State) {base : Nat} {bs : List Byte} (poison : Bool)
    (hl : bs.length ≤ unitSize base) (h : ∀ i < unitSize base, P (base + i)) : MemWork P s (s.putUnit base bs poison) := by
  have h0 : P base := h 0 (by unfold unitSize; split <;> decide)
  have hs := (s.rawStore_work base bs fun i hi => h i (by omega)).trans
    (State.setMark_work _ (if poison then (s.rawStore base bs).poisonMark base else 0) h0)
  refine MemWork.trans (hs.trans ?_) (State.applyFlips_work _ base h)
  split
  · exact State.count_work P _ _ _ _
  split
  · exact State.poisonCleared_work P _ _
  · exact MemWork.refl P _

/-- The two granules of the seal. -/
def State.inSeal (s : State) (a : Nat) : Prop := s.sealBase ≤ a ∧ a < s.sealBase + 32

theorem State.writeSeal_work (s : State) : MemWork s.inSeal s s.writeSeal := by
  unfold State.writeSeal
  split
  · exact MemWork.refl _ s
  next h =>
    simp only [inTier, Bool.or_eq_true, decide_eq_true_eq, Bool.not_eq_true', decide_eq_false_iff_not, not_or, not_not] at h
    have size : ∀ a < tierEnd, unitSize a = 16 := fun a ha => if_pos ha
    have e0 := size s.sealBase (by omega)
    have e1 := size (s.sealBase + 16) (by omega)
    refine (s.putUnit_work false (by rw [slice_length, e0]) fun i hi => ?_).trans
      (State.putUnit_work _ false (by rw [slice_length, e1]) fun i hi => ?_)
    all_goals unfold State.inSeal; omega

end Sys2Proof.Machine
end

section
/-! PROOFS. COMMITs that wait (R813, R819) and what the resilience block judges at its COMMIT (R673, R684). -/

namespace Sys2Proof.Machine

/-! ### Captures (R813, R819) -/

theorem State.commitWrite_waits {s : State} {b : Nat} {waits : Bool} (legal : State → RegFile → State)
    (h : waits = true ∨ ¬ s.noneWaits b) : s.commitWrite b waits legal = s.keepCapture b (s.regs.capture b) := by
  have hc : (waits || s.regs.captures.any (fun c => c.block == b)) = true := by
    rw [Bool.or_eq_true, List.any_eq_true]
    refine h.imp_right fun hn => ?_
    unfold State.noneWaits at hn
    push Not at hn
    obtain ⟨c, hc, hb⟩ := hn
    exact ⟨c, hc, by rw [hb]; exact beq_self_eq_true b⟩
  rw [State.commitWrite, hc, if_pos rfl]

theorem State.commitWrite_acts {s : State} {b : Nat} (legal : State → RegFile → State) (h : s.noneWaits b) :
    s.commitWrite b false legal = legal (s.applyVals (s.regs.capture b)) s.regs := by
  have hc : (false || s.regs.captures.any (fun c => c.block == b)) = false := by
    rw [Bool.false_or, List.any_eq_false]
    exact fun c hc => by simpa using h c hc
  rw [State.commitWrite, hc, if_neg Bool.false_ne_true]

/-- A sum of distinct powers of two shows which of them are in it. -/
theorem testBit_sum_b2n (f : Nat → Bool) (n : Nat) :
    ((List.range n).map (fun b => b2n (f b) * 2 ^ b)).foldl (· + ·) 0 < 2 ^ n ∧
    ∀ b < n, (((List.range n).map (fun b => b2n (f b) * 2 ^ b)).foldl (· + ·) 0).testBit b = f b := by
  induction n with
  | zero => exact ⟨Nat.one_pos, fun b hb => absurd hb (Nat.not_lt_zero b)⟩
  | succ n ih =>
    obtain ⟨hlt, hbit⟩ := ih
    rw [List.range_succ, List.map_append, List.foldl_append]
    set x := ((List.range n).map (fun b => b2n (f b) * 2 ^ b)).foldl (· + ·) 0
    have hx : ([n].map (fun b => b2n (f b) * 2 ^ b)).foldl (· + ·) x = 2 ^ n * b2n (f n) + x := by
      simp only [List.map_cons, List.map_nil, List.foldl_cons, List.foldl_nil]; ring
    rw [hx]
    have hb2n : b2n (f n) ≤ 1 := by unfold b2n; split <;> decide
    refine ⟨by rw [pow_succ]; nlinarith, fun b hb => ?_⟩
    rw [Nat.testBit_two_pow_mul_add _ hlt]
    split
    · exact hbit b ‹_›
    · obtain rfl : b = n := by omega
      rw [Nat.sub_self]
      cases f b <;> rfl

theorem State.cmtPending_testBit (s : State) {b : Nat} (hb : b < 24) :
    s.cmtPending.testBit b = s.regs.captures.any (fun c => c.block == b) :=
  (testBit_sum_b2n (fun b => s.regs.captures.any (fun c => c.block == b)) 24).2 b hb

/-- Shadows captured and made effective at once give every register of the block what its shadow gives (R813). -/
theorem RegFile.committed_apply (r : RegFile) (b : Nat) : r.committed (r.apply (r.capture b)) b [] [] := by
  refine ⟨RegFile.apply_captures _ _, fun o i hi => ⟨fun _ => RegFile.shadow_apply hi _ _, fun hb _ => ?_, fun hb => ?_⟩⟩
  · rw [RegFile.eff, RegFile.apply_capture r b hi, RegFile.due]
    cases regRow o with
    | none => rfl
    | some row => simp only [hb, if_true]
  · rw [RegFile.eff, RegFile.apply_capture r b hi]
    cases regRow o with
    | none => rfl
    | some row => simp only [hb, if_false]; rfl

/-! ### A field that the block judges -/

/-- From a to b only effective fields of one register have changed. -/
structure RegFile.Judges (a b : RegFile) (off : Nat) : Prop where
  only : a.only b off 0
  shadow : b.shadow off 0 = a.shadow off 0

theorem RegFile.Judges.refl (a : RegFile) (off : Nat) : a.Judges a off := ⟨⟨rfl, fun _ _ _ _ => rfl⟩, rfl⟩

theorem RegFile.Judges.trans {a b c : RegFile} {off : Nat} (h : a.Judges b off) (h' : b.Judges c off) : a.Judges c off :=
  ⟨⟨h'.only.1.trans h.only.1, fun o i hi hn => (h'.only.2 o i hi hn).trans (h.only.2 o i hi hn)⟩, h'.shadow.trans h.shadow⟩

theorem RegFile.judges_setEff (a : RegFile) (off v : Nat) : a.Judges (a.setEff off 0 v) off :=
  ⟨a.only_put _ (by decide), a.shadow_setEff v (by decide) (by decide)⟩

theorem RegFile.eff_setEff (a : RegFile) (off v : Nat) : (a.setEff off 0 v).eff off 0 = v % 2 ^ 32 := by
  rw [RegFile.eff, RegFile.get_setEff, BitVec.toNat_ofNat]

theorem RegFile.eff_lt (a : RegFile) (off i : Nat) : a.eff off i < 2 ^ 32 := (a.get off i).eff.isLt

theorem RegFile.Judges.eff {a b : RegFile} {off : Nat} (h : a.Judges b off) {o : Nat} (ho : o ≠ off) :
    b.eff o 0 = a.eff o 0 := by
  rw [RegFile.eff, h.only.2 o 0 (by decide) fun e => ho (Prod.mk.inj e).1]; rfl

/-- Fields that the block judges may differ from what the shadows give. -/
theorem RegFile.committed_judges {a b c : RegFile} {block off : Nat} (h : a.committed b block [] []) (h' : b.Judges c off)
    (hb : blockOf off = some block) : a.committed c block [off] [] := by
  refine ⟨h'.only.1.trans h.1, fun o i hi => ?_⟩
  obtain ⟨hs, hd, hn⟩ := h.2 o i hi
  by_cases he : (o, i) = (off, 0)
  · obtain ⟨rfl, rfl⟩ := Prod.mk.inj he
    exact ⟨fun _ => h'.shadow.trans (hs List.not_mem_nil), fun _ hj => absurd List.mem_cons_self hj, fun hx => absurd hb hx⟩
  · have hg := h'.only.2 o i hi he
    rw [RegFile.shadow, RegFile.eff, hg]
    exact ⟨fun _ => hs List.not_mem_nil, fun hx _ => hd hx List.not_mem_nil, hn⟩

/-! ### RS_CTL at a COMMIT (R673, Table 18.8) -/

/-- The fields of RS_CTL that the resilience block judges: TWIN_WAIT, and IMAGE_EN by the range list. -/
def State.judgeRsCtl (s : State) : State :=
  let s := s.commitClamp (bits (s.regs.eff regRsCtl 0) 31 16 = 0) regRsCtl 0 31 16 1
  if bit (s.regs.eff regRsCtl 0) 0 && !inTier s.listBase (16 * s.listCount) then
    ({ s with regs := s.regs.setEffField regRsCtl 0 0 0 0 } : State).clamp (.register regListHi) 1
  else s

/-- The lists differ between two states. -/
def State.listsDiffer (s was : State) : Bool :=
  was.listBase ≠ s.listBase || was.listCount ≠ s.listCount || was.imageBase ≠ s.imageBase

/-- What follows from a change of the lists or of the seal's address: SHAPE, IMAGE_VALID and the seal. -/
def State.followLists (s was : State) : State :=
  let lists := s.listsDiffer was
  let s := if lists then s.readLists else s
  let s := if lists then { s with res := { s.res with shape := s.shapeOf, imageValid := false } } else s
  if lists || was.sealBase ≠ s.sealBase then s.writeSeal else s

theorem State.legalRs_eq (s : State) (old : RegFile) :
    s.legalRs old = s.judgeRsCtl.followLists { s.judgeRsCtl with regs := old } := rfl

/-- Only registers have changed, beside reports. -/
def State.RegsOnly (s t : State) : Prop := t = ({ s with regs := t.regs } : State).reported t

theorem State.RegsOnly.trans {s t u : State} (h : s.RegsOnly t) (h' : t.RegsOnly u) : s.RegsOnly u := by
  unfold State.RegsOnly at *
  rw [h', h]; rfl

theorem State.RegsOnly.clamp (s : State) (r : RegFile) (c : ClampSource) :
    s.RegsOnly (({ s with regs := r } : State).clamp c 1) := by
  unfold State.RegsOnly
  rw [State.clamp_regs]
  exact State.clamp_reported _ _ _

theorem State.commitClamp_regsOnly (s : State) (bad : Bool) (off inst hi lo v : Nat) :
    s.RegsOnly (s.commitClamp bad off inst hi lo v) := by
  unfold State.commitClamp
  split
  · exact State.RegsOnly.clamp s _ _
  · rfl

theorem State.commitClamp_regs (s : State) (bad : Bool) (off inst hi lo v : Nat) :
    (s.commitClamp bad off inst hi lo v).regs = if bad then s.regs.setEffField off inst hi lo v else s.regs := by
  unfold State.commitClamp
  split
  · rw [State.clamp_regs]
  · rfl

/-- RS_CTL with a TWIN_WAIT of 0 read as 1. -/
theorem RegFile.twinWait (r : RegFile) :
    let r' := if decide (bits (r.eff regRsCtl 0) 31 16 = 0) then r.setEffField regRsCtl 0 31 16 1 else r
    r.Judges r' regRsCtl ∧ bits (r'.eff regRsCtl 0) 31 16 = max 1 (bits (r.eff regRsCtl 0) 31 16) ∧
      bit (r'.eff regRsCtl 0) 0 = bit (r.eff regRsCtl 0) 0 := by
  have he := r.eff_lt regRsCtl 0
  by_cases h : bits (r.eff regRsCtl 0) 31 16 = 0
  · simp only [h, decide_true, if_true]
    refine ⟨r.judges_setEff _ _, ?_, ?_⟩ <;> simp only [RegFile.setEffField, RegFile.eff_setEff, h]
    · unfold bits at h ⊢; omega
    · unfold bits at h; simp only [bit, Nat.testBit_zero, decide_eq_decide]; omega
  · simp only [h, decide_false, Bool.false_eq_true, if_false]
    exact ⟨.refl _ _, by omega, trivial⟩

/-- RS_CTL with IMAGE_EN cleared. -/
theorem RegFile.clearImageEn (r : RegFile) :
    r.Judges (r.setEffField regRsCtl 0 0 0 0) regRsCtl ∧
    bits ((r.setEffField regRsCtl 0 0 0 0).eff regRsCtl 0) 31 16 = bits (r.eff regRsCtl 0) 31 16 ∧
      bit ((r.setEffField regRsCtl 0 0 0 0).eff regRsCtl 0) 0 = false := by
  have he := r.eff_lt regRsCtl 0
  refine ⟨r.judges_setEff _ _, ?_, ?_⟩ <;> rw [RegFile.setEffField, RegFile.eff_setEff]
  · unfold bits; omega
  · unfold bits; simp only [bit, Nat.testBit_zero, decide_eq_false_iff_not]; omega

/-- The lists and the seal lie where their registers say. -/
theorem State.lists_of_eff {s t : State} (h : ∀ o, o ∉ flipRegs → o ≠ regRsCtl → t.regs.eff o 0 = s.regs.eff o 0) :
    t.listBase = s.listBase ∧ t.listCount = s.listCount ∧ t.imageBase = s.imageBase ∧ t.sealBase = s.sealBase := by
  have ll := h regListLo (by decide) (by decide)
  have lh := h regListHi (by decide) (by decide)
  have il := h regImageLo (by decide) (by decide)
  have ih := h regImageHi (by decide) (by decide)
  have sl := h regSealLo (by decide) (by decide)
  have sh := h regSealHi (by decide) (by decide)
  simp only [State.listBase, State.listCount, State.imageBase, State.sealBase, ll, lh, il, ih, sl, sh, and_self]

/-- What the block judges of RS_CTL. -/
theorem State.judgeRsCtl_spec (s : State) :
    s.RegsOnly s.judgeRsCtl ∧ s.regs.Judges s.judgeRsCtl.regs regRsCtl ∧
    bits (s.judgeRsCtl.regs.eff regRsCtl 0) 31 16 = max 1 (bits (s.regs.eff regRsCtl 0) 31 16) ∧
    bit (s.judgeRsCtl.regs.eff regRsCtl 0) 0 = (bit (s.regs.eff regRsCtl 0) 0 && inTier s.listBase (16 * s.listCount)) := by
  obtain ⟨hj, hw, hb⟩ := s.regs.twinWait
  have hr := s.commitClamp_regs (decide (bits (s.regs.eff regRsCtl 0) 31 16 = 0)) regRsCtl 0 31 16 1
  have ho := s.commitClamp_regsOnly (decide (bits (s.regs.eff regRsCtl 0) 31 16 = 0)) regRsCtl 0 31 16 1
  unfold State.judgeRsCtl
  rw [← hr] at hj hw hb
  generalize s.commitClamp _ regRsCtl 0 31 16 1 = t at *
  obtain ⟨hbase, hcount, -, -⟩ := State.lists_of_eff (s := s) (t := t) fun o _ ho => hj.eff ho
  obtain ⟨cj, cw, cb⟩ := t.regs.clearImageEn
  simp only [hbase, hcount, hb]
  split
  case isTrue hc =>
    rw [State.clamp_regs]
    refine ⟨ho.trans (State.RegsOnly.clamp t _ _), hj.trans cj, cw.trans hw, cb.trans ?_⟩
    rw [Bool.and_eq_true, Bool.not_eq_true'] at hc
    rw [hc.2, Bool.and_false]
  case isFalse hc =>
    refine ⟨ho, hj, hw, hb.trans ?_⟩
    cases h1 : bit (s.regs.eff regRsCtl 0) 0 <;> cases h2 : inTier s.listBase (16 * s.listCount) <;> simp_all

/-- From s to t memory has been worked on as `MemWork` says, and SHAPE and IMAGE_VALID may have changed. -/
structure ListWork (s t : State) : Prop where
  regs : s.regs.agree t.regs
  same : t = ({ s with
    regs := t.regs
    mem := { s.mem with cells := t.mem.cells, marks := t.mem.marks, logs := t.mem.logs }
    res := { s.res with shape := t.res.shape, imageValid := t.res.imageValid } } : State).reported t

theorem MemWork.listWork {P : Nat → Prop} {s t : State} (h : MemWork P s t) : ListWork s t := by
  refine ⟨h.regs, ?_⟩
  rw [h.same]; rfl

theorem ListWork.trans {s t u : State} (h : ListWork s t) (h' : ListWork t u) : ListWork s u := by
  refine ⟨RegFile.agree_trans h.regs h'.regs, ?_⟩
  rw [h'.same, h.same]; rfl

theorem ListWork.of_res (s : State) (shape : Nat) (valid : Bool) :
    ListWork s { s with res := { s.res with shape := shape, imageValid := valid } } := ⟨RegFile.agree_refl _, rfl⟩

/-- The lists are read and their SHAPE is taken. -/
def State.takeShape (s : State) : State :=
  { s.readLists with res := { s.readLists.res with shape := s.readLists.shapeOf, imageValid := false } }

theorem State.takeShape_work (s : State) : ListWork s s.takeShape :=
  (MemWork.of_exceptBytes s.readLists_exceptBytes).listWork.trans (ListWork.of_res _ _ _)

theorem State.followLists_eq (s was : State) : s.followLists was =
    if s.listsDiffer was then
      (if s.listsDiffer was || was.sealBase ≠ s.takeShape.sealBase then s.takeShape.writeSeal else s.takeShape)
    else (if s.listsDiffer was || was.sealBase ≠ s.sealBase then s.writeSeal else s) := by
  unfold State.followLists State.takeShape
  cases s.listsDiffer was <;> simp only [Bool.false_eq_true, if_true, if_false, Bool.true_or]

theorem State.followLists_work (s was : State) : ListWork s (s.followLists was) := by
  rw [State.followLists_eq]
  split <;> split
  · exact s.takeShape_work.trans (State.writeSeal_work _).listWork
  · exact s.takeShape_work
  · exact s.writeSeal_work.listWork
  · exact (MemWork.refl anywhere s).listWork

/-- Where the lists stay where they were, memory changes in the seal alone. -/
theorem State.followLists_same (s was : State) (h : s.listsDiffer was = false) :
    MemWork s.inSeal s (s.followLists was) := by
  rw [State.followLists_eq, h, if_neg Bool.false_ne_true]
  split
  · exact s.writeSeal_work
  · exact MemWork.refl _ s

/-- Work on the lists of a state that differs from s in registers alone. -/
theorem ListWork.after_regs {s j t : State} {r : RegFile} (h : ListWork j t) (hj : ({ s with regs := r } : State).RegsOnly j) :
    t = ({ s with
      regs := t.regs
      mem := { s.mem with cells := t.mem.cells, marks := t.mem.marks, logs := t.mem.logs }
      res := { s.res with shape := t.res.shape, imageValid := t.res.imageValid } } : State).reported t := by
  unfold State.RegsOnly at hj
  rw [h.same, hj]; rfl

theorem State.lists_of_agree {s t : State} (h : s.regs.agree t.regs) :
    t.listBase = s.listBase ∧ t.listCount = s.listCount ∧ t.imageBase = s.imageBase ∧ t.sealBase = s.sealBase :=
  State.lists_of_eff fun _ ho _ => RegFile.agree_eff h ho

/-! ### The statement -/

theorem execRsCommit_taken {s : State} (hw : s.takesWrites = true) :
    exec .rsCommit s = .next (s.commitWrite 3 s.rsWaits State.legalRs) :=
  congrArg _ (State.onWrite_taken hw _)

/-- Settles O16: a COMMIT that waits is kept (`commitWrite_waits`); one of the resilience block that need not wait applies its shadows,
judges RS_CTL (`judgeRsCtl_spec`) and follows the lists (`followLists_work`). -/
theorem commitsThatWait : Obligations.CommitsThatWait := by
  refine fun s hw => ⟨?always, fun h => ?waits, fun b vals hb => ?pending, fun hr hn => ?acts⟩
  case always =>
    simp only [List.forall_mem_cons]
    exact ⟨congrArg _ ((State.onWrite_taken hw _).trans (State.commitWrite_waits _ (.inl rfl))),
      congrArg _ ((State.onWrite_taken hw _).trans (State.commitWrite_waits _ (.inl rfl))),
      congrArg _ ((State.onWrite_taken hw _).trans (State.commitWrite_waits _ (.inl rfl))),
      fun _ h => absurd h List.not_mem_nil⟩
  case waits => exact (execRsCommit_taken hw).trans (congrArg _ (State.commitWrite_waits _ h))
  case pending =>
    rw [State.cmtPending_testBit _ (by omega), List.any_append, Bool.or_eq_true]
    exact .inr (by simp)
  case acts =>
    have hrun := execRsCommit_taken hw
    rw [hr, State.commitWrite_acts _ hn, State.legalRs_eq] at hrun
    have hcom := s.regs.committed_apply 3
    obtain ⟨honly, hj, hwait, hen⟩ := (s.applyVals (s.regs.capture 3)).judgeRsCtl_spec
    obtain ⟨hlb, hlc, hib, hsb⟩ := State.lists_of_eff (s := s.applyVals (s.regs.capture 3)) fun o _ ho => hj.eff ho
    have hdue : (s.applyVals (s.regs.capture 3)).regs.eff regRsCtl 0 = s.regs.due regRsCtl 0 :=
      (hcom.2 regRsCtl 0 (by decide)).2.1 (by decide) List.not_mem_nil
    rw [hdue] at hwait hen
    generalize (s.applyVals (s.regs.capture 3)).judgeRsCtl = j at *
    have hwork := j.followLists_work { j with regs := s.regs }
    have hsame := j.followLists_same { j with regs := s.regs }
    generalize j.followLists { j with regs := s.regs } = t at *
    obtain ⟨tlb, tlc, tib, tsb⟩ := State.lists_of_agree hwork.regs
    have hctl : t.regs.eff regRsCtl 0 = j.regs.eff regRsCtl 0 := RegFile.agree_eff hwork.regs (by decide)
    refine ⟨t, j.regs, hrun, RegFile.committed_judges hcom hj rfl, hwork.regs, ?_, fun h => ?_, fun h => ?_, ?_,
      fun h1 h2 h3 a ha => ?_⟩
    · rw [hctl, hwait]
    · rw [hctl, hen, h, Bool.false_and]
    · rw [hctl, hen, h, Bool.true_and, tlb, tlc, hlb, hlc]
    · exact hwork.after_regs honly
    · have hd : j.listsDiffer { j with regs := s.regs } = false := by
        rw [tlb] at h1; rw [tlc] at h2; rw [tib] at h3
        simp only [State.listsDiffer, Bool.or_eq_false_iff, decide_eq_false_iff_not, not_not]
        exact ⟨⟨h1.symm, h2.symm⟩, h3.symm⟩
      have hout := (hsame hd).outside a (by unfold State.inSeal; omega)
      rw [honly] at hout
      exact hout

end Sys2Proof.Machine
end

section
/-! PROOFS. What enumeration and a census change (R31, R46, R47, R268, R774): the unit tree, and the domains and record queue of
management. -/

namespace Sys2Proof.Machine

/-! ### The unit tree -/

/-- The unit tree erased, and reports. -/
def State.exceptTree (s : State) : State := { s.exceptReports with tree := TreeState.reset }

theorem exceptTree_of {s t : State} (h : t = s.reported t) : t.exceptTree = s.exceptTree := by
  rw [h]; rfl

theorem cells_of_exceptTree {s t : State} (h : t.exceptTree = s.exceptTree) : t.cells = s.cells :=
  (congrArg State.cells h :)

@[simp] theorem State.count_exceptTree (s : State) (u i n : Nat) : (s.count u i n).exceptTree = s.exceptTree :=
  exceptTree_of (s.count_reported u i n)

@[simp] theorem State.sig_exceptTree (s : State) (u k a : Nat) : (s.sig u k a).exceptTree = s.exceptTree :=
  exceptTree_of (s.sig_reported u k a)

@[simp] theorem State.event_exceptTree (s : State) (c a : Nat) (u : Bool) : (s.event c a u).exceptTree = s.exceptTree :=
  exceptTree_of (s.event_reported c a u)

@[simp] theorem State.modUnit_exceptTree (s : State) (u : Nat) (f : UnitState → UnitState) :
    (s.modUnit u f).exceptTree = s.exceptTree := rfl

@[simp] theorem State.modHistory_exceptTree (s : State) (u : Nat) (f : History → History) :
    (s.modHistory u f).exceptTree = s.exceptTree := rfl

@[simp] theorem State.exchange_exceptTree (s : State) (u sp : Nat) : (s.exchange u sp).exceptTree = s.exceptTree := rfl

@[simp] theorem State.treeChanged_exceptTree (s : State) : s.treeChanged.exceptTree = s.exceptTree := by
  rw [State.treeChanged, State.event_exceptTree]; rfl

@[simp] theorem State.setState_exceptTree (s : State) (u : Nat) (st : NodeState) :
    (s.setState u st).exceptTree = s.exceptTree := by
  unfold State.setState
  extract_lets old t
  have ht : t.exceptTree = s.exceptTree := by simp only [t, State.sig_exceptTree, State.modUnit_exceptTree]
  split
  · rfl
  split
  · rw [State.treeChanged_exceptTree, ht]
  · exact ht

@[simp] theorem State.quietState_exceptTree (s : State) (u : Nat) (st : NodeState) :
    (s.quietState u st).exceptTree = s.exceptTree := by
  unfold State.quietState
  extract_lets old
  split
  · rfl
  · simp only [State.sig_exceptTree, State.modUnit_exceptTree]

/-- A bank that no LOADW filled has nothing to load again. -/
theorem State.reloadBank_empty (s : State) (u n : Nat) {b : Bank} (h : b.load = []) : s.reloadBank u n b = s := by
  rw [State.reloadBank, h]; rfl

theorem State.cell_of_nil {s : State} (h : s.cells = []) (u : Nat) : s.cell u = CellState.reset := by
  rw [State.cell, h]; rfl

theorem State.resetCell_of_nil {s : State} (h : s.cells = []) (u : Nat) : s.modCell u (fun _ => CellState.reset) = s := by
  have : mmod CellState.reset s.cells u (fun _ => CellState.reset) = s.cells := by rw [h]; rfl
  rw [State.modCell, this]

/-- Where cells hold no weights, a retirement moves none: it changes the tree alone. -/
theorem State.retireUnit_exceptTree {s : State} (h : s.cells = []) (u : Nat) : (s.retireUnit u).exceptTree = s.exceptTree := by
  unfold State.retireUnit
  split
  · rfl
  split
  · rfl
  extract_lets t sp old a b c d e
  have ht : t.exceptTree = s.exceptTree := s.count_exceptTree _ _ _
  split
  · have ha : a.cells = [] := (cells_of_exceptTree ht).trans h
    have hb : b = a := State.resetCell_of_nil ha sp
    have hc : c = a := by
      have hu : b.cell u = CellState.reset := hb ▸ State.cell_of_nil ha u
      simp only [c, hu]
      rw [State.reloadBank_empty _ _ _ rfl, State.reloadBank_empty _ _ _ rfl, hb]
    have he : e.exceptTree = s.exceptTree := by
      simp only [e, d, State.modHistory_exceptTree, State.quietState_exceptTree, State.exchange_exceptTree, hc]
      exact ht
    split
    · rw [State.treeChanged_exceptTree, he]
    · exact he
  · rw [State.modHistory_exceptTree, State.setState_exceptTree, ht]

theorem State.failUnit_exceptTree {s : State} (h : s.cells = []) (x : Nat) : (s.failUnit x).exceptTree = s.exceptTree := by
  unfold State.failUnit
  extract_lets u arg t
  have ht : t.exceptTree = s.exceptTree := by
    simp only [t]
    split
    · rfl
    · exact s.sig_exceptTree _ _ _
  have hc : t.cells = [] := (cells_of_exceptTree ht).trans h
  split
  · rw [State.modHistory_exceptTree, State.retireUnit_exceptTree hc, ht]
  all_goals exact ht

theorem State.failUnits_exceptTree (failed : List Nat) : ∀ {s : State}, s.cells = [] →
    (failed.foldl State.failUnit s).exceptTree = s.exceptTree := by
  induction failed with
  | nil => exact fun _ => rfl
  | cons x xs ih =>
    intro s h
    have hx := s.failUnit_exceptTree h x
    have hc : (s.failUnit x).cells = [] := (cells_of_exceptTree hx).trans h
    rw [List.foldl_cons, ih hc, hx]

theorem State.applySubst_exceptTree (s : State) (u : Nat) : (s.applySubst u).exceptTree = s.exceptTree := by
  unfold State.applySubst
  extract_lets h
  split
  · split
    · extract_lets t
      split <;> rfl
    · rfl
  · rfl

theorem State.buildCell_exceptTree (s : State) (u : Nat) : (s.buildCell u).exceptTree = s.exceptTree := by
  rw [State.buildCell, State.modUnit_exceptTree]

theorem State.buildTable_exceptTree (s : State) : s.buildTable.exceptTree = s.exceptTree := by
  unfold State.buildTable
  extract_lets kept found old empty t u
  have ht : t.exceptTree = s.exceptTree := rfl
  have hu : u.exceptTree = t.exceptTree := foldl_same State.exceptTree State.buildCell_exceptTree physicalCells t
  exact (foldl_same State.exceptTree State.applySubst_exceptTree physicalCells u).trans (hu.trans ht)

/-! ### Records and domains -/

/-- MV of every domain: what no census changes. -/
def State.mvs (s : State) (id : Nat) : Nat := (s.domain id).mv

/-- The unit tree, the update engines' count and, of management, the record queue, the versions in OTP and the domains but for their MV
erased, and reports. -/
def State.exceptEnum (s : State) : State × (Nat → Nat) :=
  ({ s.exceptTree with
      ue := []
      mgmt := { s.mgmt with
        domains := [], queue := [], nextSeq := 0, lostNext := false, mismatches := 0, svn := 0, revoked := 0 } }, s.mvs)

theorem exceptEnum_of_tree {s t : State} (h : t.exceptTree = s.exceptTree) : t.exceptEnum = s.exceptEnum :=
  (congrArg State.exceptEnum h :)

/-- What the erased frame says, field by field. -/
theorem same_of_exceptEnum {s t : State} (h : t.exceptEnum = s.exceptEnum) :
    t = ({ s with
      tree := t.tree, ue := t.ue
      mgmt := { s.mgmt with
        domains := t.mgmt.domains, queue := t.mgmt.queue, nextSeq := t.mgmt.nextSeq, lostNext := t.mgmt.lostNext
        mismatches := t.mgmt.mismatches, svn := t.mgmt.svn, revoked := t.mgmt.revoked } } : State).reported t :=
  (congrArg (fun p : State × (Nat → Nat) => ({ p.1 with
      tree := t.tree, ue := t.ue
      mgmt := { p.1.mgmt with
        domains := t.mgmt.domains, queue := t.mgmt.queue, nextSeq := t.mgmt.nextSeq, lostNext := t.mgmt.lostNext
        mismatches := t.mgmt.mismatches, svn := t.mgmt.svn, revoked := t.mgmt.revoked } } : State).reported t) h :)

@[simp] theorem State.count_exceptEnum (s : State) (u i n : Nat) : (s.count u i n).exceptEnum = s.exceptEnum :=
  exceptEnum_of_tree (s.count_exceptTree u i n)

@[simp] theorem State.event_exceptEnum (s : State) (c a : Nat) (u : Bool) : (s.event c a u).exceptEnum = s.exceptEnum :=
  exceptEnum_of_tree (exceptTree_of (s.event_reported c a u))

@[simp] theorem State.setState_exceptEnum (s : State) (u : Nat) (st : NodeState) :
    (s.setState u st).exceptEnum = s.exceptEnum :=
  exceptEnum_of_tree (s.setState_exceptTree u st)

/-- The record queue, the versions in OTP erased, and reports. -/
def State.exceptRecords (s : State) : State :=
  { s.exceptReports with mgmt := { s.mgmt with queue := [], nextSeq := 0, lostNext := false, svn := 0, revoked := 0 } }

theorem exceptRecords_of {s t : State} (h : t = s.reported t) : t.exceptRecords = s.exceptRecords := by
  rw [h]; rfl

@[simp] theorem State.count_exceptRecords (s : State) (u i n : Nat) : (s.count u i n).exceptRecords = s.exceptRecords :=
  exceptRecords_of (s.count_reported u i n)

@[simp] theorem State.bbRecord_exceptRecords (s : State) (code : Nat) (payload : List Byte) :
    (s.bbRecord code payload).exceptRecords = s.exceptRecords := by
  unfold State.bbRecord
  extract_lets m body
  split
  · exact s.count_exceptRecords _ _ _
  split
  · rw [State.count_exceptRecords]; rfl
  · rfl

@[simp] theorem State.raiseSvn_exceptRecords (s : State) : s.raiseSvn.exceptRecords = s.exceptRecords := by
  unfold State.raiseSvn
  extract_lets img
  split <;> rfl

theorem exceptEnum_of_records {s t : State} (h : t.exceptRecords = s.exceptRecords) : t.exceptEnum = s.exceptEnum :=
  (congrArg State.exceptEnum h :)

@[simp] theorem State.bbRecord_exceptEnum (s : State) (code : Nat) (payload : List Byte) :
    (s.bbRecord code payload).exceptEnum = s.exceptEnum :=
  exceptEnum_of_records (s.bbRecord_exceptRecords code payload)

/-- A change of a domain that keeps its MV. -/
theorem State.modDomain_exceptEnum (s : State) (id : Nat) {f : Domain → Domain} (hf : ∀ d, (f d).mv = d.mv) :
    (s.modDomain id f).exceptEnum = s.exceptEnum := by
  refine Prod.ext rfl (funext fun j => ?_)
  show ((s.modDomain id f).domain j).mv = (s.domain j).mv
  rw [State.domain_modDomain]
  split
  · next h => rw [hf, h]
  · rfl

theorem State.fenceDomain_exceptEnum (s : State) (id : Nat) : (s.fenceDomain id).exceptEnum = s.exceptEnum := by
  unfold State.fenceDomain
  refine (State.modDomain_exceptEnum _ id ?_).trans ?_
  · exact fun _ => rfl
  rw [State.setState_exceptEnum]
  refine foldl_same State.exceptEnum (fun t u => ?_) _ s
  split
  · exact t.setState_exceptEnum _ _
  · rfl

theorem State.liftFence_exceptEnum (s : State) (id : Nat) : (s.liftFence id).exceptEnum = s.exceptEnum := by
  unfold State.liftFence
  refine (State.event_exceptEnum _ _ _ _).trans ?_
  refine (foldl_same State.exceptEnum (fun t i => ?_) _ _).trans (s.modDomain_exceptEnum id fun _ => rfl)
  split
  · exact t.setState_exceptEnum _ _
  · rfl

theorem State.mismatch_exceptEnum (s : State) (id : Nat) : (s.mismatch id).exceptEnum = s.exceptEnum := by
  simp only [State.mismatch, State.count_exceptEnum, State.event_exceptEnum, State.bbRecord_exceptEnum]

theorem State.refuseUnfence_exceptEnum (s : State) (id : Nat) : (s.refuseUnfence id).exceptEnum = s.exceptEnum :=
  exceptEnum_of_tree (exceptTree_of (s.refuseUnfence_reported id))

theorem State.censusOne_exceptEnum (s : State) (id : Nat) : (s.censusOne id).2.exceptEnum = s.exceptEnum := by
  unfold State.censusOne
  extract_lets d done t
  have hdone : ∀ t : State, (done t).exceptEnum = t.exceptEnum := fun t => t.modDomain_exceptEnum id fun _ => rfl
  split
  · split
    · split
      · rw [hdone, State.mismatch_exceptEnum]
      · exact hdone s
    split
    · rw [hdone, State.liftFence_exceptEnum]
    · exact hdone s
  · have ht : t.exceptEnum = s.exceptEnum := by
      simp only [t]
      split
      · exact s.refuseUnfence_exceptEnum id
      · rfl
    split
    · rw [hdone, State.modDomain_exceptEnum _ id (f := fun d => { d with recorded := true }) fun _ => rfl,
        State.mismatch_exceptEnum, ht]
    · rw [hdone, ht]
  · exact hdone s
  · exact hdone s
  all_goals
    split
    · exact hdone s
    · rw [hdone, State.fenceDomain_exceptEnum, State.mismatch_exceptEnum]

theorem State.census_exceptEnum (s : State) : s.census.exceptEnum = s.exceptEnum := by
  have h : ∀ (ids : List Nat) (p : Nat × State), (ids.foldl (fun acc id =>
      let (m, t) := acc.2.censusOne id; (acc.1 + b2n m, t)) p).2.exceptEnum = p.2.exceptEnum := by
    intro ids
    induction ids with
    | nil => exact fun _ => rfl
    | cons id ids ih => exact fun p => (ih _).trans (p.2.censusOne_exceptEnum id)
  unfold State.census
  exact (h domainIds (0, s.count 0 (ctrMgmt 0) 1)).trans (s.count_exceptEnum _ _ _)

theorem State.countEngines_exceptEnum (s : State) : s.countEngines.exceptEnum = s.exceptEnum :=
  foldl_same State.exceptEnum (f := fun t k => { t with ue := mmod UeState.reset t.ue k fun e => { e with
    enginesOk := ((rangeFrom (stackNode k + 1) 64).filter (fun u => (t.unit u).state != .failed)).length } })
    (fun _ _ => rfl) (List.range 8) s

/-- Enumeration empties the cells and changes the tree, the engines' count and management; READY is set. -/
theorem State.enumerate_frame (s : State) (failed : List Nat) :
    (s.enumerate failed).exceptEnum = ({ s with cells := [] } : State).exceptEnum ∧ (s.enumerate failed).tree.ready = true := by
  refine ⟨?_, rfl⟩
  unfold State.enumerate
  extract_lets t u
  have hb : ({ s with cells := [] } : State).buildTable.exceptTree = ({ s with cells := [] } : State).exceptTree :=
    State.buildTable_exceptTree _
  have hc : ({ s with cells := [] } : State).buildTable.cells = [] := cells_of_exceptTree hb
  have hf : t.exceptTree = ({ s with cells := [] } : State).exceptTree := (State.failUnits_exceptTree failed hc).trans hb
  show u.exceptEnum = _
  rw [State.countEngines_exceptEnum, State.census_exceptEnum]
  exact exceptEnum_of_tree hf

end Sys2Proof.Machine
end

section
/-! PROOFS. A power-on (R783, R787, R790, R846): what its sequence changes of the power-on state, and where it ends. -/

namespace Sys2Proof.Machine

/-! ### Training (R381) -/

/-- Stacks, the unit tree, memory's bytes and HOLD with its cause erased, and reports. -/
def State.exceptTraining (s : State) : State :=
  { s.exceptBytes with
    stk := [], tree := TreeState.reset, res := { s.res with hold := false, cause := 0, waited := 0 } }

theorem exceptTraining_of {s t : State} (h : t.exceptBytes = s.exceptBytes) : t.exceptTraining = s.exceptTraining :=
  (congrArg State.exceptTraining h :)

theorem exceptTraining_of_tree {s t : State} (h : t.exceptTree = s.exceptTree) : t.exceptTraining = s.exceptTraining :=
  (congrArg State.exceptTraining h :)

@[simp] theorem State.count_exceptTraining (s : State) (u i n : Nat) : (s.count u i n).exceptTraining = s.exceptTraining :=
  exceptTraining_of (s.count_exceptBytes u i n)

@[simp] theorem State.event_exceptTraining (s : State) (c a : Nat) (u : Bool) :
    (s.event c a u).exceptTraining = s.exceptTraining :=
  exceptTraining_of (s.event_exceptBytes c a u)

@[simp] theorem State.platform_exceptTraining (s : State) (n v : Nat) : (s.platform n v).exceptTraining = s.exceptTraining :=
  exceptTraining_of (exceptBytes_of (s.platform_reported n v))

theorem State.enterHold_exceptTraining (s : State) (cause : Nat) (waited : Option Nat) :
    (s.enterHold cause waited).exceptTraining = s.exceptTraining := by
  unfold State.enterHold
  split
  · rfl
  · simp only [State.platform_exceptTraining, State.event_exceptTraining, State.count_exceptTraining]; rfl

theorem State.failStack_exceptTraining (s : State) (k : Nat) : (s.failStack k).exceptTraining = s.exceptTraining := by
  unfold State.failStack
  extract_lets a b c d
  have hb : b.exceptTraining = a.exceptTraining :=
    foldl_same State.exceptTraining (fun t u => exceptTraining_of_tree (t.setState_exceptTree u .failed)) _ a
  have hd : d.exceptTraining = s.exceptTraining :=
    (exceptTraining_of c.readLists_exceptBytes).trans ((b.event_exceptTraining _ _ _).trans hb)
  split
  · rfl
  split
  · rw [State.enterHold_exceptTraining, hd]
  · exact hd

theorem State.trainStacks_exceptTraining (s : State) (training : List (Option Nat)) :
    (s.trainStacks training).exceptTraining = s.exceptTraining := by
  refine foldl_same State.exceptTraining (fun t k => ?_) (List.range 8) s
  split
  · rfl
  · exact t.failStack_exceptTraining k

/-! ### The sequence (R783, R787) -/

/-- Everything erased that a power-on sequence sets up after the power-on state. -/
def State.exceptStart (s : State) : State :=
  { s.exceptReports with
    regs := RegFile.reset, tree := TreeState.reset, mem := MemState.reset, stk := [], cells := [], ue := []
    mgmt := MgmtState.reset, obs := ObsState.reset
    res := { s.res with hold := false, cause := 0, waited := 0 }, rst := { s.rst with bar0 := false } }

theorem exceptStart_of {s t : State} (h : t = s.reported t) : t.exceptStart = s.exceptStart := by
  rw [h]; rfl

theorem exceptStart_of_training {s t : State} (h : t.exceptTraining = s.exceptTraining) : t.exceptStart = s.exceptStart :=
  (congrArg State.exceptStart h :)

theorem exceptStart_of_enum {s t : State} (h : t.exceptEnum = s.exceptEnum) : t.exceptStart = s.exceptStart :=
  (congrArg (fun p : State × (Nat → Nat) => p.1.exceptStart) h :)

theorem exceptStart_of_records {s t : State} (h : t.exceptRecords = s.exceptRecords) : t.exceptStart = s.exceptStart :=
  (congrArg State.exceptStart h :)

/-- The sequence up to the decision on the boot. -/
def State.booting (s : State) (vaux : Bool) (flash : Nat) : State :=
  let s := ((s.powerReset vaux).emit (.pin "PKG_RUN" true)).boot flash
  { s with rst := { s.rst with bar0 := true } }

/-- The sequence after a boot that did not fail. -/
def State.started (s : State) (failed : List Nat) (training : List (Option Nat)) : State :=
  ((((s.trainStacks training).loadChip).enumerate failed).postReady.bootRecord.raiseSvn).zeroCounters

/-- Where a power-on ends: after step 1 in test mode, with BAR0 readable where the boot failed, else in READY. -/
theorem State.powerOn_eq (s : State) (vaux : Bool) (flash : Nat) (failed : List Nat) (training : List (Option Nat)) :
    s.powerOn vaux flash failed training =
      if s.rst.testMode then (s.powerReset vaux).emit (.pin "PKG_RUN" true)
      else if (s.booting vaux flash).mgmt.bootFail ≠ 0 then
        (s.booting vaux flash).platform 47 (s.booting vaux flash).packageState
      else (s.booting vaux flash).started failed training := rfl

/-- Only management changes in a boot. -/
theorem State.boot_frame (s : State) (flash : Nat) : s.boot flash = { s with mgmt := (s.boot flash).mgmt } := by
  unfold State.boot
  extract_lets order fail
  split
  · rfl
  split
  · rfl
  split
  · rfl
  · rfl

theorem State.boot_unreadable (s : State) {flash : Nat} (h : flash % 4 = 3) : (s.boot flash).mgmt.bootFail = 1 := by
  unfold State.boot
  rw [if_pos h]; rfl

/-- The boot leaves the power-on state but for management and BAR0. -/
theorem State.booting_frame (s : State) (vaux : Bool) (flash : Nat) :
    s.booting vaux flash = { (s.powerReset vaux).emit (.pin "PKG_RUN" true) with
      mgmt := (s.booting vaux flash).mgmt
      rst := { (s.powerReset vaux).rst with bar0 := true } } := by
  unfold State.booting
  rw [State.boot_frame]; rfl

theorem State.loadChip_frame (s : State) : s.loadChip = { s with regs := s.loadChip.regs } := by
  simp only [State.loadChip]
  split <;> rfl

theorem State.loadChip_get (s : State) {o i : Nat} (ho : o ≠ regFabCtl) (hi : i < 65536) :
    s.loadChip.regs.get o i = s.regs.get o i := by
  unfold State.loadChip
  extract_lets c
  split
  · exact RegFile.get_device_other _ _ ho (by decide) hi
  · rfl

/-- From the boot to READY. -/
structure Started (s t : State) : Prop where
  frame : t.exceptStart = s.exceptStart
  ready : t.tree.ready = true
  zero : t.obs.live = [] ∧ t.obs.latched = []
  rst : t.rst = s.rst
  bootFail : t.mgmt.bootFail = s.mgmt.bootFail
  regs : ∀ o i, o ≠ regFabCtl → i < 65536 → t.regs.get o i = s.regs.get o i

theorem State.started_spec (s : State) (failed : List Nat) (training : List (Option Nat)) :
    Started s (s.started failed training) := by
  unfold State.started
  have htrain := s.trainStacks_exceptTraining training
  generalize s.trainStacks training = a at *
  have hchip := a.loadChip_frame
  have hget := fun o i => a.loadChip_get (o := o) (i := i)
  generalize a.loadChip = b at *
  obtain ⟨henum, hready⟩ := b.enumerate_frame failed
  generalize b.enumerate failed = c at *
  have hrec : c.postReady.bootRecord.raiseSvn.exceptRecords = c.exceptRecords := by
    rw [State.raiseSvn_exceptRecords, State.bootRecord, State.bbRecord_exceptRecords]
    exact exceptRecords_of (State.event_reported _ _ _ _)
  generalize c.postReady.bootRecord.raiseSvn = d at *
  have hab : b.exceptStart = a.exceptStart := by rw [hchip]; rfl
  refine ⟨?_, (congrArg (fun x : State => x.tree.ready) hrec :).trans hready, ⟨rfl, rfl⟩, ?_, ?_, fun o i ho hi => ?_⟩
  · calc d.zeroCounters.exceptStart = d.exceptStart := rfl
      _ = c.exceptStart := exceptStart_of_records hrec
      _ = ({ b with cells := [] } : State).exceptStart := exceptStart_of_enum henum
      _ = b.exceptStart := rfl
      _ = a.exceptStart := hab
      _ = s.exceptStart := exceptStart_of_training htrain
  · calc d.rst = c.rst := (congrArg State.rst hrec :)
      _ = b.rst := (congrArg (fun p : State × (Nat → Nat) => p.1.rst) henum :)
      _ = a.rst := by rw [hchip]
      _ = s.rst := (congrArg State.rst htrain :)
  · calc d.mgmt.bootFail = c.mgmt.bootFail := (congrArg (fun x : State => x.mgmt.bootFail) hrec :)
      _ = b.mgmt.bootFail := (congrArg (fun p : State × (Nat → Nat) => p.1.mgmt.bootFail) henum :)
      _ = a.mgmt.bootFail := by rw [hchip]
      _ = s.mgmt.bootFail := (congrArg (fun x : State => x.mgmt.bootFail) htrain :)
  · have hd : d.regs = c.regs := (congrArg State.regs hrec :)
    have hc : c.regs = b.regs := (congrArg (fun p : State × (Nat → Nat) => p.1.regs) henum :)
    have ha : a.regs = s.regs := (congrArg State.regs htrain :)
    show d.regs.get o i = _
    rw [hd, hc, hget o i ho hi, ha]

/-- A power-on changes of the power-on state what `exceptStart` erases. -/
theorem State.powerOn_frame (s : State) (vaux : Bool) (flash : Nat) (failed : List Nat) (training : List (Option Nat)) :
    (s.powerOn vaux flash failed training).exceptStart = (s.powerReset vaux).exceptStart := by
  have hboot : (s.booting vaux flash).exceptStart = (s.powerReset vaux).exceptStart := by
    rw [State.booting_frame]; rfl
  rw [State.powerOn_eq]
  split
  · rfl
  split
  · exact (exceptStart_of (State.platform_reported _ _ _)).trans hboot
  · exact ((s.booting vaux flash).started_spec failed training).frame.trans hboot

/-- How far a power-on has come: the part of the statement that depends on TEST_MODE and on the boot. -/
structure PoweredTo (flash : Nat) (t : State) : Prop where
  test : t.rst.testMode = true → t.rst.bar0 = false ∧ t.tree.ready = false ∧ t.regs = State.reset.regs
  run : t.rst.testMode = false → t.rst.bar0 = true ∧
    (flash % 4 = 3 → t.mgmt.bootFail = 1) ∧ (t.mgmt.bootFail ≠ 0 → t.tree.ready = false) ∧
    (t.mgmt.bootFail = 0 → t.tree.ready = true ∧ t.obs.live = [] ∧ t.obs.latched = [] ∧
      ∀ off inst, off ≠ regFabCtl → inst < 65536 → t.regs.get off inst = State.reset.regs.get off inst)

theorem State.powerOn_poweredTo (s : State) (vaux : Bool) (flash : Nat) (failed : List Nat) (training : List (Option Nat)) :
    PoweredTo flash (s.powerOn vaux flash failed training) := by
  have htest : (s.powerReset vaux).rst.testMode = s.rst.testMode := rfl
  have hframe := s.booting_frame vaux flash
  have hflash : flash % 4 = 3 → (s.booting vaux flash).mgmt.bootFail = 1 := State.boot_unreadable _
  rw [State.powerOn_eq]
  split
  case isTrue h => exact ⟨fun _ => ⟨rfl, rfl, rfl⟩, fun hf => absurd (h.symm.trans hf) Bool.noConfusion⟩
  case isFalse h =>
    generalize s.booting vaux flash = b at *
    have hbt : b.rst.testMode ≠ true := by rw [hframe]; exact h
    have hbar0 : b.rst.bar0 = true := by rw [hframe]
    split
    case isTrue hb =>
      rw [State.platform_reported]
      refine ⟨fun ht => absurd ht hbt, fun _ => ⟨hbar0, hflash, fun _ => ?_, fun h0 => absurd h0 hb⟩⟩
      show b.tree.ready = false
      rw [hframe]; rfl
    case isFalse hb =>
      have hs := b.started_spec failed training
      generalize b.started failed training = t at *
      refine ⟨fun ht => absurd (hs.rst ▸ ht) hbt, fun _ => ⟨hs.rst ▸ hbar0, fun hf => hs.bootFail.trans (hflash hf),
        fun h0 => absurd (hs.bootFail ▸ h0) hb, fun _ => ⟨hs.ready, hs.zero.1, hs.zero.2, fun o i ho hi => ?_⟩⟩⟩
      rw [hs.regs o i ho hi, hframe]; rfl

end Sys2Proof.Machine
end

section
/-! PROOFS. What a warm or function reset discards and keeps (R380, R386, R666, R791, R795, R820). -/

namespace Sys2Proof.Machine

/-! ### Registers that a reset keeps (R820) -/

theorem mget_filter_map {α : Type} (d : α) (p : Nat → Bool) (g : α → α) (hg : g d = d) (m : List (Nat × α)) (k : Nat) :
    mget d ((m.filter (fun kv => p kv.1)).map (fun kv => (kv.1, g kv.2))) k = if p k then g (mget d m k) else d := by
  induction m with
  | nil => simp only [List.filter_nil, List.map_nil, mget, hg, ite_self]
  | cons kv m ih =>
    obtain ⟨j, v⟩ := kv
    by_cases hj : j = k
    · subst hj
      by_cases hp : p j
      · simp [mget, hp]
      · simpa [hp] using ih
    · by_cases hp : p j
      · simpa [mget, hp, hj] using ih
      · simpa [mget, hp, hj] using ih

theorem RegFile.get_resetAll (r : RegFile) (keep : Nat → Bool) (o : Nat) {i : Nat} (hi : i < 65536) :
    (r.resetAll keep (fun _ => false)).get o i =
      if keep o then ⟨(r.get o i).eff, (r.get o i).eff⟩ else ⟨regResetValue o, regResetValue o⟩ := by
  have h := mget_filter_map ⟨regResetValue o, regResetValue o⟩ (fun k => keep (k / 65536)) (fun c : RegCell => ⟨c.eff, c.eff⟩)
    rfl r.vals (regKey o i)
  rw [regKey_div hi] at h
  exact h

/-- No reset keeps a register that arms a flip. -/
theorem flipRegs_not_kept : ∀ o ∈ flipRegs, regKept o = false := by decide

/-! ### What the stacks, the ports and the write buffers lose -/

/-- Everything erased that a reset takes from stacks, ports and write buffers, the seal of a live state, and reports. -/
def State.exceptLost (s : State) : State :=
  { s.exceptReports with
    taken := 0, regs := RegFile.reset, mem := { s.mem with cells := [], marks := [], logs := [], buffered := [] }
    stk := [], tree := TreeState.reset, fab := FabState.reset, res := { s.res with liveValid := false } }

/-- From s to t nothing has changed but what `exceptLost` erases, of the registers those that arm a flip, and no write has entered a
buffer. -/
structure Loses (s t : State) : Prop where
  frame : t.exceptLost = s.exceptLost
  regs : s.regs.agree t.regs
  buffered : s.mem.buffered = [] → t.mem.buffered = []

theorem Loses.refl (s : State) : Loses s s := ⟨rfl, RegFile.agree_refl _, id⟩

theorem Loses.trans {s t u : State} (h : Loses s t) (h' : Loses t u) : Loses s u :=
  ⟨h'.frame.trans h.frame, RegFile.agree_trans h.regs h'.regs, fun hb => h'.buffered (h.buffered hb)⟩

theorem Loses.foldl {β : Type} {f : State → β → State} (h : ∀ s x, Loses s (f s x)) : ∀ (l : List β) (s : State),
    Loses s (l.foldl f s)
  | [], s => Loses.refl s
  | x :: l, s => (h s x).trans (Loses.foldl h l _)

theorem MemWork.loses {P : Nat → Prop} {s t : State} (h : MemWork P s t) : Loses s t := by
  refine ⟨?_, h.regs, fun hb => ?_⟩
  · rw [h.same]; rfl
  · rw [h.same]; exact hb

theorem State.writeSeal_loses (s : State) : Loses s s.writeSeal := s.writeSeal_work.loses

theorem State.emit_loses (s : State) (o : Output) : Loses s (s.emit o) := ⟨rfl, RegFile.agree_refl _, id⟩

theorem State.modStack_loses (s : State) (k : Nat) (f : StackState → StackState) : Loses s (s.modStack k f) :=
  ⟨rfl, RegFile.agree_refl _, id⟩

theorem State.modUnit_loses (s : State) (u : Nat) (f : UnitState → UnitState) : Loses s (s.modUnit u f) :=
  ⟨rfl, RegFile.agree_refl _, id⟩

theorem Loses.invalidate (s : State) : Loses s { s with res := { s.res with liveValid := false } } :=
  ⟨rfl, RegFile.agree_refl _, id⟩

theorem State.dropLive_loses (s : State) : Loses s s.dropLive := by
  unfold State.dropLive
  split
  · exact (Loses.invalidate s).trans (State.writeSeal_loses _)
  · exact Loses.refl s

theorem State.touch_loses (s : State) (a n : Nat) : Loses s (s.touch a n) := by
  unfold State.touch State.unseal
  split
  · refine (MemWork.of_exceptBytes s.readLists_exceptBytes).loses.trans ?_
    split
    · exact (Loses.invalidate _).trans (State.writeSeal_loses _)
    · exact Loses.refl _
  · exact Loses.refl s

theorem State.drained_loses (s : State) (f : Nat → Bool) : Loses s (s.drained f) := by
  refine ⟨rfl, RegFile.agree_refl _, fun hb => ?_⟩
  show s.mem.buffered.filter _ = []
  rw [hb]; rfl

theorem Loses.clear (s : State) (a n : Nat) :
    Loses s { s with mem := { s.mem with cells := mclear a n s.mem.cells, marks := mclear a n s.mem.marks } } :=
  ⟨rfl, RegFile.agree_refl _, id⟩

theorem State.zeroAs_loses (s : State) (opened : Nat → Bool) (a n : Nat) : Loses s (s.zeroAs opened a n) := by
  unfold State.zeroAs
  refine Loses.trans ?_ (Loses.foldl (fun t b => (t.applyFlips_work b (P := anywhere) fun _ _ => trivial).loses) _ _)
  refine Loses.trans ?_ (Loses.foldl (fun t b => (t.poisonCleared_work anywhere b).loses) _ _)
  exact ((s.touch_loses a n).trans (State.drained_loses _ _)).trans (Loses.clear _ a n)

theorem State.leaveTest_loses (s : State) (k : Nat) (was : Nat → Bool) : Loses s (s.leaveTest k was) :=
  (s.zeroAs_loses was _ _).trans (State.modStack_loses _ _ _)

/-! ### Stacks (R380, R386) -/

/-- What `resetStacks` does to one stack. -/
def State.resetStack (s : State) (k : Nat) : State :=
  if (s.stack k).mode == .failed then s.modStack k (fun x => { x with temp := 0, throttle := 0, marginResult := 0, bin := 0 })
  else
    let test := (s.stack k).inTest && !s.censusHolds (stackNode k)
    let vddq := match (s.stack k).margin with | some (3, _) => true | _ => false
    let s := if (s.stack k).inTest then s.leaveTest k s.isOpen else s
    let s := s.modStack k (fun x => { x with
      temp := 0, throttle := 0, enteringTest := false, margin := none, marginResult := 0, bin := 0 })
    let s := if vddq then s.emit (.setpoint (16 + k / 4) 0) else s
    if test then s.modUnit (stackNode k) (fun x => { x with state := .idle }) else s

theorem State.resetStacks_eq (s : State) : s.resetStacks = (List.range 8).foldl State.resetStack s := rfl

theorem State.resetStack_loses (s : State) (k : Nat) : Loses s (s.resetStack k) := by
  unfold State.resetStack
  extract_lets test vddq a b c
  split
  · exact s.modStack_loses _ _
  have ha : Loses s a := by
    simp only [a]
    split
    · exact s.leaveTest_loses _ _
    · exact Loses.refl s
  have hc : Loses s c := by
    simp only [c]
    split
    · exact (ha.trans (a.modStack_loses _ _)).trans (b.emit_loses _)
    · exact ha.trans (a.modStack_loses _ _)
  split
  · exact hc.trans (c.modUnit_loses _ _)
  · exact hc

theorem State.inTest_modStack (s : State) (k j : Nat) {f : StackState → StackState} (hf : ∀ x, (f x).inTest = x.inTest) :
    ((s.modStack k f).stack j).inTest = (s.stack j).inTest := by
  rw [State.stack_modStack]
  split
  · next h => rw [hf, h]
  · rfl

/-- A reset of a stack that is not in TEST leaves memory alone, and no other stack in TEST that was not. -/
theorem State.resetStack_mem {s : State} {k : Nat} (hk : (s.stack k).inTest = false) :
    (s.resetStack k).mem = s.mem ∧ ∀ j, ((s.resetStack k).stack j).inTest = (s.stack j).inTest := by
  unfold State.resetStack
  simp only [hk, Bool.false_and, Bool.false_eq_true, if_false]
  split
  · exact ⟨rfl, fun j => s.inTest_modStack k j fun _ => rfl⟩
  split
  · exact ⟨rfl, fun j => s.inTest_modStack k j (f := fun x => { x with
      temp := 0, throttle := 0, enteringTest := false, margin := none, marginResult := 0, bin := 0 }) fun _ => rfl⟩
  · exact ⟨rfl, fun j => s.inTest_modStack k j fun _ => rfl⟩

theorem State.resetStacks_mem (ks : List Nat) : ∀ {s : State}, (∀ k ∈ ks, (s.stack k).inTest = false) →
    (ks.foldl State.resetStack s).mem = s.mem := by
  induction ks with
  | nil => exact fun _ => rfl
  | cons k ks ih =>
    intro s h
    obtain ⟨hm, ht⟩ := State.resetStack_mem (h k List.mem_cons_self)
    rw [List.foldl_cons, ih fun j hj => (ht j).trans (h j (List.mem_cons_of_mem _ hj)), hm]

/-! ### Write buffers (R795) -/

/-- What `discardBuffers` does for one stack. -/
def discardStack (acc : Nat × State) (k : Nat) : Nat × State :=
  let mine := acc.2.mem.buffered.filter (fun e => stackOf e.addr == k)
  if mine.isEmpty then acc
  else
    let (v, s) := acc.2.free
    let n := v % (mine.length + 1)
    (acc.1 + n, (mine.drop (mine.length - n)).reverse.foldl State.putSector s)

theorem State.discardBuffers_eq (s : State) : s.discardBuffers =
    (((List.range 8).foldl discardStack (0, s)).1, ((List.range 8).foldl discardStack (0, s)).2.allDrained) := by
  unfold State.discardBuffers
  split
  next n t h =>
    have hp : (List.range 8).foldl discardStack (0, s) = (n, t) := h
    rw [hp]

/-- Putting sectors back keeps the buffers and the registers. -/
theorem State.putSectors_keep (es : List OldSector) : ∀ s : State,
    (es.foldl State.putSector s).mem.buffered = s.mem.buffered ∧ Loses s (es.foldl State.putSector s) := by
  induction es with
  | nil => exact fun s => ⟨rfl, Loses.refl s⟩
  | cons e es ih =>
    intro s
    have he : Loses s (s.putSector e) := ⟨rfl, RegFile.agree_refl _, id⟩
    exact ⟨(ih _).1, he.trans (ih _).2⟩

/-- One stack gives up at most the writes that wait for it. -/
theorem discardStack_spec (p : Nat × State) (k : Nat) :
    (discardStack p k).1 ≤ p.1 + (p.2.mem.buffered.filter (fun e => stackOf e.addr == k)).length ∧
    (discardStack p k).2.mem.buffered = p.2.mem.buffered ∧ Loses p.2 (discardStack p k).2 := by
  unfold discardStack
  extract_lets mine
  split
  · exact ⟨Nat.le_add_right _ _, rfl, Loses.refl _⟩
  · have hn : (p.2.free.1 % (mine.length + 1)) ≤ mine.length := Nat.le_of_lt_succ (Nat.mod_lt _ (Nat.succ_pos _))
    obtain ⟨hb, hl⟩ := State.putSectors_keep (mine.drop (mine.length - p.2.free.1 % (mine.length + 1))).reverse p.2.free.2
    have hf : Loses p.2 p.2.free.2 := ⟨rfl, RegFile.agree_refl _, id⟩
    exact ⟨Nat.add_le_add_left hn _, hb, hf.trans hl⟩

theorem length_filter_cons_mem {α : Type} (g : α → Nat) {k : Nat} {ks : List Nat} (hk : k ∉ ks) (m : List α) :
    (m.filter (fun e => g e == k)).length + (m.filter (fun e => decide (g e ∈ ks))).length =
      (m.filter (fun e => decide (g e ∈ k :: ks))).length := by
  induction m with
  | nil => rfl
  | cons e m ih =>
    by_cases h : g e = k
    · have hn : g e ∉ ks := h ▸ hk
      simp only [List.filter_cons, h, hk, beq_self_eq_true, List.mem_cons, true_or, decide_true, decide_false, if_true,
        Bool.false_eq_true, if_false, List.length_cons]
      simp only [List.mem_cons] at ih
      omega
    · by_cases hm : g e ∈ ks
      · simp only [List.filter_cons, List.mem_cons, beq_iff_eq, h, hm, or_true, decide_true, if_true, if_false,
          List.length_cons] at ih ⊢
        omega
      · simpa only [List.filter_cons, List.mem_cons, beq_iff_eq, h, hm, or_false, decide_false, Bool.false_eq_true,
          if_false] using ih

/-- All stacks give up at most the writes that wait. -/
theorem discardStacks_spec (ks : List Nat) : ∀ p : Nat × State, ks.Nodup →
    (ks.foldl discardStack p).1 ≤ p.1 + (p.2.mem.buffered.filter (fun e => decide (stackOf e.addr ∈ ks))).length ∧
    Loses p.2 (ks.foldl discardStack p).2 := by
  induction ks with
  | nil => exact fun p _ => ⟨Nat.le_add_right _ _, Loses.refl _⟩
  | cons k ks ih =>
    intro p hn
    obtain ⟨hk, hks⟩ := List.nodup_cons.mp hn
    obtain ⟨h1, hb, hl⟩ := discardStack_spec p k
    obtain ⟨h2, hl'⟩ := ih (discardStack p k) hks
    refine ⟨?_, hl.trans hl'⟩
    rw [hb] at h2
    have := length_filter_cons_mem (fun e : OldSector => stackOf e.addr) hk p.2.mem.buffered
    rw [List.foldl_cons]
    omega

theorem State.discardBuffers_spec (s : State) : s.discardBuffers.1 ≤ s.mem.buffered.length ∧
    s.discardBuffers.2.mem.buffered = [] ∧ Loses s s.discardBuffers.2 := by
  obtain ⟨hn, hl⟩ := discardStacks_spec (List.range 8) (0, s) List.nodup_range
  rw [State.discardBuffers_eq]
  generalize (List.range 8).foldl discardStack (0, s) = p at *
  have hd : Loses p.2 p.2.allDrained := ⟨rfl, RegFile.agree_refl _, fun _ => rfl⟩
  rw [Nat.zero_add] at hn
  exact ⟨hn.trans (List.length_filter_le _ _), rfl, hl.trans hd⟩

/-- With nothing in the buffers nothing is discarded. -/
theorem State.discardBuffers_empty {s : State} (h : s.mem.buffered = []) : s.discardBuffers.2 = s := by
  have hk : ∀ k, discardStack (0, s) k = (0, s) := fun k => by
    unfold discardStack
    rw [h]; rfl
  have hf : ∀ ks : List Nat, ks.foldl discardStack (0, s) = (0, s) := by
    intro ks
    induction ks with
    | nil => rfl
    | cons k ks ih => rw [List.foldl_cons, hk, ih]
  rw [State.discardBuffers_eq, hf]
  show { s with mem := { s.mem with buffered := [] } } = s
  rw [← h]

end Sys2Proof.Machine
end

section
/-! PROOFS. The steps of a warm or function reset (R791), and the statement on power-ons and resets. -/

namespace Sys2Proof.Machine

/-! ### The blocks (R666, R715, R791) -/

/-- A copy that the reset interrupts leaves no live state. -/
def State.dropCopy (s : State) : State := if s.res.copy.isSome then s.dropLive else s

/-- Stacks, ports and an interrupted copy before the blocks are reset. -/
def State.settled (s : State) : State := s.resetStacks.resetFabric.dropCopy

theorem State.resetStacks_loses (s : State) : Loses s s.resetStacks := by
  rw [State.resetStacks_eq]
  exact Loses.foldl State.resetStack_loses _ s

theorem State.resetFabric_loses (s : State) : Loses s s.resetFabric := ⟨rfl, RegFile.agree_refl _, id⟩

theorem State.dropCopy_loses (s : State) : Loses s s.dropCopy := by
  unfold State.dropCopy
  split
  · exact s.dropLive_loses
  · exact Loses.refl s

theorem State.settled_loses (s : State) : Loses s s.settled :=
  (s.resetStacks_loses.trans (State.resetFabric_loses _)).trans (State.dropCopy_loses _)

theorem Loses.copy {s t : State} (h : Loses s t) : t.res.copy = s.res.copy :=
  (congrArg (fun x : State => x.res.copy) h.frame :)

theorem State.settled_mem {s : State} (hc : s.res.copy = none) (ht : ∀ k < 8, (s.stack k).inTest = false) :
    s.settled.mem = s.mem := by
  have hs : s.resetStacks.mem = s.mem := by
    rw [State.resetStacks_eq]
    exact State.resetStacks_mem (List.range 8) fun k hk => ht k (List.mem_range.mp hk)
  have hres : s.resetStacks.res.copy = none := s.resetStacks_loses.copy.trans hc
  unfold State.settled
  generalize s.resetStacks = a at *
  have hn : ¬ a.resetFabric.res.copy.isSome = true := by
    show ¬ a.res.copy.isSome = true
    rw [hres]; exact Bool.false_ne_true
  rw [State.dropCopy, if_neg hn, ← hs]; rfl

/-- What every block is left with, in terms of what the stacks, the ports and the copy leave. -/
structure BlocksReset (y x : State) : Prop where
  regs : x.regs = y.regs.resetAll regKept (fun _ => false)
  mem : x.mem = { y.mem with ueLive := [], slicePass := [] }
  host : x.host = HostState.reset
  coll : x.coll = y.coll.discarded
  tf : x.tf = TfState.reset
  fatal : x.cores.fatal = false
  res : x.res.hold = false ∧ x.res.copy = none
  mgmt : x.mgmt = { y.mgmt with mnode := 0 }
  kept : x.time = y.time ∧ x.pwr = y.pwr ∧ x.rst = y.rst

theorem State.resetBlocks_spec (s : State) : BlocksReset s.settled s.resetBlocks := by
  unfold State.resetBlocks State.settled State.resetRes State.resetCores State.dropCopy
  generalize s.resetStacks.resetFabric = a
  split <;> exact ⟨rfl, rfl, rfl, rfl, rfl, rfl, ⟨rfl, rfl⟩, rfl, ⟨rfl, rfl, rfl⟩⟩

/-! ### HOLD, and the end of a reset -/

theorem State.enterHold_entered {s : State} (cause : Nat) (waited : Option Nat) (h : s.res.hold = false) :
    s.enterHold cause waited = ({ s with res := { s.res with
      hold := true, cause := cause, waited := waited.getD s.res.waited } } : State).reported (s.enterHold cause waited) := by
  unfold State.enterHold
  rw [if_neg (by rw [h]; exact Bool.false_ne_true)]
  exact State.reported_trans (State.reported_trans (State.count_reported _ _ _ _) (State.event_reported _ _ _ _))
    (State.platform_reported _ _ _)

theorem State.postReady_reported (s : State) : s.postReady = s.reported s.postReady := by
  unfold State.postReady
  exact State.event_reported _ _ _ _

/-- What the end of a reset leaves of a state. -/
structure ResetDone (x t : State) : Prop where
  frame : t = ({ x with
    cells := [], tree := t.tree, ue := t.ue
    mgmt := { x.mgmt with
      domains := t.mgmt.domains, queue := t.mgmt.queue, nextSeq := t.mgmt.nextSeq, lostNext := t.mgmt.lostNext
      mismatches := t.mgmt.mismatches, svn := t.mgmt.svn, revoked := t.mgmt.revoked }
    res := { x.res with hold := true, cause := 2 }, obs := { x.obs with live := [], latched := [] } } : State).reported t
  mvs : t.mvs = x.mvs
  ready : t.tree.ready = true
  zero : t.obs.live = [] ∧ t.obs.latched = []

theorem State.resetDone_spec {x : State} (squall : List Nat) (activated : Bool) (h : x.res.hold = false) :
    ResetDone x (x.resetDone squall activated) := by
  unfold State.resetDone
  obtain ⟨henum, hready⟩ := x.enumerate_frame squall
  extract_lets b c
  have hb : b.exceptRecords = (x.enumerate squall).exceptRecords := State.bbRecord_exceptRecords _ _ _
  have hc : c.exceptRecords = (x.enumerate squall).exceptRecords := by
    simp only [c]
    split
    · rw [State.raiseSvn_exceptRecords, State.bootRecord, State.bbRecord_exceptRecords, hb]
    · exact hb
  have hce : c.exceptEnum = ({ x with cells := [] } : State).exceptEnum := (exceptEnum_of_records hc).trans henum
  have hcr : c.tree.ready = true := (congrArg (fun s : State => s.tree.ready) hc :).trans hready
  have hch : c.res.hold = false := (congrArg (fun p : State × (Nat → Nat) => p.1.res.hold) hce :).trans h
  have hhold := State.reported_trans (State.enterHold_entered 2 none hch) (State.postReady_reported _)
  clear_value c
  generalize (c.enterHold 2 none).postReady = d at *
  have hmv : d.mvs = c.mvs := (congrArg State.mvs hhold :)
  refine ⟨?_, hmv.trans (congrArg Prod.snd hce :), ?_, ⟨rfl, rfl⟩⟩
  · rw [hhold, same_of_exceptEnum hce]; rfl
  · exact (congrArg (fun s : State => s.tree.ready) hhold :).trans hcr

theorem ResetDone.rst {x t : State} (h : ResetDone x t) : t.rst = x.rst := (congrArg State.rst h.frame :)

/-! ### The whole reset (R791) -/

/-- The package as the reset finds it, with nothing in the write buffers. -/
def State.found (s : State) : State :=
  if s.discardBuffers.2.rst.state = 3 then s.discardBuffers.2.emit (.pin "PKG_RUN" true) else s.discardBuffers.2

/-- What the reset discards, with the writes that the buffers gave up. -/
def State.lostCounts (s : State) : List Nat := s.discardBuffers.2.discards.set 2 s.discardBuffers.1

/-- The reset activates a firmware image. -/
def State.activates (s : State) (kind trigger : Nat) : Bool :=
  kind == 2 && (s.discardBuffers.2.mgmt.activate || trigger == 4)

/-- The state from which the blocks are reset. -/
def State.bootedFor (s : State) (kind trigger : Nat) : State := if s.activates kind trigger then s.found.boot 0 else s.found

/-- The blocks reset, before enumeration. -/
def State.blocksDone (s : State) (kind trigger : Nat) : State :=
  let x := (s.bootedFor kind trigger).resetBlocks
  { x with rst := x.rst.after kind trigger s.lostCounts }

theorem State.restart_ignored {s : State} (h : s.canReset = false) (kind trigger : Nat) (squall : List Nat) :
    s.restart kind trigger squall = s := by
  rw [State.restart, h, Bool.not_false, if_pos rfl]

theorem State.restart_eq {s : State} (h : s.canReset = true) (kind trigger : Nat) (squall : List Nat) :
    s.restart kind trigger squall =
      (if (s.blocksDone kind trigger).mgmt.bootFail = 0 then
        (s.blocksDone kind trigger).resetDone squall (s.activates kind trigger)
      else s.blocksDone kind trigger).tellState s.found := by
  unfold State.restart State.blocksDone State.bootedFor State.activates State.found State.lostCounts
  rw [h, Bool.not_true, if_neg Bool.false_ne_true]

theorem State.found_loses (s : State) : Loses s s.found := by
  have hd := s.discardBuffers_spec.2.2
  unfold State.found
  split
  · exact hd.trans (State.emit_loses _ _)
  · exact hd

theorem Loses.rst {s t : State} (h : Loses s t) : t.rst = s.rst := (congrArg State.rst h.frame :)

theorem State.boot_rst (s : State) (flash : Nat) : (s.boot flash).rst = s.rst := by
  rw [State.boot_frame]

theorem Loses.mgmt {s t : State} (h : Loses s t) : t.mgmt = s.mgmt := (congrArg State.mgmt h.frame :)

theorem State.bootedFor_rst (s : State) (kind trigger : Nat) : (s.bootedFor kind trigger).rst = s.rst := by
  unfold State.bootedFor
  split
  · rw [State.boot_rst, s.found_loses.rst]
  · exact s.found_loses.rst

theorem State.blocksDone_rst (s : State) (kind trigger : Nat) :
    (s.blocksDone kind trigger).rst = s.rst.after kind trigger s.lostCounts := by
  have hr : (s.bootedFor kind trigger).resetBlocks.rst = s.rst := by
    rw [(State.resetBlocks_spec _).kept.2.2, (State.settled_loses _).rst, State.bootedFor_rst]
  rw [State.blocksDone, hr]

theorem State.blocksDone_hold (s : State) (kind trigger : Nat) : (s.blocksDone kind trigger).res.hold = false :=
  (State.resetBlocks_spec (s.bootedFor kind trigger)).res.1

theorem State.tellState_rst (s o : State) : (s.tellState o).rst = s.rst := by
  rw [State.tellState_reported]; rfl

/-- A reset sets STATE, KIND, TRIGGER and COUNT, and ends the power-down and the configuration. -/
theorem State.restart_rst {s : State} (h : s.canReset = true) (kind trigger : Nat) (squall : List Nat) :
    (s.restart kind trigger squall).rst = s.rst.after kind trigger s.lostCounts := by
  rw [State.restart_eq h, State.tellState_rst, ← s.blocksDone_rst]
  split
  · exact (State.resetDone_spec _ _ (s.blocksDone_hold kind trigger)).rst
  · rfl

/-! ### A reset that activates no firmware -/

/-- What a reset that activates no firmware leaves of every block but the reset block. -/
structure ResetTo (s t : State) : Prop where
  ready : t.tree.ready = true
  held : t.res.hold = true ∧ t.res.cause = 2 ∧ t.res.copy = none
  rings : t.host.slots = [] ∧ t.host.sq = State.reset.host.sq ∧ t.host.cq = State.reset.host.cq
  gone : t.coll = s.coll.discarded ∧ t.tf = State.reset.tf ∧ t.cores.fatal = false
  zero : t.obs.live = [] ∧ t.obs.latched = []
  stays : t.time = s.time ∧ t.pwr = s.pwr ∧ t.mgmt.mgmtCap = s.mgmt.mgmtCap
  mv : ∀ d, (t.domain d).mv = (s.domain d).mv
  mem : s.res.copy = none → s.mem.buffered = [] → (∀ k < 8, (s.stack k).inTest = false) →
    t.mem = { s.mem with ueLive := [], slicePass := [] }
  buffered : t.mem.buffered = []
  captures : t.regs.captures = []
  regs : ∀ o i, i < 65536 → t.regs.get o i =
    if regKept o = true then ⟨(s.regs.get o i).eff, (s.regs.get o i).eff⟩ else State.reset.regs.get o i

/-- What such a reset leaves before enumeration, in terms of the state it finds. -/
structure BlocksDone (s x : State) : Prop where
  res : x.res.hold = false ∧ x.res.copy = none
  host : x.host = HostState.reset
  gone : x.coll = s.coll.discarded ∧ x.tf = State.reset.tf ∧ x.cores.fatal = false
  stays : x.time = s.time ∧ x.pwr = s.pwr
  mgmt : x.mgmt = { s.mgmt with mnode := 0 }
  mem : s.res.copy = none → s.mem.buffered = [] → (∀ k < 8, (s.stack k).inTest = false) →
    x.mem = { s.mem with ueLive := [], slicePass := [] }
  buffered : x.mem.buffered = []
  captures : x.regs.captures = []
  regs : ∀ o i, i < 65536 → x.regs.get o i =
    if regKept o = true then ⟨(s.regs.get o i).eff, (s.regs.get o i).eff⟩ else State.reset.regs.get o i

theorem State.found_mem_stk {s : State} (h : s.mem.buffered = []) : s.found.mem = s.mem ∧ s.found.stk = s.stk := by
  unfold State.found
  rw [State.discardBuffers_empty h]
  split <;> exact ⟨rfl, rfl⟩

theorem State.found_buffered (s : State) : s.found.mem.buffered = [] := by
  have hd := s.discardBuffers_spec.2.1
  unfold State.found
  generalize s.discardBuffers.2 = a at *
  split <;> exact hd

theorem State.blocksDone_spec {s : State} {kind trigger : Nat} (ha : s.activates kind trigger = false) :
    BlocksDone s (s.blocksDone kind trigger) := by
  have hb := State.resetBlocks_spec (s.bootedFor kind trigger)
  have hf : s.bootedFor kind trigger = s.found := by rw [State.bootedFor, ha, if_neg Bool.false_ne_true]
  have hl : Loses s s.found.settled := s.found_loses.trans s.found.settled_loses
  have hbuf : s.found.settled.mem.buffered = [] := s.found.settled_loses.buffered s.found_buffered
  have hcopy := s.found_loses.copy
  have hmem := fun h => State.found_mem_stk (s := s) h
  have hset := State.settled_mem (s := s.found)
  rw [hf] at hb
  unfold State.blocksDone
  rw [hf]
  generalize s.found.resetBlocks = x at *
  generalize s.found.settled = y at *
  generalize s.found = a at *
  have hreg := hl.regs
  have hcoll : y.coll = s.coll := (congrArg State.coll hl.frame :)
  have htime : y.time = s.time := (congrArg State.time hl.frame :)
  have hpwr : y.pwr = s.pwr := (congrArg State.pwr hl.frame :)
  refine ⟨hb.res, hb.host, ⟨?_, hb.tf, hb.fatal⟩, ⟨?_, ?_⟩, ?_, fun hc hm ht => ?_, ?_, ?_, fun o i hi => ?_⟩
  · exact hb.coll.trans (by rw [hcoll])
  · exact hb.kept.1.trans htime
  · exact hb.kept.2.1.trans hpwr
  · exact hb.mgmt.trans (by rw [hl.mgmt])
  · obtain ⟨hm', hs'⟩ := hmem hm
    refine hb.mem.trans ?_
    rw [hset (hcopy.trans hc) (fun k hk => by rw [State.stack, hs']; exact ht k hk), hm']
  · show x.mem.buffered = []
    rw [hb.mem]; exact hbuf
  · show x.regs.captures = []
    rw [hb.regs]; rfl
  · show x.regs.get o i = _
    rw [hb.regs, RegFile.get_resetAll _ _ _ hi]
    by_cases hk : regKept o = true
    · have ho : o ∉ flipRegs := fun h => Bool.false_ne_true ((flipRegs_not_kept o h).symm.trans hk)
      rw [if_pos hk, if_pos hk, hreg.2 o i ho hi]
    · rw [if_neg hk, if_neg hk]; rfl

theorem ResetDone.resetTo {s x t : State} (h : ResetDone x t) (hx : BlocksDone s x) : ResetTo s t := by
  have hmem : t.mem = x.mem := (congrArg State.mem h.frame :)
  have hregs : t.regs = x.regs := (congrArg State.regs h.frame :)
  have hcoll : t.coll = x.coll := (congrArg State.coll h.frame :)
  have htf : t.tf = x.tf := (congrArg State.tf h.frame :)
  have hcores : t.cores = x.cores := (congrArg State.cores h.frame :)
  have htime : t.time = x.time := (congrArg State.time h.frame :)
  have hpwr : t.pwr = x.pwr := (congrArg State.pwr h.frame :)
  have hcap : t.mgmt.mgmtCap = x.mgmt.mgmtCap := (congrArg (fun y : State => y.mgmt.mgmtCap) h.frame :)
  have hrings : (t.host.slots, t.host.sq, t.host.cq) = (x.host.slots, x.host.sq, x.host.cq) :=
    (congrArg (fun y : State => (y.host.slots, y.host.sq, y.host.cq)) h.frame :)
  have hres : (t.res.hold, t.res.cause, t.res.copy) = (true, 2, x.res.copy) :=
    (congrArg (fun y : State => (y.res.hold, y.res.cause, y.res.copy)) h.frame :)
  rw [hx.host] at hrings
  rw [hx.res.2] at hres
  simp only [Prod.mk.injEq] at hrings hres
  refine ⟨h.ready, hres, hrings, ⟨hcoll.trans hx.gone.1, htf.trans hx.gone.2.1, hcores ▸ hx.gone.2.2⟩, h.zero,
    ⟨htime.trans hx.stays.1, hpwr.trans hx.stays.2, hcap.trans (by rw [hx.mgmt])⟩, fun d => ?_,
    fun hc hb hk => hmem.trans (hx.mem hc hb hk), hmem ▸ hx.buffered, hregs ▸ hx.captures, hregs ▸ hx.regs⟩
  refine (congrFun h.mvs d).trans ?_
  rw [State.mvs, State.domain, hx.mgmt]; rfl

theorem State.restart_resetTo {s : State} {kind trigger : Nat} (hr : s.canReset = true) (hb : s.mgmt.bootFail = 0)
    (ha : s.activates kind trigger = false) (squall : List Nat) : ResetTo s (s.restart kind trigger squall) := by
  have hx := State.blocksDone_spec ha
  have hfail : (s.blocksDone kind trigger).mgmt.bootFail = 0 := by rw [hx.mgmt]; exact hb
  rw [State.restart_eq hr, if_pos hfail]
  have hd := State.resetDone_spec squall (s.activates kind trigger) (s.blocksDone_hold kind trigger)
  generalize s.blocksDone kind trigger = x at *
  generalize x.resetDone squall (s.activates kind trigger) = d at *
  refine ResetDone.resetTo (x := x) ?_ hx
  have htell := State.tellState_reported d s.found
  have hobs : (d.tellState s.found).obs = d.obs := by
    unfold State.tellState
    split
    · rfl
    · exact d.platform_obs _ _
  refine ⟨?_, (congrArg State.mvs htell :).trans hd.mvs, (congrArg (fun y : State => y.tree.ready) htell :).trans hd.ready,
    hobs ▸ hd.zero⟩
  rw [htell, hd.frame]; rfl

theorem State.activates_of_not {s : State} {kind trigger : Nat}
    (h : kind = 3 ∨ trigger ≠ 4 ∧ s.mgmt.activate = false) : s.activates kind trigger = false := by
  have hact : s.discardBuffers.2.mgmt = s.mgmt := s.discardBuffers_spec.2.2.mgmt
  rcases h with rfl | ⟨h4, h⟩
  · rfl
  · rw [State.activates, hact, h]
    simp [h4]

theorem State.lostCounts_buffers (s : State) : ∃ n ≤ s.mem.buffered.length, s.lostCounts[2]? = some n := by
  refine ⟨s.discardBuffers.1, s.discardBuffers_spec.1, ?_⟩
  unfold State.lostCounts
  generalize s.discardBuffers = p
  rfl

/-! ### The statement -/

theorem execWarmReset_eq (s : State) {n : Nat} (hn : n ∈ [1, 2, 4]) (failed : List Nat) :
    exec (.warmReset n failed) s = .next (s.restart 2 n failed) := by
  simp only [List.mem_cons, List.not_mem_nil, or_false] at hn
  rcases hn with rfl | rfl | rfl <;> rfl

theorem execWarmReset_other (s : State) {n : Nat} (hn : n ∉ [1, 2, 4]) (failed : List Nat) :
    exec (.warmReset n failed) s = .next s := by
  refine congrArg Host.Outcome.next (if_neg ?_)
  simpa [or_assoc] using hn

theorem execFunctionLevelReset_eq (s : State) (failed : List Nat) :
    exec (.functionLevelReset failed) s = .next (s.restart 3 5 failed) := rfl

theorem execMainPowerOn_eq {s : State} (h : s.rst.vaux = true) (flash : Nat) (failed : List Nat) (training : List (Option Nat)) :
    exec (.mainPowerOn flash failed training) s = .next (s.powerOn false flash failed training) :=
  congrArg Host.Outcome.next (if_pos h)

/-- The state that a VAUX power-on starts from: TEST_MODE sampled, and the debug interface as at reset. -/
def State.sampled (s : State) (high : Bool) : State :=
  { s with
    rst := { s.rst with testMode := high, boundary := 0 }
    cores := { s.cores with dmi := [], tapIr := 0x01 } }

theorem execVauxPowerOn_eq (s : State) (high : Bool) (flash : Nat) (failed : List Nat) (training : List (Option Nat)) :
    exec (.vauxPowerOn high flash failed training) s = .next ((s.sampled high).powerOn true flash failed training) := rfl

/-- A power-on of either kind runs the power-on sequence. -/
theorem exec_powerOn {s : State} {c : Instr} {flash : Nat} {failed : List Nat} {training : List (Option Nat)}
    (hc : c = Instr.mainPowerOn flash failed training ∧ s.rst.vaux = true ∨
      ∃ high, c = .vauxPowerOn high flash failed training) :
    ∃ (p : State) (vaux : Bool), exec c s = .next (p.powerOn vaux flash failed training) ∧
      ∀ high, c = .vauxPowerOn high flash failed training → p.rst.testMode = high := by
  rcases hc with ⟨rfl, hv⟩ | ⟨high, rfl⟩
  · exact ⟨s, false, execMainPowerOn_eq hv _ _ _, fun _ h => Instr.noConfusion h⟩
  · exact ⟨s.sampled high, true, execVauxPowerOn_eq s high _ _ _, fun _ h => (Instr.vauxPowerOn.inj h).1⟩

/-- Every command keeps the queue and what no command takes back. -/
theorem exec_kept {c : Instr} {s t : State} (h : exec c s = .next t) : t.pending = s.pending ∧ Kept s t := by
  obtain ⟨u, hu, hk⟩ := exec_keeps c s
  obtain rfl : u = t := Host.Outcome.next.inj (hu.symm.trans h)
  exact ⟨hk.pending, hk.kept⟩

/-- A reset that activates no firmware, in the words of the statement. -/
theorem exec_plainReset {s : State} {c : Instr} {failed : List Nat} {kind trigger : Nat}
    (hc : c = Instr.functionLevelReset failed ∧ kind = 3 ∧ trigger = 5 ∨
      c = .warmReset trigger failed ∧ kind = 2 ∧ trigger ∈ [1, 2] ∧ s.mgmt.activate = false) :
    exec c s = .next (s.restart kind trigger failed) ∧ s.activates kind trigger = false := by
  rcases hc with ⟨rfl, rfl, rfl⟩ | ⟨rfl, rfl, ht, ha⟩
  · exact ⟨execFunctionLevelReset_eq s failed, State.activates_of_not (.inl rfl)⟩
  · simp only [List.mem_cons, List.not_mem_nil, or_false] at ht
    exact ⟨execWarmReset_eq s (by simp only [List.mem_cons]; omega) failed, State.activates_of_not (.inr ⟨by omega, ha⟩)⟩

/-- Settles O56: a power-on ends where `powerOn_eq` says and changes what `exceptStart` erases; a reset is `restart_eq`, its reset block
`restart_rst`, and one that activates no firmware leaves what `restart_resetTo` says. -/
theorem powerOnsAndResets : Obligations.PowerOnsAndResets := by
  refine fun s => ⟨fun flash failed training => ⟨fun hv => ?noVaux, fun c hc => ?powerOn⟩, fun n failed h => ?noWarm,
    fun failed h => ?noFlr, fun failed h => ?activation, fun c failed kind trigger hr hb hc => ?plain⟩
  case noVaux => exact congrArg Host.Outcome.next (if_neg (by rw [hv]; exact Bool.false_ne_true))
  case powerOn =>
    obtain ⟨p, vaux, hrun, htest⟩ := exec_powerOn hc
    obtain ⟨hpend, hkept⟩ := exec_kept hrun
    have hframe := p.powerOn_frame vaux flash failed training
    have hto := p.powerOn_poweredTo vaux flash failed training
    generalize p.powerOn vaux flash failed training = t at *
    refine ⟨t, hrun, (congrArg (fun x : State => x.rst.vaux) hframe :), (congrArg (fun x : State => x.rst.pkgRun) hframe :),
      (congrArg (fun x : State => x.rst.state) hframe :), hpend, hkept, (congrArg State.time hframe :),
      (congrArg State.pwr hframe :), (congrArg State.coll hframe :), (congrArg (fun x : State => x.host.slots) hframe :),
      (congrArg (fun x : State => x.host.sq) hframe :), (congrArg (fun x : State => x.cores.fatal) hframe :),
      (congrArg (fun x : State => x.res.liveValid) hframe :), fun high h => ?_, hto.test, hto.run⟩
    exact (congrArg (fun x : State => x.rst.testMode) hframe :).trans (htest high h)
  case noWarm =>
    by_cases hn : n ∈ [1, 2, 4]
    · rw [execWarmReset_eq s hn, State.restart_ignored (h.resolve_right (not_not.mpr hn))]
    · exact execWarmReset_other s hn failed
  case noFlr => rw [execFunctionLevelReset_eq, State.restart_ignored h]
  case activation =>
    have hrun := execWarmReset_eq s (n := 4) (by decide) failed
    obtain ⟨hpend, hkept⟩ := exec_kept hrun
    have hrst := State.restart_rst h 2 4 failed
    generalize s.restart 2 4 failed = t at *
    exact ⟨t, hrun, by rw [hrst]; rfl, by rw [hrst]; rfl, by rw [hrst]; rfl, hpend, hkept⟩
  case plain =>
    obtain ⟨hrun, ha⟩ := exec_plainReset hc
    obtain ⟨hpend, hkept⟩ := exec_kept hrun
    have hrst := State.restart_rst hr kind trigger failed
    obtain ⟨n, hn, hdisc⟩ := s.lostCounts_buffers
    obtain ⟨hready, ⟨hhold, hcause, hcopy⟩, ⟨hslots, hsq, hcq⟩, ⟨hcoll, htf, hfatal⟩, ⟨hlive, hlatched⟩, ⟨htime, hpwr, hcap⟩,
      hmv, hmem, hbuf, hcap', hregs⟩ := State.restart_resetTo hr hb ha failed
    generalize s.restart kind trigger failed = t at *
    exact ⟨t, hrun, by rw [hrst]; rfl, by rw [hrst]; rfl, by rw [hrst]; rfl, by rw [hrst]; rfl, by rw [hrst]; rfl, hready, hhold,
      hcause, hcopy, hslots, hsq, hcq, hcoll, htf, hfatal, hlive, hlatched, htime, hpwr, hcap, hmv, hpend, hkept, hmem, hbuf,
      ⟨n, hn, by rw [hrst]; exact hdisc⟩, hcap', hregs⟩

end Sys2Proof.Machine
end

section
/-! PROOFS. Squall is one to one (R304): each round can be undone, so eight of them can. -/

namespace Sys2Proof.Machine

/-! ### The counter and the output as pairs of words -/

theorem wordAppend_inj {x y x' y' : Word64} (h : x ++ y = x' ++ y') : x = x' ∧ y = y' :=
  ⟨by simpa only [BitVec.extractLsb'_append_eq_left] using congrArg (BitVec.extractLsb' 64 64) h,
    by simpa only [BitVec.setWidth_append_eq_right] using congrArg (BitVec.setWidth 64) h⟩

/-- The pair (a, b) that R301 starts from determines the counter. -/
theorem counterHalves_injective :
    Function.Injective fun c : Word128 => (c.setWidth 64, (c >>> 64).setWidth 64) := by
  intro c d h
  obtain ⟨hlow, hhigh⟩ := Prod.mk.inj h
  bv_omega

/-! ### The rounds -/

/-- M is odd, so it has an inverse modulo 2^64 (R304). -/
theorem squallM_isUnit : IsUnit squallM :=
  .of_mul_eq_one (0x1feff00ffff0001) (by decide)

/-- The second word of the new pair is the product t, which gives the old a; then the first gives the old b (R304). -/
theorem squallRound_injective (k : Word64) (rc : Nat × Word64) :
    Function.Injective (squallRound k · rc) := by
  rintro ⟨a, b⟩ ⟨a', b'⟩ h
  obtain ⟨hnew, ht⟩ := Prod.mk.inj h
  obtain rfl : a = a' := (BitVec.xor_left_inj _).mp (squallM_isUnit.mul_right_cancel ht)
  obtain rfl : b = b' := (BitVec.xor_left_inj _).mp hnew
  rfl

theorem foldl_injective {α β : Type} {f : α → β → α} (hf : ∀ x, Function.Injective (f · x)) :
    ∀ l : List β, Function.Injective (l.foldl f)
  | [] => Function.injective_id
  | x :: l => (foldl_injective hf l).comp (hf x)

/-! ### The statement on Squall -/

theorem squall_injective (k : Word64) : Function.Injective (squall k) := by
  intro c d h
  obtain ⟨hb, ha⟩ := wordAppend_inj h
  have hpair := Prod.ext ((BitVec.xor_left_inj k).mp ha) hb
  exact counterHalves_injective (foldl_injective (squallRound_injective k) _ hpair)

/-- Settles O58: every round is one to one in the pair of words, and so are the eight together. -/
theorem squallIsOneToOne : Obligations.SquallIsOneToOne := by
  unfold Obligations.SquallIsOneToOne
  exact fun k _ _ => (squall_injective k).ne

end Sys2Proof.Machine
end

section
/-! PROOFS. Memory and its protection: the canonical form of memory, kept by every step and met at reset (R331, R358). -/

namespace Sys2Proof.Machine

theorem State.inv_iff (s : State) : s.Inv ↔ mwf 0 s.mem.cells = true ∧ mwf 0 s.mem.marks = true :=
  Bool.and_eq_true_iff

/-- What every operation keeps holds the invariant. -/
theorem Keeps.inv {s t : State} (h : Keeps s t) (hs : s.Inv) : t.Inv := by
  obtain ⟨hc, hm⟩ := s.inv_iff.mp hs
  exact t.inv_iff.mpr ⟨h.cells hc, h.marks hm⟩

/-- Settles O3: the command at the front keeps memory canonical (`exec_keeps`), and so does a beat (`State.tick_keeps`). -/
theorem stepKeepsMemoryCanonical : Obligations.StepKeepsMemoryCanonical := by
  intro s t hs ht
  unfold step at ht
  split at ht
  case h_1 c rest _ =>
    obtain ⟨u, hu, hk⟩ := exec_keeps c { s with pending := rest }
    obtain rfl : u = t := Host.Outcome.next.inj (hu.symm.trans ht)
    exact hk.inv hs
  case h_2 =>
    obtain rfl : s.tick = t := Host.Outcome.next.inj ht
    exact (State.tick_keeps s (Keeps.refl s)).inv hs

/-- Settles O4: nothing is listed at reset. -/
theorem resetMemoryCanonical : Obligations.ResetMemoryCanonical :=
  ⟨rfl, fun _ => ⟨rfl, rfl⟩⟩

end Sys2Proof.Machine
end

section
/-! PROOFS. The check codes (R326 to R331): a flipped data bit shows as its position, a flipped check bit as no data bit's, and two
flips leave a difference of even parity that is not zero. -/

namespace Sys2Proof.Machine

/-! ### Parity -/

theorem parity_succ (n x : Nat) : parity (n + 1) x = (parity n x != x.testBit n) := by
  unfold parity popcount
  rw [List.range_succ, List.filter_append, List.length_append]
  generalize ((List.range n).filter fun i => x.testBit i).length = m
  cases hb : x.testBit n
  · simp [hb]
  · simp only [List.filter_cons, hb, if_true, List.filter_nil, List.length_singleton]
    rcases Nat.mod_two_eq_zero_or_one m with h | h <;> simp [h, Nat.add_mod]

theorem parity_xor (n x y : Nat) : parity n (x ^^^ y) = (parity n x != parity n y) := by
  induction n with
  | zero => rfl
  | succ n ih =>
    simp only [parity_succ, ih, Nat.testBit_xor]
    cases parity n x <;> cases parity n y <;> cases x.testBit n <;> cases y.testBit n <;> rfl

theorem parity_two_pow (n i : Nat) : parity n (2 ^ i) = decide (i < n) := by
  induction n with
  | zero => rfl
  | succ n ih =>
    rw [parity_succ, ih, Nat.testBit_two_pow]
    rcases lt_trichotomy i n with h | rfl | h
    · simp [h, h.ne, Nat.lt_succ_of_lt h]
    · simp
    · simp [h.not_gt, h.ne', Nat.not_lt.mpr h]

theorem parity_add_top {r p : Nat} (hp : p < 2 ^ r) (b : Bool) : parity (r + 1) (p + 2 ^ r * b2n b) = (parity r p != b) := by
  have hbit : ∀ j, (p + 2 ^ r * b2n b).testBit j = if j < r then p.testBit j else (b2n b).testBit (j - r) := fun j => by
    rw [Nat.add_comm, Nat.testBit_two_pow_mul_add _ hp]
  have hlow : parity r (p + 2 ^ r * b2n b) = parity r p := by
    have : ∀ n ≤ r, parity n (p + 2 ^ r * b2n b) = parity n p := by
      intro n hn
      induction n with
      | zero => rfl
      | succ n ih => rw [parity_succ, parity_succ, ih (by omega), hbit, if_pos (by omega)]
    exact this r le_rfl
  rw [parity_succ, hlow, hbit, if_neg (lt_irrefl r), Nat.sub_self]
  cases b <;> rfl

/-! ### Positions -/

/-- The positions of a code that are those of data bits, ascending: the ones that are no power of two (R326). -/
def dataPlaces (k r : Nat) : List Nat := (List.range (k + r + 1)).filter (fun p => p ≠ 0 && p ≠ 2 ^ p.log2)

theorem mem_dataPlaces {k r p : Nat} (h : p ∈ dataPlaces k r) : p ≤ k + r ∧ p ≠ 0 ∧ p ≠ 2 ^ p.log2 := by
  simp only [dataPlaces, List.mem_filter, List.mem_range, Bool.and_eq_true, decide_eq_true_eq] at h
  exact ⟨by omega, h.2⟩

/-- The xor of the positions whose data bits are set, where one alone is. -/
theorem foldl_xor_single (i : Nat) : ∀ (ps : List Nat) (m n acc : Nat), ps.length ≤ n →
    (ps.zip (List.range' m n)).foldl (fun acc pj => if (2 ^ i).testBit pj.2 then acc ^^^ pj.1 else acc) acc =
      if m ≤ i then acc ^^^ ps.getD (i - m) 0 else acc
  | [], _, _, _, _ => by simp
  | p :: ps, m, 0, _, hn => by simp at hn
  | p :: ps, m, n + 1, acc, hn => by
    rw [List.range'_succ, List.zip_cons_cons, List.foldl_cons, foldl_xor_single i ps _ n _ (by simpa using hn),
      Nat.testBit_two_pow]
    rcases lt_trichotomy i m with h | rfl | h
    · rw [if_neg (by omega), if_neg (by simp; omega), if_neg (by omega)]
    · rw [if_neg (by omega), if_pos (by simp), if_pos le_rfl, Nat.sub_self, List.getD_cons_zero]
    · rw [if_pos (by omega), if_neg (by simp; omega), if_pos (by omega), show i - m = i - (m + 1) + 1 by omega,
        List.getD_cons_succ]

/-- The code of one data bit: its position, with the overall bit that makes the whole of odd parity (R326). -/
theorem hamming_two_pow {k r i : Nat} (hl : (dataPlaces k r).length ≤ k) (hi : i < k) :
    hamming k r (2 ^ i) = (dataPlaces k r).getD i 0 + 2 ^ r * b2n (!parity r ((dataPlaces k r).getD i 0)) := by
  have hc : ((dataPlaces k r).zip (List.range k)).foldl
      (fun acc pj => if (2 ^ i).testBit pj.2 then acc ^^^ pj.1 else acc) 0 = (dataPlaces k r).getD i 0 := by
    rw [List.range_eq_range', foldl_xor_single i _ 0 k 0 hl, if_pos (Nat.zero_le i), Nat.zero_xor, Nat.sub_zero]
  unfold hamming
  extract_lets ps c
  rw [show c = (dataPlaces k r).getD i 0 from hc, parity_two_pow, decide_eq_true hi, Bool.true_bne]

/-! ### Flips of one stored bit -/

/-- The shape of a code: its data bits stand at its positions in order, and its Hamming bits reach them all (R326, R327). -/
def CodeFits (k r : Nat) : Prop := (dataPlaces k r).map posData = List.range k ∧ 2 ^ (r - 1) ≤ k + r ∧ k + r < 2 ^ r

/-- The codes of the protected units (Tables 10.2, 11.2 and R330). -/
theorem codes_fit : ∀ kr ∈ [(128, 8), (256, 9), (98, 7), (7, 4)], CodeFits kr.1 kr.2 := by
  unfold CodeFits; decide +kernel

/-- Where a flip of stored bit i shows: at a position of data, at that of a Hamming bit, or at none, which is the overall bit. -/
def flipPlace (k r i : Nat) : Nat :=
  if i < k then (dataPlaces k r).getD i 0 else if i < k + r then 2 ^ (i - k) else 0

/-- The difference of the check bits that a flip of stored bit i makes. -/
def flipDifference (k r i : Nat) : Nat := if i < k then hamming k r (2 ^ i) else 2 ^ (i - k)

theorem flipPlace_check {k r i : Nat} (hi : k ≤ i) : flipPlace k r i = 0 ∨ flipPlace k r i = 2 ^ (flipPlace k r i).log2 := by
  rw [flipPlace, if_neg (by omega)]
  split
  · rw [Nat.log2_two_pow]; exact .inr rfl
  · exact .inl rfl

section
variable {k r : Nat} (hf : CodeFits k r)
include hf

theorem CodeFits.length : (dataPlaces k r).length = k := by
  have := congrArg List.length hf.1
  rwa [List.length_map, List.length_range] at this

theorem CodeFits.posData_place {i : Nat} (hi : i < k) : posData (flipPlace k r i) = i := by
  have hl : i < (dataPlaces k r).length := by rwa [hf.length]
  have := List.getElem_of_eq hf.1 (i := i) (by simpa using hl)
  rw [List.getElem_map, List.getElem_range] at this
  rwa [flipPlace, if_pos hi, List.getD_eq_getElem _ _ hl]

theorem CodeFits.place_mem {i : Nat} (hi : i < k) : flipPlace k r i ∈ dataPlaces k r := by
  have hl : i < (dataPlaces k r).length := by rwa [hf.length]
  rw [flipPlace, if_pos hi, List.getD_eq_getElem _ _ hl]
  exact List.getElem_mem hl

theorem CodeFits.place_le (i : Nat) : flipPlace k r i ≤ k + r := by
  by_cases hi : i < k
  · exact (mem_dataPlaces (hf.place_mem hi)).1
  · rw [flipPlace, if_neg hi]
    split
    · exact (Nat.pow_le_pow_right (by decide) (by omega)).trans hf.2.1
    · exact Nat.zero_le _

/-- Two stored bits never show at the same place. -/
theorem CodeFits.place_inj {i j : Nat} (hi : i < k + r + 1) (hj : j < k + r + 1) (h : flipPlace k r i = flipPlace k r j) : i = j := by
  have hne : ∀ a b, a < k → k ≤ b → flipPlace k r a ≠ flipPlace k r b := fun a b ha hb e => by
    obtain ⟨-, h0, h2⟩ := mem_dataPlaces (hf.place_mem ha)
    rw [e] at h0 h2
    exact (flipPlace_check hb).elim h0 h2
  rcases Nat.lt_or_ge i k with ci | ci <;> rcases Nat.lt_or_ge j k with cj | cj
  · rw [← hf.posData_place ci, h, hf.posData_place cj]
  · exact absurd h (hne i j ci cj)
  · exact absurd h.symm (hne j i cj ci)
  · simp only [flipPlace, if_neg (Nat.not_lt.mpr ci), if_neg (Nat.not_lt.mpr cj)] at h
    split at h <;> split at h
    · have := Nat.pow_right_injective le_rfl h
      omega
    · exact absurd h (by positivity)
    · exact absurd h.symm (by positivity)
    · omega

/-- A flip of one stored bit makes a difference of odd parity whose low bits are its place. -/
theorem CodeFits.flip {i : Nat} (hi : i < k + r + 1) :
    flipDifference k r i % 2 ^ r = flipPlace k r i ∧ parity (r + 1) (flipDifference k r i) = true := by
  have hlt := (hf.place_le i).trans_lt hf.2.2
  by_cases ci : i < k
  · rw [flipPlace, if_pos ci] at hlt ⊢
    rw [flipDifference, if_pos ci, hamming_two_pow hf.length.le ci, Nat.add_mul_mod_self_left, Nat.mod_eq_of_lt hlt,
      parity_add_top hlt]
    exact ⟨rfl, Bool.bne_not_self _⟩
  · rw [flipDifference, if_neg ci, parity_two_pow, decide_eq_true (by omega), flipPlace, if_neg ci]
    refine ⟨?_, rfl⟩
    split
    · exact Nat.mod_eq_of_lt (Nat.pow_lt_pow_right (by decide) (by omega))
    · rw [show i - k = r by omega, Nat.mod_self]

end

/-! ### Classes (R328, R331) -/

theorem classify_odd {k r m : Nat} (hp : parity (r + 1) m = true) (hm : m % 2 ^ r ≤ k + r) :
    classify k r m = .correctable (m % 2 ^ r) := by
  unfold classify
  extract_lets syn par
  rw [show par = true from hp]
  by_cases h : syn = 0
  · rw [if_pos h, if_pos rfl, show m % 2 ^ r = 0 from h]
  · rw [if_neg h, if_pos rfl, if_pos hm]

theorem classify_even {k r m : Nat} (hp : parity (r + 1) m = false) (hm : m % 2 ^ r ≠ 0) :
    classify k r m = .uncorrectable ∨ classify k r m = .poisoned := by
  unfold classify
  extract_lets syn par
  rw [show par = false from hp, if_neg (show syn ≠ 0 from hm), if_neg Bool.false_ne_true]
  split
  · exact .inr rfl
  · exact .inl rfl

/-- A unit as it was written is clean, and one with the poison mark is poisoned (R328, R329). -/
theorem classify_clean_poisoned : ∀ kr ∈ [(128, 8), (256, 9), (98, 7), (7, 4)],
    classify kr.1 kr.2 0 = .clean ∧ classify kr.1 kr.2 (poisonMask kr.2) = .poisoned := by decide +kernel

/-- Settles O59: one flip leaves odd parity and its own place; two leave even parity, and the places of two bits differ. -/
theorem codesCorrectOneAndSeeTwo : Obligations.CodesCorrectOneAndSeeTwo := by
  intro kr hkr flipped hflipped
  have hf := codes_fit kr hkr
  obtain rfl : flipped = flipDifference kr.1 kr.2 := funext hflipped
  refine ⟨(classify_clean_poisoned kr hkr).1, (classify_clean_poisoned kr hkr).2, fun i hi => ⟨?one, fun j hj hne => ?two⟩⟩
  case one =>
    obtain ⟨hsyn, hpar⟩ := hf.flip hi
    refine ⟨flipPlace kr.1 kr.2 i, hsyn ▸ classify_odd hpar (hsyn ▸ hf.place_le i), fun hdata => ?_, flipPlace_check⟩
    exact ⟨hf.posData_place hdata, (mem_dataPlaces (hf.place_mem hdata)).2⟩
  case two =>
    obtain ⟨hsyn, hpar⟩ := hf.flip hi
    obtain ⟨hsyn', hpar'⟩ := hf.flip hj
    refine classify_even (by rw [parity_xor, hpar, hpar']; rfl) ?_
    rw [Nat.xor_mod_two_pow, hsyn, hsyn', Nat.xor_ne_zero_iff]
    exact fun h => hne (hf.place_inj hj hi h.symm)

end Sys2Proof.Machine
end

section
/-! PROOFS. Reads and writes of tier memory: what each unit's access does, and what a whole access does (R331 to R338). -/

namespace Sys2Proof.Machine

/-! ### Bytes and check bits -/

theorem slice_getD (bs : List Byte) (off : Nat) {n i : Nat} (hi : i < n) :
    ((slice bs off n)[i]?).getD 0 = (bs[off + i]?).getD 0 := by
  simp only [slice, List.getElem?_append, List.getElem?_take, List.getElem?_drop, List.getElem?_replicate, List.length_take,
    List.length_drop]
  split
  · rfl
  · rw [List.getElem?_eq_none (show bs.length ≤ off + i by omega)]
    split <;> rfl

theorem State.rawBytes_length (s : State) (a n : Nat) : (s.rawBytes a n).length = n := by
  simp [State.rawBytes, rangeFrom]

theorem State.rawBytes_getElem? (s : State) (a n i : Nat) :
    (s.rawBytes a n)[i]? = if i < n then some (s.byte (a + i)) else none := by
  simp only [State.rawBytes, rangeFrom, List.getElem?_map]
  split <;> simp [*]

theorem mget_storeBytes (a x : Nat) : ∀ (bs : List Byte) (m : Nat) (cells : List Host.Cell),
    mget 0 ((bs.zip (List.range' m bs.length)).foldl (fun c bi => mput 0 c (a + bi.2) bi.1) cells) x =
      if a + m ≤ x ∧ x < a + m + bs.length then (bs[x - (a + m)]?).getD 0 else mget 0 cells x
  | [], m, cells => by rw [if_neg (by simp)]; rfl
  | b :: bs, m, cells => by
    rw [List.length_cons, List.range'_succ, List.zip_cons_cons, List.foldl_cons, mget_storeBytes a x bs (m + 1), mget_mput]
    rcases lt_trichotomy x (a + m) with h | rfl | h
    · rw [if_neg (by omega), if_neg (by omega), if_neg (by omega)]
    · rw [if_neg (by omega), if_pos rfl, if_pos (by omega), Nat.sub_self]; rfl
    · rw [if_neg (show x ≠ a + m by omega)]
      congr 1
      · exact propext ⟨fun _ => by omega, fun _ => by omega⟩
      · rw [show x - (a + m) = x - (a + (m + 1)) + 1 by omega, List.getElem?_cons_succ]

theorem State.byte_rawStore (s : State) (a : Nat) (bs : List Byte) (x : Nat) :
    (s.rawStore a bs).byte x = if a ≤ x ∧ x < a + bs.length then (bs[x - a]?).getD 0 else s.byte x := by
  rw [State.byte, State.rawStore, List.range_eq_range']
  exact mget_storeBytes a x bs 0 s.mem.cells

theorem State.mark_setMark (s : State) (base m x : Nat) :
    mget 0 (s.setMark base m).mem.marks x = if x = base then m else mget 0 s.mem.marks x := mget_mput ..

/-! ### The units of a range of tier memory (R321) -/

/-- The address x lies in one of some pieces of units. -/
def inPieces (us : List (Nat × Nat × Nat)) (x : Nat) : Prop :=
  ∃ u ∈ us, u.1 + u.2.1 ≤ x ∧ x < u.1 + u.2.1 + u.2.2

theorem inPieces_nil (x : Nat) : ¬ inPieces [] x := fun ⟨_, h, _⟩ => absurd h List.not_mem_nil

theorem inPieces_cons (u : Nat × Nat × Nat) (us : List (Nat × Nat × Nat)) (x : Nat) :
    inPieces (u :: us) x ↔ (u.1 + u.2.1 ≤ x ∧ x < u.1 + u.2.1 + u.2.2) ∨ inPieces us x := by
  simp only [inPieces, List.exists_mem_cons_iff]

/-- One cut of a range that is not empty and lies in tier memory. -/
theorem cutUnits_succ {fuel a n : Nat} (hn : n ≠ 0) (h : a + n ≤ tierEnd) :
    cutUnits (fuel + 1) a n = (a - a % 16, a % 16, min n (16 - a % 16)) ::
      cutUnits fuel (a + min n (16 - a % 16)) (n - min n (16 - a % 16)) := by
  have hs : unitSize a = 16 := if_pos (by omega)
  have hm := Nat.mod_le a 16
  rw [cutUnits, if_neg hn]
  simp only [unitBase, hs]
  rw [show a - (a - a % 16) = a % 16 by omega, show a - a % 16 + 16 - a = 16 - a % 16 by omega]

theorem mem_cutUnits {u : Nat × Nat × Nat} : ∀ {fuel a n : Nat}, a + n ≤ tierEnd → u ∈ cutUnits fuel a n →
    u.1 < tierEnd ∧ a ≤ u.1 + u.2.1 ∧ a - a % 16 ≤ u.1 ∧ u.1 < a + n
  | 0, _, _, _, h => absurd h List.not_mem_nil
  | fuel + 1, a, n, ht, h => by
    by_cases hn : n = 0
    · rw [cutUnits, if_pos hn] at h; exact absurd h List.not_mem_nil
    · rw [cutUnits_succ hn ht] at h
      rcases List.mem_cons.mp h with rfl | h
      · simp only; omega
      · obtain ⟨h1, h2, h3, h4⟩ := mem_cutUnits (by omega) h
        omega

/-- The pieces of a range are the range. -/
theorem inPieces_cutUnits (x : Nat) : ∀ {fuel a n : Nat}, a + n ≤ tierEnd → n = 0 ∨ n + a % 16 ≤ 16 * fuel →
    (inPieces (cutUnits fuel a n) x ↔ a ≤ x ∧ x < a + n)
  | 0, a, n, _, hf => by
    rw [cutUnits]; exact iff_of_false (inPieces_nil x) (by omega)
  | fuel + 1, a, n, ht, hf => by
    by_cases hn : n = 0
    · rw [cutUnits, if_pos hn]; exact iff_of_false (inPieces_nil x) (by omega)
    · rw [cutUnits_succ hn ht, inPieces_cons, inPieces_cutUnits x (by omega) (by omega)]
      simp only; omega

theorem inPieces_unitsOf {a n : Nat} (h : a + n ≤ tierEnd) (x : Nat) : inPieces (unitsOf a n) x ↔ a ≤ x ∧ x < a + n :=
  inPieces_cutUnits x h (by omega)

theorem mem_unitsOf {a n : Nat} (h : a + n ≤ tierEnd) {u : Nat × Nat × Nat} (hu : u ∈ unitsOf a n) :
    u.1 < tierEnd ∧ a ≤ u.1 + u.2.1 ∧ a - a % 16 ≤ u.1 ∧ u.1 < a + n := mem_cutUnits h hu

/-- A range of whole granules is cut into whole granules. -/
theorem cutUnits_whole : ∀ {m fuel a : Nat}, a + 16 * m ≤ tierEnd → a % 16 = 0 → m < fuel →
    cutUnits fuel a (16 * m) = (List.range m).map (fun i => (a + 16 * i, 0, 16))
  | 0, fuel + 1, a, _, _, _ => by rw [cutUnits, if_pos (by omega)]; rfl
  | m + 1, fuel + 1, a, ht, ha, hf => by
    rw [cutUnits_succ (by omega) ht, ha, show min (16 * (m + 1)) (16 - 0) = 16 by omega,
      show 16 * (m + 1) - 16 = 16 * m by omega, cutUnits_whole (by omega) (by omega) (by omega), List.range_succ_eq_map,
      List.map_cons, List.map_map]
    refine congrArg (_ :: ·) (List.map_congr_left fun i _ => ?_)
    rw [Function.comp_apply, Nat.succ_eq_add_one, Nat.mul_add, Nat.add_assoc, Nat.add_comm 16]

theorem unitsOf_whole {a n : Nat} (h : a + n ≤ tierEnd) (ha : a % 16 = 0) (hn : n % 16 = 0) :
    unitsOf a n = (List.range (n / 16)).map (fun i => (a + 16 * i, 0, 16)) := by
  have e : 16 * (n / 16) = n := by omega
  rw [unitsOf, ← cutUnits_whole (fuel := n / 16 + 2) (by omega) ha (by omega), e]

/-! ### Writes of units (R333, R336, R338) -/

/-- A write to tier memory has no side effect: there is no seal to make invalid and no flip mask waits (R353, R654). -/
def State.noneArmed (s : State) : Prop :=
  s.res.liveValid = false ∧ ∀ d < 2, bit (s.regs.eff (regFlipCtl d) 0) 16 = false

theorem State.noneArmed.frame {s t : State} (hs : s.noneArmed) (h : t.exceptBytes = s.exceptBytes) : t.noneArmed := by
  have hres : t.res = s.res := (congrArg State.res h :)
  have hregs : t.regs = s.regs := (congrArg State.regs h :)
  unfold State.noneArmed
  rwa [hres, hregs]

theorem State.touch_noneArmed {s : State} (hs : s.noneArmed) (a n : Nat) : s.touch a n = s := by
  rw [State.touch, hs.1, if_neg Bool.false_ne_true]

theorem State.drainSector_tier (s : State) {base : Nat} (hb : base < tierEnd) : s.drainSector base = s := by
  refine if_neg ?_
  have : ¬ stackBase ≤ base := Nat.not_le.mpr (hb.trans (by decide))
  simp [inStack, this]

theorem State.applyFlips_noneArmed {s : State} (hs : s.noneArmed) {base : Nat} (hb : base < tierEnd) : s.applyFlips base = s := by
  have hflip : ∀ d < 2, s.flipFor d base = none := fun d hd => by
    simp [State.flipFor, hs.2 d hd]
  rw [State.applyFlips, if_pos hb]
  simp only [List.foldl_cons, List.foldl_nil, hflip 0 (by decide), hflip 1 (by decide)]

theorem State.parts_tier (s : State) {base : Nat} (hb : base < tierEnd) :
    s.parts base = [⟨0, 128, 8, mget 0 s.mem.marks base, 0⟩] := if_pos hb

theorem State.poisonMark_tier (s : State) {base : Nat} (hb : base < tierEnd) : s.poisonMark base = 255 := by
  rw [State.poisonMark, s.parts_tier hb]; simp [poisonMask]

theorem State.poisonCleared_exceptBytes (s : State) (base : Nat) : (s.poisonCleared base).exceptBytes = s.exceptBytes := by
  simp only [State.poisonCleared, State.count_exceptBytes, State.modLogs_exceptBytes]

theorem State.poisonCleared_bytes (s : State) (base : Nat) :
    (s.poisonCleared base).mem.cells = s.mem.cells ∧ (s.poisonCleared base).mem.marks = s.mem.marks := by
  rw [State.poisonCleared, State.count_mem]; exact ⟨rfl, rfl⟩

/-- From s to t the pieces us have taken the bytes of bs, which starts at a, the check bits of their units the difference m, and only
logs and reports have changed besides. -/
structure Puts (a : Nat) (bs : List Byte) (m : Nat) (us : List (Nat × Nat × Nat)) (s t : State) : Prop where
  bytes : ∀ x, (inPieces us x → t.byte x = (bs[x - a]?).getD 0) ∧ (¬ inPieces us x → t.byte x = s.byte x)
  marks : ∀ x, (x ∈ us.map Prod.fst → mget 0 t.mem.marks x = m) ∧
    (x ∉ us.map Prod.fst → mget 0 t.mem.marks x = mget 0 s.mem.marks x)
  frame : t.exceptBytes = s.exceptBytes

theorem Puts.nil (a : Nat) (bs : List Byte) (m : Nat) (s : State) : Puts a bs m [] s s :=
  ⟨fun x => ⟨fun h => absurd h (inPieces_nil x), fun _ => rfl⟩, fun _ => ⟨fun h => absurd h List.not_mem_nil, fun _ => rfl⟩, rfl⟩

theorem Puts.cons {a : Nat} {bs : List Byte} {m : Nat} {u : Nat × Nat × Nat} {us : List (Nat × Nat × Nat)} {s t v : State}
    (h : Puts a bs m [u] s t) (h' : Puts a bs m us t v) : Puts a bs m (u :: us) s v := by
  refine ⟨fun x => ?_, fun x => ?_, h'.frame.trans h.frame⟩
  · have e : inPieces (u :: us) x ↔ inPieces [u] x ∨ inPieces us x := by
      simp only [inPieces_cons, inPieces_nil, or_false]
    by_cases hx : inPieces us x
    · exact ⟨fun _ => (h'.bytes x).1 hx, fun hn => absurd (e.mpr (.inr hx)) hn⟩
    · rw [(h'.bytes x).2 hx]
      exact ⟨fun hu => (h.bytes x).1 ((e.mp hu).resolve_right hx), fun hn => (h.bytes x).2 fun hu => hn (e.mpr (.inl hu))⟩
  · by_cases hx : x ∈ us.map Prod.fst
    · exact ⟨fun _ => (h'.marks x).1 hx, fun hn => absurd (List.mem_cons_of_mem _ hx) hn⟩
    · rw [(h'.marks x).2 hx, List.map_cons, List.mem_cons]
      exact ⟨fun hu => (h.marks x).1 (List.mem_singleton.mpr (hu.resolve_right hx)),
        fun hn => (h.marks x).2 fun hu => hn (.inl (List.mem_singleton.mp hu))⟩

/-- Stored bytes and a mark, and then nothing but logs and reports, are one put. -/
theorem Puts.of_store {a : Nat} {bs : List Byte} {m : Nat} {u : Nat × Nat × Nat} {s t : State}
    (ha : a ≤ u.1 + u.2.1)
    (hc : t.mem.cells = (s.rawStore (u.1 + u.2.1) (slice bs (u.1 + u.2.1 - a) u.2.2)).mem.cells)
    (hm : t.mem.marks = mput 0 s.mem.marks u.1 m) (hf : t.exceptBytes = s.exceptBytes) : Puts a bs m [u] s t := by
  refine ⟨fun x => ?_, fun x => ?_, hf⟩
  · have e : t.byte x = _ := congrArg (mget 0 · x) hc
    rw [e.trans (State.byte_rawStore ..), inPieces_cons, slice_length]
    refine ⟨fun h => ?_, fun h => if_neg fun hu => h (.inl hu)⟩
    obtain ⟨h1, h2⟩ := h.resolve_right (inPieces_nil x)
    rw [if_pos ⟨h1, h2⟩, slice_getD _ _ (by omega), show u.1 + u.2.1 - a + (x - (u.1 + u.2.1)) = x - a by omega]
  · rw [hm, mget_mput, List.map_singleton, List.mem_singleton]
    exact ⟨fun h => if_pos h, fun h => if_neg h⟩

/-- A unit of tier memory stored with a whole write (R336, R338). -/
theorem State.putUnit_spec {s : State} (hs : s.noneArmed) {base : Nat} (hb : base < tierEnd) (bs : List Byte) (p : Bool) :
    (s.putUnit base bs p).mem.cells = (s.rawStore base bs).mem.cells ∧
    (s.putUnit base bs p).mem.marks = mput 0 s.mem.marks base (if p then 255 else 0) ∧
    (s.putUnit base bs p).exceptBytes = s.exceptBytes := by
  unfold State.putUnit
  extract_lets was s1 s2 s3
  have hm : (if p then s1.poisonMark base else 0) = if p then 255 else 0 := by rw [s1.poisonMark_tier hb]
  obtain ⟨hc, hk, hf⟩ : s3.mem.cells = s2.mem.cells ∧ s3.mem.marks = s2.mem.marks ∧ s3.exceptBytes = s2.exceptBytes := by
    unfold s3
    split
    · rw [State.count_mem]; exact ⟨rfl, rfl, State.count_exceptBytes ..⟩
    split
    · exact ⟨(s2.poisonCleared_bytes base).1, (s2.poisonCleared_bytes base).2, s2.poisonCleared_exceptBytes base⟩
    · exact ⟨rfl, rfl, rfl⟩
  have hframe : s3.exceptBytes = s.exceptBytes := hf
  rw [State.applyFlips_noneArmed (hs.frame hframe) hb]
  exact ⟨hc, hk.trans (congrArg (mput 0 s.mem.marks base) hm), hframe⟩

/-- A whole unit of tier memory is stored as it is. -/
theorem State.writeUnit_whole {s : State} (hs : s.noneArmed) {base : Nat} (hb : base < tierEnd) {bs : List Byte}
    (hl : bs.length = 16) (p : Bool) : s.writeUnit base 0 bs p = (false, s.putUnit base bs p) := by
  have hsize : unitSize base = 16 := if_pos hb
  rw [State.writeUnit, State.touch_noneArmed hs, s.drainSector_tier hb, hl, hsize]
  rfl

/-! ### Checks of units (R331, R332, R335) -/

theorem State.checkUnit_clean {s : State} {base : Nat} (h : mget 0 s.mem.marks base = 0) (finder : Nat) (fix : Bool) :
    s.checkUnit base finder fix = (.clean, s) := by
  rw [State.checkUnit]; exact if_pos h

theorem State.readUnit_clean {s : State} {base : Nat} (h : mget 0 s.mem.marks base = 0) (finder : Nat) :
    s.readUnit base finder = (false, s) := by
  rw [State.readUnit, State.checkUnit_clean h]

theorem State.checkUnit_poisoned {s : State} {base : Nat} (hb : base < tierEnd) (h : mget 0 s.mem.marks base = 255) (finder : Nat)
    (fix : Bool) : s.checkUnit base finder fix = (.oldPoison, s) := by
  have hc : classify 128 8 255 = .poisoned := by decide
  rw [State.checkUnit, s.parts_tier hb, h]
  simp [hc]

theorem State.readUnit_poisoned {s : State} {base : Nat} (hb : base < tierEnd) (h : mget 0 s.mem.marks base = 255) (finder : Nat) :
    (s.readUnit base finder).1 = true ∧ (s.readUnit base finder).2.mem.cells = s.mem.cells ∧
    (s.readUnit base finder).2.mem.marks = s.mem.marks := by
  rw [State.readUnit, State.checkUnit_poisoned hb h]
  refine ⟨rfl, ?_⟩
  simp only [State.count_mem]
  exact ⟨rfl, rfl⟩

/-- After a store of bytes with fresh check bits no flip fires. -/
theorem State.applyFlips_stored {s : State} (hs : s.noneArmed) {base : Nat} (hb : base < tierEnd) (a : Nat) (bs : List Byte) (m : Nat) :
    ((s.rawStore a bs).setMark base m).applyFlips base = (s.rawStore a bs).setMark base m :=
  State.applyFlips_noneArmed (hs.frame ((State.setMark_exceptBytes ..).trans (s.rawStore_exceptBytes a bs))) hb

/-- Storing a whole unit whose check bits are fresh clears no poison. -/
theorem State.putUnit_fresh {s : State} (hs : s.noneArmed) {base : Nat} (hb : base < tierEnd)
    (h : mget 0 s.mem.marks base = 0) (bs : List Byte) : s.putUnit base bs false = (s.rawStore base bs).setMark base 0 := by
  have hcode : s.poisonedAs (s.isOpen base) base = false := by
    have hc : classify 128 8 0 = .clean := by decide
    rw [State.poisonedAs, show s.partsAs (s.isOpen base) base = _ from s.parts_tier hb, h]
    simp [hc]
  rw [State.putUnit, hcode]
  simp only [Bool.false_eq_true, if_false]
  exact State.applyFlips_stored hs hb base bs 0

/-- A write to a unit with fresh check bits meets no poison and changes nothing but bytes (R333). -/
theorem State.writeUnit_fresh {s : State} (hs : s.noneArmed) {base : Nat} (hb : base < tierEnd)
    (h : mget 0 s.mem.marks base = 0) (off : Nat) (bs : List Byte) :
    s.writeUnit base off bs false = (false, (s.rawStore (base + off) bs).setMark base 0) := by
  rw [State.writeUnit, State.touch_noneArmed hs, s.drainSector_tier hb]
  split
  next hw =>
    obtain ⟨rfl, -⟩ : off = 0 ∧ bs.length = unitSize base := by simpa using hw
    rw [State.putUnit_fresh hs hb h, Nat.add_zero]
  next =>
    rw [State.checkUnit_clean h]
    simp only [reduceCtorEq, decide_false, Bool.or_self, Bool.false_eq_true, if_false]
    rw [State.applyFlips_stored hs hb]

/-! ### Writes of ranges (R333, R336) -/

/-- The pieces us of a write of bs from a on, after what has been written. -/
def State.writePieces (a : Nat) (bs : List Byte) (p : Bool) (us : List (Nat × Nat × Nat)) (acc : Bool × State) : Bool × State :=
  us.foldl (fun acc u =>
    let (bad, s) := acc.2.writeUnit u.1 u.2.1 (slice bs (u.1 + u.2.1 - a) u.2.2) p
    (acc.1 || bad, s)) acc

theorem State.memWrite_eq (s : State) (a : Nat) (bs : List Byte) (p : Bool) :
    s.memWrite a bs p = State.writePieces a bs p (unitsOf a bs.length) (false, s) := rfl

theorem State.writePieces_cons (a : Nat) (bs : List Byte) (p : Bool) (u : Nat × Nat × Nat) (us : List (Nat × Nat × Nat)) (b : Bool)
    (s : State) : State.writePieces a bs p (u :: us) (b, s) =
      State.writePieces a bs p us (b || (s.writeUnit u.1 u.2.1 (slice bs (u.1 + u.2.1 - a) u.2.2) p).1,
        (s.writeUnit u.1 u.2.1 (slice bs (u.1 + u.2.1 - a) u.2.2) p).2) := rfl

/-- Whole granules written: no poison is met, and each is stored, unpoisoned or poisoned (R336, R338). -/
theorem State.writePieces_whole {a : Nat} {bs : List Byte} {p b : Bool} : ∀ (us : List (Nat × Nat × Nat)) {s : State},
    s.noneArmed → (∀ u ∈ us, u.1 < tierEnd ∧ a ≤ u.1 ∧ u.2 = (0, 16)) →
    (State.writePieces a bs p us (b, s)).1 = b ∧
      Puts a bs (if p then 255 else 0) us s (State.writePieces a bs p us (b, s)).2
  | [], s, _, _ => ⟨rfl, .nil ..⟩
  | (base, _) :: us, s, hs, hu => by
    obtain ⟨⟨hb, ha, rfl⟩, hus⟩ := List.forall_mem_cons.mp hu
    obtain ⟨hc, hm, hf⟩ := State.putUnit_spec hs hb (slice bs (base - a) 16) p
    rw [State.writePieces_cons, Nat.add_zero, State.writeUnit_whole hs hb (slice_length ..), Bool.or_false]
    obtain ⟨hbad, hputs⟩ := State.writePieces_whole us (hs.frame hf) hus
    exact ⟨hbad, .cons (.of_store ha hc hm hf) hputs⟩

/-- A write to units with fresh check bits meets no poison and changes nothing but bytes (R333). -/
theorem State.writePieces_fresh {a : Nat} {bs : List Byte} {b : Bool} : ∀ (us : List (Nat × Nat × Nat)) {s : State},
    s.noneArmed → (∀ u ∈ us, u.1 < tierEnd ∧ a ≤ u.1 + u.2.1 ∧ mget 0 s.mem.marks u.1 = 0) →
    ∃ t, State.writePieces a bs false us (b, s) = (b, t) ∧ Puts a bs 0 us s t ∧
      t = { s with mem := { s.mem with cells := t.mem.cells, marks := t.mem.marks } }
  | [], s, _, _ => ⟨s, rfl, .nil .., rfl⟩
  | u :: us, s, hs, hu => by
    obtain ⟨⟨hb, ha, hm⟩, hus⟩ := List.forall_mem_cons.mp hu
    rw [State.writePieces_cons, State.writeUnit_fresh hs hb hm, Bool.or_false]
    generalize hx : (s.rawStore (u.1 + u.2.1) (slice bs (u.1 + u.2.1 - a) u.2.2)).setMark u.1 0 = x
    have hput : Puts a bs 0 [u] s x := .of_store ha (hx ▸ rfl) (hx ▸ rfl) (hx ▸ rfl)
    obtain ⟨t, ht, hputs, hsame⟩ := State.writePieces_fresh (b := b) us (hs.frame hput.frame) fun v hv => by
      refine ⟨(hus v hv).1, (hus v hv).2.1, ?_⟩
      by_cases e : v.1 ∈ [u].map Prod.fst
      · exact (hput.marks v.1).1 e
      · rw [(hput.marks v.1).2 e]; exact (hus v hv).2.2
    refine ⟨t, ht, .cons hput hputs, hsame.trans ?_⟩
    rw [← hx]; rfl

/-! ### Reads of ranges (R331, R335) -/

/-- The units us of a read, after those that have been read. -/
def State.readPieces (us : List (Nat × Nat × Nat)) (acc : List Bool × State) : List Bool × State :=
  us.foldl (fun acc u => let (p, s) := acc.2.readUnit u.1 0; (acc.1 ++ [p], s)) acc

theorem State.memRead_eq (s : State) (a n : Nat) : s.memRead a n =
    ((State.readPieces (unitsOf a n) ([], s)).2.rawBytes a n, State.readPieces (unitsOf a n) ([], s)) := rfl

theorem State.readPieces_cons (u : Nat × Nat × Nat) (us : List (Nat × Nat × Nat)) (ps : List Bool) (s : State) :
    State.readPieces (u :: us) (ps, s) = State.readPieces us (ps ++ [(s.readUnit u.1 0).1], (s.readUnit u.1 0).2) := rfl

theorem State.readPieces_fresh (s : State) : ∀ (us : List (Nat × Nat × Nat)) (ps : List Bool),
    (∀ u ∈ us, mget 0 s.mem.marks u.1 = 0) → State.readPieces us (ps, s) = (ps ++ List.replicate us.length false, s)
  | [], ps, _ => by rw [List.length_nil, List.replicate_zero, List.append_nil]; rfl
  | u :: us, ps, hu => by
    obtain ⟨hm, hus⟩ := List.forall_mem_cons.mp hu
    rw [State.readPieces_cons, State.readUnit_clean hm, State.readPieces_fresh s us _ hus, List.append_assoc]
    rfl

/-- A read of units with fresh check bits changes nothing (R331). -/
theorem State.memRead_fresh {s : State} {a n : Nat} (h : ∀ u ∈ unitsOf a n, mget 0 s.mem.marks u.1 = 0) :
    s.memRead a n = (s.rawBytes a n, List.replicate (unitsOf a n).length false, s) := by
  rw [State.memRead_eq, s.readPieces_fresh _ _ h]; rfl

theorem State.readPieces_poisoned : ∀ (us : List (Nat × Nat × Nat)) (ps : List Bool) (s : State),
    (∀ u ∈ us, u.1 < tierEnd ∧ mget 0 s.mem.marks u.1 = 255) →
    (State.readPieces us (ps, s)).1 = ps ++ List.replicate us.length true ∧
    (State.readPieces us (ps, s)).2.mem.cells = s.mem.cells
  | [], ps, s, _ => ⟨by rw [List.length_nil, List.replicate_zero, List.append_nil]; rfl, rfl⟩
  | u :: us, ps, s, hu => by
    obtain ⟨⟨hb, hm⟩, hus⟩ := List.forall_mem_cons.mp hu
    obtain ⟨hp, hc, hk⟩ := State.readUnit_poisoned hb hm 0
    rw [State.readPieces_cons, hp]
    obtain ⟨h1, h2⟩ := State.readPieces_poisoned us (ps ++ [true]) (s.readUnit u.1 0).2 (by rwa [hk])
    exact ⟨h1.trans (List.append_assoc ..), h2.trans hc⟩

/-- A read of units that all hold the poison mark returns the stored bytes, all poisoned (R335). -/
theorem State.memRead_poisoned {s : State} {a n : Nat} (h : ∀ u ∈ unitsOf a n, u.1 < tierEnd ∧ mget 0 s.mem.marks u.1 = 255) :
    (s.memRead a n).1 = s.rawBytes a n ∧ (s.memRead a n).2.1 = List.replicate (unitsOf a n).length true := by
  obtain ⟨hp, hc⟩ := State.readPieces_poisoned _ [] s h
  rw [State.memRead_eq]
  refine ⟨?_, hp⟩
  unfold State.rawBytes State.byte
  rw [hc]

/-! ### A read returns what was last written -/

/-- The bytes that were put are read back. -/
theorem Puts.rawBytes {a m : Nat} {bs : List Byte} {s t : State} (h : Puts a bs m (unitsOf a bs.length) s t)
    (ht : a + bs.length ≤ tierEnd) : t.rawBytes a bs.length = bs := by
  refine List.ext_getElem? fun i => ?_
  rw [State.rawBytes_getElem?]
  split
  next hi => rw [(h.bytes (a + i)).1 ((inPieces_unitsOf ht _).mpr (by omega)), Nat.add_sub_cancel_left, List.getElem?_eq_getElem hi]; rfl
  next hi => rw [List.getElem?_eq_none (Nat.not_lt.mp hi)]

theorem Puts.mark {a m : Nat} {bs : List Byte} {us : List (Nat × Nat × Nat)} {s t : State} (h : Puts a bs m us s t) :
    ∀ u ∈ us, mget 0 t.mem.marks u.1 = m := fun u hu => (h.marks u.1).1 (List.mem_map_of_mem hu)

theorem State.plainTier_spec {s : State} {a n : Nat} (h : s.plainTier a n) :
    s.noneArmed ∧ a + n ≤ tierEnd ∧ a % 16 = 0 ∧ n % 16 = 0 := by
  obtain ⟨ht, ha, hn, hl, h0, h1⟩ := h
  refine ⟨⟨hl, fun d hd => ?_⟩, by simpa [inTier] using ht, ha, hn⟩
  interval_cases d
  · exact h0
  · exact h1

/-- A write of whole granules. -/
theorem State.memWrite_whole {s : State} {a : Nat} {bs : List Byte} (hs : s.noneArmed) (ht : a + bs.length ≤ tierEnd)
    (ha : a % 16 = 0) (hn : bs.length % 16 = 0) (p : Bool) :
    (s.memWrite a bs p).1 = false ∧ Puts a bs (if p then 255 else 0) (unitsOf a bs.length) s (s.memWrite a bs p).2 := by
  rw [State.memWrite_eq]
  refine State.writePieces_whole _ hs fun u hu => ⟨(mem_unitsOf ht hu).1, ?_⟩
  rw [unitsOf_whole ht ha hn] at hu
  obtain ⟨i, -, rfl⟩ := List.mem_map.mp hu
  exact ⟨by omega, rfl⟩

/-- After whole granules have been written, a read returns them, each poisoned as it was written. -/
theorem Puts.read {a : Nat} {bs : List Byte} {p : Bool} {s t : State} (h : Puts a bs (if p then 255 else 0) (unitsOf a bs.length) s t)
    (ht : a + bs.length ≤ tierEnd) : (t.memRead a bs.length).1 = bs ∧
      (t.memRead a bs.length).2.1 = List.replicate (unitsOf a bs.length).length p := by
  cases p with
  | false =>
    rw [State.memRead_fresh h.mark]
    exact ⟨h.rawBytes ht, rfl⟩
  | true =>
    obtain ⟨hbytes, hps⟩ := State.memRead_poisoned fun u hu => ⟨(mem_unitsOf ht hu).1, h.mark u hu⟩
    exact ⟨hbytes.trans (h.rawBytes ht), hps⟩

/-- Settles O60: a write of whole granules puts its bytes and the mark (`State.memWrite_whole`), and a read returns them
(`Puts.read`). -/
theorem readsReturnWhatWasWritten : Obligations.ReadsReturnWhatWasWritten := by
  intro s a bs h
  obtain ⟨hs, ht, ha, hn⟩ := State.plainTier_spec h
  have hlen : (unitsOf a bs.length).length = bs.length / 16 := by rw [unitsOf_whole ht ha hn]; simp
  refine ⟨fun x => ?bytes, fun p => ?readBack, fun t hte => ?cleared, fun hfresh => ?unmarked⟩
  case bytes =>
    have hput := (State.memWrite_whole hs ht ha hn false).2
    split
    next hx => exact (hput.bytes x).1 ((inPieces_unitsOf ht x).mpr hx)
    next hx => exact (hput.bytes x).2 (mt (inPieces_unitsOf ht x).mp hx)
  case readBack =>
    obtain ⟨hbad, hput⟩ := State.memWrite_whole hs ht ha hn p
    exact ⟨hbad, hlen ▸ hput.read ht⟩
  case cleared =>
    have hput := (State.memWrite_whole hs ht ha hn true).2
    rw [← hte] at hput
    exact hlen ▸ ((State.memWrite_whole (hs.frame hput.frame) ht ha hn false).2.read ht).2
  case unmarked =>
    rw [State.memRead_fresh fun u hu => ?_, hlen]
    obtain ⟨-, -, h1, h2⟩ := mem_unitsOf ht hu
    exact hfresh _ (by omega) h2

end Sys2Proof.Machine
end

section
/-! PROOFS. BAR4: the host's reads and writes of tier memory (R324, R337, R549). -/

namespace Sys2Proof.Machine

/-! ### What a read or write of one unit leaves of the others

`State.besides base` is what reports of findings and work on the unit at `base` leave: what has been sent, and the check bits of every
other unit. -/

/-- What has been sent, and the check bits of every unit but one. -/
def State.besides (base : Nat) (s : State) : List Output × (Nat → Nat) :=
  (s.out, fun x => if x = base then 0 else mget 0 s.mem.marks x)

theorem State.besides_of {base : Nat} {s t : State} (ho : t.out = s.out) (hm : t.mem.marks = s.mem.marks) :
    t.besides base = s.besides base := by
  rw [State.besides, ho, hm]; rfl

theorem State.besides_mark {base : Nat} {s t : State} (h : t.besides base = s.besides base) {x : Nat} (hx : x ≠ base) :
    mget 0 t.mem.marks x = mget 0 s.mem.marks x := by
  have := congrFun (congrArg Prod.snd h) x
  simpa only [State.besides, if_neg hx] using this

theorem State.count_besides (base : Nat) (s : State) (u i n : Nat) : (s.count u i n).besides base = s.besides base :=
  State.besides_of (s.count_out u i n) (by rw [State.count_mem])

theorem State.modLogs_besides (base : Nat) (s : State) (key : Nat) (f : ErrLogs → ErrLogs) :
    (s.modLogs key f).besides base = s.besides base := rfl

theorem State.event_out (s : State) (c a : Nat) (u : Bool) : (s.event c a u).out = s.out := by
  unfold State.event State.bufferEvent
  split
  · rfl
  · exact s.count_out _ _ _

theorem State.event_besides (base : Nat) (s : State) (c a : Nat) (u : Bool) : (s.event c a u).besides base = s.besides base :=
  State.besides_of (s.event_out c a u) (by rw [State.event_mem])

theorem State.sig_besides (base : Nat) (s : State) (u k a : Nat) : (s.sig u k a).besides base = s.besides base :=
  State.besides_of (s.sig_out u k a) (by rw [State.sig_mem])

theorem State.setMark_besides (s : State) (base m : Nat) : (s.setMark base m).besides base = s.besides base := by
  refine congrArg (Prod.mk s.out) (funext fun x => ?_)
  rw [State.mark_setMark]
  split <;> rfl

theorem State.rawStore_besides (base : Nat) (s : State) (a : Nat) (bs : List Byte) :
    (s.rawStore a bs).besides base = s.besides base := rfl

theorem State.reportCe_besides (b : Nat) (s : State) (base syn finder : Nat) :
    (s.reportCe base syn finder).besides b = s.besides b := by
  simp only [State.reportCe, State.count_besides, State.modLogs_besides]

theorem State.reportUe_besides (b : Nat) (s : State) (base syn finder : Nat) :
    (s.reportUe base syn finder).besides b = s.besides b := by
  simp only [State.reportUe, State.event_besides, State.sig_besides, State.count_besides, State.modLogs_besides]

theorem State.correctPart_besides (s : State) (base : Nat) (p : CheckPart) (pos finder : Nat) :
    (s.correctPart base p pos finder).besides base = s.besides base := by
  rw [State.correctPart, State.reportCe_besides, State.setMark_besides]
  split
  · rfl
  · exact s.rawStore_besides base _ _

theorem State.checkUnit_besides (s : State) (base finder : Nat) (fix : Bool) :
    (s.checkUnit base finder fix).2.besides base = s.besides base := by
  unfold State.checkUnit
  extract_lets ps cs
  split
  · rfl
  split
  · rw [State.reportUe_besides, State.setMark_besides]
  split
  · rfl
  refine foldl_same (State.besides base) (fun t pc => ?_) _ s
  split
  · split
    · exact t.correctPart_besides _ _ _ _
    · exact t.reportCe_besides _ _ _ _
  all_goals rfl

theorem State.readUnit_besides (s : State) (base finder : Nat) : (s.readUnit base finder).2.besides base = s.besides base := by
  have h := s.checkUnit_besides base finder true
  unfold State.readUnit
  split
  case h_1 t he | h_2 t he => rwa [he] at h
  case h_3 t he | h_4 t he =>
    rw [he] at h
    rw [State.count_besides, State.modLogs_besides, h]

/-! ### Ranges with a poisoned unit -/

/-- A read that touches a unit with the poison mark sends nothing by itself, and says so (R332, R335). -/
theorem State.readPieces_somePoison {b : Nat} (hb : b < tierEnd) : ∀ (us : List (Nat × Nat × Nat)) (ps : List Bool) (s : State),
    (State.readPieces us (ps, s)).2.out = s.out ∧
    (anyP ps = true ∨ (b ∈ us.map Prod.fst ∧ mget 0 s.mem.marks b = 255) → anyP (State.readPieces us (ps, s)).1 = true)
  | [], ps, s => ⟨rfl, fun h => h.resolve_right fun h => absurd h.1 List.not_mem_nil⟩
  | u :: us, ps, s => by
    obtain ⟨hout, hany⟩ := State.readPieces_somePoison hb us (ps ++ [(s.readUnit u.1 0).1]) (s.readUnit u.1 0).2
    have hbes := s.readUnit_besides u.1 0
    rw [State.readPieces_cons]
    refine ⟨hout.trans (congrArg Prod.fst hbes), fun h => hany ?_⟩
    have happ : anyP (ps ++ [(s.readUnit u.1 0).1]) = (anyP ps || (s.readUnit u.1 0).1) := by simp [anyP]
    rw [happ, Bool.or_eq_true]
    rcases h with h | ⟨hmem, hm⟩
    · exact .inl (.inl h)
    · by_cases e : b = u.1
      · exact .inl (.inr (State.readUnit_poisoned (e ▸ hb) (e ▸ hm) 0).1)
      · refine .inr ⟨(List.mem_cons.mp hmem).resolve_left e, ?_⟩
        rw [State.besides_mark hbes e]; exact hm

/-- The data of a poisoned write leave their unit poisoned and the check bits of every other as they were (R336, R337). -/
theorem State.writeUnit_poison {s : State} (hs : s.noneArmed) {base : Nat} (hb : base < tierEnd) (off : Nat) (bs : List Byte) :
    (∀ x, mget 0 (s.writeUnit base off bs true).2.mem.marks x = if x = base then 255 else mget 0 s.mem.marks x) ∧
    (s.writeUnit base off bs true).2.exceptBytes = s.exceptBytes := by
  rw [State.writeUnit, State.touch_noneArmed hs, s.drainSector_tier hb]
  split
  next =>
    obtain ⟨-, hm, hf⟩ := State.putUnit_spec hs hb bs true
    exact ⟨fun x => by rw [hm, mget_mput]; rfl, hf⟩
  next =>
    have hbes := s.checkUnit_besides base 1 true
    have hframe := s.checkUnit_exceptBytes base 1 true
    generalize s.checkUnit base 1 true = r at hbes hframe ⊢
    obtain ⟨f, t⟩ := r
    have hu : ((t.rawStore (base + off) bs).setMark base ((t.rawStore (base + off) bs).poisonMark base)).exceptBytes =
      s.exceptBytes := hframe
    simp only [Bool.or_true, if_true]
    rw [State.applyFlips_noneArmed (hs.frame ((State.count_exceptBytes ..).trans hu)) hb]
    refine ⟨fun x => ?_, (State.count_exceptBytes ..).trans hu⟩
    rw [State.count_mem, State.mark_setMark, State.poisonMark_tier _ hb]
    split
    · rfl
    next hx => exact State.besides_mark hbes hx

theorem State.writePieces_poison {a : Nat} {bs : List Byte} : ∀ (us : List (Nat × Nat × Nat)) {b : Bool} {s : State}, s.noneArmed →
    (∀ u ∈ us, u.1 < tierEnd) → ∀ x, x ∈ us.map Prod.fst ∨ mget 0 s.mem.marks x = 255 →
    mget 0 (State.writePieces a bs true us (b, s)).2.mem.marks x = 255
  | [], _, _, _, _, _, hx => hx.resolve_left List.not_mem_nil
  | u :: us, b, s, hs, hu, x, hx => by
    obtain ⟨hb, hus⟩ := List.forall_mem_cons.mp hu
    obtain ⟨hm, hf⟩ := State.writeUnit_poison hs hb u.2.1 (slice bs (u.1 + u.2.1 - a) u.2.2)
    rw [State.writePieces_cons]
    refine State.writePieces_poison us (hs.frame hf) hus x ?_
    rw [hm]
    by_cases e : x = u.1
    · exact .inr (if_pos e)
    · rw [if_neg e]
      exact hx.imp_left fun h => (List.mem_cons.mp h).resolve_left e

/-! ### Requests on BAR4 -/

theorem bar4Ok_tier {a n : Nat} (h : bar4Ok a n = true) : n ≠ 0 ∧ (a < tierEnd → a + n ≤ tierEnd) := by
  simp only [bar4Ok, Bool.and_eq_true, decide_eq_true_eq] at h
  unfold tierEnd
  omega

theorem execBar4Read_closed {s : State} (h : s.mgmt.bar4 = false ∨ s.bar0Open = false) (a n : Nat) :
    exec (.bar4Read a n) s = .next (s.emit .unsupported) := by
  refine congrArg Host.Outcome.next (if_pos ?_)
  rcases h with h | h <;> simp [h]

theorem execBar4Write_closed {s : State} (h : s.mgmt.bar4 = false ∨ s.bar0Open = false) (a : Nat) (data : HostData) :
    exec (.bar4Write a data) s = .next s := by
  refine congrArg Host.Outcome.next (if_pos ?_)
  rcases h with h | h <;> simp [h]

section
variable {s : State} (hb : s.mgmt.bar4 = true) (ho : s.bar0Open = true)
include hb ho

theorem execBar4Read_open {a n : Nat} (hok : bar4Ok a n = true) : exec (.bar4Read a n) s = .next (
    if tierEnd ≤ a then s.emit (.readData (List.replicate n 0) false)
    else if s.sramHeld (dieOfAddr a) then s
    else (s.memRead a n).2.2.emit (.readData (s.memRead a n).1 (anyP (s.memRead a n).2.1))) := by
  show execBar4Read a n s = _
  rw [execBar4Read, hb, ho, if_neg (by decide), if_neg (bar4Ok_tier hok).1, hok, if_neg (by decide)]

theorem execBar4Write_open {a : Nat} {data : HostData} (hok : bar4Ok a data.bytes.length = true) :
    exec (.bar4Write a data) s = .next (
      if tierEnd ≤ a then s.clamp .table 1
      else if s.sramHeld (dieOfAddr a) then s
      else if data.poisoned then (s.memWrite a data.bytes data.poisoned).2.aer 12 else (s.memWrite a data.bytes data.poisoned).2) := by
  show execBar4Write a data s = _
  rw [execBar4Write, hb, ho, if_neg (by decide), hok, if_neg (by decide)]

end

theorem State.aer_mem (s : State) (b : Nat) : (s.aer b).mem = s.mem := rfl

theorem State.configAt_setConfig (s : State) (n v m : Nat) :
    (s.setConfig n v).configAt m = if m = n then v else s.configAt m := by
  unfold State.configAt State.setConfig
  split
  next h => rw [h]; exact mget_mput_self ..
  next h => exact mget_mput_ne _ _ _ _ h

/-- AER's status shows the error that it has logged. -/
theorem State.configAt_aer (s : State) (b : Nat) : bit ((s.aer b).configAt 65) b = true := by
  rw [State.aer, State.configAt_setConfig, if_neg (by decide), State.configAt_setConfig, if_pos rfl, bit, Nat.testBit_or,
    Nat.testBit_two_pow_self, Bool.or_true]

/-- Settles O25: the request goes to memory where the conditions let it (`execBar4Read_open`, `execBar4Write_open`), and the laws
of reads and writes of ranges say what it does there. -/
theorem bar4ReadsAndWrites : Obligations.Bar4ReadsAndWrites := by
  refine fun s a => ⟨fun hb ho => ⟨fun n data hn hd ha hh => ?held, fun n hn ha hh => ⟨fun hm => ?readFresh, fun hm => ?readPoisoned⟩,
    fun data hd ha hh hl hf => ?writePoisoned, fun data hd ha hh hm hl hf => ?writeFresh, fun n hn ha => ?readAbove,
    fun data hd ha => ?writeAbove⟩, fun hc => ⟨execBar4Read_closed hc a, execBar4Write_closed hc a⟩⟩
  case held =>
    rw [execBar4Read_open hb ho hn, execBar4Write_open hb ho hd, if_neg (Nat.not_le.mpr ha), if_neg (Nat.not_le.mpr ha), hh]
    exact ⟨rfl, rfl⟩
  case readFresh =>
    have hps : anyP (List.replicate (unitsOf a n).length false) = false := by simp [anyP]
    rw [execBar4Read_open hb ho hn, if_neg (Nat.not_le.mpr ha), hh, State.memRead_fresh hm, hps]
    rfl
  case readPoisoned =>
    obtain ⟨u, hu, hm⟩ := hm
    have hbase := (mem_unitsOf ((bar4Ok_tier hn).2 ha) hu).1
    obtain ⟨hout, hany⟩ := State.readPieces_somePoison hbase (unitsOf a n) [] s
    refine ⟨_, (s.memRead a n).1, execBar4Read_open hb ho hn, ?_, State.rawBytes_length ..⟩
    rw [if_neg (Nat.not_le.mpr ha), hh, if_neg Bool.false_ne_true, State.emit_out, State.memRead_eq, hout,
      hany (.inr ⟨List.mem_map_of_mem hu, hm⟩)]
  case writePoisoned =>
    have ht := (bar4Ok_tier hd).2 ha
    refine ⟨_, execBar4Write_open (data := ⟨data, true⟩) hb ho hd, ?_⟩
    rw [if_neg (Nat.not_le.mpr ha), hh, if_neg Bool.false_ne_true, if_pos rfl]
    refine ⟨State.configAt_aer _ _, fun u hu => ?_⟩
    rw [State.aer_mem, State.memWrite_eq]
    exact State.writePieces_poison _ ⟨hl, hf⟩ (fun v hv => (mem_unitsOf ht hv).1) u.1 (.inl (List.mem_map_of_mem hu))
  case writeFresh =>
    have ht := (bar4Ok_tier hd).2 ha
    obtain ⟨t, hrun, hput, hsame⟩ := State.writePieces_fresh (a := a) (bs := data) (b := false) (unitsOf a data.length) ⟨hl, hf⟩
      fun u hu => ⟨(mem_unitsOf ht hu).1, (mem_unitsOf ht hu).2.1, hm u hu⟩
    refine ⟨t, ?_, hsame, hput.rawBytes ht, fun b hout => (hput.bytes b).2 ?_, fun b => ?_⟩
    · rw [execBar4Write_open (data := ⟨data, false⟩) hb ho hd, if_neg (Nat.not_le.mpr ha), hh, State.memWrite_eq, hrun]
      rfl
    · rw [inPieces_unitsOf ht]; omega
    · by_cases hmem : b ∈ (unitsOf a data.length).map Prod.fst
      · rw [(hput.marks b).1 hmem]
        obtain ⟨u, hu, rfl⟩ := List.mem_map.mp hmem
        exact (hm u hu).symm
      · exact (hput.marks b).2 hmem
  case readAbove =>
    rw [execBar4Read_open hb ho hn, if_pos ha]; rfl
  case writeAbove =>
    obtain ⟨hout, -, hcount⟩ := s.clamp_one_frame .table
    refine ⟨_, execBar4Write_open hb ho hd, ?_⟩
    rw [if_pos ha]
    exact ⟨s.clamp_reported _ _, hout, hcount⟩

end Sys2Proof.Machine
end

section
/-! PROOFS. REGION_CONVERSION_DONE with an injection address that is no sector's base: why the statement on walks and conversion fails. -/

namespace Sys2Proof.Machine

/-- A powered package whose stack 0 converts unit 0, with an injection armed in it for an address one byte past a sector's base. No
write of INJ_ADDR_LO stores such an address (its low five bits are no RW bits, Table 11.6), but the statement is of every state. -/
def injectedAskew : State :=
  { State.reset with
    rst := { RstState.reset with vaux := true }
    stk := [(0, { StackState.reset with mode := .run, trained := true, converting := [0] })]
    regs := ((State.reset.regs.put (regInjAddrLo 0) 0 ⟨1, 1⟩).put (regInjAddrHi 0) 0 ⟨0x1000, 0x1000⟩).put
      (regInjCtl 0) 0 ⟨0x20000, 0x20000⟩ }

/-- No sector's base is armed. -/
theorem injectedAskew_armedUnits : injectedAskew.armedUnits = [0, stackBase + 1] := by decide +kernel

/-- The injection fires at the conversion and sets bit 0 of the byte that it names, inside a sector that is not armed. -/
theorem injectedAskew_converted : (injectedAskew.convertOne 0).byte (stackBase + 1) = 1 := by decide +kernel

theorem exec_regionConversionDone {s : State} (hp : s.powered = true) (k : Nat) :
    exec (.regionConversionDone k) s = .next (s.convertOne k) := congrArg Host.Outcome.next (if_pos hp)

/-- Refutes O43: after the conversion of unit 0 of `injectedAskew` byte 1 of that unit is not zero, though its sector's base is not
armed: the injection was armed for that byte's own address. -/
theorem not_memoryIsWalkedAndKept : ¬ Obligations.MemoryIsWalkedAndKept := by
  intro h
  obtain ⟨-, hstacks⟩ := h injectedAskew
  obtain ⟨-, -, -, -, hconvert⟩ := hstacks 0 (by decide)
  obtain ⟨t, ht, -, -, hzero, -⟩ := hconvert 0 [] rfl rfl rfl
  obtain rfl := Host.Outcome.next.inj ((exec_regionConversionDone rfl 0).symm.trans ht)
  have hclear := (hzero (stackBase + 1) (by decide) (by decide) (by rw [injectedAskew_armedUnits]; decide)).1
  exact absurd (injectedAskew_converted.symm.trans hclear) (by decide)

end Sys2Proof.Machine
end

section
/-! PROOFS. Fields of effective values that a COMMIT judges: what one clamp of a field leaves of its register (R813, R816). -/

namespace Sys2Proof.Machine

/-! ### A field of a number -/

/-- A number with one of its fields replaced. -/
def setField (e hi lo v : Nat) : Nat := e - bits e hi lo * 2 ^ lo + v * 2 ^ lo

theorem bits_lt (x hi lo : Nat) : bits x hi lo < 2 ^ (hi + 1 - lo) := Nat.mod_lt _ (Nat.two_pow_pos _)

theorem testBit_bits (x hi lo i : Nat) : (bits x hi lo).testBit i = (decide (i < hi + 1 - lo) && x.testBit (lo + i)) := by
  rw [bits, Nat.testBit_mod_two_pow, Nat.testBit_div_two_pow, Nat.add_comm i]

theorem bits_congr {x y hi lo : Nat} (h : ∀ i, lo ≤ i → i ≤ hi → x.testBit i = y.testBit i) : bits x hi lo = bits y hi lo := by
  refine Nat.eq_of_testBit_eq fun i => ?_
  rw [testBit_bits, testBit_bits]
  by_cases hi' : i < hi + 1 - lo
  · rw [h _ (by omega) (by omega)]
  · simp only [hi', decide_false, Bool.false_and]

theorem testBit_setField {e hi lo v : Nat} (hv : v < 2 ^ (hi + 1 - lo)) (j : Nat) :
    (setField e hi lo v).testBit j = if lo ≤ j ∧ j < lo + (hi + 1 - lo) then v.testBit (j - lo) else e.testBit j := by
  set w := hi + 1 - lo with hw
  have hb : bits e hi lo < 2 ^ w := bits_lt e hi lo
  have hc : e % 2 ^ lo < 2 ^ lo := Nat.mod_lt _ (Nat.two_pow_pos _)
  have he : e = 2 ^ lo * (2 ^ w * (e / 2 ^ lo / 2 ^ w) + bits e hi lo) + e % 2 ^ lo := by
    rw [bits, ← hw, Nat.div_add_mod, Nat.div_add_mod]
  have hs : setField e hi lo v = 2 ^ lo * (2 ^ w * (e / 2 ^ lo / 2 ^ w) + v) + e % 2 ^ lo := by
    have hmul : ∀ x, 2 ^ lo * (2 ^ w * (e / 2 ^ lo / 2 ^ w) + x) = 2 ^ lo * (2 ^ w * (e / 2 ^ lo / 2 ^ w)) + x * 2 ^ lo :=
      fun x => by ring
    rw [hmul] at he ⊢
    unfold setField
    omega
  rw [hs, Nat.testBit_two_pow_mul_add _ hc]
  conv_rhs => rw [he, Nat.testBit_two_pow_mul_add _ hc]
  by_cases hlo : j < lo
  · simp only [hlo, if_true, show ¬ (lo ≤ j ∧ j < lo + w) by omega, if_false]
  · rw [Nat.testBit_two_pow_mul_add _ hv, Nat.testBit_two_pow_mul_add _ hb]
    by_cases hj : j < lo + w
    · simp only [hlo, if_false, show j - lo < w by omega, if_true, show lo ≤ j ∧ j < lo + w by omega, and_self]
    · simp only [hlo, if_false, show ¬ j - lo < w by omega, show ¬ (lo ≤ j ∧ j < lo + w) by omega]

theorem bits_setField {e hi lo v : Nat} (hv : v < 2 ^ (hi + 1 - lo)) : bits (setField e hi lo v) hi lo = v := by
  refine Nat.eq_of_testBit_eq fun i => ?_
  rw [testBit_bits, testBit_setField hv]
  by_cases hi' : i < hi + 1 - lo
  · rw [if_pos (by omega), Nat.add_sub_cancel_left]
    simp only [hi', decide_true, Bool.true_and]
  · have hvi : v.testBit i = false :=
      Nat.testBit_lt_two_pow (hv.trans_le (Nat.pow_le_pow_right (by decide) (by omega)))
    simp only [hi', decide_false, Bool.false_and, hvi]

theorem bits_setField_other {e hi lo v : Nat} (hv : v < 2 ^ (hi + 1 - lo)) {h l : Nat} (hd : h < lo ∨ hi < l) :
    bits (setField e hi lo v) h l = bits e h l :=
  bits_congr fun i h1 h2 => by rw [testBit_setField hv, if_neg (by omega)]

theorem setField_lt {e hi lo v n : Nat} (he : e < 2 ^ n) (hn : hi < n) (hl : lo ≤ hi) (hv : v < 2 ^ (hi + 1 - lo)) :
    setField e hi lo v < 2 ^ n := by
  refine Nat.lt_pow_two_of_testBit _ fun i hi' => ?_
  rw [testBit_setField hv, if_neg (by omega)]
  exact Nat.testBit_lt_two_pow (he.trans_le (Nat.pow_le_pow_right (by decide) hi'))

theorem bit_eq_bits (x n : Nat) : bit x n = decide (bits x n n = 1) := by
  rw [bit, bits, Nat.testBit_eq_decide_div_mod_eq, Nat.add_sub_cancel_left, pow_one]

theorem bit_congr {x y n : Nat} (h : bits x n n = bits y n n) : bit x n = bit y n := by rw [bit_eq_bits, bit_eq_bits, h]

theorem wrap_lt (n : Nat) (x : Int) : wrap n x < 2 ^ n := by
  have h := Int.emod_lt_of_pos x (show (0 : Int) < 2 ^ n by positivity)
  have h0 := Int.emod_nonneg x (show (2 ^ n : Int) ≠ 0 by positivity)
  unfold wrap
  zify
  rw [Int.toNat_of_nonneg h0]
  exact h

/-- Merged bits that the mask covers are the new ones. -/
theorem bits_mergeBits (e v : Word32) {m : Word32} {hi lo : Nat} (h : ∀ i, lo ≤ i → i ≤ hi → m.getLsbD i = true) :
    bits (mergeBits e v m).toNat hi lo = bits v.toNat hi lo := by
  refine bits_congr fun i h1 h2 => ?_
  simp only [BitVec.testBit_toNat, mergeBits, BitVec.getLsbD_or, BitVec.getLsbD_and, BitVec.getLsbD_not, h i h1 h2,
    Bool.not_true, Bool.and_false, Bool.false_or, Bool.and_true]

/-! ### A field of a register -/

/-- From a to b one field of one effective value has become v. -/
structure RegFile.FieldSet (a b : RegFile) (off hi lo v : Nat) : Prop where
  judges : a.Judges b off
  field : bits (b.eff off 0) hi lo = v
  other : ∀ h l, h < lo ∨ hi < l → bits (b.eff off 0) h l = bits (a.eff off 0) h l

theorem RegFile.fieldSet_setEffField (a : RegFile) (off : Nat) {hi lo v : Nat} (hl : lo ≤ hi) (hh : hi < 32)
    (hv : v < 2 ^ (hi + 1 - lo)) : a.FieldSet (a.setEffField off 0 hi lo v) off hi lo v := by
  have he : (a.setEffField off 0 hi lo v).eff off 0 = setField (a.eff off 0) hi lo v :=
    (a.eff_setEff off _).trans (Nat.mod_eq_of_lt (setField_lt (a.eff_lt off 0) hh hl hv))
  refine ⟨a.judges_setEff off _, ?_, fun h l hd => ?_⟩
  · rw [he, bits_setField hv]
  · rw [he, bits_setField_other hv hd]

/-- A clamp of a field: where the field is bad it takes the value, else it stays (R816). -/
theorem State.commitClamp_field (s : State) (bad : Bool) (off : Nat) {hi lo v : Nat} (hl : lo ≤ hi) (hh : hi < 32)
    (hv : v < 2 ^ (hi + 1 - lo)) :
    s.regs.FieldSet (s.commitClamp bad off 0 hi lo v).regs off hi lo (if bad then v else bits (s.regs.eff off 0) hi lo) := by
  rw [State.commitClamp_regs]
  cases bad with
  | true => exact RegFile.fieldSet_setEffField _ off hl hh hv
  | false => exact ⟨.refl _ _, rfl, fun _ _ _ => rfl⟩

/-- A field outside two bounds becomes the nearer one. -/
theorem State.commitBound_field (s : State) (off : Nat) {hi lo least most : Nat} (hl : lo ≤ hi) (hh : hi < 32)
    (hv : max least most < 2 ^ (hi + 1 - lo)) :
    s.regs.FieldSet (s.commitBound off 0 hi lo least most).regs off hi lo
      (max least (min most (bits (s.regs.eff off 0) hi lo))) := by
  have h := s.commitClamp_field (decide (bits (s.regs.eff off 0) hi lo < least) || decide (most < bits (s.regs.eff off 0) hi lo)) off
    hl hh (v := max least (min most (bits (s.regs.eff off 0) hi lo))) (by omega)
  refine ⟨h.judges, h.field.trans ?_, h.other⟩
  by_cases hb : bits (s.regs.eff off 0) hi lo < least ∨ most < bits (s.regs.eff off 0) hi lo
  · rw [if_pos (by simpa using hb)]
  · rw [if_neg (by simpa using hb)]
    omega

/-- A field above a bound becomes the bound. -/
theorem State.commitClamp_atMost (s : State) (off : Nat) {hi lo most : Nat} (hl : lo ≤ hi) (hh : hi < 32)
    (hv : most < 2 ^ (hi + 1 - lo)) :
    s.regs.FieldSet (s.commitClamp (decide (most < bits (s.regs.eff off 0) hi lo)) off 0 hi lo most).regs off hi lo
      (min most (bits (s.regs.eff off 0) hi lo)) := by
  have h := s.commitClamp_field (decide (most < bits (s.regs.eff off 0) hi lo)) off hl hh hv
  refine ⟨h.judges, h.field.trans ?_, h.other⟩
  simp only [decide_eq_true_eq]
  split <;> omega

/-- A lowest field of 0 becomes 1. -/
theorem State.commitClamp_atLeastOne (s : State) (off : Nat) {hi : Nat} (hh : hi < 32) :
    s.regs.FieldSet (s.commitClamp (decide (s.regs.eff off 0 % 2 ^ (hi + 1) = 0)) off 0 hi 0 1).regs off hi 0
      (max 1 (bits (s.regs.eff off 0) hi 0)) := by
  have h := s.commitClamp_field (decide (s.regs.eff off 0 % 2 ^ (hi + 1) = 0)) off (Nat.zero_le hi) hh (v := 1)
    (Nat.one_lt_two_pow (by omega))
  have hlow : bits (s.regs.eff off 0) hi 0 = s.regs.eff off 0 % 2 ^ (hi + 1) := by
    rw [bits, pow_zero, Nat.div_one, Nat.sub_zero]
  refine ⟨h.judges, h.field.trans ?_, h.other⟩
  simp only [decide_eq_true_eq, hlow]
  split <;> omega

/-- What a block judges after other judgements. -/
theorem RegFile.committed_then_judges {a b c : RegFile} {block off : Nat} {judged : List Nat} (h : a.committed b block judged [])
    (h' : b.Judges c off) (hb : blockOf off = some block) (hj : off ∈ judged) : a.committed c block judged [] := by
  refine ⟨h'.only.1.trans h.1, fun o i hi => ?_⟩
  obtain ⟨hs, hd, hn⟩ := h.2 o i hi
  by_cases he : (o, i) = (off, 0)
  · obtain ⟨rfl, rfl⟩ := Prod.mk.inj he
    exact ⟨fun _ => h'.shadow.trans (hs List.not_mem_nil), fun _ hx => absurd hj hx, fun hx => absurd hb hx⟩
  · have hg := h'.only.2 o i hi he
    rw [RegFile.shadow, RegFile.eff, hg]
    exact ⟨fun _ => hs List.not_mem_nil, hd, hn⟩

theorem RegFile.committed_mono {a b : RegFile} {block : Nat} (h : a.committed b block [] []) (judged : List Nat) :
    a.committed b block judged [] :=
  ⟨h.1, fun o i hi => let ⟨hs, hd, hn⟩ := h.2 o i hi; ⟨hs, fun hb _ => hd hb List.not_mem_nil, hn⟩⟩

end Sys2Proof.Machine
end

section
/-! PROOFS. A COMMIT of a stack block: what it judges of its registers, and what it starts at the stack (R373, R383 to R386, R393). -/

namespace Sys2Proof.Machine

/-! ### Registers of a stack block -/

theorem regStkCtl_spec : ∀ k < 8, blockOf (regStkCtl k) = some (16 + k) ∧ regStkCtl k ∉ flipRegs ∧
    regRow (regStkCtl k) = some (.shadowed (regStkCtl 0) 0x0DF8FFFF 0x00280100) := by decide +kernel

theorem regMarginCtl_spec : ∀ k < 8, blockOf (regMarginCtl k) = some (16 + k) ∧ regMarginCtl k ∉ flipRegs := by decide +kernel

theorem regMarginCtl_ne (k : Nat) : regMarginCtl k ≠ regStkCtl k := by
  unfold regMarginCtl regStkCtl; omega

/-- STATE of STK_CTL in a capture of the block is what the shadow makes of the effective bit (R383). -/
theorem RegFile.wantsTest_capture (r : RegFile) {k : Nat} (hk : k < 8) :
    wantsTest k (r.capture (16 + k)) = bit (r.due (regStkCtl k) 0) 24 := by
  obtain ⟨hb, -, hrow⟩ := regStkCtl_spec k hk
  have hmask : ∀ i, 24 ≤ i → i ≤ 24 → (BitVec.ofNat 32 0x0DF8FFFF).getLsbD i = true := fun i h1 h2 => by
    obtain rfl : i = 24 := by omega
    decide
  have hdue : bit (r.due (regStkCtl k) 0) 24 = bit (r.shadow (regStkCtl k) 0) 24 := by
    rw [RegFile.due, hrow]
    exact bit_congr (bits_mergeBits _ _ hmask)
  have hkey : ∀ kv ∈ r.capture (16 + k), kv.1 = regKey (regStkCtl k) 0 → kv.2 = (r.get (regStkCtl k) 0).shadow := by
    intro kv hm e
    simp only [RegFile.capture, List.mem_map, List.mem_filter] at hm
    obtain ⟨x, -, rfl⟩ := hm
    have e' : x.1 = regKey (regStkCtl k) 0 := e
    rw [e', regKey_div (by decide), regKey_mod (by decide)]
  rw [hdue, Bool.eq_iff_iff, wantsTest, List.any_eq_true]
  constructor
  · rintro ⟨kv, hm, hkv⟩
    rw [Bool.and_eq_true, beq_iff_eq] at hkv
    rw [RegFile.shadow, ← hkey kv hm hkv.1]
    exact hkv.2
  · intro hbit
    by_cases hl : ∃ kv ∈ r.vals, kv.1 = regKey (regStkCtl k) 0
    · obtain ⟨kv, hm, e⟩ := hl
      refine ⟨(kv.1, (r.get (kv.1 / 65536) (kv.1 % 65536)).shadow), ?_, ?_⟩
      · simp only [RegFile.capture, List.mem_map, List.mem_filter]
        exact ⟨kv, ⟨hm, by rw [e, regKey_div (by decide), hb]; exact beq_self_eq_true _⟩, rfl⟩
      · rw [e, regKey_div (by decide), regKey_mod (by decide), beq_self_eq_true, Bool.true_and]
        exact hbit
    · have hd : r.get (regStkCtl k) 0 = ⟨regResetValue (regStkCtl k), regResetValue (regStkCtl k)⟩ :=
        mget_unlisted _ _ _ fun kv hm e => hl ⟨kv, hm, e⟩
      rw [RegFile.shadow, hd, regResetValue, hrow] at hbit
      exact absurd hbit (by decide)

/-! ### The steps of the COMMIT -/

/-- The fields of STK_CTL and MARGIN_CTL that the block judges. -/
def State.judgeStk (s : State) (k : Nat) (old : RegFile) : State :=
  let off := regStkCtl k
  let s := s.legalBin k old
  let s := s.commitClamp (8 < bits (s.regs.eff off 0) 23 20) off 0 23 20 8
  let s := s.commitClamp (s.regs.eff off 0 % 65536 = 0) off 0 15 0 1
  let mo := regMarginCtl k
  let s := s.commitClamp (s.regs.eff mo 0 % 256 = 0) mo 0 7 0 1
  let o := sext 8 (bits (s.regs.eff mo 0) 23 16)
  let o' := marginBound (bits (s.regs.eff mo 0) 29 28) o
  s.commitClamp (o ≠ o') mo 0 23 16 (wrap 8 o')

/-- The stack enters TEST state, takes another data rate there, or leaves it, as the bit STATE says. -/
def State.followMode (s : State) (k : Nat) (old : RegFile) : State :=
  match (s.stack k).mode, bit (s.regs.eff (regStkCtl k) 0) 24 with
  | .test, false => (s.leaveTest k ({ s with regs := old } : State).isOpen).setState (stackNode k)
      (if s.censusHolds (stackNode k) then .fenced else if s.haltedNode (stackNode k) then .halted else .idle)
  | .test, true => s.modStack k (fun x => { x with bin := bits (s.regs.eff (regStkCtl k) 0) 27 26 })
  | .run, true =>
    ((s.drained (fun a => stackOf a == k)).modStack k (fun x => { x with
      mode := .test, enteringTest := false, bin := bits (s.regs.eff (regStkCtl k) 0) 27 26 })).setState (stackNode k) .fenced
  | .run, false | .training, _ | .failed, _ => s

/-- Conversion of the units whose kind has changed, and the judgement of an injection's address. -/
def State.startConversion (s : State) (k : Nat) (old : RegFile) : State :=
  let ch := changedUnits old s.regs k
  let s := if ch = [] then s else s.modStack k (fun x => { x with converting := ch })
  let a := s.regs.eff (regInjAddrHi k) 0 % 65536 * 2 ^ 32 + s.regs.eff (regInjAddrLo k) 0
  s.commitClamp (bit (s.regs.eff (regInjCtl k) 0) 17 && s.injRefused a) (regInjCtl k) 0 17 17 0

theorem State.legalStk_eq (s : State) (k : Nat) (old : RegFile) :
    s.legalStk k old = ((s.judgeStk k old).followMode k old).startConversion k old := rfl

/-! ### What is judged -/

theorem State.legalBin_spec (s : State) (k : Nat) (old : RegFile) :
    s.RegsOnly (s.legalBin k old) ∧ s.regs.Judges (s.legalBin k old).regs (regStkCtl k) ∧
    (∀ h l, h < 26 ∨ 27 < l → bits ((s.legalBin k old).regs.eff (regStkCtl k) 0) h l = bits (s.regs.eff (regStkCtl k) 0) h l) ∧
    (bit (s.regs.eff (regStkCtl k) 0) 24 = false →
      bits ((s.legalBin k old).regs.eff (regStkCtl k) 0) 27 26 = bits (old.eff (regStkCtl k) 0) 27 26) := by
  unfold State.legalBin
  extract_lets off a was
  have hra := s.commitClamp_regsOnly (decide (bits (s.regs.eff off 0) 27 26 = 3)) off 0 27 26 0
  have hfa := s.commitClamp_field (decide (bits (s.regs.eff off 0) 27 26 = 3)) off (hi := 27) (lo := 26) (v := 0)
    (by decide) (by decide) (by decide)
  have hrb := a.commitClamp_regsOnly (!bit (a.regs.eff off 0) 24 && decide (bits (a.regs.eff off 0) 27 26 ≠ was)) off 0 27 26 was
  have hfb := a.commitClamp_field (!bit (a.regs.eff off 0) 24 && decide (bits (a.regs.eff off 0) 27 26 ≠ was)) off (hi := 27)
    (lo := 26) (v := was) (by decide) (by decide) (bits_lt _ _ _)
  refine ⟨hra.trans hrb, hfa.judges.trans hfb.judges, fun h l hd => (hfb.other h l hd).trans (hfa.other h l hd), fun hbit => ?_⟩
  have hbita : bit (a.regs.eff off 0) 24 = false := (bit_congr (hfa.other 24 24 (.inl (by decide)))).trans hbit
  refine hfb.field.trans ?_
  rw [hbita]
  by_cases hw : bits (a.regs.eff off 0) 27 26 = was
  · rw [if_neg (by simpa using hw)]
    exact hw
  · rw [if_pos (by simpa using hw)]

/-- What the block judges of STK_CTL and MARGIN_CTL, and that it leaves every other register. -/
theorem State.judgeStk_spec (s : State) (k : Nat) (old : RegFile) :
    s.RegsOnly (s.judgeStk k old) ∧
    (∃ m, s.regs.Judges m (regStkCtl k) ∧ m.Judges (s.judgeStk k old).regs (regMarginCtl k)) ∧
    bit ((s.judgeStk k old).regs.eff (regStkCtl k) 0) 24 = bit (s.regs.eff (regStkCtl k) 0) 24 ∧
    (bit (s.regs.eff (regStkCtl k) 0) 24 = false →
      bits ((s.judgeStk k old).regs.eff (regStkCtl k) 0) 27 26 = bits (old.eff (regStkCtl k) 0) 27 26) ∧
    bits ((s.judgeStk k old).regs.eff (regStkCtl k) 0) 23 20 = min 8 (bits (s.regs.eff (regStkCtl k) 0) 23 20) ∧
    bits ((s.judgeStk k old).regs.eff (regStkCtl k) 0) 15 0 = max 1 (bits (s.regs.eff (regStkCtl k) 0) 15 0) ∧
    bits ((s.judgeStk k old).regs.eff (regMarginCtl k) 0) 7 0 = max 1 (bits (s.regs.eff (regMarginCtl k) 0) 7 0) := by
  obtain ⟨hr, hj, hother, hbin⟩ := s.legalBin_spec k old
  unfold State.judgeStk
  extract_lets off b c d mo e o o'
  have hrc := b.commitClamp_regsOnly (decide (8 < bits (b.regs.eff off 0) 23 20)) off 0 23 20 8
  have hfc : b.regs.FieldSet c.regs off 23 20 _ :=
    b.commitClamp_atMost off (hi := 23) (lo := 20) (most := 8) (by decide) (by decide) (by decide)
  have hrd := c.commitClamp_regsOnly (decide (c.regs.eff off 0 % 65536 = 0)) off 0 15 0 1
  have hfd : c.regs.FieldSet d.regs off 15 0 _ := c.commitClamp_atLeastOne off (hi := 15) (by decide)
  have hre := d.commitClamp_regsOnly (decide (d.regs.eff mo 0 % 256 = 0)) mo 0 7 0 1
  have hfe : d.regs.FieldSet e.regs mo 7 0 _ := d.commitClamp_atLeastOne mo (hi := 7) (by decide)
  have hrf := e.commitClamp_regsOnly (decide (o ≠ o')) mo 0 23 16 (wrap 8 o')
  have hff := e.commitClamp_field (decide (o ≠ o')) mo (hi := 23) (lo := 16) (v := wrap 8 o') (by decide) (by decide) (wrap_lt 8 o')
  have hstk : s.regs.Judges d.regs off := hj.trans (hfc.judges.trans hfd.judges)
  have hmar := hfe.judges.trans hff.judges
  have hoff : ∀ {x : RegFile}, d.regs.Judges x mo → x.eff off 0 = d.regs.eff off 0 := fun h => h.eff (regMarginCtl_ne k).symm
  rw [hoff hmar]
  refine ⟨hr.trans (hrc.trans (hrd.trans (hre.trans hrf))), ⟨d.regs, hstk, hmar⟩, bit_congr ?_, fun hb => ?_, ?_, ?_, ?_⟩
  · rw [hfd.other _ _ (by decide), hfc.other _ _ (by decide), hother _ _ (by decide)]
  · rw [hfd.other _ _ (by decide), hfc.other _ _ (by decide), hbin hb]
  · rw [hfd.other _ _ (by decide), ← hother 23 20 (by decide)]
    exact hfc.field
  · rw [← hother 15 0 (by decide), ← hfc.other 15 0 (by decide)]
    exact hfd.field
  · rw [← hstk.eff (regMarginCtl_ne k), hff.other 7 0 (by decide)]
    exact hfe.field

/-! ### What a stack's COMMIT leaves alone -/

/-- From s to t stack k alone of the stacks has changed, and what `Loses` lets change, but for the fabric. -/
structure StackWork (k : Nat) (s t : State) : Prop where
  loses : Loses s t
  fab : t.fab = s.fab
  others : ∀ j, j ≠ k → t.stack j = s.stack j

theorem StackWork.refl (k : Nat) (s : State) : StackWork k s s := ⟨Loses.refl s, rfl, fun _ _ => rfl⟩

theorem StackWork.trans {k : Nat} {s t u : State} (h : StackWork k s t) (h' : StackWork k t u) : StackWork k s u :=
  ⟨h.loses.trans h'.loses, h'.fab.trans h.fab, fun j hj => (h'.others j hj).trans (h.others j hj)⟩

theorem State.modStack_stackWork (s : State) (k : Nat) (f : StackState → StackState) : StackWork k s (s.modStack k f) :=
  ⟨s.modStack_loses k f, rfl, fun j hj => (s.stack_modStack k j f).trans (if_neg hj)⟩

theorem State.drained_stackWork (s : State) (k : Nat) (f : Nat → Bool) : StackWork k s (s.drained f) :=
  ⟨s.drained_loses f, rfl, fun _ _ => rfl⟩

theorem State.zeroAs_stk (s : State) (opened : Nat → Bool) (a n : Nat) :
    (s.zeroAs opened a n).stk = s.stk ∧ (s.zeroAs opened a n).fab = s.fab := by
  obtain ⟨-, -, hstk, hfab, -⟩ := (State.zeroAs_works s opened a n (Works.refl 0 s)).same
  exact ⟨hstk, hfab⟩

theorem State.leaveTest_stackWork (s : State) (k : Nat) (was : Nat → Bool) : StackWork k s (s.leaveTest k was) := by
  obtain ⟨hstk, hfab⟩ := s.zeroAs_stk was (stackBase + k * stackSize) stackSize
  refine ⟨s.leaveTest_loses k was, ?_, fun j hj => ?_⟩ <;> rw [State.leaveTest]
  · rw [State.modStack_fab, hfab]
  · rw [State.stack_modStack, if_neg hj, State.stack, hstk, State.stack]

theorem StackWork.of_exceptTree {k : Nat} {s t : State} (h : t.exceptTree = s.exceptTree) : StackWork k s t := by
  have hregs : t.regs = s.regs := (congrArg State.regs h :)
  have hmem : t.mem = s.mem := (congrArg State.mem h :)
  have hstk : t.stk = s.stk := (congrArg State.stk h :)
  refine ⟨⟨(congrArg State.exceptLost h :), hregs ▸ RegFile.agree_refl _, fun hb => hmem ▸ hb⟩,
    (congrArg State.fab h :), fun j _ => ?_⟩
  rw [State.stack, hstk]; rfl

theorem State.setState_stackWork (s : State) (k u : Nat) (st : NodeState) : StackWork k s (s.setState u st) :=
  StackWork.of_exceptTree (s.setState_exceptTree u st)

theorem State.setState_stk (s : State) (u : Nat) (st : NodeState) : (s.setState u st).stk = s.stk :=
  (congrArg State.stk (s.setState_exceptTree u st) :)

theorem State.setState_mem (s : State) (u : Nat) (st : NodeState) : (s.setState u st).mem = s.mem :=
  (congrArg State.mem (s.setState_exceptTree u st) :)

/-- A unit's state after it is set. -/
theorem State.setState_unit (s : State) (u v : Nat) (st : NodeState) :
    ((s.setState u st).unit v).state = if v = u then st else (s.unit v).state := by
  unfold State.setState
  extract_lets old t
  have ht : (t.unit v).state = if v = u then st else (s.unit v).state := by
    rw [State.unit, State.sig_tree, ← State.unit, State.unit_modUnit]
    split <;> rfl
  split
  next he =>
    split
    next hv => rw [hv]; exact he
    next => rfl
  split
  · rw [State.treeChanged, State.unit, State.event_tree]
    exact ht
  · exact ht

theorem State.commitClamp_stackWork (s : State) (k : Nat) (bad : Bool) {off : Nat} (hi lo v : Nat) (h : off ∈ flipRegs) :
    StackWork k s (s.commitClamp bad off 0 hi lo v) := by
  have hsame := s.commitClamp_regsOnly bad off 0 hi lo v
  have hregs := s.commitClamp_regs bad off 0 hi lo v
  generalize s.commitClamp bad off 0 hi lo v = t at *
  have hagree : s.regs.agree t.regs := by
    rw [hregs]
    split
    · have hj := s.regs.judges_setEff off (s.regs.eff off 0 - bits (s.regs.eff off 0) hi lo * 2 ^ lo + v * 2 ^ lo)
      exact ⟨hj.only.1, fun o i ho hlt => hj.only.2 o i hlt fun e => ho ((Prod.mk.inj e).1 ▸ h)⟩
    · exact RegFile.agree_refl _
  refine ⟨⟨?_, hagree, fun hb => ?_⟩, ?_, fun j _ => ?_⟩ <;> rw [hsame]
  · rfl
  · exact hb
  · rfl
  · rfl

/-! ### TEST state at a COMMIT (R383, R384, R386) -/

theorem State.followMode_stackWork (s : State) (k : Nat) (old : RegFile) : StackWork k s (s.followMode k old) := by
  unfold State.followMode
  split
  · exact (s.leaveTest_stackWork k _).trans (State.setState_stackWork _ _ _ _)
  · exact s.modStack_stackWork k _
  · exact ((s.drained_stackWork k _).trans (State.modStack_stackWork _ k _)).trans (State.setState_stackWork _ _ _ _)
  all_goals exact StackWork.refl k s

theorem State.followMode_leaves {s : State} {k : Nat} (old : RegFile) (hm : (s.stack k).mode = .test)
    (hb : bit (s.regs.eff (regStkCtl k) 0) 24 = false) : ((s.followMode k old).stack k).mode = .run := by
  rw [State.followMode, hm, hb, State.stack, State.setState_stk, ← State.stack, State.leaveTest, State.stack_modStack, if_pos rfl]

/-- A stack that is not in TEST state stays as it is where STATE does not ask a stack in RUN for TEST. -/
theorem State.followMode_stays {s : State} {k : Nat} (old : RegFile) (hm : (s.stack k).mode ≠ .test)
    (hr : (s.stack k).mode = .run → bit (s.regs.eff (regStkCtl k) 0) 24 = false) : s.followMode k old = s := by
  cases h : (s.stack k).mode with
  | test => exact absurd h hm
  | run => rw [State.followMode, h, hr h]
  | training | failed => rw [State.followMode, h]

/-- A stack that enters TEST state, or stays in it, takes the data rate of BIN; no byte of memory changes. -/
theorem State.followMode_tests {s : State} {k : Nat} (old : RegFile) (hb : bit (s.regs.eff (regStkCtl k) 0) 24 = true)
    (hm : (s.stack k).mode = .run ∨ (s.stack k).mode = .test) :
    ((s.followMode k old).stack k).mode = .test ∧
    ((s.followMode k old).stack k).bin = bits (s.regs.eff (regStkCtl k) 0) 27 26 ∧
    ((s.stack k).mode = .run → ((s.followMode k old).unit (stackNode k)).state = .fenced) ∧
    (s.followMode k old).mem.cells = s.mem.cells := by
  rcases hm with h | h
  · rw [State.followMode, h, hb]
    refine ⟨?_, ?_, fun _ => (State.setState_unit _ _ _ _).trans (if_pos rfl), ?cells⟩
    case cells => rw [State.setState_mem]; rfl
    all_goals rw [State.stack, State.setState_stk, ← State.stack, State.stack_modStack, if_pos rfl]
  · rw [State.followMode, h, hb]
    refine ⟨?_, ?_, fun hr => absurd hr (by decide), rfl⟩ <;> rw [State.stack_modStack, if_pos rfl]
    exact h

theorem State.startConversion_stackWork (s : State) {k : Nat} (hk : k < 8) (old : RegFile) :
    StackWork k s (s.startConversion k old) := by
  unfold State.startConversion
  extract_lets ch a b
  have ha : StackWork k s a := by
    simp only [a]
    split
    · exact StackWork.refl k s
    · exact s.modStack_stackWork k _
  exact ha.trans (a.commitClamp_stackWork k _ _ _ _ (regInjCtl_mem (List.mem_range.mpr hk)))

/-- It changes of the stack's state what is being converted, and neither memory nor the tree. -/
theorem State.startConversion_spec (s : State) (k : Nat) (old : RegFile) :
    (∃ c, (s.startConversion k old).stack k = { s.stack k with converting := c }) ∧
    (s.startConversion k old).mem = s.mem ∧ (s.startConversion k old).tree = s.tree := by
  unfold State.startConversion
  extract_lets ch a b
  have ha : (∃ c, a.stack k = { s.stack k with converting := c }) ∧ a.mem = s.mem ∧ a.tree = s.tree := by
    simp only [a]
    split
    · exact ⟨⟨_, rfl⟩, rfl, rfl⟩
    · exact ⟨⟨ch, (s.stack_modStack k k _).trans (if_pos rfl)⟩, rfl, rfl⟩
  rw [a.commitClamp_regsOnly _ (regInjCtl k) 0 17 17 0]
  exact ha

end Sys2Proof.Machine
end

section
/-! PROOFS. STK_COMMIT and COMMIT_POINT (R373, R383, R384, R393, R813, R816, R819). -/

namespace Sys2Proof.Machine

/-! ### STK_COMMIT -/

theorem execStkCommit_taken {s : State} (hw : s.takesWrites = true) {k : Nat} (hk : k < 8) :
    exec (.stkCommit k) s = .next (s.stkCommit k) :=
  congrArg Host.Outcome.next ((State.onWrite_taken hw _).trans (if_pos hk))

/-- A stack in RUN whose capture asks for TEST is marked as entering it. -/
def State.markEntering (s : State) (k : Nat) (vals : List (Nat × Word32)) : State :=
  if wantsTest k vals && (s.stack k).mode == .run then s.modStack k (fun x => { x with enteringTest := true }) else s

theorem State.stkCommit_eq (s : State) (k : Nat) : s.stkCommit k =
    (s.markEntering k (s.regs.capture (16 + k))).commitWrite (16 + k)
      ((s.markEntering k (s.regs.capture (16 + k))).stkWaits k (s.regs.capture (16 + k)))
      (fun s old => s.legalStk k old) := rfl

theorem State.markEntering_same (s : State) (k : Nat) (vals : List (Nat × Word32)) :
    s.markEntering k vals = { s with stk := (s.markEntering k vals).stk } := by
  unfold State.markEntering; split <;> rfl

theorem State.markEntering_regs (s : State) (k : Nat) (vals : List (Nat × Word32)) : (s.markEntering k vals).regs = s.regs := by
  rw [State.markEntering_same]

theorem State.markEntering_stack (s : State) (k : Nat) (vals : List (Nat × Word32)) (j : Nat) :
    (s.markEntering k vals).stack j = { s.stack j with enteringTest := (s.stack j).enteringTest ||
      (j == k && wantsTest k vals && (s.stack j).mode == .run) } := by
  unfold State.markEntering
  by_cases hj : j = k
  · subst hj
    rw [beq_self_eq_true, Bool.true_and]
    cases wantsTest j vals && (s.stack j).mode == .run with
    | true => rw [if_pos rfl, State.stack_modStack, if_pos rfl, Bool.or_true]
    | false => rw [if_neg Bool.false_ne_true, Bool.or_false]
  · rw [beq_false_of_ne hj, Bool.false_and, Bool.false_and, Bool.or_false]
    split
    · rw [State.stack_modStack, if_neg hj]
    · rfl

/-- Whether a capture waits does not depend on the mark. -/
theorem State.markEntering_stkWaits (s : State) (k : Nat) (vals vals' : List (Nat × Word32)) :
    (s.markEntering k vals).stkWaits k vals' = s.stkWaits k vals' := by
  simp only [State.stkWaits, State.retrains, StackState.retraining, State.markEntering_stack]

theorem State.stkCommit_waits {s : State} {k : Nat}
    (h : s.stkWaits k (s.regs.capture (16 + k)) = true ∨ ¬ s.noneWaits (16 + k)) :
    s.stkCommit k = (s.markEntering k (s.regs.capture (16 + k))).keepCapture (16 + k) (s.regs.capture (16 + k)) := by
  have hn : (s.markEntering k (s.regs.capture (16 + k))).noneWaits (16 + k) = s.noneWaits (16 + k) := by
    rw [State.noneWaits, State.markEntering_regs, State.noneWaits]
  rw [State.stkCommit_eq, State.markEntering_stkWaits, State.commitWrite_waits _ (hn ▸ h), State.markEntering_regs]

/-- A COMMIT that need not wait does not ask a stack in RUN for TEST state. -/
theorem State.stkWaits_run {s : State} {k : Nat} {vals : List (Nat × Word32)} (h : s.stkWaits k vals = false)
    (hm : (s.stack k).mode = .run) : wantsTest k vals = false := by
  simp only [State.stkWaits, State.retrains, Bool.or_eq_false_iff] at h
  obtain ⟨⟨-, hr⟩, -⟩ := h
  rw [hm] at hr
  simpa using hr

theorem State.stkCommit_acts {s : State} {k : Nat} (hw : s.stkWaits k (s.regs.capture (16 + k)) = false)
    (hn : s.noneWaits (16 + k)) :
    s.stkCommit k = (s.applyVals (s.regs.capture (16 + k))).legalStk k s.regs := by
  have hc : (wantsTest k (s.regs.capture (16 + k)) && (s.stack k).mode == .run) = false := by
    by_cases hm : (s.stack k).mode = .run
    · rw [State.stkWaits_run hw hm, Bool.false_and]
    · rw [beq_false_of_ne hm, Bool.and_false]
  have hmark : s.markEntering k (s.regs.capture (16 + k)) = s := by
    rw [State.markEntering, hc, if_neg Bool.false_ne_true]
  rw [State.stkCommit_eq, hmark, hw, State.commitWrite_acts _ hn]

/-! ### COMMIT_POINT -/

theorem State.takeCapture_none {s : State} {b : Nat} (h : s.noneWaits b) : s.takeCapture b = none := by
  have hf : s.regs.captures.find? (fun c => c.block == b) = none :=
    List.find?_eq_none.mpr fun c hc => by simpa using h c hc
  rw [State.takeCapture, hf]

theorem State.takeCapture_some {s : State} {b : Nat} {c : Capture}
    (h : s.regs.captures.find? (fun c => c.block == b) = some c) :
    s.takeCapture b = some (c.vals, { s with regs := { s.regs with captures := s.regs.captures.erase c } }) := by
  rw [State.takeCapture, h]

theorem State.commitOldest_none {s : State} {b : Nat} (h : s.noneWaits b) (legal : State → RegFile → State) :
    s.commitOldest b legal = s := by
  rw [State.commitOldest, State.takeCapture_none h]

/-- A block other than the power block that has no capture waiting does nothing at its commit point. -/
theorem State.commitPoint_none {s : State} {b : Nat} (h : s.noneWaits b) (h5 : b ≠ 5) : s.commitPoint b = s := by
  by_cases h3 : b = 3
  · subst h3
    rw [State.commitPoint, if_pos rfl, State.commitOldest_none h, ite_self]
  · rw [State.commitPoint, if_neg h3, if_neg h5, State.takeCapture_none h]
    exact ite_self s

theorem State.commitPoint_power (s : State) : s.commitPoint 5 = (s.commitOldest 5 State.legalPwr).judgePower := by
  rw [State.commitPoint, if_neg (by decide), if_pos rfl]

theorem State.tellCore_regs (s was : State) (d : Nat) : (State.tellCore was s d).regs = s.regs := by
  unfold State.tellCore
  split <;> rfl

theorem State.judgeSteps_regs (s : State) (d : Nat) : (s.judgeSteps d).regs = s.regs := by
  unfold State.judgeSteps
  extract_lets w t
  split
  · rfl
  · refine (foldl_same State.regs (fun u g => ?_) _ t).trans (State.tellCore_regs _ s d)
    split
    · rw [State.event_regs, State.count_regs]
    · rfl

theorem State.judgeLimiter_regs (s : State) : s.judgeLimiter.regs = s.regs := by
  unfold State.judgeLimiter
  extract_lets set late t
  split
  · rw [State.platform_regs, State.event_regs]; rfl
  · rfl

theorem State.judgePower_regs (s : State) : s.judgePower.regs = s.regs := by
  rw [State.judgePower, State.judgeLimiter_regs, State.judgeSteps_regs, State.judgeSteps_regs]

/-- What the power block judges: CAP and REL_FLOOR of PWR_CTL and the two voltages of PERF_CTL become the nearer of their bounds
(Table 20.9). -/
theorem State.legalPwr_spec (s : State) (old : RegFile) :
    (∃ m, s.regs.Judges m regPwrCtl ∧ m.Judges (s.legalPwr old).regs regPerfCtl) ∧
    bits ((s.legalPwr old).regs.eff regPwrCtl 0) 27 16 = max 600 (min 2400 (bits (s.regs.eff regPwrCtl 0) 27 16)) ∧
    bits ((s.legalPwr old).regs.eff regPwrCtl 0) 13 8 = max vMin (min vMax (bits (s.regs.eff regPwrCtl 0) 13 8)) ∧
    bits ((s.legalPwr old).regs.eff regPwrCtl 0) 0 0 = bits (s.regs.eff regPwrCtl 0) 0 0 ∧
    bits ((s.legalPwr old).regs.eff regPerfCtl 0) 13 8 = max vMin (min vMax (bits (s.regs.eff regPerfCtl 0) 13 8)) ∧
    bits ((s.legalPwr old).regs.eff regPerfCtl 0) 5 0 = max vMin (min vMax (bits (s.regs.eff regPerfCtl 0) 5 0)) := by
  unfold State.legalPwr
  extract_lets b
  set a := s.commitBound regPwrCtl 0 27 16 600 2400
  set c := b.commitBound regPerfCtl 0 13 8 vMin vMax
  have hfa : s.regs.FieldSet a.regs regPwrCtl 27 16 _ := s.commitBound_field regPwrCtl (by decide) (by decide) (by decide)
  have hfb : a.regs.FieldSet b.regs regPwrCtl 13 8 _ := a.commitBound_field regPwrCtl (by decide) (by decide) (by decide)
  have hfc : b.regs.FieldSet c.regs regPerfCtl 13 8 _ := b.commitBound_field regPerfCtl (by decide) (by decide) (by decide)
  have hfd := c.commitBound_field regPerfCtl (hi := 5) (lo := 0) (least := vMin) (most := vMax) (by decide) (by decide) (by decide)
  have hpwr := hfa.judges.trans hfb.judges
  have hperf := hfc.judges.trans hfd.judges
  have he : b.regs.eff regPerfCtl 0 = s.regs.eff regPerfCtl 0 := hpwr.eff (by decide)
  rw [hperf.eff (show regPwrCtl ≠ regPerfCtl by decide)]
  refine ⟨⟨b.regs, hpwr, hperf⟩, ?_, ?_, ?_, ?_, ?_⟩
  · rw [hfb.other _ _ (by decide)]
    exact hfa.field
  · rw [hfb.field, hfa.other _ _ (by decide)]
  · rw [hfb.other _ _ (by decide), hfa.other _ _ (by decide)]
  · rw [hfd.other _ _ (by decide), ← he]
    exact hfc.field
  · rw [hfd.field, hfc.other _ _ (by decide), he]

theorem RegFile.Judges.shadow_eq {a b : RegFile} {off : Nat} (h : a.Judges b off) (o : Nat) {i : Nat} (hi : i < 65536) :
    b.shadow o i = a.shadow o i := by
  by_cases he : (o, i) = (off, 0)
  · obtain ⟨rfl, rfl⟩ := Prod.mk.inj he
    exact h.shadow
  · rw [RegFile.shadow, h.only.2 o i hi he]; rfl

/-- A captured field, of a capture that names each register once, gives the shadowed bits of its register. -/
theorem RegFile.bits_apply (r : RegFile) {vals : List (Nat × Word32)} (hn : (vals.map Prod.fst).Nodup) {o : Nat} {v : Word32}
    (hv : (regKey o 0, v) ∈ vals) {row : RegRow} (hr : regRow o = some row) {hi lo : Nat}
    (hmask : ∀ i, lo ≤ i → i ≤ hi → (BitVec.ofNat 32 row.sh).getLsbD i = true) :
    bits ((r.apply vals).eff o 0) hi lo = bits v.toNat hi lo := by
  have hone : ∀ kv ∈ vals, kv.1 = regKey o 0 → kv.2 = v := fun kv hm e =>
    congrArg Prod.snd (List.inj_on_of_nodup_map hn hm hv e)
  rw [RegFile.eff, RegFile.get_apply (by decide) hr v vals r hone (.inl ⟨_, hv, rfl⟩)]
  exact bits_mergeBits _ _ hmask

/-! ### The statement -/

theorem State.commitPoint_oldest {s : State} {c : Capture} {rest : List Capture} (hc : s.regs.captures = c :: rest)
    (hb : c.block = 5) : s.commitPoint 5 =
      ((({ s with regs := { s.regs with captures := rest } } : State).applyVals c.vals).legalPwr s.regs).judgePower := by
  have hf : s.regs.captures.find? (fun c => c.block == 5) = some c := by rw [hc, List.find?_cons_of_pos (by simpa using hb)]
  rw [State.commitPoint_power, State.commitOldest, State.takeCapture_some hf, hc, List.erase_cons_head]

/-- What an immediate STK_COMMIT leaves of the state outside its registers, memory and the tree. -/
theorem StackWork.frame {k : Nat} {s j t : State} {r : RegFile} (h : StackWork k j t) (hj : ({ s with regs := r } : State).RegsOnly j) :
    (∀ i, i ≠ k → t.stack i = s.stack i) ∧ t.host.slots = s.host.slots ∧ t.cells = s.cells ∧ t.fab = s.fab ∧
    t.time = s.time ∧ t.pwr = s.pwr ∧ t.res = { s.res with liveValid := t.res.liveValid } := by
  have hf := h.loses.frame
  have hothers := h.others
  have hfab := h.fab
  unfold State.RegsOnly at hj
  rw [hj] at hf hothers hfab
  exact ⟨hothers, (congrArg (fun x : State => x.host.slots) hf :), (congrArg State.cells hf :), hfab, (congrArg State.time hf :),
    (congrArg State.pwr hf :), (congrArg (fun x : State => { x.res with liveValid := t.res.liveValid }) hf :)⟩

/-- Settles O17: a COMMIT that waits is kept (`stkCommit_waits`); one that acts applies its shadows, judges STK_CTL and MARGIN_CTL
(`judgeStk_spec`), follows STATE (`followMode_leaves`, `followMode_stays`) and starts conversions; the power block's oldest capture is
applied and judged (`legalPwr_spec`). -/
theorem stackCommitsWaitInOrder : Obligations.StackCommitsWaitInOrder := by
  refine fun s => ⟨fun k hk hw => ⟨fun h => ?waits, fun hwait hn => ?acts⟩, fun b hn => ?none, fun c rest hc hb hnd => ?oldest⟩
  case waits =>
    refine ⟨_, execStkCommit_taken hw hk, ?_, fun j => ?_⟩ <;> rw [State.stkCommit_waits h]
    · rw [State.markEntering_same]; rfl
    · exact s.markEntering_stack k _ j
  case acts =>
    have hrun := execStkCommit_taken hw hk
    rw [State.stkCommit_acts hwait hn, State.legalStk_eq] at hrun
    obtain ⟨hblk, hflip, -⟩ := regStkCtl_spec k hk
    obtain ⟨hmblk, hmflip⟩ := regMarginCtl_spec k hk
    have hcom := s.regs.committed_apply (16 + k)
    obtain ⟨honly, ⟨m, hjs, hjm⟩, hbit, hbin, hwid, hlow, hmar⟩ :=
      (s.applyVals (s.regs.capture (16 + k))).judgeStk_spec k s.regs
    have hdue : ∀ o, blockOf o = some (16 + k) → (s.applyVals (s.regs.capture (16 + k))).regs.eff o 0 = s.regs.due o 0 :=
      fun o ho => (hcom.2 o 0 (by decide)).2.1 ho List.not_mem_nil
    rw [hdue _ hblk] at hbit hbin hwid hlow
    rw [hdue _ hmblk] at hmar
    have hruns : (s.stack k).mode = .run → bit (s.regs.due (regStkCtl k) 0) 24 = false := fun h =>
      (s.regs.wantsTest_capture hk).symm.trans (State.stkWaits_run hwait h)
    generalize (s.applyVals (s.regs.capture (16 + k))).judgeStk k s.regs = j at *
    have hstk : j.stack k = s.stack k := by
      unfold State.RegsOnly at honly
      rw [honly]; rfl
    have hwork := (j.followMode_stackWork k s.regs).trans (State.startConversion_stackWork _ hk s.regs)
    obtain ⟨⟨cv, hconv⟩, -, -⟩ := (j.followMode k s.regs).startConversion_spec k s.regs
    have hmode := congrArg StackState.mode hconv
    have heff : ∀ o, o ∉ flipRegs → _ := fun o ho => RegFile.agree_eff hwork.loses.regs ho
    refine ⟨_, j.regs, hrun, ?_, hwork.loses.regs, fun ht hb => ?_, fun ht => ?_, fun hb => ?_, ?_, ?_, ?_, hwork.frame honly⟩
    · have hfirst := RegFile.committed_then_judges (RegFile.committed_mono hcom [regStkCtl k, regMarginCtl k, regInjCtl k]) hjs hblk
        (by simp)
      exact RegFile.committed_then_judges hfirst hjm hmblk (by simp)
    · exact hmode.trans (State.followMode_leaves s.regs (hstk ▸ ht) (hbit.trans hb))
    · refine hmode.trans ?_
      rw [State.followMode_stays s.regs (hstk ▸ ht) fun h => hbit.trans (hruns (hstk ▸ h)), hstk]
    · rw [heff _ hflip, hbin hb]
    · rw [heff _ hflip, hwid]
    · rw [heff _ hflip, hlow]
    · rw [heff _ hmflip, hmar]
  case none =>
    refine ⟨_, rfl, ?_, fun h5 => State.commitPoint_none hn h5⟩
    by_cases h5 : b = 5
    · rw [h5, State.commitPoint_power, State.judgePower_regs, State.commitOldest_none (h5 ▸ hn)]
    · rw [State.commitPoint_none hn h5]
  case oldest =>
    refine ⟨_, congrArg Host.Outcome.next (State.commitPoint_oldest hc hb), ?_⟩
    rw [State.judgePower_regs]
    obtain ⟨⟨m, hpwr, hperf⟩, hcap, hv, hen, hhigh, hlow⟩ := State.legalPwr_spec
      (({ s with regs := { s.regs with captures := rest } } : State).applyVals c.vals) s.regs
    rw [hcap, hv, hen, hhigh, hlow]
    have hrowp : regRow regPwrCtl = some (.shadowed regPwrCtl 0x0FFF3F01 0x09601400) := by decide +kernel
    have hrowf : regRow regPerfCtl = some (.shadowed regPerfCtl 0x3F3F 0x1414) := by decide +kernel
    refine ⟨?_, fun o i hi => ?_, fun v hm => ?_, fun v hm => ?_⟩
    · exact hperf.only.1.trans (hpwr.only.1.trans (RegFile.apply_captures _ _))
    · exact (hperf.shadow_eq o hi).trans ((hpwr.shadow_eq o hi).trans (RegFile.shadow_apply hi _ _))
    · have hfield := fun hi lo => RegFile.bits_apply { s.regs with captures := rest } hnd hm hrowp (hi := hi) (lo := lo)
      refine ⟨?_, ?_, ?_⟩
      · exact congrArg (fun x => max 600 (min 2400 x)) (hfield 27 16 (by decide))
      · exact congrArg (fun x => max vMin (min vMax x)) (hfield 13 8 (by decide))
      · exact hfield 0 0 (by decide)
    · have hfield := fun hi lo => RegFile.bits_apply { s.regs with captures := rest } hnd hm hrowf (hi := hi) (lo := lo)
      exact ⟨congrArg (fun x => max vMin (min vMax x)) (hfield 13 8 (by decide)),
        congrArg (fun x => max vMin (min vMax x)) (hfield 5 0 (by decide))⟩

end Sys2Proof.Machine
end

section
/-! PROOFS. TEST_ENTRY and margin tests of stacks (R381, R383 to R386, R813, R819). -/

namespace Sys2Proof.Machine

/-! ### A stack that fails (R381) -/

theorem State.enterHold_tree (s : State) (cause : Nat) (waited : Option Nat) : (s.enterHold cause waited).tree = s.tree := by
  unfold State.enterHold
  split
  · rfl
  · rw [State.platform_tree, State.event_tree, State.count_tree]

theorem State.enterHold_stk (s : State) (cause : Nat) (waited : Option Nat) : (s.enterHold cause waited).stk = s.stk := by
  obtain ⟨-, -, hstk, -⟩ := (State.enterHold_works s cause waited (Works.refl 0 s)).same
  exact hstk

/-- Setting units to one state sets each of them, and changes no stack. -/
theorem State.setState_foldl (st : NodeState) (us : List Nat) : ∀ s : State,
    (us.foldl (fun s u => s.setState u st) s).stk = s.stk ∧
    ∀ v, ((us.foldl (fun s u => s.setState u st) s).unit v).state = if v ∈ us then st else (s.unit v).state := by
  induction us with
  | nil => exact fun s => ⟨rfl, fun v => rfl⟩
  | cons u us ih =>
    intro s
    obtain ⟨hstk, hunit⟩ := ih (s.setState u st)
    refine ⟨hstk.trans (s.setState_stk u st), fun v => (hunit v).trans ?_⟩
    rw [State.setState_unit]
    by_cases h1 : v ∈ us
    · rw [if_pos h1, if_pos (List.mem_cons_of_mem _ h1)]
    · by_cases h2 : v = u
      · rw [if_neg h1, if_pos h2, if_pos (by rw [h2]; exact List.mem_cons_self)]
      · rw [if_neg h1, if_neg h2, if_neg (by simp [h1, h2])]

/-- The stack and its node and engines, marked as failed, with the event (R381). -/
def State.markFailed (s : State) (k : Nat) : State :=
  ((rangeFrom (stackNode k) spanStack).foldl (fun s u => s.setState u .failed)
    (s.modStack k (fun x => { x with mode := .failed, trained := false, enteringTest := false }))).event 0x0304 k true

theorem State.failStack_eq {s : State} {k : Nat} (h : (s.stack k).mode ≠ .failed) : s.failStack k =
    if (s.markFailed k).readLists.holdsState k then (s.markFailed k).readLists.enterHold 6 none else (s.markFailed k).readLists := by
  unfold State.failStack State.markFailed
  exact if_neg h

theorem State.markFailed_spec (s : State) (k : Nat) :
    (∀ j, (s.markFailed k).stack j = if j = k then { s.stack k with mode := .failed, trained := false, enteringTest := false }
      else s.stack j) ∧ ((s.markFailed k).unit (stackNode k)).state = .failed := by
  have hnode : stackNode k ∈ rangeFrom (stackNode k) spanStack :=
    List.mem_map.mpr ⟨0, List.mem_range.mpr (by decide), Nat.add_zero _⟩
  unfold State.markFailed
  generalize rangeFrom (stackNode k) spanStack = us at *
  obtain ⟨hstk, hunit⟩ := State.setState_foldl .failed us
    (s.modStack k (fun x => { x with mode := .failed, trained := false, enteringTest := false }))
  refine ⟨fun j => ?_, ?_⟩
  · rw [State.stack, State.event_stk, hstk]
    exact s.stack_modStack k j _
  · rw [State.unit, State.event_tree, ← State.unit, hunit, if_pos hnode]

theorem same_of_exceptBytes {s t : State} (h : t.exceptBytes = s.exceptBytes) : t.stk = s.stk ∧ t.tree = s.tree :=
  ⟨(congrArg State.stk h :), (congrArg State.tree h :)⟩

/-- Entering HOLD, or not, changes no stack and no unit. -/
theorem State.mayHold_stk_tree {s t : State} {p : Prop} [Decidable p] {cause : Nat} {waited : Option Nat}
    (h : t = if p then s.enterHold cause waited else s) : t.stk = s.stk ∧ t.tree = s.tree := by
  subst h
  split
  · exact ⟨s.enterHold_stk _ _, s.enterHold_tree _ _⟩
  · exact ⟨rfl, rfl⟩

/-- A stack that has not failed yet is FAILED then, and its node Failed; other stacks stay. -/
theorem State.failStack_spec {s : State} {k : Nat} (h : (s.stack k).mode ≠ .failed) :
    ((s.failStack k).stack k).mode = .failed ∧ ((s.failStack k).unit (stackNode k)).state = .failed ∧
    (∀ j, j ≠ k → (s.failStack k).stack j = s.stack j) := by
  obtain ⟨hhold, hholdt⟩ := State.mayHold_stk_tree (State.failStack_eq h)
  obtain ⟨hread, hreadt⟩ := same_of_exceptBytes (s.markFailed k).readLists_exceptBytes
  have hstk := hhold.trans hread
  have htree := hholdt.trans hreadt
  obtain ⟨hstack, hunit⟩ := s.markFailed_spec k
  have hsame : ∀ j, (s.failStack k).stack j = (s.markFailed k).stack j := fun j => by rw [State.stack, hstk, State.stack]
  refine ⟨?_, ?_, fun j hj => ?_⟩
  · rw [hsame, hstack, if_pos rfl]
  · rw [State.unit, htree]
    exact hunit
  · rw [hsame, hstack, if_neg hj]

/-! ### TEST_ENTRY -/

/-- A waiting capture taken out. -/
def State.dropCapture (s : State) (c : Capture) : State :=
  { s with regs := { s.regs with captures := s.regs.captures.erase c } }

/-- The captured fields of c take effect at stack k. -/
def State.takeEffect (s : State) (k : Nat) (c : Capture) : State :=
  ((s.dropCapture c).applyVals c.vals).legalStk k (s.dropCapture c).regs

/-- In t the stack trains again, and what waited in s still waits (R384). -/
def State.trainAgain (s t : State) (k : Nat) : State :=
  ({ t with regs := { t.regs with captures := s.regs.captures } } : State).modStack k (fun x => { x with mode := .training })

theorem State.testEntry_idle {s : State} {k : Nat} (h : s.noneWaits (16 + k) ∨ s.engineWork k = true) (lanes : Option Nat) :
    s.testEntry k lanes = s := by
  unfold State.testEntry
  split
  · rfl
  next vals s' he =>
    rcases h with h | h
    · rw [State.takeCapture_none h] at he
      exact absurd he (by simp)
    · rw [h, Bool.or_true, if_pos rfl]

section
variable {s : State} {k : Nat} {c : Capture}

/-- A capture that waits is looked at where the stack exists, has power and no work of its engines. -/
theorem State.testEntry_capture (hk : k < 8) (hc : s.regs.captures.find? (fun c => c.block == 16 + k) = some c)
    (hp : s.powered = true) (he : s.engineWork k = false) (lanes : Option Nat) : s.testEntry k lanes =
      if (s.stack k).retraining then (s.dropCapture c).retrained k lanes
      else if s.retrains k c.vals && (s.stack k).converting = [] && (s.stack k).margin.isNone then
        (if ((s.takeEffect k c).stack k).bin = (s.stack k).bin then s.takeEffect k c else s.trainAgain (s.takeEffect k c) k)
      else s := by
  have hg : (!(decide (k < 8) && s.powered) || s.engineWork k) = false := by
    rw [hp, he, decide_eq_true hk]; rfl
  unfold State.testEntry
  rw [State.takeCapture_some hc]
  dsimp only
  rw [hg, if_neg Bool.false_ne_true]
  rfl

theorem State.testEntry_retrained (hk : k < 8) (hc : s.regs.captures.find? (fun c => c.block == 16 + k) = some c)
    (hp : s.powered = true) (he : s.engineWork k = false) (hr : (s.stack k).retraining = true) (lanes : Option Nat) :
    s.testEntry k lanes = (s.dropCapture c).retrained k lanes := by
  rw [State.testEntry_capture hk hc hp he, if_pos hr]

theorem State.testEntry_enters (hk : k < 8) (hc : s.regs.captures.find? (fun c => c.block == 16 + k) = some c)
    (hp : s.powered = true) (he : s.engineWork k = false) (hr : (s.stack k).retraining = false) (hw : s.retrains k c.vals = true)
    (hcv : (s.stack k).converting = []) (hm : (s.stack k).margin = none) (lanes : Option Nat) : s.testEntry k lanes =
      if ((s.takeEffect k c).stack k).bin = (s.stack k).bin then s.takeEffect k c else s.trainAgain (s.takeEffect k c) k := by
  have hgo : (s.retrains k c.vals && (s.stack k).converting = [] && (s.stack k).margin.isNone) = true := by
    rw [hw, hcv, hm]; rfl
  rw [State.testEntry_capture hk hc hp he, hr, if_neg Bool.false_ne_true, if_pos hgo]

end

theorem State.trainAgain_stack (s t : State) (k j : Nat) :
    (s.trainAgain t k).stack j = if j = k then { t.stack k with mode := .training } else t.stack j :=
  State.stack_modStack _ k j _

/-- Retraining that ended leaves the stack in TEST state with the lanes it repaired, or FAILED (R384). -/
theorem State.retrained_lanes (s : State) (k n : Nat) :
    s.retrained k (some n) = s.modStack k (fun x => { x with mode := .test, lanesRepaired := min n 255 }) := rfl

theorem State.retrained_fails (s : State) (k : Nat) : s.retrained k none = s.failStack k := rfl

/-- The captured fields of a COMMIT that asks for TEST take effect. -/
theorem State.legalStk_tests {a : State} {k : Nat} (hk : k < 8) (old : RegFile)
    (hb : bit (a.regs.eff (regStkCtl k) 0) 24 = true) (hm : (a.stack k).mode = .run ∨ (a.stack k).mode = .test) :
    ((a.legalStk k old).stack k).mode = .test ∧
    ((a.stack k).mode = .run → ((a.legalStk k old).unit (stackNode k)).state = .fenced) ∧
    ((a.legalStk k old).stack k).bin = bits ((a.legalStk k old).regs.eff (regStkCtl k) 0) 27 26 ∧
    (a.legalStk k old).regs.captures = a.regs.captures ∧ (∀ j, j ≠ k → (a.legalStk k old).stack j = a.stack j) ∧
    (a.legalStk k old).host.slots = a.host.slots ∧ (a.legalStk k old).time = a.time ∧
    (a.legalStk k old).mem.cells = a.mem.cells := by
  obtain ⟨honly, ⟨m, hjs, hjm⟩, hbit, -⟩ := a.judgeStk_spec k old
  rw [State.legalStk_eq]
  generalize a.judgeStk k old = j at *
  have hsame : j.stack k = a.stack k ∧ j.mem = a.mem := by
    unfold State.RegsOnly at honly
    rw [honly]; exact ⟨rfl, rfl⟩
  obtain ⟨hmode, hbin, hfence, hcells⟩ := State.followMode_tests old (hbit.trans hb) (hsame.1 ▸ hm)
  have hwork := (j.followMode_stackWork k old).trans (State.startConversion_stackWork _ hk old)
  obtain ⟨⟨cv, hconv⟩, hmem, htree⟩ := (j.followMode k old).startConversion_spec k old
  obtain ⟨hothers, hslots, -, -, htime, -⟩ := hwork.frame honly
  have heff := RegFile.agree_eff hwork.loses.regs (regStkCtl_spec k hk).2.1
  refine ⟨(congrArg StackState.mode hconv).trans hmode, fun hr => ?_, ?_, ?_, hothers, hslots, htime, ?_⟩
  · rw [State.unit, htree]
    exact hfence (hsame.1 ▸ hr)
  · rw [heff]
    exact (congrArg StackState.bin hconv).trans hbin
  · exact hwork.loses.regs.1.trans (hjm.only.1.trans hjs.only.1)
  · rw [hmem, hcells, hsame.2]

/-- A stack enters TEST state, or in TEST state trains again at another data rate, only where its capture asks so. -/
theorem State.retrains_of {s : State} {k : Nat} {vals : List (Nat × Word32)} (hw : wantsTest k vals = true)
    (hm : (s.stack k).mode = .run ∨ (s.stack k).mode = .test ∧ wantsBin k vals ≠ (s.stack k).bin) :
    s.retrains k vals = true ∧ (s.stack k).retraining = false := by
  rcases hm with h | ⟨h, hbin⟩
  · simp [State.retrains, StackState.retraining, hw, h]
  · simp [State.retrains, StackState.retraining, hw, h, hbin]

/-! ### Margin tests (R385) -/

theorem State.marginStart_not {s : State} {k : Nat} (h : (s.stack k).mode ≠ .test ∨ (s.stack k).margin ≠ none) :
    s.marginStart k = s := by
  have hc : ¬ (decide (k < 8) && (s.stack k).mode == .test && (s.stack k).margin.isNone) = true := by
    rw [Bool.and_eq_true, Bool.and_eq_true, beq_iff_eq, Option.isNone_iff_eq_none]
    rintro ⟨⟨-, hm⟩, hn⟩
    exact h.elim (fun h => h hm) (fun h => h hn)
  rw [State.marginStart, if_neg hc]

/-- All four stacks of the die are in TEST state. -/
def State.dieInTest (s : State) (k : Nat) : Bool := (List.range 4).all (fun t => (s.stack (k / 4 * 4 + t)).mode == .test)

theorem State.dieInTest_iff (s : State) (k : Nat) : s.dieInTest k = true ↔ ∀ j < 4, (s.stack (k / 4 * 4 + j)).mode = .test := by
  simp only [State.dieInTest, List.all_eq_true, List.mem_range, beq_iff_eq]

/-- The margin test that MARGIN_CTL asks for: kind, offset, scope and duration. -/
def marginOf (c : Nat) : Nat × Int × Option Nat × Nat :=
  (bits c 29 28, marginBound (bits c 29 28) (sext 8 (bits c 23 16)), if bit c 14 then none else some (bits c 13 8), max 1 (c % 256))

theorem State.marginStart_eq {s : State} {k : Nat} (hk : k < 8) (hm : (s.stack k).mode = .test) (hn : (s.stack k).margin = none) :
    s.marginStart k =
      if bits (s.regs.eff (regMarginCtl k) 0) 29 28 = 3 && !s.dieInTest k then
        s.modStack k (fun x => { x with marginResult := 2 ^ 31 + 0xFFFFFF })
      else if bits (s.regs.eff (regMarginCtl k) 0) 29 28 = 3 then
        (s.modStack k (fun x => { x with marginResult := 0, margin := some (marginOf (s.regs.eff (regMarginCtl k) 0)) })).emit
          (.setpoint (16 + k / 4) (wrap 8 (marginOf (s.regs.eff (regMarginCtl k) 0)).2.1))
      else s.modStack k (fun x => { x with marginResult := 0, margin := some (marginOf (s.regs.eff (regMarginCtl k) 0)) }) := by
  have hc : (decide (k < 8) && (s.stack k).mode == .test && (s.stack k).margin.isNone) = true := by
    rw [decide_eq_true hk, hm, hn]; rfl
  rw [State.marginStart, if_pos hc]
  rfl

theorem execMarginStart_taken {s : State} (hw : s.takesWrites = true) (k : Nat) :
    exec (.marginStart k) s = .next (s.marginStart k) := congrArg Host.Outcome.next (State.onWrite_taken hw _)

theorem execMarginTestDone_powered {s : State} (hp : s.powered = true) (k errors : Nat) :
    exec (.marginTestDone k errors) s = .next (s.marginDone k errors) := congrArg Host.Outcome.next (if_pos hp)

theorem execMarginTestDone_none {s : State} {k : Nat} (h : s.powered = false ∨ (s.stack k).margin = none) (errors : Nat) :
    exec (.marginTestDone k errors) s = .next s := by
  cases hp : s.powered with
  | false => exact congrArg Host.Outcome.next (if_neg (by rw [hp]; exact Bool.false_ne_true))
  | true =>
    have hn : (s.stack k).margin = none := h.resolve_left (by rw [hp]; decide)
    rw [execMarginTestDone_powered hp, State.marginDone, hn]

/-- The saturated count of a margin test's errors, with DONE, and PASS where there are none. -/
def marginResultOf (errors : Nat) : Nat := 2 ^ 31 + (if errors = 0 then 2 ^ 30 else 0) + min errors (2 ^ 24 - 1)

theorem marginResultOf_eq (errors : Nat) :
    2 ^ 31 + b2n (decide (sat 24 errors = 0)) * 2 ^ 30 + sat 24 errors = marginResultOf errors := by
  unfold marginResultOf sat b2n
  by_cases h : errors = 0
  · subst h; rfl
  · rw [if_neg h, if_neg (by rw [decide_eq_true_eq]; omega), Nat.zero_mul]

theorem State.marginDone_eq {s : State} {k kind : Nat} {off : Int} {pc : Option Nat} {n : Nat}
    (hm : (s.stack k).margin = some (kind, off, pc, n)) (errors : Nat) : s.marginDone k errors =
      if kind = 3 then
        (s.modStack k (fun x => { x with margin := none, marginResult := marginResultOf errors })).emit (.setpoint (16 + k / 4) 0)
      else s.modStack k (fun x => { x with margin := none, marginResult := marginResultOf errors }) := by
  rw [State.marginDone, hm]
  dsimp only
  rw [marginResultOf_eq]

/-- What a change of one stack, with or without an output, leaves. -/
theorem State.modStack_emit_spec (s : State) (k : Nat) (f : StackState → StackState) (o : Output) (p : Prop) [Decidable p] {t : State}
    (ht : t = if p then (s.modStack k f).emit o else s.modStack k f) :
    t = { s with stk := t.stk, out := t.out } ∧ t.stack k = f (s.stack k) ∧ (∀ j, j ≠ k → t.stack j = s.stack j) ∧
      t.out = s.out ++ (if p then [o] else []) := by
  have hk : (s.modStack k f).stack k = f (s.stack k) := (s.stack_modStack k k f).trans (if_pos rfl)
  have ho : ∀ j, j ≠ k → (s.modStack k f).stack j = s.stack j := fun j hj => (s.stack_modStack k j f).trans (if_neg hj)
  subst ht
  split
  · exact ⟨rfl, hk, ho, rfl⟩
  · exact ⟨rfl, hk, ho, (List.append_nil _).symm⟩

/-! ### The statement -/

theorem exec_testEntry (s : State) (k : Nat) (lanes : Option Nat) : exec (.testEntry k lanes) s = .next (s.testEntry k lanes) := rfl

/-- Settles O44: a capture that asks for TEST takes effect (`testEntry_capture`, `legalStk_tests`), one of a stack that trains again
is taken out (`retrained_lanes`, `failStack_spec`), and margin tests start and end as `marginStart_eq` and `marginDone_eq` say. -/
theorem stacksAreTested : Obligations.StacksAreTested := by
  refine fun s k hk => ⟨fun lanes => ⟨fun h => ?idle, fun c hc hw hp hm hcv hmg he hb => ?enters, fun c hc hp he hr => ?retrained⟩,
    fun hw c hcdef => ⟨fun h => ?noStart, fun hm hn => ⟨fun h3 hj => ?refused, fun h => ?starts⟩⟩,
    fun errors => ⟨fun h => execMarginTestDone_none h errors, fun kind off pc n hp hm => ?done⟩⟩
  case idle => rw [exec_testEntry, State.testEntry_idle h]
  case enters =>
    obtain ⟨hret, hnot⟩ := State.retrains_of hw hm
    obtain ⟨hmode, hfence, hbin, hcap, hothers, hslots, htime, hcells⟩ := State.legalStk_tests
      (a := (s.dropCapture c).applyVals c.vals) hk (s.dropCapture c).regs hb (hm.imp_right And.left)
    have hdrop : ((s.dropCapture c).applyVals c.vals).regs.captures = s.regs.captures.erase c := RegFile.apply_captures _ _
    refine ⟨_, exec_testEntry s k lanes, ?_⟩
    rw [State.testEntry_enters hk hc hp he hnot hret hcv hmg, State.takeEffect]
    generalize ((s.dropCapture c).applyVals c.vals).legalStk k (s.dropCapture c).regs = t at *
    have hbyte : ∀ x, t.byte x = s.byte x := fun x => congrArg (mget 0 · x) hcells
    split
    next hsame =>
      exact ⟨hfence, hbin, fun _ => ⟨hmode, hcap.trans hdrop⟩, fun h => absurd hsame h, hothers, hslots, htime, hbyte⟩
    next hdiff =>
      have hk' := (s.trainAgain_stack t k k).trans (if_pos rfl)
      have hsamebin : ((s.trainAgain t k).stack k).bin = (t.stack k).bin := by rw [hk']
      exact ⟨hfence, hsamebin.trans hbin, fun h => absurd (hsamebin.symm.trans h) hdiff, fun _ => ⟨congrArg StackState.mode hk', rfl⟩,
        fun j hj => ((s.trainAgain_stack t k j).trans (if_neg hj)).trans (hothers j hj), hslots, htime, hbyte⟩
  case retrained =>
    refine ⟨_, exec_testEntry s k lanes, ?_⟩
    rw [State.testEntry_retrained hk hc hp he hr]
    cases lanes with
    | some n =>
      rw [State.retrained_lanes]
      refine ⟨rfl, fun m hm => ?_, fun h => absurd h (by simp), fun j hj => ?_, rfl, rfl⟩
      · obtain rfl := Option.some.inj hm
        refine ⟨?_, ?_, fun _ => rfl⟩ <;> rw [State.stack_modStack, if_pos rfl]
      · rw [State.stack_modStack, if_neg hj]; rfl
    | none =>
      have hmode : ((s.dropCapture c).stack k).mode ≠ .failed := by
        have h : (s.stack k).mode = .training := by
          rw [StackState.retraining, Bool.and_eq_true, beq_iff_eq] at hr
          exact hr.1
        show (s.stack k).mode ≠ .failed
        rw [h]; decide
      obtain ⟨hfailed, hunit, hothers⟩ := State.failStack_spec hmode
      have hframe := (s.dropCapture c).failStack_exceptTraining k
      rw [State.retrained_fails]
      exact ⟨(congrArg (fun x : State => x.regs.captures) hframe :), fun n hn => absurd hn (by simp), fun _ => ⟨hfailed, hunit⟩,
        hothers, (congrArg (fun x : State => x.host.slots) hframe :), (congrArg State.time hframe :)⟩
  case noStart => rw [execMarginStart_taken hw, State.marginStart_not h]
  case refused =>
    have hd : s.dieInTest k = false := by
      rw [← Bool.not_eq_true, State.dieInTest_iff]
      obtain ⟨j, hj, hne⟩ := hj
      exact fun h => hne (h j hj)
    refine ⟨_, execMarginStart_taken hw k, ?_⟩
    rw [State.marginStart_eq hk hm hn, ← hcdef, h3, hd, if_pos rfl]
    exact ⟨rfl, (s.stack_modStack k k _).trans (if_pos rfl), fun j hj => (s.stack_modStack k j _).trans (if_neg hj)⟩
  case starts =>
    have hgo : ¬ (decide (bits c 29 28 = 3) && !s.dieInTest k) = true := by
      rw [Bool.and_eq_true, decide_eq_true_eq, Bool.not_eq_true', ← Bool.not_eq_true, State.dieInTest_iff]
      exact fun hx => h.elim (fun h => h hx.1) hx.2
    have hrun := State.marginStart_eq hk hm hn
    rw [← hcdef, if_neg hgo] at hrun
    obtain ⟨hsame, hstk, hothers, hout⟩ := s.modStack_emit_spec k _ _ _ hrun
    refine ⟨_, execMarginStart_taken hw k, hsame, hstk, hothers, hout.trans ?_⟩
    by_cases h3 : bits c 29 28 = 3
    · rw [if_pos h3, if_pos h3, marginOf, h3]
    · rw [if_neg h3, if_neg h3]
  case done =>
    obtain ⟨hsame, hstk, hothers, hout⟩ := s.modStack_emit_spec k _ _ _ (State.marginDone_eq hm errors)
    exact ⟨_, execMarginTestDone_powered hp k errors, hsame, hstk, hothers, hout⟩

end Sys2Proof.Machine
end

section
/-! PROOFS. UPDATE and NEARVEC: what the work of the update engines leaves alone, when it completes, and with what status. -/

namespace Sys2Proof.Machine

/-! ### What changes no slot -/

/-- t comes from s by operations that touch no holding slot: whatever slot is looked at, it is as it was. -/
def State.Quiet (s t : State) : Prop := ∀ k, Works k s t

theorem State.Quiet.refl (s : State) : s.Quiet s := fun k => Works.refl k s

theorem State.Quiet.trans {r s t : State} (a : r.Quiet s) (b : s.Quiet t) : r.Quiet t := fun k => (a k).trans (b k)

theorem State.Quiet.slot {s t : State} (h : s.Quiet t) (k : Nat) : t.slot k = s.slot k :=
  (h (k + 1)).others k (Nat.ne_of_lt (Nat.lt_succ_self k))

theorem State.Quiet.clamp {s t : State} (h : s.Quiet t) (src : ClampSource) (n : Nat) : s.Quiet (t.clamp src n) :=
  fun k => State.clamp_works _ _ _ (h k)

theorem State.Quiet.memRead {s t : State} (h : s.Quiet t) (a n : Nat) : s.Quiet (t.memRead a n).2.2 :=
  fun k => State.memRead_works _ _ _ (h k)

/-! ### What changes slot k alone -/

/-- Everything that Works keeps outside slot k is the same in t as in s. -/
structure State.Beside (s : State) (k : Nat) (t : State) : Prop where
  regs : s.regs.agree t.regs
  same : t.pending = s.pending ∧ t.time = s.time ∧ t.stk = s.stk ∧ t.fab = s.fab ∧ t.coll = s.coll ∧
    t.cores = s.cores ∧ t.pwr = s.pwr ∧ t.mgmt = s.mgmt ∧ t.rst = s.rst
  rings : t.host.sq = s.host.sq ∧ t.host.cq = s.host.cq ∧ t.host.msix = s.host.msix ∧ t.host.lastServed = s.host.lastServed
  others : ∀ j, j ≠ k → t.slot j = s.slot j

theorem Works.beside {k : Nat} {s t : State} (h : Works k s t) : s.Beside k t := ⟨h.regs, h.same, h.rings, h.others⟩

theorem State.Beside.trans {k : Nat} {r s t : State} (a : r.Beside k s) (b : s.Beside k t) : r.Beside k t := by
  obtain ⟨aregs, ⟨a1, a2, a3, a4, a5, a6, a7, a8, a9⟩, ⟨c1, c2, c3, c4⟩, aoth⟩ := a
  obtain ⟨bregs, ⟨b1, b2, b3, b4, b5, b6, b7, b8, b9⟩, ⟨d1, d2, d3, d4⟩, both⟩ := b
  exact ⟨⟨bregs.1.trans aregs.1, fun o i ho hi => (bregs.2 o i ho hi).trans (aregs.2 o i ho hi)⟩,
    ⟨b1.trans a1, b2.trans a2, b3.trans a3, b4.trans a4, b5.trans a5, b6.trans a6, b7.trans a7, b8.trans a8, b9.trans a9⟩,
    ⟨d1.trans c1, d2.trans c2, d3.trans c3, d4.trans c4⟩, fun j hj => (both j hj).trans (aoth j hj)⟩

theorem State.Beside.stamp {k : Nat} {s t : State} (h : s.Beside k t) : t.stamp = s.stamp := by
  unfold State.stamp; rw [h.same.2.1]

theorem State.slot_modSlot (s : State) (k j : Nat) (f : Slot → Slot) :
    (s.modSlot k f).slot j = if j = k then (s.slot k).map f else s.slot j :=
  State.mget_mmod_ite none s.host.slots k j (fun sl => sl.map f)

theorem State.modSlot_beside (s : State) (k : Nat) (f : Slot → Slot) : s.Beside k (s.modSlot k f) :=
  ⟨⟨rfl, fun _ _ _ _ => rfl⟩, ⟨rfl, rfl, rfl, rfl, rfl, rfl, rfl, rfl, rfl⟩, ⟨rfl, rfl, rfl, rfl⟩,
    fun j hj => (s.slot_modSlot k j f).trans (if_neg hj)⟩

/-! ### How the descriptor of a slot fares -/

/-- Two contents of a slot are of one descriptor: its bytes and its place in its ring. -/
def Slot.Same (sl sl' : Slot) : Prop := sl'.desc = sl.desc ∧ sl'.ring = sl.ring ∧ sl'.index = sl.index ∧ sl'.seq = sl.seq

theorem Slot.Same.trans {a b c : Slot} (h : a.Same b) (g : b.Same c) : a.Same c :=
  ⟨g.1.trans h.1, g.2.1.trans h.2.1, g.2.2.1.trans h.2.2.1, g.2.2.2.trans h.2.2.2⟩

/-- In t slot k, which held sl, holds sl's completion record with this status. -/
def State.EndsWith (s t : State) (k : Nat) (sl : Slot) (st : Status) : Prop :=
  ∃ sl' node value, t.slot k = some sl' ∧ sl'.phase = .done ∧ sl.Same sl' ∧
    sl'.record = completionRecord sl.desc st node value s.stamp

/-- In t slot k, which held sl, still runs sl's descriptor. -/
def State.RunsOn (t : State) (k : Nat) (sl : Slot) : Prop := ∃ sl', t.slot k = some sl' ∧ sl'.phase = .running ∧ sl.Same sl'

/-- The statuses with which a descriptor of the update engines completes that has not been refused (Table 12.10, R423, R432). -/
def engineStatuses : List Status := [.ok, .poison, .sealed, .fenced]

theorem ok_engine : Status.ok ∈ engineStatuses := by decide
theorem fenced_engine : Status.fenced ∈ engineStatuses := by decide
theorem sealed_engine : Status.sealed ∈ engineStatuses := by decide
theorem poison_engine : Status.poison ∈ engineStatuses := by decide

/-- What a step of the engines may make of the descriptor sl of slot k. It completes, and where `legal` holds with a status of the
engines; or it runs on, and then `waits` holds. -/
structure State.EngineStep (s : State) (k : Nat) (sl : Slot) (legal waits : Prop) (t : State) : Prop where
  beside : s.Beside k t
  fares : (∃ st, s.EndsWith t k sl st ∧ (legal → st ∈ engineStatuses)) ∨ (t.RunsOn k sl ∧ waits)

theorem State.EngineStep.imp {s t : State} {k : Nat} {sl : Slot} {l l' w w' : Prop} (h : s.EngineStep k sl l w t) (hl : l' → l)
    (hw : w → w') : s.EngineStep k sl l' w' t :=
  ⟨h.beside, h.fares.imp (fun ⟨st, he, hs⟩ => ⟨st, he, hs ∘ hl⟩) (fun ⟨hr, h⟩ => ⟨hr, hw h⟩)⟩

/-- A step from a state that a change of slot k alone has led to, with the same descriptor there. -/
theorem State.EngineStep.after {s u t : State} {k : Nat} {sl sl' : Slot} {l w : Prop} (hu : s.Beside k u) (hsame : sl.Same sl')
    (h : u.EngineStep k sl' l w t) : s.EngineStep k sl l w t := by
  refine ⟨hu.trans h.beside, h.fares.imp ?_ ?_⟩
  · rintro ⟨st, ⟨x, node, value, hx, hd, hxs, hrec⟩, hst⟩
    exact ⟨st, ⟨x, node, value, hx, hd, hsame.trans hxs, by rw [hrec, hsame.1, hu.stamp]⟩, hst⟩
  · rintro ⟨⟨x, hx, hr, hxs⟩, hw⟩
    exact ⟨⟨x, hx, hr, hsame.trans hxs⟩, hw⟩

theorem State.EngineStep.afterQuiet {s u t : State} {k : Nat} {sl : Slot} {l w : Prop} (hu : s.Quiet u)
    (h : u.EngineStep k sl l w t) : s.EngineStep k sl l w t :=
  h.after (hu k).beside ⟨rfl, rfl, rfl, rfl⟩

/-- An operation that touches no slot leaves a running descriptor running. -/
theorem State.Quiet.runsOn {s t : State} {k : Nat} {sl : Slot} {l w : Prop} (h : s.Quiet t) (hs : s.slot k = some sl)
    (hr : sl.phase = .running) (hw : w) : s.EngineStep k sl l w t :=
  ⟨(h k).beside, .inr ⟨⟨sl, (h.slot k).trans hs, hr, rfl, rfl, rfl, rfl⟩, hw⟩⟩

/-! ### Completion -/

/-- What completion leaves in the slot. All that follows the record's entry touches no slot. -/
theorem State.complete_slot (s : State) {k : Nat} {sl : Slot} (st : Status) (node value : Nat) (hs : s.slot k = some sl) :
    ∃ sl', (s.complete k st node value).slot k = some sl' ∧ sl'.phase = .done ∧ sl.Same sl' ∧
      sl'.record = completionRecord sl.desc st node (detailValue st value) s.stamp := by
  unfold State.complete
  rw [hs]
  dsimp -zeta only
  extract_lets was v sl' t1 _ t1' _ _ t2 id ends t3 u t4 t5
  have h1 : t1.slot k = some sl' := by simp [t1]
  have q2 : t1.Quiet t2 := fun j => Works.upd (Works.upd (Works.refl j t1) rfl rfl rfl rfl rfl rfl rfl rfl rfl rfl rfl rfl rfl rfl rfl)
    rfl rfl rfl rfl rfl rfl rfl rfl rfl rfl rfl rfl rfl rfl rfl
  have qe : t1.Quiet ends := fun j => Works.ite (State.tellStates_works _ _ _ (State.settle_works _ _ _ (q2 j))) (q2 j)
  have q3 : t1.Quiet t3 := fun j => Works.ite (qe j) (State.plan_works _ _ _ (qe j))
  have q5 : t1.Quiet t5 := fun j =>
    Works.ite (State.modUnit_works _ _ _ (q3 j)) (State.sig_works _ _ _ _ (State.modUnit_works _ _ _ (q3 j)))
  refine ⟨sl', ?_, rfl, ⟨rfl, rfl, rfl, rfl⟩, rfl⟩
  split
  · exact (q3.slot k).trans h1
  · exact (State.Quiet.slot (fun j => State.sig_works _ _ _ _ (q5 j)) k).trans h1

theorem State.complete_step (s : State) {k : Nat} {sl : Slot} {l w : Prop} (st : Status) (node value : Nat) (hs : s.slot k = some sl)
    (hst : l → st ∈ engineStatuses) : s.EngineStep k sl l w (s.complete k st node value) := by
  obtain ⟨sl', hsl, hd, hsame, hrec⟩ := s.complete_slot st node value hs
  exact ⟨(State.complete_works s st node value (Works.refl k s)).beside, .inl ⟨st, ⟨sl', _, _, hsl, hd, hsame, hrec⟩, hst⟩⟩

theorem State.finish_step (s : State) {k : Nat} {sl : Slot} {l w : Prop} (cls : Nat) (st : Status) (value : Nat)
    (hs : s.slot k = some sl) (hst : l → st ∈ engineStatuses) : s.EngineStep k sl l w (s.finish k cls st value) := by
  unfold State.finish
  rw [hs]
  exact s.complete_step st _ value hs hst

theorem State.finishReport_step (s : State) {k : Nat} {sl : Slot} {l w : Prop} (cls : Nat) (r : Report) (value : Status → Nat)
    (hs : s.slot k = some sl) (hst : l → r.foldl (fun st p => st.join p.2) .ok ∈ engineStatuses) :
    s.EngineStep k sl l w (s.finishReport k cls r value) := by
  unfold State.finishReport
  rw [hs]
  dsimp only
  split
  · exact s.finish_step cls .ok _ hs (fun _ => ok_engine)
  · have hq : s.Quiet (s.childrenEnd (targetOf sl.desc) r) := fun j => State.childrenEnd_works _ _ _ (Works.refl j s)
    exact (State.complete_step _ _ _ _ ((hq.slot k).trans hs) hst).afterQuiet hq

theorem State.ueFinish_step (s : State) {k : Nat} {sl : Slot} {l w : Prop} (stk : Nat) (st : Status) (value : Nat)
    (hs : s.slot k = some sl) (hst : l → st ∈ engineStatuses) : s.EngineStep k sl l w (s.ueFinish k stk st value) := by
  unfold State.ueFinish
  rw [hs]
  dsimp only
  split
  · exact s.complete_step st _ value hs hst
  · exact s.complete_step st _ value hs hst
  · exact s.finish_step 5 st value hs hst

theorem State.ueAbort_step (s : State) {k : Nat} {sl : Slot} {l w : Prop} (hs : s.slot k = some sl) (hl : ¬ l) :
    s.EngineStep k sl l w (s.ueAbort k sl) :=
  have hq : s.Quiet (s.clamp sl.source 1) := (State.Quiet.refl s).clamp _ _
  (State.finish_step _ 5 .aborted 0 ((hq.slot k).trans hs) (fun h => absurd h hl)).afterQuiet hq

theorem State.Quiet.freeze {s t : State} (h : s.Quiet t) (k : Nat) (ls : List Nat) : s.Quiet (t.freeze k ls) :=
  fun j => State.freeze_works _ _ _ (h j)

/-- A bar ends the descriptor, or makes it wait. -/
theorem State.ueStop_step (s : State) {k : Nat} {sl : Slot} {l w : Prop} (stk clamps : Nat) (b : UeBar) (hs : s.slot k = some sl)
    (hr : sl.phase = .running) (hl : ¬ l) (hw : b = .waits → w) : s.EngineStep k sl l w (s.ueStop k stk sl clamps b) := by
  have hq : s.Quiet (s.clamp sl.source clamps) := (State.Quiet.refl s).clamp _ _
  cases b with
  | abort => exact (State.ueAbort_step _ ((hq.slot k).trans hs) hl).afterQuiet hq
  | fenced => exact (State.ueFinish_step _ stk .fenced 0 ((hq.slot k).trans hs) (fun h => absurd h hl)).afterQuiet hq
  | sealed =>
    have hq' : s.Quiet ((s.clamp sl.source clamps).count (stackNode stk) (ctrId 11 10 11) 1) :=
      fun j => State.count_works _ _ _ _ (hq j)
    exact (State.ueFinish_step _ stk .sealed 0 ((hq'.slot k).trans hs) (fun h => absurd h hl)).afterQuiet hq'
  | waits => exact ((State.Quiet.refl s).freeze k sl.leaves).runsOn hs hr (hw rfl)

/-! ### Stacks that make nothing wait -/

/-- No stack makes an access wait. -/
def State.StacksGo (s : State) : Prop := ∀ j < 8, s.stackGoes j = true

theorem State.Quiet.stacksGo {s t : State} (h : s.Quiet t) (hg : s.StacksGo) : t.StacksGo := by
  obtain ⟨-, -, hstk, -, -, -, hpwr, -, -⟩ := (h 0).same
  intro j hj
  have := hg j hj
  unfold State.stackGoes State.stack State.stackHeld State.railHolds at *
  rwa [hstk, hpwr]

theorem State.stackGoes_iff (s : State) (j : Nat) : s.stackGoes j = true ↔
    (s.stack j).mode ≠ .training ∧ s.stackHeld j = false ∧ (s.stack j).throttle ≠ 3 ∧ (s.stack j).enteringTest = false ∧
      (s.stack j).converting = [] := by
  simp [State.stackGoes, and_assoc]

theorem lt_of_mem_stacksOf {a n j : Nat} (h : j ∈ stacksOf a n) : j < 8 := by
  unfold stacksOf inStack at h
  split at h
  · rename_i hin
    simp only [Bool.and_eq_true, decide_eq_true_eq] at hin
    simp only [rangeFrom, List.mem_map, List.mem_range] at h
    obtain ⟨i, hi, rfl⟩ := h
    unfold stackOf stackEnd stackBase stackSize at *
    omega
  · exact absurd h List.not_mem_nil

theorem State.stackStalls_of_go {s : State} (hg : s.StacksGo) (a n : Nat) : s.stackStalls a n = false := by
  refine List.any_eq_false.mpr fun j hj => ?_
  obtain ⟨hm, hh, ht, -, hc⟩ := (s.stackGoes_iff j).mp (hg j (lt_of_mem_stacksOf hj))
  simp [hm, hh, ht, hc]

theorem State.stackWaits_of_go {s : State} (hg : s.StacksGo) (a n : Nat) : s.stackWaits a n = false := by
  refine Bool.or_eq_false_iff.mpr ⟨State.stackStalls_of_go hg a n, List.any_eq_false.mpr fun j hj => ?_⟩
  obtain ⟨-, -, -, he, -⟩ := (s.stackGoes_iff j).mp (hg j (lt_of_mem_stacksOf hj))
  simp [he]

theorem State.ueBar_ne_waits {s : State} (hg : s.StacksGo) (k : Nat) (rs : List (Nat × Nat)) : s.ueBar k rs ≠ some .waits := by
  unfold State.ueBar
  simp only [State.stackWaits_of_go hg]
  split
  · simp
  · split
    · simp
    · split <;> simp

theorem State.partBar_ne_waits {s : State} (hg : s.StacksGo) (rs : List (Nat × Nat)) : s.partBar rs ≠ some .waits := by
  unfold State.partBar
  simp only [State.stackStalls_of_go hg]
  split
  · simp
  · split <;> simp

/-! ### The statuses of pieces -/

/-- Every status of a report is one of the engines'. -/
def Report.Engine (r : Report) : Prop := ∀ x ∈ r, x.2 ∈ engineStatuses

theorem Report.add_ne_nil (r : Report) (st : Status) (leaf : Nat) : r.add st leaf ≠ [] := by
  unfold Report.add
  split
  · exact List.cons_ne_nil _ _
  · rename_i p hp
    split
    · exact List.cons_ne_nil _ _
    · exact List.ne_nil_of_mem (List.mem_of_find?_eq_some hp)

theorem Report.Engine.add {r : Report} (h : r.Engine) {st : Status} (hst : st ∈ engineStatuses) (leaf : Nat) :
    (r.add st leaf).Engine := by
  unfold Report.add
  split
  · exact List.forall_mem_cons.mpr ⟨hst, h⟩
  · split
    · exact List.forall_mem_cons.mpr ⟨hst, fun x hx => h x (List.mem_of_mem_filter hx)⟩
    · exact h

theorem Report.addAll_ne_nil {r : Report} (h : r ≠ []) (ls : List Nat) : ls.foldl (fun r l => Report.add r .ok l) r ≠ [] := by
  induction ls generalizing r with
  | nil => exact h
  | cons l ls ih => exact ih (r.add_ne_nil .ok l)

theorem Slot.fails_of_pieces_nil {sl : Slot} (h : sl.pieces = []) : sl.fails = [] :=
  by_contra fun hf => Report.addAll_ne_nil hf sl.leaves h

theorem Slot.pieces_engine {sl : Slot} (h : Report.Engine sl.fails) : Report.Engine sl.pieces := by
  unfold Slot.pieces
  generalize sl.fails = r at h
  induction sl.leaves generalizing r with
  | nil => exact h
  | cons l ls ih => exact ih _ (h.add ok_engine l)

theorem Status.join_engine {a b : Status} (ha : a ∈ engineStatuses) (hb : b ∈ engineStatuses) : a.join b ∈ engineStatuses := by
  unfold Status.join
  split
  · exact hb
  · exact ha

theorem Report.Engine.highest {r : Report} (h : r.Engine) : r.foldl (fun st p => st.join p.2) .ok ∈ engineStatuses :=
  List.foldlRecOn r _ ok_engine fun _ ha x hx => Status.join_engine ha (h x hx)

/-! ### Noting pieces in a slot -/

/-- The pieces that have ended, noted one by one: each leaf and its status, with the child that stands above it. -/
def Slot.noteAll (sl : Slot) (ends : List (Nat × Status)) (child : Nat → Nat) : Slot :=
  ends.foldl (fun sl x => sl.note x.2 x.1 (child x.1) 0) sl

theorem Slot.note_fails (sl : Slot) (st : Status) (leaf node value : Nat) :
    (sl.note st leaf node value).fails = Report.add sl.fails st leaf := by
  unfold Slot.note
  dsimp only
  split
  · rfl
  · split <;> rfl

theorem Slot.note_same (sl : Slot) (st : Status) (leaf node value : Nat) :
    sl.Same (sl.note st leaf node value) ∧ (sl.note st leaf node value).phase = sl.phase := by
  unfold Slot.note
  dsimp only
  split
  · exact ⟨⟨rfl, rfl, rfl, rfl⟩, rfl⟩
  · split <;> exact ⟨⟨rfl, rfl, rfl, rfl⟩, rfl⟩

theorem Slot.noteAll_same (sl : Slot) (ends : List (Nat × Status)) (child : Nat → Nat) :
    sl.Same (sl.noteAll ends child) ∧ (sl.noteAll ends child).phase = sl.phase := by
  induction ends generalizing sl with
  | nil => exact ⟨⟨rfl, rfl, rfl, rfl⟩, rfl⟩
  | cons x xs ih =>
    obtain ⟨hs, hp⟩ := sl.note_same x.2 x.1 (child x.1) 0
    obtain ⟨hs', hp'⟩ := ih (sl.note x.2 x.1 (child x.1) 0)
    exact ⟨hs.trans hs', hp'.trans hp⟩

theorem Slot.noteAll_engine {sl : Slot} {ends : List (Nat × Status)} (child : Nat → Nat) (h : Report.Engine sl.fails)
    (he : Report.Engine ends) : Report.Engine (sl.noteAll ends child).fails := by
  refine List.foldlRecOn ends _ (motive := fun sl : Slot => Report.Engine sl.fails) h fun sl h x hx => ?_
  rw [Slot.note_fails]
  exact h.add (he x hx) x.1

/-! ### Plans -/

theorem uePlan_stops (leaf : Nat → Nat) (bar : Nat → Option UeBar) (old : List Nat) (is : List Nat) (p : UePlan)
    (h : Report.Engine p.stops) : Report.Engine (uePlan leaf bar old is p).stops := by
  induction is generalizing p with
  | nil => exact h
  | cons i rest ih =>
    unfold uePlan
    dsimp only
    split
    · exact ih _ h
    · split
      · exact h
      · exact ih _ (List.forall_mem_cons.mpr ⟨fenced_engine, h⟩)
      · exact ih _ (List.forall_mem_cons.mpr ⟨sealed_engine, h⟩)
      · exact ih _ h
      · exact ih _ h

/-- Where no part waits the plan deals with them all. -/
theorem uePlan_done {leaf : Nat → Nat} {bar : Nat → Option UeBar} (hb : ∀ i, bar i ≠ some .waits) (old : List Nat) (is : List Nat)
    (p : UePlan) (hp : p.waits = none) :
    (uePlan leaf bar old is p).waits = none ∧ (uePlan leaf bar old is p).done = is.foldl (fun _ i => i + 1) p.done := by
  induction is generalizing p with
  | nil => exact ⟨hp, rfl⟩
  | cons i rest ih =>
    unfold uePlan
    dsimp only
    split
    · exact ih _ hp
    · split
      · rename_i h
        exact absurd h (hb i)
      · exact ih _ hp
      · exact ih _ hp
      · exact ih _ hp
      · exact ih _ hp

theorem rangeFrom_last (a m : Nat) : (rangeFrom a m).foldl (fun _ i => i + 1) a = a + m := by
  induction m with
  | zero => rfl
  | succ m ih => simp [rangeFrom, List.range_succ, Nat.add_assoc]

/-! ### Going on -/

/-- All parts dealt with, the descriptor completes with the statuses of its pieces. -/
theorem State.ueEnd_step (s : State) {k : Nat} {sl : Slot} {l w : Prop} (stk : Nat) (p : UeProgress) (hs : s.slot k = some sl)
    (hf : l → Report.Engine sl.fails) : s.EngineStep k sl l w (s.ueEnd k stk sl p) := by
  unfold State.ueEnd
  extract_lets s'
  have hq : s.Quiet s' := fun j => Works.ite (Works.refl j s) (State.drained_works _ _ (Works.refl j s))
  exact (State.finishReport_step s' 5 _ _ ((hq.slot k).trans hs) fun h => (Slot.pieces_engine (hf h)).highest).afterQuiet hq

theorem State.Quiet.thaw {s t : State} (h : s.Quiet t) (k : Nat) : s.Quiet (t.thaw k) := fun j => State.thaw_works _ _ (h j)

/-- The engines go on: it is enough that running parts touches no slot. -/
theorem State.ueGo_step (s : State) {k : Nat} {sl : Slot} (stk n : Nat) (p : UeProgress) (nearvec : Bool) (bar : Nat → Option UeBar)
    (run : List (Nat × Nat × Bool) → State → List (Nat × UeRun) × State) (hrun : ∀ parts, s.Quiet (run parts s).2)
    (hs : s.slot k = some sl) (hr : sl.phase = .running) :
    s.EngineStep k sl (sl.pieces = []) (¬ ((∀ i, bar i ≠ some .waits) ∧ p.total ≤ n)) (s.ueGo k stk n sl p nearvec bar run) := by
  unfold State.ueGo
  extract_lets id pieces plan
  have hq := hrun plan.parts.reverse
  generalize run plan.parts.reverse s = ran at hq
  obtain ⟨rs, s1⟩ := ran
  dsimp -zeta only
  extract_lets all p' ends s2
  have hq' : s.Quiet (s1.addRanges stk all.secs nearvec) := fun j => State.addRanges_works _ _ _ _ (hq j)
  have hbeside : s.Beside k s2 := (hq' k).beside.trans (State.modSlot_beside ..)
  let sl2 := ({ sl with engines := some p', begun := true } : Slot).noteAll ends (s1.childOf id)
  have hs2 : s2.slot k = some sl2 := by
    refine (State.slot_modSlot ..).trans ?_
    rw [if_pos rfl, hq'.slot k, hs]
    rfl
  obtain ⟨hsame, hphase⟩ : sl.Same sl2 ∧ sl2.phase = sl.phase := Slot.noteAll_same _ _ _
  have hends : Report.Engine ends := by
    intro x hx
    rcases List.mem_append.mp hx with hx | hx
    · obtain ⟨y, -, rfl⟩ := List.mem_map.mp hx
      exact poison_engine
    · exact uePlan_stops _ _ _ _ _ (fun _ h => absurd h List.not_mem_nil) x hx
  have hfails : sl.pieces = [] → Report.Engine sl2.fails := fun h =>
    Slot.noteAll_engine _ (by rw [Slot.fails_of_pieces_nil h]; exact fun _ h => absurd h List.not_mem_nil) hends
  have hdone : (∀ i, bar i ≠ some .waits) → plan.waits = none ∧ plan.done = p.done + min n (p.total - p.done) := fun hb =>
    rangeFrom_last p.done _ ▸ uePlan_done hb p.stopped (rangeFrom p.done _) _ rfl
  have hgoes (t : State) (ht : s2.Quiet t) {w : Prop} (hw : w) : s2.EngineStep k sl2 (sl.pieces = []) w t :=
    ht.runsOn hs2 (hphase.trans hr) hw
  refine State.EngineStep.after hbeside hsame ?_
  rw [hs2]
  cases hw : plan.waits with
  | some l => exact hgoes _ ((State.Quiet.refl s2).freeze k [l]) fun ⟨hb, _⟩ => absurd ((hdone hb).1.symm.trans hw) nofun
  | none =>
    dsimp only
    split
    · rename_i hlt
      refine hgoes _ ((State.Quiet.refl s2).thaw k) fun ⟨hb, hn⟩ => ?_
      have hd : p'.done = _ := (hdone hb).2
      have ht : p'.total = p.total := rfl
      omega
    · exact s2.ueEnd_step stk p' hs2 hfails

/-! ### UPDATE -/

/-- What the engines have to deal with before the descriptor completes: its parts, at most 2^40 of one not begun. -/
def Slot.engineParts (sl : Slot) : Nat := sl.engines.elim (2 ^ 40) (·.total)

theorem State.updGo_step (s : State) {k : Nat} {sl : Slot} (n : Nat) (p : UeProgress) (hs : s.slot k = some sl)
    (hr : sl.phase = .running) :
    s.EngineStep k sl (sl.pieces = []) (¬ (s.StacksGo ∧ p.total ≤ n)) (s.updGo k n sl p) := by
  unfold State.updGo
  extract_lets u first
  refine (s.ueGo_step _ n p false _ _ ?_ hs hr).imp id fun h ⟨hg, hn⟩ => h ⟨fun _ => State.partBar_ne_waits hg _, hn⟩
  exact fun parts j => State.updParts_works s u p sl.born first parts (Works.refl j s)

/-- ROWS_M1 has 20 bits, so that an UPDATE has at most 2^20 rows, whatever its tensor has left (Table 12.3). -/
theorem updateRows_le (x m : Nat) : min (x % 2 ^ 20 + 1) m ≤ 2 ^ 40 := by omega

/-- Legal ranges meet no bar: neither the record, nor the program where the rule has one, nor the arrays. -/
theorem State.updateLegal_bars {s s1 s2 : State} {sl : Slot} {id rec' stk clamps : Nat} {rb pb : List Byte} {rps pps : List Bool}
    {a : UpdArgs} (hid : id = targetOf sl.desc) (hbase : rec' = addr48 sl.desc 8 / 32 * 32) (hstk : stk = stackOf rec')
    (hrec : s.memRead rec' 128 = (rb, rps, s1)) (hargs : readUpdate sl.desc rb = (a, clamps))
    (hprog : (if a.rule = 3 then s1.memRead a.prog 288 else ([], [], s1)) = (pb, pps, s2)) (h : s.updateLegal sl = true) :
    inStack rec' 128 = true ∧ s.aimsAt id stk = true ∧ s.ueBar stk [(rec', 128)] = none ∧
      (a.rule = 3 → s.ueBar stk [(a.prog, 288)] = none) ∧ s.ueBar stk (updRunOf sl rb pb).ranges = none := by
  subst hid hbase hstk
  have hpb : (if a.rule = 3 then (s1.memRead a.prog 288).1 else []) = pb := by
    rw [← show _ = pb from congrArg Prod.fst hprog]
    split <;> rfl
  simpa [State.updateLegal, hrec, hargs, hpb, and_assoc, imp_iff_not_or] using h

/-- UPDATE begins: what may stand in its way, in the order in which it is judged (R399, R400, R422), and then the engines go on. -/
theorem State.updBegin_step (s : State) {k : Nat} {sl : Slot} (n : Nat) (hs : s.slot k = some sl) (hr : sl.phase = .running) :
    s.EngineStep k sl (s.updateLegal sl = true ∧ sl.pieces = []) (¬ (s.StacksGo ∧ 2 ^ 40 ≤ n)) (s.updBegin k n sl) := by
  have hclamp (m : Nat) : s.Quiet (s.clamp sl.source m) := (State.Quiet.refl s).clamp _ m
  have habort (m : Nat) {l w : Prop} (hl : ¬ l) : s.EngineStep k sl l w ((s.clamp sl.source m).ueAbort k sl) :=
    (State.ueAbort_step _ (((hclamp m).slot k).trans hs) hl).afterQuiet (hclamp m)
  have hstop {rs : List (Nat × Nat)} {stk m : Nat} {b : UeBar} {l : Prop} (hb : s.ueBar stk rs = some b) (hl : ¬ l) :
      s.EngineStep k sl l (¬ (s.StacksGo ∧ 2 ^ 40 ≤ n)) (s.ueStop k stk sl m b) :=
    s.ueStop_step stk m b hs hr hl fun hbw ⟨hg, _⟩ => State.ueBar_ne_waits hg stk rs (hbw ▸ hb)
  unfold State.updBegin
  extract_lets d id low rec' stk first rows
  have hread : s.Quiet (s.memRead rec' 128).2.2 := (State.Quiet.refl s).memRead rec' 128
  rcases hrec : s.memRead rec' 128 with ⟨rb, rps, s1⟩
  rw [hrec] at hread
  dsimp -zeta only at hread ⊢
  rcases hargs : readUpdate d rb with ⟨a, clamps⟩
  dsimp -zeta only
  have hquiet : s.Quiet (if a.rule = 3 then s1.memRead a.prog 288 else ([], [], s1)).2.2 := by
    split
    · exact hread.memRead a.prog 288
    · exact hread
  rcases hprog : (if a.rule = 3 then s1.memRead a.prog 288 else ([], [], s1)) with ⟨pb, pps, s2⟩
  rw [hprog] at hquiet
  dsimp -zeta only at hquiet ⊢
  have hlegal := State.updateLegal_bars (id := id) (rec' := rec') (stk := stk) rfl rfl rfl hrec hargs hprog
  split
  · rename_i h
    refine habort _ fun ⟨hl, _⟩ => ?_
    obtain ⟨hin, -⟩ := hlegal hl
    simp [hin] at h
  split
  · rename_i h
    refine habort _ fun ⟨hl, _⟩ => ?_
    obtain ⟨-, haims, -⟩ := hlegal hl
    simp [haims] at h
  split
  · rename_i b hb
    refine hstop hb fun ⟨hl, _⟩ => ?_
    obtain ⟨-, -, hfree, -⟩ := hlegal hl
    exact absurd (hfree.symm.trans hb) nofun
  split
  · rename_i b hb
    split at hb
    · rename_i hrule
      refine hstop hb fun ⟨hl, _⟩ => ?_
      obtain ⟨-, -, -, hfree, -⟩ := hlegal hl
      exact absurd ((hfree hrule).symm.trans hb) nofun
    · exact absurd hb nofun
  extract_lets clamps' u s3 s4 rows'
  split
  · rename_i b hb
    refine hstop hb fun ⟨hl, _⟩ => ?_
    obtain ⟨-, -, -, -, hranges⟩ := hlegal hl
    exact absurd (hranges.symm.trans hb) nofun
  have hq3 : s.Quiet s3 := hquiet.clamp _ _
  split
  · have hq := hq3.clamp sl.source 1
    exact (State.ueFinish_step _ stk .ok 0 ((hq.slot k).trans hs) fun _ => ok_engine).afterQuiet hq
  · have hq : s.Quiet (s4.updAllFormats u first rows').2 := fun j =>
      State.updAllFormats_works _ _ _ _ ((hq3.clamp _ _) j)
    exact ((State.updGo_step _ n _ ((hq.slot k).trans hs) hr).imp (fun ⟨_, hp⟩ => hp)
      fun h ⟨hg, hn⟩ => h ⟨hq.stacksGo hg, (updateRows_le ..).trans hn⟩).afterQuiet hq

theorem runUpdate_step (s : State) {k : Nat} {sl : Slot} (n : Nat) (hs : s.slot k = some sl) (hr : sl.phase = .running) :
    s.EngineStep k sl (s.updateLegal sl = true ∧ sl.engines = none ∧ sl.pieces = []) (¬ (s.StacksGo ∧ sl.engineParts ≤ n))
      (runUpdate k n sl s) := by
  unfold runUpdate Slot.engineParts
  cases sl.engines with
  | none => exact (s.updBegin_step n hs hr).imp (fun ⟨hl, _, hp⟩ => ⟨hl, hp⟩) id
  | some p => exact (s.updGo_step n p hs hr).imp (fun ⟨_, he, _⟩ => absurd he nofun) id

/-! ### NEARVEC -/

theorem State.nearGo_step (s : State) {k : Nat} {sl : Slot} (n : Nat) (p : UeProgress) (hs : s.slot k = some sl)
    (hr : sl.phase = .running) :
    s.EngineStep k sl (sl.pieces = []) (¬ (s.StacksGo ∧ p.total ≤ n)) (s.nearGo k n sl p) := by
  unfold State.nearGo
  extract_lets a
  refine (s.ueGo_step _ n p true _ _ ?_ hs hr).imp id fun h ⟨hg, hn⟩ => h ⟨fun _ => State.partBar_ne_waits hg _, hn⟩
  exact fun parts j => State.nearParts_works s a sl.born parts (Works.refl j s)

/-- A NEARVEC has at most 2^20 rows of 2^20 elements (Table 12.7). -/
theorem readNear_size (d : List Byte) : (readNear d).1.rows ≤ 2 ^ 20 ∧ (readNear d).1.cols ≤ 2 ^ 20 :=
  ⟨Nat.mod_lt _ (by decide), Nat.mod_lt _ (by decide)⟩

/-- Legal ranges meet no bar. -/
theorem State.nearLegal_bars {s : State} {sl : Slot} {a : NearArgs} {main stk clamps : Nat}
    (hargs : readNear sl.desc = (a, clamps)) (hmain : main = if a.op = 3 then a.dst else a.a) (hstk : stk = stackOf main)
    (h : s.nearLegal sl = true) :
    inStack main 1 = true ∧ s.aimsAt (targetOf sl.desc) stk = true ∧ s.ueBar stk a.ranges = none := by
  subst hmain hstk
  simpa [State.nearLegal, hargs, and_assoc] using h

theorem runNearvec_step (s : State) {k : Nat} {sl : Slot} (n : Nat) (hs : s.slot k = some sl) (hr : sl.phase = .running) :
    s.EngineStep k sl (s.nearLegal sl = true ∧ sl.engines = none ∧ sl.pieces = []) (¬ (s.StacksGo ∧ sl.engineParts ≤ n))
      (runNearvec k n sl s) := by
  unfold runNearvec Slot.engineParts
  cases sl.engines with
  | some p => exact (s.nearGo_step n p hs hr).imp (fun ⟨_, he, _⟩ => absurd he nofun) id
  | none =>
    obtain ⟨hrows, hcols⟩ := readNear_size sl.desc
    rcases hargs : readNear sl.desc with ⟨a, clamps⟩
    rw [hargs] at hrows hcols
    dsimp -zeta only at hrows hcols ⊢
    extract_lets main stk
    have hlegal := State.nearLegal_bars (s := s) (main := main) (stk := stk) hargs rfl rfl
    have hq : s.Quiet (s.clamp sl.source clamps) := (State.Quiet.refl s).clamp _ _
    split
    · rename_i h
      refine (State.ueAbort_step _ ((hq.slot k).trans hs) fun ⟨hl, _⟩ => ?_).afterQuiet hq
      obtain ⟨hin, haims, -⟩ := hlegal hl
      simp [hin, haims] at h
    split
    · rename_i b hb
      refine s.ueStop_step stk clamps b hs hr (fun ⟨hl, _⟩ => ?_) fun hbw ⟨hg, _⟩ => State.ueBar_ne_waits hg stk _ (hbw ▸ hb)
      obtain ⟨-, -, hranges⟩ := hlegal hl
      exact absurd (hranges.symm.trans hb) nofun
    · have htotal : (if a.byRow then a.rows else a.rows * a.cols) ≤ 2 ^ 40 := by
        split
        · omega
        · exact (Nat.mul_le_mul hrows hcols).trans (by decide)
      exact ((State.nearGo_step _ n _ ((hq.slot k).trans hs) hr).imp (fun ⟨_, _, hp⟩ => hp)
        fun h ⟨hg, hn⟩ => h ⟨hq.stacksGo hg, htotal.trans hn⟩).afterQuiet hq

/-! ### The statement -/

/-- Where slot k works, a command with its opcode runs its meaning. -/
theorem State.withDesc_of_works {s : State} {k : Nat} {sl : Slot} (h : s.works k sl) {opcodes : List Nat}
    (ho : opcodeOf sl.desc ∈ opcodes) (f : Slot → State → State) : s.withDesc k opcodes f = f sl s := by
  obtain ⟨hs, hr, hstop, hmem, hturn, hheld⟩ := h
  simp [State.withDesc, hs, hr, hstop, hmem, hturn, hheld, ho]

theorem State.EndsWith.ended {s t : State} {k : Nat} {sl : Slot} {st : Status} (h : s.EndsWith t k sl st) :
    ∃ node value, s.ended t k sl st node value := by
  obtain ⟨sl', node, value, hs, hd, hsame, hrec⟩ := h
  exact ⟨node, value, sl', hs, hd, hsame.1, hrec⟩

theorem State.EngineStep.moves {s t : State} {k : Nat} {sl : Slot} {l w : Prop} (h : s.EngineStep k sl l w t)
    (hs : s.slot k = some sl) (hr : sl.phase = .running) : Moves k s t := by
  obtain ⟨⟨hregs, ⟨h1, h2, h3, h4, h5, h6, h7, h8, h9⟩, hrings, hothers⟩, hfares⟩ := h
  refine ⟨hregs, ⟨h1, h2, h3, h6, h7, h8, by rw [h9]⟩, hrings, hothers, .inr ?_⟩
  rcases hfares with ⟨st, ⟨sl', node, value, ht, hdone, ⟨hdesc, hring, hindex, hseq⟩, hrec⟩, -⟩ |
    ⟨⟨sl', ht, hrun, hdesc, hring, hindex, hseq⟩, -⟩
  · exact ⟨sl, sl', hs, ht, hdesc, hring, hindex, hseq, .inr ⟨hdone, st, node, value, hrec⟩⟩
  · exact ⟨sl, sl', hs, ht, hdesc, hring, hindex, hseq, .inl (hrun.trans hr.symm)⟩

/-- A step that waits for nothing ends the descriptor. -/
theorem State.EngineStep.ends {s t : State} {k : Nat} {sl : Slot} {l w : Prop} (h : s.EngineStep k sl l w t) (hw : ¬ w) :
    ∃ st, (∃ node value, s.ended t k sl st node value) ∧ (l → st ∈ engineStatuses) := by
  rcases h.fares with ⟨st, he, hst⟩ | ⟨-, hw'⟩
  · exact ⟨st, he.ended, hst⟩
  · exact absurd hw' hw

/-- Settles O29: a step of the engines is an `EngineStep` (`runUpdate_step`, `runNearvec_step`): it waits only where a stack makes it
wait or parts are left, and legal ranges meet no bar that aborts. -/
theorem updatesComplete : Obligations.UpdatesComplete := by
  intro s k sl hworks _ n c hc hop
  have ⟨hs, hr, _⟩ := hworks
  obtain ⟨t, hexec, hstep⟩ : ∃ t, exec c.1 s = .next t ∧
      s.EngineStep k sl
        ((∃ p, s.placeOf (targetOf sl.desc) = some p ∧ s.rangesLegal p sl = true) ∧ sl.engines = none ∧ sl.pieces = [])
        (¬ (s.StacksGo ∧ sl.engineParts ≤ n)) t := by
    simp only [List.mem_cons, List.not_mem_nil, or_false] at hc
    rcases hc with rfl | rfl
    · refine ⟨runUpdate k n sl s, ?_, (runUpdate_step s n hs hr).imp ?_ id⟩
      · exact congrArg _ (State.withDesc_of_works hworks (by simp [hop]) _)
      · rintro ⟨⟨p, -, hl⟩, hrest⟩
        exact ⟨by simpa [State.rangesLegal, hop] using hl, hrest⟩
    · refine ⟨runNearvec k n sl s, ?_, (runNearvec_step s n hs hr).imp ?_ id⟩
      · exact congrArg _ (State.withDesc_of_works hworks (by simp [hop]) _)
      · rintro ⟨⟨p, -, hl⟩, hrest⟩
        exact ⟨by simpa [State.rangesLegal, hop] using hl, hrest⟩
  obtain ⟨-, -, -, hfab, hcoll, -, -, -, hrst⟩ := hstep.beside.same
  refine ⟨t, hexec, hstep.moves hs hr, hrst, hfab, hcoll, ?_, ?_, ?_⟩
  · intro hgo hn
    have hparts : sl.engineParts ≤ n := by
      unfold Slot.engineParts
      cases he : sl.engines with
      | none => simpa [he] using hn
      | some p => simpa [he] using hn
    obtain ⟨st, ⟨node, value, he⟩, -⟩ := hstep.ends (not_not_intro ⟨hgo, hparts⟩)
    exact ⟨st, node, value, he⟩
  · intro p hp hlegal hnone hpieces hgo hn
    obtain ⟨st, ⟨node, value, he⟩, hst⟩ := hstep.ends (not_not_intro ⟨hgo, by simpa [Slot.engineParts, hnone] using hn⟩)
    exact ⟨st, node, value, he, hst ⟨⟨p, hp, hlegal⟩, hnone, hpieces⟩⟩
  · rcases hstep.fares with ⟨st, he, -⟩ | ⟨⟨sl', ht, hrun, hdesc, -⟩, -⟩
    · exact .inr ⟨st, he.ended⟩
    · exact .inl ⟨sl', ht, hrun, hdesc⟩

end Sys2Proof.Machine
end

section
/-! PROOFS. Station Time: one local beat on an empty queue (R490, R494). -/

namespace Sys2Proof.Machine

/-! ### Where no message waits -/

/-- t is s but for the order in which its ports are listed. -/
def State.SamePorts (s t : State) : Prop :=
  t = { s with fab := { s.fab with ports := t.fab.ports } } ∧ ∀ p, t.portAt p = s.portAt p

theorem State.SamePorts.trans {s t u : State} (h : s.SamePorts t) (h' : t.SamePorts u) : s.SamePorts u := by
  refine ⟨?_, fun p => (h'.2 p).trans (h.2 p)⟩
  rw [h'.1, h.1]

theorem State.drainPort_empty {s : State} {p : Nat} (h : (s.portAt p).inbox = []) : s.SamePorts (s.drainPort p) := by
  unfold State.drainPort
  rw [h]
  refine ⟨rfl, fun r => ?_⟩
  show (s.modPort p _).portAt r = _
  rw [State.portAt_modPort]
  split
  next hr =>
    subst hr
    rw [← h]
  next => rfl

theorem State.drainPorts_empty : ∀ (ps : List Nat) {s : State}, (∀ p, (s.portAt p).inbox = []) →
    s.SamePorts (ps.foldl State.drainPort s)
  | [], _, _ => ⟨rfl, fun _ => rfl⟩
  | p :: ps, _, h =>
    have hp := State.drainPort_empty (h p)
    hp.trans (State.drainPorts_empty ps fun r => by rw [hp.2 r]; exact h r)

theorem State.drainArrived_empty {s : State} (h : s.fab.arrived = []) : s.drainArrived = s := by
  unfold State.drainArrived
  rw [h]
  show ({ s with fab := { s.fab with arrived := [] } } : State) = s
  rw [← h]

/-- Where nothing waits, taking what waits changes nothing. -/
theorem State.takeWaiting_empty {s : State} (hp : ∀ p, (s.portAt p).inbox = []) (ha : s.fab.arrived = []) :
    s.SamePorts s.takeWaiting := by
  have h := State.drainPorts_empty (List.range 12) hp
  have ha' : ((List.range 12).foldl State.drainPort s).fab.arrived = [] := by rw [h.1]; exact ha
  unfold State.takeWaiting
  rwa [State.drainArrived_empty ha']

/-! ### One beat -/

/-- Only live counters have changed. -/
def State.LiveOnly (s t : State) : Prop := ∃ live, t = { s with obs := { s.obs with live := live } }

theorem State.count_live (s : State) (u i n : Nat) : s.LiveOnly (s.count u i n) := by
  unfold State.count
  split
  · exact ⟨s.obs.live, rfl⟩
  · exact ⟨_, rfl⟩

theorem State.LiveOnly.foldl {β : Type} {f : State → β → State} (hf : ∀ s x, State.LiveOnly s (f s x)) :
    ∀ (l : List β) {s t : State}, s.LiveOnly t → s.LiveOnly (l.foldl f t)
  | [], _, _, h => h
  | x :: l, s, _, ⟨live, rfl⟩ => by
    refine State.LiveOnly.foldl hf l ?_
    obtain ⟨live', hx⟩ := hf { s with obs := { s.obs with live := live } } x
    exact ⟨live', hx⟩

theorem State.countBeat_live (s : State) : s.LiveOnly s.countBeat := by
  refine State.LiveOnly.foldl (fun t k => t.count_live _ _ _) _ ?_
  refine State.LiveOnly.foldl (fun t c => t.count_live _ _ _) _ ?_
  exact State.LiveOnly.foldl (fun t p => t.count_live _ _ _) _ ⟨s.obs.live, rfl⟩

theorem State.tellQuality_out_only (s old : State) : s.tellQuality old = { s with out := (s.tellQuality old).out } := by
  unfold State.tellQuality State.platform
  split
  · rfl
  · split <;> rfl

theorem State.tellQuality_same {s old : State} (h : s.time.quality = old.time.quality) : s.tellQuality old = s :=
  if_pos h

/-- What a beat makes of the clock: the cases of R490 and R494. -/
theorem TimeState.beat_cases (c : TimeState) :
    c.beat.beats = c.beats + 1 ∧ c.beat.aim = c.aim ∧
    (c.quality = .unset → c.beat.now = c.now ∧ c.beat.slew = c.slew ∧ c.beat.quality = .unset) ∧
    (c.quality ≠ .unset → c.slew = 0 → c.beat.now = (c.now + 1) % 2 ^ 64 ∧ c.beat.slew = 0 ∧ c.beat.quality = c.quality) ∧
    (c.quality ≠ .unset → c.slew ≠ 0 →
      (c.beat.now = (c.now + 1) % 2 ^ 64 ∧ c.beat.slew = c.slew ∧ c.beat.quality = c.quality) ∨
      (∃ left : Int, left = (if 0 < c.slew then c.slew - 256 else c.slew + 256) ∧
        c.beat.now = (if 0 < c.slew then c.now else (c.now + 2) % 2 ^ 64) ∧
        (left.natAbs ≤ 512 → c.beat.slew = 0 ∧ c.beat.quality = c.aim) ∧
        (512 < left.natAbs → c.beat.slew = left ∧ c.beat.quality = c.quality))) := by
  by_cases hu : c.quality = .unset
  · have hb : c.beat = { c with beats := c.beats + 1 } := by simp only [TimeState.beat, hu]
    rw [hb]
    exact ⟨rfl, rfl, fun _ => ⟨rfl, rfl, hu⟩, fun h => absurd hu h, fun h => absurd hu h⟩
  have hb : c.beat =
      if c.slew = 0 then { c with beats := c.beats + 1, now := (c.now + 1) % 2 ^ 64 }
      else if c.slewPhase + 1 < slewPeriod then
        { c with beats := c.beats + 1, now := (c.now + 1) % 2 ^ 64, slewPhase := c.slewPhase + 1 }
      else if 0 < c.slew then ({ c with beats := c.beats + 1 } : TimeState).slewed (c.slew - 256)
      else ({ c with beats := c.beats + 1, now := (c.now + 2) % 2 ^ 64 } : TimeState).slewed (c.slew + 256) := by
    unfold TimeState.beat
    cases hq : c.quality
    case unset => exact absurd hq hu
    all_goals rfl
  rw [hb]
  by_cases h0 : c.slew = 0
  · rw [if_pos h0]
    exact ⟨rfl, rfl, fun h => absurd h hu, fun _ _ => ⟨rfl, h0, rfl⟩, fun _ h => absurd h0 h⟩
  rw [if_neg h0]
  by_cases hph : c.slewPhase + 1 < slewPeriod
  · rw [if_pos hph]
    exact ⟨rfl, rfl, fun h => absurd h hu, fun _ h => absurd h h0, fun _ _ => .inl ⟨rfl, rfl, rfl⟩⟩
  rw [if_neg hph]
  have slewed : ∀ (d : TimeState) (left : Int), d.beats = c.beats + 1 → d.aim = c.aim → d.quality = c.quality →
      (d.slewed left).beats = c.beats + 1 ∧ (d.slewed left).aim = c.aim ∧ (d.slewed left).now = d.now ∧
      (left.natAbs ≤ 512 → (d.slewed left).slew = 0 ∧ (d.slewed left).quality = c.aim) ∧
      (512 < left.natAbs → (d.slewed left).slew = left ∧ (d.slewed left).quality = c.quality) := by
    intro d left hd ha hq
    unfold TimeState.slewed
    split
    next h => exact ⟨hd, ha, rfl, fun _ => ⟨rfl, ha⟩, fun h' => absurd h (Nat.not_le.mpr h')⟩
    next h => exact ⟨hd, ha, rfl, fun h' => absurd h' h, fun _ => ⟨rfl, hq⟩⟩
  by_cases hpos : 0 < c.slew
  · obtain ⟨hbeats, haim, hnow, hend, hgo⟩ := slewed { c with beats := c.beats + 1 } (c.slew - 256) rfl rfl rfl
    simp only [hpos, if_true]
    exact ⟨hbeats, haim, fun h => absurd h hu, fun _ h => absurd h h0, fun _ _ => .inr ⟨_, rfl, hnow, hend, hgo⟩⟩
  · obtain ⟨hbeats, haim, hnow, hend, hgo⟩ :=
      slewed { c with beats := c.beats + 1, now := (c.now + 2) % 2 ^ 64 } (c.slew + 256) rfl rfl rfl
    simp only [hpos, if_false]
    exact ⟨hbeats, haim, fun h => absurd h hu, fun _ h => absurd h h0, fun _ _ => .inr ⟨_, rfl, hnow, hend, hgo⟩⟩

/-- A beat with the main rails: what waits is taken, beats are counted, the clock moves, and a change of its quality is told. -/
theorem State.tick_eq {s w : State} (h : s.mainRails = true) (hw : s.takeWaiting = w) : ∃ x old live n,
    s.tick = x.tellQuality old ∧ old.time = w.time ∧
    x = { w with obs := { w.obs with live := live }, time := { w.time.beat with timer := n } } := by
  obtain ⟨live, hl⟩ := w.countBeat_live
  unfold State.tick
  rw [if_pos h, hw, hl]
  exact ⟨_, _, live, _, rfl, rfl, rfl⟩

theorem State.tick_spec {s w : State} (h : s.mainRails = true) (hw : s.takeWaiting = w) :
    s.tick = { w with time := s.tick.time, obs := { w.obs with live := s.tick.obs.live }, out := s.tick.out } ∧
    (s.tick.time.quality = w.time.quality → s.tick.out = w.out) ∧ ∃ n, s.tick.time = { w.time.beat with timer := n } := by
  obtain ⟨x, old, live, n, ht, hold, hx⟩ := State.tick_eq h hw
  have hout := x.tellQuality_out_only old
  rw [ht]
  refine ⟨?_, fun hq => ?_, n, ?_⟩
  · rw [hout, hx]
  · have hxq : x.time.quality = old.time.quality := by
      rw [hold, ← hq, hout]
    rw [State.tellQuality_same hxq, hx]
  · rw [hout, hx]

/-- Settles O2: an empty queue lets one beat pass (`State.tick_spec`), which moves the clock by the cases of `TimeState.beat_cases`. -/
theorem idleStepIsOneBeat : Obligations.IdleStepIsOneBeat := by
  intro s hp
  refine ⟨s.tick, by rw [step, hp], fun hr => by rw [State.tick, hr, if_neg Bool.false_ne_true], fun hr => ?_⟩
  obtain ⟨w, hw⟩ : ∃ w, s.takeWaiting = w := ⟨_, rfl⟩
  obtain ⟨hframe, hout, n, htime⟩ := State.tick_spec hr hw
  rw [hw]
  refine ⟨hframe, hout, fun hin ha => ?_, fun c hc => ?_⟩
  · have hsame : s.SamePorts w := by
      rw [← hw]
      exact State.takeWaiting_empty hin ha
    have hfab : s.tick.fab = w.fab := (congrArg State.fab hframe :)
    refine ⟨?_, fun p => ?_⟩
    · rw [hfab]
      conv_lhs => rw [hframe, hsame.1]
    · rw [State.portAt, hfab]
      exact hsame.2 p
  · rw [htime, hc]
    exact w.time.beat_cases

end Sys2Proof.Machine
end

section
/-! PROOFS. The choice of a root (R488, R492), the time reference (R495), the UNSET root (R491) and the route switch (R476). -/

namespace Sys2Proof.Machine

/-! ### The root that is chosen (R488) -/

/-- From s to t only the root's registers and what the quality and slew of Station Time take from it have changed. -/
def State.RootOnly (s t : State) : Prop :=
  t = { s with
    fab := { s.fab with upPort := t.fab.upPort, hops := t.fab.hops, root := t.fab.root }
    time := { s.time with quality := t.time.quality, slew := t.time.slew, slewPhase := t.time.slewPhase } }

theorem State.chooseRoot_rootOnly (s : State) : s.RootOnly s.chooseRoot := by
  unfold State.RootOnly State.chooseRoot
  extract_lets put
  split
  · rfl
  · split
    · split <;> rfl
    · rfl

/-- A package whose own FABRIC offer is best is its own root (R492). -/
theorem State.chooseRoot_fabric {s : State} {root hops : Nat} (h : s.bestOffer = some (1, root, hops, 0)) : s.chooseRoot =
    { s with
      fab := { s.fab with upPort := 15, hops := 0, root := root }
      time := { s.time with slew := 0, slewPhase := 0, quality := if s.time.quality == .unset then .unset else .fabric } } := by
  unfold State.chooseRoot
  rw [h]
  rfl

/-- A package whose own REFERENCED offer is best is its own root; REFERENCED once its slew has led to the reference (R488). -/
theorem State.chooseRoot_referenced {s : State} {root hops : Nat} (hq : s.time.quality ≠ .unset)
    (h : s.bestOffer = some (0, root, hops, 0)) : s.chooseRoot =
    { s with
      fab := { s.fab with upPort := 15, hops := 0, root := root }
      time := { s.time with
        slew := if s.fab.upPort = 15 then s.time.slew else 0
        slewPhase := if s.fab.upPort = 15 then s.time.slewPhase else 0
        quality := if s.fab.upPort = 15 ∧ s.time.slew.natAbs ≤ 512 then .referenced else .holdover } } := by
  unfold State.chooseRoot
  rw [h]
  simp only [if_true, decide_eq_true_eq, Bool.and_eq_true, beq_iff_eq, hq, if_false]

/-- Where no port offers a root, the package's own offer is best. -/
theorem State.bestOffer_own {s : State} (h : ∀ p < 12, s.portOffer p = none) : s.bestOffer = s.ownOffer := by
  have hn : (List.range 12).filterMap s.portOffer = [] :=
    List.filterMap_eq_nil_iff.mpr fun p hp => h p (List.mem_range.mp hp)
  unfold State.bestOffer
  rw [hn, List.append_nil]
  cases s.ownOffer <;> rfl

theorem State.portOffer_congr {s t : State} (hp : t.fab.ports = s.fab.ports) (hc : t.chipId = s.chipId) (p : Nat) :
    t.portOffer p = s.portOffer p := by
  unfold State.portOffer State.portAt
  rw [hp, hc]

/-- A package with a valid reference that it may use, and with time set, offers itself as REFERENCED. -/
theorem State.ownOffer_referenced {s : State} (he : s.trefEn = true) (hv : s.fab.trefValid = true) (hq : s.time.quality ≠ .unset) :
    s.ownOffer = some (0, s.chipId, 0, 0) := by
  simp [State.ownOffer, he, hv, hq]

/-- Without TREF_EN the own offer takes nothing from Station Time. -/
theorem State.ownOffer_off {s : State} (he : s.trefEn = false) :
    s.ownOffer = if s.rootEn && s.upPorts ≠ [] then some (1, s.chipId, 0, 0) else none := by
  unfold State.ownOffer
  rw [he]
  rfl

/-- Without the reference a package with a port in UP offers itself as FABRIC. -/
theorem State.ownOffer_fabric {s : State} (hv : s.fab.trefValid = false) (hr : s.rootEn = true) (hu : s.upPorts ≠ []) :
    s.ownOffer = some (1, s.chipId, 0, 0) := by
  simp [State.ownOffer, hv, hr, hu]

theorem State.RootOnly.trans {s t u : State} (h : s.RootOnly t) (h' : t.RootOnly u) : s.RootOnly u := by
  unfold State.RootOnly at *
  rw [h', h]

/-- A package with a valid reference, where no port offers a root and no slew runs, is REFERENCED at the latest when it chooses
its root again (R488, R496). -/
theorem State.chooseRoot_twice {s : State} (hp : ∀ p < 12, s.portOffer p = none) (he : s.trefEn = true) (hv : s.fab.trefValid = true)
    (hq : s.time.quality ≠ .unset) (hs : s.time.slew = 0) : s.chooseRoot.chooseRoot.time.quality = .referenced := by
  have best : ∀ {x : State}, x.fab.ports = s.fab.ports → x.chipId = s.chipId → x.ownOffer = some (0, s.chipId, 0, 0) →
      x.bestOffer = some (0, s.chipId, 0, 0) := fun hf hc ho =>
    (State.bestOffer_own fun p h => (State.portOffer_congr hf hc p).trans (hp p h)).trans ho
  have h1 := State.chooseRoot_referenced hq (best rfl rfl (State.ownOffer_referenced he hv hq))
  obtain ⟨e, hee⟩ : ∃ e, s.chooseRoot = e := ⟨_, rfl⟩
  rw [hee] at h1 ⊢
  have hslew : e.time.slew = 0 := by rw [h1]; simp [hs]
  have hq' : e.time.quality ≠ .unset := by
    rw [h1]
    dsimp only
    split <;> simp
  have hbest : e.bestOffer = some (0, s.chipId, 0, 0) := by
    have hc : e.chipId = s.chipId := by rw [h1]; rfl
    refine best (by rw [h1]) hc ?_
    rw [← hc]
    exact State.ownOffer_referenced (by rw [h1]; exact he) (by rw [h1]; exact hv) hq'
  have hup : e.fab.upPort = 15 := by rw [h1]
  rw [State.chooseRoot_referenced hq' hbest, hup, hslew]
  rfl

/-! ### What a change of quality tells -/

/-- Time has not stepped forward, so no held descriptor is released (R641). -/
theorem State.releaseSkipped_of_le {s : State} {before : Nat} (h : s.time.now ≤ before) : s.releaseSkipped before = s := by
  unfold State.releaseSkipped
  rw [if_pos (by simp [h])]

theorem State.tellQuality_now (s old : State) : (s.tellQuality old).time = s.time := by
  rw [State.tellQuality_out_only]

/-! ### The commands -/

section
variable {s : State}

theorem execTimeRefLost_powered (hp : s.powered = true) : exec .timeRefLost s =
    .next (({ s with fab := { s.fab with trefValid := false, trefPulses := 0 } } : State).chooseRoot.tellQuality s) := by
  show Host.Outcome.next _ = _
  rw [hp]
  rfl

theorem execTimeRefLost_unpowered (hp : s.powered = false) : exec .timeRefLost s = .next s := by
  show Host.Outcome.next _ = _
  rw [hp]
  rfl

theorem execTimeRefPulse_unpowered (hp : s.powered = false) (n : Nat) : exec (.timeRefPulse n) s = .next s := by
  show Host.Outcome.next (State.releaseSkipped (State.tellQuality (if !s.powered then s else if s.fab.trefValid then _ else _) s) _) = _
  rw [hp]
  refine congrArg _ ((State.releaseSkipped_of_le ?_).trans (State.tellQuality_same rfl))
  rw [State.tellQuality_now]
  exact le_rfl

/-- A pulse while the reference is not valid steps no time. -/
theorem execTimeRefPulse_invalid (hp : s.powered = true) (hv : s.fab.trefValid = false) (n : Nat) : exec (.timeRefPulse n) s =
    .next (({ s with fab := { s.fab with
      trefValid := (999900000 ≤ n && n ≤ 1000100000) && 1 ≤ s.fab.trefPulses, trefPulses := 1 } } : State).chooseRoot.tellQuality s) := by
  show Host.Outcome.next (State.releaseSkipped (State.tellQuality (if !s.powered then s else if s.fab.trefValid then _ else _) s) _) = _
  rw [hp, hv]
  refine congrArg _ (State.releaseSkipped_of_le ?_)
  rw [State.tellQuality_now]
  exact le_of_eq (congrArg (·.time.now) (State.chooseRoot_rootOnly _))

theorem execTimeRefPulse_valid (hp : s.powered = true) (hv : s.fab.trefValid = true) (n : Nat) : exec (.timeRefPulse n) s =
    .next ((s.validPulse.chooseRoot.tellQuality s).releaseSkipped s.time.now) := by
  show Host.Outcome.next (State.releaseSkipped (State.tellQuality (if !s.powered then s else if s.fab.trefValid then _ else _) s) _) = _
  rw [hp, hv]
  rfl

theorem execUnsetRootTimer_set (hq : s.time.quality ≠ .unset) : exec .unsetRootTimer s = .next s := by
  show Host.Outcome.next (match s.time.quality, s.bestOffer with | .unset, some (1, _, _, 0) => _ | _, _ => _) = _
  cases h : s.time.quality
  case unset => exact absurd h hq
  all_goals rfl

theorem execUnsetRootTimer_unset (hq : s.time.quality = .unset) {root hops : Nat} (hb : s.bestOffer = some (1, root, hops, 0)) :
    exec .unsetRootTimer s = .next (if s.rootEn && s.powered then
      ({ s with time := { s.time with now := 0, quality := .fabric } } : State).chooseRoot.tellQuality s else s) := by
  show execUnsetRootTimer s = _
  unfold execUnsetRootTimer
  rw [hq, hb]
  rfl

theorem execUnsetRootTimer_unpowered (hp : s.powered = false) : exec .unsetRootTimer s = .next s := by
  show execUnsetRootTimer s = _
  unfold execUnsetRootTimer
  split
  · rw [hp, Bool.and_false]; rfl
  · rfl

end

/-! ### SET_ARM and the route switch -/

/-- A bit that is set is cleared by taking its place value away. -/
theorem sub_bit (v n : Nat) : (if bit v n then v - 2 ^ n else v) = setField v n n 0 := by
  rw [setField, bit_eq_bits]
  have hb := bits_lt v n n
  rw [Nat.add_sub_cancel_left] at hb
  obtain h | h : bits v n n = 0 ∨ bits v n n = 1 := by omega
  all_goals simp [h]

theorem RegFile.only.eff {a b : RegFile} {off i o j : Nat} (h : a.only b off i) (hj : j < 65536) (hn : (o, j) ≠ (off, i)) :
    b.eff o j = a.eff o j := by
  unfold RegFile.eff
  rw [h.2 o j hj hn]

theorem bit_setField_same (v n : Nat) : bit (setField v n n 0) n = false := by
  rw [bit, testBit_setField (Nat.two_pow_pos _), if_pos (by omega), Nat.zero_testBit]

theorem bit_setField_other (v : Nat) {n m : Nat} (h : m ≠ n) : bit (setField v n n 0) m = bit v m := by
  rw [bit, bit, testBit_setField (Nat.two_pow_pos _), if_neg (by omega)]

/-- The device clears a bit of a register. -/
theorem RegFile.clear_bit (r : RegFile) (off : Nat) {i n : Nat} (hi : i < 65536) (hn : n < 32) {f : Nat → Nat}
    (hf : ∀ v, f v = if bit v n then v - 2 ^ n else v) :
    r.only (r.device off i f) off i ∧ (r.device off i f).eff off i = setField (r.eff off i) n n 0 ∧
      (r.device off i f).shadow off i = setField (r.shadow off i) n n 0 := by
  have hword : ∀ w : Word32, (BitVec.ofNat 32 (f w.toNat)).toNat = setField w.toNat n n 0 := fun w => by
    rw [hf, sub_bit, BitVec.toNat_ofNat, Nat.mod_eq_of_lt (setField_lt w.isLt hn le_rfl (Nat.two_pow_pos _))]
  unfold RegFile.device RegFile.eff RegFile.shadow
  rw [RegFile.get_put]
  exact ⟨RegFile.only_put _ _ hi, hword _, hword _⟩

theorem execRouteSwitch_due {s : State} (hp : s.powered = true) (ha : bit (s.regs.eff regRouteSwitchHi 0) 31 = true)
    (ht : s.regs.eff regRouteSwitchLo 0 + s.regs.eff regRouteSwitchHi 0 % 2 ^ 30 * 2 ^ 32 ≤ s.time.now) :
    exec .routeSwitch s = .next { s with
      regs := s.regs.device regRouteSwitchHi 0 (fun v => if bit v 31 then v - 2 ^ 31 else v)
      fab := { s.fab with epoch := 1 - s.fab.epoch } } :=
  congrArg Host.Outcome.next (if_pos (by rw [hp, ha]; simpa using ht))

theorem execRouteSwitch_not {s : State} (h : s.powered = false ∨ bit (s.regs.eff regRouteSwitchHi 0) 31 = false ∨
      s.time.now < s.regs.eff regRouteSwitchLo 0 + s.regs.eff regRouteSwitchHi 0 % 2 ^ 30 * 2 ^ 32) :
    exec .routeSwitch s = .next s := by
  refine congrArg Host.Outcome.next (if_neg ?_)
  obtain h | h | h := h
  · simp [h]
  · simp [h]
  · simpa using fun _ _ => h

/-! ### The armed pulse -/

/-- Station Time is set by the reference. -/
def State.setClock (s : State) (n : Nat) : State :=
  { s with time := { s.time with now := n, quality := .referenced, slew := 0, slewPhase := 0 } }

/-- What the armed pulse sets before it chooses a root: SET_ARM is clear, the clock stands at the armed time (R495). -/
def State.armedPulse (s : State) : State :=
  (s.clearSetArm.clamp (.register regTimeCtl) (b2n (s.timeSet ≤ s.time.now))).setClock s.timeSet

theorem State.setClock_reported {s t : State} (h : t = s.reported t) (n : Nat) :
    t.setClock n = (s.setClock n).reported (t.setClock n) := by
  have ht : t.time = s.time := (congrArg State.time h :)
  unfold State.setClock
  rw [ht]
  conv_lhs => rw [h]
  rfl

theorem State.armedPulse_reported (s : State) : s.armedPulse = ({ s with
      regs := s.clearSetArm.regs
      time := { s.time with now := s.timeSet, quality := .referenced, slew := 0, slewPhase := 0 } } : State).reported s.armedPulse :=
  State.setClock_reported (s := s.clearSetArm) (State.clamp_reported _ _ _) _

/-- The two parts of an armed pulse: what it sets, then the root. -/
theorem State.validPulse_armed {s : State} (hq : s.time.quality = .unset) (he : s.trefEn = true)
    (ha : bit (s.regs.eff regTimeCtl 0) 2 = true) : s.validPulse = s.armedPulse.chooseRoot := by
  unfold State.validPulse
  simp only [hq, he, ha, beq_self_eq_true, if_true]
  rfl

/-- Registers and the clock set, then a root, then the report of a quality. -/
theorem State.root_told {s a g t : State} {r : RegFile} {x : TimeState}
    (ha : a = ({ s with regs := r, time := x } : State).reported a) (hg : a.RootOnly g) (ht : t = { g with out := t.out }) :
    t = ({ s with regs := t.regs, time := t.time, fab := t.fab } : State).reported t := by
  rw [ht, hg, ha]
  rfl

/-- The armed pulse of an UNSET package that no port offers a root. -/
theorem State.armedPulse_spec {s t : State} (hv : s.fab.trefValid = true) (he : s.trefEn = true)
    (hp : ∀ p < 12, s.portOffer p = none) (ht : s.armedPulse.chooseRoot.chooseRoot.tellQuality s = t) :
    t = ({ s with regs := t.regs, time := t.time, fab := t.fab } : State).reported t ∧
    t.time.now = s.timeSet ∧ t.time.quality = .referenced ∧ t.time.beats = s.time.beats ∧
    s.regs.only t.regs regTimeCtl 0 ∧ bit (t.regs.eff regTimeCtl 0) 2 = false ∧ t.fab.ports = s.fab.ports := by
  obtain ⟨a, ha⟩ : ∃ a, s.armedPulse = a := ⟨_, rfl⟩
  obtain ⟨g, hg⟩ : ∃ g, a.chooseRoot.chooseRoot = g := ⟨_, rfl⟩
  have hroot : a.RootOnly g := hg ▸ a.chooseRoot_rootOnly.trans a.chooseRoot.chooseRoot_rootOnly
  rw [ha, hg] at ht
  have har : a = _ := ha ▸ s.armedPulse_reported
  have hregs : a.regs = s.clearSetArm.regs := (congrArg State.regs har :)
  have hfab : a.fab = s.fab := (congrArg State.fab har :)
  have hnow : a.time = { s.time with now := s.timeSet, quality := .referenced, slew := 0, slewPhase := 0 } :=
    (congrArg State.time har :)
  have hgt : g.time.now = a.time.now ∧ g.time.beats = a.time.beats ∧ g.regs = a.regs ∧ g.fab.ports = a.fab.ports :=
    ⟨(congrArg (·.time.now) hroot :), (congrArg (·.time.beats) hroot :), (congrArg State.regs hroot :),
      (congrArg (·.fab.ports) hroot :)⟩
  have hout : t = { g with out := t.out } := ht ▸ g.tellQuality_out_only s
  have htg : t.time = g.time ∧ t.regs = g.regs ∧ t.fab = g.fab :=
    ⟨(congrArg State.time hout :), (congrArg State.regs hout :), (congrArg State.fab hout :)⟩
  obtain ⟨honly, heff, -⟩ := s.regs.clear_bit regTimeCtl (i := 0) (n := 2) (by decide) (by decide)
    (f := fun v => if bit v 2 then v - 4 else v) fun _ => rfl
  have harm : s.regs.only s.clearSetArm.regs regTimeCtl 0 := honly
  have hquality : g.time.quality = .referenced := by
    have hen : a.trefEn = true := by
      unfold State.trefEn
      rw [hregs, ← he]
      exact (congrArg (bit · 1) heff).trans (bit_setField_other _ (by decide))
    have hchip : a.chipId = s.chipId := by
      unfold State.chipId
      rw [hregs, harm.eff (by decide) (by decide)]
    rw [← hg]
    exact State.chooseRoot_twice (fun p h => (State.portOffer_congr (by rw [hfab]) hchip p).trans (hp p h)) hen
      (by rw [hfab]; exact hv) (by rw [hnow]; exact Quality.noConfusion) (by rw [hnow])
  refine ⟨State.root_told har hroot hout, ?_, htg.1 ▸ hquality, ?_, ?_, ?_, ?_⟩
  · rw [htg.1, hgt.1, hnow]
  · rw [htg.1, hgt.2.1, hnow]
  · rw [htg.2.1, hgt.2.2.1, hregs]
    exact harm
  · rw [htg.2.1, hgt.2.2.1, hregs]
    exact (congrArg (bit · 2) heff).trans (bit_setField_same _ _)
  · rw [htg.2.2, hgt.2.2.2, hfab]

/-! ### The statement -/

/-- A change of the reference, the root chosen and the quality told. -/
theorem State.reference_spec {s t : State} (v : Bool) (n : Nat)
    (ht : ({ s with fab := { s.fab with trefValid := v, trefPulses := n } } : State).chooseRoot.tellQuality s = t) :
    t = ({ s with
      time := { s.time with quality := t.time.quality, slew := t.time.slew, slewPhase := t.time.slewPhase }
      fab := { s.fab with trefValid := v, trefPulses := n, upPort := t.fab.upPort, hops := t.fab.hops, root := t.fab.root } }
      : State).reported t ∧ t.fab.trefValid = v := by
  rw [State.tellQuality_out_only, State.chooseRoot_rootOnly] at ht
  rw [← ht]
  exact ⟨rfl, rfl⟩

/-- Settles O47: each command is its equation above, with the root that `State.chooseRoot` takes where no port offers one. -/
theorem timeAndRoutesChange : Obligations.TimeAndRoutesChange := by
  intro s
  refine ⟨fun hp c hc => ?_, fun hp => ⟨?_, fun n hv => ?_, fun n hv hq he ha hno => ?_, fun hq hb hr he => ?_,
    fun hq => execUnsetRootTimer_set hq, fun ha ht => ?_, fun h => execRouteSwitch_not (.inr h)⟩⟩
  · simp only [List.mem_cons, List.not_mem_nil, or_false] at hc
    obtain rfl | rfl | rfl | rfl := hc
    · exact execTimeRefLost_unpowered hp
    · exact execUnsetRootTimer_unpowered hp
    · exact execRouteSwitch_not (.inl hp)
    · exact execTimeRefPulse_unpowered hp 0
  · refine ⟨_, execTimeRefLost_powered hp, (State.reference_spec false 0 rfl).1, fun hno hr hup hq => ?_⟩
    have hbest := (State.bestOffer_own (s := { s with fab := { s.fab with trefValid := false, trefPulses := 0 } }) fun p h =>
      (State.portOffer_congr rfl rfl p).trans (hno p h)).trans (State.ownOffer_fabric rfl hr hup)
    rw [State.tellQuality_out_only, State.chooseRoot_fabric hbest]
    refine ⟨?_, rfl, rfl, rfl, rfl⟩
    simp [hq]
  · obtain ⟨hframe, hvalid⟩ := State.reference_spec (s := s)
      ((999900000 ≤ n && n ≤ 1000100000) && 1 ≤ s.fab.trefPulses) 1 rfl
    refine ⟨_, execTimeRefPulse_invalid hp hv n, by rw [hvalid]; exact hframe, ?_⟩
    rw [hvalid]
    simp [and_comm]
  · refine ⟨_, execTimeRefPulse_valid hp hv n, ?_⟩
    rw [State.validPulse_armed hq he ha]
    exact State.armedPulse_spec hv he hno rfl
  · refine ⟨_, (execUnsetRootTimer_unset hq hb).trans (congrArg _ (if_pos (by rw [hr, hp]; rfl))), ?_⟩
    have hbest : ({ s with time := { s.time with now := 0, quality := .fabric } } : State).bestOffer = some (1, s.chipId, 0, 0) := by
      rw [← hb]
      unfold State.bestOffer
      rw [State.ownOffer_off he, State.ownOffer_off (s := { s with time := { s.time with now := 0, quality := .fabric } }) he]
      rfl
    rw [State.tellQuality_out_only, State.chooseRoot_fabric hbest]
    rfl
  · obtain ⟨honly, heff, -⟩ := s.regs.clear_bit regRouteSwitchHi (i := 0) (n := 31) (by decide) (by decide)
      (f := fun v => if bit v 31 then v - 2 ^ 31 else v) fun _ => rfl
    exact ⟨_, execRouteSwitch_due hp ha ht, rfl, honly, (congrArg (bit · 31) heff).trans (bit_setField_same _ _)⟩

end Sys2Proof.Machine
end

section
/-! PROOFS. What flits are, what a port sends, and what each operation of a link leaves unchanged (R448, R456 to R466, R477). -/

namespace Sys2Proof.Machine

/-! ### Flits (R456) -/

theorem crcBit_lt {n poly r : Nat} (hp : poly < 2 ^ n) (hr : r < 2 ^ n) : crcBit poly r < 2 ^ n := by
  unfold crcBit
  split
  · exact Nat.xor_lt_two_pow (by omega) hp
  · omega

theorem crcOf_lt {n poly : Nat} (hn : 8 ≤ n) (hp : poly < 2 ^ n) (bs : List Byte) : crcOf n poly bs < 2 ^ n := by
  have hones : 2 ^ n - 1 < 2 ^ n := Nat.sub_lt (Nat.two_pow_pos n) Nat.one_pos
  have hbyte : ∀ b : Byte, b.toNat < 2 ^ n := fun b => b.isLt.trans_le (Nat.pow_le_pow_right (by decide) hn)
  refine Nat.xor_lt_two_pow (List.foldlRecOn bs _ (motive := (· < 2 ^ n)) hones fun r hr b _ => ?_) hones
  exact List.foldlRecOn _ _ (motive := (· < 2 ^ n)) (Nat.xor_lt_two_pow hr (hbyte b)) fun _ hr' _ _ => crcBit_lt hp hr'

theorem flitCrc_lt (bs : List Byte) : flitCrc bs < 2 ^ 64 := crcOf_lt (by decide) (by decide) bs

theorem slice_append_left (a b : List Byte) : slice (a ++ b) 0 a.length = a := by
  simp [slice]

theorem slice_append_right (a b : List Byte) : slice (a ++ b) a.length b.length = b := by
  simp [slice]

/-- A body of 148 bytes and its CRC make a good flit. -/
theorem goodFlit_of_body {body : List Byte} (h : body.length = 148) : goodFlit (body ++ natLe 8 (flitCrc body)) = true := by
  have hcrc := slice_append_right body (natLe 8 (flitCrc body))
  rw [h, natLe_length] at hcrc
  have htake : (body ++ natLe 8 (flitCrc body)).take 148 = body := by rw [← h, List.take_left']; rfl
  unfold goodFlit field
  rw [hcrc, htake, leNat_natLe, show 256 ^ 8 = 2 ^ 64 from rfl, Nat.mod_eq_of_lt (flitCrc_lt body), List.length_append, h,
    natLe_length, beq_self_eq_true, beq_self_eq_true]
  rfl

theorem goodFlit_mkFlit (kind cls vl : Nat) (som eom : Bool) (seq poison : Nat) (payload : List Byte) :
    goodFlit (mkFlit kind cls vl som eom seq poison payload) = true :=
  goodFlit_of_body (by rw [List.length_append, natLe_length, slice_length])

/-- KIND of a control flit. -/
theorem kind_control (payload : List Byte) : bits (field (mkFlit 2 0 0 false false 0 0 payload) 0 4) 31 30 = 2 := by
  unfold mkFlit field
  dsimp only
  rw [List.append_assoc]
  have h := slice_append_left (natLe 4 (2 * 2 ^ 30 + 0 * 2 ^ 28 + 0 * 2 ^ 27 + b2n false * 2 ^ 26 + b2n false * 2 ^ 25
    + 0 % 4096 * 2 ^ 13 + 0 % 512 * 16))
  rw [natLe_length] at h
  rw [h, leNat_natLe]
  rfl

/-! ### What a link's operation may change -/

@[simp] theorem State.portAt_count (s : State) (u i n p : Nat) : (s.count u i n).portAt p = s.portAt p := by
  rw [State.portAt, State.count_fab, State.portAt]

@[simp] theorem State.portAt_event (s : State) (c a : Nat) (u : Bool) (p : Nat) : (s.event c a u).portAt p = s.portAt p := by
  rw [State.portAt, State.event_fab, State.portAt]

@[simp] theorem State.portAt_emit (s : State) (o : Output) (p : Nat) : (s.emit o).portAt p = s.portAt p := rfl

/-- From s to t only ports have changed, and outputs and live counters have been added. -/
def State.PortWork (s t : State) : Prop :=
  t = { s with out := t.out, obs := { s.obs with live := t.obs.live }, fab := { s.fab with ports := t.fab.ports } }

theorem State.PortWork.refl (s : State) : s.PortWork s := rfl

theorem State.PortWork.trans {s t u : State} (h : s.PortWork t) (h' : t.PortWork u) : s.PortWork u := by
  unfold State.PortWork at *
  rw [h', h]

theorem State.PortWork.modPort (s : State) (p : Nat) (f : PortState → PortState) : s.PortWork (s.modPort p f) := rfl

theorem State.PortWork.emit (s : State) (o : Output) : s.PortWork (s.emit o) := rfl

theorem State.PortWork.count (s : State) (u i n : Nat) : s.PortWork (s.count u i n) := by
  unfold State.PortWork State.count
  split <;> rfl

theorem State.PortWork.host {s t : State} (h : s.PortWork t) : t.host = s.host := (congrArg State.host h :)

theorem State.PortWork.island {s t : State} (h : s.PortWork t) : t.fab.island = s.fab.island := (congrArg (·.fab.island) h :)

/-- From s to t only ports, what follows from which of them are UP, and reports have changed. -/
def State.LinksOnly (s t : State) : Prop :=
  t = ({ s with
    fab := { s.fab with
      ports := t.fab.ports, island := t.fab.island, upPort := t.fab.upPort, hops := t.fab.hops, root := t.fab.root }
    time := { s.time with quality := t.time.quality, slew := t.time.slew, slewPhase := t.time.slewPhase } } : State).reported t

theorem State.LinksOnly.trans {s t u : State} (h : s.LinksOnly t) (h' : t.LinksOnly u) : s.LinksOnly u := by
  unfold State.LinksOnly at *
  rw [h', h]
  rfl

theorem State.LinksOnly.portsOnly {s t : State} (h : s.LinksOnly t) : s.portsOnly t := by
  unfold State.portsOnly
  rw [h]
  rfl

theorem State.LinksOnly.of_reported {s t : State} (h : t = s.reported t) : s.LinksOnly t := by
  unfold State.LinksOnly
  rw [h]
  rfl

theorem State.RootOnly.linksOnly {s t : State} (h : s.RootOnly t) : s.LinksOnly t := by
  unfold State.LinksOnly
  rw [h]
  rfl

theorem State.PortWork.linksOnly {s t : State} (h : s.PortWork t) : s.LinksOnly t := by
  unfold State.LinksOnly
  rw [h]
  rfl

/-- A port as it was, but for the credits that it has returned. -/
def PortState.Credits (q q' : PortState) : Prop := q' = { q with returned := q'.returned }

theorem PortState.Credits.trans {a b c : PortState} (h : a.Credits b) (h' : b.Credits c) : a.Credits c := by
  unfold PortState.Credits at *
  rw [h', h]

/-- A port as it was, but for what putting flits on its lanes changes. -/
def PortState.Lanes (q q' : PortState) : Prop :=
  q' = { q with flitsSent := q'.flitsSent, scramblers := q'.scramblers, sinceControl := q'.sinceControl }

theorem PortState.Lanes.trans {a b c : PortState} (h : a.Lanes b) (h' : b.Lanes c) : a.Lanes c := by
  unfold PortState.Lanes at *
  rw [h', h]

/-- A port as it was, but for what sending flits of queued messages changes. -/
def PortState.Sends (q q' : PortState) : Prop :=
  q' = { q with
    txSeq := q'.txSeq, replay := q'.replay, sent := q'.sent, turns := q'.turns, queue := q'.queue, returned := q'.returned
    flitsSent := q'.flitsSent, scramblers := q'.scramblers, sinceControl := q'.sinceControl }

theorem PortState.Sends.trans {a b c : PortState} (h : a.Sends b) (h' : b.Sends c) : a.Sends c := by
  unfold PortState.Sends at *
  rw [h', h]

theorem PortState.Credits.sends {a b : PortState} (h : a.Credits b) : a.Sends b := by
  unfold PortState.Sends
  rw [h]

theorem PortState.Lanes.sends {a b : PortState} (h : a.Lanes b) : a.Sends b := by
  unfold PortState.Sends
  rw [h]

/-- Other ports return credits only. -/
theorem State.otherPorts_of_eq {s t : State} {p : Nat} (h : ∀ r, r ≠ p → t.portAt r = s.portAt r) : s.otherPorts p t :=
  fun r hr => by rw [h r hr]

theorem State.otherPorts_trans {s t u : State} {p : Nat} (h : s.otherPorts p t) (h' : t.otherPorts p u) : s.otherPorts p u :=
  fun r hr => PortState.Credits.trans (h r hr) (h' r hr)

theorem State.modPort_other (s : State) {p r : Nat} (f : PortState → PortState) (h : r ≠ p) : (s.modPort p f).portAt r = s.portAt r := by
  rw [State.portAt_modPort, if_neg h]

theorem State.modPort_self (s : State) (p : Nat) (f : PortState → PortState) : (s.modPort p f).portAt p = f (s.portAt p) := by
  rw [State.portAt_modPort, if_pos rfl]

/-! ### Credits that go back (R463) -/

/-- From s to t credits have gone back, and nothing else has changed but reports. -/
def State.CreditWork (s t : State) : Prop := s.PortWork t ∧ ∀ r, (s.portAt r).Credits (t.portAt r)

theorem State.CreditWork.refl (s : State) : s.CreditWork s := ⟨.refl s, fun _ => rfl⟩

theorem State.CreditWork.trans {s t u : State} (h : s.CreditWork t) (h' : t.CreditWork u) : s.CreditWork u :=
  ⟨h.1.trans h'.1, fun r => (h.2 r).trans (h'.2 r)⟩

theorem State.CreditWork.count (s : State) (u i n : Nat) : s.CreditWork (s.count u i n) :=
  ⟨.count s u i n, fun r => by rw [State.portAt_count]; rfl⟩

theorem State.returnCredit_work (s : State) (o : Option (Nat × Nat × Nat)) (n : Nat) : s.CreditWork (s.returnCredit o n) := by
  match o with
  | none => exact .refl s
  | some (p, link, i) =>
    refine ⟨.modPort s p _, fun r => ?_⟩
    show PortState.Credits _ ((s.modPort p _).portAt r)
    rw [State.portAt_modPort]
    split
    next h =>
      subst h
      split <;> rfl
    next => rfl

theorem State.returnCredits_work : ∀ (os : List Outgoing) {s t : State}, s.CreditWork t →
    s.CreditWork (os.foldl (fun s o => s.returnCredit o.origin (o.msg.flits - o.sent)) t)
  | [], _, _, h => h
  | _ :: os, _, _, h => State.returnCredits_work os (h.trans (State.returnCredit_work _ _ _))

/-! ### Operations of one port -/

/-- From s to t port p has changed as R says, other ports have returned credits, and nothing else has changed but outputs and
counters. -/
structure State.PortStep (R : PortState → PortState → Prop) (p : Nat) (s t : State) : Prop where
  work : s.PortWork t
  others : s.otherPorts p t
  own : R (s.portAt p) (t.portAt p)

section
variable {R R' R'' : PortState → PortState → Prop} {p : Nat} {s t u : State}

theorem State.PortStep.comp (hR : ∀ a b c, R a b → R' b c → R'' a c) (h : State.PortStep R p s t) (h' : State.PortStep R' p t u) :
    State.PortStep R'' p s u :=
  ⟨h.work.trans h'.work, State.otherPorts_trans h.others h'.others, hR _ _ _ h.own h'.own⟩

theorem State.PortStep.mono (hR : ∀ a b, R a b → R' a b) (h : State.PortStep R p s t) : State.PortStep R' p s t :=
  ⟨h.work, h.others, hR _ _ h.own⟩

theorem State.PortStep.then_lanes (h : State.PortStep PortState.Lanes p s t) (h' : State.PortStep PortState.Lanes p t u) :
    State.PortStep PortState.Lanes p s u := h.comp (R' := PortState.Lanes) (fun _ _ _ => PortState.Lanes.trans) h'

theorem State.PortStep.then_sends (h : State.PortStep PortState.Sends p s t) (h' : State.PortStep PortState.Sends p t u) :
    State.PortStep PortState.Sends p s u := h.comp (R' := PortState.Sends) (fun _ _ _ => PortState.Sends.trans) h'

theorem State.PortStep.then_count (h : State.PortStep R p s t) (u i n : Nat) : State.PortStep R p s (t.count u i n) :=
  ⟨h.work.trans (.count t u i n), fun r hr => by rw [State.portAt_count]; exact h.others r hr, by rw [State.portAt_count]; exact h.own⟩

theorem State.PortStep.then_modPort {f : PortState → PortState} (hf : ∀ q, R (s.portAt p) q → R' (s.portAt p) (f q))
    (h : State.PortStep R p s t) : State.PortStep R' p s (t.modPort p f) :=
  ⟨h.work.trans (.modPort t p f), fun r hr => by rw [State.modPort_other _ _ hr]; exact h.others r hr,
    by rw [State.modPort_self]; exact hf _ h.own⟩

theorem State.PortStep.sends (h : State.PortStep PortState.Lanes p s t) : State.PortStep PortState.Sends p s t :=
  h.mono fun _ _ => PortState.Lanes.sends

theorem State.CreditWork.sends (h : s.CreditWork t) : State.PortStep PortState.Sends p s t :=
  ⟨h.1, fun r _ => h.2 r, (h.2 p).sends⟩

theorem State.CreditWork.step (h : s.CreditWork t) : State.PortStep PortState.Credits p s t := ⟨h.1, fun r _ => h.2 r, h.2 p⟩

theorem State.PortStep.modPort {f : PortState → PortState} (h : R (s.portAt p) (f (s.portAt p))) :
    State.PortStep R p s (s.modPort p f) :=
  ⟨.modPort s p f, State.otherPorts_of_eq fun _ hr => s.modPort_other f hr, by rw [State.modPort_self]; exact h⟩

end

/-! ### Sending -/

theorem State.putFlit_lanes (s : State) (p : Nat) (flit : List Byte) : State.PortStep PortState.Lanes p s (s.putFlit p flit) := by
  refine ⟨rfl, State.otherPorts_of_eq fun r hr => s.modPort_other _ hr, ?_⟩
  unfold State.putFlit
  dsimp only
  rw [State.portAt_emit, State.modPort_self]
  rfl

/-- What a flit that is put on a port changes of the port, and the report of it. -/
theorem State.putFlit_spec (s : State) (p : Nat) (flit : List Byte) :
    (∃ levels, (s.putFlit p flit).out = s.out ++ [.flit p flit levels]) ∧
    (s.putFlit p flit).portAt p = { s.portAt p with
      flitsSent := (s.portAt p).flitsSent + 1, scramblers := ((s.putFlit p flit).portAt p).scramblers
      sinceControl := if bits (field flit 0 4) 31 30 = 2 then 0 else (s.portAt p).sinceControl + 1 } ∧
    (∀ r, r ≠ p → (s.putFlit p flit).portAt r = s.portAt r) ∧
    s.putFlit p flit = { s with out := (s.putFlit p flit).out, fab := { s.fab with ports := (s.putFlit p flit).fab.ports } } := by
  refine ⟨⟨_, rfl⟩, ?_, fun r hr => s.modPort_other _ hr, rfl⟩
  unfold State.putFlit
  dsimp only
  rw [State.portAt_emit, State.modPort_self]

theorem State.putData_lanes (s : State) (p : Nat) (flit : List Byte) : State.PortStep PortState.Lanes p s (s.putData p flit) := by
  unfold State.putData
  split
  · exact (s.putFlit_lanes p _).then_lanes (State.putFlit_lanes _ _ _)
  · exact State.putFlit_lanes _ _ _

theorem State.sendFlit_sends (s : State) (p : Nat) (o : Outgoing) : State.PortStep PortState.Sends p s (s.sendFlit p o) := by
  unfold State.sendFlit
  refine State.PortStep.then_sends ?_ ((State.CreditWork.count _ _ _ _).trans (State.returnCredit_work _ _ _)).sends
  refine State.PortStep.then_sends ?_ (State.putData_lanes _ p _).sends
  exact State.PortStep.modPort rfl

theorem State.pumpPort_sends (p : Nat) : ∀ (n : Nat) (s : State), State.PortStep PortState.Sends p s (State.pumpPort n p s)
  | 0, s => ⟨rfl, fun _ _ => rfl, rfl⟩
  | n + 1, s => by
    unfold State.pumpPort
    split
    · exact (s.sendFlit_sends p _).then_sends (State.pumpPort_sends p n _)
    · exact ⟨rfl, fun _ _ => rfl, rfl⟩

theorem State.queueMsg_sends (s : State) (p : Nat) (o : Outgoing) : State.PortStep PortState.Sends p s (s.queueMsg p o) := by
  unfold State.queueMsg
  refine State.PortStep.then_sends ?_ (State.pumpPort_sends p 512 _)
  exact State.PortStep.modPort rfl

/-- The flit that an output puts on port p. -/
def flitOn (p : Nat) : Output → Option (List Byte)
  | .flit r f _ => if r = p then some f else none
  | _ => none

theorem State.putData_out (s : State) (p : Nat) (flit : List Byte) :
    ∃ before levels, (s.putData p flit).out = s.out ++ before ++ [.flit p flit levels] := by
  unfold State.putData
  split
  · obtain ⟨levels, h⟩ := (s.putFlit_spec p (mkFlit 2 0 0 false false 0 0 (s.controlPayload p))).1
    obtain ⟨levels', h'⟩ := ((s.sendControl p).putFlit_spec p flit).1
    exact ⟨_, levels', h'.trans (congrArg (· ++ _) h)⟩
  · obtain ⟨levels, h⟩ := (s.putFlit_spec p flit).1
    exact ⟨[], levels, by rw [h, List.append_nil]⟩

/-- Flits that are put on a port one after the other. -/
theorem State.putAll_spec (p : Nat) : ∀ (fs : List (Nat × List Byte)) (s : State),
    State.PortStep PortState.Lanes p s (fs.foldl (fun s b => s.putData p b.2) s) ∧
    ∃ sent, (fs.foldl (fun s b => s.putData p b.2) s).out = s.out ++ sent ∧
      (fs.map (·.2)).Sublist (sent.filterMap (flitOn p))
  | [], s => ⟨⟨rfl, fun _ _ => rfl, rfl⟩, [], (List.append_nil _).symm, .slnil⟩
  | b :: fs, s => by
    obtain ⟨hstep, sent, hout, hsub⟩ := State.putAll_spec p fs (s.putData p b.2)
    obtain ⟨before, levels, hb⟩ := s.putData_out p b.2
    refine ⟨(s.putData_lanes p b.2).then_lanes hstep, before ++ .flit p b.2 levels :: sent, ?_, ?_⟩
    · rw [List.foldl_cons, hout, hb]
      simp
    · rw [List.filterMap_append, List.map_cons]
      refine List.Sublist.trans ?_ (List.sublist_append_right _ _)
      rw [List.filterMap_cons_some (b := b.2) (show flitOn p (.flit p b.2 levels) = some b.2 from if_pos rfl)]
      exact hsub.cons_cons _

/-! ### What a port discards (R477) -/

/-- The messages that a test names leave a port's queue, and their credits go back. -/
theorem State.dropQueue_spec (s : State) (p : Nat) (drop : Outgoing → Bool) :
    State.PortStep (fun q q' => q' = { q with queue := q.queue.filter (fun o => !drop o), returned := q'.returned }) p s
      (s.dropQueue p drop) := by
  unfold State.dropQueue
  refine State.PortStep.comp (R := fun q q' => q' = { q with queue := q.queue.filter (fun o => !drop o) }) (R' := PortState.Credits)
    (fun a b c h h' => ?_) (State.PortStep.modPort rfl) (State.returnCredits_work _ (State.CreditWork.count _ _ _ _)).step
  unfold PortState.Credits at h'
  rw [h', h]

/-- What a port keeps of a link whose partner is gone. -/
def PortState.dropped (q : PortState) : PortState :=
  { q with
    queue := [], replay := [], txSeq := 0, rxSeq := 0, nak := false, resends := 0, partial' := [], closing := false
    sent := List.replicate 8 0, got := List.replicate 8 0, returned := List.replicate 8 0, limits := List.replicate 8 0
    link := q.link + 1, rootClass := 3 }

theorem State.dropPort_spec (s : State) (p : Nat) : State.PortStep (fun q q' => q' = q.dropped) p s (s.dropPort p) := by
  unfold State.dropPort
  refine State.PortStep.then_count (State.PortStep.then_modPort (fun q h => ?_) (s.dropQueue_spec p fun _ => true)) _ _ _
  rw [h, Bool.not_true, List.filter_false]
  rfl

end Sys2Proof.Machine
end

section
/-! PROOFS. Ports train, lock, fail, retrain and go off (R445 to R453, R460, R461, R477 to R479). -/

namespace Sys2Proof.Machine

/-! ### Events -/

theorem State.event_length (s : State) (c a : Nat) (u : Bool) :
    (s.event c a u).host.events.length ≤ s.host.events.length + 1 := by
  unfold State.event State.bufferEvent
  split
  · simp
  · simp

/-- An event that finds fewer than 512 before it is posted (R571, R573). -/
theorem State.event_posted {s : State} (h : s.host.events.length < 512) (c a : Nat) (u : Bool) :
    ∃ st, eventRecord c a u false st ∈ (s.event c a u).host.events := by
  refine ⟨s.stamp, ?_⟩
  unfold State.event State.bufferEvent
  rw [if_pos (by omega)]
  simp

/-! ### Operations that change which ports are UP -/

/-- From s to t ports other than p have returned credits, and besides p only what follows from the ports in UP and reports have
changed, with at most n events. -/
structure State.LinkWork (p n : Nat) (s t : State) : Prop where
  only : s.LinksOnly t
  others : s.otherPorts p t
  events : t.host.events.length ≤ s.host.events.length + n

section
variable {R : PortState → PortState → Prop} {p m n : Nat} {s t u : State}

theorem State.LinkWork.trans (h : State.LinkWork p m s t) (h' : State.LinkWork p n t u) : State.LinkWork p (m + n) s u :=
  ⟨h.only.trans h'.only, State.otherPorts_trans h.others h'.others, by
    have := h.events
    have := h'.events
    omega⟩

theorem State.PortStep.linkWork (h : State.PortStep R p s t) : State.LinkWork p 0 s t :=
  ⟨h.work.linksOnly, h.others, by rw [h.work.host]; rfl⟩

theorem State.LinkWork.mono (h : State.LinkWork p m s t) (hm : m ≤ n) : State.LinkWork p n s t :=
  ⟨h.only, h.others, h.events.trans (by omega)⟩

theorem State.PortStep.refl (h : ∀ q, R q q) : State.PortStep R p s s := ⟨rfl, fun _ _ => rfl, h _⟩

end

theorem State.event_link (p : Nat) (s : State) (c a : Nat) (u : Bool) : State.LinkWork p 1 s (s.event c a u) :=
   ⟨.of_reported (s.event_reported c a u), State.otherPorts_of_eq fun r _ => by rw [State.portAt_event], s.event_length c a u⟩

/-- A NEIGHBOUR event and CHANGED (R477). -/
theorem State.neighbour_spec (s : State) (p chip : Nat) (dup : Bool) : State.LinkWork p 1 s (s.neighbour p chip dup) ∧
    (s.neighbour p chip dup).portAt p = { s.portAt p with changed := true } ∧
    ∀ r, r ≠ p → (s.neighbour p chip dup).portAt r = s.portAt r := by
  unfold State.neighbour
  have hmod : State.PortStep (fun _ _ => True) p s (s.modPort p fun q => { q with changed := true }) := .modPort trivial
  refine ⟨hmod.linkWork.trans (State.event_link p _ _ _ _), ?_, fun r hr => ?_⟩
  · rw [State.portAt_event, State.modPort_self]
  · rw [State.portAt_event, State.modPort_other _ _ hr]

/-- ISLAND holds exactly where no port is UP (R479). -/
theorem State.checkIsland_spec (s : State) : s.LinksOnly s.checkIsland ∧ s.checkIsland.fab.ports = s.fab.ports ∧
    s.checkIsland.fab.island = decide (s.upPorts = []) ∧ s.checkIsland.host.events.length ≤ s.host.events.length + 1 := by
  unfold State.checkIsland
  split
  next h =>
    split
    next hi => exact ⟨rfl, rfl, by simp [h, hi], Nat.le_succ _⟩
    next =>
      have hev := State.event_link 0 ({ s with fab := { s.fab with island := true } } : State) 0x0403 0 true
      refine ⟨State.LinksOnly.trans (t := { s with fab := { s.fab with island := true } }) rfl hev.only, ?_, ?_, hev.events⟩
      · rw [State.event_fab]
      · simp [h]
  next h => exact ⟨rfl, rfl, by simp [h], Nat.le_succ _⟩

/-- Ports stay as they are while ISLAND, root and quality follow from them (R479, R488). -/
theorem State.portsMoved_spec (s : State) : s.LinksOnly s.portsMoved ∧ s.portsMoved.fab.ports = s.fab.ports ∧
    s.portsMoved.fab.island = decide (s.upPorts = []) ∧ s.portsMoved.host.events.length ≤ s.host.events.length + 1 := by
  obtain ⟨honly, hports, hisland, hev⟩ := s.checkIsland_spec
  have hroot := s.checkIsland.chooseRoot_rootOnly
  have htold := s.checkIsland.chooseRoot.tellQuality_out_only s
  have hfab : s.portsMoved.fab = s.checkIsland.chooseRoot.fab := (congrArg State.fab htold :)
  refine ⟨honly.trans (hroot.linksOnly.trans (.of_reported ?_)), ?_, ?_, ?_⟩
  · exact State.tellQuality_reported _ _
  · rw [hfab, ← hports]
    exact (congrArg (·.fab.ports) hroot :)
  · rw [hfab, ← hisland]
    exact (congrArg (·.fab.island) hroot :)
  · have hhost : s.portsMoved.host = s.checkIsland.chooseRoot.host := (congrArg State.host htold :)
    have hhost' : s.checkIsland.chooseRoot.host = s.checkIsland.host := (congrArg State.host hroot :)
    rw [hhost, hhost']
    exact hev

theorem State.portsMoved_portAt (s : State) (r : Nat) : s.portsMoved.portAt r = s.portAt r := by
  unfold State.portAt
  rw [s.portsMoved_spec.2.1]

theorem State.portsMoved_link (p : Nat) (s : State) : State.LinkWork p 1 s s.portsMoved :=
  ⟨s.portsMoved_spec.1, State.otherPorts_of_eq fun r _ => s.portsMoved_portAt r, s.portsMoved_spec.2.2.2⟩

/-! ### Leaving a partner (R477) -/

theorem State.seekPartner_step (s : State) (p : Nat) : State.PortStep Eq p s (s.seekPartner p) := by
  refine ⟨(State.PortWork.count _ _ _ _).trans (.emit _ _), State.otherPorts_of_eq fun r _ => ?_, ?_⟩
  all_goals
    unfold State.seekPartner
    rw [State.portAt_emit, State.portAt_count]

/-- A port that leaves for a state with no partner, from q. -/
structure PortState.Left (q : PortState) (m : PortMode) (q' : PortState) : Prop where
  mode : q'.mode = m
  known : q'.known = false
  emptied : q.linked = true → q'.queue = [] ∧ q'.replay = [] ∧ q'.closing = false

theorem State.leaveUp_spec (s : State) (p : Nat) (m : PortMode) :
    State.LinkWork p 2 s (s.leaveUp p m) ∧ (s.portAt p).Left m ((s.leaveUp p m).portAt p) := by
  obtain ⟨a, ha⟩ : ∃ a, (if (s.portAt p).linked then s.dropPort p else s).modPort p
      (fun q => { q with mode := m, step := 0, known := false }) = a := ⟨_, rfl⟩
  have hsa : State.PortStep (fun q q' => q.Left m q') p s a := by
    rw [← ha]
    split
    next h => exact (s.dropPort_spec p).then_modPort fun q hq => ⟨rfl, rfl, fun _ => by rw [hq]; exact ⟨rfl, rfl, rfl⟩⟩
    next h => exact State.PortStep.modPort ⟨rfl, rfl, fun h' => absurd h' h⟩
  obtain ⟨b, hb⟩ : ∃ b, (if m = .seek then a.seekPartner p else a) = b := ⟨_, rfl⟩
  have hab : State.PortStep Eq p a b := by
    rw [← hb]
    split
    · exact a.seekPartner_step p
    · exact .refl fun _ => rfl
  obtain ⟨c, hc⟩ : ∃ c, (if (s.portAt p).mode == .up || (s.portAt p).mode == .retrain then b.neighbour p 0x7FFF false else b) = c :=
    ⟨_, rfl⟩
  have hbc : State.LinkWork p 1 b c ∧ (c.portAt p = b.portAt p ∨ c.portAt p = { b.portAt p with changed := true }) := by
    rw [← hc]
    split
    · exact ⟨(b.neighbour_spec p _ _).1, .inr (b.neighbour_spec p _ _).2.1⟩
    · exact ⟨(State.PortStep.refl (R := Eq) fun _ => rfl).linkWork.mono (by decide), .inl rfl⟩
  have ht : s.leaveUp p m = c.portsMoved := by
    rw [← hc, ← hb, ← ha]
    rfl
  rw [ht, State.portsMoved_portAt]
  refine ⟨(hsa.linkWork.trans (hab.linkWork.trans (hbc.1.trans (c.portsMoved_link p)))).mono (by decide), ?_⟩
  obtain h | h := hbc.2
  · rw [h, ← hab.own]
    exact hsa.own
  · rw [h, ← hab.own]
    exact ⟨hsa.own.mode, hsa.own.known, hsa.own.emptied⟩

/-! ### Training failures (R447, R448) -/

theorem State.LinkWork.then_modPort {p n : Nat} {s t : State} (h : State.LinkWork p n s t) (f : PortState → PortState) :
    State.LinkWork p n s (t.modPort p f) :=
  (h.trans (State.PortStep.modPort (R := fun _ _ => True) trivial).linkWork).mono (by omega)

/-- A training failure is counted: the port is OFF if it is closing, FAILED with its event at the third, else in SEEK. -/
theorem State.trainFail_spec (s : State) (p : Nat) : ∃ n, State.LinkWork p n s (s.trainFail p) ∧
    ((s.trainFail p).portAt p).fails = (s.portAt p).fails + 1 ∧
    ((s.portAt p).closing = true → ((s.trainFail p).portAt p).mode = .off) ∧
    ((s.portAt p).closing = false → (s.portAt p).fails < 2 → ((s.trainFail p).portAt p).mode = .seek) ∧
    ((s.portAt p).closing = false → 2 ≤ (s.portAt p).fails → ((s.trainFail p).portAt p).mode = .failed ∧
      (s.host.events.length < 500 → ∃ st, eventRecord 0x0401 p false false st ∈ (s.trainFail p).host.events)) := by
  obtain ⟨a, ha⟩ : ∃ a, s.count (portDie p) (fabCtr 7) 1 = a := ⟨_, rfl⟩
  have hsa : State.PortStep Eq p s a := by
    rw [← ha]
    exact (State.PortStep.refl fun _ => rfl).then_count _ _ _
  have left : ∀ m, State.LinkWork p 2 s ((a.leaveUp p m).modPort p fun q => { q with fails := (s.portAt p).fails + 1 }) ∧
      (((a.leaveUp p m).modPort p fun q => { q with fails := (s.portAt p).fails + 1 }).portAt p).mode = m ∧
      (((a.leaveUp p m).modPort p fun q => { q with fails := (s.portAt p).fails + 1 }).portAt p).fails = (s.portAt p).fails + 1 := by
    intro m
    obtain ⟨hlink, hleft⟩ := a.leaveUp_spec p m
    refine ⟨(hsa.linkWork.trans (hlink.then_modPort _)).mono (by decide), ?_, ?_⟩
    · rw [State.modPort_self]
      exact hleft.mode
    · rw [State.modPort_self]
  have ht : s.trainFail p = if (s.portAt p).closing then (a.leaveUp p .off).modPort p fun q => { q with fails := (s.portAt p).fails + 1 }
      else if 3 ≤ (s.portAt p).fails + 1 then
        ((a.leaveUp p .failed).modPort p fun q => { q with fails := (s.portAt p).fails + 1 }).event 0x0401 p false
      else (a.leaveUp p .seek).modPort p fun q => { q with fails := (s.portAt p).fails + 1 } := by
    rw [hsa.own, ← ha]
    rfl
  rw [ht]
  cases hc : (s.portAt p).closing
  case true =>
    obtain ⟨hlink, hmode, hfails⟩ := left .off
    exact ⟨_, hlink, hfails, fun _ => hmode, nofun, nofun⟩
  case false =>
    by_cases h3 : 3 ≤ (s.portAt p).fails + 1
    · obtain ⟨hlink, hmode, hfails⟩ := left .failed
      rw [if_neg (by decide), if_pos h3]
      refine ⟨_, hlink.trans (State.event_link p _ _ _ _), ?_, nofun, fun _ h => by omega, fun _ _ => ⟨?_, fun h => ?_⟩⟩
      · rw [State.portAt_event]
        exact hfails
      · rw [State.portAt_event]
        exact hmode
      · have := hlink.events
        exact State.event_posted (by omega) _ _ _
    · obtain ⟨hlink, hmode, hfails⟩ := left .seek
      rw [if_neg (by decide), if_neg h3]
      exact ⟨_, hlink, hfails, nofun, fun _ _ => hmode, fun _ h => by omega⟩

/-! ### Reaching UP (R461, R477, R478) -/

/-- The partner of a port is the one it had. -/
def PortState.samePartner (q : PortState) : Bool := q.known && q.port = q.newPort && q.serial = q.newSerial

/-- A port that has just reached UP, from q. -/
structure PortState.Reached (q q' : PortState) : Prop where
  mode : q'.mode = .up
  fails : q'.fails = 0
  known : q'.known = true
  chip : q'.chip = q.newChip
  port : q'.port = q.newPort
  serial : q'.serial = q.newSerial
  stays : q.closing = false → q'.closing = false
  kept : (q.known = true → q.port = q.newPort ∧ q.serial = q.newSerial) → q'.closing = q.closing ∧ q'.replay = q.replay

/-- Where a port reaches UP, what it held for another partner is discarded. -/
def State.partnerDropped (s : State) (p : Nat) : State :=
  if (s.portAt p).samePartner then s else (if (s.portAt p).known then s.dropPort p else s)

/-- A port has reached UP, before it sends again what it kept. -/
def State.reached (s : State) (p : Nat) : State :=
  let q := s.portAt p
  let t := s.partnerDropped p
  ((t.modPort p (fun x => { x with
    mode := .up, step := 0, fails := 0, known := true, chip := x.newChip, port := x.newPort, serial := x.newSerial
    duplicate := q.newChip = t.chipId, resends := 0
    limits := if q.samePartner then x.limits else (List.range 8).map (fun i => classBuffer (i / 2)), lockFrom := 0, lockGood := 0
    })).neighbour p q.newChip (q.newChip = t.chipId)).portsMoved

/-- A port in UP sends again what it kept of the link with the same partner (R461). -/
def State.reachedResent (s : State) (p : Nat) : State :=
  if (s.portAt p).samePartner then ((s.reached p).portAt p).replay.foldl (fun s b => s.putData p b.2) (s.reached p) else s.reached p

theorem State.reachUp_eq (s : State) (p : Nat) : s.reachUp p =
    if ((s.reachedResent p).portAt p).closing && ((s.reachedResent p).portAt p).replay.isEmpty then (s.reachedResent p).leaveUp p .off
    else State.pumpPort 512 p (s.reachedResent p) := rfl

/-- What is discarded leaves the partner shown; nothing is where the partner is the same or none was known. -/
theorem State.partnerDropped_step (s : State) (p : Nat) : State.PortStep (fun q q' =>
    q' = q ∨ q' = q.dropped ∧ q.samePartner = false ∧ q.known = true) p s (s.partnerDropped p) := by
  unfold State.partnerDropped
  split
  · exact .refl fun _ => .inl rfl
  next hsame =>
    split
    next hk =>
      have h := s.dropPort_spec p
      exact ⟨h.work, h.others, .inr ⟨h.own, Bool.eq_false_iff.mpr hsame, hk⟩⟩
    · exact .refl fun _ => .inl rfl

theorem State.reached_spec (s : State) {p : Nat} (hp : p < 12) : State.LinkWork p 2 s (s.reached p) ∧
    (s.portAt p).Reached ((s.reached p).portAt p) ∧ (s.reached p).fab.island = false := by
  have hdrop := s.partnerDropped_step p
  unfold State.reached
  generalize s.partnerDropped p = t at hdrop
  extract_lets q
  obtain ⟨a, ha⟩ : ∃ a, t.modPort p (fun x => { x with
    mode := .up, step := 0, fails := 0, known := true, chip := x.newChip, port := x.newPort, serial := x.newSerial
    duplicate := q.newChip = t.chipId, resends := 0
    limits := if q.samePartner then x.limits else (List.range 8).map (fun i => classBuffer (i / 2)), lockFrom := 0, lockGood := 0
    }) = a := ⟨_, rfl⟩
  have hsa : State.PortStep PortState.Reached p s a := by
    rw [← ha]
    refine hdrop.then_modPort fun x hx => ?_
    obtain rfl | ⟨rfl, hsame, hk⟩ := hx
    · exact ⟨rfl, rfl, rfl, rfl, rfl, rfl, fun h => h, fun _ => ⟨rfl, rfl⟩⟩
    · refine ⟨rfl, rfl, rfl, rfl, rfl, rfl, fun _ => rfl, fun h => ?_⟩
      obtain ⟨hport, hserial⟩ := h hk
      simp [PortState.samePartner, hk, hport, hserial] at hsame
  rw [ha]
  obtain ⟨hlink, hown, -⟩ := a.neighbour_spec p q.newChip (q.newChip = t.chipId)
  generalize a.neighbour p q.newChip (q.newChip = t.chipId) = b at hlink hown
  have hr := hsa.own
  have hb : (s.portAt p).Reached (b.portAt p) := by
    rw [hown]
    exact ⟨hr.mode, hr.fails, hr.known, hr.chip, hr.port, hr.serial, hr.stays, hr.kept⟩
  refine ⟨(hsa.linkWork.trans (hlink.trans (b.portsMoved_link p))).mono (by decide), by rw [State.portsMoved_portAt]; exact hb, ?_⟩
  rw [b.portsMoved_spec.2.2.1, decide_eq_false_iff_not]
  refine List.ne_nil_of_mem (a := p) (List.mem_filter.mpr ⟨List.mem_range.mpr hp, ?_⟩)
  rw [hb.mode]
  rfl

theorem State.reachedResent_lanes (s : State) (p : Nat) : State.PortStep PortState.Lanes p (s.reached p) (s.reachedResent p) := by
  unfold State.reachedResent
  split
  · exact (State.putAll_spec p _ _).1
  · exact .refl fun _ => rfl

theorem PortState.Lanes.reached {q a b : PortState} (h : q.Reached a) (hab : a.Lanes b) : q.Reached b := by
  unfold PortState.Lanes at hab
  rw [hab]
  exact ⟨h.mode, h.fails, h.known, h.chip, h.port, h.serial, h.stays, h.kept⟩

/-- Reaching UP: the port is UP and ISLAND clear where it is not closing; a closing port with nothing kept goes OFF (R448, R461). -/
theorem State.reachUp_spec (s : State) {p : Nat} (hp : p < 12) : (∃ n, State.LinkWork p n s (s.reachUp p)) ∧
    ((s.portAt p).closing = false → (s.reachUp p).fab.island = false ∧ ∃ q, (s.portAt p).Reached q ∧ q.Sends ((s.reachUp p).portAt p)) ∧
    ((s.portAt p).closing = true → (s.portAt p).replay = [] →
      ((s.portAt p).known = true → (s.portAt p).port = (s.portAt p).newPort ∧ (s.portAt p).serial = (s.portAt p).newSerial) →
      ((s.reachUp p).portAt p).mode = .off) := by
  obtain ⟨hlink, hreach, hisland⟩ := s.reached_spec hp
  have hlanes := s.reachedResent_lanes p
  rw [State.reachUp_eq]
  generalize s.reachedResent p = t at hlanes
  have ht := PortState.Lanes.reached hreach hlanes.own
  split
  next h =>
    simp only [Bool.and_eq_true] at h
    have hleave := t.leaveUp_spec p .off
    refine ⟨⟨_, hlink.trans (hlanes.linkWork.trans hleave.1)⟩, fun hc => ?_, fun _ _ _ => hleave.2.mode⟩
    rw [ht.stays hc] at h
    exact absurd h.1 Bool.false_ne_true
  next h =>
    have hpump := State.pumpPort_sends p 512 t
    refine ⟨⟨_, hlink.trans (hlanes.linkWork.trans hpump.linkWork)⟩, fun _ => ⟨?_, _, ht, hpump.own⟩, fun hc hr hk => ?_⟩
    · rw [hpump.work.island, hlanes.work.island, hisland]
    · obtain ⟨hclosing, hreplay⟩ := ht.kept hk
      simp [hclosing, hc, hreplay, hr] at h

/-! ### Resending (R459 to R461) -/

theorem State.enterRetrain_spec {s : State} {p : Nat} (h : (s.portAt p).mode = .up) : State.LinkWork p 1 s (s.enterRetrain p) ∧
    ((s.enterRetrain p).portAt p).mode = .retrain ∧ ((s.enterRetrain p).portAt p).replay = (s.portAt p).replay ∧
    ((s.enterRetrain p).portAt p).closing = (s.portAt p).closing := by
  have hstep : State.PortStep (fun q q' => q'.mode = .retrain ∧ q'.replay = q.replay ∧ q'.closing = q.closing) p s
      ((s.modPort p (fun q => { q with
      mode := .retrain, newChip := q.chip, newPort := q.port, newSerial := q.serial })).count (portDie p) (fabCtr 4) 1) :=
    .then_count (.modPort ⟨rfl, rfl, rfl⟩) _ _ _
  unfold State.enterRetrain
  rw [if_neg (not_not.mpr h)]
  refine ⟨(hstep.linkWork.trans (State.portsMoved_link p _)).mono (by decide), ?_⟩
  rw [State.portsMoved_portAt]
  exact hstep.own

theorem State.resendAll_spec {s : State} {p : Nat} (h : (s.portAt p).mode = .up) (hr : (s.portAt p).replay ≠ []) :
    State.LinkWork p 1 s (s.resendAll p) ∧ ((s.resendAll p).portAt p).replay = (s.portAt p).replay ∧
    ((s.portAt p).resends < 16 → ((s.resendAll p).portAt p).mode = .up ∧
      ((s.resendAll p).portAt p).resends = (s.portAt p).resends + 1 ∧
      ((s.portAt p).replay.map (·.2)).Sublist (((s.resendAll p).out.drop s.out.length).filterMap (flitOn p))) ∧
    (16 ≤ (s.portAt p).resends → ((s.resendAll p).portAt p).mode = .retrain) := by
  unfold State.resendAll
  rw [if_neg hr]
  split
  next hmax =>
    obtain ⟨hlink, hmode, hreplay, -⟩ := State.enterRetrain_spec h
    exact ⟨hlink, hreplay, fun h' => by omega, fun _ => hmode⟩
  next hless =>
    obtain ⟨a, ha⟩ : ∃ a, (s.count (portDie p) (fabCtr 3) 1).modPort p (fun q => { q with resends := q.resends + 1 }) = a := ⟨_, rfl⟩
    have hsa : State.PortStep (fun q q' => q' = { q with resends := q.resends + 1 }) p s a := by
      rw [← ha]
      exact ((State.PortStep.refl (R := Eq) fun _ => rfl).then_count _ _ _).then_modPort fun q hq => by rw [hq]
    have hout : a.out = s.out := by
      rw [← ha, State.modPort_out, State.count_out]
    dsimp only
    rw [ha]
    obtain ⟨hlanes, sent, hsent, hsub⟩ := State.putAll_spec p (s.portAt p).replay a
    have hown : ((s.portAt p).replay.foldl (fun s b => s.putData p b.2) a).portAt p = _ := hlanes.own
    refine ⟨(hsa.linkWork.trans hlanes.linkWork).mono (by decide), ?_, fun _ => ⟨?_, ?_, ?_⟩, fun h' => absurd h' hless⟩
    · rw [hown, hsa.own]
    · rw [hown, hsa.own]
      exact h
    · rw [hown, hsa.own]
    · rw [hsent, hout, List.drop_left]
      exact hsub

end Sys2Proof.Machine
end

section
/-! PROOFS. The commands of the ports: training, failures, retraining and going off (Table 13.4). -/

namespace Sys2Proof.Machine

/-! ### What a command is on a port of a powered package -/

theorem State.portOn_of {s : State} {p : Nat} (hp : p < 12) (hs : s.powered = true) : s.portOn p = true := by
  simp [State.portOn, hp, hs]

section
variable {s : State} {p : Nat} (hon : s.portOn p = true)
include hon

theorem execPartnerDetected_hears (chip pp serial : Nat) (h : (s.portAt p).mode = .seek ∨ (s.portAt p).mode = .retrain) :
    exec (.partnerDetected p chip pp serial) s = .next (s.modPort p (fun q => { q with
      mode := (if (s.portAt p).mode = .seek then .train else .retrain), step := (if (s.portAt p).mode = .seek then 2 else 0)
      newChip := chip % 32768, newPort := pp % 16, newSerial := serial % 2 ^ 64 })) := by
  show Host.Outcome.next (if !s.portOn p then s else match (s.portAt p).mode with
    | .seek => _ | .retrain => _ | .off | .train | .align | .up | .failed => s) = _
  rw [hon]
  obtain h | h := h
  all_goals
    rw [h]
    rfl

theorem execPartnerDetected_deaf (chip pp serial : Nat) (h : (s.portAt p).mode ≠ .seek) (h' : (s.portAt p).mode ≠ .retrain) :
    exec (.partnerDetected p chip pp serial) s = .next s := by
  show Host.Outcome.next (if !s.portOn p then s else match (s.portAt p).mode with
    | .seek => _ | .retrain => _ | .off | .train | .align | .up | .failed => s) = _
  rw [hon]
  cases hm : (s.portAt p).mode
  case seek => exact absurd hm h
  case retrain => exact absurd hm h'
  all_goals rfl

theorem execLockAchieved_locks (h : (s.portAt p).mode = .align ∨ (s.portAt p).mode = .retrain) :
    exec (.lockAchieved p) s = .next (s.reachUp p) := by
  show Host.Outcome.next (if !s.portOn p then s else match (s.portAt p).mode with
    | .align | .retrain => _ | .off | .seek | .train | .up | .failed => s) = _
  rw [hon]
  obtain h | h := h
  all_goals
    rw [h]
    rfl

theorem execLockAchieved_not (h : (s.portAt p).mode ≠ .align) (h' : (s.portAt p).mode ≠ .retrain) :
    exec (.lockAchieved p) s = .next s := by
  show Host.Outcome.next (if !s.portOn p then s else match (s.portAt p).mode with
    | .align | .retrain => _ | .off | .seek | .train | .up | .failed => s) = _
  rw [hon]
  cases hm : (s.portAt p).mode
  case align => exact absurd hm h
  case retrain => exact absurd hm h'
  all_goals rfl

theorem execTrainingStepTimeout_fails (h : (s.portAt p).mode = .train ∨ (s.portAt p).mode = .align) :
    exec (.trainingStepTimeout p) s = .next (s.trainFail p) := by
  show Host.Outcome.next (if !s.portOn p then s else match (s.portAt p).mode with
    | .train | .align => _ | .off | .seek | .up | .retrain | .failed => s) = _
  rw [hon]
  obtain h | h := h
  all_goals
    rw [h]
    rfl

theorem execTrainingStepTimeout_not (h : (s.portAt p).mode ≠ .train) (h' : (s.portAt p).mode ≠ .align) :
    exec (.trainingStepTimeout p) s = .next s := by
  show Host.Outcome.next (if !s.portOn p then s else match (s.portAt p).mode with
    | .train | .align => _ | .off | .seek | .up | .retrain | .failed => s) = _
  rw [hon]
  cases hm : (s.portAt p).mode
  case train => exact absurd hm h
  case align => exact absurd hm h'
  all_goals rfl

/-- A command that acts where a port is in one state. -/
theorem State.actsIn (m : PortMode) (f : State → State) :
    (if s.portOn p && (s.portAt p).mode == m then f s else s) = if (s.portAt p).mode = m then f s else s := by
  simp [hon]

theorem execRetrainTimeout_eq : exec (.retrainTimeout p) s = .next (if (s.portAt p).mode = .retrain then s.trainFail p else s) :=
  congrArg Host.Outcome.next (State.actsIn hon .retrain (State.trainFail · p))

theorem execReplayTimeout_eq : exec (.replayTimeout p) s = .next (if (s.portAt p).mode = .up then s.resendAll p else s) :=
  congrArg Host.Outcome.next (State.actsIn hon .up (State.resendAll · p))

theorem execLockSearchTimeout_eq : exec (.lockSearchTimeout p) s =
    .next (if (s.portAt p).mode = .align then s.modPort p (fun q => { q with lockGood := 0 }) else s) :=
  congrArg Host.Outcome.next (State.actsIn hon .align fun s => s.modPort p (fun q => { q with lockGood := 0 }))

theorem execPortDisableTimeout_eq : exec (.portDisableTimeout p) s =
    .next (if (s.portAt p).closing = true then s.leaveUp p .off else s) := by
  show Host.Outcome.next (if s.portOn p && (s.portAt p).closing then _ else s) = _
  rw [hon, Bool.true_and]

end

/-! ### TRAINING_STEP_DONE (Table 13.5) -/

/-- What a training step that is done shows is held. -/
def State.stepShown (s : State) (w : TrainStep) : State :=
  s.modPort w.port fun q => { q with
    capabilities := if (s.portAt w.port).step = 2 then w.capabilities else q.capabilities
    laneDelay := if (s.portAt w.port).step = 4 then (w.delayOut, w.delayIn) else q.laneDelay }

/-- After the last step a port is in ALIGN. -/
def State.trainedLast (s : State) (w : TrainStep) : State :=
  (s.stepShown w).modPort w.port fun q => { q with
    step := 5, mode := .align, flitsSent := 0, sinceControl := 0, lockFrom := 0, lockGood := 0 }

theorem execTrainingStepDone_not {s : State} {w : TrainStep} (h : (s.portAt w.port).mode ≠ .train) :
    exec (.trainingStepDone w) s = .next s := by
  refine congrArg Host.Outcome.next (if_neg ?_)
  simp [h]

theorem execTrainingStepDone_early {s : State} {w : TrainStep} (hon : s.portOn w.port = true) (h : (s.portAt w.port).mode = .train)
    (hn : (s.portAt w.port).step < 4) : exec (.trainingStepDone w) s =
    .next ((s.stepShown w).modPort w.port fun q => { q with step := (s.portAt w.port).step + 1 }) :=
  congrArg Host.Outcome.next ((if_pos (by simp [hon, h])).trans (if_pos hn))

theorem execTrainingStepDone_last {s : State} {w : TrainStep} (hon : s.portOn w.port = true) (h : (s.portAt w.port).mode = .train)
    (hn : 4 ≤ (s.portAt w.port).step) : exec (.trainingStepDone w) s = .next ((s.trainedLast w).sendControl w.port) :=
  congrArg Host.Outcome.next ((if_pos (by simp [hon, h])).trans (if_neg (by omega)))

/-- A control flit is put on a port. -/
theorem State.sendControl_spec (s : State) (p : Nat) : (∃ f levels, (s.sendControl p).out = s.out ++ [.flit p f levels] ∧
      goodFlit f = true ∧ bits (field f 0 4) 31 30 = 2) ∧
    (s.sendControl p).portAt p = { s.portAt p with
      flitsSent := (s.portAt p).flitsSent + 1, scramblers := ((s.sendControl p).portAt p).scramblers, sinceControl := 0 } ∧
    (∀ r, r ≠ p → (s.sendControl p).portAt r = s.portAt r) ∧
    s.sendControl p = { s with out := (s.sendControl p).out, fab := { s.fab with ports := (s.sendControl p).fab.ports } } := by
  obtain ⟨⟨levels, hout⟩, hown, hothers, hframe⟩ := s.putFlit_spec p (mkFlit 2 0 0 false false 0 0 (s.controlPayload p))
  rw [kind_control, if_pos rfl] at hown
  exact ⟨⟨_, levels, hout, goodFlit_mkFlit _ _ _ _ _ _ _ _, kind_control _⟩, hown, hothers, hframe⟩

theorem State.trainedLast_portAt (s : State) (w : TrainStep) : (s.trainedLast w).portAt w.port = { s.portAt w.port with
      capabilities := if (s.portAt w.port).step = 2 then w.capabilities else (s.portAt w.port).capabilities
      laneDelay := if (s.portAt w.port).step = 4 then (w.delayOut, w.delayIn) else (s.portAt w.port).laneDelay
      step := 5, mode := .align, flitsSent := 0, sinceControl := 0, lockFrom := 0, lockGood := 0 } := by
  unfold State.trainedLast State.stepShown
  rw [State.modPort_self, State.modPort_self]

theorem State.trainedLast_other (s : State) (w : TrainStep) {r : Nat} (hr : r ≠ w.port) :
    (s.trainedLast w).portAt r = s.portAt r := by
  unfold State.trainedLast State.stepShown
  rw [State.modPort_other _ _ hr, State.modPort_other _ _ hr]

/-! ### HEADER_MISMATCH (R453) -/

/-- A port in UP that has lost its lock. -/
def PortState.unlocked (q : PortState) : PortState :=
  { q with mode := .align, step := 5, newChip := q.chip, newPort := q.port, newSerial := q.serial, lockFrom := 0, lockGood := 0 }

theorem execHeaderMismatch_not {s : State} {p : Nat} (h : (s.portAt p).mode ≠ .up) : exec (.headerMismatch p) s = .next s := by
  refine congrArg Host.Outcome.next (if_neg ?_)
  simp [h]

theorem execHeaderMismatch_up {s : State} {p : Nat} (hon : s.portOn p = true) (h : (s.portAt p).mode = .up) :
    ∃ t, exec (.headerMismatch p) s = .next t ∧ s.portsOnly t ∧ s.otherPorts p t ∧
      t.portAt p = { (s.portAt p).unlocked with
        changed := true, queue := (s.portAt p).queue.filter (fun o => decide (o.sent ≠ 0)), returned := (t.portAt p).returned } := by
  obtain ⟨a, ha⟩ : ∃ a, ((s.dropQueue p fun o => o.sent == 0).modPort p PortState.unlocked).count (portDie p) (fabCtr 5) 1 = a :=
    ⟨_, rfl⟩
  have hstep : State.PortStep (fun q q' => q' = { q.unlocked with
      queue := q.queue.filter (fun o => decide (o.sent ≠ 0)), returned := q'.returned }) p s a := by
    rw [← ha]
    refine State.PortStep.then_count ((s.dropQueue_spec p _).then_modPort fun q hq => ?_) _ _ _
    have hdrop : (fun o : Outgoing => !(o.sent == 0)) = fun o => decide (o.sent ≠ 0) := by
      funext o
      by_cases h : o.sent = 0 <;> simp [h]
    rw [hdrop] at hq
    rw [hq]
    rfl
  obtain ⟨hlink, hown, -⟩ := a.neighbour_spec p 0x7FFF false
  have ht : exec (.headerMismatch p) s = .next (a.neighbour p 0x7FFF false).portsMoved := by
    rw [← ha]
    exact congrArg Host.Outcome.next (if_pos (by simp [hon, h]))
  have hall := hstep.linkWork.trans (hlink.trans (State.portsMoved_link p _))
  refine ⟨_, ht, hall.only.portsOnly, hall.others, ?_⟩
  rw [State.portsMoved_portAt, hown]
  have hq := hstep.own
  rw [hq]

/-! ### The statement -/

/-- Settles O45: each command is one operation of its port, and the operations are those above and in the section before. -/
theorem portsTrainAndFail : Obligations.PortsTrainAndFail := by
  intro s p hp hs q hq
  subst hq
  have hon := State.portOn_of hp hs
  refine ⟨fun chip pp serial => ⟨fun h => ?_, execPartnerDetected_deaf hon chip pp serial⟩,
    fun w hw => ⟨fun h => ?_, fun h => ?_⟩, fun h => ?_, execLockAchieved_not hon, fun h => ?_, fun h => ?_, ?_, fun h => ?_,
    fun h => ⟨execHeaderMismatch_not h, by rw [execReplayTimeout_eq hon, if_neg h]⟩, fun h => ?_, fun h => ?_⟩
  · exact ⟨_, execPartnerDetected_hears hon chip pp serial h, rfl, fun r hr => s.modPort_other _ hr, s.modPort_self p _⟩
  · subst hw
    by_cases hn : (s.portAt w.port).step < 4
    · refine ⟨_, execTrainingStepDone_early hon h hn, rfl, fun r hr => ?_, fun _ => ⟨rfl, ?_⟩, fun h' => by omega⟩
      · rw [State.modPort_other _ _ hr, State.stepShown, State.modPort_other _ _ hr]
      · rw [State.modPort_self, State.stepShown, State.modPort_self, if_neg (show (s.portAt w.port).step ≠ 4 by omega)]
    · have hn' : 4 ≤ (s.portAt w.port).step := by omega
      obtain ⟨hout, hown, hothers, hframe⟩ := (s.trainedLast w).sendControl_spec w.port
      refine ⟨_, execTrainingStepDone_last hon h hn', hframe, fun r hr => ?_, fun h' => absurd h' hn, fun _ => ⟨hout, ?_⟩⟩
      · rw [hothers r hr, State.trainedLast_other s w hr]
      · rw [hown, State.trainedLast_portAt, if_neg (show (s.portAt w.port).step ≠ 2 by omega)]
  · subst hw
    exact execTrainingStepDone_not h
  · obtain ⟨⟨n, hlink⟩, hopen, hclosing⟩ := s.reachUp_spec hp
    refine ⟨_, execLockAchieved_locks hon h, hlink.only.portsOnly, hlink.others, fun hc => ?_, hclosing⟩
    obtain ⟨hisland, q, hq, hsends⟩ := hopen hc
    unfold PortState.Sends at hsends
    rw [hsends]
    exact ⟨hisland, hq.mode, hq.fails, hq.known, hq.chip, hq.port, hq.serial⟩
  · rw [execLockSearchTimeout_eq hon, if_pos h]
    exact ⟨_, rfl, rfl, fun r hr => s.modPort_other _ hr, s.modPort_self p _⟩
  · rw [execLockSearchTimeout_eq hon, if_neg h]
  · obtain ⟨n, hlink, hfails, hoff, hseek, hfailed⟩ := s.trainFail_spec p
    intro c hc
    simp only [List.mem_cons, List.not_mem_nil, or_false] at hc
    obtain rfl | rfl := hc
    · refine ⟨fun h => ⟨_, execTrainingStepTimeout_fails hon (by simpa using h), hlink.only.portsOnly, hlink.others,
      hfails, hoff, hseek, hfailed⟩,
        fun h => ?_⟩
      simp only [List.mem_cons, List.not_mem_nil, or_false, not_or] at h
      exact execTrainingStepTimeout_not hon h.1 h.2
    · rw [execRetrainTimeout_eq hon]
      refine ⟨fun h => ⟨_, ?_, hlink.only.portsOnly, hlink.others, hfails, hoff, hseek, hfailed⟩, fun h => ?_⟩
      · rw [if_pos (by simpa using h)]
      · rw [if_neg (by simpa using h)]
  · refine ⟨?_, fun hr => ?_, fun hr => ?_⟩
    · exact execHeaderMismatch_up hon h
    · rw [execReplayTimeout_eq hon, if_pos h, State.resendAll, if_pos hr]
    · obtain ⟨hlink, hreplay, hless, hmax⟩ := State.resendAll_spec h hr
      rw [execReplayTimeout_eq hon, if_pos h]
      exact ⟨_, rfl, hlink.only.portsOnly, hlink.others, hreplay, hless, hmax⟩
  · obtain ⟨hlink, hleft⟩ := s.leaveUp_spec p .off
    rw [execPortDisableTimeout_eq hon, if_pos h]
    exact ⟨_, rfl, hlink.only.portsOnly, hlink.others, hleft.mode, hleft.known, hleft.emptied⟩
  · rw [execPortDisableTimeout_eq hon, if_neg (by simp [h])]

end Sys2Proof.Machine
end

section
/-! PROOFS. FAB_COMMIT: the fabric block's fields, and the ports that it enables, disables and retrains (R445, R448, R813, R817). -/

namespace Sys2Proof.Machine

/-! ### Registers and links together -/

/-- From s to t only registers, ports, what follows from which of them are UP, and reports have changed. -/
def State.CommitWork (s t : State) : Prop := ({ s with regs := t.regs } : State).LinksOnly t

theorem State.CommitWork.trans {s t u : State} (h : s.CommitWork t) (h' : t.CommitWork u) : s.CommitWork u := by
  unfold State.CommitWork State.LinksOnly at *
  rw [h', h]
  rfl

theorem State.LinksOnly.regs {s t : State} (h : s.LinksOnly t) : t.regs = s.regs := (congrArg State.regs h :)

theorem State.LinksOnly.commitWork {s t : State} (h : s.LinksOnly t) : s.CommitWork t := by
  unfold State.CommitWork
  rw [h.regs]
  exact h

theorem State.RegsOnly.commitWork {s t : State} (h : s.RegsOnly t) : s.CommitWork t := .of_reported h

theorem State.RegsOnly.fab {s t : State} (h : s.RegsOnly t) : t.fab = s.fab := (congrArg State.fab h :)

/-! ### One port at a COMMIT -/

/-- What PORT_CTL c makes of a port q (R445, R448, R817). -/
structure PortState.Committed (c : Nat) (q q' : PortState) : Prop where
  closing : bit c 0 = false → q.mode = .up → q.replay ≠ [] → q'.mode = .up ∧ q'.closing = true
  off : bit c 0 = false → (q.mode ≠ .up ∨ q.replay = []) → q'.mode = .off
  seek : bit c 0 = true → q.mode = .off → q'.mode = .seek ∧ q'.fails = 0
  stays : bit c 0 = true → q.mode ≠ .off → q'.closing = false ∧
    (q.mode = .up → bit c 1 = true → q'.mode = .retrain) ∧ ((q.mode ≠ .up ∨ bit c 1 = false) → q'.mode = q.mode)

theorem PortState.Committed.after_credits {c : Nat} {a b d : PortState} (h : a.Credits b) (h' : PortState.Committed c b d) :
    PortState.Committed c a d := by
  unfold PortState.Credits at h
  rw [h] at h'
  exact ⟨h'.closing, h'.off, h'.seek, h'.stays⟩

theorem PortState.Committed.then_credits {c : Nat} {a b d : PortState} (h : PortState.Committed c a b) (h' : b.Credits d) :
    PortState.Committed c a d := by
  unfold PortState.Credits at h'
  rw [h']
  exact ⟨h.closing, h.off, h.seek, h.stays⟩

/-- What a COMMIT makes of PORT_CTL: RETRAIN returns to 0. -/
def State.retrainCleared (s : State) (p : Nat) : State :=
  if bit (s.regs.eff regPortCtl p) 1 then { s with regs := s.regs.device regPortCtl p (fun v => if bit v 1 then v - 2 else v) } else s

/-- What a COMMIT makes of a port, once RETRAIN has returned to 0. -/
def State.portCommitted (s : State) (p c : Nat) : State :=
  match bit c 0, (s.portAt p).mode with
  | false, .off => s
  | false, .up => if (s.portAt p).replay = [] then s.leaveUp p .off else s.modPort p (fun q => { q with closing := true })
  | false, _ => s.leaveUp p .off
  | true, .off => (s.modPort p (fun q => { q with mode := .seek, fails := 0 })).seekPartner p
  | true, _ =>
    let s := s.modPort p (fun q => { q with closing := false })
    if bit c 1 then s.enterRetrain p else s

theorem State.commitPort_eq (s : State) (p : Nat) :
    s.commitPort p = (s.retrainCleared p).portCommitted p (s.regs.eff regPortCtl p) := rfl

theorem State.portCommitted_spec (s : State) (p c : Nat) : (∃ n, State.LinkWork p n s (s.portCommitted p c)) ∧
    PortState.Committed c (s.portAt p) ((s.portCommitted p c).portAt p) := by
  cases hc : bit c 0
  case false =>
    by_cases hkeep : (s.portAt p).mode = .up ∧ (s.portAt p).replay ≠ []
    · obtain ⟨hup, hr⟩ := hkeep
      have ht : s.portCommitted p c = s.modPort p (fun q => { q with closing := true }) := by
        unfold State.portCommitted
        rw [hc, hup]
        exact if_neg hr
      have hstep : State.PortStep (PortState.Committed c) p s (s.modPort p (fun q => { q with closing := true })) :=
        .modPort ⟨fun _ _ _ => ⟨hup, rfl⟩, fun _ h => absurd h (by simp [hup, hr]), fun h => by simp [hc] at h, fun h => by simp [hc] at h⟩
      rw [ht]
      exact ⟨⟨_, hstep.linkWork⟩, hstep.own⟩
    · have hgone : ∀ q' : PortState, q'.mode = .off → PortState.Committed c (s.portAt p) q' := fun q' h =>
        ⟨fun _ hup hr => absurd ⟨hup, hr⟩ hkeep, fun _ _ => h, fun h => by simp [hc] at h, fun h => by simp [hc] at h⟩
      by_cases hoff : (s.portAt p).mode = .off
      · have ht : s.portCommitted p c = s := by
          unfold State.portCommitted
          rw [hc, hoff]
        rw [ht]
        exact ⟨⟨0, (State.PortStep.refl (R := Eq) fun _ => rfl).linkWork⟩, hgone _ hoff⟩
      · have ht : s.portCommitted p c = s.leaveUp p .off := by
          unfold State.portCommitted
          rw [hc]
          cases hm : (s.portAt p).mode
          case off => exact absurd hm hoff
          case up => exact if_pos (not_not.mp fun hr => hkeep ⟨hm, hr⟩)
          all_goals rfl
        obtain ⟨hlink, hleft⟩ := s.leaveUp_spec p .off
        rw [ht]
        exact ⟨⟨_, hlink⟩, hgone _ hleft.mode⟩
  case true =>
    by_cases hoff : (s.portAt p).mode = .off
    · have ht : s.portCommitted p c = (s.modPort p (fun q => { q with mode := .seek, fails := 0 })).seekPartner p := by
        unfold State.portCommitted
        rw [hc, hoff]
      have hstep := (State.PortStep.modPort (R := fun q q' => q' = { q with mode := .seek, fails := 0 })
        (f := fun q => { q with mode := .seek, fails := 0 }) (s := s) (p := p) rfl).comp
        (R' := Eq) (R'' := fun q q' => q' = { q with mode := .seek, fails := 0 }) (fun a b d h h' => h' ▸ h) (State.seekPartner_step _ p)
      rw [ht]
      refine ⟨⟨_, hstep.linkWork⟩, ?_⟩
      rw [hstep.own]
      exact ⟨fun h => by simp [hc] at h, fun h => by simp [hc] at h, fun _ _ => ⟨rfl, rfl⟩, fun _ h => absurd hoff h⟩
    · obtain ⟨a, ha⟩ : ∃ a, s.modPort p (fun q => { q with closing := false }) = a := ⟨_, rfl⟩
      have ht : s.portCommitted p c = if bit c 1 then a.enterRetrain p else a := by
        rw [← ha]
        unfold State.portCommitted
        rw [hc]
        cases hm : (s.portAt p).mode
        case off => exact absurd hm hoff
        all_goals rfl
      have hsa : State.PortStep (fun q q' => q' = { q with closing := false }) p s a := by
        rw [← ha]
        exact .modPort rfl
      have hmode : (a.portAt p).mode = (s.portAt p).mode := by rw [hsa.own]
      have hclosing : (a.portAt p).closing = false := by rw [hsa.own]
      have hstays : ∀ q' : PortState, q'.closing = false →
          ((s.portAt p).mode = .up → bit c 1 = true → q'.mode = .retrain) →
          (((s.portAt p).mode ≠ .up ∨ bit c 1 = false) → q'.mode = (s.portAt p).mode) → PortState.Committed c (s.portAt p) q' :=
        fun q' h1 h2 h3 => ⟨fun h => by simp [hc] at h, fun h => by simp [hc] at h, fun _ h => absurd h hoff, fun _ _ => ⟨h1, h2, h3⟩⟩
      rw [ht]
      by_cases hre : bit c 1 = true ∧ (s.portAt p).mode = .up
      · obtain ⟨h1, hup⟩ := hre
        obtain ⟨hlink, hretrain, -, hcl⟩ := State.enterRetrain_spec (hmode.trans hup)
        rw [if_pos h1]
        exact ⟨⟨_, hsa.linkWork.trans hlink⟩, hstays _ (hcl.trans hclosing) (fun _ _ => hretrain) fun h => absurd h (by simp [hup, h1])⟩
      · have hid : (if bit c 1 then a.enterRetrain p else a) = a := by
          split
          next h1 => exact if_pos fun h => hre ⟨h1, hmode ▸ h⟩
          next => rfl
        rw [hid]
        exact ⟨⟨_, hsa.linkWork⟩, hstays _ hclosing (fun hup h1 => absurd ⟨h1, hup⟩ hre) fun _ => hmode⟩

/-- PORT_CTL before and after a COMMIT: RETRAIN is 0, and a register that did not show it stays. -/
structure RegCell.RetrainCleared (c c' : RegCell) : Prop where
  eff : c'.eff.toNat = setField c.eff.toNat 1 1 0
  same : bit c.eff.toNat 1 = false → c'.shadow = c.shadow
  shadow : bit c.eff.toNat 1 = true → bit c'.shadow.toNat 1 = false

theorem State.retrainCleared_regs (s : State) {p : Nat} (hp : p < 12) : s.regs.only (s.retrainCleared p).regs regPortCtl p ∧
    (s.regs.get regPortCtl p).RetrainCleared ((s.retrainCleared p).regs.get regPortCtl p) := by
  unfold State.retrainCleared
  split
  next h =>
    obtain ⟨honly, heff, hshadow⟩ := s.regs.clear_bit regPortCtl (i := p) (n := 1) (by omega) (by decide)
      (f := fun v => if bit v 1 then v - 2 else v) fun _ => rfl
    refine ⟨honly, heff, fun h' => absurd (h'.symm.trans h) Bool.false_ne_true, fun _ => ?_⟩
    exact (congrArg (bit · 1) hshadow).trans (bit_setField_same _ _)
  next h =>
    have h0 : bit (s.regs.eff regPortCtl p) 1 = false := Bool.eq_false_iff.mpr h
    have hf := sub_bit (s.regs.eff regPortCtl p) 1
    rw [h0] at hf
    exact ⟨⟨rfl, fun _ _ _ _ => rfl⟩, hf, fun _ => rfl, fun h' => absurd h' h⟩

theorem State.commitPort_spec (s : State) {p : Nat} (hp : p < 12) : s.CommitWork (s.commitPort p) ∧
    s.regs.only (s.commitPort p).regs regPortCtl p ∧
    (s.regs.get regPortCtl p).RetrainCleared ((s.commitPort p).regs.get regPortCtl p) ∧ s.otherPorts p (s.commitPort p) ∧
    PortState.Committed (s.regs.eff regPortCtl p) (s.portAt p) ((s.commitPort p).portAt p) := by
  have hregs := s.retrainCleared_regs hp
  have hfirst : s.RegsOnly (s.retrainCleared p) := by
    unfold State.retrainCleared
    split <;> rfl
  have hports : ∀ r, (s.retrainCleared p).portAt r = s.portAt r := fun r => by rw [State.portAt, hfirst.fab, State.portAt]
  obtain ⟨⟨n, hlink⟩, hown⟩ := (s.retrainCleared p).portCommitted_spec p (s.regs.eff regPortCtl p)
  rw [← State.commitPort_eq] at hlink hown
  rw [hports] at hown
  rw [hlink.only.regs]
  refine ⟨hfirst.commitWork.trans hlink.only.commitWork, hregs.1, hregs.2, fun r hr => ?_, hown⟩
  · rw [hlink.others r hr, hports]

/-! ### Every port at a COMMIT -/

/-- The ports of a list at a COMMIT, one after the other. -/
theorem State.commitPorts_spec : ∀ (ps : List Nat) (s : State), ps.Nodup → (∀ p ∈ ps, p < 12) →
    s.CommitWork (ps.foldl State.commitPort s) ∧
    (ps.foldl State.commitPort s).regs.captures = s.regs.captures ∧
    (∀ o i, i < 65536 → (o = regPortCtl → i ∉ ps) → (ps.foldl State.commitPort s).regs.get o i = s.regs.get o i) ∧
    (∀ p ∈ ps, (s.regs.get regPortCtl p).RetrainCleared ((ps.foldl State.commitPort s).regs.get regPortCtl p) ∧
      PortState.Committed (s.regs.eff regPortCtl p) (s.portAt p) ((ps.foldl State.commitPort s).portAt p)) ∧
    ∀ p, p ∉ ps → (s.portAt p).Credits ((ps.foldl State.commitPort s).portAt p)
  | [], s, _, _ => ⟨rfl, rfl, fun _ _ _ _ => rfl, fun p hp => absurd hp List.not_mem_nil, fun _ _ => rfl⟩
  | p :: ps, s, hn, hlt => by
    obtain ⟨hnot, hnodup⟩ := List.nodup_cons.mp hn
    have hp12 := hlt p List.mem_cons_self
    obtain ⟨hwork, honly, hclear, hothers, hown⟩ := s.commitPort_spec hp12
    obtain ⟨hwork', hcaps, hget, hin, hout⟩ := State.commitPorts_spec ps (s.commitPort p) hnodup fun r hr =>
      hlt r (List.mem_cons_of_mem _ hr)
    rw [List.foldl_cons]
    refine ⟨hwork.trans hwork', hcaps.trans honly.1, fun o i hi ho => ?_, fun r hr => ?_, fun r hr => ?_⟩
    · rw [hget o i hi fun h h' => ho h (List.mem_cons_of_mem _ h')]
      refine honly.2 o i hi fun h => ?_
      obtain ⟨rfl, rfl⟩ := Prod.mk.inj h
      exact ho rfl List.mem_cons_self
    · by_cases he : r = p
      · subst he
        rw [hget _ _ (by omega) fun _ => hnot]
        exact ⟨hclear, hown.then_credits (hout r hnot)⟩
      · have hsame : (s.commitPort p).regs.get regPortCtl r = s.regs.get regPortCtl r :=
          honly.2 _ _ (by have := hlt r hr; omega) fun h => he (Prod.mk.inj h).2
        obtain ⟨hc, hr'⟩ := hin r ((List.mem_cons.mp hr).resolve_left he)
        rw [RegFile.eff] at hr'
        rw [hsame] at hc hr'
        exact ⟨hc, hr'.after_credits (hothers r he)⟩
    · rw [List.mem_cons, not_or] at hr
      exact PortState.Credits.trans (hothers r hr.1) (hout r hr.2)

/-! ### The statement -/

/-- What the fabric block judges and does at a COMMIT. -/
theorem State.legalFab_spec (s : State) (old : RegFile) {t : State} (ht : s.legalFab old = t) :
    s.CommitWork t ∧ t.regs.captures = s.regs.captures ∧
    (∀ o i, i < 65536 → (o, i) ≠ (regFabCtl, 0) → (o = regPortCtl → 12 ≤ i) → t.regs.get o i = s.regs.get o i) ∧
    t.regs.shadow regFabCtl 0 = s.regs.shadow regFabCtl 0 ∧
    bits (t.regs.eff regFabCtl 0) 23 0 = bits (s.regs.eff regFabCtl 0) 23 0 ∧
    bits (t.regs.eff regFabCtl 0) 27 24 = max 3 (min 8 (bits (s.regs.eff regFabCtl 0) 27 24)) ∧
    ∀ p < 12, (s.regs.get regPortCtl p).RetrainCleared (t.regs.get regPortCtl p) ∧
      PortState.Committed (s.regs.eff regPortCtl p) (s.portAt p) (t.portAt p) := by
  obtain ⟨a, ha⟩ : ∃ a, s.commitBound regFabCtl 0 27 24 3 8 = a := ⟨_, rfl⟩
  have hfield := s.commitBound_field regFabCtl (hi := 27) (lo := 24) (least := 3) (most := 8) (by decide) (by decide) (by decide)
  have hregs : s.RegsOnly a := ha ▸ State.commitClamp_regsOnly _ _ _ _ _ _ _
  rw [ha] at hfield
  obtain ⟨b, hb⟩ : ∃ b, (List.range 12).foldl State.commitPort a = b := ⟨_, rfl⟩
  obtain ⟨hwork, hcaps, hget, hin, -⟩ := State.commitPorts_spec (List.range 12) a List.nodup_range fun p hp => List.mem_range.mp hp
  rw [hb] at hwork hcaps hget hin
  have hbt : b.LinksOnly t := by
    rw [← ht]
    unfold State.legalFab
    dsimp only
    rw [ha, hb]
    exact b.chooseRoot_rootOnly.linksOnly.trans (.of_reported (State.tellQuality_reported _ _))
  have hports : t.fab.ports = b.fab.ports := by
    rw [← ht]
    unfold State.legalFab
    dsimp only
    rw [ha, hb, State.tellQuality_out_only]
    exact (congrArg (·.fab.ports) b.chooseRoot_rootOnly :)
  have hportAt : ∀ p, t.portAt p = b.portAt p := fun p => by rw [State.portAt, hports, State.portAt]
  have hsa : ∀ p, a.portAt p = s.portAt p := fun p => by rw [State.portAt, hregs.fab, State.portAt]
  have hfab : b.regs.get regFabCtl 0 = a.regs.get regFabCtl 0 := hget _ _ (by decide) fun h => absurd h (by decide)
  refine ⟨hregs.commitWork.trans (hwork.trans hbt.commitWork), ?_, ?_, ?_, ?_, ?_, ?_⟩
  all_goals rw [hbt.regs]
  · exact hcaps.trans hfield.judges.only.1
  · exact fun o i hi hn hp => (hget o i hi fun h hm => absurd (hp h) (by simpa using hm)).trans (hfield.judges.only.2 o i hi hn)
  · rw [RegFile.shadow, hfab]
    exact hfield.judges.shadow
  · rw [RegFile.eff, hfab]
    exact hfield.other 23 0 (.inl (by decide))
  · rw [RegFile.eff, hfab]
    exact hfield.field
  · intro p hp
    have hsame : a.regs.get regPortCtl p = s.regs.get regPortCtl p :=
      hfield.judges.only.2 _ _ (by omega) fun h => absurd (Prod.mk.inj h).1 (by decide)
    obtain ⟨hclear, hown⟩ := hin p (List.mem_range.mpr hp)
    rw [RegFile.eff] at hown
    rw [hsame] at hclear hown
    rw [hsa, ← hportAt] at hown
    exact ⟨hclear, hown⟩

theorem setField_retrain (v : Nat) : setField v 1 1 0 % 4 = v % 2 := by
  have h : bits v 1 1 = v / 2 % 2 := by simp [bits]
  rw [setField, h]
  omega

/-- Settles O15: the shadows of the block become effective (`RegFile.committed_apply`), and `State.legalFab_spec` says what the block
judges of them and does to its ports. -/
theorem fabCommitActsOnPorts : Obligations.FabCommitActsOnPorts := by
  intro s hw hnone
  obtain ⟨a, ha⟩ : ∃ a, s.applyVals (s.regs.capture 8) = a := ⟨_, rfl⟩
  obtain ⟨t, ht⟩ : ∃ t, a.legalFab s.regs = t := ⟨_, rfl⟩
  have hrun : exec .fabCommit s = .next t := by
    rw [← ht, ← ha, ← State.commitWrite_acts State.legalFab hnone]
    exact congrArg Host.Outcome.next (State.onWrite_taken hw _)
  have hsa : s.RegsOnly a := ha ▸ rfl
  have hports : ∀ p, a.portAt p = s.portAt p := fun p => by rw [State.portAt, hsa.fab, State.portAt]
  have happly : s.regs.committed a.regs 8 [] [] := by
    rw [← ha]
    exact s.regs.committed_apply 8
  have hblock : blockOf regFabCtl = some 8 ∧ blockOf regPortCtl = some 8 := by decide
  have hdue : ∀ o i, i < 65536 → blockOf o = some 8 → a.regs.eff o i = s.regs.due o i ∧ a.regs.shadow o i = s.regs.shadow o i :=
    fun o i hi hb => ⟨(happly.2 o i hi).2.1 hb List.not_mem_nil, (happly.2 o i hi).1 List.not_mem_nil⟩
  obtain ⟨hwork, hcaps, hget, hshadow, hlow, hctrl, hport⟩ := a.legalFab_spec s.regs ht
  obtain ⟨hfabDue, hfabShadow⟩ := hdue regFabCtl 0 (by decide) hblock.1
  rw [hfabDue] at hlow hctrl
  refine ⟨t, hrun, hsa.commitWork.trans hwork, ⟨hcaps.trans happly.1, fun o i hi => ?_⟩, ?_, hctrl, fun p hp => ?_⟩
  · by_cases hfab : (o, i) = (regFabCtl, 0)
    · obtain ⟨rfl, rfl⟩ := Prod.mk.inj hfab
      exact ⟨fun _ => hshadow.trans hfabShadow, fun _ h => absurd List.mem_cons_self h, fun h => absurd hblock.1 h⟩
    by_cases hctl : o = regPortCtl ∧ i < 12
    · obtain ⟨rfl, -⟩ := hctl
      exact ⟨fun h => absurd List.mem_cons_self h, fun _ h => absurd (List.mem_cons_of_mem _ List.mem_cons_self) h,
        fun h => absurd hblock.2 h⟩
    · obtain ⟨hs, hd, hn⟩ := happly.2 o i hi
      rw [RegFile.shadow, RegFile.eff, hget o i hi hfab fun h => by
        by_contra hlt
        exact hctl ⟨h, by omega⟩]
      exact ⟨fun _ => hs List.not_mem_nil, fun hb _ => hd hb List.not_mem_nil, hn⟩
  · simpa [bits] using hlow
  · obtain ⟨hclear, hown⟩ := hport p hp
    obtain ⟨hpDue, hpShadow⟩ := hdue regPortCtl p (by omega) hblock.2
    rw [hpDue, hports] at hown
    have heff : t.regs.eff regPortCtl p = setField (s.regs.due regPortCtl p) 1 1 0 := by
      rw [← hpDue]
      exact hclear.eff
    have hsame := hclear.same
    have hzero := hclear.shadow
    rw [show (a.regs.get regPortCtl p).eff.toNat = s.regs.due regPortCtl p from hpDue] at hsame hzero
    refine ⟨by rw [heff, setField_retrain], fun h => ?_, hzero, hown.closing, hown.off, hown.seek, hown.stays⟩
    rw [← hpShadow, RegFile.shadow, hsame h]
    rfl

end Sys2Proof.Machine
end

section
/-! PROOFS. A control flit whose time steps Station Time forward, and a slot that the table of slots keeps twice (R459, R488, R497). -/

namespace Sys2Proof.Machine

/-- A descriptor in a slot that holds nothing else. -/
def bareSlot (ph : SlotPhase) (op : Nat) : Slot :=
  ⟨ph, natLe 64 op, 0, 0, 0, [], 0, false, 0, List.replicate 64 0, [], none, 0, 0, 0, false, 0, none, [], [], [], [], none⟩

/-- A package in Timetable mode with port 11 in UP, an image pass that goes on, and a correctable unit where the state list lies. Its
table keeps slot 0 twice: `State.slot` shows the first entry, which runs, and `State.releaseSkipped` goes through both, of which the
second waits. -/
def slotKeptTwice : State :=
  { State.reset with
    rst := { RstState.reset with vaux := true, pkgRun := true, bar0 := true }
    fab := { State.reset.fab with ports := [(11, { PortState.reset with mode := .up })] }
    host := { State.reset.host with slots := [(0, some (bareSlot .running 0x7F)), (0, some (bareSlot .waiting 0x7F))] }
    tf := { State.reset.tf with timetable := true }
    res := { State.reset.res with imaging := true }
    mem := { State.reset.mem with marks := [(0, 1)] } }

/-- A control flit of a REFERENCED root whose Station Time is 2^48. -/
def steppingFlit : List Byte :=
  mkFlit 2 0 0 false false 0 0 (List.replicate 28 0 ++ [1, 0, 0, 0, 0, 0, 0, 0x80] ++ List.replicate 108 0)

/-- The stored check bits of memory that an answer shows. -/
def marksOf : Host.Outcome State Fault Refusal → List (Nat × Nat)
  | .next t => t.mem.marks
  | .fault _ | .refused _ => []

theorem slotKeptTwice_waits {k : Nat} {sl : Slot} (h : slotKeptTwice.slot k = some sl) : sl.phase ≠ .waiting := by
  have hslot : slotKeptTwice.slot k = if 0 = k then some (bareSlot .running 0x7F) else none := by
    by_cases hk : 0 = k <;> simp [State.slot, slotKeptTwice, mget, hk]
  rw [hslot] at h
  split at h
  · rw [← Option.some.inj h]
    exact nofun
  · exact absurd h nofun

/-- The waiting entry is due once the clock has stepped, and its release reads the state list, whose unit is then corrected. -/
theorem slotKeptTwice_marks : marksOf (exec (.controlFlit 11 steppingFlit) slotKeptTwice) = [] := by decide +kernel

/-- Refutes O46: in `slotKeptTwice` no slot waits, and `steppingFlit` is a good control flit without NAK for a port in UP with nothing
queued; yet the clock's step forward releases the second entry of slot 0, and the lists that this reads are corrected in memory, where
the statement lets only the fabric, time and the manager change. -/
theorem not_flitsArriveAndLeave : ¬ Obligations.FlitsArriveAndLeave := by
  intro h
  obtain ⟨-, -, hup, -⟩ := h slotKeptTwice 11 (by decide) (by decide +kernel) _ rfl steppingFlit _ rfl
  obtain ⟨-, -, -, -, -, hcontrol⟩ := hup rfl
  obtain ⟨t, hrun, hframe, -⟩ := hcontrol (by decide +kernel) (by decide +kernel) (by decide +kernel) rfl rfl
    fun _ k sl hk => slotKeptTwice_waits hk
  have hmem : t.mem = slotKeptTwice.mem := (congrArg State.mem hframe :)
  have hmarks := slotKeptTwice_marks
  rw [hrun, marksOf, hmem] at hmarks
  exact absurd hmarks (by decide)

end Sys2Proof.Machine
end

section
/-! PROOFS. Messages that this package takes: what taking one is, what sending one changes, and the plain messages WRITE, READ, EVENT and
DOORBELL (R333, R468, R469, R484, R555, R571). -/

namespace Sys2Proof.Machine

/-! ### Taking a message -/

/-- With no STEP under way nothing of a boundary goes on. -/
theorem State.pump_idle {s : State} (h : s.tf.run = none) : s.pump = s := by
  have hstep : State.stepPump 12 s = s := by
    unfold State.stepPump
    rw [h]
  unfold State.pump
  rw [hstep, ite_self]

theorem slice_all {bs : List Byte} {n : Nat} (h : bs.length = n) : slice bs 0 n = bs := by
  subst h
  simp [slice]

/-- A message that the package takes is acted on at once. -/
theorem State.takeMsg_heard {s : State} {m : Msg} {type : Nat} (h : s.hears m type) :
    s.takeMsg type m.header m.payload m.poison = (s.consume m).pump := by
  obtain ⟨hpow, hfatal, hrst, -, hwaits, hfirst, hlen, htype, hdst⟩ := h
  have hany : s.fab.arrived.any (fun x => msgClass x == msgClass m && x.src == m.src) = false := by
    rw [List.any_eq_false]
    exact fun x hx => by simpa using hfirst x hx
  have haccept : s.accept m = (s.consume m).pump := if_neg (by simp [hfatal, hrst])
  unfold State.takeMsg
  dsimp only
  rw [slice_all hlen, if_pos (by simp [hpow, htype, hdst]), if_neg (by simp [hwaits, hany]), haccept]

/-- A message that the package takes and that moves no STEP on is what `State.consume` makes of it. -/
theorem State.takeMsg_consumed {s t : State} {m : Msg} {type : Nat} (h : s.hears m type) (hc : s.consume m = t)
    (ht : t.tf.run = s.tf.run) :
    s.takeMsg type m.header m.payload m.poison = t := by
  obtain ⟨-, -, -, hidle, -⟩ := id h
  rw [State.takeMsg_heard h, hc, State.pump_idle (by rw [ht, hidle])]

/-! ### Sending a message -/

/-- From s to t only the fabric has changed, and outputs and live counters have been added. -/
def State.FabWork (s t : State) : Prop := t = { s with out := t.out, obs := { s.obs with live := t.obs.live }, fab := t.fab }

theorem State.FabWork.refl (s : State) : s.FabWork s := rfl

theorem State.FabWork.trans {s t u : State} (h : s.FabWork t) (h' : t.FabWork u) : s.FabWork u := by
  unfold State.FabWork at *
  rw [h', h]

theorem State.PortWork.fabWork {s t : State} (h : s.PortWork t) : s.FabWork t := by
  unfold State.FabWork
  rw [h]

theorem State.FabWork.reported {s t : State} (h : s.FabWork t) : t = ({ s with fab := t.fab } : State).reported t := by
  rw [h]
  rfl

section
variable {s t : State} (h : s.FabWork t)
include h

theorem State.FabWork.host : t.host = s.host := (congrArg State.host h :)
theorem State.FabWork.mem : t.mem = s.mem := (congrArg State.mem h :)
theorem State.FabWork.regs : t.regs = s.regs := (congrArg State.regs h :)
theorem State.FabWork.tf : t.tf = s.tf := (congrArg State.tf h :)

end

theorem State.sendOn_work (s : State) (vl : Nat) (origin : Option (Nat × Nat × Nat)) (m : Msg) :
    s.PortWork (s.sendOn vl origin m).2 := by
  unfold State.sendOn
  split
  · exact (State.queueMsg_sends _ _ _).work
  · exact .count _ _ _ _

theorem State.send_fabWork (s : State) (m : Msg) : s.FabWork (s.send m).2 := by
  unfold State.send
  split
  · rfl
  · exact (s.sendOn_work 0 none m).fabWork

/-! ### Tier memory as messages reach it -/

theorem inTier_iff {a n : Nat} : inTier a n = true ↔ a + n ≤ tierEnd := by simp [inTier]

theorem oneRegion_tier {a n : Nat} (h : a + n ≤ tierEnd) : oneRegion a n = true := by
  rw [oneRegion, inTier_iff.mpr h, Bool.true_or, Bool.true_or]

theorem inAcc_tier {a n : Nat} (h : a + n ≤ tierEnd) : inAcc a n = false := by
  have : ¬ accBase ≤ a := by
    unfold accBase
    unfold tierEnd at h
    omega
  simp [inAcc, this]

theorem inStack_tier {a n k : Nat} (h : a + n ≤ tierEnd) : inStack a k = false := by
  have : ¬ stackBase ≤ a := by
    unfold stackBase
    unfold tierEnd at h
    omega
  simp [inStack, this]

theorem State.stackFenced_tier (s : State) {a n : Nat} (h : a + n ≤ tierEnd) : s.stackFenced a n = false := by
  rw [State.stackFenced, stacksOf, inStack_tier h]
  rfl

/-- Flags of bytes none of which is poisoned. -/
theorem mem_byteFlags {ps : List Bool} (h : ∀ p ∈ ps, p = false) (n : Nat) :
    ∀ p ∈ (flagsPer 16 ps ++ List.replicate n false).take n, p = false := by
  intro p hp
  obtain hp | hp := List.mem_append.mp (List.mem_of_mem_take hp)
  · obtain ⟨q, hq, hpq⟩ := List.mem_flatMap.mp hp
    rw [List.eq_of_mem_replicate hpq]
    exact h q hq
  · exact List.eq_of_mem_replicate hp

theorem any_id_false {ps : List Bool} (h : ∀ p ∈ ps, p = false) : ps.any id = false := by
  rw [List.any_eq_false]
  exact fun p hp => by simp [h p hp]

/-- A write with no byte poisoned. -/
theorem State.memWriteP_clean (s : State) (a : Nat) (bs : List Byte) {ps : List Bool} (h : ∀ p ∈ ps, p = false) :
    s.memWriteP a bs ps = s.memWrite a bs false := by
  unfold State.memWriteP State.memWrite
  have hflag : ∀ i n, ((ps.drop i).take n).any id = false := fun i n =>
    any_id_false fun p hp => h p (List.mem_of_mem_drop (List.mem_of_mem_take hp))
  simp only [hflag]

/-- Bytes written to tier memory as messages write them: nothing is met, and they are put (R333, R336). -/
theorem State.writeLocal_plain {s : State} {a : Nat} {bs : List Byte} {ps : List Bool} (h : s.plainTier a bs.length)
    (hps : ∀ p ∈ ps, p = false) : (s.writeLocal a bs ps).1 = false ∧ (s.writeLocal a bs ps).2.1 = 0 ∧
      Puts a bs 0 (unitsOf a bs.length) s (s.writeLocal a bs ps).2.2 := by
  obtain ⟨hs, ht, ha, hn⟩ := State.plainTier_spec h
  obtain ⟨hbad, hput⟩ := State.memWrite_whole hs ht ha hn false
  unfold State.writeLocal
  rw [inAcc_tier ht, s.memWriteP_clean a bs hps]
  exact ⟨hbad, rfl, hput⟩

/-- What has been put reads so, fresh, and every other byte as before. -/
theorem Puts.storedAt {a : Nat} {bs : List Byte} {s t u : State} (h : Puts a bs 0 (unitsOf a bs.length) s t)
    (ht : a + bs.length ≤ tierEnd) (ha : a % 16 = 0) (hn : bs.length % 16 = 0) (hu : u.mem = t.mem) : s.storedAt u a bs := by
  refine ⟨fun x => ?_, fun g h1 h2 h3 => ?_⟩
  · rw [show u.byte x = t.byte x by rw [State.byte, hu, State.byte]]
    split
    next hx => exact (h.bytes x).1 ((inPieces_unitsOf ht x).mpr hx)
    next hx => exact (h.bytes x).2 (mt (inPieces_unitsOf ht x).mp hx)
  · rw [hu]
    refine (h.marks g).1 ?_
    rw [unitsOf_whole ht ha hn, List.map_map, List.mem_map]
    exact ⟨(g - a) / 16, List.mem_range.mpr (by omega), by simp only [Function.comp_apply]; omega⟩

theorem Puts.frame_mem {a m : Nat} {bs : List Byte} {us : List (Nat × Nat × Nat)} {s t : State} (h : Puts a bs m us s t) :
    t = ({ s with mem := t.mem } : State).reported t :=
  (congrArg (fun x : State => ({ x with mem := t.mem } : State).reported t) h.frame :)

/-- Memory and reports, then the fabric. -/
theorem State.FabWork.after_mem {s w t : State} (h : w.FabWork t) (hw : w = ({ s with mem := w.mem } : State).reported w) :
    t = ({ s with mem := t.mem, fab := t.fab } : State).reported t := by
  unfold State.FabWork at h
  rw [h, hw]
  rfl

/-! ### WRITE -/

theorem State.consume_write {s : State} {m : Msg} (h : m.type = 0x01) : s.consume m = s.msgWrite m := by
  unfold State.consume
  rw [h]
  rfl

theorem State.msgWrite_tier {s t : State} {m : Msg} (h : s.plainTier m.target m.len) (hl : m.payload.length = m.len)
    (hp : ∀ p ∈ m.poison, p = false) (hrun : s.msgWrite m = t) :
    s.storedAt t m.target m.payload ∧ t = ({ s with mem := t.mem, fab := t.fab } : State).reported t := by
  obtain ⟨hs, ht, ha, hn⟩ := State.plainTier_spec h
  rw [← hl] at h ht hn
  obtain ⟨-, hclamps, hput⟩ := State.writeLocal_plain h (mem_byteFlags hp m.payload.length)
  obtain ⟨w, hw⟩ : ∃ w, (s.writeLocal m.target m.payload
    ((flagsPer 16 m.poison ++ List.replicate m.payload.length false).take m.payload.length)).2.2 = w := ⟨_, rfl⟩
  have hsent : t = (w.send (w.newMsg 0x04 m.src m.target m.tag 0 [] [])).2 := by
    rw [← hrun]
    unfold State.msgWrite
    dsimp only
    rw [← hl, oneRegion_tier ht, s.stackFenced_tier ht, slice_all rfl, hclamps, hw]
    rfl
  have hsend := w.send_fabWork (w.newMsg 0x04 m.src m.target m.tag 0 [] [])
  rw [← hsent] at hsend
  rw [hw] at hput
  exact ⟨hput.storedAt ht ha hn hsend.mem, hsend.after_mem hput.frame_mem⟩

/-- A WRITE to a range that no region holds is one clamp. -/
theorem State.msgWrite_nowhere {s t : State} {m : Msg} (h : oneRegion m.target m.len = false) (hrun : s.msgWrite m = t) :
    t = ({ s with fab := t.fab } : State).reported t ∧ t.host.clampCount = min (s.host.clampCount + 1) (2 ^ 32 - 1) := by
  obtain ⟨w, hw⟩ : ∃ w, s.clamp (.message m.src) 1 = w := ⟨_, rfl⟩
  have hsent : t = (w.send (w.newMsg 0x04 m.src m.target m.tag 0 [] [])).2 := by
    rw [← hrun]
    unfold State.msgWrite
    dsimp only
    rw [h, hw]
    rfl
  have hsend := w.send_fabWork (w.newMsg 0x04 m.src m.target m.tag 0 [] [])
  have hwr : w = s.reported w := hw ▸ State.clamp_reported _ _ _
  rw [← hsent] at hsend
  refine ⟨?_, ?_⟩
  · unfold State.FabWork at hsend
    rw [hsend, hwr]
    rfl
  · rw [hsend.host, ← hw]
    exact (s.clamp_one_frame _).2.2

/-! ### READ -/

theorem State.pinView_tier (s : State) {a n : Nat} (h : a + n ≤ tierEnd) : s.pinView a n = ([], s) := by
  unfold State.pinView
  refine List.foldlRecOn (unitsOf a n) _ (motive := (· = ([], s))) rfl fun acc hacc u hu => ?_
  obtain ⟨hlt, -⟩ := mem_unitsOf h hu
  have hout : inStack u.1 32 = false := inStack_tier (n := 0) (by omega)
  rw [hacc]
  dsimp only
  rw [hout]
  rfl

/-- Tier memory with fresh check bits is read without a side effect, and nothing of it is poisoned (R331). -/
theorem State.readLocal_fresh {s : State} {a n : Nat} (h : a + n ≤ tierEnd) (hm : s.mem.marks = []) :
    ∃ ps, (∀ p ∈ ps, p = false) ∧ s.readLocal a n = (s.rawBytes a n, ps, s) := by
  have hread := State.memRead_fresh (s := s) (a := a) (n := n) fun u _ => by rw [hm]; rfl
  refine ⟨((unitsOf a n).zip (List.replicate (unitsOf a n).length false)).flatMap (fun up => List.replicate up.1.2.2 up.2),
    fun p hp => ?_, ?_⟩
  · obtain ⟨x, hx, hp⟩ := List.mem_flatMap.mp hp
    rw [List.eq_of_mem_replicate hp]
    exact List.eq_of_mem_replicate (List.of_mem_zip hx).2
  · unfold State.readLocal
    rw [inAcc_tier h, s.pinView_tier h]
    dsimp only
    rw [hread]
    rfl

theorem mem_granulePoison {ps : List Bool} (h : ∀ p ∈ ps, p = false) : ∀ p ∈ granulePoison ps, p = false := by
  intro p hp
  obtain ⟨g, -, rfl⟩ := List.mem_map.mp hp
  exact any_id_false fun q hq => h q (List.mem_of_mem_drop (List.mem_of_mem_take hq))

theorem State.msgRead_tier {s : State} {m : Msg} (h : inTier m.target m.len = true) (hm : s.mem.marks = []) :
    ∃ poison, (∀ p ∈ poison, p = false) ∧ s.msgRead m =
      (s.send (s.newMsg 0x03 m.src m.target m.tag m.len (s.rawBytes m.target m.len) poison)).2 := by
  have ht := inTier_iff.mp h
  obtain ⟨ps, hps, hread⟩ := State.readLocal_fresh ht hm
  refine ⟨granulePoison ps, mem_granulePoison hps, ?_⟩
  unfold State.msgRead
  dsimp only
  rw [oneRegion_tier ht, s.stackFenced_tier ht, hread]
  rfl

theorem State.consume_read {s : State} {m : Msg} (h : m.type = 0x02) : s.consume m = s.msgRead m := by
  unfold State.consume
  rw [h]
  rfl

/-! ### EVENT -/

theorem State.consume_event {s : State} {m : Msg} (h : m.type = 0x09) : s.consume m = s.bufferEvent (slice m.payload 0 16) := by
  unfold State.consume
  rw [h]
  rfl

theorem State.bufferEvent_room {s : State} (rec : List Byte) (h : s.host.events.length < 512) :
    s.bufferEvent rec = { s with host := { s.host with events := s.host.events ++ [rec] } } := if_pos (by omega)

theorem State.bufferEvent_full {s : State} (rec : List Byte) (h : 512 + s.cqRoom 0 ≤ s.host.events.length) :
    (s.bufferEvent rec).host.events = s.host.events ∧ (s.bufferEvent rec).host.evtLost = true ∧
      (s.bufferEvent rec).host.lostNext = true := by
  unfold State.bufferEvent
  rw [if_neg (by omega)]
  exact ⟨by simp, rfl, rfl⟩

/-! ### DOORBELL -/

theorem State.consume_doorbell {s : State} {m : Msg} (h : m.type = 0x0B) : s.consume m = s.msgDoorbell m := by
  unfold State.consume
  rw [h]
  rfl

/-- From s to t only submission ring r has changed, its tail apart, and outputs and live counters have been added. -/
def State.RingWork (r : Nat) (s t : State) : Prop :=
  t = { s with out := t.out, obs := { s.obs with live := t.obs.live }, host := { s.host with sq := t.host.sq } } ∧
    (t.sqRing r).tail = (s.sqRing r).tail ∧ ∀ q, q ≠ r → t.sqRing q = s.sqRing q

theorem State.RingWork.refl (r : Nat) (s : State) : State.RingWork r s s := ⟨rfl, rfl, fun _ _ => rfl⟩

theorem State.RingWork.trans {r : Nat} {s t u : State} (h : State.RingWork r s t) (h' : State.RingWork r t u) :
    State.RingWork r s u :=
  ⟨by rw [h'.1, h.1], h'.2.1.trans h.2.1, fun q hq => (h'.2.2 q hq).trans (h.2.2 q hq)⟩

@[simp] theorem State.sqRing_modSq (s : State) (r q : Nat) (f : SqRing → SqRing) :
    (s.modSq r f).sqRing q = if q = r then f (s.sqRing r) else s.sqRing q := by
  simp only [State.sqRing, State.modSq, State.mget_mmod_ite]

@[simp] theorem State.sqRing_count (s : State) (u i n q : Nat) : (s.count u i n).sqRing q = s.sqRing q := by
  rw [State.sqRing, State.count_host, State.sqRing]

theorem State.RingWork.count (r : Nat) (s : State) (u i n : Nat) : State.RingWork r s (s.count u i n) := by
  refine ⟨?_, by rw [State.sqRing_count], fun q _ => State.sqRing_count ..⟩
  unfold State.count
  split <;> rfl

theorem State.RingWork.modSq {r : Nat} (s : State) {f : SqRing → SqRing} (h : (f (s.sqRing r)).tail = (s.sqRing r).tail) :
    State.RingWork r s (s.modSq r f) :=
  ⟨rfl, by rw [State.sqRing_modSq, if_pos rfl, h], fun q hq => by rw [State.sqRing_modSq, if_neg hq]⟩

theorem State.refetch_work (s : State) (r j : Nat) : State.RingWork r s (s.refetch r j) := by
  unfold State.refetch
  split
  · exact .refl r s
  · refine State.RingWork.trans (t := State.count _ _ _ _) ?_ ⟨rfl, rfl, fun _ _ => rfl⟩
    refine State.RingWork.trans (.modSq s ?_) (.count r _ _ _ _)
    rfl

theorem State.fetchRing_work (s : State) (r : Nat) : State.RingWork r s (s.fetchRing r) := by
  unfold State.fetchRing
  split
  · exact List.foldlRecOn _ _ (motive := State.RingWork r s) (.refl r s) fun t ht j _ => ht.trans (t.refetch_work r j)
  · exact .refl r s

/-- A tail that is written to a ring (R553, R554). -/
theorem State.doorbell_spec (s : State) (r v : Nat) (src : ClampSource) {t : State} (ht : s.doorbell r v src = t) :
    t = ({ s with host := { s.host with sq := t.host.sq } } : State).reported t ∧
    (t.sqRing r).tail = v % ringSize (s.sqCfg r) ∧ ∀ q, q ≠ r → t.sqRing q = s.sqRing q := by
  obtain ⟨c, hc⟩ : ∃ c, s.clamp src (b2n (ringSize (s.sqCfg r) ≤ v)) = c := ⟨_, rfl⟩
  have hcr : c = s.reported c := hc ▸ State.clamp_reported _ _ _
  have hring : ∀ q, c.sqRing q = s.sqRing q := fun q => by
    rw [State.sqRing, ← hc, State.clamp_host_sq, State.sqRing]
  obtain ⟨a, ha⟩ : ∃ a, c.modSq r (fun q => { q with tail := v % ringSize (s.sqCfg r) }) = a := ⟨_, rfl⟩
  have hat : a.fetchRing r = t := by
    rw [← ha, ← hc]
    exact ht
  obtain ⟨hframe, htail, hothers⟩ := a.fetchRing_work r
  rw [hat] at hframe htail hothers
  refine ⟨?_, ?_, fun q hq => ?_⟩
  · rw [hframe, ← ha]
    unfold State.modSq
    rw [hcr]
    rfl
  · rw [htail, ← ha, State.sqRing_modSq, if_pos rfl]
  · rw [hothers q hq, ← ha, State.sqRing_modSq, if_neg hq, hring]

/-! ### The statement -/

/-- A message that must wait stays behind those that wait (R466). -/
theorem State.takeMsg_waits {s : State} {m : Msg} {type : Nat} (hpow : s.powered = true) (hlen : m.header.length = 16)
    (htype : m.type = type) (hdst : m.dst = s.chipId) (hw : s.messageWaits m = true) :
    s.takeMsg type m.header m.payload m.poison = { s with fab := { s.fab with arrived := s.fab.arrived ++ [m] } } := by
  unfold State.takeMsg
  dsimp only
  rw [slice_all hlen, if_pos (by simp [hpow, htype, hdst]), if_pos (by simp [hw])]

/-- Settles O33: a message that the package takes is what `State.consume` makes of it, type by type. -/
theorem messagesToMemoryAndRings : Obligations.MessagesToMemoryAndRings := by
  intro s m
  refine ⟨fun hpow hlen htype hdst hwaits => congrArg Host.Outcome.next (State.takeMsg_waits hpow hlen htype hdst hwaits),
    fun h => ?_, fun h hpay hpoi htier hmarks => ?_, fun h hpoi => ?_, fun h hpay hpoi => ?_⟩
  all_goals obtain ⟨-, -, -, -, -, -, -, htype, -⟩ := id h
  · obtain ⟨t, ht⟩ : ∃ t, s.msgWrite m = t := ⟨_, rfl⟩
    have hc := (State.consume_write htype).trans ht
    refine ⟨fun hplain hl hp => ?_, fun hno => ?_⟩
    · obtain ⟨hstored, hframe⟩ := State.msgWrite_tier hplain hl hp ht
      exact ⟨t, congrArg Host.Outcome.next (State.takeMsg_consumed h hc (congrArg (·.tf.run) hframe :)), hstored, hframe⟩
    · obtain ⟨hframe, hclamp⟩ := State.msgWrite_nowhere hno ht
      exact ⟨t, congrArg Host.Outcome.next (State.takeMsg_consumed h hc (congrArg (·.tf.run) hframe :)), hframe, hclamp⟩
  · obtain ⟨poison, hp, ht⟩ := State.msgRead_tier htier hmarks
    have htake := State.takeMsg_consumed h ((State.consume_read htype).trans ht) (congrArg TfState.run (State.send_fabWork _ _).tf)
    rw [hpay, hpoi] at htake
    exact ⟨poison, hp, congrArg Host.Outcome.next htake⟩
  · obtain ⟨t, ht⟩ : ∃ t, s.bufferEvent (slice m.payload 0 16) = t := ⟨_, rfl⟩
    have hr : t = s.reported t := ht ▸ State.bufferEvent_reported _ _
    have htake := State.takeMsg_consumed h ((State.consume_event htype).trans ht) (congrArg (·.tf.run) hr :)
    rw [hpoi] at htake
    have hrun : exec (.event m.header m.payload) s = .next t := congrArg Host.Outcome.next htake
    refine ⟨fun hroom => ?_, fun hfull => ⟨t, hrun, hr, ?_⟩⟩
    · rw [hrun, ← ht, State.bufferEvent_room _ hroom]
    · rw [← ht]
      exact State.bufferEvent_full _ hfull
  · obtain ⟨t, ht⟩ : ∃ t, s.msgDoorbell m = t := ⟨_, rfl⟩
    have hc := (State.consume_doorbell htype).trans ht
    have hrun : t.tf.run = s.tf.run → exec (.doorbell m.header) s = .next t := fun htf => by
      have htake := State.takeMsg_consumed h hc htf
      rw [hpay, hpoi] at htake
      exact congrArg Host.Outcome.next htake
    refine ⟨fun hlocal => ?_, fun hremote => ?_⟩
    · have hd : s.count 0 (fabCtr 12) 1 = t := (if_neg (by rw [hlocal]; exact Bool.false_ne_true)).symm.trans ht
      rw [← hd] at hrun
      exact ⟨_, hrun (congrArg TfState.run (State.count_tf ..)), State.count_reported .., by rw [State.count_host], State.count_out ..⟩
    · have hd := (if_pos hremote).symm.trans ht
      obtain ⟨hframe, hring⟩ := s.doorbell_spec _ _ _ hd
      exact ⟨t, hrun (congrArg (·.tf.run) hframe :), hframe, hring⟩

end Sys2Proof.Machine
end

section
/-! PROOFS. Stream messages: data in order, data that breaks its context, and credit (R480 to R484). -/

namespace Sys2Proof.Machine

/-! ### Fields of an entry of which bytes have been replaced -/

theorem slice_congr {a b : List Byte} {o o' n : Nat} (h : ∀ i, i < n → (a[o + i]?).getD 0 = (b[o' + i]?).getD 0) :
    slice a o n = slice b o' n := by
  refine List.ext_getElem? fun i => ?_
  by_cases hi : i < n
  · have ha : i < (slice a o n).length := by rwa [slice_length]
    have hb : i < (slice b o' n).length := by rwa [slice_length]
    have hab := h i hi
    rw [← slice_getD a o hi, ← slice_getD b o' hi, List.getElem?_eq_getElem ha, List.getElem?_eq_getElem hb] at hab
    rw [List.getElem?_eq_getElem ha, List.getElem?_eq_getElem hb]
    exact congrArg some hab
  · rw [List.getElem?_eq_none (by rw [slice_length]; omega), List.getElem?_eq_none (by rw [slice_length]; omega)]

section
variable {bs new : List Byte} {off : Nat} (h : off + new.length ≤ bs.length)
include h

theorem patch_length : (patch bs off new).length = bs.length := by
  simp only [patch, List.length_append, List.length_take, List.length_drop]
  omega

theorem patch_getElem? (i : Nat) :
    (patch bs off new)[i]? = if off ≤ i ∧ i < off + new.length then new[i - off]? else bs[i]? := by
  have hoff : (bs.take off).length = off := by rw [List.length_take]; omega
  rw [patch, List.append_assoc]
  by_cases h1 : i < off
  · rw [List.getElem?_append_left (by omega), if_neg (by omega), List.getElem?_take_of_lt h1]
  rw [List.getElem?_append_right (by omega), hoff]
  by_cases h2 : i < off + new.length
  · rw [if_pos (by omega), List.getElem?_append_left (by omega)]
  · rw [if_neg (by omega), List.getElem?_append_right (by omega), List.getElem?_drop]
    congr 1
    omega

theorem field_patch_self : field (patch bs off new) off new.length = leNat new := by
  rw [field, show slice (patch bs off new) off new.length = slice new 0 new.length from slice_congr fun i hi => by
    rw [patch_getElem? h, if_pos (by omega)]; congr 2; omega]
  rw [slice_all rfl]

theorem field_patch_other {o n : Nat} (ho : o + n ≤ off ∨ off + new.length ≤ o) :
    field (patch bs off new) o n = field bs o n := by
  exact congrArg leNat (slice_congr fun i hi => by rw [patch_getElem? h, if_neg (by omega)])

end

/-- A field of k bytes that has been replaced reads as the number put there. -/
theorem field_patch_natLe {bs : List Byte} {off k x : Nat} (h : off + k ≤ bs.length) (hx : x < 256 ^ k) :
    field (patch bs off (natLe k x)) off k = x := by
  have := field_patch_self (bs := bs) (off := off) (new := natLe k x) (by rwa [natLe_length])
  rw [natLe_length, leNat_natLe, Nat.mod_eq_of_lt hx] at this
  exact this

theorem field_patch_natLe_other {bs : List Byte} {off k x o n : Nat} (h : off + k ≤ bs.length) (ho : o + n ≤ off ∨ off + k ≤ o) :
    field (patch bs off (natLe k x)) o n = field bs o n :=
  field_patch_other (by rwa [natLe_length]) (by rwa [natLe_length])

theorem patch_natLe_length {bs : List Byte} {off k x : Nat} (h : off + k ≤ bs.length) :
    (patch bs off (natLe k x)).length = bs.length := patch_length (by rwa [natLe_length])

/-! ### Contexts -/

@[simp] theorem State.ctx_putCtx (s : State) (c d : Nat) (e : List Byte) : (s.putCtx c e).ctx d = if d = c then e else s.ctx d :=
  mget_mput _ _ _ _ _

theorem State.ctx_congr {s t : State} (h : t.fab.ctxs = s.fab.ctxs) (c : Nat) : t.ctx c = s.ctx c := by
  rw [State.ctx, h, State.ctx]

theorem State.streamSlots_congr {s t : State} (h : t.host.slots = s.host.slots) (c : Nat) : t.streamSlots c = s.streamSlots c := by
  rw [State.streamSlots, h, State.streamSlots]

theorem State.consume_streamData {s : State} {m : Msg} (h : m.type = 0x05) : s.consume m = s.streamData m := by
  unfold State.consume
  rw [h]
  rfl

theorem State.consume_streamCredit {s : State} {m : Msg} (h : m.type = 0x06) : s.consume m = s.streamCredit m := by
  unfold State.consume
  rw [h]
  rfl

/-! ### Completion of a descriptor of a mover -/

/-- From s to t descriptors of movers have completed: slots, what the tree keeps of their nodes, what follows for the step and for
Timetable mode, the requests of the slots, and reports; events are only added. -/
structure State.EndWork (s t : State) : Prop where
  frame : t = ({ s with
    tree := t.tree, res := t.res, fab := { s.fab with reqs := t.fab.reqs },
    host := { s.host with slots := t.host.slots, completions := t.host.completions },
    tf := { s.tf with nodePlan := t.tf.nodePlan, overrun := t.tf.overrun, unreported := t.tf.unreported, planned := t.tf.planned } }
    : State).reported t
  events : s.host.events <+: t.host.events

theorem State.EndWork.refl (s : State) : s.EndWork s := ⟨rfl, List.prefix_rfl⟩

theorem State.EndWork.trans {s t u : State} (h : s.EndWork t) (h' : t.EndWork u) : s.EndWork u :=
  ⟨by rw [h'.frame, h.frame]; rfl, h.events.trans h'.events⟩

section
variable {s t : State} (h : s.EndWork t)
include h

theorem State.EndWork.run : t.tf.run = s.tf.run := (congrArg (·.tf.run) h.frame :)
theorem State.EndWork.mem : t.mem = s.mem := (congrArg State.mem h.frame :)
theorem State.EndWork.regs : t.regs = s.regs := (congrArg State.regs h.frame :)
theorem State.EndWork.time : t.time = s.time := (congrArg State.time h.frame :)
theorem State.EndWork.ctxs : t.fab.ctxs = s.fab.ctxs := (congrArg (·.fab.ctxs) h.frame :)

theorem State.EndWork.stamp : t.stamp = s.stamp := by
  rw [State.stamp, h.time, State.stamp]

end

theorem State.EndWork.foldl {β : Type} {f : State → β → State} (hf : ∀ t x, State.EndWork t (f t x)) (l : List β) (s : State) :
    s.EndWork (l.foldl f s) :=
  List.foldlRecOn l f (motive := s.EndWork) (.refl s) fun t ht x _ => ht.trans (hf t x)

/-- What a completion does beside its record: no slot and no request changes. -/
structure State.TellWork (s t : State) : Prop extends s.EndWork t where
  slots : t.host.slots = s.host.slots
  reqs : t.fab.reqs = s.fab.reqs

theorem State.TellWork.refl (s : State) : s.TellWork s := ⟨.refl s, rfl, rfl⟩

theorem State.TellWork.trans {s t u : State} (h : s.TellWork t) (h' : t.TellWork u) : s.TellWork u :=
  ⟨h.toEndWork.trans h'.toEndWork, h'.slots.trans h.slots, h'.reqs.trans h.reqs⟩

theorem State.TellWork.tree (s : State) (x : TreeState) : s.TellWork { s with tree := x } := ⟨⟨rfl, List.prefix_rfl⟩, rfl, rfl⟩

theorem State.TellWork.timetable (s : State) (a : List (Nat × Nat)) (b : Bool) (c : List (Nat × Nat × Nat × Nat × Bool))
    (d : List (Nat × Nat × Nat)) : s.TellWork
      { s with tf := { s.tf with nodePlan := a, overrun := b, unreported := c, planned := d } } :=
  ⟨⟨rfl, List.prefix_rfl⟩, rfl, rfl⟩

theorem State.TellWork.count (s : State) (u i n : Nat) : s.TellWork (s.count u i n) := by
  refine ⟨⟨?_, by rw [State.count_host]⟩, by rw [State.count_host], by rw [State.count_fab]⟩
  unfold State.count
  split <;> rfl

theorem State.TellWork.sig (s : State) (u i n : Nat) : s.TellWork (s.sig u i n) := by
  refine ⟨⟨?_, by rw [State.sig_host]⟩, by rw [State.sig_host], by rw [State.sig_fab]⟩
  rw [State.sig_reported]
  rfl

theorem State.TellWork.event (s : State) (c a : Nat) (u : Bool) : s.TellWork (s.event c a u) := by
  refine ⟨⟨?_, ?_⟩, State.event_host_slots .., by rw [State.event_fab]⟩
  · rw [State.event_reported]
    rfl
  · unfold State.event State.bufferEvent
    split
    · exact List.prefix_append _ _
    · exact (congrArg (s.host.events <+: ·.events) (State.count_host ..)).mpr List.prefix_rfl

theorem State.TellWork.foldl {β : Type} {f : State → β → State} (hf : ∀ t x, State.TellWork t (f t x)) (l : List β) (s : State) :
    s.TellWork (l.foldl f s) :=
  List.foldlRecOn l f (motive := s.TellWork) (.refl s) fun t ht x _ => ht.trans (hf t x)

theorem State.TellWork.ite {s a b : State} {c : Prop} [Decidable c] (ha : s.TellWork a) (hb : s.TellWork b) :
    s.TellWork (if c then a else b) := by
  split
  · exact ha
  · exact hb

theorem State.settle_tells (s : State) (id k : Nat) : s.TellWork (s.settle id k) := by
  unfold State.settle
  dsimp only
  split
  · exact .ite (.refl s) (.tree s _)
  · exact .ite (.refl s) (.tree s _)
  all_goals exact .refl s

theorem State.tellStates_tells (was s : State) (id : Nat) : s.TellWork (was.tellStates s id) :=
  .foldl (fun t _ => .ite (.refl t) (.sig t _ _ _)) _ s

theorem State.plan_tells (s : State) (k : Nat) (sl : Slot) : s.TellWork (s.plan k sl) := by
  have hnote : ∀ (t : State) due, t.TellWork (t.notePlanned sl due) := fun t due => .timetable t _ _ _ _
  unfold State.plan
  refine .ite (.refl s) ?_
  split
  · refine .ite ?_ ?_
    · exact (hnote s _).trans (.trans (.count _ _ _ _) (.timetable _ _ _ _ _))
    · extract_lets a node b c
      have ha : s.TellWork a := (hnote s s.time.now).trans (.count _ _ _ _)
      have hb : s.TellWork b := ha.trans (.sig _ _ _ _)
      have hc : s.TellWork c := .ite hb (hb.trans (.event _ _ _ _))
      exact hc.trans (.timetable _ _ _ _ _)
  · refine .ite (.refl s) ?_
    exact State.TellWork.trans (.count _ _ _ _) ((hnote _ _).trans (.timetable _ _ _ _ _))

/-- A slot whose descriptor has completed. -/
def Slot.completed (sl : Slot) (st : Status) (node value stamp order : Nat) (quiet : Bool) : Slot :=
  { sl with phase := .done, record := completionRecord sl.desc st node value stamp, order := order, quiet := quiet }

/-- A completion changes its own slot alone, and no request. -/
structure State.Completes (s : State) (k : Nat) (sl : Slot) (st : Status) (node value : Nat) (t : State) : Prop where
  work : s.EndWork t
  slots : ∃ order quiet,
    t.host.slots = mput none s.host.slots k (some (sl.completed st node (detailValue st value) s.stamp order quiet))
  reqs : t.fab.reqs = s.fab.reqs

theorem State.complete_spec {s : State} {k : Nat} {sl : Slot} (st : Status) (node value : Nat) (hs : s.slot k = some sl) :
    s.Completes k sl st node value (s.complete k st node value) := by
  unfold State.complete
  rw [hs]
  dsimp -zeta only
  extract_lets was v sl' t1 _ t1' _ _ t2 id ends t3 u t4 t5
  have h2 : s.Completes k sl st node value t2 := ⟨⟨rfl, List.prefix_rfl⟩, ⟨_, _, rfl⟩, rfl⟩
  have tell : ∀ t, t2.TellWork t → s.Completes k sl st node value t := by
    intro t h
    obtain ⟨order, quiet, hslots⟩ := h2.slots
    exact ⟨h2.work.trans h.toEndWork, ⟨order, quiet, h.slots.trans hslots⟩, h.reqs.trans h2.reqs⟩
  have he : t2.TellWork ends := .ite ((t2.settle_tells id k).trans (State.tellStates_tells ..)) (.refl t2)
  have h3 : t2.TellWork t3 := .ite he (he.trans (State.plan_tells ..))
  have h4 : t2.TellWork t4 := h3.trans (.tree _ _)
  have h5 : t2.TellWork t5 := .ite h4 (h4.trans (.sig _ _ _ _))
  split
  · exact tell _ h3
  · exact tell _ (h5.trans (.sig _ _ _ _))

section
variable {s t : State} {k node value : Nat} {sl : Slot} {st : Status} (h : s.Completes k sl st node value t)
include h

theorem State.Completes.self : ∃ order quiet, t.slot k = some (sl.completed st node (detailValue st value) s.stamp order quiet) := by
  obtain ⟨order, quiet, hslots⟩ := h.slots
  exact ⟨order, quiet, by rw [State.slot, hslots, mget_mput_self]⟩

theorem State.Completes.other {j : Nat} (hj : j ≠ k) : t.slot j = s.slot j := by
  obtain ⟨order, quiet, hslots⟩ := h.slots
  rw [State.slot, hslots, mget_mput_other _ _ _ hj, State.slot]

theorem State.Completes.ended : s.ended t k sl st node (detailValue st value) := by
  obtain ⟨order, quiet, hsl⟩ := h.self
  exact ⟨_, hsl, rfl, rfl, rfl⟩

end

theorem State.finish_eq {s : State} {k : Nat} {sl : Slot} (hs : s.slot k = some sl) (cls : Nat) (st : Status) (value : Nat) :
    s.finish k cls st value = s.complete k st (s.reporter sl.barred cls (targetOf sl.desc)) value := by
  rw [State.finish, hs]

theorem State.finish_free {s : State} {k : Nat} (hs : s.slot k = none) (cls : Nat) (st : Status) (value : Nat) :
    s.finish k cls st value = s := by
  rw [State.finish, hs]

theorem State.EndWork.putReq (s : State) (tag : Nat) (r : Option Request) : s.EndWork (s.putReq tag r) := ⟨rfl, List.prefix_rfl⟩

theorem State.EndWork.modSlot (s : State) (k : Nat) (f : Slot → Slot) : s.EndWork (s.modSlot k f) := ⟨rfl, List.prefix_rfl⟩

theorem State.dropSlotReqs_ends (s : State) (k : Nat) : s.EndWork (s.dropSlotReqs k) :=
  (State.EndWork.foldl (fun t x => .putReq t x none) _ s).trans (.modSlot _ k _)

theorem State.dropSlotReqs_slot (s : State) (k j : Nat) :
    (s.dropSlotReqs k).slot j = if j = k then (s.slot k).map (fun sl => { sl with unread := [] }) else s.slot j := by
  have hslots : ∀ i, ((s.slotReqs k).foldl (fun s t => s.putReq t none) s).slot i = s.slot i := fun i =>
    List.foldlRecOn _ _ (motive := fun t : State => t.slot i = s.slot i) rfl fun t ht x _ => ht
  rw [State.dropSlotReqs, State.slot_modSlot, hslots, hslots]

/-- A mover's descriptor that ends with TIMEOUT (R473, R484). -/
theorem State.moverTimeout_spec (s : State) (k cls chip : Nat) : s.EndWork (s.moverTimeout k cls chip) ∧
    (∀ j, j ≠ k → (s.moverTimeout k cls chip).slot j = s.slot j) ∧
    ∀ sl, s.slot k = some sl → ∃ node, s.ended (s.moverTimeout k cls chip) k sl .timeout node chip := by
  obtain ⟨d, hd⟩ : ∃ d, s.dropSlotReqs k = d := ⟨_, rfl⟩
  have hsd : s.EndWork d := hd ▸ s.dropSlotReqs_ends k
  have hslot : ∀ j, d.slot j = if j = k then (s.slot k).map (fun sl => { sl with unread := [] }) else s.slot j :=
    fun j => hd ▸ s.dropSlotReqs_slot k j
  rw [State.moverTimeout, hd]
  cases hs : s.slot k with
  | none =>
    have hdk : d.slot k = none := by rw [hslot, if_pos rfl, hs]; rfl
    rw [State.finish_free hdk]
    exact ⟨hsd, fun j hj => by rw [hslot, if_neg hj], fun _ h => absurd h (by simp)⟩
  | some sl =>
    have hdk : d.slot k = some { sl with unread := [] } := by rw [hslot, if_pos rfl, hs]; rfl
    rw [State.finish_eq hdk]
    have h := State.complete_spec .timeout (d.reporter sl.barred cls (targetOf sl.desc)) chip hdk
    refine ⟨hsd.trans h.work, fun j hj => by rw [h.other hj, hslot, if_neg hj], fun x hx => ?_⟩
    obtain rfl := Option.some.inj hx
    obtain ⟨x, hx, hdone, hdesc, hrec⟩ := h.ended
    exact ⟨_, x, hx, hdone, hdesc, hrec.trans (by rw [hsd.stamp]; rfl)⟩

theorem State.ended.slot_some {s t : State} {k : Nat} {sl : Slot} {st : Status} {node value : Nat} (h : s.ended t k sl st node value) :
    ∃ sl', t.slot k = some sl' ∧ sl'.desc = sl.desc := by
  obtain ⟨sl', h1, -, h2, -⟩ := h
  exact ⟨sl', h1, h2⟩

/-- Descriptors of a list of slots end with TIMEOUT, one after the other. -/
theorem State.moverTimeouts_spec (cls chip : Nat) : ∀ (l : List (Nat × Slot)) (s : State) {t : State},
    l.foldl (fun s kv => s.moverTimeout kv.1 cls chip) s = t → s.EndWork t ∧ (∀ j, j ∉ l.map (·.1) → t.slot j = s.slot j) ∧
      ∀ k ∈ l.map (·.1), ∀ sl, s.slot k = some sl → ∃ node, s.ended t k sl .timeout node chip
  | [], s, _, rfl => ⟨.refl s, fun _ _ => rfl, fun _ hk => absurd hk List.not_mem_nil⟩
  | kv :: l, s, t, ht => by
    obtain ⟨u, hu⟩ : ∃ u, s.moverTimeout kv.1 cls chip = u := ⟨_, rfl⟩
    obtain ⟨hsu, hothers, hown⟩ := s.moverTimeout_spec kv.1 cls chip
    rw [List.foldl_cons, hu] at ht
    rw [hu] at hsu hothers hown
    obtain ⟨hut, hkept, hended⟩ := State.moverTimeouts_spec cls chip l u ht
    refine ⟨hsu.trans hut, fun j hj => ?_, fun k hk sl hsl => ?_⟩
    · rw [List.map_cons, List.mem_cons, not_or] at hj
      exact (hkept j hj.2).trans (hothers j hj.1)
    · have later : k ∈ l.map (·.1) → ∀ sl', u.slot k = some sl' → sl'.desc = sl.desc →
          ∃ node, s.ended t k sl .timeout node chip := by
        intro hl sl' hsl' hdesc
        obtain ⟨node, x, hx, hd, hxd, hrec⟩ := hended k hl sl' hsl'
        exact ⟨node, x, hx, hd, hxd.trans hdesc, by rw [hrec, hdesc, hsu.stamp]⟩
      by_cases hl : k ∈ l.map (·.1)
      · by_cases hkv : k = kv.1
        · subst hkv
          obtain ⟨node, he⟩ := hown sl hsl
          obtain ⟨sl', h1, h2⟩ := he.slot_some
          exact later hl sl' h1 h2
        · exact later hl sl ((hothers k hkv).trans hsl) rfl
      · obtain rfl : k = kv.1 := by simpa [hl] using hk
        obtain ⟨node, x, hx, hrest⟩ := hown sl hsl
        exact ⟨node, x, (hkept _ hl).trans hx, hrest⟩

/-! ### STREAM_DATA -/

theorem State.streamData_broken {s : State} {m : Msg} (h : ctxMode (s.ctx (m.target % 2 ^ 18)) = 3) : s.streamData m = s := by
  unfold State.streamData
  simp only [h]

theorem State.streamData_idle {s : State} {m : Msg} (h2 : ctxMode (s.ctx (m.target % 2 ^ 18)) ≠ 2)
    (h3 : ctxMode (s.ctx (m.target % 2 ^ 18)) ≠ 3) : s.streamData m = s.count 0 (fabCtr 13) 1 := by
  unfold State.streamData
  dsimp only
  split
  · contradiction
  · contradiction
  · rfl

/-- The entry of a context whose head has moved, with the time of its data. -/
def ctxFilled (e : List Byte) (n stamp : Nat) : List Byte :=
  patch (patch (patch e 0 (natLe 1 (field e 0 1))) 16 (natLe 8 (ctxHead e + n))) 40 (natLe 8 stamp)

theorem ctxFilled_spec {e : List Byte} {n : Nat} (stamp : Nat) (h : e.length = 64) (hn : ctxHead e + n < 2 ^ 64) :
    ctxHead (ctxFilled e n stamp) = ctxHead e + n ∧ ctxLimit (ctxFilled e n stamp) = ctxLimit e ∧
      ctxMode (ctxFilled e n stamp) = ctxMode e := by
  have h1 : (patch e 0 (natLe 1 (field e 0 1))).length = 64 := by rw [patch_natLe_length (by omega), h]
  have h2 : (patch (patch e 0 (natLe 1 (field e 0 1))) 16 (natLe 8 (ctxHead e + n))).length = 64 := by
    rw [patch_natLe_length (by omega), h1]
  refine ⟨?_, ?_, ?_⟩
  · rw [ctxHead, ctxFilled, field_patch_natLe_other (by omega) (by omega), field_patch_natLe (by omega) hn]
  · rw [ctxLimit, ctxFilled, field_patch_natLe_other (by omega) (by omega), field_patch_natLe_other (by omega) (by omega),
      field_patch_natLe_other (by omega) (by omega), ctxLimit]
  · rw [ctxMode, ctxFilled, field_patch_natLe_other (by omega) (by omega), field_patch_natLe_other (by omega) (by omega),
      field_patch_natLe (by omega) (field_lt e 0 1), ctxMode]

/-- Data that does not wrap fills one piece of the ring (R482). -/
theorem State.fillRing_tier {s t : State} {e bs : List Byte} {ps : List Bool}
    (hfit : ctxHead e % ctxSize e + bs.length ≤ ctxSize e) (h : s.plainTier (ctxBase e + ctxHead e % ctxSize e) bs.length)
    (hps : ∀ p ∈ ps, p = false) (hlen : ps.length = bs.length) (ht : s.fillRing (ringSpans e bs.length) bs ps = t) :
    (∀ u : State, u.mem = t.mem → s.storedAt u (ctxBase e + ctxHead e % ctxSize e) bs) ∧
      t = ({ s with mem := t.mem } : State).reported t := by
  have hfirst : min bs.length (ctxSize e - ctxHead e % ctxSize e) = bs.length := by omega
  by_cases h0 : bs.length = 0
  · obtain rfl : bs = [] := List.eq_nil_of_length_eq_zero h0
    obtain rfl : s = t := by
      rw [← ht]
      simp [ringSpans, State.fillRing]
    refine ⟨fun u hu => ⟨fun x => ?_, fun g h1 h2 => ?_⟩, rfl⟩
    · rw [if_neg (by simp), State.byte, hu, State.byte]
    · exact absurd h2 (by simpa using h1)
  · have hspans : ringSpans e bs.length = [(ctxBase e + ctxHead e % ctxSize e, bs.length)] := by
      simp [ringSpans, hfirst, h0]
    obtain ⟨-, htier, ha, hn⟩ := State.plainTier_spec h
    have hput := (State.writeLocal_plain h hps).2.2
    have hrun : (s.writeLocal (ctxBase e + ctxHead e % ctxSize e) bs ps).2.2 = t := by
      rw [← ht, hspans, State.fillRing, List.foldl_cons, List.foldl_nil, s.stackFenced_tier htier, slice_all rfl, List.drop_zero,
        ← hlen, List.take_length]
      rfl
    rw [hrun] at hput
    exact ⟨fun u hu => hput.storedAt htier ha hn hu, hput.frame_mem⟩

theorem byteFlags_length (ps : List Bool) (n : Nat) : ((flagsPer 16 ps ++ List.replicate n false).take n).length = n := by
  rw [List.length_take, List.length_append, List.length_replicate]
  omega

/-- Data in order for a context on which no descriptor waits (R482). -/
theorem State.streamData_inOrder {s f : State} {m : Msg} {c : Nat} {e : List Byte} (hc : c = m.target % 2 ^ 18) (he : s.ctx c = e)
    (hmode : ctxMode e = 2) (hpos : m.target / 2 ^ 18 * 16 = ctxHead e % 2 ^ 34) (hroom : ctxHead e + m.len ≤ ctxLimit e + ctxSize e)
    (hslots : f.streamSlots c = []) (hp : ∀ p ∈ m.poison, p = false)
    (hf : s.fillRing (ringSpans e m.len) (slice m.payload 0 m.len)
      ((flagsPer 16 m.poison ++ List.replicate m.len false).take m.len) = f) :
    s.streamData m = f.putCtx c (ctxFilled e m.len f.stamp) := by
  subst hc
  have hgo : ¬ (decide (m.target / 2 ^ 18 * 16 ≠ ctxHead e % 2 ^ 34) || decide (ctxLimit e + ctxSize e < ctxHead e + m.len)) = true := by
    rw [Bool.or_eq_true, decide_eq_true_eq, decide_eq_true_eq]
    exact not_or.mpr ⟨not_not.mpr hpos, Nat.not_lt.mpr hroom⟩
  unfold State.streamData
  simp only [he, hmode]
  rw [if_neg hgo, hf, any_id_false hp, State.streamSlots_congr (s := f) (t := f.putCtx _ _) rfl, hslots]
  rfl

/-- Data out of order, or beyond the ring, breaks its context (R483). -/
theorem State.streamData_breaks {s : State} {m : Msg} {c : Nat} {e : List Byte} (hc : c = m.target % 2 ^ 18) (he : s.ctx c = e)
    (hmode : ctxMode e = 2)
    (h : m.target / 2 ^ 18 * 16 ≠ ctxHead e % 2 ^ 34 ∨ ctxLimit e + ctxSize e < ctxHead e + m.len) : s.streamData m = s.breakCtx c := by
  subst hc
  unfold State.streamData
  simp only [he, hmode]
  rw [if_pos (by simpa using h)]

/-- The entry of a context that breaks. -/
def ctxBroken (e : List Byte) : List Byte := patch e 0 (natLe 1 (field e 0 1 / 4 * 4 + 3))

theorem ctxBroken_mode {e : List Byte} (h : e.length = 64) : ctxMode (ctxBroken e) = 3 := by
  have := field_lt e 0 1
  rw [ctxMode, ctxBroken, field_patch_natLe (by omega) (by omega)]
  omega

/-- A context that breaks: its mode, one event, and the end of every STREAM on it (R483). -/
theorem State.breakCtx_spec (s : State) (c : Nat) {t : State} (ht : s.breakCtx c = t) :
    (s.putCtx c (ctxBroken (s.ctx c))).EndWork t ∧
    (s.host.events.length < 512 → eventRecord 0x0405 c false false s.stamp ∈ t.host.events) ∧
    (∀ j, j ∉ (s.streamSlots c).map (·.1) → t.slot j = s.slot j) ∧
    ∀ k ∈ (s.streamSlots c).map (·.1), ∀ sl, s.slot k = some sl → ∃ node, s.ended t k sl .timeout node (ctxPeer (s.ctx c)) := by
  obtain ⟨p, hp⟩ : ∃ p, s.putCtx c (ctxBroken (s.ctx c)) = p := ⟨_, rfl⟩
  obtain ⟨v, hv⟩ : ∃ v, (p.count 0 (fabCtr 14) 1).event 0x0405 c false = v := ⟨_, rfl⟩
  have hpv : p.EndWork v := hv ▸ (State.TellWork.trans (.count _ _ _ _) (.event _ _ _ _)).toEndWork
  have hslots : v.host.slots = s.host.slots := by
    rw [← hv, State.event_host_slots, State.count_host, ← hp]
    rfl
  have hpstamp : p.stamp = s.stamp := hp ▸ rfl
  have hstamp : v.stamp = s.stamp := hpv.stamp.trans hpstamp
  have hslot : ∀ j, v.slot j = s.slot j := fun j => by rw [State.slot, hslots, State.slot]
  have hfold : (s.streamSlots c).foldl (fun u kv => u.moverTimeout kv.1 3 (ctxPeer (s.ctx c))) v = t := by
    rw [← State.streamSlots_congr hslots c, ← hv, ← hp]
    exact ht
  obtain ⟨hvt, hkept, hended⟩ := State.moverTimeouts_spec _ _ _ _ hfold
  rw [hp]
  refine ⟨hpv.trans hvt, fun hroom => ?_, fun j hj => (hkept j hj).trans (hslot j), fun k hk sl hsl => ?_⟩
  · refine hvt.events.subset ?_
    rw [← hv, State.event, State.bufferEvent_room _ (by rw [State.count_host, ← hp]; exact hroom),
      (State.TellWork.count ..).stamp, hpstamp]
    exact List.mem_append_right _ List.mem_cons_self
  · obtain ⟨node, x, hx, hd, hxd, hrec⟩ := hended k hk sl ((hslot k).trans hsl)
    exact ⟨node, x, hx, hd, hxd, by rw [hrec, hstamp]⟩

/-! ### STREAM_CREDIT -/

theorem State.streamCredit_idle {s : State} {m : Msg} (h : ctxMode (s.ctx (m.target % 2 ^ 18)) ≠ 1) : s.streamCredit m = s := if_neg h

/-- Credit for a context on which no descriptor waits (R481). -/
theorem State.streamCredit_send {s : State} {m : Msg} {c : Nat} {e : List Byte} (hc : c = m.target % 2 ^ 18) (he : s.ctx c = e)
    (hmode : ctxMode e = 1) (hslots : s.streamSlots c = []) :
    s.streamCredit m = s.putCtx c (patch e 24 (natLe 8 (streamCount (ctxLimit e) (m.target / 2 ^ 18)))) := by
  subst hc
  unfold State.streamCredit
  dsimp only
  rw [he, if_pos hmode, State.streamSlots_congr (s := s) (t := s.putCtx _ _) rfl, hslots]

/-! ### The statement -/

/-- Settles O35: what the message makes of its context, by the context's mode. -/
theorem streamMessages : Obligations.StreamMessages := by
  intro s m c e hc he hlen
  refine ⟨fun h => ?_, fun h hpay hpoi => ?_⟩
  all_goals obtain ⟨-, -, -, -, -, -, -, htype, -⟩ := id h
  · have hrun : ∀ t, s.streamData m = t → t.tf.run = s.tf.run → exec (.streamData m.header m.payload m.poison) s = .next t :=
      fun t ht htf => congrArg Host.Outcome.next (State.takeMsg_consumed h ((State.consume_streamData htype).trans ht) htf)
    have hmode : ctxMode (s.ctx (m.target % 2 ^ 18)) = ctxMode e := by rw [← hc, he]
    refine ⟨fun h3 => hrun s (State.streamData_broken (hmode.trans h3)) rfl, fun h2 h3 => ?_,
      fun h2 hpos hroom hfit hslots hhead hplain hl hp => ?_, fun h2 hbad => ?_⟩
    · have ht := State.streamData_idle (s := s) (m := m) (by rwa [hmode]) (by rwa [hmode])
      exact ⟨_, hrun _ ht (congrArg TfState.run (State.count_tf ..)), State.count_reported ..⟩
    · obtain ⟨f, hf⟩ : ∃ f, s.fillRing (ringSpans e m.len) (slice m.payload 0 m.len)
        ((flagsPer 16 m.poison ++ List.replicate m.len false).take m.len) = f := ⟨_, rfl⟩
      obtain ⟨hstored, hframe⟩ := State.fillRing_tier (bs := m.payload) (t := f) (by rwa [hl]) (by rwa [hl]) (mem_byteFlags hp m.len)
        (by rw [byteFlags_length, hl]) (by rw [hl, ← hf, slice_all hl])
      have hfslots : f.streamSlots c = [] := (State.streamSlots_congr (congrArg (·.host.slots) hframe :) c).trans hslots
      have ht := State.streamData_inOrder hc he h2 hpos hroom hfslots hp hf
      have hctx : ∀ d, f.ctx d = s.ctx d := State.ctx_congr (congrArg (·.fab.ctxs) hframe :)
      obtain ⟨hnew, hlimit, hkeep⟩ := ctxFilled_spec f.stamp hlen hhead
      refine ⟨_, hrun _ ht (congrArg (·.tf.run) hframe :), hstored _ rfl, ?_, ?_, ?_, fun d hd => ?_, ?_⟩
      · rw [State.ctx_putCtx, if_pos rfl, hnew]
      · rw [State.ctx_putCtx, if_pos rfl, hlimit]
      · rw [State.ctx_putCtx, if_pos rfl, hkeep, h2]
      · rw [State.ctx_putCtx, if_neg hd, hctx]
      · rw [State.putCtx, hframe]
        rfl
    · obtain ⟨t, ht⟩ : ∃ t, s.breakCtx c = t := ⟨_, rfl⟩
      obtain ⟨hends, hevent, hkept, hended⟩ := s.breakCtx_spec c ht
      rw [he] at hends hended
      have hctx : ∀ d, t.ctx d = if d = c then ctxBroken e else s.ctx d := fun d =>
        (State.ctx_congr hends.ctxs d).trans (s.ctx_putCtx c d _)
      refine ⟨t, hrun t ((State.streamData_breaks hc he h2 hbad).trans ht) hends.run, ?_, fun d hd => ?_, fun x => ?_, hends.regs,
        hends.time, hevent, fun k sl hk hsl => hended k (List.mem_map.mpr ⟨_, hk, rfl⟩) sl hsl, fun k hk => hkept k fun hmem => ?_⟩
      · rw [hctx, if_pos rfl, ctxBroken_mode hlen]
      · rw [hctx, if_neg hd]
      · rw [State.byte, hends.mem, State.byte]
        rfl
      · obtain ⟨⟨j, sl⟩, hj, rfl⟩ := List.mem_map.mp hmem
        exact hk sl hj
  · have hrun : ∀ t, s.streamCredit m = t → t.tf.run = s.tf.run → exec (.streamCredit m.header) s = .next t := fun t ht htf => by
      have htake := State.takeMsg_consumed h ((State.consume_streamCredit htype).trans ht) htf
      rw [hpay, hpoi] at htake
      exact congrArg Host.Outcome.next htake
    refine ⟨fun h1 hslots hcount => ?_, fun h1 => ⟨s, hrun s (State.streamCredit_idle (by rwa [← hc, he])) rfl, rfl⟩⟩
    refine ⟨_, hrun _ (State.streamCredit_send hc he h1 hslots) rfl, ?_, ?_, fun d hd => ?_, rfl⟩
    · rw [State.ctx_putCtx, if_pos rfl, ctxLimit, field_patch_natLe (by omega) hcount]
    · rw [State.ctx_putCtx, if_pos rfl, ctxHead, field_patch_natLe_other (by omega) (by omega), ctxHead]
    · rw [State.ctx_putCtx, if_neg hd]

end Sys2Proof.Machine
end

section
/-! PROOFS. Responses end requests: READ_DATA, WRITE_ACK, UNREACHABLE and RESPONSE_TIMEOUT (R468, R473, R484, R610, R697). -/

namespace Sys2Proof.Machine

/-! ### What a write of bytes leaves alone -/

/-- From s to t bytes have been written to memory or to accumulators: memory, cells, registers that arm flips and the validity of the
live state may have changed, beside reports. -/
def State.StoreWork (s t : State) : Prop :=
  t = ({ s with regs := t.regs, mem := t.mem, res := t.res, cells := t.cells } : State).reported t

theorem State.StoreWork.refl (s : State) : s.StoreWork s := rfl

theorem State.StoreWork.trans {s t u : State} (h : s.StoreWork t) (h' : t.StoreWork u) : s.StoreWork u := by
  unfold State.StoreWork at *
  rw [h', h]
  rfl

theorem State.StoreWork.of_reported {s t : State} (h : t = s.reported t) : s.StoreWork t := by
  unfold State.StoreWork
  rw [h]
  rfl

theorem MemWork.store {P : Nat → Prop} {s t : State} (h : MemWork P s t) : s.StoreWork t := by
  unfold State.StoreWork
  rw [h.same]
  rfl

theorem State.StoreWork.count (s : State) (u i n : Nat) : s.StoreWork (s.count u i n) := .of_reported (s.count_reported u i n)

theorem State.StoreWork.mem (s : State) (m : MemState) : s.StoreWork { s with mem := m } := rfl

theorem State.StoreWork.res (s : State) (x : ResState) : s.StoreWork { s with res := x } := rfl

theorem State.StoreWork.regs (s : State) (r : RegFile) : s.StoreWork { s with regs := r } := rfl

theorem State.StoreWork.cells (s : State) (u : Nat) (f : CellState → CellState) : s.StoreWork (s.modCell u f) := rfl

theorem State.StoreWork.foldl {β : Type} {f : State → β → State} (hf : ∀ t x, State.StoreWork t (f t x)) (l : List β) (s : State) :
    s.StoreWork (l.foldl f s) :=
  List.foldlRecOn l f (motive := s.StoreWork) (.refl s) fun t ht x _ => ht.trans (hf t x)

theorem State.StoreWork.foldl2 {α β : Type} {f : α × State → β → α × State} (hf : ∀ p x, State.StoreWork p.2 (f p x).2)
    (l : List β) (a : α) (s : State) : s.StoreWork (l.foldl f (a, s)).2 :=
  List.foldlRecOn l f (motive := fun p => s.StoreWork p.2) (.refl s) fun p hp x _ => hp.trans (hf p x)

theorem State.StoreWork.ite {s a b : State} {c : Prop} [Decidable c] (ha : s.StoreWork a) (hb : s.StoreWork b) :
    s.StoreWork (if c then a else b) := by
  split
  · exact ha
  · exact hb

theorem State.touch_store (s : State) (a n : Nat) : s.StoreWork (s.touch a n) := by
  unfold State.touch State.unseal
  refine .ite ?_ (.refl s)
  refine (MemWork.of_exceptBytes s.readLists_exceptBytes).store.trans (.ite ?_ (.refl _))
  exact (State.StoreWork.res _ _).trans (State.writeSeal_work _).store

theorem State.writeUnit_store (s : State) (base off : Nat) (bs : List Byte) (poison : Bool) :
    s.StoreWork (s.writeUnit base off bs poison).2 := by
  unfold State.writeUnit
  extract_lets u
  have hu : s.StoreWork u := (s.touch_store _ _).trans (.ite (.mem _ _) (.refl _))
  split
  next h =>
    have hl : bs.length ≤ unitSize base := by simp at h; omega
    exact hu.trans (State.putUnit_work (P := anywhere) u poison hl fun _ _ => trivial).store
  next =>
    have hc := (MemWork.of_exceptBytes (u.checkUnit_exceptBytes base 1 true)).store
    split
    next f v hv =>
      rw [hv] at hc
      extract_lets bad w x
      have hw : s.StoreWork w := (hu.trans hc).trans (.mem _ _)
      have hx : s.StoreWork x := .ite (hw.trans (.trans (.mem _ _) (.count _ _ _ _))) (hw.trans (.mem _ _))
      exact hx.trans (State.applyFlips_work (P := anywhere) x base fun _ _ => trivial).store

theorem State.memWriteP_store (s : State) (a : Nat) (bs : List Byte) (ps : List Bool) : s.StoreWork (s.memWriteP a bs ps).2 := by
  unfold State.memWriteP
  refine .foldl2 (fun p u => ?_) _ _ s
  dsimp only
  exact State.writeUnit_store ..

theorem State.fire_store (s : State) (reg arm : Nat) : s.StoreWork (s.fire reg arm) := by
  unfold State.fire
  exact .regs _ _

theorem State.fireAcc_store (s : State) (u r j : Nat) : s.StoreWork (s.fireAcc u r j) := by
  refine .foldl (fun t d => ?_) _ s
  dsimp only
  split
  · exact (t.fire_store _ _).trans (.cells _ _ _)
  · exact .refl t

theorem State.writeWord_store (s : State) (u w r j : Nat) (x : Int) (tag : Tag) (poison : Bool) :
    s.StoreWork (s.writeWord u w r j x tag poison) := by
  unfold State.writeWord
  extract_lets old was addr die x' a b c
  have ha : s.StoreWork a := .ite (.count _ _ _ _) (.refl s)
  have hb : s.StoreWork b := ha.trans (.cells _ _ _)
  have hc : s.StoreWork c :=
    .ite (hb.trans (.count _ _ _ _)) (.ite (hb.trans (.trans (.mem _ _) (.count _ _ _ _))) hb)
  exact hc.trans (State.fireAcc_store ..)

theorem State.accWriteHalf_store (s : State) (u r h : Nat) (recs : List (Nat × Partial × Bool)) :
    s.StoreWork (s.accWriteHalf u r h recs) := by
  unfold State.accWriteHalf
  extract_lets old whole win w
  split
  next lost t ht =>
    suffices hst : s.StoreWork t from hst.trans (.cells _ _ _)
    rw [show t = (lost, t).2 from rfl, ← ht]
    refine .foldl2 (fun p x => ?_) _ _ s
    dsimp only
    split
    · exact State.writeWord_store ..
    split
    · exact State.writeWord_store ..
    · exact (State.writeWord_store ..).trans (.count _ _ _ _)

theorem State.accWrite_store (s : State) (a : Nat) (bs : List Byte) (poison : Nat → Bool) : s.StoreWork (s.accWrite a bs poison).2 := by
  unfold State.accWrite
  extract_lets last start cnt parts recs named winClamps halves t
  exact .foldl (fun _ _ => State.accWriteHalf_store ..) _ s

theorem State.writeLocal_store (s : State) (a : Nat) (bs : List Byte) (ps : List Bool) :
    s.StoreWork (s.writeLocal a bs ps).2.2 := by
  unfold State.writeLocal
  split
  · split
    next n t ht =>
      have h := s.accWrite_store a bs (fun r => ((ps.drop (r - a)).take 16).any id)
      rwa [ht] at h
  · have h := s.memWriteP_store a bs ps
    split
    next bad t ht => rwa [ht] at h

/-! ### Slots as a list -/

theorem mem_mdel {α : Type} {k : Nat} {kv : Nat × α} : ∀ {m : List (Nat × α)}, kv ∈ mdel k m ↔ kv ∈ m ∧ kv.1 ≠ k
  | [] => by simp [mdel]
  | (j, v) :: m => by
    unfold mdel
    split
    · grind [mem_mdel (kv := kv) (k := k) (m := m)]
    · grind [mem_mdel (kv := kv) (k := k) (m := m)]

theorem mem_mins {α : Type} {k : Nat} {v : α} {kv : Nat × α} : ∀ {m : List (Nat × α)}, kv ∈ mins k v m → kv = (k, v) ∨ kv ∈ m
  | [], h => .inl (List.mem_singleton.mp h)
  | (j, w) :: m, h => by
    unfold mins at h
    split at h
    · exact (List.mem_cons.mp h)
    split at h
    · exact (List.mem_cons.mp h).imp_right (List.mem_cons_of_mem _)
    · obtain rfl | h := List.mem_cons.mp h
      · exact .inr List.mem_cons_self
      · exact (mem_mins h).imp_right (List.mem_cons_of_mem _)

theorem mem_mput {α : Type} [DecidableEq α] {d v : α} {k : Nat} {kv : Nat × α} {m : List (Nat × α)} (h : kv ∈ mput d m k v) :
    kv = (k, v) ∨ kv ∈ m := by
  unfold mput at h
  split at h
  · exact .inr (mem_mdel.mp h).1
  · exact mem_mins h

theorem mem_of_mget {α : Type} {k : Nat} {v : α} : ∀ {m : List (Nat × Option α)}, mget none m k = some v → (k, some v) ∈ m
  | [], h => absurd h (by simp [mget])
  | (j, w) :: m, h => by
    unfold mget at h
    split at h
    next hj => exact hj ▸ h ▸ List.mem_cons_self
    · exact List.mem_cons_of_mem _ (mem_of_mget h)

/-! ### Work in one slot, with messages -/

/-- How the contents of a slot may fare: its descriptor is the same, and it stands as it did or has completed. -/
def Slot.Moved (stamp : Nat) (sl sl' : Slot) : Prop :=
  sl.Same sl' ∧ (sl'.phase = sl.phase ∧ sl'.record = sl.record ∨
    sl'.phase = .done ∧ ∃ st node value, sl'.record = completionRecord sl.desc st node value stamp)

theorem Slot.Moved.refl (stamp : Nat) (sl : Slot) : sl.Moved stamp sl := ⟨⟨rfl, rfl, rfl, rfl⟩, .inl ⟨rfl, rfl⟩⟩

theorem Slot.Moved.trans {stamp : Nat} {a b c : Slot} (h : a.Moved stamp b) (h' : b.Moved stamp c) : a.Moved stamp c := by
  refine ⟨h.1.trans h'.1, ?_⟩
  obtain ⟨hp, hr⟩ | ⟨hp, st, node, value, hr⟩ := h'.2
  · rw [hp, hr]
    exact h.2
  · exact .inr ⟨hp, st, node, value, by rw [hr, h.1.1]⟩

theorem Slot.completed_moved (sl : Slot) (st : Status) (node value stamp order : Nat) (quiet : Bool) :
    sl.Moved stamp (sl.completed st node value stamp order quiet) := ⟨⟨rfl, rfl, rfl, rfl⟩, .inr ⟨rfl, st, node, value, rfl⟩⟩

/-- t comes from s by work in slot k that may write bytes and send messages. -/
structure State.SlotWork (k : Nat) (s t : State) : Prop where
  regs : s.regs.agree t.regs
  frame : t = ({ s with
    regs := t.regs, tree := t.tree, mem := t.mem, res := t.res, cells := t.cells, fab := t.fab,
    host := { s.host with slots := t.host.slots, completions := t.host.completions },
    tf := { s.tf with nodePlan := t.tf.nodePlan, overrun := t.tf.overrun, unreported := t.tf.unreported, planned := t.tf.planned } }
    : State).reported t
  others : ∀ j, j ≠ k → t.slot j = s.slot j
  listed : ∀ kv ∈ t.host.slots, kv.1 = k ∨ kv ∈ s.host.slots
  own : ∀ sl, s.slot k = some sl → ∃ sl', t.slot k = some sl' ∧ sl.Moved s.stamp sl'

section
variable {k : Nat} {s t u : State} (h : s.SlotWork k t)
include h

theorem State.SlotWork.run : t.tf.run = s.tf.run := (congrArg (·.tf.run) h.frame :)

theorem State.SlotWork.stamp : t.stamp = s.stamp := by
  rw [State.stamp, show t.time = s.time from (congrArg State.time h.frame :), State.stamp]

theorem State.SlotWork.trans (h' : t.SlotWork k u) : s.SlotWork k u := by
  refine ⟨RegFile.agree_trans h.regs h'.regs, by rw [h'.frame, h.frame]; rfl, fun j hj => (h'.others j hj).trans (h.others j hj),
    fun kv hkv => (h'.listed kv hkv).elim .inl (h.listed kv), fun sl hsl => ?_⟩
  obtain ⟨sl', hsl', hm⟩ := h.own sl hsl
  obtain ⟨sl'', hsl'', hm'⟩ := h'.own sl' hsl'
  exact ⟨sl'', hsl'', hm.trans (h.stamp ▸ hm')⟩

theorem State.SlotWork.moves {sl : Slot} (hsl : s.slot k = some sl) : Moves k s t := by
  obtain ⟨sl', hsl', ⟨hd, hr, hi, hq⟩, hfare⟩ := h.own sl hsl
  have hf := h.frame
  refine ⟨h.regs, ⟨(congrArg State.pending hf :), (congrArg State.time hf :), (congrArg State.stk hf :), (congrArg State.cores hf :),
      (congrArg State.pwr hf :), (congrArg State.mgmt hf :), ?_⟩,
    ⟨(congrArg (·.host.sq) hf :), (congrArg (·.host.cq) hf :), (congrArg (·.host.msix) hf :), (congrArg (·.host.lastServed) hf :)⟩,
    h.others, .inr ⟨sl, sl', hsl, hsl', hd, hr, hi, hq, hfare.imp (·.1) id⟩⟩
  rw [show t.rst = s.rst from (congrArg State.rst hf :)]

end

/-- Such work that writes no byte. -/
structure State.MoverWork (k : Nat) (s t : State) : Prop extends s.SlotWork k t where
  mem : t.mem = s.mem

theorem State.MoverWork.refl (k : Nat) (s : State) : s.MoverWork k s :=
  ⟨⟨RegFile.agree_refl _, rfl, fun _ _ => rfl, fun _ h => .inr h, fun sl h => ⟨sl, h, .refl _ _⟩⟩, rfl⟩

theorem State.MoverWork.trans {k : Nat} {s t u : State} (h : s.MoverWork k t) (h' : t.MoverWork k u) : s.MoverWork k u :=
  ⟨h.toSlotWork.trans h'.toSlotWork, h'.mem.trans h.mem⟩

theorem State.MoverWork.ite {k : Nat} {s a b : State} {c : Prop} [Decidable c] (ha : s.MoverWork k a) (hb : s.MoverWork k b) :
    s.MoverWork k (if c then a else b) := by
  split
  · exact ha
  · exact hb

/-- What changes no slot. -/
theorem State.slotWork_of_slots {k : Nat} {s t : State} (h : t.host.slots = s.host.slots) : (∀ j, j ≠ k → t.slot j = s.slot j) ∧
    (∀ kv ∈ t.host.slots, kv.1 = k ∨ kv ∈ s.host.slots) ∧
    ∀ sl, s.slot k = some sl → ∃ sl', t.slot k = some sl' ∧ sl.Moved s.stamp sl' := by
  have hslot : ∀ j, t.slot j = s.slot j := fun j => by rw [State.slot, h, State.slot]
  exact ⟨fun j _ => hslot j, fun kv hkv => .inr (h ▸ hkv), fun sl hsl => ⟨sl, (hslot k).trans hsl, .refl _ _⟩⟩

theorem State.FabWork.mover {s t : State} (h : s.FabWork t) (k : Nat) : s.MoverWork k t := by
  obtain ⟨hothers, hlisted, hown⟩ := State.slotWork_of_slots (k := k) (congrArg HostState.slots h.host)
  refine ⟨⟨h.regs ▸ RegFile.agree_refl _, ?_, hothers, hlisted, hown⟩, h.mem⟩
  unfold State.FabWork at h
  rw [h]
  rfl

theorem State.StoreWork.slotWork {s t : State} (h : s.StoreWork t) (hr : s.regs.agree t.regs) (k : Nat) : s.SlotWork k t := by
  obtain ⟨hothers, hlisted, hown⟩ := State.slotWork_of_slots (k := k) (show t.host.slots = s.host.slots from (congrArg (·.host.slots) h :))
  refine ⟨hr, ?_, hothers, hlisted, hown⟩
  unfold State.StoreWork at h
  rw [h]
  rfl

theorem State.EndWork.slotFrame {s t : State} (h : s.EndWork t) : t = ({ s with
    regs := t.regs, tree := t.tree, mem := t.mem, res := t.res, cells := t.cells, fab := t.fab,
    host := { s.host with slots := t.host.slots, completions := t.host.completions },
    tf := { s.tf with nodePlan := t.tf.nodePlan, overrun := t.tf.overrun, unreported := t.tf.unreported, planned := t.tf.planned } }
    : State).reported t := by
  rw [h.frame]
  rfl

theorem State.TellWork.mover {s t : State} (h : s.TellWork t) (k : Nat) : s.MoverWork k t := by
  obtain ⟨hothers, hlisted, hown⟩ := State.slotWork_of_slots (k := k) h.slots
  exact ⟨⟨h.regs ▸ RegFile.agree_refl _, h.slotFrame, hothers, hlisted, hown⟩, h.mem⟩

theorem State.MoverWork.of_reported {s t : State} (h : t = s.reported t) (hslots : t.host.slots = s.host.slots) (k : Nat) :
    s.MoverWork k t := by
  obtain ⟨hothers, hlisted, hown⟩ := State.slotWork_of_slots (k := k) hslots
  refine ⟨⟨?_, ?_, hothers, hlisted, hown⟩, (congrArg State.mem h :)⟩
  · rw [show t.regs = s.regs from (congrArg State.regs h :)]
    exact RegFile.agree_refl _
  · rw [h]
    rfl

/-- What changes slot k alone, as slots may fare. -/
theorem State.EndWork.mover {s t : State} {k : Nat} {v : Option Slot} (h : s.EndWork t) (hslots : t.host.slots = mput none s.host.slots k v)
    (hv : ∀ sl, s.slot k = some sl → ∃ sl', v = some sl' ∧ sl.Moved s.stamp sl') : s.MoverWork k t := by
  refine ⟨⟨h.regs ▸ RegFile.agree_refl _, h.slotFrame, fun j hj => ?_, fun kv hkv => ?_, fun sl hsl => ?_⟩, h.mem⟩
  · rw [State.slot, hslots, mget_mput_other _ _ _ hj, State.slot]
  · rw [hslots] at hkv
    exact (mem_mput hkv).imp_left (congrArg Prod.fst)
  · obtain ⟨sl', rfl, hm⟩ := hv sl hsl
    exact ⟨sl', by rw [State.slot, hslots, mget_mput_self], hm⟩

theorem State.modSlot_mover (s : State) (k : Nat) {f : Slot → Slot} (hf : ∀ sl : Slot, sl.Moved s.stamp (f sl)) :
    s.MoverWork k (s.modSlot k f) := by
  refine (State.EndWork.modSlot s k f).mover rfl fun sl hsl => ⟨f sl, ?_, hf sl⟩
  rw [State.slot] at hsl
  rw [hsl]
  rfl

theorem State.complete_mover (s : State) (k : Nat) (st : Status) (node value : Nat) : s.MoverWork k (s.complete k st node value) := by
  cases hs : s.slot k with
  | none =>
    rw [State.complete, hs]
    exact .refl k s
  | some sl =>
    have h := State.complete_spec st node value hs
    obtain ⟨order, quiet, hslots⟩ := h.slots
    refine h.work.mover hslots fun x hx => ⟨_, rfl, ?_⟩
    obtain rfl : sl = x := Option.some.inj (hs.symm.trans hx)
    exact sl.completed_moved ..

/-! ### What a mover does when it goes on -/

theorem State.childrenEnd_tells (s : State) (top : Nat) (r : Report) : s.TellWork (s.childrenEnd top r) :=
  .foldl (fun t _ => .tree t _) _ s

theorem State.finish_mover (s : State) (k cls : Nat) (st : Status) (value : Nat) : s.MoverWork k (s.finish k cls st value) := by
  unfold State.finish
  split
  · exact .refl k s
  · exact s.complete_mover ..

theorem State.finishReport_mover (s : State) (k cls : Nat) (r : Report) (value : Status → Nat) :
    s.MoverWork k (s.finishReport k cls r value) := by
  unfold State.finishReport
  split
  · exact .refl k s
  · exact .ite (s.finish_mover ..) (((s.childrenEnd_tells _ _).mover k).trans (State.complete_mover ..))

theorem State.moverDone_mover (s : State) (k cls : Nat) : s.MoverWork k (s.moverDone k cls) := by
  unfold State.moverDone
  split
  · exact .refl k s
  refine .ite (.refl k s) ?_
  split
  · exact s.finishReport_mover ..
  · exact ((s.childrenEnd_tells _ _).mover k).trans (State.complete_mover ..)

theorem State.putReq_fabWork (s : State) (tag : Nat) (r : Option Request) : s.FabWork (s.putReq tag r) := rfl

theorem Slot.note_moved (sl : Slot) (st : Status) (leaf node value stamp : Nat) : sl.Moved stamp (sl.note st leaf node value) := by
  unfold Slot.note
  dsimp only
  split
  · exact ⟨⟨rfl, rfl, rfl, rfl⟩, .inl ⟨rfl, rfl⟩⟩
  · split <;> exact ⟨⟨rfl, rfl, rfl, rfl⟩, .inl ⟨rfl, rfl⟩⟩

theorem State.notePiece_mover (s : State) (k : Nat) (st : Status) (leaf node value : Nat) :
    s.MoverWork k (s.notePiece k st leaf node value) := s.modSlot_mover k fun sl => sl.note_moved ..

theorem State.dropSlotReqs_mover (s : State) (k : Nat) : s.MoverWork k (s.dropSlotReqs k) := by
  unfold State.dropSlotReqs
  have hdrop : s.FabWork ((s.slotReqs k).foldl (fun s t => s.putReq t none) s) :=
    List.foldlRecOn _ _ (motive := s.FabWork) (.refl s) fun t ht tag _ => ht.trans (t.putReq_fabWork tag none)
  exact (hdrop.mover k).trans (State.modSlot_mover _ k fun sl => ⟨⟨rfl, rfl, rfl, rfl⟩, .inl ⟨rfl, rfl⟩⟩)

theorem State.issueRead_fabWork (s : State) (who : Asker) (r : ReadAhead) : s.FabWork (s.issueRead who r).2 := by
  have h := s.send_fabWork (s.newMsg 0x02 r.chip r.src s.newTag r.len [] [])
  unfold State.issueRead
  extract_lets tag
  split
  next ok t ht =>
    rw [ht] at h
    split
    · exact h.trans rfl
    · exact h

theorem State.issueWrite_fabWork (s : State) (who : Asker) (r : ReadAhead) (bs : List Byte) (ps : List Bool) :
    s.FabWork (s.issueWrite who r bs ps).2 := by
  have h := s.send_fabWork (s.newMsg 0x01 r.chip r.dst s.newTag bs.length bs (granulePoison ps))
  unfold State.issueWrite
  extract_lets tag
  split
  next ok t ht =>
    rw [ht] at h
    split
    · exact h.trans rfl
    · exact h

theorem State.issue_fabWork (s : State) (who : Asker) (r : ReadAhead) : s.FabWork (s.issue who r).2 := by
  unfold State.issue
  split
  · exact s.issueRead_fabWork who r
  · exact s.issueWrite_fabWork who r _ _

theorem State.readAhead_mover (k : Nat) : ∀ (fuel : Nat) (s : State), s.MoverWork k (State.readAhead fuel k s)
  | 0, s => .refl k s
  | fuel + 1, s => by
    unfold State.readAhead
    split
    · exact .refl k s
    split
    · exact .refl k s
    next sl hsl r hr =>
      have hm : s.MoverWork k (s.modSlot k (fun sl => { sl with unread := sl.unread.erase r })) :=
        s.modSlot_mover k fun sl => ⟨⟨rfl, rfl, rfl, rfl⟩, .inl ⟨rfl, rfl⟩⟩
      have hi := (State.issue_fabWork (s.modSlot k (fun sl => { sl with unread := sl.unread.erase r })) (.slot k) r).mover k
      split
      next ok t ht =>
        rw [ht] at hi
        refine ((hm.trans hi).trans ?_).trans (State.readAhead_mover k fuel _)
        exact .ite (.refl k t) (State.MoverWork.trans (.ite (t.dropSlotReqs_mover k) (.refl k t)) (State.notePiece_mover ..))

theorem State.moverOn_mover (s : State) (k cls : Nat) : s.MoverWork k (s.moverOn k cls) := by
  unfold State.moverOn
  split
  · exact (State.readAhead_mover k _ s).trans (State.moverDone_mover ..)
  · exact .refl k s

theorem State.pieceFails_mover (s : State) (k cls : Nat) (st : Status) (leaf node value : Nat) :
    s.MoverWork k (s.pieceFails k cls st leaf node value) := by
  have hn := s.notePiece_mover k st leaf node value
  have hend : ∀ t : State, t.MoverWork k ((t.dropSlotReqs k).moverDone k cls) :=
    fun t => (t.dropSlotReqs_mover k).trans (State.moverDone_mover ..)
  unfold State.pieceFails
  dsimp only
  split
  · exact hn
  split
  · exact hn.trans (hend _)
  · exact .ite (hn.trans (hend _)) (hn.trans (State.moverOn_mover ..))

theorem State.mem_queuing {s : State} {j : Nat} : j ∈ s.queuing ↔ ∃ sl, (j, some sl) ∈ s.host.slots ∧ sl.unread ≠ [] := by
  unfold State.queuing
  rw [List.mem_map]
  constructor
  · rintro ⟨⟨d, i⟩, hmem, rfl⟩
    obtain ⟨⟨i', v⟩, hv, hsome⟩ := List.mem_filterMap.mp (List.mem_mergeSort.mp hmem)
    cases v with
    | none => simp at hsome
    | some sl =>
      by_cases hun : sl.unread = []
      · simp [hun] at hsome
      · obtain ⟨rfl, rfl⟩ : sl.dispatched = d ∧ i' = i := by simpa [hun] using hsome
        exact ⟨sl, hv, hun⟩
  · rintro ⟨sl, hsl, hun⟩
    refine ⟨(sl.dispatched, j), List.mem_mergeSort.mpr (List.mem_filterMap.mpr ⟨(j, some sl), hsl, ?_⟩), rfl⟩
    exact if_neg hun

theorem State.SlotWork.queuing {k : Nat} {s t : State} (h : s.SlotWork k t) (hq : ∀ j ∈ s.queuing, j = k) : ∀ j ∈ t.queuing, j = k := by
  intro j hj
  obtain ⟨sl, hsl, hun⟩ := State.mem_queuing.mp hj
  exact (h.listed _ hsl).elim id fun hs => hq j (State.mem_queuing.mpr ⟨sl, hs, hun⟩)

theorem State.moversOn_mover {s : State} {k : Nat} (hq : ∀ j ∈ s.queuing, j = k) : s.MoverWork k s.moversOn := by
  refine List.foldlRecOn _ _ (motive := s.MoverWork k) (.refl k s) fun t ht j hj => ?_
  obtain rfl := hq j hj
  refine ht.trans ?_
  split
  · exact t.moverOn_mover ..
  · exact .refl _ t

/-! ### Requests of a slot -/

theorem State.mem_slotReqs {s : State} {k x : Nat} : x ∈ s.slotReqs k ↔ ∃ r, (x, some r) ∈ s.fab.reqs ∧ r.asker = .slot k := by
  unfold State.slotReqs
  rw [List.mem_filterMap]
  constructor
  · rintro ⟨⟨tag, v⟩, hv, hx⟩
    cases v with
    | none => simp at hx
    | some r =>
      obtain ⟨ha, rfl⟩ : r.asker = .slot k ∧ tag = x := by simpa using hx
      exact ⟨r, hv, ha⟩
  · rintro ⟨r, hr, ha⟩
    exact ⟨(x, some r), hr, by simp [ha]⟩

theorem State.slotReqs_congr {s t : State} (h : t.fab.reqs = s.fab.reqs) (k : Nat) : t.slotReqs k = s.slotReqs k := by
  rw [State.slotReqs, h, State.slotReqs]

theorem State.req_congr {s t : State} (h : t.fab.reqs = s.fab.reqs) (tag : Nat) : t.req tag = s.req tag := by
  rw [State.req, h, State.req]

theorem State.mem_slotReqs_putReq {s : State} {k x tag : Nat} : x ∈ (s.putReq tag none).slotReqs k ↔ x ∈ s.slotReqs k ∧ x ≠ tag := by
  have hreqs : (s.putReq tag none).fab.reqs = mdel tag s.fab.reqs := by
    rw [State.putReq, mput, if_pos rfl]
  simp only [State.mem_slotReqs, hreqs, mem_mdel]
  exact ⟨fun ⟨r, ⟨h, hne⟩, ha⟩ => ⟨⟨r, h, ha⟩, hne⟩, fun ⟨⟨r, h, ha⟩, hne⟩ => ⟨r, ⟨h, hne⟩, ha⟩⟩

theorem State.slotReqs_putReq_nil {s : State} {k tag : Nat} : (s.putReq tag none).slotReqs k = [] ↔ s.lastAsk k tag := by
  rw [List.eq_nil_iff_forall_not_mem]
  simp only [State.mem_slotReqs_putReq, not_and_not_right]
  rfl

theorem State.mem_slotReqs_putReqs {k x : Nat} : ∀ (l : List Nat) {s : State},
    x ∈ (l.foldl (fun s t => s.putReq t none) s).slotReqs k ↔ x ∈ s.slotReqs k ∧ x ∉ l
  | [], s => by simp
  | tag :: l, s => by
    rw [List.foldl_cons, State.mem_slotReqs_putReqs l, State.mem_slotReqs_putReq, List.mem_cons, not_or, and_assoc]

theorem State.dropSlotReqs_reqs (s : State) (k : Nat) : (s.dropSlotReqs k).slotReqs k = [] := by
  refine List.eq_nil_iff_forall_not_mem.mpr fun x hx => ?_
  have hx : x ∈ ((s.slotReqs k).foldl (fun s t => s.putReq t none) s).slotReqs k := hx
  rw [State.mem_slotReqs_putReqs] at hx
  exact hx.2 hx.1

theorem State.dropSlotReqs_req {s : State} {tag : Nat} (h : s.req tag = none) (k : Nat) : (s.dropSlotReqs k).req tag = none := by
  show ((s.slotReqs k).foldl (fun s t => s.putReq t none) s).req tag = none
  refine List.foldlRecOn _ _ (motive := fun t : State => t.req tag = none) h fun t ht x _ => ?_
  rw [State.req_putReq, ht, ite_self]

/-! ### The end of a mover's descriptor -/

theorem State.TellWork.completes {s u t : State} {k node value : Nat} {sl : Slot} {st : Status} (h : s.TellWork u)
    (hc : u.Completes k sl st node value t) : s.Completes k sl st node value t := by
  obtain ⟨order, quiet, hslots⟩ := hc.slots
  exact ⟨h.toEndWork.trans hc.work, ⟨order, quiet, by rw [hslots, h.slots, h.stamp]⟩, hc.reqs.trans h.reqs⟩

theorem State.finishReport_spec {s : State} {k : Nat} {sl : Slot} (hs : s.slot k = some sl) (cls : Nat) (r : Report)
    (value : Status → Nat) : ∃ node, s.Completes k sl (r.foldl (fun st p => st.join p.2) .ok) node
      (value (r.foldl (fun st p => st.join p.2) .ok)) (s.finishReport k cls r value) := by
  unfold State.finishReport
  rw [hs]
  dsimp only
  split
  next hr =>
    obtain rfl := List.isEmpty_iff.mp hr
    rw [State.finish_eq hs]
    exact ⟨_, State.complete_spec _ _ _ hs⟩
  next =>
    have ht := s.childrenEnd_tells (targetOf sl.desc) r
    refine ⟨_, ht.completes (State.complete_spec _ _ _ ?_)⟩
    rw [State.slot, ht.slots, ← State.slot, hs]

section
variable {s : State} {k : Nat} {sl : Slot} (hs : s.slot k = some sl) (cls : Nat)
include hs

theorem State.moverOn_eq (hun : sl.unread = []) : s.moverOn k cls = s.moverDone k cls := by
  rw [State.moverOn, hs]
  dsimp only
  rw [hun]
  rfl

theorem State.moverDone_waits (h : s.slotReqs k ≠ []) : s.moverDone k cls = s := by
  rw [State.moverDone, hs]
  exact if_pos (by simp [h])

theorem State.moverDone_none (hreqs : s.slotReqs k = []) (hun : sl.unread = []) (hr : sl.report = none) :
    s.moverDone k cls = s.finishReport k cls sl.pieces (fun _ => 0) := by
  rw [State.moverDone, hs]
  dsimp only
  rw [if_neg (by simp [hreqs, hun]), hr]

theorem State.moverDone_report (hreqs : s.slotReqs k = []) (hun : sl.unread = []) {st : Status} {node v : Nat}
    (hr : sl.report = some (st, node, v)) : ∃ value, (st ≠ .poison → value = v) ∧ s.Completes k sl st node value (s.moverDone k cls) := by
  rw [State.moverDone, hs]
  dsimp only
  rw [if_neg (by simp [hreqs, hun]), hr]
  have ht := s.childrenEnd_tells (targetOf sl.desc) sl.pieces
  refine ⟨_, fun hst => if_neg hst, ht.completes (State.complete_spec _ _ _ ?_)⟩
  rw [State.slot, ht.slots, ← State.slot, hs]

/-- A descriptor that waits for nothing completes, or stays while requests are out. -/
theorem State.moverDone_cases (hun : sl.unread = []) :
    s.moverDone k cls = s ∨ ∃ st node value, s.Completes k sl st node value (s.moverDone k cls) := by
  by_cases hreqs : s.slotReqs k = []
  · cases hr : sl.report with
    | none =>
      rw [State.moverDone_none hs cls hreqs hun hr]
      exact .inr ⟨_, (State.finishReport_spec hs cls sl.pieces _).imp fun _ h => ⟨_, h⟩⟩
    | some x =>
      obtain ⟨value, -, h⟩ := State.moverDone_report hs cls hreqs hun hr
      exact .inr ⟨_, _, _, h⟩
  · exact .inl (State.moverDone_waits hs cls hreqs)

end

theorem Report.add_ok {r : Report} (h : ∀ p ∈ r, p.2 = Status.ok) (leaf : Nat) : ∀ p ∈ r.add .ok leaf, p.2 = Status.ok := by
  unfold Report.add
  split
  · exact List.forall_mem_cons.mpr ⟨rfl, h⟩
  next p hp =>
    rw [h p (List.mem_of_find?_eq_some hp), if_neg (by decide)]
    exact h

theorem Slot.pieces_ok {sl : Slot} (h : sl.fails = []) : ∀ p ∈ sl.pieces, p.2 = Status.ok :=
  List.foldlRecOn sl.leaves _ (motive := fun r : Report => ∀ p ∈ r, p.2 = Status.ok)
    (by rw [h]; exact fun _ hp => absurd hp List.not_mem_nil) fun _ hr leaf _ => Report.add_ok hr leaf

theorem Report.join_ok {r : Report} (h : ∀ p ∈ r, p.2 = Status.ok) : r.foldl (fun st p => st.join p.2) Status.ok = .ok :=
  List.foldlRecOn r _ (motive := (· = Status.ok)) rfl fun st hst p hp => by rw [hst, h p hp]; rfl

/-- The last request of a descriptor whose pieces have all gone well (R40, R41). -/
theorem State.moverDone_ok {s : State} {k : Nat} {sl : Slot} (hs : s.slot k = some sl) (cls : Nat) (hreqs : s.slotReqs k = [])
    (hun : sl.unread = []) (hr : sl.report = none) (hf : sl.fails = []) : ∃ node, s.Completes k sl .ok node 0 (s.moverDone k cls) := by
  rw [State.moverDone_none hs cls hreqs hun hr]
  have h := State.finishReport_spec hs cls sl.pieces (fun _ => 0)
  rwa [Report.join_ok (Slot.pieces_ok hf)] at h

/-! ### With nothing queued -/

theorem State.unread_nil {s : State} {k : Nat} {sl : Slot} (hq : s.queuing = []) (hs : s.slot k = some sl) : sl.unread = [] := by
  by_contra h
  have hk := State.mem_queuing.mpr ⟨sl, mem_of_mget hs, h⟩
  rw [hq] at hk
  exact List.not_mem_nil hk

theorem State.queuing_congr {s t : State} (h : t.host.slots = s.host.slots) : t.queuing = s.queuing := by
  rw [State.queuing, h, State.queuing]

theorem State.queuing_put {s t : State} {k : Nat} {v : Option Slot} (hq : s.queuing = [])
    (h : t.host.slots = mput none s.host.slots k v) (hv : ∀ sl, v = some sl → sl.unread = []) : t.queuing = [] := by
  refine List.eq_nil_iff_forall_not_mem.mpr fun j hj => ?_
  obtain ⟨sl, hsl, hun⟩ := State.mem_queuing.mp hj
  rw [h] at hsl
  obtain he | hmem := mem_mput hsl
  · exact hun (hv sl (congrArg Prod.snd he).symm)
  · have := State.mem_queuing.mpr ⟨sl, hmem, hun⟩
    rw [hq] at this
    exact List.not_mem_nil this

theorem State.moversOn_nil {s : State} (h : s.queuing = []) : s.moversOn = s := by
  rw [State.moversOn, h]
  rfl

theorem State.Completes.queuing {s t : State} {k node value : Nat} {sl : Slot} {st : Status} (h : s.Completes k sl st node value t)
    (hs : s.slot k = some sl) (hq : s.queuing = []) : t.queuing = [] := by
  obtain ⟨order, quiet, hslots⟩ := h.slots
  refine State.queuing_put hq hslots fun x hx => ?_
  obtain rfl := Option.some.inj hx
  exact (State.unread_nil hq hs : sl.unread = [])

theorem State.moverDone_still {s : State} {k : Nat} {sl : Slot} (hs : s.slot k = some sl) (hq : s.queuing = []) (cls : Nat) :
    (s.moverDone k cls).queuing = [] ∧ (s.moverDone k cls).fab.reqs = s.fab.reqs := by
  obtain h | ⟨st, node, value, h⟩ := State.moverDone_cases hs cls (State.unread_nil hq hs)
  · rw [h]
    exact ⟨hq, rfl⟩
  · exact ⟨h.queuing hs hq, h.reqs⟩

theorem State.moverOn_still {s : State} {k : Nat} {sl : Slot} (hs : s.slot k = some sl) (hq : s.queuing = []) (cls : Nat) :
    (s.moverOn k cls).queuing = [] ∧ (s.moverOn k cls).fab.reqs = s.fab.reqs := by
  rw [State.moverOn_eq hs cls (State.unread_nil hq hs)]
  exact State.moverDone_still hs hq cls

/-! ### A piece that fails -/

theorem Slot.note_first {sl : Slot} (h : sl.report = none) (st : Status) (leaf node value : Nat) :
    (sl.note st leaf node value).report = some (st, node, value) := by
  unfold Slot.note
  dsimp only
  rw [h]

theorem Slot.note_unread (sl : Slot) (st : Status) (leaf node value : Nat) : (sl.note st leaf node value).unread = sl.unread := by
  unfold Slot.note
  dsimp only
  split
  · rfl
  · split <;> rfl

theorem Slot.note_desc (sl : Slot) (st : Status) (leaf node value : Nat) : (sl.note st leaf node value).desc = sl.desc :=
  (sl.note_moved st leaf node value 0).1.1

theorem State.dropSlotReqs_queuing {s : State} (hq : s.queuing = []) (k : Nat) : (s.dropSlotReqs k).queuing = [] := by
  have hslots : ((s.slotReqs k).foldl (fun s t => s.putReq t none) s).host.slots = s.host.slots :=
    List.foldlRecOn _ _ (motive := fun t : State => t.host.slots = s.host.slots) rfl fun t ht x _ => ht
  unfold State.dropSlotReqs
  refine State.queuing_put ((State.queuing_congr hslots).trans hq) rfl fun x hx => ?_
  obtain ⟨y, -, rfl⟩ := Option.map_eq_some_iff.mp hx
  rfl

section
variable {s : State} {k : Nat} {sl : Slot} (hs : s.slot k = some sl)
include hs

theorem State.notePiece_slot (st : Status) (leaf node value : Nat) :
    (s.notePiece k st leaf node value).slot k = some (sl.note st leaf node value) := by
  rw [State.notePiece, State.slot_modSlot, if_pos rfl, hs]
  rfl

theorem State.notePiece_queuing (hq : s.queuing = []) (st : Status) (leaf node value : Nat) :
    (s.notePiece k st leaf node value).queuing = [] := by
  refine State.queuing_put (v := (s.slot k).map fun sl => sl.note st leaf node value) hq rfl fun x hx => ?_
  rw [hs] at hx
  obtain rfl := Option.some.inj hx
  rw [Slot.note_unread, State.unread_nil hq hs]

/-- What `State.pieceFails` makes of a slot that holds a descriptor: it ends at once, or goes on (R38, R41, R473). -/
theorem State.pieceFails_cases (cls : Nat) (st : Status) (leaf node value : Nat) {n : State}
    (hn : s.notePiece k st leaf node value = n) :
    ((opcodeOf sl.desc = 0x71 ∨ ∃ d q c m, s.placeOf (targetOf sl.desc) = some (.mover d q c m)) ∧
      s.pieceFails k cls st leaf node value = (n.dropSlotReqs k).moverDone k cls) ∨
    (¬ (opcodeOf sl.desc = 0x71 ∨ ∃ d q c m, s.placeOf (targetOf sl.desc) = some (.mover d q c m)) ∧
      s.pieceFails k cls st leaf node value = n.moverOn k cls) := by
  have hplace : n.placeOf (targetOf (sl.note st leaf node value).desc) = s.placeOf (targetOf sl.desc) := by
    rw [← hn, Slot.note_desc]
    rfl
  unfold State.pieceFails
  dsimp only
  rw [hn, show n.slot k = some (sl.note st leaf node value) from hn ▸ State.notePiece_slot hs ..]
  dsimp only
  rw [hplace, Slot.note_desc]
  split
  next d q c m hp => exact .inl ⟨.inr ⟨d, q, c, m, hp⟩, rfl⟩
  next hp =>
    split
    next h71 => exact .inl ⟨.inl h71, rfl⟩
    next h71 => exact .inr ⟨not_or.mpr ⟨h71, fun ⟨d, q, c, m, h⟩ => hp d q c m h⟩, rfl⟩

theorem State.pieceFails_still (hq : s.queuing = []) (cls : Nat) (st : Status) (leaf node value : Nat) {tag : Nat}
    (hr : s.req tag = none) : (s.pieceFails k cls st leaf node value).queuing = [] ∧
      (s.pieceFails k cls st leaf node value).req tag = none := by
  obtain ⟨n, hn⟩ : ∃ n, s.notePiece k st leaf node value = n := ⟨_, rfl⟩
  have hnq : n.queuing = [] := hn ▸ State.notePiece_queuing hs hq ..
  have hnr : n.req tag = none := hn ▸ hr
  have hns : n.slot k = some (sl.note st leaf node value) := hn ▸ State.notePiece_slot hs ..
  obtain ⟨-, h⟩ | ⟨-, h⟩ := State.pieceFails_cases hs cls st leaf node value hn
  · have hd : (n.dropSlotReqs k).slot k = some { sl.note st leaf node value with unread := [] } := by
      rw [State.dropSlotReqs_slot, if_pos rfl, hns]
      rfl
    obtain ⟨h1, h2⟩ := State.moverDone_still hd (State.dropSlotReqs_queuing hnq k) cls
    rw [h]
    exact ⟨h1, (State.req_congr h2 tag).trans (State.dropSlotReqs_req hnr k)⟩
  · obtain ⟨h1, h2⟩ := State.moverOn_still hns hnq cls
    rw [h]
    exact ⟨h1, (State.req_congr h2 tag).trans hnr⟩

end

/-- In t slot k, which held sl in s, waits for nothing and reports TIMEOUT with a node and a chip. -/
structure State.TimedOut (s : State) (k : Nat) (sl : Slot) (node chip : Nat) (t : State) : Prop where
  stamp : t.stamp = s.stamp
  reqs : t.slotReqs k = []
  slot : ∃ x, t.slot k = some x ∧ x.desc = sl.desc ∧ x.unread = [] ∧ x.report = some (.timeout, node, chip)

/-- Such a slot completes, and completing again changes no record. -/
theorem State.TimedOut.moverDone {s t : State} {k node chip : Nat} {sl : Slot} (h : s.TimedOut k sl node chip t) (cls : Nat) :
    s.TimedOut k sl node chip (t.moverDone k cls) ∧ s.ended (t.moverDone k cls) k sl .timeout node chip := by
  obtain ⟨x, hx, hdesc, hun, hrep⟩ := h.slot
  obtain ⟨value, hv, hc⟩ := State.moverDone_report hx cls h.reqs hun hrep
  obtain rfl := hv (by decide)
  obtain ⟨order, quiet, hself⟩ := hc.self
  refine ⟨⟨hc.work.stamp.trans h.stamp, (State.slotReqs_congr hc.reqs k).trans h.reqs, _, hself, hdesc, hun, hrep⟩,
    _, hself, rfl, hdesc, ?_⟩
  rw [← hdesc, ← h.stamp]
  rfl

theorem State.TimedOut.moverOn {s t : State} {k node chip : Nat} {sl : Slot} (h : s.TimedOut k sl node chip t) (cls : Nat) :
    s.TimedOut k sl node chip (t.moverOn k cls) ∧ s.ended (t.moverOn k cls) k sl .timeout node chip := by
  obtain ⟨x, hx, -, hun, -⟩ := h.slot
  rw [State.moverOn_eq hx cls hun]
  exact h.moverDone cls

theorem State.TimedOut.moversOn {s t : State} {k node chip : Nat} {sl : Slot} (h : s.TimedOut k sl node chip t)
    (he : s.ended t k sl .timeout node chip) (hq : ∀ j ∈ t.queuing, j = k) :
    s.TimedOut k sl node chip t.moversOn ∧ s.ended t.moversOn k sl .timeout node chip := by
  refine List.foldlRecOn _ _ (motive := fun u => s.TimedOut k sl node chip u ∧ s.ended u k sl .timeout node chip) ⟨h, he⟩
    fun u hu j hj => ?_
  obtain rfl := hq j hj
  split
  · exact hu.1.moverOn _
  · exact hu

/-- A piece of a descriptor with no report fails with TIMEOUT: the descriptor ends at once, or keeps the report (log 21). -/
theorem State.pieceFails_timeout {s : State} {k : Nat} {sl : Slot} (hs : s.slot k = some sl) (hr : sl.report = none)
    (cls leaf node chip : Nat) {n : State} (hn : s.notePiece k .timeout leaf node chip = n) {place : Prop}
    (hplace : place ↔ opcodeOf sl.desc = 0x71 ∨ ∃ d q c m, s.placeOf (targetOf sl.desc) = some (.mover d q c m)) :
    ((place ∨ s.slotReqs k = [] ∧ sl.unread = []) → s.TimedOut k sl node chip (s.pieceFails k cls .timeout leaf node chip) ∧
      s.ended (s.pieceFails k cls .timeout leaf node chip) k sl .timeout node chip) ∧
    (¬ place → s.slotReqs k ≠ [] → sl.unread = [] → s.pieceFails k cls .timeout leaf node chip = n) := by
  have hns : n.slot k = some (sl.note .timeout leaf node chip) := hn ▸ State.notePiece_slot hs ..
  have hnreqs : n.slotReqs k = s.slotReqs k := hn ▸ rfl
  have hnstamp : n.stamp = s.stamp := hn ▸ rfl
  have hrep := Slot.note_first hr .timeout leaf node chip
  have hdesc := sl.note_desc .timeout leaf node chip
  have hun := sl.note_unread .timeout leaf node chip
  obtain ⟨hp, h⟩ | ⟨hp, h⟩ := State.pieceFails_cases hs cls .timeout leaf node chip hn
  · refine ⟨fun _ => ?_, fun hno => absurd (hplace.mpr hp) hno⟩
    rw [h]
    refine State.TimedOut.moverDone ⟨?_, n.dropSlotReqs_reqs k,
      { sl.note .timeout leaf node chip with unread := [] }, ?_, hdesc, rfl, hrep⟩ cls
    · rw [(n.dropSlotReqs_ends k).stamp, hnstamp]
    · rw [State.dropSlotReqs_slot, if_pos rfl, hns]
      rfl
  · rw [h]
    refine ⟨fun hall => ?_, fun _ hwait hnone => ?_⟩
    · obtain ⟨hreqs, hnone⟩ := hall.resolve_left (mt hplace.mp hp)
      exact State.TimedOut.moverOn ⟨hnstamp, hnreqs.trans hreqs, _, hns, hdesc, hun.trans hnone, hrep⟩ cls
    · rw [State.moverOn_eq hns cls (hun.trans hnone), State.moverDone_waits hns cls (hnreqs ▸ hwait)]

/-! ### The messages and the timer -/

section
variable {s t : State} {tag k : Nat} {r : Request} {sl : Slot} (ha : s.asks tag k r) (hs : s.slot k = some sl)
include ha hs

/-- A request that ends without its response (R41, R473, R484). -/
theorem State.requestFails_spec {chip : Nat} (hr : sl.report = none) (hq : ∀ j ∈ s.queuing, j = k)
    (ht : s.requestFails tag chip = t) : s.MoverWork k t ∧
      (s.failsAtOnce k tag sl → t.slotReqs k = [] ∧ s.ended t k sl .timeout r.node chip) ∧
      (¬ s.failsAtOnce k tag sl → s.queuing = [] →
        t.req tag = none ∧ t.slot k = some (sl.note .timeout r.mover r.node chip)) := by
  obtain ⟨hreq, hask⟩ := ha
  obtain ⟨p, hp⟩ : ∃ p, s.putReq tag none = p := ⟨_, rfl⟩
  have hsp : s.MoverWork k p := hp ▸ (s.putReq_fabWork tag none).mover k
  have hps : p.slot k = some sl := hp ▸ hs
  obtain ⟨f, hf⟩ : ∃ f, p.pieceFails k (p.slotClass k) .timeout r.mover r.node chip = f := ⟨_, rfl⟩
  have hrun : f.moversOn = t := by
    rw [← ht, State.requestFails, hreq]
    dsimp only
    rw [hask, hp]
    dsimp only
    rw [hf]
  have hsf : s.MoverWork k f := hsp.trans (hf ▸ p.pieceFails_mover ..)
  have hfq := hsf.queuing hq
  obtain ⟨n, hn⟩ : ∃ n, p.notePiece k .timeout r.mover r.node chip = n := ⟨_, rfl⟩
  have hreqs : p.slotReqs k = [] ↔ s.lastAsk k tag := hp ▸ State.slotReqs_putReq_nil
  have hplace : (opcodeOf sl.desc = 0x71 ∨ ∃ d q c m, s.placeOf (targetOf sl.desc) = some (.mover d q c m)) ↔
      opcodeOf sl.desc = 0x71 ∨ ∃ d q c m, p.placeOf (targetOf sl.desc) = some (.mover d q c m) := hp ▸ Iff.rfl
  obtain ⟨hends, hlasts⟩ := State.pieceFails_timeout hps hr (p.slotClass k) r.mover r.node chip hn hplace
  rw [hf] at hends hlasts
  rw [← hrun]
  refine ⟨hsf.trans (State.moversOn_mover hfq), fun h => ?_, fun h hnil => ?_⟩
  · obtain ⟨hout, hended⟩ := hends (h.elim (fun h => .inl (.inl h)) fun h =>
      h.elim (fun h => .inl (.inr h)) fun h => .inr ⟨hreqs.mpr h.1, h.2⟩)
    obtain ⟨hout, x, hx, hd, hxd, hrec⟩ := hout.moversOn hended hfq
    exact ⟨hout.reqs, x, hx, hd, hxd, by rw [hrec, hsp.stamp]⟩
  · have hun := State.unread_nil hnil hs
    have hfn : f = n := hlasts (fun hpl => h (hpl.elim .inl fun h => .inr (.inl h)))
      (fun hlast => h (.inr (.inr ⟨hreqs.mp hlast, hun⟩))) hun
    have hpq : p.queuing = [] := (hp ▸ hnil : p.queuing = [])
    rw [hfn, State.moversOn_nil (hn ▸ State.notePiece_queuing hps hpq ..)]
    refine ⟨?_, hn ▸ State.notePiece_slot hps ..⟩
    have hpr : p.req tag = none := by rw [← hp, State.req_putReq, if_pos rfl]
    exact hn ▸ hpr

end

/-- A mover goes on after a response. -/
theorem State.goesOn_spec {w u : State} {k : Nat} {sl : Slot} (hw : w.slot k = some sl) (hq : ∀ j ∈ w.queuing, j = k) (cls : Nat)
    (hu : (w.moverOn k cls).moversOn = u) : w.MoverWork k u ∧ (w.queuing = [] → u.fab.reqs = w.fab.reqs) ∧
      (w.slotReqs k = [] → w.queuing = [] → sl.report = none → sl.fails = [] → ∃ node, w.ended u k sl .ok node 0) := by
  have hon := w.moverOn_mover k cls
  rw [← hu]
  refine ⟨hon.trans (State.moversOn_mover (hon.queuing hq)), fun hnil => ?_, fun hreqs hnil hr hf => ?_⟩
  · obtain ⟨hstill, hsame⟩ := State.moverOn_still hw hnil cls
    rw [State.moversOn_nil hstill, hsame]
  · have hun := State.unread_nil hnil hw
    obtain ⟨node, hc⟩ := State.moverDone_ok hw cls hreqs hun hr hf
    rw [State.moverOn_eq hw cls hun, State.moversOn_nil (hc.queuing hw hnil)]
    exact ⟨node, hc.ended⟩

/-- WRITE_ACK under a WRITE (R468, R484). -/
theorem State.msgWriteAck_spec {s t : State} {k : Nat} {r : Request} {sl : Slot} {m : Msg} (ha : s.asks m.tag k r)
    (hs : s.slot k = some sl) (hread : r.read = false) (hq : ∀ j ∈ s.queuing, j = k) (ht : s.msgWriteAck m = t) :
    s.MoverWork k t ∧ (s.queuing = [] → t.req m.tag = none) ∧
      (s.lastAsk k m.tag → s.queuing = [] → sl.report = none → sl.fails = [] → ∃ node, s.ended t k sl .ok node 0) := by
  obtain ⟨hreq, hask⟩ := ha
  obtain ⟨p, hp⟩ : ∃ p, s.putReq m.tag none = p := ⟨_, rfl⟩
  have hsp : s.MoverWork k p := hp ▸ (s.putReq_fabWork m.tag none).mover k
  have hrun : (p.moverOn k (s.slotClass k)).moversOn = t := by
    rw [← ht, State.msgWriteAck, hreq]
    dsimp only
    rw [hask, hp]
    dsimp only
    rw [hread]
    rfl
  obtain ⟨hwork, hreqs, hends⟩ := State.goesOn_spec (hp ▸ hs : p.slot k = some sl) (hsp.queuing hq) _ hrun
  refine ⟨hsp.trans hwork, fun hnil => ?_, fun hlast hnil hr hf => ?_⟩
  · rw [State.req_congr (hreqs (hp ▸ hnil)), ← hp, State.req_putReq, if_pos rfl]
  · obtain ⟨node, x, hx, hd, hxd, hrec⟩ := hends (hp ▸ State.slotReqs_putReq_nil.mpr hlast) (hp ▸ hnil) hr hf
    exact ⟨node, x, hx, hd, hxd, by rw [hrec, hsp.stamp]⟩

section
variable {s p : State} {k : Nat} {r : Request} {m : Msg} (ha : s.asks m.tag k r) (hread : r.read = true)
  (hp : s.putReq m.tag none = p)
include ha hread hp

/-- READ_DATA for a range in a stack that serves nothing. -/
theorem State.msgReadData_fenced (hfen : p.stackFenced r.addr r.len = true) :
    s.msgReadData m = (p.pieceFails k (p.slotClass k) .fenced r.mover r.node 0).moversOn := by
  obtain ⟨hreq, hask⟩ := ha
  rw [State.msgReadData, hreq]
  dsimp only
  rw [hask, hp]
  dsimp only
  rw [hread, hfen]
  rfl

/-- READ_DATA that is stored: what is counted as poison is none where no byte is poisoned and no unit was met poisoned. -/
theorem State.msgReadData_stores {w : State} (hfen : p.stackFenced r.addr r.len = false) {ps : List Bool}
    (hps : (flagsPer 16 m.poison ++ List.replicate r.len false).take r.len = ps) {bad : Bool} {clamps : Nat}
    (hw : p.writeLocal r.addr (slice m.payload 0 r.len) ps = (bad, clamps, w)) : ∃ src x,
      (w.clamp src clamps).addPoison k r.mover r.node (poisonCount r.addr ps + b2n (bad && !ps.any id)) = x ∧
      s.msgReadData m = (x.moverOn k (x.slotClass k)).moversOn := by
  obtain ⟨hreq, hask⟩ := ha
  refine ⟨match w.slot k with | some sl => sl.source | none => ClampSource.table, _, rfl, ?_⟩
  rw [State.msgReadData, hreq]
  dsimp only
  rw [hask, hp]
  dsimp only
  rw [hread, hfen, hps, hw]
  rfl

end

theorem poisonCount_zero {ps : List Bool} (h : ∀ p ∈ ps, p = false) (a : Nat) : poisonCount a ps = 0 := by
  have hnone : (ps.zip (List.range ps.length)).filterMap
      (fun x => if x.1 then some (granuleBase (a + x.2)) else none) = [] := by
    rw [List.filterMap_eq_nil_iff]
    exact fun x hx => by rw [h _ (List.of_mem_zip hx).1]; rfl
  rw [poisonCount, hnone]
  rfl

theorem State.addPoison_mover (s : State) (k leaf node n : Nat) : s.MoverWork k (s.addPoison k leaf node n) := by
  refine .ite (.refl k s) (s.modSlot_mover k fun sl => ?_)
  exact Slot.Moved.trans (b := { sl with poisoned := sl.poisoned + n }) ⟨⟨rfl, rfl, rfl, rfl⟩, .inl ⟨rfl, rfl⟩⟩ (Slot.note_moved ..)

theorem State.addPoison_still {s : State} (hq : s.queuing = []) (k leaf node n : Nat) :
    (s.addPoison k leaf node n).queuing = [] ∧ (s.addPoison k leaf node n).fab.reqs = s.fab.reqs := by
  unfold State.addPoison
  split
  · exact ⟨hq, rfl⟩
  · refine ⟨State.queuing_put hq rfl fun x hx => ?_, rfl⟩
    obtain ⟨y, hy, rfl⟩ := Option.map_eq_some_iff.mp hx
    rw [Slot.note_unread]
    exact (State.unread_nil hq hy : y.unread = [])

/-- READ_DATA under a READ (R468, R484). -/
theorem State.msgReadData_spec {s t : State} {k : Nat} {r : Request} {sl : Slot} {m : Msg} (ha : s.asks m.tag k r)
    (hs : s.slot k = some sl) (hread : r.read = true) (hq : ∀ j ∈ s.queuing, j = k) (ht : s.msgReadData m = t) :
    s.SlotWork k t ∧ (s.queuing = [] → t.req m.tag = none) ∧
      (s.plainTier r.addr r.len → m.payload.length = r.len → (∀ p ∈ m.poison, p = false) → s.storedAt t r.addr m.payload ∧
        (s.lastAsk k m.tag → s.queuing = [] → sl.report = none → sl.fails = [] → ∃ node, s.ended t k sl .ok node 0)) := by
  obtain ⟨p, hp⟩ : ∃ p, s.putReq m.tag none = p := ⟨_, rfl⟩
  have hsp : s.MoverWork k p := hp ▸ (s.putReq_fabWork m.tag none).mover k
  have hps : p.slot k = some sl := hp ▸ hs
  have hpnone : p.req m.tag = none := by rw [← hp, State.req_putReq, if_pos rfl]
  by_cases hfen : p.stackFenced r.addr r.len = true
  · have hrun := (State.msgReadData_fenced ha hread hp hfen).symm.trans ht
    have hpf : p.MoverWork k _ := p.pieceFails_mover k (p.slotClass k) .fenced r.mover r.node 0
    rw [← hrun]
    refine ⟨(hsp.trans (hpf.trans (State.moversOn_mover (hpf.queuing (hsp.queuing hq))))).toSlotWork, fun hnil => ?_,
      fun hplain _ _ => ?_⟩
    · obtain ⟨hstill, hnone⟩ := State.pieceFails_still hps (hp ▸ hnil) (p.slotClass k) .fenced r.mover r.node 0 hpnone
      rw [State.moversOn_nil hstill, hnone]
    · rw [State.stackFenced_tier _ (State.plainTier_spec hplain).2.1] at hfen
      exact absurd hfen Bool.false_ne_true
  · obtain ⟨ps, hpsdef⟩ : ∃ ps, (flagsPer 16 m.poison ++ List.replicate r.len false).take r.len = ps := ⟨_, rfl⟩
    obtain ⟨bad, clamps, w, hw⟩ : ∃ bad clamps w, p.writeLocal r.addr (slice m.payload 0 r.len) ps = (bad, clamps, w) :=
      ⟨_, _, _, rfl⟩
    obtain ⟨src, x, hx, hrun⟩ := State.msgReadData_stores ha hread hp (Bool.eq_false_iff.mpr hfen) hpsdef hw
    have hstore := p.writeLocal_store r.addr (slice m.payload 0 r.len) ps
    have hregs := (State.writeLocal_works p r.addr (slice m.payload 0 r.len) ps (Works.refl k p)).regs
    rw [hw] at hstore hregs
    have hwslots : w.host.slots = p.host.slots := (congrArg (·.host.slots) hstore :)
    have hwreqs : w.fab.reqs = p.fab.reqs := (congrArg (·.fab.reqs) hstore :)
    have hwc : w.MoverWork k (w.clamp src clamps) := .of_reported (State.clamp_reported ..) (State.clamp_host_slots ..) k
    have hwx : w.MoverWork k x := hwc.trans (hx ▸ State.addPoison_mover ..)
    have hsx : s.SlotWork k x := hsp.toSlotWork.trans ((hstore.slotWork hregs k).trans hwx.toSlotWork)
    obtain ⟨sl', hsl', -⟩ := hsx.own sl hs
    obtain ⟨hwork, hreqs, hends⟩ := State.goesOn_spec hsl' (hsx.queuing hq) _ (hrun.symm.trans ht)
    refine ⟨hsx.trans hwork.toSlotWork, fun hnil => ?_, fun hplain hlen hpoi => ?_⟩
    · have hwq : w.queuing = [] := (State.queuing_congr hwslots).trans (hp ▸ hnil)
      obtain ⟨hxq, hxr⟩ := State.addPoison_still (s := w.clamp src clamps) ((State.queuing_congr (State.clamp_host_slots ..)).trans hwq)
        k r.mover r.node (poisonCount r.addr ps + b2n (bad && !ps.any id))
      rw [hx] at hxq hxr
      rw [State.req_congr (hreqs hxq), State.req_congr (hxr.trans (congrArg FabState.reqs (State.clamp_fab ..))),
        State.req_congr hwreqs, hpnone]
    · obtain ⟨-, htier, hbase, hlen16⟩ := State.plainTier_spec hplain
      have hclean : ∀ b ∈ ps, b = false := hpsdef ▸ mem_byteFlags hpoi r.len
      have hpplain : p.plainTier r.addr m.payload.length := by
        rw [hlen]
        exact hp ▸ hplain
      obtain ⟨hbad, hclamps, hput⟩ := State.writeLocal_plain hpplain hclean
      rw [← slice_all hlen, hw] at hbad hclamps hput
      obtain rfl : bad = false := hbad
      obtain rfl : clamps = 0 := hclamps
      obtain rfl : w = x := by
        rw [← hx, poisonCount_zero hclean]
        rfl
      rw [slice_all hlen] at hput
      rw [← hlen] at htier hlen16
      refine ⟨?_, fun hlast hnil hr hf => ?_⟩
      · have hstored := hput.storedAt htier hbase hlen16 hwork.mem
        rw [← hp] at hstored
        exact hstored
      · have hwreq : w.slotReqs k = [] := by
          rw [State.slotReqs_congr hwreqs, ← hp]
          exact State.slotReqs_putReq_nil.mpr hlast
        have hwq : w.queuing = [] := (State.queuing_congr hwslots).trans (hp ▸ hnil)
        obtain rfl : sl = sl' := by
          rw [State.slot, hwslots, ← State.slot, hps] at hsl'
          exact Option.some.inj hsl'
        obtain ⟨node, y, hy, hd, hyd, hrec⟩ := hends hwreq hwq hr hf
        exact ⟨node, y, hy, hd, hyd, by rw [hrec, hsx.stamp]⟩

/-! ### The statement -/

theorem State.consume_writeAck {s : State} {m : Msg} (h : m.type = 0x04) : s.consume m = s.msgWriteAck m := by
  unfold State.consume
  rw [h]
  rfl

theorem State.consume_readData {s : State} {m : Msg} (h : m.type = 0x03) : s.consume m = s.msgReadData m := by
  unfold State.consume
  rw [h]
  rfl

theorem State.consume_unreachable {s : State} {m : Msg} (h : m.type = 0x0A) : s.consume m = s.msgUnreachable m := by
  unfold State.consume
  rw [h]
  rfl

/-- Settles O34: each response, and the timer, by what it makes of the slot that asked. -/
theorem responsesEndRequests : Obligations.ResponsesEndRequests := by
  intro s m
  refine ⟨fun h hpay hpoi => ?_, fun h => ?_, fun h hpay hpoi htag k r sl ha hs hr hq => ?_, fun tag => ?_⟩
  · obtain ⟨-, -, -, -, -, -, -, htype, -⟩ := id h
    have hrun : ∀ t, s.msgWriteAck m = t → t.tf.run = s.tf.run → exec (.writeAck m.header) s = .next t := fun t ht htf => by
      have htake := State.takeMsg_consumed h ((State.consume_writeAck htype).trans ht) htf
      rw [hpay, hpoi] at htake
      exact congrArg Host.Outcome.next htake
    refine ⟨fun hnone => hrun s (by rw [State.msgWriteAck, hnone]) rfl, fun k r sl ha hread hs hq => ?_⟩
    obtain ⟨t, ht⟩ : ∃ t, s.msgWriteAck m = t := ⟨_, rfl⟩
    obtain ⟨hwork, hreq, hends⟩ := State.msgWriteAck_spec ha hs hread hq ht
    exact ⟨t, hrun t ht hwork.run, hwork.moves hs, hreq, hends⟩
  · obtain ⟨-, -, -, -, -, -, -, htype, -⟩ := id h
    have hrun : ∀ t, s.msgReadData m = t → t.tf.run = s.tf.run → exec (.readData m.header m.payload m.poison) s = .next t :=
      fun t ht htf => congrArg Host.Outcome.next (State.takeMsg_consumed h ((State.consume_readData htype).trans ht) htf)
    refine ⟨fun hnone => hrun s (by rw [State.msgReadData, hnone]) rfl, fun k r sl ha hread hs hq => ?_⟩
    obtain ⟨t, ht⟩ : ∃ t, s.msgReadData m = t := ⟨_, rfl⟩
    obtain ⟨hwork, hreq, hstores⟩ := State.msgReadData_spec ha hs hread hq ht
    exact ⟨t, hrun t ht hwork.run, hwork.moves hs, hreq, hstores⟩
  · obtain ⟨-, -, -, -, -, -, -, htype, -⟩ := id h
    obtain ⟨t, ht⟩ : ∃ t, s.requestFails m.tag (m.target % 32768) = t := ⟨_, rfl⟩
    obtain ⟨hwork, hends, hlasts⟩ := State.requestFails_spec ha hs hr hq ht
    have htake := State.takeMsg_consumed h ((State.consume_unreachable htype).trans ((if_pos htag).trans ht)) hwork.run
    rw [hpay, hpoi] at htake
    exact ⟨t, congrArg Host.Outcome.next htake, hwork.moves hs, hends, hlasts⟩
  · refine ⟨fun h => ?_, fun r hreq hearly => ?_, fun hpause hidle k r sl ha hs hr hq hlate => ?_⟩
    · refine congrArg Host.Outcome.next ?_
      obtain h | h := h
      · exact if_pos h
      · rw [h]
        exact ite_self s
    · refine congrArg Host.Outcome.next ?_
      rw [hreq]
      dsimp only
      rw [if_neg (Nat.not_le.mpr hearly), ite_self]
    · obtain ⟨t, ht⟩ : ∃ t, s.requestFails tag r.chip = t := ⟨_, rfl⟩
      obtain ⟨hwork, hends, hlasts⟩ := State.requestFails_spec ha hs hr hq ht
      refine ⟨t, congrArg Host.Outcome.next ?_, hwork.moves hs, hends, hlasts⟩
      rw [hpause, ha.1]
      dsimp only
      rw [if_pos hlate, ht, State.pump_idle (hwork.run.trans hidle)]
      rfl

end Sys2Proof.Machine
end

section
/-! PROOFS. What the operations of collectives change beside their instance: the arithmetic of a segment, bytes, messages and the end of
an instance (R517 to R519, R530 to R536, R539, R543). -/

namespace Sys2Proof.Machine

/-! ### The arithmetic of a segment (R517 to R519) -/

theorem State.rotateRow_reported (s : State) (u form key stream base : Nat) (xs : List Value) :
    (s.rotateRow u form key stream base xs).2 = s.reported (s.rotateRow u form key stream base xs).2 := by
  unfold State.rotateRow
  refine List.foldlRecOn _ _ (motive := fun p : List Value × State => p.2 = s.reported p.2) rfl fun p hp g _ => ?_
  exact State.reported_then hp (State.reported_trans (State.reported_trans (State.count_reported ..) (State.count_reported ..))
    (State.count_reported ..))

theorem State.countFindings_reported (s : State) (u : Nat) (f : Findings) : s.countFindings u f = s.reported (s.countFindings u f) :=
  State.reported_trans (State.count_reported ..) (State.count_reported ..)

theorem State.reported_ite {s a b : State} {p : Prop} [Decidable p] (ha : a = s.reported a) (hb : b = s.reported b) :
    (if p then a else b) = s.reported (if p then a else b) := by
  split
  · exact ha
  · exact hb

section
variable (s : State) (c : CollInst) (g : Nat)

theorem State.segRecords_reported (bs : List Byte) (n : Nat) :
    (s.segRecords c bs n).2 = s.reported (s.segRecords c bs n).2 := State.clamp_reported ..

theorem State.segOwn_reported : (s.segOwn c g).2 = s.reported (s.segOwn c g).2 := by
  unfold State.segOwn
  dsimp only
  split
  · exact State.rotateRow_reported ..
  · exact State.segRecords_reported ..
  all_goals rfl

theorem State.segDecode_reported (bs : List Byte) : (s.segDecode c g bs).2 = s.reported (s.segDecode c g bs).2 := by
  unfold State.segDecode
  dsimp only
  split
  · exact State.reported_trans (State.reported_trans (State.clamp_reported ..) (State.count_reported ..)) (State.count_reported ..)
  · rfl
  · rfl
  · exact State.segRecords_reported ..
  · rfl

theorem State.segEncode_reported (stream : Nat) (v : SegVal) :
    (s.segEncode c g stream v).2 = s.reported (s.segEncode c g stream v).2 := by
  unfold State.segEncode
  dsimp only
  split
  · rfl
  · rfl
  · split
    · exact State.reported_trans (State.reported_ite rfl (State.count_reported ..)) (State.count_reported ..)
    · exact State.reported_trans (State.reported_ite rfl (State.count_reported ..)) (State.countFindings_reported ..)
    · exact State.reported_ite rfl (State.count_reported ..)

theorem State.segSum_reported (tree : Bool) (xs : List SegVal) : (s.segSum c tree xs).2 = s.reported (s.segSum c tree xs).2 := by
  unfold State.segSum
  dsimp only
  split
  · exact State.reported_trans (State.count_reported ..) (State.count_reported ..)
  · exact State.reported_trans (State.reported_trans (State.reported_trans (State.count_reported ..) (State.count_reported ..))
      (State.count_reported ..)) (State.count_reported ..)
  · rfl
  · rfl

theorem State.segRound_reported (f : Fmt) (vs : List Value) : (s.segRound c f vs).2 = s.reported (s.segRound c f vs).2 :=
  State.countFindings_reported ..

theorem State.segOutput_reported (v : SegVal) : (s.segOutput c g v).2.2 = s.reported (s.segOutput c g v).2.2 := by
  unfold State.segOutput
  dsimp only
  split
  · rfl
  · split
    · rfl
    · exact State.segRound_reported ..
  · refine State.reported_trans ?_ (State.segRound_reported ..)
    split
    · exact State.rotateRow_reported ..
    · rfl

end

/-! ### Bytes read and written -/

/-- From s to t bytes have been read or written, and no register has changed but those that arm flips (R333, R353, R393). -/
structure State.ByteWork (s t : State) : Prop where
  store : s.StoreWork t
  regs : s.regs.agree t.regs

theorem State.ByteWork.refl (s : State) : s.ByteWork s := ⟨.refl s, RegFile.agree_refl _⟩

theorem State.ByteWork.trans {s t u : State} (h : s.ByteWork t) (h' : t.ByteWork u) : s.ByteWork u :=
  ⟨h.store.trans h'.store, RegFile.agree_trans h.regs h'.regs⟩

theorem MemWork.bytes {P : Nat → Prop} {s t : State} (h : MemWork P s t) : s.ByteWork t := ⟨h.store, h.regs⟩

theorem State.ByteWork.of_reported {s t : State} (h : t = s.reported t) : s.ByteWork t := (MemWork.of_reported anywhere h).bytes

theorem State.memRead_bytes (s : State) (a n : Nat) : s.ByteWork (s.memRead a n).2.2 :=
  (MemWork.of_exceptBytes (s.afterRead_exceptBytes a n)).bytes

theorem State.memWrite_bytes (s : State) (a : Nat) (bs : List Byte) (p : Bool) : s.ByteWork (s.memWrite a bs p).2 := by
  refine ⟨?_, (State.memWrite_works s a bs p (Works.refl 0 s)).regs⟩
  unfold State.memWrite
  refine .foldl2 (fun p u => ?_) _ _ s
  dsimp only
  exact State.writeUnit_store ..

theorem State.writeLocal_bytes (s : State) (a : Nat) (bs : List Byte) (ps : List Bool) : s.ByteWork (s.writeLocal a bs ps).2.2 :=
  ⟨s.writeLocal_store a bs ps, (State.writeLocal_works s a bs ps (Works.refl 0 s)).regs⟩

theorem State.writeSummary_bytes (s : State) (c : CollInst) : s.ByteWork (s.writeSummary c).2 := by
  unfold State.writeSummary
  split
  · exact .refl s
  next a _ =>
    extract_lets lag record
    have hw := s.memWrite_bytes a record false
    generalize s.memWrite a record false = x at hw ⊢
    dsimp only
    split
    · exact hw
    · refine (hw.trans (x.2.memRead_bytes (a + 32 + 4 * c.slowest) 4)).trans ?_
      dsimp only
      exact State.memWrite_bytes ..

theorem State.ByteWork.coll {s t : State} (h : s.ByteWork t) : t.coll = s.coll := (congrArg State.coll h.store :)

theorem State.ByteWork.slot {s t : State} (h : s.ByteWork t) (j : Nat) : t.slot j = s.slot j := by
  rw [State.slot, show t.host.slots = s.host.slots from (congrArg (·.host.slots) h.store :), State.slot]

/-! ### Work on collectives in one slot -/

/-- t comes from s by work in slot k that may write bytes, send messages, take open values and change the instances. -/
def State.CollWork (k : Nat) (s t : State) : Prop := ({ s with coll := t.coll, taken := t.taken } : State).SlotWork k t

theorem State.SlotWork.coll {k : Nat} {s t : State} (h : s.SlotWork k t) : t.coll = s.coll := (congrArg State.coll h.frame :)

theorem State.SlotWork.collWork {k : Nat} {s t : State} (h : s.SlotWork k t) : s.CollWork k t := by
  unfold State.CollWork
  rwa [h.coll, show t.taken = s.taken from (congrArg State.taken h.frame :)]

theorem State.CollWork.refl (k : Nat) (s : State) : s.CollWork k s := (State.MoverWork.refl k s).toSlotWork

section
variable {k : Nat} {s t u : State} (h : s.CollWork k t)
include h

theorem State.CollWork.trans (h' : t.CollWork k u) : s.CollWork k u := by
  have h1 : ({ s with coll := u.coll, taken := u.taken } : State).SlotWork k { t with coll := u.coll, taken := u.taken } := by
    refine ⟨h.regs, ?_, h.others, h.listed, h.own⟩
    exact (congrArg (fun x : State => ({ x with coll := u.coll, taken := u.taken } : State)) h.frame :)
  exact h1.trans h'

theorem State.CollWork.run : t.tf.run = s.tf.run := State.SlotWork.run (s := { s with coll := t.coll, taken := t.taken }) h

theorem State.CollWork.stamp : t.stamp = s.stamp := State.SlotWork.stamp (s := { s with coll := t.coll, taken := t.taken }) h

theorem State.CollWork.moves {sl : Slot} (hs : s.slot k = some sl) : Moves k s t := by
  have hm := State.SlotWork.moves h (sl := sl) hs
  exact ⟨hm.regs, hm.same, hm.rings, hm.others, hm.own⟩

end

theorem State.CollWork.of_coll (k : Nat) (s : State) (c : CollState) : s.CollWork k { s with coll := c } :=
  (State.MoverWork.refl k { s with coll := c }).toSlotWork

theorem State.CollWork.of_open (k : Nat) (s : State) (n : Nat) (m : MemState) : s.CollWork k { s with taken := n, mem := m } :=
  (State.StoreWork.mem { s with taken := n } m).slotWork (RegFile.agree_refl _) k

theorem State.FabWork.collWork {s t : State} (h : s.FabWork t) (k : Nat) : s.CollWork k t := (h.mover k).toSlotWork.collWork

theorem State.ByteWork.collWork {s t : State} (h : s.ByteWork t) (k : Nat) : s.CollWork k t := (h.store.slotWork h.regs k).collWork

theorem State.FabWork.coll {s t : State} (h : s.FabWork t) : t.coll = s.coll := (congrArg State.coll h :)

theorem State.FabWork.slot {s t : State} (h : s.FabWork t) (j : Nat) : t.slot j = s.slot j := by
  rw [State.slot, h.host, State.slot]

theorem State.FabWork.chipId {s t : State} (h : s.FabWork t) : t.chipId = s.chipId := by
  rw [State.chipId, h.regs, State.chipId]

theorem State.FabWork.count (s : State) (u i n : Nat) : s.FabWork (s.count u i n) := (State.PortWork.count s u i n).fabWork

theorem State.FabWork.foldl {β : Type} {f : State → β → State} (hf : ∀ t x, State.FabWork t (f t x)) (l : List β) (s : State) :
    s.FabWork (l.foldl f s) :=
  List.foldlRecOn l f (motive := s.FabWork) (.refl s) fun t ht x _ => ht.trans (hf t x)

/-! ### The end of an instance (R530 to R535, R539, R543) -/

@[simp] theorem CollInst.mergeHeard_id (c : CollInst) : c.mergeHeard.id = c.id := rfl
@[simp] theorem CollInst.mergeHeard_slot (c : CollInst) : c.mergeHeard.slot = c.slot := rfl
@[simp] theorem CollInst.mergeHeard_kind (c : CollInst) : c.mergeHeard.kind = c.kind := rfl

theorem State.openOut_frame (s : State) (c : CollInst) :
    s.openOut c = { s with taken := (s.openOut c).taken, mem := (s.openOut c).mem } := by
  unfold State.openOut
  split
  · rfl
  · refine List.foldlRecOn _ _ (motive := fun t : State => t = { s with taken := t.taken, mem := t.mem }) rfl fun t ht g _ => ?_
    rw [ht]
    rfl

/-- The state in which an instance of a slot is about to write its summary: it is no longer active, its COLL_ID has completed, and
what a timeout leaves of OUT is open (R533, R535). -/
def State.instLeaves (s : State) (c : CollInst) (st : Status) : State :=
  let s := s.count 0 (collCtr 4) (b2n (st == .timeout))
  let s := if st == .timeout then s.openOut c.mergeHeard else s
  { s with coll := { s.coll with
      finished := c.id :: s.coll.finished.filter (· != c.id)
      active := s.coll.active.filter (fun x => !(x.id == c.id && x.slot == c.slot)) } }

/-- The instances other than one. -/
def State.othersActive (s : State) (c : CollInst) : List CollInst := s.coll.active.filter (fun x => !(x.id == c.id && x.slot == c.slot))

theorem State.instLeaves_spec (s : State) (c : CollInst) (st : Status) (k : Nat) : s.CollWork k (s.instLeaves c st) ∧
    (s.instLeaves c st).coll.active = s.othersActive c ∧ ∀ j, (s.instLeaves c st).slot j = s.slot j := by
  unfold State.instLeaves State.othersActive
  extract_lets a b
  have ha : s.FabWork a := .count ..
  have hab : b = { a with taken := b.taken, mem := b.mem } := by
    unfold b
    split
    · exact a.openOut_frame _
    · rfl
  have hwork : s.CollWork k b := (ha.collWork k).trans (hab ▸ .of_open k a b.taken b.mem)
  have hcoll : b.coll = s.coll := (congrArg State.coll hab).trans ha.coll
  refine ⟨hwork.trans (.of_coll k b _), ?_, fun j => ?_⟩
  · show b.coll.active.filter _ = _
    rw [hcoll]
  · rw [← ha.slot j, State.slot, State.slot]
    exact (congrArg (fun x : State => mget none x.host.slots j) hab :)

/-- An instance of a slot ends with a status and a detail: its work is in that slot alone, it is no longer active, and the
descriptor has completed, with that status and detail unless a poisoned summary has outranked the status (R335, R543). -/
structure State.InstEnds (s : State) (c : CollInst) (sl : Slot) (st : Status) (detail : Nat) (t : State) : Prop where
  work : s.CollWork c.slot t
  active : t.coll.active = s.othersActive c
  ended : ∃ st' node value, s.ended t c.slot sl st' node value ∧
    (c.kind = .barrier ∨ Status.rank .poison ≤ st.rank → st' = st ∧ value = detailValue st detail)

theorem State.endInst_barrier {s : State} {c : CollInst} (hk : c.kind = .barrier) (hn : c.slot ≠ 4096) (st : Status) (detail : Nat) :
    s.endInst c st detail = (((s.instLeaves c st).finish c.slot 7 st detail).writeSummary c.mergeHeard).2 :=
  (if_neg hn).trans (if_pos (by rw [CollInst.mergeHeard_kind, hk]; rfl))

theorem State.endInst_data {s : State} {c : CollInst} (hk : c.kind ≠ .barrier) (hn : c.slot ≠ 4096) (st : Status) (detail : Nat)
    {bad : Bool} {w : State} (hw : (s.instLeaves c st).writeSummary c.mergeHeard = (bad, w)) :
    ∃ value, (bad = false ∨ st.join .poison = st → value = detail) ∧
      s.endInst c st detail = w.finish c.slot 4 (if bad then st.join .poison else st) value := by
  refine ⟨if (if bad then st.join .poison else st) == st then detail else c.mergeHeard.poisoned, fun h => if_pos ?_, ?_⟩
  · obtain rfl | h := h
    · simp
    · rw [h]
      simp
  · unfold State.endInst
    extract_lets c' a b _ d _ e
    rw [if_neg (show ¬ c'.slot = 4096 from hn)]
    rw [if_neg (show ¬ (c'.kind == .barrier) = true by simpa [c'] using hk), show e.writeSummary c' = (bad, w) from hw]
    rfl

theorem State.ended.between {s a b t : State} {k : Nat} {sl : Slot} {st : Status} {node value : Nat} (h : a.ended b k sl st node value)
    (hstamp : a.stamp = s.stamp) (hslot : t.slot k = b.slot k) : s.ended t k sl st node value := by
  obtain ⟨sl', hsl', hdone, hdesc, hrec⟩ := h
  exact ⟨sl', hslot.trans hsl', hdone, hdesc, hstamp ▸ hrec⟩

/-- A descriptor that completes at its node. -/
theorem State.finish_ends {s : State} {k : Nat} {sl : Slot} (hs : s.slot k = some sl) (cls : Nat) (st : Status) (value : Nat) :
    s.CollWork k (s.finish k cls st value) ∧ (s.finish k cls st value).coll = s.coll ∧
      ∃ node, s.ended (s.finish k cls st value) k sl st node (detailValue st value) := by
  have hwork := (s.finish_mover k cls st value).toSlotWork
  refine ⟨hwork.collWork, hwork.coll, s.reporter sl.barred cls (targetOf sl.desc), ?_⟩
  rw [State.finish_eq hs]
  exact (State.complete_spec st _ value hs).ended

theorem State.endInst_ends {s : State} {c : CollInst} {sl : Slot} (hn : c.slot ≠ 4096) (hs : s.slot c.slot = some sl) (st : Status)
    (detail : Nat) : s.InstEnds c sl st detail (s.endInst c st detail) := by
  obtain ⟨hwork, hactive, hslot⟩ := s.instLeaves_spec c st c.slot
  have hstamp := hwork.stamp
  by_cases hk : c.kind = .barrier
  · rw [State.endInst_barrier hk hn]
    obtain ⟨hfin, hcoll, node, hended⟩ := State.finish_ends ((hslot c.slot).trans hs) 7 st detail
    have hsum := State.writeSummary_bytes ((s.instLeaves c st).finish c.slot 7 st detail) c.mergeHeard
    exact ⟨(hwork.trans hfin).trans (hsum.collWork _), by rw [hsum.coll, hcoll, hactive],
      st, node, _, hended.between hstamp (hsum.slot _), fun _ => ⟨rfl, rfl⟩⟩
  · obtain ⟨bad, w, hw⟩ : ∃ bad w, (s.instLeaves c st).writeSummary c.mergeHeard = (bad, w) := ⟨_, _, rfl⟩
    have hsum := (s.instLeaves c st).writeSummary_bytes c.mergeHeard
    obtain ⟨value, hvalue, hend⟩ := State.endInst_data hk hn st detail hw
    rw [hw] at hsum
    obtain ⟨hfin, hcoll, node, hended⟩ :=
      State.finish_ends ((hsum.slot _).trans ((hslot c.slot).trans hs)) 4 (if bad then st.join .poison else st) value
    rw [hend]
    refine ⟨(hwork.trans (hsum.collWork _)).trans hfin, by rw [hcoll, hsum.coll, hactive], _, node, _,
      hended.between ((hsum.collWork c.slot).stamp.trans hstamp) rfl, fun h => ?_⟩
    have hjoin : st.join .poison = st := if_neg (Nat.not_lt.mpr (h.resolve_left hk))
    rw [hvalue (.inr hjoin), hjoin, ite_self]
    exact ⟨rfl, rfl⟩

end Sys2Proof.Machine
end

section
/-! PROOFS. How an instance of a collective goes on: timeouts, what is left once it has done everything, rounds of a barrier, results and landing
places (R514, R525, R532, R533, R536, R538, R543). -/

namespace Sys2Proof.Machine

/-! ### Timeouts (R532, R533) -/

theorem State.sendAbort_fabWork (s : State) (c : CollInst) (k dir chip : Nat) : s.FabWork (s.sendAbort c k dir chip) := by
  unfold State.sendAbort
  extract_lets m
  have hf := s.send_fabWork m
  generalize s.send m = x at hf ⊢
  exact hf.trans (.count ..)

theorem State.InstEnds.after {s u t : State} {c d : CollInst} {sl : Slot} {st : Status} {detail : Nat}
    (h : u.InstEnds d sl st detail t) (hf : s.FabWork u) (hid : d.id = c.id) (hslot : d.slot = c.slot) (hkind : d.kind = c.kind) :
    s.InstEnds c sl st detail t := by
  obtain ⟨hwork, hactive, st', node, value, hended, hsame⟩ := h
  rw [hslot] at hwork hended
  rw [hkind] at hsame
  have hstamp := (hf.collWork c.slot).stamp
  refine ⟨(hf.collWork _).trans hwork, ?_, st', node, value, hended.between hstamp rfl, hsame⟩
  rw [hactive, State.othersActive, State.othersActive, hf.coll, hid, hslot]

theorem State.timeoutInst_ends {s : State} {c : CollInst} {sl : Slot} (hn : c.slot ≠ 4096) (hs : s.slot c.slot = some sl)
    (chip : Nat) : s.InstEnds c sl .timeout chip (s.timeoutInst c chip) := by
  unfold State.timeoutInst
  extract_lets d u
  have hf : s.FabWork u := State.FabWork.foldl (fun t k => by
    split
    · exact .refl t
    · exact (t.sendAbort_fabWork d k 0 chip).trans (State.sendAbort_fabWork _ d k 1 chip)) _ s
  exact (State.endInst_ends (c := d) hn ((hf.slot _).trans hs) .timeout chip).after hf rfl rfl rfl

/-! ### An instance goes on -/

/-- An instance of this COLL_ID and slot is listed. -/
def State.lists (s : State) (c : CollInst) : Prop := ∃ x ∈ s.coll.active, x.id = c.id ∧ x.slot = c.slot

/-- The instance is of a slot, which holds a descriptor, and is listed. -/
structure State.Carries (s : State) (c : CollInst) (sl : Slot) : Prop where
  slot : c.slot ≠ 4096
  holds : s.slot c.slot = some sl
  lists : s.lists c

section
variable {s t : State} {c d : CollInst} {sl : Slot} (h : s.Carries c sl)
include h

theorem State.Carries.same (hid : d.id = c.id) (hslot : d.slot = c.slot) : s.Carries d sl := by
  obtain ⟨hn, hs, hl⟩ := h
  refine ⟨hslot ▸ hn, hslot ▸ hs, ?_⟩
  unfold State.lists
  rwa [hid, hslot]

theorem State.Carries.next (hcoll : t.coll = s.coll) (hslot : t.slot c.slot = s.slot c.slot) : t.Carries c sl := by
  refine ⟨h.slot, hslot.trans h.holds, ?_⟩
  unfold State.lists
  rw [hcoll]
  exact h.lists

theorem State.Carries.fab (hf : s.FabWork t) : t.Carries c sl := h.next hf.coll (hf.slot _)

theorem State.Carries.bytes (hb : s.ByteWork t) : t.Carries c sl := h.next hb.coll (hb.slot _)

end

theorem State.mem_putInst {s : State} {c : CollInst} (h : s.lists c) : c ∈ (s.putInst c).coll.active := by
  obtain ⟨x, hx, hid, hslot⟩ := h
  exact List.mem_map.mpr ⟨x, hx, if_pos (by rw [hid, hslot]; simp)⟩

theorem State.putInst_collWork (s : State) (c : CollInst) (k : Nat) : s.CollWork k (s.putInst c) := .of_coll k s _

/-- After work on an instance of a slot it goes on as P says, or its descriptor has completed. -/
structure State.GoesOn (s : State) (c : CollInst) (sl : Slot) (P : CollInst → Prop) (t : State) : Prop where
  work : s.CollWork c.slot t
  fares : (∃ st node value, s.ended t c.slot sl st node value) ∨
    ∃ i ∈ t.coll.active, i.id = c.id ∧ i.slot = c.slot ∧ P i

theorem State.InstEnds.goesOn {s t : State} {c : CollInst} {sl : Slot} {st : Status} {detail : Nat}
    (h : s.InstEnds c sl st detail t) (P : CollInst → Prop) : s.GoesOn c sl P t := by
  obtain ⟨hwork, -, st', node, value, hended, -⟩ := h
  exact ⟨hwork, .inl ⟨st', node, value, hended⟩⟩

theorem State.GoesOn.after {s u t : State} {c d : CollInst} {sl : Slot} {P : CollInst → Prop} (h : u.GoesOn d sl P t)
    (hw : s.CollWork c.slot u) (hid : d.id = c.id) (hslot : d.slot = c.slot) : s.GoesOn c sl P t := by
  obtain ⟨hwork, hfares⟩ := h
  rw [hslot] at hwork hfares
  rw [hid] at hfares
  refine ⟨hw.trans hwork, hfares.imp_left ?_⟩
  rintro ⟨st, node, value, hended⟩
  exact ⟨st, node, value, hended.between hw.stamp rfl⟩

theorem State.putInst_goesOn {s : State} {c : CollInst} {sl : Slot} (h : s.Carries c sl) {P : CollInst → Prop} (hP : P c) :
    s.GoesOn c sl P (s.putInst c) :=
  ⟨s.putInst_collWork c _, .inr ⟨c, State.mem_putInst h.lists, rfl, rfl, hP⟩⟩

theorem State.checkDone_goesOn {s : State} {c : CollInst} {sl : Slot} (h : s.Carries c sl) {P : CollInst → Prop} (hP : P c) :
    s.GoesOn c sl P (s.checkDone c) := by
  unfold State.checkDone
  split
  · exact (State.timeoutInst_ends h.slot h.holds _).goesOn P
  split
  · exact (State.endInst_ends h.slot h.holds _ _).goesOn P
  · exact State.putInst_goesOn h hP

/-- An instance that has segments ready, and has lost no neighbour, goes on. -/
theorem State.checkDone_ready {s : State} {c : CollInst} (hlost : c.lost = none) (hready : c.ready ≠ []) :
    s.checkDone c = s.putInst c := by
  unfold State.checkDone
  rw [if_neg (by rw [hlost]; exact Bool.false_ne_true), if_neg (by simp [CollInst.finished, hready])]

/-! ### Rounds of a barrier (R538, R539) -/

theorem State.sendRound_fabWork (s : State) (c : CollInst) : s.FabWork (s.sendRound c).2 := s.send_fabWork _

theorem State.releaseBarrier_ends {s : State} {c : CollInst} {sl : Slot} (hn : c.slot ≠ 4096) (hs : s.slot c.slot = some sl) :
    s.InstEnds c sl .ok (c.slowest % 32768 + 32768 * b2n c.late) (s.releaseBarrier c) := by
  have hf : s.FabWork ((s.count 0 (collCtr 7) (b2n c.late)).count 0 (collCtr 8)
      (b2n (s.time.quality == .holdover || s.time.quality == .unset))) := .trans (.count ..) (.count ..)
  exact (State.endInst_ends hn ((hf.slot _).trans hs) .ok _).after hf rfl rfl rfl

/-- A barrier goes through its rounds with the messages that it has heard. -/
theorem State.advanceRounds_goesOn {sl : Slot} : ∀ (fuel : Nat) {s : State} {c : CollInst}, s.Carries c sl →
    s.GoesOn c sl (fun i => i.heard = c.heard) (State.advanceRounds fuel c s)
  | 0, _, _, h => State.putInst_goesOn h rfl
  | fuel + 1, s, c, h => by
    unfold State.advanceRounds
    split
    · extract_lets t d
      have hd : s.Carries d sl := h.same rfl rfl
      split
      · exact ((State.releaseBarrier_ends hd.slot hd.holds).goesOn _).after (.refl ..) rfl rfl
      · exact (State.putInst_goesOn hd (P := fun i => i.heard = c.heard) rfl).after (.refl ..) rfl rfl
    split
    · exact State.putInst_goesOn h rfl
    · extract_lets l d
      have hd : s.Carries d sl := h.same rfl rfl
      split
      · exact (State.advanceRounds_goesOn fuel hd).after (.refl ..) rfl rfl
      · have hf := s.sendRound_fabWork d
        generalize s.sendRound d = x at hf ⊢
        dsimp only
        split
        · exact (State.advanceRounds_goesOn fuel (hd.fab hf)).after (hf.collWork _) rfl rfl
        · exact ((State.timeoutInst_ends hd.slot (hd.fab hf).holds _).goesOn _).after (hf.collWork _) rfl rfl

/-! ### Results and landing places (R514, R525, R536) -/

theorem State.giveBack_spec (s : State) (c : CollInst) (key : Nat) : s.FabWork (s.giveBack c key).2 ∧
    ∃ a b l, (s.giveBack c key).1 = { c with consumed := a, reported := b, lost := l } := by
  unfold State.giveBack
  extract_lets n d o dir peer
  have hf := s.send_fabWork (s.newMsg 0x08 peer (collTarget 0 (1 - dir) o d.id) (collTag d.place (2 * o + 1 - dir)) 8
    (natLe 8 (64 + n)) [])
  generalize s.send _ = x at hf ⊢
  exact ⟨hf, _, _, _, rfl⟩

theorem State.writeResult_spec (s : State) (c : CollInst) (g : Nat) (v : SegVal) (ps : List Bool) :
    s.ByteWork (s.writeResult c g v ps).2 ∧ ∃ a b r,
      (s.writeResult c g v ps).1 = { c with done := c.done ++ [g], inexact := a, poisoned := b, result := r } := by
  have hout := s.segOutput_reported c g v
  unfold State.writeResult
  dsimp only
  generalize s.segOutput c g v = x at hout ⊢
  split
  · exact ⟨.of_reported hout, _, _, _, rfl⟩
  · exact ⟨(State.ByteWork.of_reported hout).trans (State.writeLocal_bytes ..), _, _, _, rfl⟩

end Sys2Proof.Machine
end

section
/-! PROOFS. The messages of collectives, with an active instance of their COLL_ID and without one (R513, R514, R525, R526, R533, R534, R538, R542). -/

namespace Sys2Proof.Machine

theorem State.consume_coll {s : State} {m : Msg} (h : m.type = 0x07) : s.consume m = s.msgColl m := by
  unfold State.consume
  rw [h]
  rfl

theorem State.consume_collCredit {s : State} {m : Msg} (h : m.type = 0x08) : s.consume m = s.collCredit m := by
  unfold State.consume
  rw [h]
  rfl

/-- A collective message that the package takes and that moves no STEP on is what its kind makes of it (Table 14.5). -/
theorem State.takeColl_consumed {s t : State} {m : Msg} {kind : Nat} (h : s.hears m 0x07) (hkind : bits m.target 23 22 = kind)
    (hc : s.msgColl m = t) (ht : t.tf.run = s.tf.run) : s.takeColl kind m.header m.payload m.poison = t := by
  obtain ⟨-, -, -, -, -, -, -, htype, -⟩ := id h
  unfold State.takeColl
  rw [if_pos (show bits (field m.header 8 6) 23 22 = kind from hkind)]
  exact State.takeMsg_consumed h ((State.consume_coll htype).trans hc) ht

theorem State.msgColl_reduce {s : State} {m : Msg} (h : bits m.target 23 22 = 0) : s.msgColl m = s.collReduce m := by
  unfold State.msgColl
  rw [h]
  rfl

theorem State.msgColl_gather {s : State} {m : Msg} (h : bits m.target 23 22 = 1) : s.msgColl m = s.collGather m := by
  unfold State.msgColl
  rw [h]
  rfl

theorem State.msgColl_abort {s : State} {m : Msg} (h : bits m.target 23 22 = 2) : s.msgColl m = s.collAbort m := by
  unfold State.msgColl
  rw [h]
  rfl

theorem State.msgColl_barrier {s : State} {m : Msg} (h : bits m.target 23 22 = 3) : s.msgColl m = s.collBarrier m := by
  unfold State.msgColl
  rw [h]
  rfl

theorem State.inst_some {s : State} {id : Nat} {c : CollInst} (h : s.inst id = some c) :
    c ∈ s.coll.active ∧ c.id = id ∧ c.ended = none := by
  have hp := List.find?_some h
  simp only [Bool.and_eq_true, beq_iff_eq, Option.isNone_iff_eq_none] at hp
  exact ⟨List.mem_of_find?_eq_some h, hp⟩

theorem State.inst_carries {s : State} {id : Nat} {c : CollInst} {sl : Slot} (h : s.inst id = some c) (hs : s.slot c.slot = some sl)
    (hn : c.slot < 4096) : s.Carries c sl := ⟨by omega, hs, c, (State.inst_some h).1, rfl, rfl⟩

theorem State.collGather_goesOn {s : State} {m : Msg} {c : CollInst} {sl : Slot} (hc : s.inst (collId m) = some c)
    (h : s.Carries c sl) (hk : c.kind ≠ .barrier) (hg : field m.payload 0 4 < c.segs.length)
    (hnew : c.done.contains (field m.payload 0 4) = false) :
    s.GoesOn c sl (fun i => field m.payload 0 4 ∈ i.done) (s.collGather m) := by
  unfold State.collGather
  rw [hc]
  dsimp -zeta only
  extract_lets g a dir d x l e o on
  have hgo : ¬ (c.kind == .barrier || decide (c.segs.length ≤ g) || c.done.contains g) = true := by
    rw [show c.done.contains g = false from hnew]
    simpa [hk] using hg
  rw [if_neg hgo]
  have ha : s.FabWork a := .count ..
  have hdecode := a.segDecode_reported e g x.bytes
  generalize a.segDecode e g x.bytes = v at hdecode ⊢
  obtain ⟨hwrite, inexact, poisoned, result, hres⟩ := v.2.writeResult_spec e g v.1 (e.fromGranules g x.poison)
  generalize v.2.writeResult e g v.1 (e.fromGranules g x.poison) = w at hwrite hres ⊢
  have hbytes := (State.ByteWork.of_reported hdecode).trans hwrite
  have hwork : s.CollWork c.slot w.2 := (ha.collWork _).trans (hbytes.collWork _)
  have hid : w.1.id = c.id := by rw [hres]; rfl
  have hslot : w.1.slot = c.slot := by rw [hres]; rfl
  have hw : w.2.Carries w.1 sl := ((h.fab ha).bytes hbytes).same hid hslot
  have hdone : g ∈ w.1.done := by
    rw [hres]
    exact List.mem_append_right _ (List.mem_singleton_self g)
  split
  · exact (State.checkDone_goesOn (c := w.1.push _) (hw.same rfl rfl) (P := fun i => g ∈ i.done) hdone).after hwork hid hslot
  · obtain ⟨hf, consumed, reported, lost, hback⟩ := w.2.giveBack_spec w.1 (2 * (c.seg g).1 + dir)
    generalize w.2.giveBack w.1 (2 * (c.seg g).1 + dir) = y at hf hback ⊢
    have hy : y.2.Carries y.1 sl := (hw.fab hf).same (by rw [hback]) (by rw [hback])
    refine (State.checkDone_goesOn hy (P := fun i => g ∈ i.done) (by rw [hback]; exact hdone)).after (hwork.trans (hf.collWork _)) ?_ ?_
    · rw [hback]
      exact hid
    · rw [hback]
      exact hslot

theorem State.collAbort_ends {s : State} {m : Msg} {c : CollInst} {sl : Slot} (hc : s.inst (collId m) = some c)
    (h : s.Carries c sl) : s.InstEnds c sl .timeout (field m.payload 0 4 % 32768) (s.collAbort m) := by
  unfold State.collAbort
  rw [hc]
  dsimp -zeta only
  extract_lets chip d l e
  have hf := s.sendAbort_fabWork e (collOrder m) (collDir m) chip
  exact (State.endInst_ends (c := e) h.slot (h.fab hf).holds .timeout chip).after hf rfl rfl rfl

/-- A round of a barrier that has come is heard, whatever the barrier does with it. -/
theorem State.collBarrier_goesOn {s : State} {m : Msg} {c : CollInst} {sl : Slot} (hc : s.inst (collId m) = some c)
    (h : s.Carries c sl) (hk : c.kind = .barrier) (hr : c.release = none) :
    s.GoesOn c sl (fun i => mget none i.heard (field m.payload 0 4) = some (field m.payload 4 8, field m.payload 12 2 % 32768))
      (s.collBarrier m) := by
  unfold State.collBarrier
  rw [hc]
  dsimp -zeta only
  extract_lets r st
  rw [if_pos (by rw [hk, hr]; rfl)]
  have hgo := State.advanceRounds_goesOn 16 (s := s) (c := { s.hear c 0 with heard := mins r (some st) c.heard }) (h.same rfl rfl)
  refine ⟨hgo.work, hgo.fares.imp_right ?_⟩
  rintro ⟨i, hi, hid, hslot, hheard⟩
  exact ⟨i, hi, hid, hslot, by rw [hheard]; exact mget_mins_self none (some st) c.heard r⟩

/-- Credit is a cumulative grant for the data that go against the message (R524, R525). -/
theorem State.collCredit_grants {s : State} {m : Msg} {c : CollInst} (hc : s.inst (collId m) = some c) {t : State}
    (ht : s.collCredit m = t) : t = { s with coll := { s.coll with active := t.coll.active } } ∧
      ∃ i ∈ t.coll.active, i.id = c.id ∧ i.slot = c.slot ∧
        mget 0 i.granted (2 * collOrder m + (1 - collDir m)) =
          max (mget 0 c.granted (2 * collOrder m + (1 - collDir m))) (field m.payload 0 8) := by
  rw [← ht, State.collCredit, hc]
  exact ⟨rfl, _, State.mem_putInst (s := s) ⟨c, (State.inst_some hc).1, rfl, rfl⟩, rfl, rfl, mget_mput_self ..⟩

/-- A REDUCE that this member passes on: its partial is combined and ready for the next member (R513, R518). -/
theorem State.collReduce_passes {s : State} {m : Msg} {c : CollInst} (hc : s.inst (collId m) = some c) (hk : c.kind = .coll)
    (hg : field m.payload 0 4 < c.segs.length) (ho : c.offset s.chipId (field m.payload 0 4) ≠ 0)
    (hlost : c.lost = none) {t : State} (ht : s.collReduce m = t) :
    t = ({ s with coll := { s.coll with active := t.coll.active } } : State).reported t ∧
      ∃ i ∈ t.coll.active, i.id = c.id ∧ i.slot = c.slot ∧ i.since = s.time.timer ∧ ∃ r, i.ready = c.ready ++ [r] ∧
        r.seg = field m.payload 0 4 ∧ r.gather = false ∧ r.dir = collDir m ∧
        r.back = some (2 * (c.seg (field m.payload 0 4)).1 + collDir m) := by
  unfold State.collReduce at ht
  rw [hc] at ht
  dsimp -zeta only at ht
  extract_lets g a dir d x l e f ps st _ q at ht
  have ha : s.FabWork a := .count ..
  have hoff : ¬ e.offset a.chipId g = 0 := by
    rw [ha.chipId]
    exact ho
  rw [if_neg (by rw [hk, decide_eq_false (Nat.not_le.mpr hg)]; exact Bool.false_ne_true), if_neg hoff] at ht
  have hready : q.ready ≠ [] := List.append_ne_nil_of_right_ne_nil _ (List.cons_ne_nil _ _)
  rw [State.checkDone_ready (c := q) hlost hready] at ht
  have hown := State.reported_trans (s.count_reported 0 (collCtr 1) 1) (a.segOwn_reported e g)
  generalize a.segOwn e g = own at hown ht
  have hdecode := State.reported_trans hown (own.2.segDecode_reported e g x.bytes)
  generalize own.2.segDecode e g x.bytes = v at hdecode ht
  have hsum := State.reported_trans hdecode (v.2.segSum_reported e false [own.1, v.1])
  generalize v.2.segSum e false [own.1, v.1] = y at hsum ht
  have hw := State.reported_trans hsum (y.2.segEncode_reported e g (e.stream + 1 + e.rank) y.1)
  generalize (y.2.segEncode e g (e.stream + 1 + e.rank) y.1).2 = w at hw ht
  have hcoll : w.coll = s.coll := (congrArg State.coll hw :)
  refine ⟨?_, q, ?_, rfl, rfl, (congrArg (·.time.timer) ha :), _, rfl, rfl, rfl, rfl, rfl⟩
  · rw [← ht, State.putInst, hw]
    rfl
  · rw [← ht]
    exact State.mem_putInst ⟨c, hcoll ▸ (State.inst_some hc).1, rfl, rfl⟩

/-! ### With no active instance (R525, R526, R533, R534, R542) -/

theorem State.collReduce_stale {s : State} {m : Msg} (hc : s.inst (collId m) = none) : s.collReduce m = s.count 0 (collCtr 3) 1 := by
  rw [State.collReduce, hc]

theorem State.collGather_stale {s : State} {m : Msg} (hc : s.inst (collId m) = none) : s.collGather m = s.count 0 (collCtr 3) 1 := by
  rw [State.collGather, hc]

theorem State.collAbort_dropped {s : State} {m : Msg} (hc : s.inst (collId m) = none)
    (h : s.coll.finished.contains (collId m) = true ∨ s.coll.stale.contains (collId m) = true) : s.collAbort m = s := by
  rw [State.collAbort, hc]
  exact if_pos (Bool.or_eq_true_iff.mpr h)

/-- An ABORT that is kept: the oldest of 32 gives way (R534). -/
theorem State.collAbort_kept {s : State} {m : Msg} (hc : s.inst (collId m) = none)
    (hf : s.coll.finished.contains (collId m) = false) (hs : s.coll.stale.contains (collId m) = false) {t : State}
    (ht : s.collAbort m = t) : t = ({ s with coll := { s.coll with aborts := t.coll.aborts } } : State).reported t ∧
      t.coll.aborts = (if 32 ≤ s.coll.aborts.length then s.coll.aborts.drop 1 else s.coll.aborts)
        ++ [(collId m, field m.payload 0 4 % 32768)] := by
  unfold State.collAbort at ht
  rw [hc] at ht
  dsimp -zeta only at ht
  extract_lets chip full a at ht
  rw [if_neg (by rw [hf, hs]; exact Bool.false_ne_true)] at ht
  have hr : a = s.reported a := s.count_reported ..
  have hcoll : a.coll = s.coll := (congrArg State.coll hr :)
  have hput : { a with coll := { a.coll with aborts := (if full then a.coll.aborts.drop 1 else a.coll.aborts) ++
    [(collId m, chip)] } } = t := ht
  rw [← hput]
  refine ⟨?_, ?_⟩
  · rw [hr]
    rfl
  · show (if full then a.coll.aborts.drop 1 else a.coll.aborts) ++ _ = _
    rw [hcoll]

theorem State.collBarrier_dropped {s : State} {m : Msg} (hc : s.inst (collId m) = none)
    (hs : s.coll.stale.contains (collId m) = true) : s.collBarrier m = s := by
  rw [State.collBarrier, hc]
  exact if_pos hs

theorem State.collBarrier_kept {s : State} {m : Msg} (hc : s.inst (collId m) = none)
    (hs : s.coll.stale.contains (collId m) = false) (hroom : s.coll.early.length < 1024) :
    s.collBarrier m = { s with coll := { s.coll with early := s.coll.early ++
      [(collId m, field m.payload 0 4, field m.payload 4 8, field m.payload 12 2 % 32768)] } } := by
  rw [State.collBarrier, hc]
  exact (if_neg (by rw [hs]; exact Bool.false_ne_true)).trans (if_neg (Nat.not_le.mpr hroom))

theorem State.collCredit_early {s : State} {m : Msg} (hc : s.inst (collId m) = none) : s.collCredit m =
    if field m.payload 0 8 = 64 ∧ (collId m, 2 * collOrder m + (1 - collDir m)) ∉ s.coll.credits ∧
        s.coll.stale.contains (collId m) = false then
      { s with coll := { s.coll with credits := s.coll.credits ++ [(collId m, 2 * collOrder m + (1 - collDir m))] } }
    else s := by
  rw [State.collCredit, hc]
  exact if_congr (by simp [and_assoc]) rfl rfl

/-! ### The statement -/

/-- The commands of COLL messages: each is what its kind makes of the message that it brings. -/
structure State.CollRuns (s : State) (m : Msg) : Prop where
  reduce : bits m.target 23 22 = 0 → ∀ t, s.collReduce m = t → t.tf.run = s.tf.run →
    exec (.collReduce m.header m.payload m.poison) s = .next t
  gather : bits m.target 23 22 = 1 → ∀ t, s.collGather m = t → t.tf.run = s.tf.run →
    exec (.collGather m.header m.payload m.poison) s = .next t
  abort : m.poison = [] → bits m.target 23 22 = 2 → ∀ t, s.collAbort m = t → t.tf.run = s.tf.run →
    exec (.collAbort m.header m.payload) s = .next t
  barrier : m.poison = [] → bits m.target 23 22 = 3 → ∀ t, s.collBarrier m = t → t.tf.run = s.tf.run →
    exec (.collBarrier m.header m.payload) s = .next t

theorem State.collRuns {s : State} {m : Msg} (h : s.hears m 0x07) : s.CollRuns m := by
  refine ⟨fun hk t ht hr => ?_, fun hk t ht hr => ?_, fun hp hk t ht hr => ?_, fun hp hk t ht hr => ?_⟩
  · exact congrArg Host.Outcome.next (State.takeColl_consumed h hk ((State.msgColl_reduce hk).trans ht) hr)
  · exact congrArg Host.Outcome.next (State.takeColl_consumed h hk ((State.msgColl_gather hk).trans ht) hr)
  · have htake := State.takeColl_consumed h hk ((State.msgColl_abort hk).trans ht) hr
    rw [hp] at htake
    exact congrArg Host.Outcome.next htake
  · have htake := State.takeColl_consumed h hk ((State.msgColl_barrier hk).trans ht) hr
    rw [hp] at htake
    exact congrArg Host.Outcome.next htake

theorem State.collCredit_runs {s t : State} {m : Msg} (h : s.hears m 0x08) (hp : m.poison = []) (ht : s.collCredit m = t)
    (hr : t.tf.run = s.tf.run) : exec (.collCredit m.header m.payload) s = .next t := by
  obtain ⟨-, -, -, -, -, -, -, htype, -⟩ := id h
  have htake := State.takeMsg_consumed h ((State.consume_collCredit htype).trans ht) hr
  rw [hp] at htake
  exact congrArg Host.Outcome.next htake

/-- Settles O38: a collective message is what its kind makes of it, with an active instance of its COLL_ID and without one. -/
theorem collectiveMessages : Obligations.CollectiveMessages := by
  intro s m
  refine ⟨fun h hc => ⟨?_, fun hp => ⟨fun hk => ⟨fun hdrop => ?_, fun hf hs => ?_⟩, fun hk hs => ?_, fun hk hs hroom => ?_⟩⟩,
    fun h hp hc => ?_, fun c hc => ⟨fun h hk hcoll hg _ ho hlost => ?_, fun sl hsl hn h => ⟨fun hk hkind hg hnew => ?_,
      fun hp hk => ?_, fun hp hk hkind hrel => ?_⟩, fun h hp => ?_⟩⟩
  · have hcount := s.count_reported 0 (collCtr 3) 1
    have hrun : (s.count 0 (collCtr 3) 1).tf.run = s.tf.run := (congrArg (·.tf.run) hcount :)
    intro x hx hk
    simp only [List.mem_cons, List.not_mem_nil, or_false] at hx
    obtain rfl | rfl := hx
    · exact ⟨_, (State.collRuns h).reduce hk _ (State.collReduce_stale hc) hrun, hcount⟩
    · exact ⟨_, (State.collRuns h).gather hk _ (State.collGather_stale hc) hrun, hcount⟩
  · exact (State.collRuns h).abort hp hk s (State.collAbort_dropped hc hdrop) rfl
  · obtain ⟨t, ht⟩ : ∃ t, s.collAbort m = t := ⟨_, rfl⟩
    have hkept := State.collAbort_kept hc hf hs ht
    exact ⟨t, (State.collRuns h).abort hp hk t ht (congrArg (·.tf.run) hkept.1 :), hkept⟩
  · exact (State.collRuns h).barrier hp hk s (State.collBarrier_dropped hc hs) rfl
  · exact (State.collRuns h).barrier hp hk _ (State.collBarrier_kept hc hs hroom) rfl
  · refine State.collCredit_runs h hp (State.collCredit_early hc) ?_
    split
    · rfl
    · rfl
  · obtain ⟨t, ht⟩ : ∃ t, s.collReduce m = t := ⟨_, rfl⟩
    have hpass := State.collReduce_passes hc hcoll hg ho hlost ht
    exact ⟨t, (State.collRuns h).reduce hk t ht (congrArg (·.tf.run) hpass.1 :), hpass⟩
  · have hgo := State.collGather_goesOn hc (State.inst_carries hc hsl hn) hkind hg hnew
    exact ⟨_, (State.collRuns h).gather hk _ rfl hgo.work.run, hgo.work.moves hsl, hgo.fares⟩
  · obtain ⟨hwork, hactive, st, node, value, hended, hsame⟩ := State.collAbort_ends hc (State.inst_carries hc hsl hn)
    obtain ⟨rfl, rfl⟩ := hsame (.inr (by decide))
    refine ⟨_, node, (State.collRuns h).abort hp hk _ rfl hwork.run, hwork.moves hsl, hended, fun i hi hsame => ?_⟩
    rw [hactive, State.othersActive, List.mem_filter, hsame.1, hsame.2] at hi
    simp at hi
  · have hgo := State.collBarrier_goesOn hc (State.inst_carries hc hsl hn) hkind hrel
    exact ⟨_, (State.collRuns h).barrier hp hk _ rfl hgo.work.run, hgo.work.moves hsl, hgo.fares⟩
  · obtain ⟨t, ht⟩ : ∃ t, s.collCredit m = t := ⟨_, rfl⟩
    have hgrant := State.collCredit_grants hc ht
    exact ⟨t, State.collCredit_runs h hp ht (congrArg (·.tf.run) hgrant.1 :), hgrant⟩

end Sys2Proof.Machine
end

section
/-! PROOFS. COLL_SEGMENT_SEND, COLL_TIMEOUT and BARRIER_RELEASE (R515, R525, R529, R532, R533, R539, R697). -/

namespace Sys2Proof.Machine

/-! ### Messages that this package forms (R467, R476) -/

theorem field_header_append (a b c : List Byte) : field (a ++ b ++ c) a.length b.length = leNat b := by
  have hdrop : (a ++ b ++ c).drop a.length = b ++ c := by rw [List.append_assoc, List.drop_left]
  rw [field, slice, hdrop, List.take_left, Nat.sub_self, List.replicate_zero, List.append_nil]

section
variable (s : State) (type dst target tag len : Nat) (payload : List Byte) (poison : List Bool)

theorem State.newMsg_dst : (s.newMsg type dst target tag len payload poison).dst = dst % 32768 := by
  have hfield := field_header_append (natLe 1 type ++ natLe 1 s.fab.epoch) (natLe 2 dst)
    (natLe 2 s.chipId ++ natLe 2 len ++ natLe 6 target ++ natLe 2 tag)
  simp only [List.length_append, natLe_length, leNat_natLe, ← List.append_assoc] at hfield
  rw [Msg.dst, State.newMsg, hfield]
  omega

theorem State.newMsg_epoch : bit (field (s.newMsg type dst target tag len payload poison).header 1 1) 0 = bit s.fab.epoch 0 := by
  have hfield := field_header_append (natLe 1 type) (natLe 1 s.fab.epoch)
    (natLe 2 dst ++ natLe 2 s.chipId ++ natLe 2 len ++ natLe 6 target ++ natLe 2 tag)
  simp only [natLe_length, leNat_natLe, ← List.append_assoc] at hfield
  rw [State.newMsg, hfield, bit, bit, show 256 ^ 1 = 2 ^ 8 from rfl, Nat.testBit_mod_two_pow]
  rfl

end

theorem State.send_reaches {s : State} {m : Msg} (h : m.dst = s.chipId ∨ (s.egress m).isSome = true) : (s.send m).1 = true := by
  unfold State.send
  split
  · rfl
  next hdst =>
    obtain ⟨x, hx⟩ := Option.isSome_iff_exists.mp (h.resolve_left hdst)
    rw [State.sendOn, hx]

/-! ### COLL_SEGMENT_SEND (R515, R525) -/

/-- The first ready segment that has credit, over the directed rings in order. -/
def CollInst.firstReady (c : CollInst) : Option Ready :=
  ((List.range c.orders.length).flatMap (fun o => [(o, 0), (o, 1)])).findSome? (fun od =>
    if 0 < c.credit (2 * od.1 + od.2) then c.nextReady od.1 od.2 else none)

theorem State.sendSegment_none {s : State} {c : CollInst} (h : c.firstReady = none) : s.sendSegment c = s := by
  unfold CollInst.firstReady at h
  rw [State.sendSegment, h]

/-- Chip x takes messages that this package forms. -/
def State.reachable (s : State) (x : Nat) : Prop :=
  ∀ m : Msg, m.dst = x % 32768 → bit (field m.header 1 1) 0 = bit s.fab.epoch 0 → m.dst = s.chipId ∨ (s.egress m).isSome = true

theorem State.sendSegment_sent {s t : State} {c : CollInst} {r : Ready} (hr : c.firstReady = some r) (hback : r.back = none)
    (hlost : c.lost = none) (hleft : c.ready.erase r ≠ []) (hreach : s.reachable (c.neighbour s.chipId r.order r.dir))
    (hactive : s.coll.active = [c]) (ht : s.sendSegment c = t) :
    ∃ i, t.coll.active = [i] ∧ i = { c with ready := c.ready.erase r, sent := i.sent } ∧
      mget 0 i.sent (2 * r.order + r.dir) = mget 0 c.sent (2 * r.order + r.dir) + 1 ∧
      t = ({ s with coll := { s.coll with active := [i] }, fab := t.fab } : State).reported t := by
  unfold CollInst.firstReady at hr
  unfold State.sendSegment at ht
  rw [hr] at ht
  dsimp -zeta only at ht
  extract_lets key peer m a d at ht
  have hsent : (s.send m).1 = true := State.send_reaches (hreach m (State.newMsg_dst ..) (State.newMsg_epoch ..))
  have ha : s.FabWork a := (s.send_fabWork m).trans (.count ..)
  rw [if_neg (by rw [hsent]; exact Bool.false_ne_true), hback] at ht
  clear_value a
  replace ht : a.checkDone d = t := ht
  rw [State.checkDone_ready (c := d) hlost hleft] at ht
  have hput : t.coll.active = [d] := by
    rw [← ht, State.putInst, ha.coll, hactive]
    simp [d]
  refine ⟨d, hput, rfl, mget_mput_self 0 (mget 0 c.sent key + 1) c.sent key, ?_⟩
  unfold State.FabWork at ha
  rw [← hput, ← ht, State.putInst, ha]
  rfl

/-! ### The instance of a slot -/

/-- No instance is of the slot. -/
theorem State.find_none {s : State} {k : Nat} (h : ∀ c ∈ s.coll.active, c.slot ≠ k) {p : CollInst → Bool}
    (hp : ∀ c, p c = true → c.slot = k) : s.coll.active.find? p = none := by
  rw [List.find?_eq_none]
  exact fun c hc hpc => h c hc (hp c hpc)

/-- The one instance is of the slot. -/
theorem State.find_single {s : State} {c : CollInst} (h : s.coll.active = [c]) {p : CollInst → Bool} (hp : p c = true) :
    s.coll.active.find? p = some c := by
  rw [h, List.find?_cons_of_pos hp]

theorem State.othersActive_single {s : State} {c : CollInst} (h : s.coll.active = [c]) : s.othersActive c = [] := by
  rw [State.othersActive, h, List.filter_cons_of_neg (by simp), List.filter_nil]

section
variable {s : State} {k : Nat}

theorem State.collSend_none (h : ∀ c ∈ s.coll.active, c.slot ≠ k) : s.collSend k = s := by
  rw [State.collSend, State.find_none h fun c hc => by simp at hc; exact hc.1.1]

theorem State.collTimeout_none (h : ∀ c ∈ s.coll.active, c.slot ≠ k) : s.collTimeout k = s := by
  rw [State.collTimeout, State.find_none h fun c hc => by simp at hc; exact hc.1]

theorem State.barrierRelease_none (h : ∀ c ∈ s.coll.active, c.slot ≠ k) : s.barrierRelease k = s := by
  rw [State.barrierRelease, State.find_none h fun c hc => by simp at hc; exact hc.1.1]

variable {c : CollInst} (h : s.coll.active = [c]) (hk : c.slot = k) (he : c.ended = none)
include h hk he

theorem State.collSend_single (hkind : c.kind ≠ .barrier) : s.collSend k = s.sendSegment c := by
  rw [State.collSend, State.find_single h (by simp [hk, he, hkind])]

theorem State.collTimeout_single : s.collTimeout k =
    if c.since + c.timeout ≤ s.time.timer && !s.timersPaused then s.timeoutInst c (c.waitedChip s.chipId) else s := by
  rw [State.collTimeout, State.find_single h (by simp [hk, he])]

theorem State.barrierRelease_single (hkind : c.kind = .barrier) {r : Nat} (hr : c.release = some r) :
    s.barrierRelease k = if r ≤ s.time.now then s.releaseBarrier c else s := by
  rw [State.barrierRelease, State.find_single h (by simp [hk, he, hkind])]
  dsimp only
  rw [hr]

end

/-- Settles O39: each command is what its operation makes of the one instance of the slot. -/
theorem collectivesGoOn : Obligations.CollectivesGoOn := by
  intro s k hstop hidle hk
  have hruns : ∀ {u t : State}, u = t → t.tf.run = s.tf.run →
      Host.Outcome.next (if s.nodesStopped then s else u.pump) = (.next t : Host.Outcome State Fault Refusal) := fun hu hr => by
    rw [hstop, hu, State.pump_idle (hr.trans hidle)]
    rfl
  refine ⟨fun hnone x hx => ?_, fun c sl hactive hslot hended hsl => ⟨fun hkind => ⟨fun hnot => ?_,
    fun r hr hback hlost hleft hreach => ?_⟩, fun hdue hgo => ?_, fun hearly => ?_, fun hkind r hr => ⟨fun hdue => ?_,
      fun hearly => ?_⟩⟩⟩
  · simp only [List.mem_cons, List.not_mem_nil, or_false] at hx
    obtain rfl | rfl | rfl := hx
    · exact hruns (State.collSend_none hnone) rfl
    · exact hruns (State.collTimeout_none hnone) rfl
    · exact hruns (State.barrierRelease_none hnone) rfl
  · exact hruns ((State.collSend_single hactive hslot hended hkind).trans (State.sendSegment_none hnot)) rfl
  · obtain ⟨t, ht⟩ : ∃ t, s.sendSegment c = t := ⟨_, rfl⟩
    obtain ⟨i, hone, hi, hsent, hframe⟩ := State.sendSegment_sent hr hback hlost hleft hreach hactive ht
    exact ⟨t, i, hruns ((State.collSend_single hactive hslot hended hkind).trans ht) (congrArg (·.tf.run) hframe :), hone, hi,
      hsent, hframe⟩
  · subst hslot
    obtain ⟨hwork, hothers, st, node, value, hend, hsame⟩ :=
      State.timeoutInst_ends (by omega) hsl (c.waitedChip s.chipId)
    obtain ⟨rfl, rfl⟩ := hsame (.inr (by decide))
    refine ⟨_, node, hruns ((State.collTimeout_single hactive rfl hended).trans (if_pos ?_)) hwork.run, hwork.moves hsl, hend, ?_⟩
    · rw [decide_eq_true hdue, hgo]
      rfl
    · rw [hothers, State.othersActive_single hactive]
  · refine hruns ((State.collTimeout_single hactive hslot hended).trans (if_neg ?_)) rfl
    obtain hearly | hpaused := hearly
    · rw [decide_eq_false (Nat.not_le.mpr hearly)]
      exact Bool.false_ne_true
    · rw [hpaused]
      simp
  · subst hslot
    obtain ⟨hwork, hothers, st, node, value, hend, hsame⟩ := State.releaseBarrier_ends (c := c) (by omega) hsl
    obtain ⟨rfl, rfl⟩ := hsame (.inl hkind)
    refine ⟨_, node, hruns ((State.barrierRelease_single hactive rfl hended hkind hr).trans (if_pos hdue)) hwork.run,
      hwork.moves hsl, hend, ?_⟩
    rw [hothers, State.othersActive_single hactive]
  · exact hruns ((State.barrierRelease_single hactive hslot hended hkind hr).trans (if_neg (Nat.not_le.mpr hearly))) rfl

end Sys2Proof.Machine
end

section
/-! PROOFS. A COLL of one member under XPORT 3, whose result is INEXACT: why the statement on the start of collectives fails (R160, R516, R543). -/

namespace Sys2Proof.Machine

/-! ### The start of an instance (R525, R534) -/

/-- An instance that is made active in a place. -/
def State.placed (s : State) (c : CollInst) : CollInst :=
  { c with
    place := ((List.range 32).find? (fun p => !s.coll.active.any (fun x => x.place == p))).getD 0
    sawPoison := c.inPoison.any id }

/-- The state in which an instance has been made active. -/
def State.joined (s : State) (c : CollInst) : State :=
  { s with coll := { s.coll with
      active := s.coll.active ++ [s.placed c]
      finished := s.coll.finished.filter (· != c.id)
      stale := s.coll.stale.filter (· != c.id) } }

/-- A COLL or COUNTS for which no ABORT is kept takes its credits, grants its own, and sends what it may (R525). -/
def State.seeded (s : State) (c : CollInst) : CollInst × State :=
  let x := (s.joined c).takeCredits (s.placed c)
  let y := x.2.grantAll x.1
  if y.1.lost.isSome then y else y.2.seedSegs y.1

theorem State.startInst_seeded {s : State} {c : CollInst} (hk : c.kind ≠ .barrier)
    (ha : s.coll.aborts.find? (fun a => a.1 == c.id) = none) :
    s.startInst c = (s.seeded c).2.checkDone (s.seeded c).1 := by
  have hkind : (c.kind == .barrier) = false := by simpa using hk
  unfold State.startInst
  extract_lets place mine d _ u
  have hu : u = s.joined c := by
    unfold u State.joined
    rw [show (d.kind == CollKind.barrier) = false from hkind]
    rfl
  rw [show u.coll.aborts.find? (fun a => a.1 == d.id) = none from ha]
  dsimp -zeta only
  rw [if_neg (by rw [show (d.kind == CollKind.barrier) = false from hkind]; exact Bool.false_ne_true), hu]
  unfold State.seeded
  rw [show d = s.placed c from rfl]

/-- What an ALLREDUCE of records that writes records, with VAR 0, starts from (Table 14.3). -/
def State.recordsInst (s : State) (k : Nat) (sl : Slot) (orders : List (List Nat)) (arr : Nat) (buf : List Byte) (ps : List Bool) :
    CollInst :=
  { s.blankInst .coll k (field sl.desc 44 2) orders (s.timeoutBeats (field sl.desc 41 3)) with
    xport := 3, outFmt := none, wrnd := 0, key := field sl.desc 56 8, stream := field sl.desc 52 4
    segs := fixedSegs (field sl.desc 46 5) 255 orders.length ((orders[0]?).getD []).length
    input := buf, inPoison := poisonGroups 16 ps, out := some (addr48 sl.desc 20), arr := some arr }

theorem State.runColl_records {s t : State} {k : Nat} {sl : Slot} {orders : List (List Nat)} {arr : Nat}
    (hctl : field sl.desc 38 1 = 0x30) (hfmt : field sl.desc 39 1 = 0xF0) (hrnd : field sl.desc 40 1 = 0)
    (hcheck : s.collCheck k sl false false 4 = (some (orders, arr, false), t))
    (hin : inTier (addr48 sl.desc 14) (field sl.desc 46 5 * 16) = true)
    (hout : inTier (addr48 sl.desc 20) (field sl.desc 46 5 * 16) = true) (helems : field sl.desc 46 5 ≠ 0) {buf : List Byte}
    {ps : List Bool} {u : State} (hread : t.readLocal (addr48 sl.desc 14) (16 * field sl.desc 46 5) = (buf, ps, u)) :
    s.runColl k sl = u.startInst (t.recordsInst k sl orders arr buf ps) := by
  unfold State.runColl
  have hvar : bit 0x30 7 = false := rfl
  have hx : bits 0x30 5 4 = 3 := rfl
  have hw : bits 0x30 6 6 = 0 := rfl
  have hr : bits 0x30 3 2 = 0 := rfl
  have hclamp : ∀ x : State, x.clamp sl.source 0 = x := fun _ => rfl
  have hfree : anyP [] = false := rfl
  simp only [hctl, hfmt, hrnd, hvar, hx, hw, hr, hcheck]
  simp [CollInst.inBytes, CollInst.outBytes, b2n, hclamp, hfree, hin, hout, helems, hread, State.recordsInst, State.blankInst, segElems]

/-! ### A member alone whose record is inexact (R160, R516, R543) -/

/-- A COLL that sums one record at address 64, as record, for the group at address 0, with OUT at 96 and ARR_BASE at 128. -/
def loneDesc : List Byte :=
  [0x30] ++ List.replicate 7 0 ++ natLe 6 0 ++ natLe 6 64 ++ natLe 6 96 ++ natLe 6 128 ++ natLe 6 0 ++ [0x30, 0xF0, 0] ++ natLe 5 0
    ++ natLe 5 1 ++ List.replicate 13 0

/-- The slot that runs it at the package root. -/
def loneSlot : Slot := { bareSlot .running 0x30 with desc := loneDesc }

/-- A package in which it runs. Its group table holds one order, of this package alone, and the record at 64 bears the mark INEXACT. -/
def loneState : State :=
  { State.reset with
    rst := { RstState.reset with vaux := true, pkgRun := true, bar0 := true }
    tree := { TreeState.reset with ready := true }
    host := { State.reset.host with slots := [(0, some loneSlot)] }
    mem := { State.reset.mem with cells := [(2, 1), (77, 4)] } }

/-- Once it has been checked. -/
def loneChecked : State := (loneState.collCheck 0 loneSlot false false 4).2

/-- Once its input has been read. -/
def loneRead : List Byte × List Bool × State := loneChecked.readLocal 64 16

/-- The instance that starts. -/
def loneInst : CollInst := loneChecked.recordsInst 0 loneSlot [[0]] 128 loneRead.1 loneRead.2.1

/-- The instance with all its work done, and the state in which it is about to end. -/
def loneDone : CollInst × State := loneRead.2.2.seeded loneInst

theorem loneState_works : loneState.works 0 loneSlot :=
  ⟨by decide, by decide, by decide, by decide, by decide, by decide⟩

theorem loneState_legal : loneState.collLegal loneSlot = true := by decide

theorem loneState_room : (loneState.coll.active.filter (fun i => i.ended.isNone)).length + loneState.collAhead loneSlot < 16 := by
  decide

theorem loneState_group : loneState.readGroup (addr48 loneSlot.desc 8 / 16 * 16) = some ([[0]], 0) := by decide

theorem loneState_check : loneState.collCheck 0 loneSlot false false 4 = (some ([[0]], 128, false), loneChecked) := by
  have h : (loneState.collCheck 0 loneSlot false false 4).1 = some ([[0]], 128, false) := by decide
  exact Prod.ext h rfl

theorem loneState_starts : loneState.runColl 0 loneSlot = loneDone.2.checkDone loneDone.1 := by
  have hbuf : loneChecked.readLocal (addr48 loneSlot.desc 14) (16 * field loneSlot.desc 46 5) =
      (loneRead.1, loneRead.2.1, loneRead.2.2) := by
    rw [show addr48 loneSlot.desc 14 = 64 by decide, show field loneSlot.desc 46 5 = 1 by decide]
    rfl
  rw [State.runColl_records (by decide) (by decide) (by decide) loneState_check (by decide)
    (by decide) (by decide) hbuf]
  exact State.startInst_seeded nofun (by decide)

/-- What the kernel evaluates of the instance: its sum, the record itself, is inexact, and nothing of it is poisoned or left to do; no
other is active beside it, its summary is written, and its slot holds the descriptor, begun. -/
theorem loneDone_spec :
    (loneDone.1.finished loneDone.2.chipId = true ∧ loneDone.1.lost = none ∧ loneDone.1.inexact = 1 ∧ loneDone.1.poisoned = 0 ∧
      loneDone.1.sawPoison = false ∧ loneDone.1.slot = 0 ∧ loneDone.1.kind = .coll) ∧
    (loneDone.2.othersActive loneDone.1).length = 0 ∧
    ((loneDone.2.instLeaves loneDone.1 .inexact).writeSummary loneDone.1.mergeHeard).1 = false ∧
    loneDone.2.slot 0 = some { loneSlot with begun := true } ∧ loneDone.2.stamp = loneState.stamp := by
  decide +kernel

theorem State.checkDone_inexact {s : State} {c : CollInst} (hl : c.lost = none) (hf : c.finished s.chipId = true) (hi : c.inexact ≠ 0)
    (hp : c.poisoned = 0) (hw : c.sawPoison = false) : s.checkDone c = s.endInst c .inexact c.inexact := by
  unfold State.checkDone
  rw [hl, hf, hp, hw]
  simp [hi, statusOf]

/-- An instance with a slot whose summary does not read poisoned ends with its own status, and with the others alone active. -/
theorem State.endInst_good {s : State} {c : CollInst} {sl : Slot} (hk : c.kind ≠ .barrier) (hn : c.slot ≠ 4096)
    (hs : s.slot c.slot = some sl) {st : Status} (hw : ((s.instLeaves c st).writeSummary c.mergeHeard).1 = false) (detail : Nat) :
    (s.endInst c st detail).coll.active = s.othersActive c ∧
      ∃ node value, s.ended (s.endInst c st detail) c.slot sl st node value := by
  obtain ⟨value, -, hend⟩ := State.endInst_data hk hn st detail (Prod.ext hw rfl)
  obtain ⟨hwork, hactive, hslots⟩ := s.instLeaves_spec c st c.slot
  have hsum := (s.instLeaves c st).writeSummary_bytes c.mergeHeard
  obtain ⟨-, hcoll, node, hended⟩ := State.finish_ends ((hsum.slot _).trans ((hslots c.slot).trans hs)) 4 st value
  rw [hend]
  exact ⟨by rw [← hactive, ← hsum.coll, ← hcoll]; rfl, node, _,
    hended.between ((hsum.collWork c.slot).stamp.trans hwork.stamp) rfl⟩

theorem loneDone_ends : loneDone.2.checkDone loneDone.1 = loneDone.2.endInst loneDone.1 .inexact 1 := by
  obtain ⟨⟨hfin, hlost, hinexact, hpoisoned, hsaw, -, -⟩, -⟩ := loneDone_spec
  generalize loneDone = p at *
  rw [State.checkDone_inexact hlost hfin (hinexact ▸ Nat.one_ne_zero) hpoisoned hsaw, hinexact]

theorem loneState_runs : exec (.coll 0) loneState = .next (loneDone.2.endInst loneDone.1 .inexact 1) := by
  rw [← loneDone_ends, ← loneState_starts]
  exact congrArg Host.Outcome.next (State.withDesc_of_works loneState_works (by decide) (fun sl s => s.runColl 0 sl))

/-- The descriptor completes at once with INEXACT, and no instance is left. -/
theorem loneState_ends : ∃ t, exec (.coll 0) loneState = .next t ∧ t.coll.active = [] ∧
    ∃ node value, loneState.ended t 0 loneSlot .inexact node value := by
  obtain ⟨⟨-, -, -, -, -, hslot, hkind⟩, halone, hgood, hdesc, hstamp⟩ := loneDone_spec
  refine ⟨_, loneState_runs, ?_⟩
  generalize loneDone = p at *
  obtain ⟨hactive, node, value, hended⟩ := State.endInst_good (hkind ▸ nofun) (hslot ▸ nofun) (hslot.symm ▸ hdesc) hgood 1
  obtain ⟨sl', hsl', hdone, hsame, hrec⟩ := hended.between hstamp rfl
  exact ⟨hactive.trans (List.eq_nil_of_length_eq_zero halone), node, value, sl', hslot ▸ hsl', hdone, hsame, hrec⟩

/-- Refutes O37: in `loneState` the COLL of a member alone is legal and every other member of its group, there being none, is reachable;
yet its record bears INEXACT, as R160 and R516 have it, so that it completes INEXACT (R543), which is neither OK nor POISON, and
no instance stays active. -/
theorem not_collectivesStart : ¬ Obligations.CollectivesStart := by
  intro h
  obtain ⟨-, hstart⟩ := h loneState 0 loneSlot loneState_works (by decide) (by decide) (.coll 0, 0x30, .coll) (.head _)
    (by decide)
  obtain ⟨t, hrun, -, -, hroom⟩ := hstart rfl
  obtain ⟨-, hlegal, -⟩ := hroom loneState_room
  obtain ⟨t', hrun', hnone, node', value', slot', hslot', -, -, hinexact⟩ := loneState_ends
  obtain rfl : t' = t := Host.Outcome.next.inj (hrun'.symm.trans hrun)
  have hreach : loneState.membersReachable loneSlot := by
    intro orders clamps hgroup m hm _
    obtain ⟨rfl, -⟩ := Prod.mk.inj (Option.some.inj (loneState_group.symm.trans hgroup))
    have hdst : m.dst = 0 := by simpa using hm
    exact .inl (hdst.trans (by decide))
  obtain ⟨st, node, value, hst, slot, hslot, -, -, hrec⟩ | ⟨i, hi, -⟩ := hlegal loneState_legal hreach
  · obtain rfl : slot' = slot := Option.some.inj (hslot'.symm.trans hslot)
    have hcode := congrArg (fun r : List Byte => r[2]?) (hinexact.symm.trans hrec)
    obtain rfl | rfl := hst
    · exact absurd hcode nofun
    · exact absurd hcode nofun
  · rw [hnone] at hi
    exact absurd hi nofun

end Sys2Proof.Machine
end
